-- ==== Sys2Proof/Word.lean ====
section
/-! DEFINITION. The word types of the Tlaton TX9. -/

namespace Sys2Proof

/-- One byte of memory (R13). -/
abbrev Byte := BitVec 8

/-- A 32-bit syllable word, facet lane or extended immediate (R13, R21, R176). -/
abbrev W32 := BitVec 32

/-- A 64-bit scalar register, parcel or control register (R13, R18, R85). -/
abbrev W64 := BitVec 64

/-- A 57-bit virtual address (R131, R218). -/
abbrev VAddr := BitVec 57

end Sys2Proof
end

