-- ==== Sys2Proof/Config.lean ====
section
/-! DEFINITION. What the stepping fixes, and the free values: constants without a body, so that nothing
can be proved about the value they give (log entries 4 to 6). -/

namespace Sys2Proof

/-- Free choice number `n` at place `k`: which of the two values a read between issue and landing receives
(R117). No body: log entry 4. -/
opaque Config.freePick : Nat → Nat → Bool

/-- Free 64-bit value number `n` at place `k`, for a value the manual leaves undefined (R98, R174, R196,
R325, R328, R358). No body: log entry 4. -/
opaque Config.freeWord : Nat → Nat → W64

/-- Byte `i` of physical line `line`, whose bytes `bytes` were written under tag `was`, as a mapping of tag `now` yields it: the
whole line is the data unit (R226: never the plaintext of the other mapping). No body: log entry 5. -/
opaque Config.cipherByte : (was now : Option (BitVec 8)) → (line : Nat) → (bytes : List Byte) → (i : Nat) → Byte

/-- Whether an image with this SM3 hash passes the SM2 signature check of a boot stage (R393). The standards
SM2 and SM3 are not in the manual. No body: log entry 6. -/
opaque Config.signatureGood : (stage : Nat) → (hash : Nat) → Bool

/-- The measurement register after it is extended with a hash (R393). No body: log entry 6. -/
opaque Config.extendMeasure : (old hash : Nat) → Nat

/-- The SM3 hash of the fabric window table, its OPEN and WR bits by entry, and DEVID (R393). No body: log entry 6. -/
opaque Config.tableHash : List (BitVec 2) → BitVec 7 → Nat

/-- The redundant rows of an array of a core, by its number in the list of R366 (R375: as laid down for the stepping, which the
manual does not say). No body: log entry 87. -/
opaque Config.spareRows : Nat → Nat

/-- The lease length L of this stepping (R216). -/
abbrev Config.lease : Nat := 8

/-- The stepping identifier, stepid[15:0] (R204): family 0x09, step 0x01. -/
abbrev Config.stepid : Nat := 0x0901

/-- The bound on rounds of refinement of VEXP2, VLOG2 and TEXP2 (log entry 7). -/
abbrev Config.transRounds : Nat := 12

end Sys2Proof
end

