-- ==== Sys2Proof/Syntax.lean ====
section
/-! DEFINITION. The syntax of the TX9: one constructor of `Instr` for each row of spec/opcode_table.json. The
first 224 are the syllables of the eleven slot maps (R140, R152, R162, R172, R181, R343, R84, R309); the last 78
are the events that the table lists as indivisible steps of the device. -/

namespace Sys2Proof

/-- Slot kinds in the fixed order of R15. -/
inductive Kind where
  | br | sa | sb | am | xf | f | xs | em | et | ev | ec | ek
  deriving DecidableEq, Repr

/-- A scalar source code of R19. -/
inductive Src where
  | port (i : Fin 4)          -- codes 0 to 3
  | byp (i : Fin 4)           -- codes 4 to 7
  | zero                      -- code 8
  | ext                       -- code 9: the IX syllable, sign-extended
  | imm (v : BitVec 4)        -- codes 16 to 31
  deriving DecidableEq, Repr

/-- A scalar destination code of R19. -/
inductive Dst where
  | s (i : Fin 56)            -- codes 0 to 55; s0 discards
  | bs (i : Fin 4)            -- codes 56 to 59
  deriving DecidableEq, Repr

/-- A facet register that may be source or destination (R20, codes 0 to 35). -/
inductive VReg where
  | v (i : Fin 32)
  | bf (i : Fin 4)
  deriving DecidableEq, Repr

/-- A facet source code of R20. -/
inductive FSrc where
  | r (r : VReg)
  | zero                      -- code 36
  | ext                       -- code 37
  | imm (v : BitVec 4)        -- codes 48 to 63
  deriving DecidableEq, Repr

/-- The scopes of R240, codes 0 to 9. -/
inductive Scope where
  | task | core | clu | die | dev | grp | host | node | dom | sys
  deriving DecidableEq, Repr

/-- The format codes of R63 that a tile may have. -/
inductive Fmt where
  | fp32 | bf16 | fp16 | e4m3 | e5m2 | e2m1b32 | e2m1b16 | int8 | int32
  deriving DecidableEq, Repr

/-- The conditions of CMP (R160), codes 0 to 11. -/
inductive Cond where
  | eq | ne | lt | le | gt | ge | ltu | leu | gtu | geu | tst | ntst
  deriving DecidableEq, Repr

/-- The operations of PLOG and QLOG (R161), codes 0 to 7. -/
inductive Lop where
  | and | or | xor | andn | orn | nand | nor | xnor
  deriving DecidableEq, Repr

/-- The kinds of CBO (R170), codes 0 to 2. -/
inductive CboKind where
  | clean | flush | zero
  deriving DecidableEq, Repr

/-- The reductions of XRED (R174), codes 0 to 7. -/
inductive XredOp where
  | add | and | or | xor | max | min | any | mask
  deriving DecidableEq, Repr

/-- The conversions of VCVT (R187), codes 0 to 10. -/
inductive CvtKind where
  | i32f32 | f32i32 | bf16f32 | f32bf16 | f16f32 | f32f16 | e4m3f32 | f32e4m3 | e5m2f32 | f32e5m2 | i8f32
  deriving DecidableEq, Repr

/-- The two-bit mode field of R72. -/
inductive RMode where
  | rn | rz | rs | dyn
  deriving DecidableEq, Repr

/-- The conditions of VCMP (R189), codes 0 to 15. -/
inductive VCond where
  | eq | ne | lt | le | gt | ge | un | ord | ieq | ine | ilt | ile | igt | ige | iltu | igeu
  deriving DecidableEq, Repr

/-- The operations of VRED and VSCAN (R194), codes 0 to 8. -/
inductive RedOp where
  | add | max | min | iadd | imax | imin | and | or | xor
  deriving DecidableEq, Repr

/-- The kinds of VDOT (R195), codes 0 to 3. -/
inductive DotKind where
  | f32 | bf16 | i8 | i32
  deriving DecidableEq, Repr

/-- The element size of a facet access: 1, 2 or 4 bytes (R197), codes 0 to 2. -/
inductive VSize where
  | b | h | w
  deriving DecidableEq, Repr

/-- The combinations of a collective (R325), codes 0 to 5. -/
inductive Rop where
  | add | max | min | and | or | xor
  deriving DecidableEq, Repr

/-- The element types of a collective (R325). -/
inductive EType where
  | fp32 | bf16 | fp16 | int8 | int32
  deriving DecidableEq, Repr

/-- The relations of MGRD (R298), codes 0 to 5. -/
inductive Rel where
  | eq | ne | lt | ge | ltu | geu
  deriving DecidableEq, Repr

/-- The kinds of TLBI (R331), codes 0 to 2. -/
inductive TlbiKind where
  | page | asid | all
  deriving DecidableEq, Repr

/-! Operands of the syllables. `g` is the guard predicate (R18) or `q` the guard mask (R20); `ix` is the IX
syllable when IXE = 1 (R21). -/

/-- BR, CALL, IPF (R140): the offset in parcels, or in the IX syllable with `ofs` zero. -/
structure OBr where
  g : Fin 16
  ix : Option W32
  ofs : BitVec 20
  deriving DecidableEq, Repr

structure OBrc where
  g : Fin 16
  ix : Option W32
  a : Src
  nz : Bool
  ofs : BitVec 14
  deriving DecidableEq, Repr

structure OBrq where
  g : Fin 16
  ix : Option W32
  f : Fin 8
  qc : Fin 8
  qe : Fin 8
  ofs : BitVec 11
  deriving DecidableEq, Repr

/-- JMPI, CALLI, RET (R140). -/
structure OBrA where
  g : Fin 16
  a : Src
  deriving DecidableEq, Repr

/-- LOOP (R144): `c` is the number of the counter register. -/
structure OLoop where
  g : Fin 16
  ix : Option W32
  c : Fin 64
  ofs : BitVec 14
  deriving DecidableEq, Repr

/-- A syllable with a guard and no other operand. -/
structure OG where
  g : Fin 16
  deriving DecidableEq, Repr

structure OWait where
  g : Fin 16
  cls : BitVec 5
  n : BitVec 8
  deriving DecidableEq, Repr

structure OFence where
  g : Fin 16
  pred : BitVec 6
  succ : BitVec 6
  scope : Scope
  deriving DecidableEq, Repr

/-- FENCER (R149): masks and scope come from the required IX syllable. -/
structure OFencer where
  g : Fin 16
  a : Src
  b : Src
  pred : BitVec 6
  succ : BitVec 6
  scope : Scope
  deriving DecidableEq, Repr

structure OLwatch where
  g : Fin 16
  ix : Option W32
  a : Src
  b : Src
  scope : Scope
  deriving DecidableEq, Repr

/-- The register form of R18: D, A, B. -/
structure OR3 where
  g : Fin 16
  ix : Option W32
  d : Dst
  a : Src
  b : Src
  deriving DecidableEq, Repr

/-- The register form with B reserved. -/
structure OR2 where
  g : Fin 16
  ix : Option W32
  d : Dst
  a : Src
  deriving DecidableEq, Repr

/-- The register form with a number in FN: SEL's predicate, LEA's shift. -/
structure OR3n where
  g : Fin 16
  ix : Option W32
  d : Dst
  a : Src
  b : Src
  n : Fin 16
  deriving DecidableEq, Repr

/-- MOV to a staging register (R157). -/
structure OStg where
  g : Fin 16
  ix : Option W32
  d : Fin 40
  a : Src
  deriving DecidableEq, Repr

/-- MOV.patch (R157): launch argument `k` plus the signed offset `off`, both in the IX syllable. -/
structure OPatch where
  g : Fin 16
  d : Fin 40
  a : Src
  k : Fin 6
  off : BitVec 29
  deriving DecidableEq, Repr

/-- MOVI (R156): A reserved. -/
structure OMovi where
  g : Fin 16
  ix : Option W32
  d : Dst
  b : Src
  deriving DecidableEq, Repr

/-- BFX (R159): position and width (1 to 64) from the required IX syllable. -/
structure OBfx where
  g : Fin 16
  d : Dst
  a : Src
  pos : Fin 64
  w : Fin 65
  deriving DecidableEq, Repr

structure OBfi where
  g : Fin 16
  d : Dst
  a : Src
  b : Src
  pos : Fin 64
  w : Fin 65
  deriving DecidableEq, Repr

/-- CMP (R160): `pe` is the pair, whose even register is p(2·pe). -/
structure OCmp where
  g : Fin 16
  ix : Option W32
  pe : Fin 8
  a : Src
  b : Src
  c : Cond
  deriving DecidableEq, Repr

structure OPlog where
  g : Fin 16
  pe : Fin 8
  pa : Fin 16
  pb : Fin 16
  op : Lop
  deriving DecidableEq, Repr

/-- LD, AMO, CAS (R162): with a scope. -/
structure OLd where
  g : Fin 16
  ix : Option W32
  d : Dst
  a : Src
  b : Src
  scope : Scope
  deriving DecidableEq, Repr

structure OSt where
  g : Fin 16
  ix : Option W32
  v : Src
  a : Src
  b : Src
  scope : Scope
  deriving DecidableEq, Repr

structure OStl where
  g : Fin 16
  ix : Option W32
  v : Src
  a : Src
  b : Src
  deriving DecidableEq, Repr

structure OPfd where
  g : Fin 16
  ix : Option W32
  die : Bool
  a : Src
  b : Src
  deriving DecidableEq, Repr

structure OCbo where
  g : Fin 16
  ix : Option W32
  kind : CboKind
  a : Src
  b : Src
  scope : Scope
  deriving DecidableEq, Repr

structure OCsrr where
  g : Fin 16
  d : Dst
  csr : BitVec 12
  deriving DecidableEq, Repr

structure OCsrw where
  g : Fin 16
  ix : Option W32
  a : Src
  csr : BitVec 12
  deriving DecidableEq, Repr

structure OXbc where
  g : Fin 16
  ix : Option W32
  f : Fin 8
  all : Bool
  vd : VReg
  a : Src
  deriving DecidableEq, Repr

structure OXin where
  g : Fin 16
  ix : Option W32
  f : Fin 8
  vd : VReg
  a : Src
  lane : Fin 16
  deriving DecidableEq, Repr

structure OXex where
  g : Fin 16
  d : Dst
  f : Fin 8
  va : VReg
  lane : Fin 16
  deriving DecidableEq, Repr

/-- XRED (R174): with the operation `mask`, `va` is v0 to v7 and names q0 to q7. -/
structure OXred where
  g : Fin 16
  d : Dst
  f : Fin 8
  va : VReg
  op : XredOp
  deriving DecidableEq, Repr

/-- Layout V with two sources (R182). -/
structure OV3 where
  q : Fin 8
  ix : Option W32
  d : VReg
  a : FSrc
  b : FSrc
  deriving DecidableEq, Repr

/-- Layout V with one source. -/
structure OV2 where
  q : Fin 8
  ix : Option W32
  d : VReg
  a : FSrc
  deriving DecidableEq, Repr

/-- VEXP2 (R186): the factor `c` is the required IX syllable. -/
structure OVexp where
  q : Fin 8
  d : VReg
  a : FSrc
  b : FSrc
  c : W32
  deriving DecidableEq, Repr

structure OVcvt where
  q : Fin 8
  ix : Option W32
  d : VReg
  a : FSrc
  kind : CvtKind
  rm : RMode
  deriving DecidableEq, Repr

/-- VCMP (R189): `qe` is the pair, whose even register is q(2·qe). -/
structure OVcmp where
  q : Fin 8
  ix : Option W32
  qe : Fin 4
  a : FSrc
  b : FSrc
  c : VCond
  deriving DecidableEq, Repr

structure OVsel where
  q : Fin 8
  ix : Option W32
  d : VReg
  a : FSrc
  b : FSrc
  n : Fin 8
  deriving DecidableEq, Repr

/-- VMOV (R192): takes no IX. -/
structure OVmov where
  q : Fin 8
  d : VReg
  a : FSrc
  deriving DecidableEq, Repr

structure OVred where
  q : Fin 8
  d : VReg
  a : FSrc
  op : RedOp
  deriving DecidableEq, Repr

structure OVdot where
  q : Fin 8
  ix : Option W32
  d : VReg
  a : FSrc
  b : FSrc
  kind : DotKind
  deriving DecidableEq, Repr

structure OVcopy where
  q : Fin 8
  d : VReg
  a : VReg
  srcf : Fin 8
  deriving DecidableEq, Repr

/-- VLD, VST (layout M of R182). -/
structure OVmem where
  q : Fin 8
  ix : Option W32
  d : VReg
  ab : Fin 4
  sz : VSize
  scope : Scope
  ofs : BitVec 8
  deriving DecidableEq, Repr

/-- VGTH, VSCT (layout G of R182). -/
structure OVgs where
  q : Fin 8
  d : VReg
  a : FSrc
  ab : Fin 4
  sz : VSize
  scope : Scope
  deriving DecidableEq, Repr

structure OVldt where
  q : Fin 8
  ix : Option W32
  d : VReg
  ab : Fin 4
  hi : Bool
  scope : Scope
  ofs : BitVec 8
  deriving DecidableEq, Repr

structure OVstt where
  q : Fin 8
  ix : Option W32
  d : VReg
  ab : Fin 4
  scope : Scope
  ofs : BitVec 8
  deriving DecidableEq, Repr

structure OQlog where
  q : Fin 8
  qe : Fin 4
  qa : Fin 8
  qb : Fin 8
  op : Lop
  deriving DecidableEq, Repr

structure ODset where
  q : Fin 8
  ix : Option W32
  d : Fin 8
  a : FSrc
  deriving DecidableEq, Repr

/-- DSMP (R346): the first of eight registers, v0 to v24. -/
structure ODsmp where
  q : Fin 8
  d : Fin 8
  n : Fin 25
  deriving DecidableEq, Repr

/-- DLD, DST (layout DM of R344). -/
structure ODmem where
  q : Fin 8
  ix : Option W32
  d : Fin 8
  ab : Fin 4
  scope : Scope
  ofs : BitVec 8
  deriving DecidableEq, Repr

structure ODbin where
  q : Fin 8
  d : Fin 8
  a : Fin 8
  b : Fin 8
  deriving DecidableEq, Repr

/-- DAFF, DCND (layout DV of R344). -/
structure ODaff where
  q : Fin 8
  ix : Option W32
  d : Fin 8
  a : Fin 8
  va : FSrc
  vb : FSrc
  deriving DecidableEq, Repr

structure ODmix where
  q : Fin 8
  ix : Option W32
  d : Fin 8
  a : Fin 8
  b : Fin 8
  w : FSrc
  deriving DecidableEq, Repr

/-- DMOM (R355): the first of four registers, v0 to v28. -/
structure ODmom where
  q : Fin 8
  vd : Fin 29
  a : Fin 8
  deriving DecidableEq, Repr

structure ODqnt where
  q : Fin 8
  ix : Option W32
  vd : VReg
  a : Fin 8
  b : FSrc
  deriving DecidableEq, Repr

structure ODtag where
  q : Fin 8
  d : Fin 8
  deriving DecidableEq, Repr

/-- An engine syllable with a scope alone (layouts M and C). -/
structure OGS where
  g : Fin 16
  scope : Scope
  deriving DecidableEq, Repr

/-- TPICK, TROT: the depth; TDROP: the count less one. -/
structure ODep where
  g : Fin 16
  d : BitVec 12
  deriving DecidableEq, Repr

structure OMark where
  g : Fin 16
  k : Fin 8
  deriving DecidableEq, Repr

/-- TZERO, TFILL: columns and rows less one, and the format. -/
structure OMake where
  g : Fin 16
  c : Fin 64
  r : Fin 64
  f : Fmt
  deriving DecidableEq, Repr

/-- TSHAPE, TBC: columns and rows less one. -/
structure OShape where
  g : Fin 16
  c : Fin 64
  r : Fin 64
  deriving DecidableEq, Repr

structure OJoin where
  g : Fin 16
  h : Bool
  deriving DecidableEq, Repr

structure OFromv where
  g : Fin 16
  vb : Fin 32
  r : Fin 64
  f : Fmt
  deriving DecidableEq, Repr

structure OTov where
  g : Fin 16
  vb : Fin 32
  r : Fin 64
  deriving DecidableEq, Repr

structure OTcvt where
  g : Fin 16
  rm : RMode
  f : Fmt
  deriving DecidableEq, Repr

structure OBlk where
  g : Fin 16
  scope : Scope
  k : Fin 16
  deriving DecidableEq, Repr

structure OBlkRel where
  g : Fin 16
  k : Fin 16
  deriving DecidableEq, Repr

structure OSort where
  g : Fin 16
  scope : Scope
  scat : Bool
  deriving DecidableEq, Repr

/-- KAR, KRS. -/
structure OKar where
  g : Fin 16
  scope : Scope
  d : Fin 56
  op : Rop
  e : EType
  deriving DecidableEq, Repr

/-- KAG, KBC. -/
structure OKag where
  g : Fin 16
  scope : Scope
  d : Fin 56
  e : EType
  deriving DecidableEq, Repr

structure OKrecv where
  g : Fin 16
  scope : Scope
  d : Fin 56
  deriving DecidableEq, Repr

/-- SPAWN, QRES, QTAKE. -/
structure OKd where
  g : Fin 16
  d : Fin 56
  deriving DecidableEq, Repr

structure OTok where
  g : Fin 16
  scope : Scope
  k : Fin 8
  deriving DecidableEq, Repr

structure OJoinG where
  g : Fin 16
  n : Fin 256
  deriving DecidableEq, Repr

structure OMgrd where
  g : Fin 16
  rel : Rel
  k : Fin 6
  deriving DecidableEq, Repr

structure OTlbi where
  g : Fin 16
  k : TlbiKind
  deriving DecidableEq, Repr

/-- What an access of another device does (R390). -/
inductive FabricOp where
  | read | write | add | and | or | xor | min | max | swp
  | cas (expected : List Byte)
  deriving DecidableEq, Repr

/-- An incoming access of another device of the load-store domain (R390, R391): what it does to `data.length` bytes at an offset, with
its operand. -/
structure FabricReq where
  dev : Fin 128
  ofs : BitVec 39
  op : FabricOp
  data : List Byte
  asid : BitVec 8
  e : Bool
  deriving DecidableEq, Repr

/-- The rows of spec/opcode_table.json. In the events, `u` is the number of a task, `c` of a command or of an
entry of it, `e` of an element. -/
inductive Instr where
  | br (o : OBr)   -- BR, R142
  | brc (o : OBrc)   -- BRC, R142
  | brq (o : OBrq)   -- BRQ, R124
  | jmpi (o : OBrA)   -- JMPI, R142
  | call (o : OBr)   -- CALL, R143
  | calli (o : OBrA)   -- CALLI, R143
  | ret (o : OBrA)   -- RET, R143
  | loop (o : OLoop)   -- LOOP, R144
  | trap (o : OG)   -- TRAP, R145
  | eret (o : OG)   -- ERET, R136
  | brk (o : OG)   -- BRK, R145
  | ipf (o : OBr)   -- IPF, R146
  | ifence (o : OG)   -- IFENCE, R146
  | wait (o : OWait)   -- WAIT, R147
  | fence (o : OFence)   -- FENCE, R148
  | fencer (o : OFencer)   -- FENCER, R149
  | lwatch (o : OLwatch)   -- LWATCH, R150
  | wpark (o : OG)   -- WPARK, R151
  | add (o : OR3)   -- ADD, R153
  | sub (o : OR3)   -- SUB, R153
  | mul (o : OR3)   -- MUL, R153
  | mulh (o : OR3)   -- MULH, R153
  | mulhu (o : OR3)   -- MULHU, R153
  | div (o : OR3)   -- DIV, R154
  | divu (o : OR3)   -- DIVU, R154
  | rem (o : OR3)   -- REM, R154
  | remu (o : OR3)   -- REMU, R154
  | and (o : OR3)   -- AND, R153
  | or (o : OR3)   -- OR, R153
  | xor (o : OR3)   -- XOR, R153
  | andn (o : OR3)   -- ANDN, R153
  | shl (o : OR3)   -- SHL, R153
  | shr (o : OR3)   -- SHR, R153
  | sra (o : OR3)   -- SRA, R153
  | rot (o : OR3)   -- ROT, R153
  | min (o : OR3)   -- MIN, R153
  | max (o : OR3)   -- MAX, R153
  | minu (o : OR3)   -- MINU, R153
  | maxu (o : OR3)   -- MAXU, R153
  | clz (o : OR2)   -- CLZ, R155
  | ctz (o : OR2)   -- CTZ, R155
  | popc (o : OR2)   -- POPC, R155
  | sel (o : OR3n)   -- SEL, R155
  | mov (o : OR2)   -- MOV, R156
  | movStaging (o : OStg)   -- MOV_STAGING, R157
  | movPatch (o : OPatch)   -- MOV_PATCH, R157
  | movi (o : OMovi)   -- MOVI, R156
  | moviH (o : OR3)   -- MOVI_H, R156
  | lea (o : OR3n)   -- LEA, R158
  | extZ (o : OR3)   -- EXT_Z, R158
  | extS (o : OR3)   -- EXT_S, R158
  | bfx (o : OBfx)   -- BFX, R159
  | bfxS (o : OBfx)   -- BFX_S, R159
  | bfi (o : OBfi)   -- BFI, R159
  | cmp (o : OCmp)   -- CMP, R160
  | plog (o : OPlog)   -- PLOG, R161
  | ldB (o : OLd)   -- LD_B, R164
  | ldH (o : OLd)   -- LD_H, R164
  | ldW (o : OLd)   -- LD_W, R164
  | ldD (o : OLd)   -- LD_D, R164
  | ldBAcq (o : OLd)   -- LD_B_ACQ, R164
  | ldHAcq (o : OLd)   -- LD_H_ACQ, R164
  | ldWAcq (o : OLd)   -- LD_W_ACQ, R164
  | ldDAcq (o : OLd)   -- LD_D_ACQ, R164
  | stB (o : OSt)   -- ST_B, R165
  | stH (o : OSt)   -- ST_H, R165
  | stW (o : OSt)   -- ST_W, R165
  | stD (o : OSt)   -- ST_D, R165
  | stBRel (o : OSt)   -- ST_B_REL, R165
  | stHRel (o : OSt)   -- ST_H_REL, R165
  | stWRel (o : OSt)   -- ST_W_REL, R165
  | stDRel (o : OSt)   -- ST_D_REL, R165
  | ldlB (o : OR3)   -- LDL_B, R166
  | ldlH (o : OR3)   -- LDL_H, R166
  | ldlW (o : OR3)   -- LDL_W, R166
  | ldlD (o : OR3)   -- LDL_D, R166
  | stlB (o : OStl)   -- STL_B, R166
  | stlH (o : OStl)   -- STL_H, R166
  | stlW (o : OStl)   -- STL_W, R166
  | stlD (o : OStl)   -- STL_D, R166
  | amoaddW (o : OLd)   -- AMOADD_W, R167
  | amoaddD (o : OLd)   -- AMOADD_D, R167
  | amoandW (o : OLd)   -- AMOAND_W, R167
  | amoandD (o : OLd)   -- AMOAND_D, R167
  | amoorW (o : OLd)   -- AMOOR_W, R167
  | amoorD (o : OLd)   -- AMOOR_D, R167
  | amoxorW (o : OLd)   -- AMOXOR_W, R167
  | amoxorD (o : OLd)   -- AMOXOR_D, R167
  | amominW (o : OLd)   -- AMOMIN_W, R167
  | amominD (o : OLd)   -- AMOMIN_D, R167
  | amomaxW (o : OLd)   -- AMOMAX_W, R167
  | amomaxD (o : OLd)   -- AMOMAX_D, R167
  | amoswpW (o : OLd)   -- AMOSWP_W, R167
  | amoswpD (o : OLd)   -- AMOSWP_D, R167
  | casW (o : OLd)   -- CAS_W, R168
  | casD (o : OLd)   -- CAS_D, R168
  | pfd (o : OPfd)   -- PFD, R169
  | cbo (o : OCbo)   -- CBO, R170
  | csrr (o : OCsrr)   -- CSRR, R171
  | csrw (o : OCsrw)   -- CSRW, R171
  | xbc (o : OXbc)   -- XBC, R173
  | xin (o : OXin)   -- XIN, R173
  | xex (o : OXex)   -- XEX, R174
  | xred (o : OXred)   -- XRED, R174
  | vadd (o : OV3)   -- VADD, R183
  | vsub (o : OV3)   -- VSUB, R183
  | vmul (o : OV3)   -- VMUL, R183
  | vfma (o : OV3)   -- VFMA, R184
  | vfms (o : OV3)   -- VFMS, R184
  | vmin (o : OV3)   -- VMIN, R183
  | vmax (o : OV3)   -- VMAX, R183
  | vabs (o : OV2)   -- VABS, R185
  | vneg (o : OV2)   -- VNEG, R185
  | vrcp (o : OV2)   -- VRCP, R186
  | vrsq (o : OV2)   -- VRSQ, R186
  | vlog2 (o : OV2)   -- VLOG2, R186
  | vexp2 (o : OVexp)   -- VEXP2, R186
  | vcvt (o : OVcvt)   -- VCVT, R187
  | vcmp (o : OVcmp)   -- VCMP, R189
  | vsel (o : OVsel)   -- VSEL, R190
  | viadd (o : OV3)   -- VIADD, R188
  | visub (o : OV3)   -- VISUB, R188
  | vimul (o : OV3)   -- VIMUL, R188
  | vand (o : OV3)   -- VAND, R188
  | vor (o : OV3)   -- VOR, R188
  | vxor (o : OV3)   -- VXOR, R188
  | vshl (o : OV3)   -- VSHL, R188
  | vshr (o : OV3)   -- VSHR, R188
  | vsra (o : OV3)   -- VSRA, R188
  | vimin (o : OV3)   -- VIMIN, R188
  | vimax (o : OV3)   -- VIMAX, R188
  | vmov (o : OVmov)   -- VMOV, R192
  | vmovi (o : OV2)   -- VMOVI, R192
  | vshf (o : OV3)   -- VSHF, R193
  | vred (o : OVred)   -- VRED, R194
  | vscan (o : OVred)   -- VSCAN, R194
  | vdot (o : OVdot)   -- VDOT, R195
  | vcopy (o : OVcopy)   -- VCOPY, R196
  | vld (o : OVmem)   -- VLD, R198
  | vst (o : OVmem)   -- VST, R198
  | vgth (o : OVgs)   -- VGTH, R199
  | vsct (o : OVgs)   -- VSCT, R199
  | vldt (o : OVldt)   -- VLDT, R200
  | vstt (o : OVstt)   -- VSTT, R200
  | qlog (o : OQlog)   -- QLOG, R191
  | dset (o : ODset)   -- DSET, R345
  | dsmp (o : ODsmp)   -- DSMP, R346
  | dld (o : ODmem)   -- DLD, R348
  | dst (o : ODmem)   -- DST, R348
  | dadd (o : ODbin)   -- DADD, R349
  | dsub (o : ODbin)   -- DSUB, R349
  | dmul (o : ODbin)   -- DMUL, R349
  | dmin (o : ODbin)   -- DMIN, R349
  | dmax (o : ODbin)   -- DMAX, R349
  | daff (o : ODaff)   -- DAFF, R352
  | dmix (o : ODmix)   -- DMIX, R353
  | dcnd (o : ODaff)   -- DCND, R354
  | dmom (o : ODmom)   -- DMOM, R355
  | dqnt (o : ODqnt)   -- DQNT, R356
  | dcdf (o : ODqnt)   -- DCDF, R357
  | dtag (o : ODtag)   -- DTAG, R347
  | tld (o : OGS)   -- TLD, R90
  | tst (o : OGS)   -- TST, R91
  | tgth (o : OGS)   -- TGTH, R92
  | tpick (o : ODep)   -- TPICK, R94
  | trot (o : ODep)   -- TROT, R94
  | tdrop (o : ODep)   -- TDROP, R94
  | tmark (o : OMark)   -- TMARK, R58
  | tunwind (o : OMark)   -- TUNWIND, R58
  | tzero (o : OMake)   -- TZERO, R96
  | tfill (o : OMake)   -- TFILL, R96
  | tshape (o : OShape)   -- TSHAPE, R97
  | tjoin (o : OJoin)   -- TJOIN, R97
  | tfromv (o : OFromv)   -- TFROMV, R98
  | ttov (o : OTov)   -- TTOV, R99
  | mma (o : OG)   -- MMA, R100
  | mmac (o : OG)   -- MMAC, R100
  | mmack (o : OG)   -- MMACK, R101
  | mmag (o : OGS)   -- MMAG, R102
  | mscl (o : OG)   -- MSCL, R103
  | tadd (o : OG)   -- TADD, R105
  | tsub (o : OG)   -- TSUB, R105
  | tmul (o : OG)   -- TMUL, R105
  | tfma (o : OG)   -- TFMA, R105
  | tmaxe (o : OG)   -- TMAXE, R105
  | tmine (o : OG)   -- TMINE, R105
  | texp2 (o : OG)   -- TEXP2, R106
  | trcp (o : OG)   -- TRCP, R107
  | trmax (o : OG)   -- TRMAX, R108
  | trsum (o : OG)   -- TRSUM, R108
  | tcsum (o : OG)   -- TCSUM, R108
  | tscl (o : OG)   -- TSCL, R109
  | tbc (o : OShape)   -- TBC, R109
  | tcvt (o : OTcvt)   -- TCVT, R110
  | ttrn (o : OG)   -- TTRN, R111
  | cpget (o : OGS)   -- CPGET, R312
  | cpput (o : OGS)   -- CPPUT, R215
  | cpmc (o : OGS)   -- CPMC, R259
  | ldblk (o : OBlk)   -- LDBLK, R314
  | ldblkRel (o : OBlkRel)   -- LDBLK_REL, R314
  | cpsort (o : OSort)   -- CPSORT, R315
  | cpfill (o : OGS)   -- CPFILL, R316
  | kar (o : OKar)   -- KAR, R326
  | kag (o : OKag)   -- KAG, R326
  | krs (o : OKar)   -- KRS, R326
  | kbc (o : OKag)   -- KBC, R326
  | ksend (o : OGS)   -- KSEND, R323
  | krecv (o : OKrecv)   -- KRECV, R324
  | spawn (o : OKd)   -- SPAWN, R318
  | token (o : OTok)   -- TOKEN, R260
  | done (o : OG)   -- DONE, R319
  | join (o : OJoinG)   -- JOIN, R320
  | leave (o : OG)   -- LEAVE, R320
  | gbar (o : OG)   -- GBAR, R320
  | qres (o : OKd)   -- QRES, R263
  | qpub (o : OG)   -- QPUB, R263
  | qtake (o : OKd)   -- QTAKE, R263
  | qfree (o : OG)   -- QFREE, R263
  | mbeg (o : OG)   -- MBEG, R298
  | mend (o : OG)   -- MEND, R304
  | mgrd (o : OMgrd)   -- MGRD, R298
  | tlbi (o : OTlbi)   -- TLBI, R331
  | flushctx (o : OG)   -- FLUSHCTX, R332
  | icinv (o : OGS)   -- ICINV, R333
  | illegalBundle   -- ILLEGAL_BUNDLE, R36
  | trapDrainEnd (u : Nat)   -- TRAP_DRAIN_END, R133
  | eretDrainEnd (u : Nat)   -- ERET_DRAIN_END, R136
  | demandFetch (u : Nat)   -- DEMAND_FETCH, R115
  | icacheFill (u : Nat)   -- ICACHE_FILL, R114
  | instructionPrefetch (u : Nat) (va : VAddr)   -- INSTRUCTION_PREFETCH, R132
  | memoryReply (u : Nat)   -- MEMORY_REPLY, R119
  | performAccess (u : Nat)   -- PERFORM_ACCESS, R245
  | bulkElementAccess (u c e : Nat)   -- BULK_ELEMENT_ACCESS, R251
  | propagateWrite (w : Nat)   -- PROPAGATE_WRITE, R244
  | watchFire (u : Nat)   -- WATCH_FIRE, R253
  | ringReserveStep (u c : Nat)   -- RING_RESERVE_STEP, R258
  | ringPublishStep (u c : Nat)   -- RING_PUBLISH_STEP, R258
  | ringTakeStep (u c : Nat)   -- RING_TAKE_STEP, R258
  | ringFreeStep (u c : Nat)   -- RING_FREE_STEP, R258
  | entryReady (u c : Nat)   -- ENTRY_READY, R54
  | entryLatched (u c : Nat)   -- ENTRY_LATCHED, R54
  | entrySink (u c : Nat)   -- ENTRY_SINK, R51
  | entryRise (u c : Nat)   -- ENTRY_RISE, R52
  | suspendedEntrySpill (u c : Nat)   -- SUSPENDED_ENTRY_SPILL, R61
  | copyCommandComplete (u c : Nat)   -- COPY_COMMAND_COMPLETE, R311
  | blockReady (u c : Nat)   -- BLOCK_READY, R314
  | invalidationComplete (u c : Nat)   -- INVALIDATION_COMPLETE, R311
  | pageWalkComplete (u : Nat)   -- PAGE_WALK_COMPLETE, R233
  | faultRecordPost (u : Nat)   -- FAULT_RECORD_POST, R237
  | faultReply (u : Nat)   -- FAULT_REPLY, R236
  | freezeWatchdogExpiry (u : Nat)   -- FREEZE_WATCHDOG_EXPIRY, R238
  | signatureMismatch (u : Nat) (x : W32)   -- SIGNATURE_MISMATCH, R367
  | containmentScrub   -- CONTAINMENT_SCRUB, R379
  | patinaMeasurement (cl drift : Nat)   -- PATINA_MEASUREMENT, R383
  | powerClamp (on : Bool)   -- POWER_CLAMP, R396
  | dieOvertemp (die deg : Nat)   -- DIE_OVERTEMP, R396
  | moduleReset   -- MODULE_RESET, R392
  | hostLinkDown   -- HOST_LINK_DOWN, R388
  | functionLevelReset (fn : Fin 64)   -- FUNCTION_LEVEL_RESET, R387
  | hlnchWrite (fn : Fin 64) (v : W64)   -- HLNCH_WRITE, R386
  | hstatNopartClear (fn : Fin 64)   -- HSTAT_NOPART_CLEAR, R386
  | hostRegisterWrite (fn : Fin 64) (ofs : Nat) (v : W64)   -- HOST_REGISTER_WRITE, R386
  | kranumFlitReceive (link : Fin 16) (crc : Bool)   -- KRANUM_FLIT_RECEIVE, R389
  | linkRetryExpiry (link : Fin 16)   -- LINK_RETRY_EXPIRY, R389
  | fabricRequest (r : FabricReq)   -- FABRIC_REQUEST, R391
  | deviceFaultSignal (dev : Nat)   -- DEVICE_FAULT_SIGNAL, R382
  | collectiveInstanceStart (c : Nat)   -- COLLECTIVE_INSTANCE_START, R325
  | collectiveStep (c r : Nat)   -- COLLECTIVE_STEP, R327
  | collectiveStepTimeout (c r : Nat)   -- COLLECTIVE_STEP_TIMEOUT, R327
  | collectiveEnd (c r : Nat)   -- COLLECTIVE_END, R328
  | mailboxDelivery (u c : Nat)   -- MAILBOX_DELIVERY, R323
  | tokenDelivery (u c : Nat)   -- TOKEN_DELIVERY, R260
  | nodeDoneComplete (u : Nat)   -- NODE_DONE_COMPLETE, R319
  | spawnCheck (u c : Nat)   -- SPAWN_CHECK, R318
  | barrierArrival (u c : Nat)   -- BARRIER_ARRIVAL, R288
  | lnchWrite (v : W64)   -- LNCH_WRITE, R265
  | launchCheck (l : Nat)   -- LAUNCH_CHECK, R267
  | frameTick (p : Fin 16)   -- FRAME_TICK, R279
  | taskDispatch (core : Nat) (helper : Bool)   -- TASK_DISPATCH, R284
  | castIssueGroup (u : Nat)   -- CAST_ISSUE_GROUP, R306
  | stealProbe (core : Nat)   -- STEAL_PROBE, R285
  | preemptionRequest (u : Nat)   -- PREEMPTION_REQUEST, R292
  | preemptionStop (u : Nat)   -- PREEMPTION_STOP, R138
  | saveSlotTimeout (p : Fin 16)   -- SAVE_SLOT_TIMEOUT, R293
  | parkWake (u : Nat)   -- PARK_WAKE, R289
  | pctlApply (p : Fin 16)   -- PCTL_APPLY, R278
  | pctlRelease (p : Fin 16)   -- PCTL_RELEASE, R278
  | partitionOpComplete   -- PARTITION_OP_COMPLETE, R278
  | dbgctlHalt (n : W32)   -- DBGCTL_HALT, R295
  | dbgctlResume (n : W32)   -- DBGCTL_RESUME, R295
  | nkillWrite (n : W32)   -- NKILL_WRITE, R370
  | finjWrite (v : W64)   -- FINJ_WRITE, R360
  | fseedWrite (v : W64)   -- FSEED_WRITE, R74
  | devstLockSet   -- DEVST_LOCK_SET, R391
  | keyInstall (asid : BitVec 8)   -- KEY_INSTALL, R394
  | keyDestroy (asid : BitVec 8)   -- KEY_DESTROY, R394
  | getMeasurements   -- GET_MEASUREMENTS, R393
  | firmwareUpdate (img : Nat)   -- FIRMWARE_UPDATE, R392
  | bootStageVerify (stage hash : Nat)   -- BOOT_STAGE_VERIFY, R393
  | hostLinkUp   -- HOST_LINK_UP, R388
  | kranumLinkReturn (link : Fin 16)   -- KRANUM_LINK_RETURN, R389
  | powerOn   -- POWER_ON, R393
  deriving DecidableEq, Repr

end Sys2Proof
end

