-- ==== Sys2Proof/WellFormed.lean ====
section
/-! DEFINITION. Which instructions the encoding rules of the manual allow, for the rules that are not already in
the types of Sys2Proof/Syntax.lean (R35, items 8 and 9). The rules on a whole bundle are in Sys2Proof/Decode.lean. -/

namespace Sys2Proof

/-- A source of a BR syllable: a port, a bypass or zero (R140). -/
def Src.isReg : Src → Bool
  | .port _ | .byp _ | .zero => true
  | .ext | .imm _ => false

/-- Code 9 needs an IX syllable (R21). -/
def Src.ok (s : Src) (ix : Option W32) : Bool := ix.isSome || s != .ext

/-- Code 37 needs an IX syllable (R21). -/
def FSrc.ok (s : FSrc) (ix : Option W32) : Bool := ix.isSome || s != .ext

/-- Whether the register is one of v0 to v31. -/
def VReg.isV : VReg → Bool
  | .v _ => true
  | .bf _ => false

def FSrc.isImm : FSrc → Bool
  | .ext | .imm _ => true
  | .r _ | .zero => false

def Fmt.blocked : Fmt → Bool
  | .e2m1b32 | .e2m1b16 => true
  | _ => false

/-- The block length of a blocked format, 1 for the others (R63). -/
def Fmt.blk : Fmt → Nat
  | .e2m1b32 => 32
  | .e2m1b16 => 16
  | _ => 1

def EType.isFloat : EType → Bool
  | .fp32 | .bf16 | .fp16 => true
  | .int8 | .int32 => false

/-- The control register numbers that some chapter assigns (R171). -/
def csrAssigned (n : Nat) : Bool :=
  (0xB0 ≤ n && n ≤ 0xB5) || (0xB8 ≤ n && n ≤ 0xBF) || (0xC0 ≤ n && n ≤ 0xCE) || (0xD0 ≤ n && n ≤ 0xD4) ||
  (0xE0 ≤ n && n ≤ 0xE2) || n == 0xF0 || (0xF4 ≤ n && n ≤ 0xF8) || (0x100 ≤ n && n ≤ 0x127) ||
  (0x200 ≤ n && n ≤ 0x22F) || n == 0x800 || n == 0x801 || n == 0x810 || n == 0x812 ||
  (0x820 ≤ n && n ≤ 0x825) || (0x830 ≤ n && n ≤ 0x834) || n == 0x840 || n == 0x842 || n == 0x843 ||
  (0x850 ≤ n && n ≤ 0x85F)

def OBr.wf (o : OBr) : Bool := o.ix.isNone || o.ofs == 0
def OBrc.wf (o : OBrc) : Bool := (o.ix.isNone || o.ofs == 0) && o.a.isReg
def OBrq.wf (o : OBrq) : Bool := o.ix.isNone || o.ofs == 0
def OBrA.wf (o : OBrA) : Bool := o.a.isReg
def OLoop.wf (o : OLoop) : Bool := (o.ix.isNone || o.ofs == 0) && 1 ≤ o.c.val && o.c.val ≤ 55
def OWait.wf (o : OWait) : Bool := o.cls != 0
def OFence.wf (o : OFence) : Bool := o.pred != 0 && o.succ != 0
def OFencer.wf (o : OFencer) : Bool := o.a.isReg && o.b.isReg && o.pred != 0 && o.succ != 0
def OLwatch.wf (o : OLwatch) : Bool := o.a.isReg && o.b.ok o.ix
def OR3.wf (o : OR3) : Bool := o.a.ok o.ix && o.b.ok o.ix
def OR2.wf (o : OR2) : Bool := o.a.ok o.ix
def OR3n.wf (o : OR3n) : Bool := o.a.ok o.ix && o.b.ok o.ix
def OStg.wf (o : OStg) : Bool := o.a.ok o.ix
def OPatch.wf (o : OPatch) : Bool := o.a != .ext
def OMovi.wf (o : OMovi) : Bool := o.b.ok o.ix
def OBfx.wf (o : OBfx) : Bool := o.a != .ext && 1 ≤ o.w.val
def OBfi.wf (o : OBfi) : Bool := o.a != .ext && o.b != .ext && 1 ≤ o.w.val
def OCmp.wf (o : OCmp) : Bool := 1 ≤ o.pe.val && o.a.ok o.ix && o.b.ok o.ix
def OPlog.wf (o : OPlog) : Bool := 1 ≤ o.pe.val
def OLd.wf (o : OLd) : Bool := o.a.ok o.ix && o.b.ok o.ix

/-- B of an atomic is no short immediate (R167). -/
def OLd.wfAmo (o : OLd) : Bool :=
  o.wf && (match o.b with | .imm _ => false | _ => true)

/-- CAS names s1 to s55 (R168). -/
def OLd.wfCas (o : OLd) : Bool :=
  o.wf && (match o.d with | .s i => i != 0 | .bs _ => false)

def OSt.wf (o : OSt) : Bool := o.v.ok o.ix && o.a.ok o.ix && o.b.ok o.ix
def OStl.wf (o : OStl) : Bool := o.v.ok o.ix && o.a.ok o.ix && o.b.ok o.ix
def OPfd.wf (o : OPfd) : Bool := o.a.ok o.ix && o.b.ok o.ix
def OCbo.wf (o : OCbo) : Bool := o.a.ok o.ix && o.b.ok o.ix
def OCsrr.wf (o : OCsrr) : Bool := csrAssigned o.csr.toNat
def OCsrw.wf (o : OCsrw) : Bool := o.a.ok o.ix && csrAssigned o.csr.toNat
def OXbc.wf (o : OXbc) : Bool := o.a.ok o.ix && (!o.all || o.f == 0)
def OXin.wf (o : OXin) : Bool := o.a.ok o.ix

/-- With the operation mask, VA holds 0 to 7 (R172). -/
def OXred.wf (o : OXred) : Bool :=
  match o.op, o.va with
  | .mask, .v i => i.val < 8
  | .mask, .bf _ => false
  | _, _ => true

def OV3.wf (o : OV3) : Bool := o.a.ok o.ix && o.b.ok o.ix

/-- VFMA and VFMS name v0 to v31 (R182). -/
def OV3.wfFma (o : OV3) : Bool := o.wf && o.d.isV

def OV2.wf (o : OV2) : Bool := o.a.ok o.ix

/-- VMOVI takes code 37 or an immediate (R192). -/
def OV2.wfImm (o : OV2) : Bool := o.a.ok o.ix && o.a.isImm

def OVexp.wf (o : OVexp) : Bool := o.a != .ext && o.b != .ext
def OVcvt.wf (o : OVcvt) : Bool := o.a.ok o.ix
def OVcmp.wf (o : OVcmp) : Bool := 1 ≤ o.qe.val && o.a.ok o.ix && o.b.ok o.ix
def OVsel.wf (o : OVsel) : Bool := o.a.ok o.ix && o.b.ok o.ix
def OVmov.wf (o : OVmov) : Bool := o.a != .ext
def OVred.wf (o : OVred) : Bool := o.a != .ext
def OVdot.wf (o : OVdot) : Bool := o.a.ok o.ix && o.b.ok o.ix
def OVmem.wf (o : OVmem) : Bool := o.ix.isNone || o.ofs == 0
def OVgs.wf (o : OVgs) : Bool := o.a != .ext
def OVldt.wf (o : OVldt) : Bool := o.ix.isNone || o.ofs == 0
def OVstt.wf (o : OVstt) : Bool := o.ix.isNone || o.ofs == 0
def OQlog.wf (o : OQlog) : Bool := 1 ≤ o.qe.val
def ODset.wf (o : ODset) : Bool := o.a.ok o.ix
def ODmem.wf (o : ODmem) : Bool := o.ix.isNone || o.ofs == 0
def ODaff.wf (o : ODaff) : Bool := o.va.ok o.ix && o.vb.ok o.ix
def ODmix.wf (o : ODmix) : Bool := o.w.ok o.ix
def ODqnt.wf (o : ODqnt) : Bool := o.b.ok o.ix

/-- The columns of a tile of a blocked format are whole blocks (R96). -/
def OMake.wf (o : OMake) : Bool := (o.c.val + 1) % o.f.blk == 0

/-- TFILL takes no blocked format (R96). -/
def OMake.wfFill (o : OMake) : Bool := !o.f.blocked

/-- The registers of TFROMV and TTOV end at v31 (R98, R99). -/
def OFromv.wf (o : OFromv) : Bool := (o.f == .fp32 || o.f == .int32) && o.vb.val + o.r.val / 8 ≤ 31
def OTov.wf (o : OTov) : Bool := o.vb.val + o.r.val / 8 ≤ 31

/-- A bitwise combination takes an integer element type (R325). -/
def OKar.wf (o : OKar) : Bool :=
  match o.op with
  | .and | .or | .xor => !o.e.isFloat
  | .add | .max | .min => true

/-- Whether an instruction obeys the rules of R35, items 8 and 9. An event has no encoding and obeys none. -/
def Instr.wf : Instr → Bool
  | .br o => o.wf
  | .brc o => o.wf
  | .brq o => o.wf
  | .jmpi o => o.wf
  | .call o => o.wf
  | .calli o => o.wf
  | .ret o => o.wf
  | .loop o => o.wf
  | .trap _ => true
  | .eret _ => true
  | .brk _ => true
  | .ipf o => o.wf
  | .ifence _ => true
  | .wait o => o.wf
  | .fence o => o.wf
  | .fencer o => o.wf
  | .lwatch o => o.wf
  | .wpark _ => true
  | .add o => o.wf
  | .sub o => o.wf
  | .mul o => o.wf
  | .mulh o => o.wf
  | .mulhu o => o.wf
  | .div o => o.wf
  | .divu o => o.wf
  | .rem o => o.wf
  | .remu o => o.wf
  | .and o => o.wf
  | .or o => o.wf
  | .xor o => o.wf
  | .andn o => o.wf
  | .shl o => o.wf
  | .shr o => o.wf
  | .sra o => o.wf
  | .rot o => o.wf
  | .min o => o.wf
  | .max o => o.wf
  | .minu o => o.wf
  | .maxu o => o.wf
  | .clz o => o.wf
  | .ctz o => o.wf
  | .popc o => o.wf
  | .sel o => o.wf
  | .mov o => o.wf
  | .movStaging o => o.wf
  | .movPatch o => o.wf
  | .movi o => o.wf
  | .moviH o => o.wf
  | .lea o => o.wf
  | .extZ o => o.wf
  | .extS o => o.wf
  | .bfx o => o.wf
  | .bfxS o => o.wf
  | .bfi o => o.wf
  | .cmp o => o.wf
  | .plog o => o.wf
  | .ldB o => o.wf
  | .ldH o => o.wf
  | .ldW o => o.wf
  | .ldD o => o.wf
  | .ldBAcq o => o.wf
  | .ldHAcq o => o.wf
  | .ldWAcq o => o.wf
  | .ldDAcq o => o.wf
  | .stB o => o.wf
  | .stH o => o.wf
  | .stW o => o.wf
  | .stD o => o.wf
  | .stBRel o => o.wf
  | .stHRel o => o.wf
  | .stWRel o => o.wf
  | .stDRel o => o.wf
  | .ldlB o => o.wf
  | .ldlH o => o.wf
  | .ldlW o => o.wf
  | .ldlD o => o.wf
  | .stlB o => o.wf
  | .stlH o => o.wf
  | .stlW o => o.wf
  | .stlD o => o.wf
  | .amoaddW o => o.wfAmo
  | .amoaddD o => o.wfAmo
  | .amoandW o => o.wfAmo
  | .amoandD o => o.wfAmo
  | .amoorW o => o.wfAmo
  | .amoorD o => o.wfAmo
  | .amoxorW o => o.wfAmo
  | .amoxorD o => o.wfAmo
  | .amominW o => o.wfAmo
  | .amominD o => o.wfAmo
  | .amomaxW o => o.wfAmo
  | .amomaxD o => o.wfAmo
  | .amoswpW o => o.wfAmo
  | .amoswpD o => o.wfAmo
  | .casW o => o.wfCas
  | .casD o => o.wfCas
  | .pfd o => o.wf
  | .cbo o => o.wf
  | .csrr o => o.wf
  | .csrw o => o.wf
  | .xbc o => o.wf
  | .xin o => o.wf
  | .xex _ => true
  | .xred o => o.wf
  | .vadd o => o.wf
  | .vsub o => o.wf
  | .vmul o => o.wf
  | .vfma o => o.wfFma
  | .vfms o => o.wfFma
  | .vmin o => o.wf
  | .vmax o => o.wf
  | .vabs o => o.wf
  | .vneg o => o.wf
  | .vrcp o => o.wf
  | .vrsq o => o.wf
  | .vlog2 o => o.wf
  | .vexp2 o => o.wf
  | .vcvt o => o.wf
  | .vcmp o => o.wf
  | .vsel o => o.wf
  | .viadd o => o.wf
  | .visub o => o.wf
  | .vimul o => o.wf
  | .vand o => o.wf
  | .vor o => o.wf
  | .vxor o => o.wf
  | .vshl o => o.wf
  | .vshr o => o.wf
  | .vsra o => o.wf
  | .vimin o => o.wf
  | .vimax o => o.wf
  | .vmov o => o.wf
  | .vmovi o => o.wfImm
  | .vshf o => o.wf
  | .vred o => o.wf
  | .vscan o => o.wf
  | .vdot o => o.wf
  | .vcopy _ => true
  | .vld o => o.wf
  | .vst o => o.wf
  | .vgth o => o.wf
  | .vsct o => o.wf
  | .vldt o => o.wf
  | .vstt o => o.wf
  | .qlog o => o.wf
  | .dset o => o.wf
  | .dsmp _ => true
  | .dld o => o.wf
  | .dst o => o.wf
  | .dadd _ => true
  | .dsub _ => true
  | .dmul _ => true
  | .dmin _ => true
  | .dmax _ => true
  | .daff o => o.wf
  | .dmix o => o.wf
  | .dcnd o => o.wf
  | .dmom _ => true
  | .dqnt o => o.wf
  | .dcdf o => o.wf
  | .dtag _ => true
  | .tld _ => true
  | .tst _ => true
  | .tgth _ => true
  | .tpick _ => true
  | .trot _ => true
  | .tdrop _ => true
  | .tmark _ => true
  | .tunwind _ => true
  | .tzero o => o.wf
  | .tfill o => o.wfFill
  | .tshape _ => true
  | .tjoin _ => true
  | .tfromv o => o.wf
  | .ttov o => o.wf
  | .mma _ => true
  | .mmac _ => true
  | .mmack _ => true
  | .mmag _ => true
  | .mscl _ => true
  | .tadd _ => true
  | .tsub _ => true
  | .tmul _ => true
  | .tfma _ => true
  | .tmaxe _ => true
  | .tmine _ => true
  | .texp2 _ => true
  | .trcp _ => true
  | .trmax _ => true
  | .trsum _ => true
  | .tcsum _ => true
  | .tscl _ => true
  | .tbc _ => true
  | .tcvt _ => true
  | .ttrn _ => true
  | .cpget _ => true
  | .cpput _ => true
  | .cpmc _ => true
  | .ldblk _ => true
  | .ldblkRel _ => true
  | .cpsort _ => true
  | .cpfill _ => true
  | .kar o => o.wf
  | .kag _ => true
  | .krs o => o.wf
  | .kbc _ => true
  | .ksend _ => true
  | .krecv _ => true
  | .spawn _ => true
  | .token _ => true
  | .done _ => true
  | .join _ => true
  | .leave _ => true
  | .gbar _ => true
  | .qres _ => true
  | .qpub _ => true
  | .qtake _ => true
  | .qfree _ => true
  | .mbeg _ => true
  | .mend _ => true
  | .mgrd _ => true
  | .tlbi _ => true
  | .flushctx _ => true
  | .icinv _ => true
  | .illegalBundle => false
  | .trapDrainEnd _ => false
  | .eretDrainEnd _ => false
  | .demandFetch _ => false
  | .icacheFill _ => false
  | .instructionPrefetch _ _ => false
  | .memoryReply _ => false
  | .performAccess _ => false
  | .bulkElementAccess _ _ _ => false
  | .propagateWrite _ => false
  | .watchFire _ => false
  | .ringReserveStep _ _ => false
  | .ringPublishStep _ _ => false
  | .ringTakeStep _ _ => false
  | .ringFreeStep _ _ => false
  | .entryReady _ _ => false
  | .entryLatched _ _ => false
  | .entrySink _ _ => false
  | .entryRise _ _ => false
  | .suspendedEntrySpill _ _ => false
  | .copyCommandComplete _ _ => false
  | .blockReady _ _ => false
  | .invalidationComplete _ _ => false
  | .pageWalkComplete _ => false
  | .faultRecordPost _ => false
  | .faultReply _ => false
  | .freezeWatchdogExpiry _ => false
  | .signatureMismatch _ _ => false
  | .containmentScrub => false
  | .patinaMeasurement _ _ => false
  | .powerClamp _ => false
  | .dieOvertemp _ _ => false
  | .moduleReset => false
  | .hostLinkDown => false
  | .functionLevelReset _ => false
  | .hlnchWrite _ _ => false
  | .hstatNopartClear _ => false
  | .hostRegisterWrite _ _ _ => false
  | .kranumFlitReceive _ _ => false
  | .linkRetryExpiry _ => false
  | .fabricRequest _ => false
  | .deviceFaultSignal _ => false
  | .collectiveInstanceStart _ => false
  | .collectiveStep _ _ => false
  | .collectiveStepTimeout _ _ => false
  | .collectiveEnd _ _ => false
  | .mailboxDelivery _ _ => false
  | .tokenDelivery _ _ => false
  | .nodeDoneComplete _ => false
  | .spawnCheck _ _ => false
  | .barrierArrival _ _ => false
  | .lnchWrite _ => false
  | .launchCheck _ => false
  | .frameTick _ => false
  | .taskDispatch _ _ => false
  | .castIssueGroup _ => false
  | .stealProbe _ => false
  | .preemptionRequest _ => false
  | .preemptionStop _ => false
  | .saveSlotTimeout _ => false
  | .parkWake _ => false
  | .pctlApply _ => false
  | .pctlRelease _ => false
  | .partitionOpComplete => false
  | .dbgctlHalt _ => false
  | .dbgctlResume _ => false
  | .nkillWrite _ => false
  | .finjWrite _ => false
  | .fseedWrite _ => false
  | .devstLockSet => false
  | .keyInstall _ => false
  | .keyDestroy _ => false
  | .getMeasurements => false
  | .firmwareUpdate _ => false
  | .bootStageVerify _ _ => false
  | .hostLinkUp => false
  | .kranumLinkReturn _ => false
  | .powerOn => false

end Sys2Proof
end

