-- ==== Sys2Proof/Decode.lean ====
section
/-! DEFINITION. From bits to instructions and back (02, and the opcode maps R84, R140, R152, R162, R172, R181,
R309, R343). The decoder is total: it gives none for every encoding that R35 makes illegal. Words are natural
numbers below 2^32. The encoder is written from the same tables and stands after the decoder. -/

namespace Sys2Proof

/-- Bits [hi:lo] of a number. -/
def bits (w hi lo : Nat) : Nat := w / 2 ^ lo % 2 ^ (hi + 1 - lo)

/-! Codes of the operand kinds. -/

/-- R19. -/
def Src.code : Src → Nat
  | .port i => i.val
  | .byp i => 4 + i.val
  | .zero => 8
  | .ext => 9
  | .imm v => 16 + v.toNat

/-- R19: codes 10 to 15 are illegal. -/
def Src.ofCode (n : Nat) : Option Src :=
  if n < 4 then some (.port (Fin.ofNat 4 n))
  else if n < 8 then some (.byp (Fin.ofNat 4 (n - 4)))
  else if n = 8 then some .zero
  else if n = 9 then some .ext
  else if n < 16 then none
  else if n < 32 then some (.imm (BitVec.ofNat 4 (n - 16)))
  else none

/-- R19. -/
def Dst.code : Dst → Nat
  | .s i => i.val
  | .bs i => 56 + i.val

/-- R19: codes 60 to 63 are illegal. -/
def Dst.ofCode (n : Nat) : Option Dst :=
  if n < 56 then some (.s (Fin.ofNat 56 n))
  else if n < 60 then some (.bs (Fin.ofNat 4 (n - 56)))
  else none

/-- R20. -/
def VReg.code : VReg → Nat
  | .v i => i.val
  | .bf i => 32 + i.val

/-- R20, as a destination: codes 36 to 63 are illegal. -/
def VReg.ofCode (n : Nat) : Option VReg :=
  if n < 32 then some (.v (Fin.ofNat 32 n))
  else if n < 36 then some (.bf (Fin.ofNat 4 (n - 32)))
  else none

/-- R20. -/
def FSrc.code : FSrc → Nat
  | .r x => x.code
  | .zero => 36
  | .ext => 37
  | .imm v => 48 + v.toNat

/-- R20, as a source: codes 38 to 47 are illegal. -/
def FSrc.ofCode (n : Nat) : Option FSrc :=
  if n < 36 then (VReg.ofCode n).map .r
  else if n = 36 then some .zero
  else if n = 37 then some .ext
  else if n < 48 then none
  else if n < 64 then some (.imm (BitVec.ofNat 4 (n - 48)))
  else none

def boolCode (b : Bool) : Nat := if b then 1 else 0

/-- A one-bit or two-bit field of which only 0 and 1 are legal. -/
def boolOf (n : Nat) : Option Bool :=
  if n = 0 then some false else if n = 1 then some true else none

/-- A field that holds a number below `m`. -/
def finOf (m : Nat) [NeZero m] (n : Nat) : Option (Fin m) :=
  if n < m then some (Fin.ofNat m n) else none

/-- A field that holds the even register of a pair (R23). -/
def pairOf (m : Nat) [NeZero m] (n : Nat) : Option (Fin m) :=
  if n % 2 = 0 then finOf m (n / 2) else none

/-- R240. -/
def Scope.code : Scope → Nat
  | .task => 0
  | .core => 1
  | .clu => 2
  | .die => 3
  | .dev => 4
  | .grp => 5
  | .host => 6
  | .node => 7
  | .dom => 8
  | .sys => 9

/-- R240. -/
def Scope.ofCode : Nat → Option Scope
  | 0 => some .task
  | 1 => some .core
  | 2 => some .clu
  | 3 => some .die
  | 4 => some .dev
  | 5 => some .grp
  | 6 => some .host
  | 7 => some .node
  | 8 => some .dom
  | 9 => some .sys
  | _ => none

/-- R63. -/
def Fmt.code : Fmt → Nat
  | .fp32 => 1
  | .bf16 => 2
  | .fp16 => 3
  | .e4m3 => 4
  | .e5m2 => 5
  | .e2m1b32 => 6
  | .e2m1b16 => 7
  | .int8 => 8
  | .int32 => 9

/-- R63. -/
def Fmt.ofCode : Nat → Option Fmt
  | 1 => some .fp32
  | 2 => some .bf16
  | 3 => some .fp16
  | 4 => some .e4m3
  | 5 => some .e5m2
  | 6 => some .e2m1b32
  | 7 => some .e2m1b16
  | 8 => some .int8
  | 9 => some .int32
  | _ => none

/-- R160. -/
def Cond.code : Cond → Nat
  | .eq => 0
  | .ne => 1
  | .lt => 2
  | .le => 3
  | .gt => 4
  | .ge => 5
  | .ltu => 6
  | .leu => 7
  | .gtu => 8
  | .geu => 9
  | .tst => 10
  | .ntst => 11

/-- R160. -/
def Cond.ofCode : Nat → Option Cond
  | 0 => some .eq
  | 1 => some .ne
  | 2 => some .lt
  | 3 => some .le
  | 4 => some .gt
  | 5 => some .ge
  | 6 => some .ltu
  | 7 => some .leu
  | 8 => some .gtu
  | 9 => some .geu
  | 10 => some .tst
  | 11 => some .ntst
  | _ => none

/-- R161. -/
def Lop.code : Lop → Nat
  | .and => 0
  | .or => 1
  | .xor => 2
  | .andn => 3
  | .orn => 4
  | .nand => 5
  | .nor => 6
  | .xnor => 7

/-- R161. -/
def Lop.ofCode : Nat → Option Lop
  | 0 => some .and
  | 1 => some .or
  | 2 => some .xor
  | 3 => some .andn
  | 4 => some .orn
  | 5 => some .nand
  | 6 => some .nor
  | 7 => some .xnor
  | _ => none

/-- R170. -/
def CboKind.code : CboKind → Nat
  | .clean => 0
  | .flush => 1
  | .zero => 2

/-- R170. -/
def CboKind.ofCode : Nat → Option CboKind
  | 0 => some .clean
  | 1 => some .flush
  | 2 => some .zero
  | _ => none

/-- R174. -/
def XredOp.code : XredOp → Nat
  | .add => 0
  | .and => 1
  | .or => 2
  | .xor => 3
  | .max => 4
  | .min => 5
  | .any => 6
  | .mask => 7

/-- R174. -/
def XredOp.ofCode : Nat → Option XredOp
  | 0 => some .add
  | 1 => some .and
  | 2 => some .or
  | 3 => some .xor
  | 4 => some .max
  | 5 => some .min
  | 6 => some .any
  | 7 => some .mask
  | _ => none

/-- R187. -/
def CvtKind.code : CvtKind → Nat
  | .i32f32 => 0
  | .f32i32 => 1
  | .bf16f32 => 2
  | .f32bf16 => 3
  | .f16f32 => 4
  | .f32f16 => 5
  | .e4m3f32 => 6
  | .f32e4m3 => 7
  | .e5m2f32 => 8
  | .f32e5m2 => 9
  | .i8f32 => 10

/-- R187. -/
def CvtKind.ofCode : Nat → Option CvtKind
  | 0 => some .i32f32
  | 1 => some .f32i32
  | 2 => some .bf16f32
  | 3 => some .f32bf16
  | 4 => some .f16f32
  | 5 => some .f32f16
  | 6 => some .e4m3f32
  | 7 => some .f32e4m3
  | 8 => some .e5m2f32
  | 9 => some .f32e5m2
  | 10 => some .i8f32
  | _ => none

/-- R72. -/
def RMode.code : RMode → Nat
  | .rn => 0
  | .rz => 1
  | .rs => 2
  | .dyn => 3

/-- R72. -/
def RMode.ofCode : Nat → Option RMode
  | 0 => some .rn
  | 1 => some .rz
  | 2 => some .rs
  | 3 => some .dyn
  | _ => none

/-- R189. -/
def VCond.code : VCond → Nat
  | .eq => 0
  | .ne => 1
  | .lt => 2
  | .le => 3
  | .gt => 4
  | .ge => 5
  | .un => 6
  | .ord => 7
  | .ieq => 8
  | .ine => 9
  | .ilt => 10
  | .ile => 11
  | .igt => 12
  | .ige => 13
  | .iltu => 14
  | .igeu => 15

/-- R189. -/
def VCond.ofCode : Nat → Option VCond
  | 0 => some .eq
  | 1 => some .ne
  | 2 => some .lt
  | 3 => some .le
  | 4 => some .gt
  | 5 => some .ge
  | 6 => some .un
  | 7 => some .ord
  | 8 => some .ieq
  | 9 => some .ine
  | 10 => some .ilt
  | 11 => some .ile
  | 12 => some .igt
  | 13 => some .ige
  | 14 => some .iltu
  | 15 => some .igeu
  | _ => none

/-- R194. -/
def RedOp.code : RedOp → Nat
  | .add => 0
  | .max => 1
  | .min => 2
  | .iadd => 3
  | .imax => 4
  | .imin => 5
  | .and => 6
  | .or => 7
  | .xor => 8

/-- R194. -/
def RedOp.ofCode : Nat → Option RedOp
  | 0 => some .add
  | 1 => some .max
  | 2 => some .min
  | 3 => some .iadd
  | 4 => some .imax
  | 5 => some .imin
  | 6 => some .and
  | 7 => some .or
  | 8 => some .xor
  | _ => none

/-- R195. -/
def DotKind.code : DotKind → Nat
  | .f32 => 0
  | .bf16 => 1
  | .i8 => 2
  | .i32 => 3

/-- R195. -/
def DotKind.ofCode : Nat → Option DotKind
  | 0 => some .f32
  | 1 => some .bf16
  | 2 => some .i8
  | 3 => some .i32
  | _ => none

/-- R197. -/
def VSize.code : VSize → Nat
  | .b => 0
  | .h => 1
  | .w => 2

/-- R197. -/
def VSize.ofCode : Nat → Option VSize
  | 0 => some .b
  | 1 => some .h
  | 2 => some .w
  | _ => none

/-- R325. -/
def Rop.code : Rop → Nat
  | .add => 0
  | .max => 1
  | .min => 2
  | .and => 3
  | .or => 4
  | .xor => 5

/-- R325. -/
def Rop.ofCode : Nat → Option Rop
  | 0 => some .add
  | 1 => some .max
  | 2 => some .min
  | 3 => some .and
  | 4 => some .or
  | 5 => some .xor
  | _ => none

/-- R325. -/
def EType.code : EType → Nat
  | .fp32 => 1
  | .bf16 => 2
  | .fp16 => 3
  | .int8 => 8
  | .int32 => 9

/-- R325. -/
def EType.ofCode : Nat → Option EType
  | 1 => some .fp32
  | 2 => some .bf16
  | 3 => some .fp16
  | 8 => some .int8
  | 9 => some .int32
  | _ => none

/-- R298. -/
def Rel.code : Rel → Nat
  | .eq => 0
  | .ne => 1
  | .lt => 2
  | .ge => 3
  | .ltu => 4
  | .geu => 5

/-- R298. -/
def Rel.ofCode : Nat → Option Rel
  | 0 => some .eq
  | 1 => some .ne
  | 2 => some .lt
  | 3 => some .ge
  | 4 => some .ltu
  | 5 => some .geu
  | _ => none

/-- R331. -/
def TlbiKind.code : TlbiKind → Nat
  | .page => 0
  | .asid => 1
  | .all => 2

/-- R331. -/
def TlbiKind.ofCode : Nat → Option TlbiKind
  | 0 => some .page
  | 1 => some .asid
  | 2 => some .all
  | _ => none

/-! Layouts. Each decoder reads the fields of one operand structure from the word `w`, with the IX syllable in
`ix`; a reserved field that is not zero gives none (R35, item 7). -/

/-- The guard predicate of the scalar and engine frame (R18). -/
def gOf (w : Nat) : Fin 16 := Fin.ofNat 16 (bits w 31 28)

/-- The guard mask of the facet frame (R20). -/
def qOf (w : Nat) : Fin 8 := Fin.ofNat 8 (bits w 31 29)

/-- The scalar and engine frame (R18). -/
def frameG (g : Fin 16) (ix : Option W32) (op body : Nat) : Nat :=
  g.val * 0x10000000 + boolCode ix.isSome * 0x8000000 + op * 0x100000 + body

/-- The facet frame (R20). -/
def frameQ (q : Fin 8) (ix : Option W32) (op body : Nat) : Nat :=
  q.val * 0x20000000 + boolCode ix.isSome * 0x10000000 + op * 0x400000 + body

def OBr.dec (w : Nat) (ix : Option W32) : Option OBr :=
  some { g := gOf w, ix := ix, ofs := BitVec.ofNat 20 (bits w 19 0) }

def OBrc.dec (w : Nat) (ix : Option W32) : Option OBrc :=
  do
    let a' ← Src.ofCode (bits w 19 15)
    let nz' ← boolOf (bits w 14 14)
    some { g := gOf w, ix := ix, a := a', nz := nz', ofs := BitVec.ofNat 14 (bits w 13 0) }

def OBrq.dec (w : Nat) (ix : Option W32) : Option OBrq :=
  some { g := gOf w, ix := ix, f := Fin.ofNat 8 (bits w 19 17), qc := Fin.ofNat 8 (bits w 16 14), qe := Fin.ofNat 8 (bits w 13 11), ofs := BitVec.ofNat 11 (bits w 10 0) }

def OBrA.dec (w : Nat) (ix : Option W32) : Option OBrA :=
  if bits w 14 0 = 0 ∧ ix = none then
    do
      let a' ← Src.ofCode (bits w 19 15)
      some { g := gOf w, a := a' }
  else none

def OLoop.dec (w : Nat) (ix : Option W32) : Option OLoop :=
  some { g := gOf w, ix := ix, c := Fin.ofNat 64 (bits w 19 14), ofs := BitVec.ofNat 14 (bits w 13 0) }

def OG.dec (w : Nat) (ix : Option W32) : Option OG :=
  if bits w 19 0 = 0 ∧ ix = none then
    some { g := gOf w }
  else none

def OWait.dec (w : Nat) (ix : Option W32) : Option OWait :=
  if bits w 14 8 = 0 ∧ ix = none then
    some { g := gOf w, cls := BitVec.ofNat 5 (bits w 19 15), n := BitVec.ofNat 8 (bits w 7 0) }
  else none

def OFence.dec (w : Nat) (ix : Option W32) : Option OFence :=
  if bits w 3 0 = 0 ∧ ix = none then
    do
      let scope' ← Scope.ofCode (bits w 7 4)
      some { g := gOf w, pred := BitVec.ofNat 6 (bits w 19 14), succ := BitVec.ofNat 6 (bits w 13 8), scope := scope' }
  else none

def OLwatch.dec (w : Nat) (ix : Option W32) : Option OLwatch :=
  if bits w 9 4 = 0 then
    do
      let a' ← Src.ofCode (bits w 19 15)
      let b' ← Src.ofCode (bits w 14 10)
      let scope' ← Scope.ofCode (bits w 3 0)
      some { g := gOf w, ix := ix, a := a', b := b', scope := scope' }
  else none

def OR3.dec (w : Nat) (ix : Option W32) (fn : Nat) : Option OR3 :=
  if bits w 3 0 = fn then
    do
      let d' ← Dst.ofCode (bits w 19 14)
      let a' ← Src.ofCode (bits w 13 9)
      let b' ← Src.ofCode (bits w 8 4)
      some { g := gOf w, ix := ix, d := d', a := a', b := b' }
  else none

def OR2.dec (w : Nat) (ix : Option W32) : Option OR2 :=
  if bits w 8 0 = 0 then
    do
      let d' ← Dst.ofCode (bits w 19 14)
      let a' ← Src.ofCode (bits w 13 9)
      some { g := gOf w, ix := ix, d := d', a := a' }
  else none

def OR3n.dec (w : Nat) (ix : Option W32) : Option OR3n :=
  do
    let d' ← Dst.ofCode (bits w 19 14)
    let a' ← Src.ofCode (bits w 13 9)
    let b' ← Src.ofCode (bits w 8 4)
    some { g := gOf w, ix := ix, d := d', a := a', b := b', n := Fin.ofNat 16 (bits w 3 0) }

def OStg.dec (w : Nat) (ix : Option W32) : Option OStg :=
  if bits w 8 0 = 0 then
    do
      let d' ← finOf 40 (bits w 19 14)
      let a' ← Src.ofCode (bits w 13 9)
      some { g := gOf w, ix := ix, d := d', a := a' }
  else none

def OMovi.dec (w : Nat) (ix : Option W32) : Option OMovi :=
  if bits w 13 9 = 0 && bits w 3 0 = 0 then
    do
      let d' ← Dst.ofCode (bits w 19 14)
      let b' ← Src.ofCode (bits w 8 4)
      some { g := gOf w, ix := ix, d := d', b := b' }
  else none

def OCmp.dec (w : Nat) (ix : Option W32) : Option OCmp :=
  do
    let pe' ← pairOf 8 (bits w 19 14)
    let a' ← Src.ofCode (bits w 13 9)
    let b' ← Src.ofCode (bits w 8 4)
    let c' ← Cond.ofCode (bits w 3 0)
    some { g := gOf w, ix := ix, pe := pe', a := a', b := b', c := c' }

def OPlog.dec (w : Nat) (ix : Option W32) : Option OPlog :=
  if ix = none then
    do
      let pe' ← pairOf 8 (bits w 19 14)
      let pa' ← finOf 16 (bits w 13 9)
      let pb' ← finOf 16 (bits w 8 4)
      let op' ← Lop.ofCode (bits w 3 0)
      some { g := gOf w, pe := pe', pa := pa', pb := pb', op := op' }
  else none

def OLd.dec (w : Nat) (ix : Option W32) : Option OLd :=
  do
    let d' ← Dst.ofCode (bits w 19 14)
    let a' ← Src.ofCode (bits w 13 9)
    let b' ← Src.ofCode (bits w 8 4)
    let scope' ← Scope.ofCode (bits w 3 0)
    some { g := gOf w, ix := ix, d := d', a := a', b := b', scope := scope' }

def OSt.dec (w : Nat) (ix : Option W32) : Option OSt :=
  if bits w 14 14 = 0 then
    do
      let v' ← Src.ofCode (bits w 19 15)
      let a' ← Src.ofCode (bits w 13 9)
      let b' ← Src.ofCode (bits w 8 4)
      let scope' ← Scope.ofCode (bits w 3 0)
      some { g := gOf w, ix := ix, v := v', a := a', b := b', scope := scope' }
  else none

def OStl.dec (w : Nat) (ix : Option W32) : Option OStl :=
  if bits w 14 14 = 0 ∧ bits w 3 0 = 0 then
    do
      let v' ← Src.ofCode (bits w 19 15)
      let a' ← Src.ofCode (bits w 13 9)
      let b' ← Src.ofCode (bits w 8 4)
      some { g := gOf w, ix := ix, v := v', a := a', b := b' }
  else none

def OPfd.dec (w : Nat) (ix : Option W32) : Option OPfd :=
  if bits w 17 14 = 0 ∧ bits w 3 0 = 0 then
    do
      let die' ← boolOf (bits w 19 18)
      let a' ← Src.ofCode (bits w 13 9)
      let b' ← Src.ofCode (bits w 8 4)
      some { g := gOf w, ix := ix, die := die', a := a', b := b' }
  else none

def OCbo.dec (w : Nat) (ix : Option W32) : Option OCbo :=
  if bits w 17 14 = 0 then
    do
      let kind' ← CboKind.ofCode (bits w 19 18)
      let a' ← Src.ofCode (bits w 13 9)
      let b' ← Src.ofCode (bits w 8 4)
      let scope' ← Scope.ofCode (bits w 3 0)
      some { g := gOf w, ix := ix, kind := kind', a := a', b := b', scope := scope' }
  else none

def OCsrr.dec (w : Nat) (ix : Option W32) : Option OCsrr :=
  if bits w 13 12 = 0 ∧ ix = none then
    do
      let d' ← Dst.ofCode (bits w 19 14)
      some { g := gOf w, d := d', csr := BitVec.ofNat 12 (bits w 11 0) }
  else none

def OCsrw.dec (w : Nat) (ix : Option W32) : Option OCsrw :=
  if bits w 14 12 = 0 then
    do
      let a' ← Src.ofCode (bits w 19 15)
      some { g := gOf w, ix := ix, a := a', csr := BitVec.ofNat 12 (bits w 11 0) }
  else none

def OXbc.dec (w : Nat) (ix : Option W32) : Option OXbc :=
  if bits w 4 0 = 0 then
    do
      let all' ← boolOf (bits w 16 16)
      let vd' ← VReg.ofCode (bits w 15 10)
      let a' ← Src.ofCode (bits w 9 5)
      some { g := gOf w, ix := ix, f := Fin.ofNat 8 (bits w 19 17), all := all', vd := vd', a := a' }
  else none

def OXin.dec (w : Nat) (ix : Option W32) : Option OXin :=
  if bits w 16 16 = 0 ∧ bits w 4 4 = 0 then
    do
      let vd' ← VReg.ofCode (bits w 15 10)
      let a' ← Src.ofCode (bits w 9 5)
      some { g := gOf w, ix := ix, f := Fin.ofNat 8 (bits w 19 17), vd := vd', a := a', lane := Fin.ofNat 16 (bits w 3 0) }
  else none

def OXex.dec (w : Nat) (ix : Option W32) : Option OXex :=
  if bits w 4 4 = 0 ∧ ix = none then
    do
      let d' ← Dst.ofCode (bits w 19 14)
      let va' ← VReg.ofCode (bits w 10 5)
      some { g := gOf w, d := d', f := Fin.ofNat 8 (bits w 13 11), va := va', lane := Fin.ofNat 16 (bits w 3 0) }
  else none

def OXred.dec (w : Nat) (ix : Option W32) : Option OXred :=
  if bits w 4 4 = 0 ∧ ix = none then
    do
      let d' ← Dst.ofCode (bits w 19 14)
      let va' ← VReg.ofCode (bits w 10 5)
      let op' ← XredOp.ofCode (bits w 3 0)
      some { g := gOf w, d := d', f := Fin.ofNat 8 (bits w 13 11), va := va', op := op' }
  else none

def OV3.dec (w : Nat) (ix : Option W32) : Option OV3 :=
  if bits w 3 0 = 0 then
    do
      let d' ← VReg.ofCode (bits w 21 16)
      let a' ← FSrc.ofCode (bits w 15 10)
      let b' ← FSrc.ofCode (bits w 9 4)
      some { q := qOf w, ix := ix, d := d', a := a', b := b' }
  else none

def OV2.dec (w : Nat) (ix : Option W32) : Option OV2 :=
  if bits w 9 0 = 0 then
    do
      let d' ← VReg.ofCode (bits w 21 16)
      let a' ← FSrc.ofCode (bits w 15 10)
      some { q := qOf w, ix := ix, d := d', a := a' }
  else none

def OVcvt.dec (w : Nat) (ix : Option W32) : Option OVcvt :=
  if bits w 3 0 = 0 then
    do
      let d' ← VReg.ofCode (bits w 21 16)
      let a' ← FSrc.ofCode (bits w 15 10)
      let kind' ← CvtKind.ofCode (bits w 9 6)
      let rm' ← RMode.ofCode (bits w 5 4)
      some { q := qOf w, ix := ix, d := d', a := a', kind := kind', rm := rm' }
  else none

def OVcmp.dec (w : Nat) (ix : Option W32) : Option OVcmp :=
  do
    let qe' ← pairOf 4 (bits w 21 16)
    let a' ← FSrc.ofCode (bits w 15 10)
    let b' ← FSrc.ofCode (bits w 9 4)
    let c' ← VCond.ofCode (bits w 3 0)
    some { q := qOf w, ix := ix, qe := qe', a := a', b := b', c := c' }

def OVsel.dec (w : Nat) (ix : Option W32) : Option OVsel :=
  if bits w 3 3 = 0 then
    do
      let d' ← VReg.ofCode (bits w 21 16)
      let a' ← FSrc.ofCode (bits w 15 10)
      let b' ← FSrc.ofCode (bits w 9 4)
      some { q := qOf w, ix := ix, d := d', a := a', b := b', n := Fin.ofNat 8 (bits w 2 0) }
  else none

def OVmov.dec (w : Nat) (ix : Option W32) : Option OVmov :=
  if bits w 9 0 = 0 ∧ ix = none then
    do
      let d' ← VReg.ofCode (bits w 21 16)
      let a' ← FSrc.ofCode (bits w 15 10)
      some { q := qOf w, d := d', a := a' }
  else none

def OVred.dec (w : Nat) (ix : Option W32) : Option OVred :=
  if bits w 9 4 = 0 ∧ ix = none then
    do
      let d' ← VReg.ofCode (bits w 21 16)
      let a' ← FSrc.ofCode (bits w 15 10)
      let op' ← RedOp.ofCode (bits w 3 0)
      some { q := qOf w, d := d', a := a', op := op' }
  else none

def OVdot.dec (w : Nat) (ix : Option W32) : Option OVdot :=
  do
    let d' ← VReg.ofCode (bits w 21 16)
    let a' ← FSrc.ofCode (bits w 15 10)
    let b' ← FSrc.ofCode (bits w 9 4)
    let kind' ← DotKind.ofCode (bits w 3 0)
    some { q := qOf w, ix := ix, d := d', a := a', b := b', kind := kind' }

def OVcopy.dec (w : Nat) (ix : Option W32) : Option OVcopy :=
  if bits w 6 0 = 0 ∧ ix = none then
    do
      let d' ← VReg.ofCode (bits w 21 16)
      let a' ← VReg.ofCode (bits w 15 10)
      some { q := qOf w, d := d', a := a', srcf := Fin.ofNat 8 (bits w 9 7) }
  else none

def OVmem.dec (w : Nat) (ix : Option W32) : Option OVmem :=
  do
    let d' ← VReg.ofCode (bits w 21 16)
    let sz' ← VSize.ofCode (bits w 13 12)
    let scope' ← Scope.ofCode (bits w 11 8)
    some { q := qOf w, ix := ix, d := d', ab := Fin.ofNat 4 (bits w 15 14), sz := sz', scope := scope', ofs := BitVec.ofNat 8 (bits w 7 0) }

def OVgs.dec (w : Nat) (ix : Option W32) : Option OVgs :=
  if bits w 5 4 = 0 ∧ ix = none then
    do
      let d' ← VReg.ofCode (bits w 21 16)
      let a' ← FSrc.ofCode (bits w 15 10)
      let sz' ← VSize.ofCode (bits w 7 6)
      let scope' ← Scope.ofCode (bits w 3 0)
      some { q := qOf w, d := d', a := a', ab := Fin.ofNat 4 (bits w 9 8), sz := sz', scope := scope' }
  else none

def OVldt.dec (w : Nat) (ix : Option W32) : Option OVldt :=
  if bits w 12 12 = 0 then
    do
      let d' ← VReg.ofCode (bits w 21 16)
      let hi' ← boolOf (bits w 13 13)
      let scope' ← Scope.ofCode (bits w 11 8)
      some { q := qOf w, ix := ix, d := d', ab := Fin.ofNat 4 (bits w 15 14), hi := hi', scope := scope', ofs := BitVec.ofNat 8 (bits w 7 0) }
  else none

def OVstt.dec (w : Nat) (ix : Option W32) : Option OVstt :=
  if bits w 13 12 = 0 then
    do
      let d' ← VReg.ofCode (bits w 21 16)
      let scope' ← Scope.ofCode (bits w 11 8)
      some { q := qOf w, ix := ix, d := d', ab := Fin.ofNat 4 (bits w 15 14), scope := scope', ofs := BitVec.ofNat 8 (bits w 7 0) }
  else none

def OQlog.dec (w : Nat) (ix : Option W32) : Option OQlog :=
  if ix = none then
    do
      let qe' ← pairOf 4 (bits w 21 16)
      let qa' ← finOf 8 (bits w 15 10)
      let qb' ← finOf 8 (bits w 9 4)
      let op' ← Lop.ofCode (bits w 3 0)
      some { q := qOf w, qe := qe', qa := qa', qb := qb', op := op' }
  else none

def ODset.dec (w : Nat) (ix : Option W32) : Option ODset :=
  if bits w 18 16 = 0 ∧ bits w 9 0 = 0 then
    do
      let a' ← FSrc.ofCode (bits w 15 10)
      some { q := qOf w, ix := ix, d := Fin.ofNat 8 (bits w 21 19), a := a' }
  else none

def ODsmp.dec (w : Nat) (ix : Option W32) : Option ODsmp :=
  if bits w 18 16 = 0 ∧ bits w 9 0 = 0 ∧ ix = none then
    do
      let n' ← finOf 25 (bits w 15 10)
      some { q := qOf w, d := Fin.ofNat 8 (bits w 21 19), n := n' }
  else none

def ODmem.dec (w : Nat) (ix : Option W32) : Option ODmem :=
  if bits w 18 16 = 0 ∧ bits w 13 12 = 0 then
    do
      let scope' ← Scope.ofCode (bits w 11 8)
      some { q := qOf w, ix := ix, d := Fin.ofNat 8 (bits w 21 19), ab := Fin.ofNat 4 (bits w 15 14), scope := scope', ofs := BitVec.ofNat 8 (bits w 7 0) }
  else none

def ODbin.dec (w : Nat) (ix : Option W32) : Option ODbin :=
  if bits w 12 0 = 0 ∧ ix = none then
    some { q := qOf w, d := Fin.ofNat 8 (bits w 21 19), a := Fin.ofNat 8 (bits w 18 16), b := Fin.ofNat 8 (bits w 15 13) }
  else none

def ODaff.dec (w : Nat) (ix : Option W32) : Option ODaff :=
  if bits w 3 0 = 0 then
    do
      let va' ← FSrc.ofCode (bits w 15 10)
      let vb' ← FSrc.ofCode (bits w 9 4)
      some { q := qOf w, ix := ix, d := Fin.ofNat 8 (bits w 21 19), a := Fin.ofNat 8 (bits w 18 16), va := va', vb := vb' }
  else none

def ODmix.dec (w : Nat) (ix : Option W32) : Option ODmix :=
  if bits w 6 0 = 0 then
    do
      let w' ← FSrc.ofCode (bits w 12 7)
      some { q := qOf w, ix := ix, d := Fin.ofNat 8 (bits w 21 19), a := Fin.ofNat 8 (bits w 18 16), b := Fin.ofNat 8 (bits w 15 13), w := w' }
  else none

def ODmom.dec (w : Nat) (ix : Option W32) : Option ODmom :=
  if bits w 12 0 = 0 ∧ ix = none then
    do
      let vd' ← finOf 29 (bits w 21 16)
      some { q := qOf w, vd := vd', a := Fin.ofNat 8 (bits w 15 13) }
  else none

def ODqnt.dec (w : Nat) (ix : Option W32) : Option ODqnt :=
  if bits w 6 0 = 0 then
    do
      let vd' ← VReg.ofCode (bits w 21 16)
      let b' ← FSrc.ofCode (bits w 12 7)
      some { q := qOf w, ix := ix, vd := vd', a := Fin.ofNat 8 (bits w 15 13), b := b' }
  else none

def ODtag.dec (w : Nat) (ix : Option W32) : Option ODtag :=
  if bits w 18 0 = 0 ∧ ix = none then
    some { q := qOf w, d := Fin.ofNat 8 (bits w 21 19) }
  else none

def OGS.dec (w : Nat) (ix : Option W32) : Option OGS :=
  if bits w 15 0 = 0 ∧ ix = none then
    do
      let scope' ← Scope.ofCode (bits w 19 16)
      some { g := gOf w, scope := scope' }
  else none

def ODep.dec (w : Nat) (ix : Option W32) : Option ODep :=
  if bits w 19 12 = 0 ∧ ix = none then
    some { g := gOf w, d := BitVec.ofNat 12 (bits w 11 0) }
  else none

def OMark.dec (w : Nat) (ix : Option W32) : Option OMark :=
  if bits w 19 3 = 0 ∧ ix = none then
    some { g := gOf w, k := Fin.ofNat 8 (bits w 2 0) }
  else none

def OMake.dec (w : Nat) (ix : Option W32) : Option OMake :=
  if bits w 19 17 = 0 ∧ ix = none then
    do
      let f' ← Fmt.ofCode (bits w 4 0)
      some { g := gOf w, c := Fin.ofNat 64 (bits w 16 11), r := Fin.ofNat 64 (bits w 10 5), f := f' }
  else none

def OShape.dec (w : Nat) (ix : Option W32) : Option OShape :=
  if bits w 19 17 = 0 ∧ bits w 4 0 = 0 ∧ ix = none then
    some { g := gOf w, c := Fin.ofNat 64 (bits w 16 11), r := Fin.ofNat 64 (bits w 10 5) }
  else none

def OJoin.dec (w : Nat) (ix : Option W32) : Option OJoin :=
  if bits w 19 1 = 0 ∧ ix = none then
    do
      let h' ← boolOf (bits w 0 0)
      some { g := gOf w, h := h' }
  else none

def OFromv.dec (w : Nat) (ix : Option W32) : Option OFromv :=
  if bits w 19 16 = 0 ∧ ix = none then
    do
      let f' ← Fmt.ofCode (bits w 4 0)
      some { g := gOf w, vb := Fin.ofNat 32 (bits w 15 11), r := Fin.ofNat 64 (bits w 10 5), f := f' }
  else none

def OTov.dec (w : Nat) (ix : Option W32) : Option OTov :=
  if bits w 19 16 = 0 ∧ bits w 4 0 = 0 ∧ ix = none then
    some { g := gOf w, vb := Fin.ofNat 32 (bits w 15 11), r := Fin.ofNat 64 (bits w 10 5) }
  else none

def OTcvt.dec (w : Nat) (ix : Option W32) : Option OTcvt :=
  if bits w 19 7 = 0 ∧ ix = none then
    do
      let rm' ← RMode.ofCode (bits w 6 5)
      let f' ← Fmt.ofCode (bits w 4 0)
      some { g := gOf w, rm := rm', f := f' }
  else none

def OBlk.dec (w : Nat) (ix : Option W32) : Option OBlk :=
  if bits w 15 4 = 0 ∧ ix = none then
    do
      let scope' ← Scope.ofCode (bits w 19 16)
      some { g := gOf w, scope := scope', k := Fin.ofNat 16 (bits w 3 0) }
  else none

def OBlkRel.dec (w : Nat) (ix : Option W32) : Option OBlkRel :=
  if bits w 19 5 = 0 ∧ bits w 4 4 = 1 ∧ ix = none then
    some { g := gOf w, k := Fin.ofNat 16 (bits w 3 0) }
  else none

def OSort.dec (w : Nat) (ix : Option W32) : Option OSort :=
  if bits w 15 1 = 0 ∧ ix = none then
    do
      let scope' ← Scope.ofCode (bits w 19 16)
      let scat' ← boolOf (bits w 0 0)
      some { g := gOf w, scope := scope', scat := scat' }
  else none

def OKar.dec (w : Nat) (ix : Option W32) : Option OKar :=
  if bits w 1 0 = 0 ∧ ix = none then
    do
      let scope' ← Scope.ofCode (bits w 19 16)
      let d' ← finOf 56 (bits w 15 10)
      let op' ← Rop.ofCode (bits w 9 6)
      let e' ← EType.ofCode (bits w 5 2)
      some { g := gOf w, scope := scope', d := d', op := op', e := e' }
  else none

def OKag.dec (w : Nat) (ix : Option W32) : Option OKag :=
  if bits w 9 6 = 0 ∧ bits w 1 0 = 0 ∧ ix = none then
    do
      let scope' ← Scope.ofCode (bits w 19 16)
      let d' ← finOf 56 (bits w 15 10)
      let e' ← EType.ofCode (bits w 5 2)
      some { g := gOf w, scope := scope', d := d', e := e' }
  else none

def OKrecv.dec (w : Nat) (ix : Option W32) : Option OKrecv :=
  if bits w 9 0 = 0 ∧ ix = none then
    do
      let scope' ← Scope.ofCode (bits w 19 16)
      let d' ← finOf 56 (bits w 15 10)
      some { g := gOf w, scope := scope', d := d' }
  else none

def OKd.dec (w : Nat) (ix : Option W32) : Option OKd :=
  if bits w 19 16 = 0 ∧ bits w 9 0 = 0 ∧ ix = none then
    do
      let d' ← finOf 56 (bits w 15 10)
      some { g := gOf w, d := d' }
  else none

def OTok.dec (w : Nat) (ix : Option W32) : Option OTok :=
  if bits w 15 3 = 0 ∧ ix = none then
    do
      let scope' ← Scope.ofCode (bits w 19 16)
      some { g := gOf w, scope := scope', k := Fin.ofNat 8 (bits w 2 0) }
  else none

def OJoinG.dec (w : Nat) (ix : Option W32) : Option OJoinG :=
  if bits w 19 8 = 0 ∧ ix = none then
    some { g := gOf w, n := Fin.ofNat 256 (bits w 7 0) }
  else none

def OMgrd.dec (w : Nat) (ix : Option W32) : Option OMgrd :=
  if bits w 19 6 = 0 ∧ ix = none then
    do
      let rel' ← Rel.ofCode (bits w 5 3)
      let k' ← finOf 6 (bits w 2 0)
      some { g := gOf w, rel := rel', k := k' }
  else none

def OTlbi.dec (w : Nat) (ix : Option W32) : Option OTlbi :=
  if bits w 19 2 = 0 ∧ ix = none then
    do
      let k' ← TlbiKind.ofCode (bits w 1 0)
      some { g := gOf w, k := k' }
  else none

/-! The syllables whose IX syllable is required. -/

/-- FENCER (R149): masks and scope in the IX syllable. -/
def OFencer.dec (w : Nat) (ix : Option W32) : Option OFencer :=
  match ix with
  | none => none
  | some x =>
    if bits w 9 0 = 0 ∧ bits x.toNat 31 16 = 0 then do
      let a ← Src.ofCode (bits w 19 15)
      let b ← Src.ofCode (bits w 14 10)
      let scope ← Scope.ofCode (bits x.toNat 15 12)
      some { g := gOf w, a := a, b := b, pred := BitVec.ofNat 6 (bits x.toNat 5 0)
             succ := BitVec.ofNat 6 (bits x.toNat 11 6), scope := scope }
    else none

/-- MOV.patch (R157). -/
def OPatch.dec (w : Nat) (ix : Option W32) : Option OPatch :=
  match ix with
  | none => none
  | some x =>
    if bits w 8 0 = 1 then do
      let d ← finOf 40 (bits w 19 14)
      let a ← Src.ofCode (bits w 13 9)
      let k ← finOf 6 (bits x.toNat 2 0)
      some { g := gOf w, d := d, a := a, k := k, off := BitVec.ofNat 29 (bits x.toNat 31 3) }
    else none

/-- BFX (R159), with FN. -/
def OBfx.dec (w : Nat) (ix : Option W32) (fn : Nat) : Option OBfx :=
  match ix with
  | none => none
  | some x =>
    if bits w 8 0 = fn ∧ bits x.toNat 31 13 = 0 then do
      let d ← Dst.ofCode (bits w 19 14)
      let a ← Src.ofCode (bits w 13 9)
      let width ← finOf 65 (bits x.toNat 12 6)
      some { g := gOf w, d := d, a := a, pos := Fin.ofNat 64 (bits x.toNat 5 0), w := width }
    else none

/-- BFI (R159). -/
def OBfi.dec (w : Nat) (ix : Option W32) : Option OBfi :=
  match ix with
  | none => none
  | some x =>
    if bits w 3 0 = 0 ∧ bits x.toNat 31 13 = 0 then do
      let d ← Dst.ofCode (bits w 19 14)
      let a ← Src.ofCode (bits w 13 9)
      let b ← Src.ofCode (bits w 8 4)
      let width ← finOf 65 (bits x.toNat 12 6)
      some { g := gOf w, d := d, a := a, b := b, pos := Fin.ofNat 64 (bits x.toNat 5 0), w := width }
    else none

/-- VEXP2 (R186). -/
def OVexp.dec (w : Nat) (ix : Option W32) : Option OVexp :=
  match ix with
  | none => none
  | some x =>
    if bits w 3 0 = 0 then do
      let d ← VReg.ofCode (bits w 21 16)
      let a ← FSrc.ofCode (bits w 15 10)
      let b ← FSrc.ofCode (bits w 9 4)
      some { q := qOf w, d := d, a := a, b := b, c := x }
    else none

/-! The opcode maps. `op` is the opcode field of the syllable `w` (R18, R20). -/

/-- The BR opcode map. -/
def decodeBr (op w : Nat) (ix : Option W32) : Option Instr :=
  match op with
  | 1 => (OBr.dec w ix).map .br
  | 2 => (OBrc.dec w ix).map .brc
  | 3 => (OBrq.dec w ix).map .brq
  | 4 => (OBrA.dec w ix).map .jmpi
  | 5 => (OBr.dec w ix).map .call
  | 6 => (OBrA.dec w ix).map .calli
  | 7 => (OBrA.dec w ix).map .ret
  | 8 => (OLoop.dec w ix).map .loop
  | 9 => (OG.dec w ix).map .trap
  | 10 => (OG.dec w ix).map .eret
  | 11 => (OG.dec w ix).map .brk
  | 12 => (OBr.dec w ix).map .ipf
  | 13 => (OG.dec w ix).map .ifence
  | 14 => (OWait.dec w ix).map .wait
  | 15 => (OFence.dec w ix).map .fence
  | 16 => (OFencer.dec w ix).map .fencer
  | 17 => (OLwatch.dec w ix).map .lwatch
  | 18 => (OG.dec w ix).map .wpark
  | _ => none

/-- The SA and SB opcode map. -/
def decodeSa (op w : Nat) (ix : Option W32) : Option Instr :=
  match op with
  | 1 => (OR3.dec w ix 0).map .add
  | 2 => (OR3.dec w ix 0).map .sub
  | 3 => (OR3.dec w ix 0).map .mul
  | 4 => (OR3.dec w ix 0).map .mulh
  | 5 => (OR3.dec w ix 0).map .mulhu
  | 6 => (OR3.dec w ix 0).map .div
  | 7 => (OR3.dec w ix 0).map .divu
  | 8 => (OR3.dec w ix 0).map .rem
  | 9 => (OR3.dec w ix 0).map .remu
  | 10 => (OR3.dec w ix 0).map .and
  | 11 => (OR3.dec w ix 0).map .or
  | 12 => (OR3.dec w ix 0).map .xor
  | 13 => (OR3.dec w ix 0).map .andn
  | 14 => (OR3.dec w ix 0).map .shl
  | 15 => (OR3.dec w ix 0).map .shr
  | 16 => (OR3.dec w ix 0).map .sra
  | 17 => (OR3.dec w ix 0).map .rot
  | 18 => (OR3.dec w ix 0).map .min
  | 19 => (OR3.dec w ix 0).map .max
  | 20 => (OR3.dec w ix 0).map .minu
  | 21 => (OR3.dec w ix 0).map .maxu
  | 22 => (OR2.dec w ix).map .clz
  | 23 => (OR2.dec w ix).map .ctz
  | 24 => (OR2.dec w ix).map .popc
  | 25 => (OR3n.dec w ix).map .sel
  | 26 => (OR2.dec w ix).map .mov
  | 27 => (OStg.dec w ix).map .movStaging <|> (OPatch.dec w ix).map .movPatch
  | 28 => (OMovi.dec w ix).map .movi <|> (OR3.dec w ix 1).map .moviH
  | 29 => (OR3n.dec w ix).map .lea
  | 30 => (OR3.dec w ix 0).map .extZ <|> (OR3.dec w ix 1).map .extS
  | 31 => (OBfx.dec w ix 0).map .bfx <|> (OBfx.dec w ix 1).map .bfxS
  | 32 => (OBfi.dec w ix).map .bfi
  | 33 => (OCmp.dec w ix).map .cmp
  | 34 => (OPlog.dec w ix).map .plog
  | _ => none

/-- The AM opcode map. -/
def decodeAm (op w : Nat) (ix : Option W32) : Option Instr :=
  match op with
  | 1 => (OLd.dec w ix).map .ldB
  | 2 => (OLd.dec w ix).map .ldH
  | 3 => (OLd.dec w ix).map .ldW
  | 4 => (OLd.dec w ix).map .ldD
  | 5 => (OLd.dec w ix).map .ldBAcq
  | 6 => (OLd.dec w ix).map .ldHAcq
  | 7 => (OLd.dec w ix).map .ldWAcq
  | 8 => (OLd.dec w ix).map .ldDAcq
  | 9 => (OSt.dec w ix).map .stB
  | 10 => (OSt.dec w ix).map .stH
  | 11 => (OSt.dec w ix).map .stW
  | 12 => (OSt.dec w ix).map .stD
  | 13 => (OSt.dec w ix).map .stBRel
  | 14 => (OSt.dec w ix).map .stHRel
  | 15 => (OSt.dec w ix).map .stWRel
  | 16 => (OSt.dec w ix).map .stDRel
  | 17 => (OR3.dec w ix 0).map .ldlB
  | 18 => (OR3.dec w ix 0).map .ldlH
  | 19 => (OR3.dec w ix 0).map .ldlW
  | 20 => (OR3.dec w ix 0).map .ldlD
  | 21 => (OStl.dec w ix).map .stlB
  | 22 => (OStl.dec w ix).map .stlH
  | 23 => (OStl.dec w ix).map .stlW
  | 24 => (OStl.dec w ix).map .stlD
  | 25 => (OLd.dec w ix).map .amoaddW
  | 26 => (OLd.dec w ix).map .amoaddD
  | 27 => (OLd.dec w ix).map .amoandW
  | 28 => (OLd.dec w ix).map .amoandD
  | 29 => (OLd.dec w ix).map .amoorW
  | 30 => (OLd.dec w ix).map .amoorD
  | 31 => (OLd.dec w ix).map .amoxorW
  | 32 => (OLd.dec w ix).map .amoxorD
  | 33 => (OLd.dec w ix).map .amominW
  | 34 => (OLd.dec w ix).map .amominD
  | 35 => (OLd.dec w ix).map .amomaxW
  | 36 => (OLd.dec w ix).map .amomaxD
  | 37 => (OLd.dec w ix).map .amoswpW
  | 38 => (OLd.dec w ix).map .amoswpD
  | 39 => (OLd.dec w ix).map .casW
  | 40 => (OLd.dec w ix).map .casD
  | 41 => (OPfd.dec w ix).map .pfd
  | 42 => (OCbo.dec w ix).map .cbo
  | 43 => (OCsrr.dec w ix).map .csrr
  | 44 => (OCsrw.dec w ix).map .csrw
  | _ => none

/-- The XF opcode map. -/
def decodeXf (op w : Nat) (ix : Option W32) : Option Instr :=
  match op with
  | 1 => (OXbc.dec w ix).map .xbc
  | 2 => (OXin.dec w ix).map .xin
  | _ => none

/-- The XS opcode map. -/
def decodeXs (op w : Nat) (ix : Option W32) : Option Instr :=
  match op with
  | 1 => (OXex.dec w ix).map .xex
  | 2 => (OXred.dec w ix).map .xred
  | _ => none

/-- The facet opcode map. -/
def decodeF (op w : Nat) (ix : Option W32) : Option Instr :=
  match op with
  | 1 => (OV3.dec w ix).map .vadd
  | 2 => (OV3.dec w ix).map .vsub
  | 3 => (OV3.dec w ix).map .vmul
  | 4 => (OV3.dec w ix).map .vfma
  | 5 => (OV3.dec w ix).map .vfms
  | 6 => (OV3.dec w ix).map .vmin
  | 7 => (OV3.dec w ix).map .vmax
  | 8 => (OV2.dec w ix).map .vabs
  | 9 => (OV2.dec w ix).map .vneg
  | 10 => (OV2.dec w ix).map .vrcp
  | 11 => (OV2.dec w ix).map .vrsq
  | 12 => (OV2.dec w ix).map .vlog2
  | 13 => (OVexp.dec w ix).map .vexp2
  | 14 => (OVcvt.dec w ix).map .vcvt
  | 15 => (OVcmp.dec w ix).map .vcmp
  | 16 => (OVsel.dec w ix).map .vsel
  | 17 => (OV3.dec w ix).map .viadd
  | 18 => (OV3.dec w ix).map .visub
  | 19 => (OV3.dec w ix).map .vimul
  | 20 => (OV3.dec w ix).map .vand
  | 21 => (OV3.dec w ix).map .vor
  | 22 => (OV3.dec w ix).map .vxor
  | 23 => (OV3.dec w ix).map .vshl
  | 24 => (OV3.dec w ix).map .vshr
  | 25 => (OV3.dec w ix).map .vsra
  | 26 => (OV3.dec w ix).map .vimin
  | 27 => (OV3.dec w ix).map .vimax
  | 28 => (OVmov.dec w ix).map .vmov
  | 29 => (OV2.dec w ix).map .vmovi
  | 30 => (OV3.dec w ix).map .vshf
  | 31 => (OVred.dec w ix).map .vred
  | 32 => (OVred.dec w ix).map .vscan
  | 33 => (OVdot.dec w ix).map .vdot
  | 34 => (OVcopy.dec w ix).map .vcopy
  | 35 => (OVmem.dec w ix).map .vld
  | 36 => (OVmem.dec w ix).map .vst
  | 37 => (OVgs.dec w ix).map .vgth
  | 38 => (OVgs.dec w ix).map .vsct
  | 39 => (OVldt.dec w ix).map .vldt
  | 40 => (OVstt.dec w ix).map .vstt
  | 41 => (OQlog.dec w ix).map .qlog
  | 48 => (ODset.dec w ix).map .dset
  | 49 => (ODsmp.dec w ix).map .dsmp
  | 50 => (ODmem.dec w ix).map .dld
  | 51 => (ODmem.dec w ix).map .dst
  | 52 => (ODbin.dec w ix).map .dadd
  | 53 => (ODbin.dec w ix).map .dsub
  | 54 => (ODbin.dec w ix).map .dmul
  | 55 => (ODbin.dec w ix).map .dmin
  | 56 => (ODbin.dec w ix).map .dmax
  | 57 => (ODaff.dec w ix).map .daff
  | 58 => (ODmix.dec w ix).map .dmix
  | 59 => (ODaff.dec w ix).map .dcnd
  | 60 => (ODmom.dec w ix).map .dmom
  | 61 => (ODqnt.dec w ix).map .dqnt
  | 62 => (ODqnt.dec w ix).map .dcdf
  | 63 => (ODtag.dec w ix).map .dtag
  | _ => none

/-- The ET opcode map. -/
def decodeEt (op w : Nat) (ix : Option W32) : Option Instr :=
  match op with
  | 1 => (OGS.dec w ix).map .tld
  | 2 => (OGS.dec w ix).map .tst
  | 3 => (OGS.dec w ix).map .tgth
  | 4 => (ODep.dec w ix).map .tpick
  | 5 => (ODep.dec w ix).map .trot
  | 6 => (ODep.dec w ix).map .tdrop
  | 7 => (OMark.dec w ix).map .tmark
  | 8 => (OMark.dec w ix).map .tunwind
  | 9 => (OMake.dec w ix).map .tzero
  | 10 => (OMake.dec w ix).map .tfill
  | 11 => (OShape.dec w ix).map .tshape
  | 12 => (OJoin.dec w ix).map .tjoin
  | 13 => (OFromv.dec w ix).map .tfromv
  | 14 => (OTov.dec w ix).map .ttov
  | _ => none

/-- The EM opcode map. -/
def decodeEm (op w : Nat) (ix : Option W32) : Option Instr :=
  match op with
  | 1 => (OG.dec w ix).map .mma
  | 2 => (OG.dec w ix).map .mmac
  | 3 => (OG.dec w ix).map .mmack
  | 4 => (OGS.dec w ix).map .mmag
  | 5 => (OG.dec w ix).map .mscl
  | _ => none

/-- The EV opcode map. -/
def decodeEv (op w : Nat) (ix : Option W32) : Option Instr :=
  match op with
  | 1 => (OG.dec w ix).map .tadd
  | 2 => (OG.dec w ix).map .tsub
  | 3 => (OG.dec w ix).map .tmul
  | 4 => (OG.dec w ix).map .tfma
  | 5 => (OG.dec w ix).map .tmaxe
  | 6 => (OG.dec w ix).map .tmine
  | 7 => (OG.dec w ix).map .texp2
  | 8 => (OG.dec w ix).map .trcp
  | 9 => (OG.dec w ix).map .trmax
  | 10 => (OG.dec w ix).map .trsum
  | 11 => (OG.dec w ix).map .tcsum
  | 12 => (OG.dec w ix).map .tscl
  | 13 => (OShape.dec w ix).map .tbc
  | 14 => (OTcvt.dec w ix).map .tcvt
  | 15 => (OG.dec w ix).map .ttrn
  | _ => none

/-- The EC opcode map. -/
def decodeEc (op w : Nat) (ix : Option W32) : Option Instr :=
  match op with
  | 1 => (OGS.dec w ix).map .cpget
  | 2 => (OGS.dec w ix).map .cpput
  | 3 => (OGS.dec w ix).map .cpmc
  | 4 => (OBlk.dec w ix).map .ldblk <|> (OBlkRel.dec w ix).map .ldblkRel
  | 5 => (OSort.dec w ix).map .cpsort
  | 6 => (OGS.dec w ix).map .cpfill
  | _ => none

/-- The EK opcode map. -/
def decodeEk (op w : Nat) (ix : Option W32) : Option Instr :=
  match op with
  | 1 => (OKar.dec w ix).map .kar
  | 2 => (OKag.dec w ix).map .kag
  | 3 => (OKar.dec w ix).map .krs
  | 4 => (OKag.dec w ix).map .kbc
  | 5 => (OGS.dec w ix).map .ksend
  | 6 => (OKrecv.dec w ix).map .krecv
  | 7 => (OKd.dec w ix).map .spawn
  | 8 => (OTok.dec w ix).map .token
  | 9 => (OG.dec w ix).map .done
  | 10 => (OJoinG.dec w ix).map .join
  | 11 => (OG.dec w ix).map .leave
  | 12 => (OG.dec w ix).map .gbar
  | 13 => (OKd.dec w ix).map .qres
  | 14 => (OG.dec w ix).map .qpub
  | 15 => (OKd.dec w ix).map .qtake
  | 16 => (OG.dec w ix).map .qfree
  | 17 => (OG.dec w ix).map .mbeg
  | 18 => (OG.dec w ix).map .mend
  | 19 => (OMgrd.dec w ix).map .mgrd
  | 20 => (OTlbi.dec w ix).map .tlbi
  | 21 => (OG.dec w ix).map .flushctx
  | 22 => (OGS.dec w ix).map .icinv
  | _ => none

/-- One syllable that is not empty, by the opcode map of its slot kind. -/
def decodeRaw (k : Kind) (w : Nat) (ix : Option W32) : Option Instr :=
  match k with
  | .br => decodeBr (bits w 26 20) w ix
  | .sa | .sb => decodeSa (bits w 26 20) w ix
  | .am => decodeAm (bits w 26 20) w ix
  | .xf => decodeXf (bits w 26 20) w ix
  | .f => decodeF (bits w 27 22) w ix
  | .xs => decodeXs (bits w 26 20) w ix
  | .em => decodeEm (bits w 26 20) w ix
  | .et => decodeEt (bits w 26 20) w ix
  | .ev => decodeEv (bits w 26 20) w ix
  | .ec => decodeEc (bits w 26 20) w ix
  | .ek => decodeEk (bits w 26 20) w ix

/-- The same, with the rules of WellFormed (R35, items 6 to 9). -/
def decodeIns (k : Kind) (w : Nat) (ix : Option W32) : Option Instr :=
  match decodeRaw k w ix with
  | some i => if i.wf then some i else none
  | none => none

/-- The IXE bit of a syllable (R18, R20). -/
def ixeBit (k : Kind) (w : Nat) : Nat :=
  match k with
  | .f => bits w 28 28
  | _ => bits w 27 27

/-- The first syllable of a list of words, with its IX syllable, and the words that are left. The empty syllable
gives no instruction (R17). A syllable that announces an IX syllable and has no word after it is illegal (R21). -/
def decodeSyl (k : Kind) : List Nat → Option (Option Instr × List Nat)
  | [] => none
  | w :: ws =>
    if w = 0 then some (none, ws)
    else if ixeBit k w = 1 then
      match ws with
      | [] => none
      | x :: ws' =>
        match decodeIns k w (some (BitVec.ofNat 32 x)) with
        | some i => some (some i, ws')
        | none => none
    else
      match decodeIns k w none with
      | some i => some (some i, ws)
      | none => none

/-! The encoder. -/

def ixWords (ix : Option W32) : List Nat := (ix.map (·.toNat)).toList

def OBr.enc (o : OBr) (op : Nat) : Nat :=
  frameG o.g o.ix op (o.ofs.toNat)

def OBrc.enc (o : OBrc) (op : Nat) : Nat :=
  frameG o.g o.ix op (o.a.code * 32768 + boolCode o.nz * 16384 + o.ofs.toNat)

def OBrq.enc (o : OBrq) (op : Nat) : Nat :=
  frameG o.g o.ix op (o.f.val * 131072 + o.qc.val * 16384 + o.qe.val * 2048 + o.ofs.toNat)

def OBrA.enc (o : OBrA) (op : Nat) : Nat :=
  frameG o.g none op (o.a.code * 32768)

def OLoop.enc (o : OLoop) (op : Nat) : Nat :=
  frameG o.g o.ix op (o.c.val * 16384 + o.ofs.toNat)

def OG.enc (o : OG) (op : Nat) : Nat :=
  frameG o.g none op (0)

def OWait.enc (o : OWait) (op : Nat) : Nat :=
  frameG o.g none op (o.cls.toNat * 32768 + o.n.toNat)

def OFence.enc (o : OFence) (op : Nat) : Nat :=
  frameG o.g none op (o.pred.toNat * 16384 + o.succ.toNat * 256 + o.scope.code * 16)

def OLwatch.enc (o : OLwatch) (op : Nat) : Nat :=
  frameG o.g o.ix op (o.a.code * 32768 + o.b.code * 1024 + o.scope.code)

def OR3.enc (o : OR3) (op : Nat) (fn : Nat) : Nat :=
  frameG o.g o.ix op (o.d.code * 16384 + o.a.code * 512 + o.b.code * 16 + fn)

def OR2.enc (o : OR2) (op : Nat) : Nat :=
  frameG o.g o.ix op (o.d.code * 16384 + o.a.code * 512)

def OR3n.enc (o : OR3n) (op : Nat) : Nat :=
  frameG o.g o.ix op (o.d.code * 16384 + o.a.code * 512 + o.b.code * 16 + o.n.val)

def OStg.enc (o : OStg) (op : Nat) : Nat :=
  frameG o.g o.ix op (o.d.val * 16384 + o.a.code * 512)

def OMovi.enc (o : OMovi) (op : Nat) : Nat :=
  frameG o.g o.ix op (o.d.code * 16384 + o.b.code * 16)

def OCmp.enc (o : OCmp) (op : Nat) : Nat :=
  frameG o.g o.ix op (2 * o.pe.val * 16384 + o.a.code * 512 + o.b.code * 16 + o.c.code)

def OPlog.enc (o : OPlog) (op : Nat) : Nat :=
  frameG o.g none op (2 * o.pe.val * 16384 + o.pa.val * 512 + o.pb.val * 16 + o.op.code)

def OLd.enc (o : OLd) (op : Nat) : Nat :=
  frameG o.g o.ix op (o.d.code * 16384 + o.a.code * 512 + o.b.code * 16 + o.scope.code)

def OSt.enc (o : OSt) (op : Nat) : Nat :=
  frameG o.g o.ix op (o.v.code * 32768 + o.a.code * 512 + o.b.code * 16 + o.scope.code)

def OStl.enc (o : OStl) (op : Nat) : Nat :=
  frameG o.g o.ix op (o.v.code * 32768 + o.a.code * 512 + o.b.code * 16)

def OPfd.enc (o : OPfd) (op : Nat) : Nat :=
  frameG o.g o.ix op (boolCode o.die * 262144 + o.a.code * 512 + o.b.code * 16)

def OCbo.enc (o : OCbo) (op : Nat) : Nat :=
  frameG o.g o.ix op (o.kind.code * 262144 + o.a.code * 512 + o.b.code * 16 + o.scope.code)

def OCsrr.enc (o : OCsrr) (op : Nat) : Nat :=
  frameG o.g none op (o.d.code * 16384 + o.csr.toNat)

def OCsrw.enc (o : OCsrw) (op : Nat) : Nat :=
  frameG o.g o.ix op (o.a.code * 32768 + o.csr.toNat)

def OXbc.enc (o : OXbc) (op : Nat) : Nat :=
  frameG o.g o.ix op (o.f.val * 131072 + boolCode o.all * 65536 + o.vd.code * 1024 + o.a.code * 32)

def OXin.enc (o : OXin) (op : Nat) : Nat :=
  frameG o.g o.ix op (o.f.val * 131072 + o.vd.code * 1024 + o.a.code * 32 + o.lane.val)

def OXex.enc (o : OXex) (op : Nat) : Nat :=
  frameG o.g none op (o.d.code * 16384 + o.f.val * 2048 + o.va.code * 32 + o.lane.val)

def OXred.enc (o : OXred) (op : Nat) : Nat :=
  frameG o.g none op (o.d.code * 16384 + o.f.val * 2048 + o.va.code * 32 + o.op.code)

def OV3.enc (o : OV3) (op : Nat) : Nat :=
  frameQ o.q o.ix op (o.d.code * 65536 + o.a.code * 1024 + o.b.code * 16)

def OV2.enc (o : OV2) (op : Nat) : Nat :=
  frameQ o.q o.ix op (o.d.code * 65536 + o.a.code * 1024)

def OVcvt.enc (o : OVcvt) (op : Nat) : Nat :=
  frameQ o.q o.ix op (o.d.code * 65536 + o.a.code * 1024 + o.kind.code * 64 + o.rm.code * 16)

def OVcmp.enc (o : OVcmp) (op : Nat) : Nat :=
  frameQ o.q o.ix op (2 * o.qe.val * 65536 + o.a.code * 1024 + o.b.code * 16 + o.c.code)

def OVsel.enc (o : OVsel) (op : Nat) : Nat :=
  frameQ o.q o.ix op (o.d.code * 65536 + o.a.code * 1024 + o.b.code * 16 + o.n.val)

def OVmov.enc (o : OVmov) (op : Nat) : Nat :=
  frameQ o.q none op (o.d.code * 65536 + o.a.code * 1024)

def OVred.enc (o : OVred) (op : Nat) : Nat :=
  frameQ o.q none op (o.d.code * 65536 + o.a.code * 1024 + o.op.code)

def OVdot.enc (o : OVdot) (op : Nat) : Nat :=
  frameQ o.q o.ix op (o.d.code * 65536 + o.a.code * 1024 + o.b.code * 16 + o.kind.code)

def OVcopy.enc (o : OVcopy) (op : Nat) : Nat :=
  frameQ o.q none op (o.d.code * 65536 + o.a.code * 1024 + o.srcf.val * 128)

def OVmem.enc (o : OVmem) (op : Nat) : Nat :=
  frameQ o.q o.ix op (o.d.code * 65536 + o.ab.val * 16384 + o.sz.code * 4096 + o.scope.code * 256 + o.ofs.toNat)

def OVgs.enc (o : OVgs) (op : Nat) : Nat :=
  frameQ o.q none op (o.d.code * 65536 + o.a.code * 1024 + o.ab.val * 256 + o.sz.code * 64 + o.scope.code)

def OVldt.enc (o : OVldt) (op : Nat) : Nat :=
  frameQ o.q o.ix op (o.d.code * 65536 + o.ab.val * 16384 + boolCode o.hi * 8192 + o.scope.code * 256 + o.ofs.toNat)

def OVstt.enc (o : OVstt) (op : Nat) : Nat :=
  frameQ o.q o.ix op (o.d.code * 65536 + o.ab.val * 16384 + o.scope.code * 256 + o.ofs.toNat)

def OQlog.enc (o : OQlog) (op : Nat) : Nat :=
  frameQ o.q none op (2 * o.qe.val * 65536 + o.qa.val * 1024 + o.qb.val * 16 + o.op.code)

def ODset.enc (o : ODset) (op : Nat) : Nat :=
  frameQ o.q o.ix op (o.d.val * 524288 + o.a.code * 1024)

def ODsmp.enc (o : ODsmp) (op : Nat) : Nat :=
  frameQ o.q none op (o.d.val * 524288 + o.n.val * 1024)

def ODmem.enc (o : ODmem) (op : Nat) : Nat :=
  frameQ o.q o.ix op (o.d.val * 524288 + o.ab.val * 16384 + o.scope.code * 256 + o.ofs.toNat)

def ODbin.enc (o : ODbin) (op : Nat) : Nat :=
  frameQ o.q none op (o.d.val * 524288 + o.a.val * 65536 + o.b.val * 8192)

def ODaff.enc (o : ODaff) (op : Nat) : Nat :=
  frameQ o.q o.ix op (o.d.val * 524288 + o.a.val * 65536 + o.va.code * 1024 + o.vb.code * 16)

def ODmix.enc (o : ODmix) (op : Nat) : Nat :=
  frameQ o.q o.ix op (o.d.val * 524288 + o.a.val * 65536 + o.b.val * 8192 + o.w.code * 128)

def ODmom.enc (o : ODmom) (op : Nat) : Nat :=
  frameQ o.q none op (o.vd.val * 65536 + o.a.val * 8192)

def ODqnt.enc (o : ODqnt) (op : Nat) : Nat :=
  frameQ o.q o.ix op (o.vd.code * 65536 + o.a.val * 8192 + o.b.code * 128)

def ODtag.enc (o : ODtag) (op : Nat) : Nat :=
  frameQ o.q none op (o.d.val * 524288)

def OGS.enc (o : OGS) (op : Nat) : Nat :=
  frameG o.g none op (o.scope.code * 65536)

def ODep.enc (o : ODep) (op : Nat) : Nat :=
  frameG o.g none op (o.d.toNat)

def OMark.enc (o : OMark) (op : Nat) : Nat :=
  frameG o.g none op (o.k.val)

def OMake.enc (o : OMake) (op : Nat) : Nat :=
  frameG o.g none op (o.c.val * 2048 + o.r.val * 32 + o.f.code)

def OShape.enc (o : OShape) (op : Nat) : Nat :=
  frameG o.g none op (o.c.val * 2048 + o.r.val * 32)

def OJoin.enc (o : OJoin) (op : Nat) : Nat :=
  frameG o.g none op (boolCode o.h)

def OFromv.enc (o : OFromv) (op : Nat) : Nat :=
  frameG o.g none op (o.vb.val * 2048 + o.r.val * 32 + o.f.code)

def OTov.enc (o : OTov) (op : Nat) : Nat :=
  frameG o.g none op (o.vb.val * 2048 + o.r.val * 32)

def OTcvt.enc (o : OTcvt) (op : Nat) : Nat :=
  frameG o.g none op (o.rm.code * 32 + o.f.code)

def OBlk.enc (o : OBlk) (op : Nat) : Nat :=
  frameG o.g none op (o.scope.code * 65536 + o.k.val)

def OBlkRel.enc (o : OBlkRel) (op : Nat) : Nat :=
  frameG o.g none op (o.k.val + 16)

def OSort.enc (o : OSort) (op : Nat) : Nat :=
  frameG o.g none op (o.scope.code * 65536 + boolCode o.scat)

def OKar.enc (o : OKar) (op : Nat) : Nat :=
  frameG o.g none op (o.scope.code * 65536 + o.d.val * 1024 + o.op.code * 64 + o.e.code * 4)

def OKag.enc (o : OKag) (op : Nat) : Nat :=
  frameG o.g none op (o.scope.code * 65536 + o.d.val * 1024 + o.e.code * 4)

def OKrecv.enc (o : OKrecv) (op : Nat) : Nat :=
  frameG o.g none op (o.scope.code * 65536 + o.d.val * 1024)

def OKd.enc (o : OKd) (op : Nat) : Nat :=
  frameG o.g none op (o.d.val * 1024)

def OTok.enc (o : OTok) (op : Nat) : Nat :=
  frameG o.g none op (o.scope.code * 65536 + o.k.val)

def OJoinG.enc (o : OJoinG) (op : Nat) : Nat :=
  frameG o.g none op (o.n.val)

def OMgrd.enc (o : OMgrd) (op : Nat) : Nat :=
  frameG o.g none op (o.rel.code * 8 + o.k.val)

def OTlbi.enc (o : OTlbi) (op : Nat) : Nat :=
  frameG o.g none op (o.k.code)

/-- The IX syllable of FENCER (R149). -/
def OFencer.ix (o : OFencer) : Nat := o.pred.toNat + o.succ.toNat * 64 + o.scope.code * 4096

def OFencer.enc (o : OFencer) (op : Nat) : Nat :=
  frameG o.g (some 0) op (o.a.code * 32768 + o.b.code * 1024)

/-- The IX syllable of MOV.patch (R157). -/
def OPatch.ix (o : OPatch) : Nat := o.k.val + o.off.toNat * 8

def OPatch.enc (o : OPatch) (op : Nat) : Nat :=
  frameG o.g (some 0) op (o.d.val * 16384 + o.a.code * 512 + 1)

/-- The IX syllable of BFX (R159). -/
def OBfx.ix (o : OBfx) : Nat := o.pos.val + o.w.val * 64

def OBfx.enc (o : OBfx) (op fn : Nat) : Nat :=
  frameG o.g (some 0) op (o.d.code * 16384 + o.a.code * 512 + fn)

/-- The IX syllable of BFI (R159). -/
def OBfi.ix (o : OBfi) : Nat := o.pos.val + o.w.val * 64

def OBfi.enc (o : OBfi) (op : Nat) : Nat :=
  frameG o.g (some 0) op (o.d.code * 16384 + o.a.code * 512 + o.b.code * 16)

def OVexp.enc (o : OVexp) (op : Nat) : Nat :=
  frameQ o.q (some 0) op (o.d.code * 65536 + o.a.code * 1024 + o.b.code * 16)

/-- The slot kind and the words of an instruction: the syllable, then its IX syllable if it has one. SA stands
for SA and SB. An event has no words. -/
def encode : Instr → Option (Kind × List Nat)
  | .br o => some (.br, o.enc 1 :: ixWords o.ix)
  | .brc o => some (.br, o.enc 2 :: ixWords o.ix)
  | .brq o => some (.br, o.enc 3 :: ixWords o.ix)
  | .jmpi o => some (.br, o.enc 4 :: [])
  | .call o => some (.br, o.enc 5 :: ixWords o.ix)
  | .calli o => some (.br, o.enc 6 :: [])
  | .ret o => some (.br, o.enc 7 :: [])
  | .loop o => some (.br, o.enc 8 :: ixWords o.ix)
  | .trap o => some (.br, o.enc 9 :: [])
  | .eret o => some (.br, o.enc 10 :: [])
  | .brk o => some (.br, o.enc 11 :: [])
  | .ipf o => some (.br, o.enc 12 :: ixWords o.ix)
  | .ifence o => some (.br, o.enc 13 :: [])
  | .wait o => some (.br, o.enc 14 :: [])
  | .fence o => some (.br, o.enc 15 :: [])
  | .fencer o => some (.br, o.enc 16 :: [o.ix])
  | .lwatch o => some (.br, o.enc 17 :: ixWords o.ix)
  | .wpark o => some (.br, o.enc 18 :: [])
  | .add o => some (.sa, o.enc 1 0 :: ixWords o.ix)
  | .sub o => some (.sa, o.enc 2 0 :: ixWords o.ix)
  | .mul o => some (.sa, o.enc 3 0 :: ixWords o.ix)
  | .mulh o => some (.sa, o.enc 4 0 :: ixWords o.ix)
  | .mulhu o => some (.sa, o.enc 5 0 :: ixWords o.ix)
  | .div o => some (.sa, o.enc 6 0 :: ixWords o.ix)
  | .divu o => some (.sa, o.enc 7 0 :: ixWords o.ix)
  | .rem o => some (.sa, o.enc 8 0 :: ixWords o.ix)
  | .remu o => some (.sa, o.enc 9 0 :: ixWords o.ix)
  | .and o => some (.sa, o.enc 10 0 :: ixWords o.ix)
  | .or o => some (.sa, o.enc 11 0 :: ixWords o.ix)
  | .xor o => some (.sa, o.enc 12 0 :: ixWords o.ix)
  | .andn o => some (.sa, o.enc 13 0 :: ixWords o.ix)
  | .shl o => some (.sa, o.enc 14 0 :: ixWords o.ix)
  | .shr o => some (.sa, o.enc 15 0 :: ixWords o.ix)
  | .sra o => some (.sa, o.enc 16 0 :: ixWords o.ix)
  | .rot o => some (.sa, o.enc 17 0 :: ixWords o.ix)
  | .min o => some (.sa, o.enc 18 0 :: ixWords o.ix)
  | .max o => some (.sa, o.enc 19 0 :: ixWords o.ix)
  | .minu o => some (.sa, o.enc 20 0 :: ixWords o.ix)
  | .maxu o => some (.sa, o.enc 21 0 :: ixWords o.ix)
  | .clz o => some (.sa, o.enc 22 :: ixWords o.ix)
  | .ctz o => some (.sa, o.enc 23 :: ixWords o.ix)
  | .popc o => some (.sa, o.enc 24 :: ixWords o.ix)
  | .sel o => some (.sa, o.enc 25 :: ixWords o.ix)
  | .mov o => some (.sa, o.enc 26 :: ixWords o.ix)
  | .movStaging o => some (.sa, o.enc 27 :: ixWords o.ix)
  | .movPatch o => some (.sa, o.enc 27 :: [o.ix])
  | .movi o => some (.sa, o.enc 28 :: ixWords o.ix)
  | .moviH o => some (.sa, o.enc 28 1 :: ixWords o.ix)
  | .lea o => some (.sa, o.enc 29 :: ixWords o.ix)
  | .extZ o => some (.sa, o.enc 30 0 :: ixWords o.ix)
  | .extS o => some (.sa, o.enc 30 1 :: ixWords o.ix)
  | .bfx o => some (.sa, o.enc 31 0 :: [o.ix])
  | .bfxS o => some (.sa, o.enc 31 1 :: [o.ix])
  | .bfi o => some (.sa, o.enc 32 :: [o.ix])
  | .cmp o => some (.sa, o.enc 33 :: ixWords o.ix)
  | .plog o => some (.sa, o.enc 34 :: [])
  | .ldB o => some (.am, o.enc 1 :: ixWords o.ix)
  | .ldH o => some (.am, o.enc 2 :: ixWords o.ix)
  | .ldW o => some (.am, o.enc 3 :: ixWords o.ix)
  | .ldD o => some (.am, o.enc 4 :: ixWords o.ix)
  | .ldBAcq o => some (.am, o.enc 5 :: ixWords o.ix)
  | .ldHAcq o => some (.am, o.enc 6 :: ixWords o.ix)
  | .ldWAcq o => some (.am, o.enc 7 :: ixWords o.ix)
  | .ldDAcq o => some (.am, o.enc 8 :: ixWords o.ix)
  | .stB o => some (.am, o.enc 9 :: ixWords o.ix)
  | .stH o => some (.am, o.enc 10 :: ixWords o.ix)
  | .stW o => some (.am, o.enc 11 :: ixWords o.ix)
  | .stD o => some (.am, o.enc 12 :: ixWords o.ix)
  | .stBRel o => some (.am, o.enc 13 :: ixWords o.ix)
  | .stHRel o => some (.am, o.enc 14 :: ixWords o.ix)
  | .stWRel o => some (.am, o.enc 15 :: ixWords o.ix)
  | .stDRel o => some (.am, o.enc 16 :: ixWords o.ix)
  | .ldlB o => some (.am, o.enc 17 0 :: ixWords o.ix)
  | .ldlH o => some (.am, o.enc 18 0 :: ixWords o.ix)
  | .ldlW o => some (.am, o.enc 19 0 :: ixWords o.ix)
  | .ldlD o => some (.am, o.enc 20 0 :: ixWords o.ix)
  | .stlB o => some (.am, o.enc 21 :: ixWords o.ix)
  | .stlH o => some (.am, o.enc 22 :: ixWords o.ix)
  | .stlW o => some (.am, o.enc 23 :: ixWords o.ix)
  | .stlD o => some (.am, o.enc 24 :: ixWords o.ix)
  | .amoaddW o => some (.am, o.enc 25 :: ixWords o.ix)
  | .amoaddD o => some (.am, o.enc 26 :: ixWords o.ix)
  | .amoandW o => some (.am, o.enc 27 :: ixWords o.ix)
  | .amoandD o => some (.am, o.enc 28 :: ixWords o.ix)
  | .amoorW o => some (.am, o.enc 29 :: ixWords o.ix)
  | .amoorD o => some (.am, o.enc 30 :: ixWords o.ix)
  | .amoxorW o => some (.am, o.enc 31 :: ixWords o.ix)
  | .amoxorD o => some (.am, o.enc 32 :: ixWords o.ix)
  | .amominW o => some (.am, o.enc 33 :: ixWords o.ix)
  | .amominD o => some (.am, o.enc 34 :: ixWords o.ix)
  | .amomaxW o => some (.am, o.enc 35 :: ixWords o.ix)
  | .amomaxD o => some (.am, o.enc 36 :: ixWords o.ix)
  | .amoswpW o => some (.am, o.enc 37 :: ixWords o.ix)
  | .amoswpD o => some (.am, o.enc 38 :: ixWords o.ix)
  | .casW o => some (.am, o.enc 39 :: ixWords o.ix)
  | .casD o => some (.am, o.enc 40 :: ixWords o.ix)
  | .pfd o => some (.am, o.enc 41 :: ixWords o.ix)
  | .cbo o => some (.am, o.enc 42 :: ixWords o.ix)
  | .csrr o => some (.am, o.enc 43 :: [])
  | .csrw o => some (.am, o.enc 44 :: ixWords o.ix)
  | .xbc o => some (.xf, o.enc 1 :: ixWords o.ix)
  | .xin o => some (.xf, o.enc 2 :: ixWords o.ix)
  | .xex o => some (.xs, o.enc 1 :: [])
  | .xred o => some (.xs, o.enc 2 :: [])
  | .vadd o => some (.f, o.enc 1 :: ixWords o.ix)
  | .vsub o => some (.f, o.enc 2 :: ixWords o.ix)
  | .vmul o => some (.f, o.enc 3 :: ixWords o.ix)
  | .vfma o => some (.f, o.enc 4 :: ixWords o.ix)
  | .vfms o => some (.f, o.enc 5 :: ixWords o.ix)
  | .vmin o => some (.f, o.enc 6 :: ixWords o.ix)
  | .vmax o => some (.f, o.enc 7 :: ixWords o.ix)
  | .vabs o => some (.f, o.enc 8 :: ixWords o.ix)
  | .vneg o => some (.f, o.enc 9 :: ixWords o.ix)
  | .vrcp o => some (.f, o.enc 10 :: ixWords o.ix)
  | .vrsq o => some (.f, o.enc 11 :: ixWords o.ix)
  | .vlog2 o => some (.f, o.enc 12 :: ixWords o.ix)
  | .vexp2 o => some (.f, o.enc 13 :: [o.c.toNat])
  | .vcvt o => some (.f, o.enc 14 :: ixWords o.ix)
  | .vcmp o => some (.f, o.enc 15 :: ixWords o.ix)
  | .vsel o => some (.f, o.enc 16 :: ixWords o.ix)
  | .viadd o => some (.f, o.enc 17 :: ixWords o.ix)
  | .visub o => some (.f, o.enc 18 :: ixWords o.ix)
  | .vimul o => some (.f, o.enc 19 :: ixWords o.ix)
  | .vand o => some (.f, o.enc 20 :: ixWords o.ix)
  | .vor o => some (.f, o.enc 21 :: ixWords o.ix)
  | .vxor o => some (.f, o.enc 22 :: ixWords o.ix)
  | .vshl o => some (.f, o.enc 23 :: ixWords o.ix)
  | .vshr o => some (.f, o.enc 24 :: ixWords o.ix)
  | .vsra o => some (.f, o.enc 25 :: ixWords o.ix)
  | .vimin o => some (.f, o.enc 26 :: ixWords o.ix)
  | .vimax o => some (.f, o.enc 27 :: ixWords o.ix)
  | .vmov o => some (.f, o.enc 28 :: [])
  | .vmovi o => some (.f, o.enc 29 :: ixWords o.ix)
  | .vshf o => some (.f, o.enc 30 :: ixWords o.ix)
  | .vred o => some (.f, o.enc 31 :: [])
  | .vscan o => some (.f, o.enc 32 :: [])
  | .vdot o => some (.f, o.enc 33 :: ixWords o.ix)
  | .vcopy o => some (.f, o.enc 34 :: [])
  | .vld o => some (.f, o.enc 35 :: ixWords o.ix)
  | .vst o => some (.f, o.enc 36 :: ixWords o.ix)
  | .vgth o => some (.f, o.enc 37 :: [])
  | .vsct o => some (.f, o.enc 38 :: [])
  | .vldt o => some (.f, o.enc 39 :: ixWords o.ix)
  | .vstt o => some (.f, o.enc 40 :: ixWords o.ix)
  | .qlog o => some (.f, o.enc 41 :: [])
  | .dset o => some (.f, o.enc 48 :: ixWords o.ix)
  | .dsmp o => some (.f, o.enc 49 :: [])
  | .dld o => some (.f, o.enc 50 :: ixWords o.ix)
  | .dst o => some (.f, o.enc 51 :: ixWords o.ix)
  | .dadd o => some (.f, o.enc 52 :: [])
  | .dsub o => some (.f, o.enc 53 :: [])
  | .dmul o => some (.f, o.enc 54 :: [])
  | .dmin o => some (.f, o.enc 55 :: [])
  | .dmax o => some (.f, o.enc 56 :: [])
  | .daff o => some (.f, o.enc 57 :: ixWords o.ix)
  | .dmix o => some (.f, o.enc 58 :: ixWords o.ix)
  | .dcnd o => some (.f, o.enc 59 :: ixWords o.ix)
  | .dmom o => some (.f, o.enc 60 :: [])
  | .dqnt o => some (.f, o.enc 61 :: ixWords o.ix)
  | .dcdf o => some (.f, o.enc 62 :: ixWords o.ix)
  | .dtag o => some (.f, o.enc 63 :: [])
  | .tld o => some (.et, o.enc 1 :: [])
  | .tst o => some (.et, o.enc 2 :: [])
  | .tgth o => some (.et, o.enc 3 :: [])
  | .tpick o => some (.et, o.enc 4 :: [])
  | .trot o => some (.et, o.enc 5 :: [])
  | .tdrop o => some (.et, o.enc 6 :: [])
  | .tmark o => some (.et, o.enc 7 :: [])
  | .tunwind o => some (.et, o.enc 8 :: [])
  | .tzero o => some (.et, o.enc 9 :: [])
  | .tfill o => some (.et, o.enc 10 :: [])
  | .tshape o => some (.et, o.enc 11 :: [])
  | .tjoin o => some (.et, o.enc 12 :: [])
  | .tfromv o => some (.et, o.enc 13 :: [])
  | .ttov o => some (.et, o.enc 14 :: [])
  | .mma o => some (.em, o.enc 1 :: [])
  | .mmac o => some (.em, o.enc 2 :: [])
  | .mmack o => some (.em, o.enc 3 :: [])
  | .mmag o => some (.em, o.enc 4 :: [])
  | .mscl o => some (.em, o.enc 5 :: [])
  | .tadd o => some (.ev, o.enc 1 :: [])
  | .tsub o => some (.ev, o.enc 2 :: [])
  | .tmul o => some (.ev, o.enc 3 :: [])
  | .tfma o => some (.ev, o.enc 4 :: [])
  | .tmaxe o => some (.ev, o.enc 5 :: [])
  | .tmine o => some (.ev, o.enc 6 :: [])
  | .texp2 o => some (.ev, o.enc 7 :: [])
  | .trcp o => some (.ev, o.enc 8 :: [])
  | .trmax o => some (.ev, o.enc 9 :: [])
  | .trsum o => some (.ev, o.enc 10 :: [])
  | .tcsum o => some (.ev, o.enc 11 :: [])
  | .tscl o => some (.ev, o.enc 12 :: [])
  | .tbc o => some (.ev, o.enc 13 :: [])
  | .tcvt o => some (.ev, o.enc 14 :: [])
  | .ttrn o => some (.ev, o.enc 15 :: [])
  | .cpget o => some (.ec, o.enc 1 :: [])
  | .cpput o => some (.ec, o.enc 2 :: [])
  | .cpmc o => some (.ec, o.enc 3 :: [])
  | .ldblk o => some (.ec, o.enc 4 :: [])
  | .ldblkRel o => some (.ec, o.enc 4 :: [])
  | .cpsort o => some (.ec, o.enc 5 :: [])
  | .cpfill o => some (.ec, o.enc 6 :: [])
  | .kar o => some (.ek, o.enc 1 :: [])
  | .kag o => some (.ek, o.enc 2 :: [])
  | .krs o => some (.ek, o.enc 3 :: [])
  | .kbc o => some (.ek, o.enc 4 :: [])
  | .ksend o => some (.ek, o.enc 5 :: [])
  | .krecv o => some (.ek, o.enc 6 :: [])
  | .spawn o => some (.ek, o.enc 7 :: [])
  | .token o => some (.ek, o.enc 8 :: [])
  | .done o => some (.ek, o.enc 9 :: [])
  | .join o => some (.ek, o.enc 10 :: [])
  | .leave o => some (.ek, o.enc 11 :: [])
  | .gbar o => some (.ek, o.enc 12 :: [])
  | .qres o => some (.ek, o.enc 13 :: [])
  | .qpub o => some (.ek, o.enc 14 :: [])
  | .qtake o => some (.ek, o.enc 15 :: [])
  | .qfree o => some (.ek, o.enc 16 :: [])
  | .mbeg o => some (.ek, o.enc 17 :: [])
  | .mend o => some (.ek, o.enc 18 :: [])
  | .mgrd o => some (.ek, o.enc 19 :: [])
  | .tlbi o => some (.ek, o.enc 20 :: [])
  | .flushctx o => some (.ek, o.enc 21 :: [])
  | .icinv o => some (.ek, o.enc 22 :: [])
  | .illegalBundle => none
  | .trapDrainEnd _ => none
  | .eretDrainEnd _ => none
  | .demandFetch _ => none
  | .icacheFill _ => none
  | .instructionPrefetch _ _ => none
  | .memoryReply _ => none
  | .performAccess _ => none
  | .bulkElementAccess _ _ _ => none
  | .propagateWrite _ => none
  | .watchFire _ => none
  | .ringReserveStep _ _ => none
  | .ringPublishStep _ _ => none
  | .ringTakeStep _ _ => none
  | .ringFreeStep _ _ => none
  | .entryReady _ _ => none
  | .entryLatched _ _ => none
  | .entrySink _ _ => none
  | .entryRise _ _ => none
  | .suspendedEntrySpill _ _ => none
  | .copyCommandComplete _ _ => none
  | .blockReady _ _ => none
  | .invalidationComplete _ _ => none
  | .pageWalkComplete _ => none
  | .faultRecordPost _ => none
  | .faultReply _ => none
  | .freezeWatchdogExpiry _ => none
  | .signatureMismatch _ _ => none
  | .containmentScrub => none
  | .patinaMeasurement _ _ => none
  | .powerClamp _ => none
  | .dieOvertemp _ _ => none
  | .moduleReset => none
  | .hostLinkDown => none
  | .functionLevelReset _ => none
  | .hlnchWrite _ _ => none
  | .hstatNopartClear _ => none
  | .hostRegisterWrite _ _ _ => none
  | .kranumFlitReceive _ _ => none
  | .linkRetryExpiry _ => none
  | .fabricRequest _ => none
  | .deviceFaultSignal _ => none
  | .collectiveInstanceStart _ => none
  | .collectiveStep _ _ => none
  | .collectiveStepTimeout _ _ => none
  | .collectiveEnd _ _ => none
  | .mailboxDelivery _ _ => none
  | .tokenDelivery _ _ => none
  | .nodeDoneComplete _ => none
  | .spawnCheck _ _ => none
  | .barrierArrival _ _ => none
  | .lnchWrite _ => none
  | .launchCheck _ => none
  | .frameTick _ => none
  | .taskDispatch _ _ => none
  | .castIssueGroup _ => none
  | .stealProbe _ => none
  | .preemptionRequest _ => none
  | .preemptionStop _ => none
  | .saveSlotTimeout _ => none
  | .parkWake _ => none
  | .pctlApply _ => none
  | .pctlRelease _ => none
  | .partitionOpComplete => none
  | .dbgctlHalt _ => none
  | .dbgctlResume _ => none
  | .nkillWrite _ => none
  | .finjWrite _ => none
  | .fseedWrite _ => none
  | .devstLockSet => none
  | .keyInstall _ => none
  | .keyDestroy _ => none
  | .getMeasurements => none
  | .firmwareUpdate _ => none
  | .bootStageVerify _ _ => none
  | .hostLinkUp => none
  | .kranumLinkReturn _ => none
  | .powerOn => none

/-! Bundles (R13 to R26, R35). -/

/-- The header parcel, without its constant fields (R14). A port entry is bit 6 valid, bits 5:0 a register. -/
structure Header where
  npar : Nat
  tmpl : Fin 32
  fmask : BitVec 8
  fbc : Bool
  ports : Vector (BitVec 7) 4
  deriving DecidableEq, Repr

/-- The two tests after which no further parcel of the bundle is fetched (R36). -/
def headerStarts (p : Nat) : Bool := bits p 63 60 == 1 && bits p 59 57 != 0

/-- The number of slot parcels of a header (R14). -/
def headerSlots (p : Nat) : Nat := bits p 59 57

/-- R14, and the register numbers of R24. -/
def decodeHeader (p : Nat) : Option Header :=
  let port (lo : Nat) : BitVec 7 := BitVec.ofNat 7 (bits p (lo + 6) lo)
  let ok (e : BitVec 7) : Bool := !e.getLsbD 6 || e.toNat % 64 < 56
  if headerStarts p && bits p 42 28 == 0 && ok (port 0) && ok (port 7) && ok (port 14) && ok (port 21) then
    some { npar := bits p 59 57, tmpl := Fin.ofNat 32 (bits p 56 52), fmask := BitVec.ofNat 8 (bits p 51 44)
           fbc := bits p 43 43 == 1, ports := #v[port 0, port 7, port 14, port 21] }
  else none

/-- R14. -/
def encodeHeader (h : Header) : Nat :=
  0x1000000000000000 + h.npar * 0x200000000000000 + h.tmpl.val * 0x10000000000000 + h.fmask.toNat * 0x100000000000 +
    boolCode h.fbc * 0x80000000000 + h.ports[3].toNat * 0x200000 + h.ports[2].toNat * 0x4000 +
    h.ports[1].toNat * 0x80 + h.ports[0].toNat

/-- R16. -/
def templateKinds : Nat → List Kind
  | 0 => [.br]
  | 1 => [.sa]
  | 2 => [.am]
  | 3 => [.f]
  | 4 => [.em]
  | 5 => [.et]
  | 6 => [.ev]
  | 7 => [.ec]
  | 8 => [.ek]
  | 9 => [.sa, .sb]
  | 10 => [.sa, .am]
  | 11 => [.br, .sa]
  | 12 => [.sa, .et]
  | 13 => [.sa, .ec]
  | 14 => [.sa, .ek]
  | 15 => [.xf, .f]
  | 16 => [.f, .xs]
  | 17 => [.br, .sa, .sb]
  | 18 => [.sa, .sb, .am]
  | 19 => [.br, .sa, .sb, .am]
  | 20 => [.sa, .sb, .am, .f]
  | 21 => [.xf, .f, .xs]
  | 22 => [.sa, .am, .xf, .f, .xs]
  | 23 => [.br, .sa, .am, .xf, .f, .xs]
  | 24 => [.em, .et, .ev]
  | 25 => [.sa, .sb, .em, .et, .ev]
  | 26 => [.sa, .sb, .am, .em, .et, .ev]
  | 27 => [.sa, .sb, .am, .ec, .ek]
  | 28 => [.br, .sa, .sb, .am, .xf, .f, .xs]
  | 29 => [.br, .sa, .sb, .am, .f, .em, .et, .ev]
  | 30 => [.br, .sa, .sb, .am, .em, .et, .ev, .ec, .ek]
  | 31 => [.br, .sa, .sb, .am, .xf, .f, .xs, .em, .et, .ev, .ec, .ek]
  | _ => []

def allFacets : List (Fin 8) := [0, 1, 2, 3, 4, 5, 6, 7]

def facetsOf (m : BitVec 8) : List (Fin 8) := allFacets.filter fun f => m.getLsbD f.val

/-- The syllable positions of a template: kind and, in the F group, the facets that execute it (R15, R180). -/
def slotsOf (h : Header) : List (Kind × List (Fin 8)) :=
  (templateKinds h.tmpl.val).flatMap fun k =>
    match k with
    | .f =>
      if h.fmask == 0 then []
      else if h.fbc then [(.f, facetsOf h.fmask)]
      else (facetsOf h.fmask).map fun f => (.f, [f])
    | k => [(k, [])]

/-- One syllable of a bundle that is not empty. -/
structure Syl where
  kind : Kind
  facets : List (Fin 8)
  ins : Instr
  deriving DecidableEq, Repr

/-- The syllables of the listed positions, in memory order, and the words that are left (R15). -/
def decodeSyls : List (Kind × List (Fin 8)) → List Nat → Option (List Syl × List Nat)
  | [], ws => some ([], ws)
  | (k, fs) :: ks, ws =>
    match decodeSyl k ws with
    | none => none
    | some (i, ws') =>
      match decodeSyls ks ws' with
      | none => none
      | some (l, r) =>
        match i with
        | none => some (l, r)
        | some i => some ({ kind := k, facets := fs, ins := i } :: l, r)

/-- The scalar source fields that an instruction reads. -/
def Instr.srcs : Instr → List Src
  | .brc o => [o.a]
  | .jmpi o => [o.a]
  | .calli o => [o.a]
  | .ret o => [o.a]
  | .fencer o => [o.a, o.b]
  | .lwatch o => [o.a, o.b]
  | .add o => [o.a, o.b]
  | .sub o => [o.a, o.b]
  | .mul o => [o.a, o.b]
  | .mulh o => [o.a, o.b]
  | .mulhu o => [o.a, o.b]
  | .div o => [o.a, o.b]
  | .divu o => [o.a, o.b]
  | .rem o => [o.a, o.b]
  | .remu o => [o.a, o.b]
  | .and o => [o.a, o.b]
  | .or o => [o.a, o.b]
  | .xor o => [o.a, o.b]
  | .andn o => [o.a, o.b]
  | .shl o => [o.a, o.b]
  | .shr o => [o.a, o.b]
  | .sra o => [o.a, o.b]
  | .rot o => [o.a, o.b]
  | .min o => [o.a, o.b]
  | .max o => [o.a, o.b]
  | .minu o => [o.a, o.b]
  | .maxu o => [o.a, o.b]
  | .clz o => [o.a]
  | .ctz o => [o.a]
  | .popc o => [o.a]
  | .sel o => [o.a, o.b]
  | .mov o => [o.a]
  | .movStaging o => [o.a]
  | .movPatch o => [o.a]
  | .movi o => [o.b]
  | .moviH o => [o.a, o.b]
  | .lea o => [o.a, o.b]
  | .extZ o => [o.a, o.b]
  | .extS o => [o.a, o.b]
  | .bfx o => [o.a]
  | .bfxS o => [o.a]
  | .bfi o => [o.a, o.b]
  | .cmp o => [o.a, o.b]
  | .ldB o => [o.a, o.b]
  | .ldH o => [o.a, o.b]
  | .ldW o => [o.a, o.b]
  | .ldD o => [o.a, o.b]
  | .ldBAcq o => [o.a, o.b]
  | .ldHAcq o => [o.a, o.b]
  | .ldWAcq o => [o.a, o.b]
  | .ldDAcq o => [o.a, o.b]
  | .stB o => [o.v, o.a, o.b]
  | .stH o => [o.v, o.a, o.b]
  | .stW o => [o.v, o.a, o.b]
  | .stD o => [o.v, o.a, o.b]
  | .stBRel o => [o.v, o.a, o.b]
  | .stHRel o => [o.v, o.a, o.b]
  | .stWRel o => [o.v, o.a, o.b]
  | .stDRel o => [o.v, o.a, o.b]
  | .ldlB o => [o.a, o.b]
  | .ldlH o => [o.a, o.b]
  | .ldlW o => [o.a, o.b]
  | .ldlD o => [o.a, o.b]
  | .stlB o => [o.v, o.a, o.b]
  | .stlH o => [o.v, o.a, o.b]
  | .stlW o => [o.v, o.a, o.b]
  | .stlD o => [o.v, o.a, o.b]
  | .amoaddW o => [o.a, o.b]
  | .amoaddD o => [o.a, o.b]
  | .amoandW o => [o.a, o.b]
  | .amoandD o => [o.a, o.b]
  | .amoorW o => [o.a, o.b]
  | .amoorD o => [o.a, o.b]
  | .amoxorW o => [o.a, o.b]
  | .amoxorD o => [o.a, o.b]
  | .amominW o => [o.a, o.b]
  | .amominD o => [o.a, o.b]
  | .amomaxW o => [o.a, o.b]
  | .amomaxD o => [o.a, o.b]
  | .amoswpW o => [o.a, o.b]
  | .amoswpD o => [o.a, o.b]
  | .casW o => [o.a, o.b]
  | .casD o => [o.a, o.b]
  | .pfd o => [o.a, o.b]
  | .cbo o => [o.a, o.b]
  | .csrw o => [o.a]
  | .xbc o => [o.a]
  | .xin o => [o.a]
  | _ => []

/-- What R25 counts as a destination. -/
inductive Dest where
  | s (i : Fin 56)
  | bs (i : Fin 4)
  | p (pair : Fin 8)
  | stg (i : Fin 40)
  | v (f : Fin 8) (r : VReg)
  | q (f : Fin 8) (pair : Fin 4)
  | d (f : Fin 8) (i : Fin 8)
  deriving DecidableEq, Repr

def sDest (i : Fin 56) : List Dest := if i = 0 then [] else [.s i]

def Dst.dest : Dst → List Dest
  | .s i => sDest i
  | .bs i => [.bs i]

/-- The destinations an instruction names, executed by the facets `fs` (R25). -/
def Instr.dests (fs : List (Fin 8)) : Instr → List Dest
  | .call _ => [.s 54]
  | .calli _ => [.s 54]
  | .loop o => [.s (Fin.ofNat 56 o.c.val)]
  | .add o => o.d.dest
  | .sub o => o.d.dest
  | .mul o => o.d.dest
  | .mulh o => o.d.dest
  | .mulhu o => o.d.dest
  | .div o => o.d.dest
  | .divu o => o.d.dest
  | .rem o => o.d.dest
  | .remu o => o.d.dest
  | .and o => o.d.dest
  | .or o => o.d.dest
  | .xor o => o.d.dest
  | .andn o => o.d.dest
  | .shl o => o.d.dest
  | .shr o => o.d.dest
  | .sra o => o.d.dest
  | .rot o => o.d.dest
  | .min o => o.d.dest
  | .max o => o.d.dest
  | .minu o => o.d.dest
  | .maxu o => o.d.dest
  | .clz o => o.d.dest
  | .ctz o => o.d.dest
  | .popc o => o.d.dest
  | .sel o => o.d.dest
  | .mov o => o.d.dest
  | .movStaging o => [.stg o.d]
  | .movPatch o => [.stg o.d]
  | .movi o => o.d.dest
  | .moviH o => o.d.dest
  | .lea o => o.d.dest
  | .extZ o => o.d.dest
  | .extS o => o.d.dest
  | .bfx o => o.d.dest
  | .bfxS o => o.d.dest
  | .bfi o => o.d.dest
  | .cmp o => [.p o.pe]
  | .plog o => [.p o.pe]
  | .ldB o => o.d.dest
  | .ldH o => o.d.dest
  | .ldW o => o.d.dest
  | .ldD o => o.d.dest
  | .ldBAcq o => o.d.dest
  | .ldHAcq o => o.d.dest
  | .ldWAcq o => o.d.dest
  | .ldDAcq o => o.d.dest
  | .ldlB o => o.d.dest
  | .ldlH o => o.d.dest
  | .ldlW o => o.d.dest
  | .ldlD o => o.d.dest
  | .amoaddW o => o.d.dest
  | .amoaddD o => o.d.dest
  | .amoandW o => o.d.dest
  | .amoandD o => o.d.dest
  | .amoorW o => o.d.dest
  | .amoorD o => o.d.dest
  | .amoxorW o => o.d.dest
  | .amoxorD o => o.d.dest
  | .amominW o => o.d.dest
  | .amominD o => o.d.dest
  | .amomaxW o => o.d.dest
  | .amomaxD o => o.d.dest
  | .amoswpW o => o.d.dest
  | .amoswpD o => o.d.dest
  | .casW o => o.d.dest
  | .casD o => o.d.dest
  | .csrr o => o.d.dest
  | .xbc o => (if o.all then allFacets else [o.f]).map fun f => .v f o.vd
  | .xin o => [.v o.f o.vd]
  | .xex o => o.d.dest
  | .xred o => o.d.dest
  | .vadd o => fs.map fun f => .v f o.d
  | .vsub o => fs.map fun f => .v f o.d
  | .vmul o => fs.map fun f => .v f o.d
  | .vfma o => fs.map fun f => .v f o.d
  | .vfms o => fs.map fun f => .v f o.d
  | .vmin o => fs.map fun f => .v f o.d
  | .vmax o => fs.map fun f => .v f o.d
  | .vabs o => fs.map fun f => .v f o.d
  | .vneg o => fs.map fun f => .v f o.d
  | .vrcp o => fs.map fun f => .v f o.d
  | .vrsq o => fs.map fun f => .v f o.d
  | .vlog2 o => fs.map fun f => .v f o.d
  | .vexp2 o => fs.map fun f => .v f o.d
  | .vcvt o => fs.map fun f => .v f o.d
  | .vcmp o => fs.map fun f => .q f o.qe
  | .vsel o => fs.map fun f => .v f o.d
  | .viadd o => fs.map fun f => .v f o.d
  | .visub o => fs.map fun f => .v f o.d
  | .vimul o => fs.map fun f => .v f o.d
  | .vand o => fs.map fun f => .v f o.d
  | .vor o => fs.map fun f => .v f o.d
  | .vxor o => fs.map fun f => .v f o.d
  | .vshl o => fs.map fun f => .v f o.d
  | .vshr o => fs.map fun f => .v f o.d
  | .vsra o => fs.map fun f => .v f o.d
  | .vimin o => fs.map fun f => .v f o.d
  | .vimax o => fs.map fun f => .v f o.d
  | .vmov o => fs.map fun f => .v f o.d
  | .vmovi o => fs.map fun f => .v f o.d
  | .vshf o => fs.map fun f => .v f o.d
  | .vred o => fs.map fun f => .v f o.d
  | .vscan o => fs.map fun f => .v f o.d
  | .vdot o => fs.map fun f => .v f o.d
  | .vcopy o => fs.map fun f => .v f o.d
  | .vld o => fs.map fun f => .v f o.d
  | .vgth o => fs.map fun f => .v f o.d
  | .vldt o => fs.map fun f => .v f o.d
  | .qlog o => fs.map fun f => .q f o.qe
  | .dset o => fs.map fun f => .d f o.d
  | .dsmp o => fs.map fun f => .d f o.d
  | .dld o => fs.map fun f => .d f o.d
  | .dadd o => fs.map fun f => .d f o.d
  | .dsub o => fs.map fun f => .d f o.d
  | .dmul o => fs.map fun f => .d f o.d
  | .dmin o => fs.map fun f => .d f o.d
  | .dmax o => fs.map fun f => .d f o.d
  | .daff o => fs.map fun f => .d f o.d
  | .dmix o => fs.map fun f => .d f o.d
  | .dcnd o => fs.map fun f => .d f o.d
  | .dmom o => fs.flatMap fun f => (List.range 4).map fun k => .v f (.v (Fin.ofNat 32 (o.vd.val + k)))
  | .dqnt o => fs.map fun f => .v f o.vd
  | .dcdf o => fs.map fun f => .v f o.vd
  | .dtag o => fs.map fun f => .d f o.d
  | .ttov o => (List.range (o.r.val + 1)).map fun i => .v (Fin.ofNat 8 i) (.v (Fin.ofNat 32 (o.vb.val + i / 8)))
  | .kar o => sDest o.d
  | .kag o => sDest o.d
  | .krs o => sDest o.d
  | .kbc o => sDest o.d
  | .krecv o => sDest o.d
  | .spawn o => sDest o.d
  | .qres o => sDest o.d
  | .qtake o => sDest o.d
  | _ => []

/-- A valid entry for register `n` (R24). -/
def hasEntry (h : Header) (n : Nat) : Bool := h.ports.toList.any fun e => e.toNat == 64 + n

/-- Every port an instruction names is valid, and LOOP and CAS have the entry they read through (R24, R144, R168). -/
def portsOk (h : Header) (i : Instr) : Bool :=
  (i.srcs.all fun s => match s with
    | .port k => h.ports[k.val].getLsbD 6
    | _ => true) &&
  (match i with
    | .loop o => hasEntry h o.c.val
    | .casW o | .casD o => (match o.d with
      | .s r => hasEntry h r.val
      | .bs _ => false)
    | _ => true)

def noDups : List Dest → Bool
  | [] => true
  | d :: ds => !ds.contains d && noDups ds

/-- What a helper bundle must not hold (R26). -/
def helperOk (h : Header) (l : List Syl) : Bool :=
  h.fmask == 0 && l.all fun x =>
    (match x.kind with
      | .br | .sa | .sb | .am | .ec | .ek => true
      | _ => false) &&
    (match x.ins with
      | .brq _ => false
      | .wait o => !o.cls.getLsbD 3
      | .movStaging o => 16 ≤ o.d.val
      | .movPatch o => 16 ≤ o.d.val
      | _ => true)

structure Bundle where
  hdr : Header
  syls : List Syl
  deriving DecidableEq, Repr

/-- The two words of a slot parcel (R13). -/
def parcelWords (p : Nat) : List Nat := [p % 0x100000000, p / 0x100000000 % 0x100000000]

/-- A bundle from its header parcel and its slot parcels; none where R35 makes it illegal. `helper` says that the
helper context issues it. -/
def decodeBundle (helper : Bool) (hp : Nat) (slots : List Nat) : Option Bundle :=
  match decodeHeader hp with
  | none => none
  | some h =>
    let hasF := (templateKinds h.tmpl.val).contains .f
    if slots.length ≠ h.npar then none
    else if !hasF && (h.fmask != 0 || h.fbc) then none
    else if h.fbc && h.fmask == 0 then none
    else
      match decodeSyls (slotsOf h) (slots.flatMap parcelWords) with
      | none => none
      | some (l, r) =>
        if (r == [] || r == [0]) && l.all (fun x => portsOk h x.ins) &&
            noDups (l.flatMap fun x => x.ins.dests x.facets) && (!helper || helperOk h l) then
          some { hdr := h, syls := l }
        else none

/-- The slot kinds in the order in which decodeTableWord tries them (log entry 8). -/
def tableKinds : List Kind := [.ev, .em, .ek, .ec, .et, .xf, .sa, .xs, .br, .am, .f]

/-- The instruction that the first slot kind of `tableKinds` whose opcode map accepts the word gives. The table
numbers the bits of a syllable as R18 and R20 do; the IX syllable, above `nbits`, is zero. -/
def decodeTableWord (nbits w : Nat) : Option Instr :=
  if nbits = 32 then
    tableKinds.findSome? fun k =>
      match decodeSyl k [w % 0x100000000, 0] with
      | some (some i, _) => some i
      | _ => none
  else none

/-- The slot kind that decodeTableWord reads the word in. -/
def tableKind (w : Nat) : Option Kind :=
  tableKinds.find? fun k =>
    match decodeSyl k [w % 0x100000000, 0] with
    | some (some _, _) => true
    | _ => false

end Sys2Proof
end

