-- ==== Sys2Proof/Machine/State.lean ====
section
/-! DEFINITION. The state of one TX9 device as plain data: the task in focus, the other tasks, the nodes, launches
and partitions of the queue controller, the cores, the memory with the ordering machine, and the registers of the
device, the host link, the fabric and the Roskan controller. -/

namespace Sys2Proof.Machine

/-! Values. -/

/-- The 16 lanes of a facet register (R176). -/
abbrev Lanes := Vector W32 16

/-- One point of a distribution lane: value and weight (R340). -/
structure Point where
  val : W32
  wt : BitVec 16
  deriving DecidableEq, Repr

/-- The eight points of one lane (R340). -/
abbrev DLane := Vector Point 8

/-- A distribution register (R340). -/
structure DReg where
  lanes : Vector DLane 16
  mask : BitVec 16
  aligned : Bool
  deriving DecidableEq, Repr

/-- An origin: a mask of launch arguments and a data bit (R299). -/
structure Origin where
  args : BitVec 6
  data : Bool
  deriving DecidableEq, Repr

/-- A bypass: its value, the first bundle in which it is readable and the first in which it no longer is (R121),
and its origin. -/
structure Byp where
  val : W64
  born : Nat
  stop : Nat
  org : Origin
  deriving DecidableEq, Repr

/-- A facet bypass: one lifetime for all lanes (R121). -/
structure FByp where
  val : Lanes
  born : Nat
  stop : Nat
  deriving DecidableEq, Repr

/-! Writes in flight (R117, R118). -/

/-- The levels at which the ordering machine of one device keeps writes apart (R240, log entry 9). -/
abbrev Level := Fin 5

/-- The watch (R150): the watched line as physical line number, with its level. -/
structure Watch where
  armed : Bool
  fired : Bool
  line : BitVec 51
  pline : Nat
  level : Level
  deriving DecidableEq, Repr

/-- The destination of a write in flight. -/
inductive FDst where
  | s (i : Fin 56)
  | bs (i : Fin 4)
  | p (pair : Fin 8)
  | stg (i : Fin 40)
  | v (f : Fin 8) (r : VReg)
  | q (f : Fin 8) (pair : Fin 4)
  | d (f i : Fin 8)
  | fsr (f : Fin 8)
  | ufcnt
  | csr (n : BitVec 12)
  deriving DecidableEq, Repr

/-- The value of a write in flight. `wait` is a reply that has not arrived (R119). In `pair`, lanes of `m`
receive `c` in the even register and its complement in the odd one (R23). `patch` is a MOV.patch: launch argument
and offset, and whether the value equals their sum (R157, R300). `watch` is a new watch, which like a CSRW takes effect
after its own bundle (R9, R150). -/
inductive FVal where
  | wait
  | w (x : W64)
  | lanes (m : BitVec 16) (x : Lanes)
  | pair (m c : BitVec 16)
  | dist (m : BitVec 16) (x : DReg)
  | patch (x : W64) (k : Fin 6) (off : BitVec 29) (ok : Bool)
  | watch (w : Watch)
  deriving DecidableEq, Repr

structure Flight where
  id : Nat
  dst : FDst
  /-- the bundle that issued it, and the bundle of its scheduled landing -/
  iss : Nat
  land : Nat
  val : FVal
  /-- the origin of the value (R299) -/
  org : Origin
  deriving DecidableEq, Repr

/-- A pending transfer: it falls due after bundle `due` (R122). -/
structure Pend where
  due : Nat
  target : VAddr
  deriving DecidableEq, Repr

/-- What the bundle being issued has latched: its address, the address after it, the return address of R123, the
port entries, the values read through them and their origins (R24, R299), and the current syllable with the facets that execute
it (R180). -/
structure Latch where
  addr : VAddr
  next : VAddr
  ret : VAddr
  entries : Vector (BitVec 7) 4
  vals : Vector W64 4
  orgs : Vector Origin 4
  facets : List (Fin 8)
  ins : Option Instr
  deriving DecidableEq, Repr

/-! The trap record (R11, R134). -/

/-- A facet bypass in the record: DELAY, LEFT and the lanes. -/
structure FSave where
  delay : BitVec 4
  left : BitVec 2
  val : Lanes
  deriving DecidableEq, Repr

structure TrapRec where
  cause : BitVec 21
  depth : BitVec 13
  addr : VAddr
  ret : VAddr
  nest : Bool
  intrap : Bool
  bl : BitVec 24
  bs : Vector W64 4
  fsel : BitVec 9
  fb : Vector FSave 32
  pt : Vector W64 3
  deriving DecidableEq, Repr

/-! The tile stack (R38 to R62). -/

/-- R54. -/
inductive EState where
  | filling | ready | draining
  deriving DecidableEq, Repr

/-- A physical entry that is not empty. `data` holds the bytes of each row. `mapped` says that it stands in the
depth map. `cmd` is the command that pushed it, `iss` the number of that command's bundle and `bundle` its address.
`slot` is its slot of the spill region on level 3. `void` marks a dead entry of a saved task on level 3: it has no slot, and
every element reads as zero (R60). `bad` is a poisoned line that its data came back from, whose error moves with it (R369). -/
structure Entry where
  id : Nat
  fmt : Fmt
  rows : Nat
  cols : Nat
  state : EState
  readers : Nat
  mapped : Bool
  level : Fin 4
  slot : Nat
  cmd : Nat
  iss : Nat
  bundle : VAddr
  data : List (List Byte)
  void : Bool
  bad : Option Nat
  deriving DecidableEq, Repr

/-- Stack registers (R42), the depth map, depth 0 first, and the entries. -/
structure Stack where
  base : BitVec 57
  limit : Nat
  res : Nat
  sel : BitVec 12
  marks : Vector (BitVec 13) 8
  map : List Nat
  entries : List Entry
  nextId : Nat
  deriving DecidableEq, Repr

/-! Formats and rounding (R74, R75). `fresh` is the underflow count that landed at the bundle to issue next. -/

structure FpRegs where
  fstat : BitVec 6
  fctl : BitVec 3
  fseed : W32
  fscsel : Byte
  fufcnt : W32
  fresh : Nat
  gens : Vector W32 256
  deriving DecidableEq, Repr

/-! Facets (R176, R340). `fresh` holds the flags that landed at the bundle to issue next (R202). -/
structure Facet where
  v : Vector Lanes 32
  q : Vector (BitVec 16) 8
  d : Vector DReg 8
  bf : Vector FByp 4
  ab : Vector VAddr 4
  fsr : BitVec 7
  fcr : Bool
  tag : BitVec 4
  fresh : BitVec 7
  deriving DecidableEq, Repr

/-- The five counters (R147). -/
structure Counters where
  ld : Nat
  st : Nat
  cp : Nat
  tl : Nat
  kc : Nat
  deriving DecidableEq, Repr

/-- A block slot (R229): first virtual line and line count, the physical lines that its fill has read, its level, its shared
lease, and the command that fills it; `flag` as R230. -/
structure Block where
  flag : Fin 3
  vline : Nat
  count : Nat
  lines : List Nat
  level : Level
  lease : Nat
  cmd : Nat
  asid : Byte
  deriving DecidableEq, Repr

/-- A translated address (R219 to R221), with the base and size of the page whose entry gave it. -/
structure Tr where
  pa : Nat
  fmt : Nat
  geo : Nat
  e : Bool
  asid : Byte
  base : Nat
  size : Nat
  deriving DecidableEq, Repr

/-- The operations of the atomics (R167). -/
inductive AmoOp where
  | add | and | or | xor | min | max | swp
  deriving DecidableEq, Repr

/-- How the bytes of a completed program-ordered access are used. -/
inductive AccOp where
  | ldS (d : Dst)
  | stS
  | amo (op : AmoOp) (d : Dst) (b : W64)
  | cas (d : Dst) (e b : W64)
  | cbo (k : CboKind)
  | ldV (f : Fin 8) (d : VReg) (gth : Bool)
  | ldT (f : Fin 8) (d : VReg) (fmt : Fmt) (hi : Bool)
  | ldD (f : Fin 8) (d : Fin 8)
  | stV
  | tld (cmd : Nat)
  | tst (cmd : Nat)
  | commit
  deriving DecidableEq, Repr

/-- One piece of an access: a scalar, a lane (`key`), or a row. `also` lists the further lanes or rows that its read
serves (R232, R245). `trs` holds the translations of its first pages that were made at issue (R234). `data` holds the bytes of a store. -/
structure Piece where
  key : Nat
  also : List Nat
  va : Nat
  len : Nat
  trs : List Tr
  data : List Byte
  deriving DecidableEq, Repr

/-- A program-ordered access that is not yet performed, or whose reply has not arrived (R245, R119). `flight` is the
write in flight that waits for its reply; `got` the bytes read so far, by key. `staged` marks a store that enters
the staged-write buffer (R254); an access with the operation `commit` is the commit that ends staging (R255). `ins` is its
syllable (R369); `note` says that the pages it reaches enter the recording (R302). `span` keeps the virtual bytes that it touches, as the
task issued it (R149). -/
structure Acc where
  id : Nat
  /-- the number of the bundle that issued it -/
  iss : Nat
  bundle : VAddr
  ins : Option Instr
  note : Bool
  /-- dtroot as it was at issue (R222) -/
  root : W64
  op : AccOp
  write : Bool
  level : Level
  scope : Nat
  acq : Bool
  rel : Bool
  isLd : Bool
  isSt : Bool
  loc : Bool
  staged : Bool
  flight : Option Nat
  pieces : List Piece
  span : List (Nat × Nat) := pieces.map fun p => (p.va, p.len)
  got : List (Nat × List Byte)
  deriving DecidableEq, Repr

/-- A performed access that later fences may still wait for, or whose t they take over: its class, and the virtual bytes of the
whole access or transfer (R148, R149, R216, R252). -/
structure Done where
  id : Nat
  cls : BitVec 6
  span : List (Nat × Nat)
  loc : Bool
  t : Nat
  deriving DecidableEq, Repr

/-! Engine commands (R86 to R111, R309 to R316). -/

/-- What a command does when it completes. The numbers are ids of entries. -/
inductive CmdOp where
  | tld (e : Nat) (base pitch : Int)
  | tst (x : Nat) (base pitch : Int) (fmt : Nat)
  | tgth (i e : Nat) (base pitch : Int) (bound : W64)
  | tpick (x e : Nat)
  | const (e : Nat) (pat : W32)
  | shape (x e : Nat)
  | join (x y e : Nat) (h : Bool)
  | fromv (e : Nat) (rows : List Lanes)
  | mma (a b : Nat) (c : Option Nat) (e : Nat) (check : Option Nat)
  | mmag (b i e : Nat) (base pitch : Int) (fmt : Fmt) (k : Nat) (bound : W64)
  | mscl (a b e : Nat) (sc : W32)
  | bin (op : Fin 6) (x y e : Nat)
  | fma (x y c e : Nat)
  | texp2 (x m e : Nat) (c : W32)
  | trcp (x e : Nat)
  | red (op : Fin 3) (x e : Nat)
  | tscl (x e : Nat) (c : W32)
  | tbc (v e : Nat)
  | tcvt (x e : Nat) (rm : Nat)
  | ttrn (x e : Nat)
  | ttov (x : Nat)
  | cpget (e : Nat) (base pitch : Int)
  | cpput (x : Nat) (base pitch : Int) (fmt : Nat)
  | cpmc (cluster : Nat) (base pitch : Int) (ofs : Nat) (dpitch : Int) (rows n : Nat) (sel : Byte)
  /-- `again` marks the fill of a block that its task has brought to another core (R230): no syllable issued it -/
  | ldblk (k : Fin 16) (base count : Nat) (again : Bool)
  | cpsort (scat : Bool) (base idx lin : Nat) (n z : Nat) (bound : W64)
  | cpfill (base len : Nat) (pat : W64)
  deriving DecidableEq, Repr

/-- The chunk inversion a matrix command carries (R361). -/
structure Inj where
  row : Nat
  col : Nat
  chunk : Nat
  bit : Nat
  deriving DecidableEq, Repr

/-- An engine command in flight. `gens` is the state of generators 0 to 127 it claimed (R74), `fctl` and `fscsel`
the controls it read at issue (R75). `done` lists its performed elements and `got` the bytes they read (R251); `p`
is the issuer's pts at issue; `tmax` the largest t of its elements. `latched` says that its sources are latched. `wrote` holds the
physical bytes that its elements have written, where writes of one command may overlap (R232): element, address and length. -/
structure Cmd where
  id : Nat
  bundle : VAddr
  ins : Option Instr
  /-- dtroot as it was at issue (R222), and the translation of the page of a base made then (R234) -/
  root : W64
  first : Option Tr
  op : CmdOp
  level : Level
  scope : Nat
  fctl : BitVec 3
  fscsel : Byte
  gens : List W32
  inj : Option Inj
  reads : List Nat
  latched : Bool
  done : List Nat
  wrote : List (Nat × Nat × Nat)
  got : List (Nat × List Byte)
  p : Nat
  tmax : Nat
  /-- flags and underflow count of its conversions, raised when it completes (R76) -/
  fl : BitVec 6
  uf : Nat
  deriving DecidableEq, Repr

/-! Collective and task commands (R317 to R333). -/

inductive EkOp where
  | coll (kind : Fin 4) (rop : Rop) (et : EType) (d : Fin 56) (n src dst : Nat) (comm : Nat) (rank size : Nat)
  | ksend (target : W32) (src n : Nat)
  | krecv (d : Fin 56) (dst n : Nat)
  | spawn (d : Fin 56) (addr : Nat)
  | token (target : W32) (k : Fin 8)
  | gbar
  | join (g : Fin 256)
  | leave
  | qres (d : Fin 56) (tr : Tr)
  | qpub (slot : W32) (tr : Tr)
  | qtake (d : Fin 56) (tr : Tr)
  | qfree (tr : Tr)
  | tlbi (k : TlbiKind) (va : VAddr) (asid : Byte)
  | flush (asid : Byte)
  | icinv (va : VAddr)
  deriving DecidableEq, Repr

/-- An EK command counted in kc. `deferred` is a TOKEN or SPAWN that waits for DONE; `status` a SPAWN's status;
`waiting` a QTAKE, KRECV or GBAR that waits on another party. `got` holds the bytes of a KSEND. -/
structure Ek where
  id : Nat
  bundle : VAddr
  ins : Option Instr
  /-- dtroot as it was at issue (R222), and the level of .grp then (R242) -/
  root : W64
  grp : Level
  op : EkOp
  level : Level
  scope : Nat
  deferred : Bool
  status : Option Nat
  waiting : Bool
  done : List Nat
  got : List (Nat × List Byte)
  p : Nat
  tmax : Nat
  deriving DecidableEq, Repr

/-- A fence: the number of its bundle, the accesses it waits for, and the classes, range and level it holds (R148, R149, R252).
`done` says that it waits no longer; it stays until it releases a successor, which takes over `tmax` (R216). -/
structure Fence where
  iss : Nat
  done : Bool
  pred : BitVec 6
  succ : BitVec 6
  range : Option (Nat × Nat)
  level : Level
  accs : List Nat
  cmds : List Nat
  eks : List Nat
  tmax : Nat
  deriving DecidableEq, Repr

/-! Staging (R254 to R257). -/

/-- `committing` from the end of staging until the commit is performed (R255). -/
inductive StageMode where
  | off | staging | committing | exposed
  deriving DecidableEq, Repr

/-- A staged byte: physical and virtual address, value, the ASID of its encryption, and that of its context. -/
structure SByte where
  pa : Nat
  va : Nat
  val : Byte
  key : Option Byte
  asid : Byte
  deriving DecidableEq, Repr

/-- The staged-write buffer by rising physical address; the exposure log's count, overflow and last entry (scope,
first byte, length). -/
structure Stage where
  mode : StageMode
  bytes : List SByte
  count : Nat
  ovf : Bool
  last : Option (Nat × Nat × Nat)
  deriving DecidableEq, Repr

/-! Moulds (R297 to R307). -/

/-- A staging register as the recording knows it: its origin, or its patch (R299). -/
structure SOrigin where
  org : Origin
  patch : Option (Fin 6 × BitVec 29)
  ok : Bool
  deriving DecidableEq, Repr

structure MouldEntry where
  kind : Nat
  interval : Nat
  syl : W32
  pairs : List (W64 × W64)
  deriving DecidableEq, Repr

inductive RecState where
  | off | recording | closed
  deriving DecidableEq, Repr

/-- A recording: the mould, the image with its patches, the guards, the pages and the entries (R298 to R303). -/
structure Recording where
  state : RecState
  mould : W32
  maddr : VAddr
  epoch : W64
  image : Vector (W64 × Option (Fin 6 × BitVec 29)) 40
  guards : List (Rel × Fin 6 × W64)
  pages : List (Nat × Nat × Nat)
  entries : List MouldEntry
  interval : Nat
  impure : Bool
  deriving DecidableEq, Repr

/-- A cast in progress: the entries left, the arguments and MADDR (R306, R307). -/
structure Cast where
  left : List MouldEntry
  args : Vector W64 6
  maddr : VAddr
  deriving DecidableEq, Repr

/-! Run conditions. -/

/-- A trap that is draining (R133): code, NEED, the depth count before the bundle, traddr, the resume address, and
the bundle from which bypass lifetimes and pending transfers are counted. -/
structure TrapReq where
  code : Nat
  need : Nat
  depth : Nat
  addr : VAddr
  ret : VAddr
  at_ : Nat
  deriving DecidableEq, Repr

/-- Why a core is frozen (R235). A `walk` or a `fault` carries the access: the data root it issued under
(R222), address, kind, scope, write, whether it translates at issue, its bundle and syllable; a fault its cause, level, entry, and the record's address once posted. -/
structure MemReq where
  root : W64
  va : Nat
  kind : Nat
  scope : Nat
  write : Bool
  atIssue : Bool
  bundle : VAddr
  ins : Option Instr
  deriving DecidableEq, Repr

inductive Freeze where
  | reply (acc : Nat)
  | walk (r : MemReq)
  | iwalk (va : VAddr)
  | fetch (va : Nat)
  | fault (r : MemReq) (cause level : Nat) (entry : W64) (rec : Option Nat)
  | host
  deriving DecidableEq, Repr

/-- Why a task is parked (R289). -/
inductive Park where
  | watch | kc (n : Nat)
  deriving DecidableEq, Repr

/-- What a task is doing (R274), and the parts of RUNNING that R133, R136 and R319 name. `held` ends an issue
attempt without an effect. -/
inductive Run where
  | running
  | held
  | trapDrain (r : TrapReq)
  | eretDrain
  | doneWait
  | parked (why : Park) (inPlace : Bool)
  | suspended
  | halted
  | ended
  deriving DecidableEq, Repr

/-- One task: the running instance of a node (R274), with everything its context holds. -/
structure TaskId where
  uid : Nat
  node : Nat
  part : Fin 16
  core : Nat
  helper : Bool
  system : Bool
  resident : Bool
  group : Option (Fin 256)
  preempt : Bool
  debug : Bool
  haltReq : Bool
  coord : BitVec 48
  nodeId : W32
  trapr : VAddr
  deriving DecidableEq, Repr

structure Task where
  id : TaskId
  run : Run
  frz : Option Freeze
  s : Vector W64 56
  p : BitVec 16
  bs : Vector Byp 4
  stg : Vector W64 40
  pc : VAddr
  bidx : Nat
  seq : Nat
  flights : List Flight
  pend : List Pend
  /-- the addresses of the three bundles that issued last, newest first (R367); the enabled syllables of the last bundle that issued or
  trapped, and its address (R365, R372) -/
  past : List VAddr
  ran : List Syl
  ranAt : VAddr
  /-- the headers fetched ahead that a CALL took its return address from (R123) -/
  hdrs : List (Nat × W64)
  /-- the ICINVs that hold the next bundle after an IFENCE (R146) -/
  ifence : List Nat
  latch : Latch
  trap : TrapRec
  stk : Stack
  fp : FpRegs
  finj : W64
  fac : Vector Facet 8
  cnt : Counters
  kstat : BitVec 16
  watch : Watch
  dtroot : W64
  itroot : W64
  blocks : Vector Block 16
  /-- the largest t among the elements of completed commands of the copy and of the collective classes (R251) -/
  tcp : Nat
  tkc : Nat
  /-- the largest t among the writes of the task at their own scopes, and among those propagated to each level (R256) -/
  wdone : Nat
  wup : Vector Nat 5
  pts : Nat
  acc : List Acc
  sent : List Done
  /-- the element accesses of bulk transfers whose t lies beyond pts -/
  late : List Done
  cmds : List Cmd
  eks : List Ek
  fences : List Fence
  acqs : List Nat
  stage : Stage
  sorg : Vector Origin 56
  porg : Vector Origin 16
  storg : Vector SOrigin 40
  mrec : Recording
  cast : Option Cast
  /-- the save slot that holds the task (R276); and the scalar registers that asynchronous writes have reached since it parked
  (R264), or that live while it is suspended (R291) -/
  slot : Option Nat
  kept : BitVec 56
  /-- a token of the node's DONE has been delivered (R273) -/
  told : Bool
  deriving DecidableEq, Repr

/-! Nodes and launches (R265 to R275). -/

structure Msg where
  sender : W32
  bytes : List Byte
  t : Nat
  deriving DecidableEq, Repr

/-- R273. -/
inductive NState where
  | ready | fired | running | parked | done | trapped | killed | exposedFaulted
  deriving DecidableEq, Repr

/-- A node: its identifier, its partition, the ASID and data root of its tenant, the cluster that WHERE has been re-mapped to
(R278), its place in memory, dwords 0 to 13 of its record, its status (R269), the kills it took in this launch, its mailbox, the
instances it joined of each communicator and size, its launch frame. -/
structure Node where
  key : Nat
  id : W32
  part : Fin 16
  asid : Byte
  root : W64
  home : Option Nat
  launch : Nat
  addr : Nat
  drec : Vector W64 14
  state : NState
  tok : Byte
  cause : BitVec 21
  depth : BitVec 13
  reason : BitVec 4
  taddr : VAddr
  kills : Nat
  mbox : List Msg
  comms : List (Nat × Nat × Nat)
  frame : Nat
  system : Bool
  spawned : Bool
  startT : Nat
  late : Nat
  halted : Bool
  deriving DecidableEq, Repr

structure Launch where
  key : Nat
  addr : Nat
  part : Fin 16
  asid : Byte
  root : W64
  system : Bool
  checked : Bool
  status : Nat
  count : Nat
  ended : Nat
  deriving DecidableEq, Repr

/-- A group with its open round: members, the fixed set, its arrivals, and the arrivals for the next round
(R287, R288). -/
structure Group where
  id : Fin 256
  members : List Nat
  round : List Nat
  arrived : List Nat
  next : List Nat
  deriving DecidableEq, Repr

/-- An operation of pctl in progress (R277, R278): not yet begun, or accepted and waiting for its pre-emptions, with a
scrub of cores that another tenant used (R224). -/
inductive PartOp where
  | none | apply | release
  | applied (scrub : Bool)
  | releasing
  deriving DecidableEq, Repr

/-- A partition (R276 to R281). `rr` is the core after the last one that a launch used (R283). -/
structure Part where
  inUse : Bool
  clusters : BitVec 48
  asid : Byte
  dtroot : W64
  itroot : W64
  split : Bool
  tper : Nat
  flen : Nat
  kmax : Nat
  slog : Nat
  save : Nat
  saven : Nat
  frame : Nat
  tick : Nat
  stall : Bool
  mepoch : W64
  groups : List Group
  rr : Nat
  op : PartOp
  deriving DecidableEq, Repr

/-! Cores. -/

/-- A TLB entry: the ASID of the lookup, the page's base and size, and the leaf (R233). -/
structure TlbEnt where
  asid : Byte
  base : Nat
  size : Nat
  leaf : W64
  deriving DecidableEq, Repr

/-- An instruction-cache line: ASID, physical 128-byte line number and its 16 parcels (R114, R132); `bad` lists the halves that
were filled from a poisoned line (R378). -/
structure ILine where
  asid : Byte
  line : Nat
  parcels : List W64
  bad : List Nat
  deriving DecidableEq, Repr

/-- Counts of the errors of one unit, each with its TIME in microseconds (R374). -/
structure ErrCount where
  cls : Nat
  unit : Nat
  times : List Nat
  deriving DecidableEq, Repr

/-- The arrays of a core under storage codes (R366). -/
inductive Arr where
  | regs | staging | bench | accumulators | localStore | mouldStore | l1d | dieCache | icache | itlb
  deriving DecidableEq, Repr

/-- A core: TLBs and instruction cache, most recently used first; semap; error counts, and the array of each redundant row in use
(R375); steal generator; deques of node keys, newest first (R283); the ASID of the tenant whose data its stores may hold, none where
they are zero (R224). -/
structure Core where
  num : Nat
  dtlb : List TlbEnt
  itlb : List TlbEnt
  icache : List ILine
  semap : W64
  errs : List ErrCount
  rows : List Arr
  gen : W32
  deque : List Nat
  hdeque : List Nat
  tenant : Option Byte
  deriving DecidableEq, Repr

structure ClusterTlb where
  num : Nat
  ents : List TlbEnt
  deriving DecidableEq, Repr

/-! Memory and the ordering machine (R239). -/

/-- What a write is, apart from its place: whether it is a release, or an element of a bulk transfer; its time; the number of its
access or command; its class (R148); and its first virtual byte, where it has one (R149). -/
structure WrAs where
  rel : Bool
  bulk : Bool
  t : Nat
  id : Nat
  cls : BitVec 6
  va : Option Nat
  deriving DecidableEq, Repr

/-- A write: its task, the widest level at which it is visible, and whether it is a release or an element of a bulk transfer;
`t` and `seq` are its time and its order of entry there, and `inner` those at the narrower instances it has entered, the widest
first (R243, R244). `key` is the ASID of its encryption (R226), `asid` that of its context, which tags its line (R223). -/
structure Wr where
  id : Nat
  task : Nat
  core : Nat
  level : Level
  pa : Nat
  bytes : List Byte
  t : Nat
  seq : Nat
  inner : List (Level × Nat × Nat)
  rel : Bool
  bulk : Bool
  cls : BitVec 6
  va : Option Nat
  key : Option Byte
  asid : Byte
  deriving DecidableEq, Repr

/-- wts and rts of a line at one instance (R244). `by_` lists the tasks that have accessed it there, each with its core and the largest
rts that it left (R247). -/
structure LineT where
  level : Level
  inst : Nat
  line : Nat
  wts : Nat
  rts : Nat
  by_ : List (Nat × Nat × Nat)
  deriving DecidableEq, Repr

/-- The bytes visible device-wide in canonical form, the t and order of their writes, the narrower writes, the device-wide writes
that stand elsewhere in the order of some narrower instance, the line timestamps, the ASID under which lines are encrypted
(R226), the poisoned lines, the retired frames, the times of the errors of each frame, and the frames that stand on a spare
frame, one entry for each spare used (R378). -/
structure Mem where
  cells : List Host.Cell
  stamps : List (Nat × Nat × Nat)
  narrow : List Wr
  past : List Wr
  lines : List LineT
  tags : List (Nat × Byte)
  poison : List Nat
  retired : List Nat
  frames : List (Nat × List Nat)
  remap : List Nat
  seq : Nat
  deriving DecidableEq, Repr

/-! Collectives on the fabric side (R325 to R328). -/

/-- What the members of a collective must agree in: kind, ROP, ETYPE and N (R328). -/
structure CollShape where
  kind : Fin 4
  rop : Rop
  et : EType
  n : Nat
  deriving DecidableEq, Repr

/-- A member: the command of a task, or a member on the device `dev`, with the code of its scope (R325). -/
structure Member where
  rank : Nat
  task : Nat
  ek : Nat
  dev : Option (Fin 128)
  scope : Nat
  shape : CollShape
  retries : Nat
  got : Option (List Byte)
  ended : Bool
  deriving DecidableEq, Repr

/-- An instance: communicator, size, number; `order` is the order in which the members' steps were taken. -/
structure Coll where
  key : Nat
  comm : Nat
  size : Nat
  num : Nat
  started : Bool
  status : Nat
  members : List Member
  order : List Nat
  deriving DecidableEq, Repr

/-! Device, host, fabric and Roskan (R237, R277, R385 to R396). -/

/-- `fwdog` is one value for the cores of the device (DESIGN CHOICE, log entry 110). -/
structure DevRegs where
  fqbase : Vector W64 4
  mcbase : Vector W64 4
  fwdog : W64
  pttbase : W64
  pctl : W64
  dbgctl : W64
  kretry : W64
  mcwin : W64
  patcfg : W64
  patcap : Vector (BitVec 16 × BitVec 16) 48
  pfbind : Vector W64 16
  quiesce : Bool
  lock : Bool
  devid : BitVec 7
  fwsel : W64
  fwent : Vector (BitVec 2) 128
  hostLost : Bool
  cLost : Bool
  spares : Vector (Option (Fin 13)) 4
  phys : Vector (Fin 13) 48
  lost : BitVec 48
  deriving DecidableEq, Repr

/-- Another device of the load-store domain as it answers this one's requests (R390, R391, R394): OPEN and WR of its entry for this
device, the ASIDs for which it has no key, and its retired frames. -/
structure Holder where
  dev : BitVec 7
  opens : Bool
  writes : Bool
  keyless : List Byte
  retired : List Nat
  deriving DecidableEq, Repr

/-- BAR0 of each function, and the link (R386, R388). `msix` lists the MSI-X signals sent, each by its function and vector
(R384). `far` lists the other devices that refuse anything (log entry 112). -/
structure HostRegs where
  dmab : Vector W64 64
  dmal : Vector W64 64
  nopart : BitVec 64
  linkUp : Bool
  msix : List (Fin 64 × Fin 4)
  far : List Holder
  deriving DecidableEq, Repr

/-- What the Roskan controller has been told (R392). -/
inductive RosEvent where
  | machineCheck (d0 d1 d2 d3 : W64)
  | linkOut (l : Fin 16)
  | linkBack (l : Fin 16)
  | hostLost
  | cLost
  | trip (die : Nat)
  | peerFault (dev : Nat)
  | partLost (p : Fin 16)
  | measured (i : List Nat)
  deriving DecidableEq, Repr

/-- The structures of containment that are kept in copies (R379). -/
inductive CTable where
  | poison | retired | remap
  deriving DecidableEq, Repr

/-- A copy of an entry that is not what it should be: what it reads as, or none where it fails its code (R379). -/
structure CopyErr where
  table : CTable
  key : Nat
  copy : Nat
  reads : Option Bool
  deriving DecidableEq, Repr

/-- Kranum links, keys and the Roskan controller (R389, R392 to R396), and the copies in error of R379; `met` holds the lines that
the queue controller's writes of this step have looked up there. -/
structure Roskan where
  links : BitVec 16
  resends : Vector Nat 16
  keys : List Byte
  keyDying : List Byte
  meas : Vector Nat 4
  recovery : Bool
  bootStage : Nat
  staged : Option Nat
  active : Option Nat
  events : List RosEvent
  clamp : Nat
  hot : Vector Nat 4
  copies : List CopyErr
  met : List Nat
  time : W64
  deriving DecidableEq, Repr

/-- An operation of a datapath that carries a residue (R364): the width of its operands, and these. A chunk sum has its terms, each
with its sign, its product and the places that this is shifted up. In an accumulator addition `b` is aligned by `s` places, added to
`a` or subtracted from it, the sum normalised by `k` places to the right or to the left, and rounded by increment `i`. -/
inductive ResOp where
  | add (w a b : Nat) (c : Bool)
  | sub (w a b : Nat)
  | mul (w a b : Nat)
  | shl (w x k : Nat)
  | shr (w x k : Nat)
  | round (w q i : Nat)
  | align (w p s : Nat)
  | chunk (w : Nat) (terms : List (Bool × Nat × Nat))
  | accum (w a b s : Nat) (minus right : Bool) (k i : Nat)
  deriving DecidableEq, Repr

/-- A check that fails (R363 to R366): its class, the syllable whose work meets it, its slot's kind, the engine command that the
syllable issued where it is one of an engine, the facet and logical lane, or physical row, the operation and the result's own bits,
and for class 10 the array and the syndrome of its code. -/
structure Failure where
  cls : Fin 11
  kind : Kind
  ins : Instr
  cmd : Option Nat
  facet : Fin 8
  lane : Nat
  work : ResOp
  got : Nat
  arr : Arr
  syn : BitVec 16
  deriving DecidableEq, Repr

/-- What a record names of a failed check (R369): class, slot, opcode, facet, lane, physical unit, syndrome; and the array of class
10. -/
structure Upset where
  cls : Fin 11
  slot : Fin 12
  op : BitVec 7
  facet : Fin 8
  lane : BitVec 7
  phys : BitVec 7
  arr : Arr
  syn : BitVec 16
  deriving DecidableEq, Repr

/-- An entry of a pre-emption map, with the ASID of its binary (R290): VMASK, QMASK and DMASK of each facet. -/
structure PmEntry where
  asid : Byte
  addr : VAddr
  smask : BitVec 56
  live : Nat
  pmask : BitVec 16
  fac : Vector (BitVec 32 × BitVec 8 × BitVec 8) 8
  deriving DecidableEq, Repr

/-- One choice of what moves next (log entry 2): a task issues, an event happens, some checks of a task's work fail in one cycle,
an array of a core corrects a single-bit error or loses an entry to parity, the reference clock advances by some microseconds, or
something outside the device acts: firmware or the driver launches a system task or writes a system CSR on a die, the loader places
the pre-emption map of a binary, a member on another device joins a collective, sends its bytes or is killed, an agent writes host
memory or another device's memory. -/
inductive Choice where
  | issue (u : Nat)
  | event (i : Instr)
  | upset (u : Nat) (l : List Failure)
  | softError (core : Nat) (a : Arr)
  | parity (core : Nat) (itlb : Bool) (k : Nat)
  | clock (us : Nat)
  | stackError (frame : Nat) (uncorrectable : Option Nat)
  | copyError (e : CopyErr)
  | leaseEnd (u : Nat)
  | systemLaunch (addr : Nat) (p : Fin 16)
  | sysWrite (die : Fin 4) (n : BitVec 12) (v : W64)
  | loadMap (asid : Byte) (section_ : List Byte)
  | remoteJoin (comm size num : Nat) (m : Member)
  | remoteBytes (coll rank : Nat) (b : List Byte)
  | remoteKilled (coll rank : Nat)
  | agentWrite (pa : Nat) (bytes : List Byte)
  | holderIs (x : Holder)
  deriving DecidableEq, Repr

structure State where
  t : Task
  others : List Task
  nodes : List Node
  launches : List Launch
  parts : Vector Part 16
  cores : List Core
  clusters : List ClusterTlb
  mem : Mem
  colls : List Coll
  pmap : List PmEntry
  dev : DevRegs
  host : HostRegs
  ros : Roskan
  turn : List Choice
  fv : Nat
  nextKey : Nat
  deriving DecidableEq, Repr

/-- Why the machine stops: it never does. Every fault of the manual is a trap, a freeze or a kill, which are next states, so no
reason is listed. -/
inductive Fault where
  deriving DecidableEq, Repr

/-- Why the model has no answer. -/
inductive Refusal where
  /-- Raised by an arm of `exec` whose instruction has no meaning yet. Safe: the run ends. -/
  | notModelled (mnemonic : String)
  deriving DecidableEq, Repr

/-! Reset. -/

def Origin.none : Origin := { args := 0, data := false }

def Byp.dead : Byp := { val := 0, born := 0, stop := 0, org := Origin.none }

def FByp.dead : FByp := { val := Vector.replicate 16 0, born := 0, stop := 0 }

def Point.zero : Point := { val := 0, wt := 0 }

/-- A void register (R341). -/
def DReg.zero : DReg :=
  { lanes := Vector.replicate 16 (Vector.replicate 8 Point.zero), mask := 0, aligned := false }

/-- The facets of a fresh task (R178). -/
def Facet.reset : Facet :=
  { v := Vector.replicate 32 (Vector.replicate 16 0)
    q := #v[0xFFFF, 0, 0, 0, 0, 0, 0, 0]
    d := Vector.replicate 8 DReg.zero
    bf := Vector.replicate 4 FByp.dead
    ab := Vector.replicate 4 0
    fsr := 0, fcr := false, tag := 0, fresh := 0 }

def Latch.reset : Latch :=
  { addr := 0, next := 0, ret := 0, entries := Vector.replicate 4 0, vals := Vector.replicate 4 0
    orgs := Vector.replicate 4 Origin.none, facets := [], ins := none }

def TrapRec.reset : TrapRec :=
  { cause := 0, depth := 0, addr := 0, ret := 0, nest := false, intrap := false, bl := 0
    bs := Vector.replicate 4 0, fsel := 0
    fb := Vector.replicate 32 { delay := 0, left := 0, val := Vector.replicate 16 0 }
    pt := Vector.replicate 3 0 }

def Stack.reset : Stack :=
  { base := 0, limit := 0, res := 8, sel := 0, marks := Vector.replicate 8 0, map := [], entries := [], nextId := 0 }

/-- The state of generator `g` after a seeding (R74). -/
def seedGen (seed : W32) (g : Nat) : W32 :=
  let x := seed ^^^ (BitVec.ofNat 32 (g + 1) * 0x9E3779B9)
  if x = 0 then 1 else x

/-- A vector from a function of the index. -/
def vecOf {α : Type} {n : Nat} (f : Fin n → α) : Vector α n := Vector.mk (List.ofFn f).toArray (by simp)

def FpRegs.reset : FpRegs :=
  { fstat := 0, fctl := 0, fseed := 0, fscsel := 0, fufcnt := 0, fresh := 0, gens := vecOf fun g => seedGen 0 g.val }

def Watch.reset : Watch := { armed := false, fired := false, line := 0, pline := 0, level := 0 }

def Block.free : Block := { flag := 0, vline := 0, count := 0, lines := [], level := 0, lease := 0, cmd := 0, asid := 0 }

def Stage.off : Stage := { mode := .off, bytes := [], count := 0, ovf := false, last := none }

def SOrigin.none : SOrigin := { org := Origin.none, patch := .none, ok := true }

def Recording.off : Recording :=
  { state := .off, mould := 0, maddr := 0, epoch := 0, image := Vector.replicate 40 (0, none), guards := []
    pages := [], entries := [], interval := 0, impure := false }

def TaskId.none : TaskId :=
  { uid := 0, node := 0, part := 0, core := 0, helper := false, system := false, resident := false, group := .none
    preempt := false, debug := false, haltReq := false, coord := 0, nodeId := 0, trapr := 0 }

/-- A fresh task (R43, R85, R178): every architected register zero, p0 one. -/
def Task.fresh : Task :=
  { id := TaskId.none, run := .ended, frz := none
    s := Vector.replicate 56 0, p := 1, bs := Vector.replicate 4 Byp.dead
    stg := Vector.replicate 40 0, pc := 0, bidx := 0, seq := 0, flights := [], pend := [], past := [], ran := [], ranAt := 0, hdrs := [], ifence := []
    latch := Latch.reset, trap := TrapRec.reset, stk := Stack.reset, fp := FpRegs.reset, finj := 0
    fac := Vector.replicate 8 Facet.reset
    cnt := { ld := 0, st := 0, cp := 0, tl := 0, kc := 0 }
    kstat := 0, watch := Watch.reset, dtroot := 0, itroot := 0, blocks := Vector.replicate 16 Block.free
    tcp := 0, tkc := 0, wdone := 0, wup := Vector.replicate 5 0, pts := 0, acc := [], sent := [], late := [], cmds := [], eks := [], fences := [], acqs := [], stage := Stage.off
    sorg := vecOf fun i => { args := if 48 ≤ i.val ∧ i.val ≤ 53 then (1 : BitVec 6) <<< (i.val - 48) else 0
                             data := false }
    porg := Vector.replicate 16 Origin.none, storg := Vector.replicate 40 SOrigin.none
    mrec := Recording.off, cast := none, slot := none, kept := 0, told := false }

def Part.off : Part :=
  { inUse := false, clusters := 0, asid := 0, dtroot := 0, itroot := 0, split := false, tper := 0, flen := 0
    kmax := 0, slog := 0, save := 0, saven := 0, frame := 0, tick := 0, stall := false, mepoch := 0
    groups := [], rr := 0, op := .none }

/-- The map of a core with nothing retired: MRP 63, FRET 15 and every LRET 31 (R376, log entry 11). -/
def semapFresh : W64 := 0x3FFFFFFFFFFFF

/-- A core that nothing has used. -/
def Core.fresh (n : Nat) : Core :=
  { num := n, dtlb := [], itlb := [], icache := [], semap := semapFresh, errs := [], rows := [], gen := 1, deque := []
    hdeque := [], tenant := none }

def Mem.reset : Mem :=
  { cells := [], stamps := [], narrow := [], past := [], lines := [], tags := [], poison := [], retired := [], frames := []
    remap := [], seq := 0 }

/-- The physical cluster of each logical one: those that are enabled, but for the spare of each die, in ascending order (R2).
The spare cluster of a die after reset is its physical cluster 12 (PRESUMED, log entry 128). -/
def physOrder (spare : Fin 13) : Vector (Fin 13) 48 :=
  Vector.ofFn fun n : Fin 48 => (((List.finRange 13).filter fun p => p != spare)[n.val % 12]?).getD 0

/-- R237, R238, R277, R327, R368, R374, R383, R385, R388, R391. -/
def DevRegs.reset : DevRegs :=
  { fqbase := Vector.replicate 4 0, mcbase := Vector.replicate 4 0, fwdog := 1000, pttbase := 0, pctl := 0, dbgctl := 0
    kretry := 4, mcwin := 0x305A0, patcfg := 0x280A
    patcap := Vector.replicate 48 (1700, 0), pfbind := Vector.replicate 16 0, quiesce := false, lock := false
    devid := 0, fwsel := 0, fwent := Vector.replicate 128 0, hostLost := false, cLost := false
    spares := Vector.replicate 4 (some 12), phys := physOrder 12, lost := 0 }

def HostRegs.reset : HostRegs :=
  { dmab := Vector.replicate 64 0, dmal := Vector.replicate 64 0, nopart := 0, linkUp := true, msix := [], far := [] }

def Roskan.reset : Roskan :=
  { links := 0xFFFF, resends := Vector.replicate 16 0, keys := [], keyDying := [], meas := Vector.replicate 4 0
    recovery := false, bootStage := 0, staged := none, active := none, events := [], clamp := 0
    hot := Vector.replicate 4 0, copies := [], met := [], time := 0 }

/-- The device right after reset: no partition in use, no node, no task. -/
def State.reset : State :=
  { t := Task.fresh, others := [], nodes := [], launches := [], parts := Vector.replicate 16 Part.off, cores := []
    clusters := [], mem := Mem.reset, colls := [], pmap := [], dev := DevRegs.reset, host := HostRegs.reset
    ros := Roskan.reset, turn := [], fv := 0, nextKey := 1 }

end Sys2Proof.Machine
end

