-- ==== Sys2Proof/Machine/Num.lean ====
section
/-! DEFINITION. Numbers, formats, rounding and conversions (04). Values are exact: a number is a NaN, an infinity
or a dyadic rational. -/

namespace Sys2Proof.Machine

/-- An exact value. `fin neg m e` is (−1)^neg × m × 2^e; a zero keeps its sign. -/
inductive Num where
  | nan
  | inf (neg : Bool)
  | fin (neg : Bool) (m : Nat) (e : Int)
  deriving DecidableEq, Repr

/-- Flags at the positions of R75: SAT 5, NV 4, DZ 3, OF 2, UF 1, NX 0. -/
abbrev Flags := BitVec 6

def fNX : Flags := 1
def fUF : Flags := 2
def fOF : Flags := 4
def fDZ : Flags := 8
def fNV : Flags := 16
def fSAT : Flags := 32

/-- A binary floating-point format (R65). -/
structure FF where
  ew : Nat
  mw : Nat
  bias : Nat
  hasInf : Bool
  deriving DecidableEq, Repr

def fp32 : FF := { ew := 8, mw := 23, bias := 127, hasInf := true }
def bf16 : FF := { ew := 8, mw := 7, bias := 127, hasInf := true }
def fp16 : FF := { ew := 5, mw := 10, bias := 15, hasInf := true }
def e4m3 : FF := { ew := 4, mw := 3, bias := 7, hasInf := false }
def e5m2 : FF := { ew := 5, mw := 2, bias := 15, hasInf := true }

/-- Width in bits. -/
def FF.width (f : FF) : Nat := 1 + f.ew + f.mw

/-- The canonical NaN (R67). -/
def FF.nan (f : FF) : Nat :=
  if f.hasInf then (2 ^ f.ew - 1) * 2 ^ f.mw + 2 ^ (f.mw - 1) else 2 ^ (f.ew + f.mw) - 1

def FF.signBit (f : FF) (neg : Bool) : Nat := if neg then 2 ^ (f.ew + f.mw) else 0

/-- ±∞, in a format that has it. -/
def FF.infBits (f : FF) (neg : Bool) : Nat := f.signBit neg + (2 ^ f.ew - 1) * 2 ^ f.mw

/-- The pattern of the largest finite magnitude (R65). -/
def FF.maxBits (f : FF) (neg : Bool) : Nat :=
  f.signBit neg + (if f.hasInf then (2 ^ f.ew - 1) * 2 ^ f.mw - 1 else 2 ^ (f.ew + f.mw) - 2)

/-- R66. -/
def FF.decode (f : FF) (b : Nat) : Num :=
  let m := b % 2 ^ f.mw
  let e := b / 2 ^ f.mw % 2 ^ f.ew
  let neg := b / 2 ^ (f.ew + f.mw) % 2 == 1
  if f.hasInf && e == 2 ^ f.ew - 1 then (if m = 0 then .inf neg else .nan)
  else if !f.hasInf && e == 2 ^ f.ew - 1 && m == 2 ^ f.mw - 1 then .nan
  else if e = 0 then .fin neg m (1 - (f.bias : Int) - f.mw)
  else .fin neg (2 ^ f.mw + m) ((e : Int) - f.bias - f.mw)

/-- The exponent of the smallest normal value. -/
def FF.emin (f : FF) : Int := 1 - (f.bias : Int)

/-- An exact value, or one strictly between two neighbouring multiples of 2^e: with `sticky`, the magnitude lies
strictly between m × 2^e and (m + 1) × 2^e. -/
structure Ext where
  neg : Bool
  m : Nat
  e : Int
  sticky : Bool
  deriving DecidableEq, Repr

/-- The rounding decisions of R72: to nearest even, toward zero, or stochastic with the generator's new state. -/
inductive RM where
  | near
  | zero
  | stoch (x : W32)
  deriving DecidableEq, Repr

/-- `m × 2^e` as a multiple of 2^q: the rounded multiple, and whether anything was lost. -/
def roundAt (rm : RM) (m : Nat) (e : Int) (sticky : Bool) (q : Int) : Nat × Bool :=
  if q ≤ e then (m * 2 ^ (e - q).toNat, sticky)
  else
    let sh := (q - e).toNat
    let lo := m / 2 ^ sh
    let r := m % 2 ^ sh
    let inexact := r != 0 || sticky
    let up :=
      match rm with
      | .near => 2 ^ (sh - 1) < r || (r == 2 ^ (sh - 1) && (sticky || lo % 2 == 1))
      | .zero => false
      | .stoch x => inexact && x.toNat / 65536 < r * 65536 / 2 ^ sh
    (if up then lo + 1 else lo, inexact)

/-- The pattern of the multiple `r` of 2^q, where `q` is the quantum of its binade or of the subnormals. -/
def FF.pack (f : FF) (neg : Bool) (r : Nat) (q : Int) : Nat :=
  if r < 2 ^ f.mw then f.signBit neg + r
  else
    let (r, q) := if r = 2 ^ (f.mw + 1) then (r / 2, q + 1) else (r, q)
    f.signBit neg + (q + f.mw + f.bias).toNat * 2 ^ f.mw + (r - 2 ^ f.mw)

/-- Whether r × 2^q exceeds the largest finite magnitude. -/
def FF.over (f : FF) (r : Nat) (q : Int) : Bool :=
  match f.decode (f.maxBits false) with
  | .fin _ m e => if q ≤ e then m * 2 ^ (e - q).toNat < r else m < r * 2 ^ (q - e).toNat
  | _ => false

/-- R73: the pattern of an overflowed result. -/
def FF.overflow (f : FF) (rm : RM) (e4nan : Bool) (neg : Bool) : Nat :=
  if f.hasInf then
    match rm with
    | .near => f.infBits neg
    | _ => f.maxBits neg
  else if e4nan then f.nan else f.maxBits neg

/-- One rounding of a value into a format, with its flags (R72, R73). Tininess is read on the value rounded with
an unbounded exponent (log entry 12). -/
def FF.round (f : FF) (rm : RM) (e4nan : Bool) (x : Ext) : Nat × Flags :=
  if x.m = 0 && !x.sticky then (f.signBit x.neg, 0)
  else
    let top : Int := x.e + Nat.log2 x.m
    let qU := if x.m = 0 then x.e else top - f.mw
    let (rU, _) := roundAt rm x.m x.e x.sticky qU
    if f.over rU qU then (f.overflow rm e4nan x.neg, fOF ||| fNX)
    else
      let q := max qU (f.emin - f.mw)
      let (r, inexact) := roundAt rm x.m x.e x.sticky q
      -- rU × 2^qU below 2^emin
      let tiny := if qU ≤ f.emin then rU < 2 ^ (f.emin - qU).toNat else false
      (f.pack x.neg r q, (if inexact then fNX else 0) ||| (if tiny && inexact then fUF else 0))

/-- The rounding of an exact value that may be special: an infinity stays one, or overflows where the format has
none (R77). -/
def FF.ofNum (f : FF) (rm : RM) (e4nan : Bool) : Num → Nat × Flags
  | .nan => (f.nan, 0)
  | .inf neg => if f.hasInf then (f.infBits neg, 0) else (f.overflow rm e4nan neg, fOF ||| fNX)
  | .fin neg m e => f.round rm e4nan { neg := neg, m := m, e := e, sticky := false }

/-! Exact arithmetic. -/

def Num.neg : Num → Num
  | .nan => .nan
  | .inf s => .inf (!s)
  | .fin s m e => .fin (!s) m e

/-- The signed multiple of 2^q that a finite value is, for q at most its exponent. -/
def scaled (neg : Bool) (m : Nat) (e q : Int) : Int :=
  let a : Int := (m * 2 ^ (e - q).toNat : Nat)
  if neg then -a else a

/-- x + y exactly, with NV for a difference of like infinities. A sum that is exactly zero is +0 unless both
operands are negative zeros. -/
def Num.add (x y : Num) : Num × Flags :=
  match x, y with
  | .nan, _ | _, .nan => (.nan, 0)
  | .inf a, .inf b => if a = b then (.inf a, 0) else (.nan, fNV)
  | .inf a, .fin .. => (.inf a, 0)
  | .fin .., .inf b => (.inf b, 0)
  | .fin s m e, .fin s' m' e' =>
    let q := min e e'
    let v := scaled s m e q + scaled s' m' e' q
    if v = 0 then (.fin (s && s') 0 q, 0) else (.fin (v < 0) v.natAbs q, 0)

/-- x × y exactly, with NV for a product of zero and an infinity. -/
def Num.mul (x y : Num) : Num × Flags :=
  match x, y with
  | .nan, _ | _, .nan => (.nan, 0)
  | .inf a, .inf b => (.inf (a != b), 0)
  | .inf a, .fin s m _ | .fin s m _, .inf a => if m = 0 then (.nan, fNV) else (.inf (a != s), 0)
  | .fin s m e, .fin s' m' e' => (.fin (s != s') (m * m') (e + e'), 0)

def Num.isNan : Num → Bool
  | .nan => true
  | _ => false

def Num.isZero : Num → Bool
  | .fin _ 0 _ => true
  | _ => false

/-- A comparison of values that are not NaN: the sign of x − y; zeros of either sign are equal. -/
def Num.cmp (x y : Num) : Int :=
  match x, y with
  | .inf a, .inf b => if a = b then 0 else if a then -1 else 1
  | .inf a, _ => if a then -1 else 1
  | _, .inf b => if b then 1 else -1
  | .fin s m e, .fin s' m' e' => (scaled s m e (min e e') - scaled s' m' e' (min e e')).sign
  | .nan, _ | _, .nan => 0

/-! FP32 operations on patterns, rounded once to nearest (R72). -/

def dec32 (x : W32) : Num := fp32.decode x.toNat

def nan32 : W32 := 0x7FC00000

def rnd32 (x : Num) : W32 × Flags :=
  let (b, f) := fp32.ofNum .near false x
  (BitVec.ofNat 32 b, f)

/-- An exact result with the flags it already raised, rounded. -/
def fin32 (r : Num × Flags) : W32 × Flags :=
  let (b, f) := rnd32 r.1
  (b, r.2 ||| f)

def numAdd (x y : Num) : W32 × Flags := fin32 (x.add y)
def numSub (x y : Num) : W32 × Flags := fin32 (x.add y.neg)
def numMul (x y : Num) : W32 × Flags := fin32 (x.mul y)

/-- x × y + w with one rounding. 0 × ∞ raises NV even when w is a NaN (R184). -/
def numFma (x y w : Num) : W32 × Flags :=
  let (p, f) := x.mul y
  let (s, g) := p.add w
  fin32 (s, f ||| g)

/-- w − x × y (R184). -/
def numFms (x y w : Num) : W32 × Flags :=
  let (p, f) := x.mul y
  let (s, g) := w.add p.neg
  fin32 (s, f ||| g)

/-- The greater, with −0 below +0; a NaN operand gives the NaN and no flag (R105). -/
def Num.pick (gt : Bool) (x y : Num) : Num :=
  if x.isNan || y.isNan then .nan
  else
    let c := x.cmp y
    if c = 0 then
      match x with
      | .fin s 0 _ => if s == gt then y else x
      | _ => x
    else if (0 < c) == gt then x else y

def numMax (x y : Num) : W32 × Flags := rnd32 (x.pick true y)
def numMin (x y : Num) : W32 × Flags := rnd32 (x.pick false y)

/-! Reciprocal, reciprocal square root, logarithm and exponential (R106, R107, R186). -/

/-- 1 / x, with enough bits below the rounding position. -/
def numRcp (x : Num) : W32 × Flags :=
  match x with
  | .nan => (nan32, 0)
  | .inf s => (BitVec.ofNat 32 (fp32.signBit s), 0)
  | .fin s m e =>
    if m = 0 then (BitVec.ofNat 32 (fp32.infBits s), fDZ)
    else
      let k := Nat.log2 m + 40
      let (b, f) := fp32.round .near false
        { neg := s, m := 2 ^ k / m, e := -(k : Int) - e, sticky := 2 ^ k % m != 0 }
      (BitVec.ofNat 32 b, f)

/-- The integer square root, bit by bit from bit `k` of the root down. -/
def isqrtGo (n : Nat) : Nat → Nat → Nat
  | 0, r => r
  | k + 1, r =>
    let r' := r + 2 ^ k
    isqrtGo n k (if r' * r' ≤ n then r' else r)

def isqrt (n : Nat) : Nat := isqrtGo n (Nat.log2 n / 2 + 1) 0

/-- 1 / √x. -/
def numRsqrt (x : Num) : W32 × Flags :=
  match x with
  | .nan => (nan32, 0)
  | .inf s => if s then (nan32, fNV) else (0, 0)
  | .fin s m e =>
    if m = 0 then (BitVec.ofNat 32 (fp32.infBits s), fDZ)
    else if s then (nan32, fNV)
    else
      let (m', e') := if e % 2 = 0 then (m, e) else (2 * m, e - 1)
      let k := Nat.log2 m' / 2 + 45
      let n := 2 ^ (2 * k) / m'
      let r := isqrt n
      let exact := 2 ^ (2 * k) % m' == 0 && r * r == n
      let (b, f) := fp32.round .near false { neg := false, m := r, e := -(k : Int) - e' / 2, sticky := !exact }
      (BitVec.ofNat 32 b, f)

/-- Bits of a logarithm by repeated squaring: the last bounds, the bits, and whether they are all decided. -/
def log2Step (p lo hi acc : Nat) : Nat → Nat × Nat × Nat × Bool
  | 0 => (lo, hi, acc, true)
  | n + 1 =>
    -- lo, hi bound the value in [1, 2) with p fraction bits; squared, they give the next bit
    let lo2 := lo * lo / 2 ^ p
    let hi2 := hi * hi / 2 ^ p + 1
    if 2 ^ (p + 1) ≤ lo2 then log2Step p (lo2 / 2) (hi2 / 2 + 1) (2 * acc + 1) n
    else if hi2 < 2 ^ (p + 1) then log2Step p lo2 hi2 (2 * acc) n
    else (lo2, hi2, acc, false)

/-- The first `n` bits of the fraction of log2 of f / 2^p, for f in (2^p, 2^(p+1)), when `p` bits decide them. -/
def log2Bits (p f n : Nat) : Option Nat :=
  let (_, _, acc, ok) := log2Step p f f 0 n
  if ok then some acc else none

/-- Both ends of an interval round alike, or none. The value lies strictly between v and v + 1 units of 2^e. -/
def agree (neg : Bool) (v : Nat) (e : Int) : Option (Nat × Flags) :=
  let a := fp32.round .near false { neg := neg, m := 16 * v, e := e - 4, sticky := true }
  let b := fp32.round .near false { neg := neg, m := 16 * v + 15, e := e - 4, sticky := true }
  if a = b then some a else none

/-- log2 of 2^E × (f / 2^23), f not a power of two, in rounds of growing precision. -/
def log2Go (E : Int) (f : Nat) : Nat → Nat → Option (Nat × Flags)
  | 0, _ => none
  | fuel + 1, n =>
    let p := 2 * n + 16
    let next := log2Go E f fuel (n + 24)
    match log2Bits p (f * 2 ^ (p - 23)) n with
    | none => next
    | some bits =>
      let lo : Int := E * (2 ^ n : Nat) + bits
      let r := if 0 ≤ lo then agree false lo.toNat (-(n : Int)) else agree true (-lo - 1).toNat (-(n : Int))
      match r with
      | some x => some x
      | none => next

/-- log2 of 2^E × (f / 2^23), f not a power of two, from its first 64 fraction bits: 2^64 × log2 f lies between
`Nat.log2 (f ^ 2 ^ 64)` and the next integer, and is neither of them. -/
def log2Exact (E : Int) (f : Nat) : Nat × Flags :=
  let v : Int := (E - 23) * (2 ^ 64 : Nat) + Nat.log2 (f ^ 2 ^ 64)
  fp32.round .near false { neg := v < 0, m := if v < 0 then (-v - 1).toNat else v.toNat, e := -64, sticky := true }

/-- log2 a (R186). The rounds of growing precision only shorten the way to the value that `log2Exact` states (log
entry 7). -/
def numLog2 (x : Num) : W32 × Flags :=
  match x with
  | .nan => (nan32, 0)
  | .inf s => if s then (nan32, fNV) else (0x7F800000, 0)
  | .fin s m e =>
    if m = 0 then (0xFF800000, fDZ)
    else if s then (nan32, fNV)
    else
      let l := Nat.log2 m
      let E : Int := e + l
      if m = 2 ^ l then rnd32 (.fin (E < 0) E.natAbs 0)
      else
        let f := m * 2 ^ 23 / 2 ^ l
        let (b, fl) := match log2Go E f Config.transRounds 64 with
          | some r => r
          | none => log2Exact E f
        (BitVec.ofNat 32 b, fl)

/-- 2^(F / 2^p) between bounds with p fraction bits, from the square roots of 2: `r` bounds 2^(2^-i). -/
def exp2Go (p : Nat) (bits : Nat) : Nat → Nat → Nat → Nat → Nat → Nat × Nat
  | 0, _, _, lo, hi => (lo, hi)
  | n + 1, rlo, rhi, lo, hi =>
    let rlo' := isqrt (rlo * 2 ^ p)
    let rhi' := isqrt (rhi * 2 ^ p) + 1
    if bits / 2 ^ n % 2 = 1 then exp2Go p bits n rlo' rhi' (lo * rlo' / 2 ^ p) (hi * rhi' / 2 ^ p + 1)
    else exp2Go p bits n rlo' rhi' lo hi

/-- 2^t for t = I + F, F not zero, in rounds of growing precision; `fm`, `fe` give F = fm × 2^fe. -/
def exp2Rounds (I : Int) (fm : Nat) (fe : Int) : Nat → Nat → Option (Nat × Flags)
  | 0, _ => none
  | fuel + 1, p =>
    -- F cut to p bits, and whether it is exact
    let sh := (-fe).toNat
    let cut := if sh ≤ p then fm * 2 ^ (p - sh) else fm / 2 ^ (sh - p)
    let exact := sh ≤ p || fm % 2 ^ (sh - p) == 0
    let (lo, hi) := exp2Go p cut p (2 ^ (p + 1)) (2 ^ (p + 1)) (2 ^ p) (2 ^ p)
    -- 2^(2^-p) is below 1 + 2^-p, so an inexact cut adds at most two units
    let hi := if exact then hi else hi + 4
    let a := fp32.round .near false { neg := false, m := 2 * lo, e := I - p - 1, sticky := true }
    let b := fp32.round .near false { neg := false, m := 2 * hi + 1, e := I - p - 1, sticky := true }
    if a = b then some a else exp2Rounds I fm fe fuel (p + 32)

/-- The integer square root taken `n` times over. -/
def isqrtN : Nat → Nat → Nat
  | 0, x => x
  | n + 1, x => isqrtN n (isqrt x)

/-- 2^(I + fm × 2^fe), 0 < fm × 2^fe < 1, from its first 26 fraction bits: with sh = −fe, 2^26 × 2^(fm / 2^sh) is the
2^sh-th root of 2^(26 × 2^sh + fm), which is no integer. -/
def exp2Exact (I : Int) (fm : Nat) (fe : Int) : Nat × Flags :=
  let sh := (-fe).toNat
  fp32.round .near false { neg := false, m := isqrtN sh (2 ^ (26 * 2 ^ sh + fm)), e := I - 26, sticky := true }

/-- 2^t rounded once to FP32, for an exact finite t (R106). The rounds of growing precision only shorten the way to
the value that `exp2Exact` states (log entry 7). That UF is raised for a tiny result only when it is inexact is R106's
own pointer to R72 (DEDUCED, log entry 12). -/
def numExp2Fin (neg : Bool) (m : Nat) (e : Int) : W32 × Flags :=
  if m = 0 then (0x3F800000, 0)
  else if 0 ≤ e || m % 2 ^ (-e).toNat = 0 then
    -- an integer: exact, unless out of range
    let k : Int := if 0 ≤ e then (if 16 ≤ e + Nat.log2 m then 65536 else (m * 2 ^ e.toNat : Nat)) else (m / 2 ^ (-e).toNat : Nat)
    let k := if neg then -k else k
    if 128 ≤ k then (0x7F800000, fOF ||| fNX)
    else if k < -200 then (0, fUF ||| fNX)
    else rnd32 (.fin false 1 k)
  else if 10 ≤ e + Nat.log2 m then (if neg then (0, fUF ||| fNX) else (0x7F800000, fOF ||| fNX))
  else
    let d := 2 ^ (-e).toNat
    let I : Int := if neg then -((m / d : Nat) : Int) - 1 else (m / d : Nat)
    let fm := if neg then d - m % d else m % d
    let (b, fl) := match exp2Rounds I fm e Config.transRounds 48 with
      | some r => r
      | none => exp2Exact I fm e
    (BitVec.ofNat 32 b, fl)

/-- (x − m) × c exactly, then 2 to that power (R106). -/
def numExp2 (x m c : Num) : W32 × Flags :=
  if x.isNan || m.isNan || c.isNan then (nan32, 0)
  else
    let (d, f) := x.add m.neg
    if d.isNan then (nan32, f)
    else
      let (t, g) := d.mul c
      match t with
      | .nan => (nan32, g)
      | .inf s => (if s then 0 else 0x7F800000, 0)
      | .fin s k e => numExp2Fin s k e

/-! Conversions (R77, R78). -/

/-- A floating value to an integer of `w` bits: the pattern and its flags. -/
def toInt (w : Nat) (rm : RM) (x : Num) : Nat × Flags :=
  let enc (v : Int) : Nat := (v % (2 ^ w : Nat)).toNat
  let lim (neg : Bool) : Int := if neg then -(2 ^ (w - 1) : Nat) else (2 ^ (w - 1) : Nat) - 1
  match x with
  | .nan => (0, fNV)
  | .inf s => (enc (lim s), fNV ||| fSAT)
  | .fin s m e =>
    let (r, inexact) := roundAt rm m e false 0
    let v : Int := if s then -(r : Int) else r
    if v < lim true || lim false < v then (enc (lim s), fSAT) else (enc v, if inexact then fNX else 0)

def ofInt (v : Int) : Num := .fin (v < 0) v.natAbs 0

/-- An integer to an integer of `w` bits, saturating (R78). -/
def satInt (w : Nat) (v : Int) : Nat × Flags :=
  let lo : Int := -(2 ^ (w - 1) : Nat)
  let hi : Int := (2 ^ (w - 1) : Nat) - 1
  let c := max lo (min hi v)
  ((c % (2 ^ w : Nat)).toNat, if c = v then 0 else fSAT)

end Sys2Proof.Machine

namespace Sys2Proof

/-! The formats of tiles and pages (R63). -/

def Fmt.width : Fmt → Nat
  | .fp32 | .int32 => 32
  | .bf16 | .fp16 => 16
  | .e4m3 | .e5m2 | .int8 => 8
  | .e2m1b32 | .e2m1b16 => 4

/-- The floating formats that are not blocked. -/
def Fmt.ff : Fmt → Option Machine.FF
  | .fp32 => some Machine.fp32
  | .bf16 => some Machine.bf16
  | .fp16 => some Machine.fp16
  | .e4m3 => some Machine.e4m3
  | .e5m2 => some Machine.e5m2
  | _ => none

def Fmt.isInt : Fmt → Bool
  | .int8 | .int32 => true
  | _ => false

/-- The alignment unit of a transfer (R90). -/
def Fmt.size (f : Fmt) : Nat := if f.blocked then 2 else f.width / 8

/-- The bytes of a row of `cols` elements (R90). -/
def Fmt.rowBytes (f : Fmt) (cols : Nat) : Nat :=
  if f.blocked then cols / f.blk * (2 + f.blk / 2) else cols * f.width / 8

end Sys2Proof

namespace Sys2Proof.Machine

/-- A little-endian number. -/
def leNat : List Byte → Nat
  | [] => 0
  | b :: bs => b.toNat + 256 * leNat bs

/-- The `n` low bytes of a number, little-endian. -/
def leBytes : Nat → Nat → List Byte
  | 0, _ => []
  | n + 1, x => BitVec.ofNat 8 x :: leBytes n (x / 256)

/-- A list cut into pieces of `k` elements, at most `n` of them. -/
def chunksOf {α : Type} (k : Nat) : Nat → List α → List (List α)
  | 0, _ => []
  | n + 1, l => if l.isEmpty then [] else l.take k :: chunksOf k n (l.drop k)

/-- The elements of a row of a format that is not blocked, as patterns (R64). -/
def rowElems (f : Fmt) (row : List Byte) : List Nat := (chunksOf (f.width / 8) row.length row).map leNat

def rowOfElems (f : Fmt) (l : List Nat) : List Byte := l.flatMap fun x => leBytes (f.width / 8) x

/-- A signed value from its `w` low bits. -/
def toSigned (w x : Nat) : Int :=
  let x := x % 2 ^ w
  if x < 2 ^ (w - 1) then x else (x : Int) - (2 ^ w : Nat)

/-- The magnitude of a code of R70, in halves. -/
def e2m1Half : Nat → Nat
  | 0 => 0 | 1 => 1 | 2 => 2 | 3 => 3 | 4 => 4 | 5 => 6 | 6 => 8 | _ => 12

/-- The values of a block of `L` elements from its bytes (R69, R71). DEDUCED, log entry 72: where X holds 0x80, code
0b1000 reads as −0, as R71's product of X gives it. -/
def blockNums (L : Nat) (b : List Byte) : List Num :=
  let hdr := leNat (b.take 2)
  let scale := hdr / 256
  let x := e4m3.decode (hdr % 256)
  let code (j : Nat) : Nat := (b.getD (2 + j / 2) 0).toNat / (if j % 2 = 0 then 1 else 16) % 16
  (List.range L).map fun j =>
    if scale = 255 then .nan
    else if code j = 8 then (x.mul (.fin false 1 ((scale : Int) - 127))).1
    else .fin (code j / 8 == 1 && code j % 8 != 0) (e2m1Half (code j % 8)) ((scale : Int) - 128)

/-- The exact values of a row in any format (R66, R68, R71). -/
def rowNums (f : Fmt) (row : List Byte) : List Num :=
  match f.ff with
  | some g => (rowElems f row).map g.decode
  | none =>
    if f.blocked then (chunksOf (2 + f.blk / 2) row.length row).flatMap (blockNums f.blk)
    else (rowElems f row).map fun x => ofInt (toSigned f.width x)

/-- One conversion of an exact value into a format that is not blocked. `srcInt` says that the source is an
integer (R77, R78). -/
def convert1 (srcInt : Bool) (dst : Fmt) (rm : RM) (e4nan : Bool) (x : Num) : Nat × Flags :=
  match dst.ff with
  | some g => g.ofNum rm e4nan x
  | none =>
    if srcInt then
      match x with
      | .fin s m e => satInt dst.width (let v : Int := (m * 2 ^ e.toNat : Nat); if s then -v else v)
      | _ => (0, 0)
    else toInt dst.width rm x

/-! Stochastic generators (R74). -/

def genStep (x : W32) : W32 :=
  let x := x ^^^ (x <<< 13)
  let x := x ^^^ (x >>> 17)
  x ^^^ (x <<< 5)

/-- One step of generator `i` of a list: its new state and the list. -/
def stepGen (gens : List W32) (i : Nat) : W32 × List W32 :=
  let x := genStep (gens.getD i 1)
  (x, gens.set i x)

/-- The rounding mode of a conversion: mode code 0 to 2 with the generator's new state (R72). -/
def rmOf (mode : Nat) (x : W32) : RM :=
  match mode with
  | 0 => .near
  | 1 => .zero
  | _ => .stoch x

/-! Conversion into a blocked format (R79). -/

/-- floor(log2 |v|) of a finite value that is not zero. -/
def Num.floorLog (x : Num) : Int :=
  match x with
  | .fin _ m e => e + Nat.log2 m
  | _ => 0

/-- The magnitude of v / 2^k rounded to nearest into the values of R70 with an unbounded exponent, in halves.
The grid is 0, 0.5, 1, 1.5, 2, 3, then two mantissa bits' worth of one bit each above. -/
def e2m1Near (x : Num) (k : Int) (rm : RM) : Nat × Bool :=
  match x with
  | .fin _ m e =>
    let q : Int := max (-1) ((e - k) + Nat.log2 m - 1)
    let (r, inexact) := if m = 0 then (0, false) else roundAt rm m (e - k) false q
    (r * 2 ^ (q + 1).toNat, inexact)
  | _ => (0, false)

/-- The code of a magnitude in halves, clamped to 6 (R70). -/
def e2m1Code (h : Nat) : Nat :=
  if h ≤ 4 then h else if h ≤ 6 then 5 else if h ≤ 8 then 6 else 7

/-- A block: its bytes, flags and underflow count. `mode` and `gens` drive the stored elements; `gi` names the
generator of each element, or none where it steps none. X is rounded into E4M3, overflow included, under `e4nan`
(R73, R79). -/
def packBlock (L : Nat) (mode : Nat) (e4nan : Bool) (thresh : Nat) (vs : List Num) (gi : List (Option Nat)) (gens : List W32) :
    List Byte × Flags × Nat × List W32 :=
  let codesToBytes (hdr : Nat) (cs : List Nat) : List Byte :=
    leBytes 2 hdr ++ (chunksOf 2 L cs).map fun p => BitVec.ofNat 8 (p.getD 0 0 + 16 * p.getD 1 0)
  let zeros := List.replicate L 0
  -- every element steps its generator once in the stochastic mode (R74)
  let (xs, gens') := gi.foldl (fun (acc : List W32 × List W32) g =>
    match g with
    | some i => if mode = 2 then let (x, gs) := stepGen acc.2 i; (acc.1 ++ [x], gs) else (acc.1 ++ [0], acc.2)
    | none => (acc.1 ++ [0], acc.2)) ([], gens)
  if vs.any (fun v => match v with | .fin .. => false | _ => true) then
    (codesToBytes 0xFF00 zeros, fNV, 0, gens')
  else if vs.all (·.isZero) then (codesToBytes 0x7F00 zeros, 0, 0, gens')
  else
    let top := vs.foldl (fun a v => if v.isZero then a else max a v.floorLog) (-100000)
    let s0 : Int := max 0 (min 254 (top - 2 + 127))
    let u (s : Int) : Nat := (vs.filter fun v => !v.isZero && (e2m1Near v (s - 127) .near).1 == 0).length
    let ovf (s : Int) : List Nat := (List.range vs.length).filter fun i =>
      12 < (e2m1Near (vs.getD i .nan) (s - 127) .near).1
    let use := 1 ≤ s0 && (ovf (s0 - 1)).length == 1 && u (s0 - 1) + thresh ≤ u s0
    let s := if use then s0 - 1 else s0
    let xi : Option Nat := if use then (ovf s).head? else none
    let neg (v : Num) : Bool := match v with | .fin sg _ _ => sg | _ => false
    let el (i : Nat) : Nat × Bool :=
      let v := vs.getD i .nan
      let rm := rmOf mode (xs.getD i 0)
      let (h, inexact) := e2m1Near v (s - 127) rm
      let c := e2m1Code h
      (if c = 0 then 0 else c + (if neg v then 8 else 0), inexact || 12 < h)
    let codes := (List.range L).map fun i => if xi = some i then (8, false) else el i
    let (xb, xf) : Nat × Flags :=
      match xi with
      | none => (0, 0)
      | some i =>
        match vs.getD i .nan with
        | .fin sg m e => e4m3.round (rmOf mode (xs.getD i 0)) e4nan { neg := sg, m := m, e := e - (s - 127), sticky := false }
        | _ => (0, 0)
    let inexact := codes.any (·.2) || (xf &&& fNX) != 0
    (codesToBytes (s.toNat * 256 + xb) (codes.map (·.1)), (if inexact then fNX else 0) ||| (xf &&& fOF), u s, gens')

/-- A row converted to a format: bytes, flags, underflow count and generators. `base` is the index i × C of the
row's first element among its tile's elements (R74). -/
def convertRow (src dst : Fmt) (mode : Nat) (e4nan : Bool) (thresh : Nat) (base : Nat) (row : List Byte)
    (gens : List W32) : List Byte × Flags × Nat × List W32 :=
  let vs := rowNums src row
  if dst.blocked then
    (chunksOf dst.blk vs.length vs).zipIdx.foldl (fun (acc : List Byte × Flags × Nat × List W32) c =>
      let gi := (List.range dst.blk).map fun j => some ((base + c.2 * dst.blk + j) % 128)
      let (b, f, n, gs) := packBlock dst.blk mode e4nan thresh c.1 gi acc.2.2.2
      (acc.1 ++ b, acc.2.1 ||| f, acc.2.2.1 + n, gs)) ([], 0, 0, gens)
  else
    let (es, f, gs) := vs.zipIdx.foldl (fun (acc : List Nat × Flags × List W32) v =>
      let (x, gs) := if mode = 2 then stepGen acc.2.2 ((base + v.2) % 128) else (0, acc.2.2)
      let (b, f) := convert1 src.isInt dst (rmOf mode x) e4nan v.1
      (b :: acc.1, acc.2.1 ||| f, gs)) ([], 0, gens)
    (rowOfElems dst es.reverse, f, 0, gs)

/-! Exact sums of products (R81, R82, R195). -/

/-- The exact sum of a chunk's terms under the special-value rules of R81. Terms that include both infinities raise NV
whether or not one of them is a NaN: DEDUCED, log entry 73. -/
def chunkSum (terms : List (Num × Flags)) : Num × Flags :=
  let p := terms.any fun t => t.1 == .inf false
  let n := terms.any fun t => t.1 == .inf true
  let fl := terms.foldl (fun a t => a ||| t.2) (if p && n then fNV else 0)
  if terms.any (·.1.isNan) || (p && n) then (.nan, fl)
  else
    if p then (.inf false, fl)
    else if n then (.inf true, fl)
    else
      let s := terms.foldl (fun (a : Num) t => (a.add t.1).1) (.fin false 0 0)
      -- an exact zero sum gives +0
      (if s.isZero then .fin false 0 0 else s, fl)

/-- Terms of a dot product. -/
def prods (a b : List Num) : List (Num × Flags) := List.zipWith Num.mul a b

end Sys2Proof.Machine
end

