-- ==== Sys2Proof/Machine/DistMath.lean ====
section
/-! DEFINITION. The arithmetic of distribution lanes (18, 19): order, condensation, pairing, mixing, conditioning
and moments. A lane is handled as its list of non-empty points. -/

namespace Sys2Proof.Machine

/-- The place of a value in the total order of R341: −∞, finite values with −0 below +0, +∞, then every NaN. -/
def ordKey (x : W32) : Nat :=
  let b := x.toNat
  if (dec32 x).isNan then 0x100000000
  else if b < 0x80000000 then 0x80000000 + b
  else 0xFFFFFFFF - b

/-- Stable insertion by `ordKey`. -/
def insertPt (p : W32 × Nat) : List (W32 × Nat) → List (W32 × Nat)
  | [] => [p]
  | q :: l => if ordKey p.1 < ordKey q.1 then p :: q :: l else q :: insertPt p l

/-- The points sorted stably: later points stand after equal earlier ones. -/
def sortPts (l : List (W32 × Nat)) : List (W32 × Nat) := l.foldl (fun acc p => insertPt p acc) []

/-- Each run of identical bit patterns merged into its first point. -/
def mergeRuns : List (W32 × Nat) → List (W32 × Nat)
  | [] => []
  | p :: l =>
    match mergeRuns l with
    | [] => [p]
    | q :: r => if p.1 = q.1 then (p.1, p.2 + q.2) :: r else p :: q :: r

def ptsOf (l : DLane) : List (W32 × Nat) :=
  (l.toList.map fun p => (p.val, p.wt.toNat)).filter fun p => p.2 != 0

/-- Points padded with empty ones (R341). -/
def laneOf (l : List (W32 × Nat)) : DLane :=
  vecOf fun i => match l[i.val]? with
    | some (v, w) => { val := v, wt := BitVec.ofNat 16 w }
    | none => Point.zero

def voidLane : DLane := Vector.replicate 8 Point.zero

def sumW (l : List (W32 × Nat)) : Nat := (l.map (·.2)).foldl (· + ·) 0

/-- The index of the largest weight, the lowest among equals. -/
def heaviest (l : List (W32 × Nat)) : Nat :=
  (l.zipIdx.foldl (fun (b : Nat × Nat) p => if b.1 < p.1.2 then (p.1.2, p.2) else b) (0, 0)).2

/-- The weights made to sum to 0x8000 at the heaviest point. -/
def restore (l : List (W32 × Nat)) : List (W32 × Nat) :=
  let h := heaviest l
  let s := sumW l
  l.zipIdx.map fun p => if p.2 = h then (p.1.1, p.1.2 + 0x8000 - s) else p.1

/-- The portions of the interval [lo, hi) in ascending order: value and share. -/
def portions (lo hi : Nat) : Nat → List (W32 × Nat) → List (W32 × Nat)
  | _, [] => []
  | at_, (v, w) :: l =>
    let a := max lo at_
    let b := min hi (at_ + w)
    if a < b then (v, b - a) :: portions lo hi (at_ + w) l else portions lo hi (at_ + w) l

/-- A point of a result: a NaN is the canonical one (R67), once runs of identical patterns are merged. -/
def canonPt (p : W32 × Nat) : W32 × Nat := (if (dec32 p.1).isNan then nan32 else p.1, p.2)

/-- R339, R350. The runs are merged on the patterns as they come, and a NaN that stays is made canonical after that
(DEDUCED, log entry 74). -/
def condense (p : List (W32 × Nat)) : DLane × Flags :=
  let p := p.filter fun x => x.2 != 0
  if p.isEmpty then (voidLane, 0)
  else
    let p := restore (mergeRuns (sortPts p))
    if p.length ≤ 8 then (laneOf (p.map canonPt), 0)
    else
      let bins := (List.range 8).map fun b =>
        (portions (b * 0x1000) ((b + 1) * 0x1000) 0 p).foldl (fun (acc : Option W32 × Flags) e =>
          let (t, f) := numMul (dec32 e.1) (.fin false e.2 (-12))
          match acc.1 with
          | none => (some t, acc.2 ||| f)
          | some v =>
            let (s, g) := numAdd (dec32 v) (dec32 t)
            (some s, acc.2 ||| f ||| g)) (none, 0)
      (laneOf (bins.map fun b => (b.1.getD 0, 0x1000)), bins.foldl (fun a b => a ||| b.2) 0)

/-- A UQ2.30 product to UQ1.15, to nearest, ties to even (R349). -/
def round15 (x : Nat) : Nat := (roundAt .near x 0 false 15).1

/-- The pairings of R349. -/
inductive PairOp where
  | add | sub | mul | min | max
  deriving DecidableEq, Repr

def PairOp.run : PairOp → Num → Num → W32 × Flags
  | .add => numAdd
  | .sub => numSub
  | .mul => numMul
  | .min => numMin
  | .max => numMax

inductive PairCase where
  | independent | indexed | approximated
  deriving DecidableEq, Repr

def pairCase (a b : DReg) : PairCase :=
  if a.mask &&& b.mask = 0 then .independent
  else if a.mask = b.mask && a.aligned && b.aligned then .indexed
  else .approximated

/-- One lane of a pairing (R349). -/
def pairLane (op : PairOp) (c : PairCase) (a b : DLane) : DLane × Flags :=
  if (ptsOf a).isEmpty || (ptsOf b).isEmpty then (voidLane, 0)
  else
    let one (x y : W32) (w : Nat) : (W32 × Nat) × Flags :=
      let (v, f) := op.run (dec32 x) (dec32 y)
      ((v, w), f)
    let ps : List ((W32 × Nat) × Flags) :=
      match c with
      | .indexed =>
        (List.zip a.toList b.toList).filterMap fun (p, q) =>
          if p.wt = 0 || q.wt = 0 then none else some (one p.val q.val p.wt.toNat)
      | _ => (ptsOf a).flatMap fun p => (ptsOf b).map fun q => one p.1 q.1 (round15 (p.2 * q.2))
    let (l, f) := condense (ps.map (·.1))
    (l, ps.foldl (fun acc p => acc ||| p.2) f)

/-- DAFF on one lane (R352). -/
def affLane (a : DLane) (x y : W32) : DLane × Flags :=
  let lt0 : Bool := match dec32 x with
    | .nan => false
    | n => n.cmp (.fin false 0 0) < 0
  if lt0 then (voidLane, fNV)
  else
    let ps := (ptsOf a).map fun p => (numFma (dec32 x) (dec32 p.1) (dec32 y), p.2)
    let pts := ps.map fun p => (p.1.1, p.2)
    let nan (p : W32 × Nat) : Bool := (dec32 p.1).isNan
    (laneOf (pts.filter (fun p => !nan p) ++ pts.filter nan), ps.foldl (fun acc p => acc ||| p.1.2) 0)

/-- DMIX on one lane (R353). -/
def mixLane (a b : DLane) (w : Nat) : DLane × Flags :=
  if 0x8000 < w then (voidLane, fNV)
  else
    condense ((ptsOf a).map (fun p => (p.1, round15 (w * p.2))) ++
      (ptsOf b).map (fun p => (p.1, round15 ((0x8000 - w) * p.2))))

/-- DCND on one lane (R354). -/
def cndLane (a : DLane) (lo hi : W32) : DLane × Flags :=
  let l := dec32 lo
  let h := dec32 hi
  if l.isNan || h.isNan then (voidLane, fNV)
  else
    let k := (ptsOf a).filter fun p =>
      let v := dec32 p.1
      !v.isNan && l.cmp v ≤ 0 && v.cmp h ≤ 0
    let s := sumW k
    if s = 0 then (voidLane, fNV)
    else
      let rnd (x : Nat) : Nat :=
        let q := x / s
        let r := x % s
        if s < 2 * r || (s = 2 * r && q % 2 = 1) then q + 1 else q
      (laneOf (restore (k.map fun p => (p.1, rnd (p.2 * 0x8000)))), 0)

/-- A rounded running sum: first term, then one rounding for each addition. -/
def sumRnd (l : List (W32 × Flags)) : W32 × Flags :=
  match l with
  | [] => (0, 0)
  | x :: r => r.foldl (fun acc t =>
      let (s, f) := numAdd (dec32 acc.1) (dec32 t.1)
      (s, acc.2 ||| t.2 ||| f)) x

/-- DMOM on one lane (R355): mean and second to fourth central moments. -/
def momLane (a : DLane) : List W32 × Flags :=
  let ps := ptsOf a
  if ps.isEmpty then ([nan32, nan32, nan32, nan32], fNV)
  else
    let w (p : W32 × Nat) : Num := .fin false p.2 (-15)
    let (m, f0) := sumRnd (ps.map fun p => numMul (dec32 p.1) (w p))
    let rows := ps.map fun p =>
      let (d, f1) := numSub (dec32 p.1) (dec32 m)
      let (s, f2) := numMul (dec32 d) (dec32 d)
      let (c, f3) := numMul (dec32 s) (dec32 d)
      let (q, f4) := numMul (dec32 s) (dec32 s)
      (numMul (dec32 s) (w p), numMul (dec32 c) (w p), numMul (dec32 q) (w p), f1 ||| f2 ||| f3 ||| f4)
    let (m2, g2) := sumRnd (rows.map fun r => r.1)
    let (m3, g3) := sumRnd (rows.map fun r => r.2.1)
    let (m4, g4) := sumRnd (rows.map fun r => r.2.2.1)
    ([m, m2, m3, m4], rows.foldl (fun acc r => acc ||| r.2.2.2) (f0 ||| g2 ||| g3 ||| g4))

/-- The first point whose cumulative weight reaches `p`. -/
def reach (p : Nat) : Nat → List (W32 × Nat) → Option W32
  | _, [] => none
  | c, (v, w) :: l => if p ≤ c + w then some v else reach p (c + w) l

/-- DQNT on one lane (R356). -/
def qntLane (a : DLane) (p : Nat) : W32 × Flags :=
  if 0x8000 < p then (nan32, fNV)
  else
    match reach p 0 (ptsOf a) with
    | some v => (v, 0)
    | none => (nan32, fNV)

/-- DCDF on one lane (R357). -/
def cdfLane (a : DLane) (x : W32) : W32 × Flags :=
  let n := dec32 x
  if n.isNan || (ptsOf a).isEmpty then (0, fNV)
  else
    (BitVec.ofNat 32 (sumW ((ptsOf a).filter fun p => !(dec32 p.1).isNan && (dec32 p.1).cmp n ≤ 0)), 0)

/-- DSMP on one lane: eight equally weighted samples (R346). -/
def smpLane (vs : List W32) : DLane := laneOf (mergeRuns (sortPts (vs.map fun v => (v, 0x1000))))

/-- R341: whether an image's lane is well formed and not void. -/
def wellFormedLane (l : List (W32 × Nat)) : Bool :=
  let k := l.takeWhile fun p => p.2 != 0
  sumW l == 0x8000 && (l.drop k.length).all (fun p => p.2 == 0 && p.1 == 0) &&
    (List.zip k (k.drop 1)).all fun (p, q) => ordKey p.1 ≤ ordKey q.1

/-- DLD on one 64-byte image (R335, R341, R348). -/
def laneOfImage (b : List Byte) : DLane × Flags :=
  let l := (List.range 8).map fun i =>
    (BitVec.ofNat 32 (leNat ((b.drop (4 * i)).take 4)), leNat ((b.drop (32 + 2 * i)).take 2))
  if wellFormedLane l then (laneOf (l.takeWhile fun p => p.2 != 0), 0)
  else if l.all fun p => p.2 == 0 then (voidLane, 0)
  else (voidLane, fNV)

/-- DST of one lane (R335, R348). -/
def imageOfLane (l : DLane) : List Byte :=
  (l.toList.flatMap fun p => leBytes 4 p.val.toNat) ++ (l.toList.flatMap fun p => leBytes 2 p.wt.toNat) ++
    List.replicate 16 0

end Sys2Proof.Machine
end

