-- ==== Sys2Proof/Machine/Memory.lean ====
section
/-! DEFINITION. Memory in canonical form, the visibility sets and timestamps of the ordering machine (11, 13), and
the translation of addresses (12). -/

namespace Sys2Proof.Machine

/-! Bytes. A byte that nothing has written reads as 0 (log entry 1). -/

/-- What an unlisted address reads as (log entry 1). -/
def unlisted : Byte := 0

def cellGet (a : Nat) : List Host.Cell → Byte
  | [] => unlisted
  | (x, b) :: l => if x = a then b else if a < x then unlisted else cellGet a l

/-- Write one byte, keeping the addresses rising and no entry equal to what an unlisted address reads as. -/
def cellSet (a : Nat) (b : Byte) : List Host.Cell → List Host.Cell
  | [] => if b = unlisted then [] else [(a, b)]
  | (x, c) :: l =>
    if a < x then (if b = unlisted then (x, c) :: l else (a, b) :: (x, c) :: l)
    else if a = x then (if b = unlisted then l else (a, b) :: l)
    else (x, c) :: cellSet a b l

/-- Addresses above `lo` (or any, with none), strictly rising, no entry unlisted. -/
def cellsWf : Option Nat → List Host.Cell → Bool
  | _, [] => true
  | lo, (x, b) :: l => (match lo with | some y => y < x | none => true) && b != unlisted && cellsWf (some x) l

/-- The canonical form of memory. -/
def Mem.wf (m : Mem) : Bool := cellsWf none m.cells

/-- The t and order of the device-wide write that a byte holds; (0, 0) for the launch write (R239). -/
def stampGet (a : Nat) : List (Nat × Nat × Nat) → Nat × Nat
  | [] => (0, 0)
  | (x, t, q) :: l => if x = a then (t, q) else if a < x then (0, 0) else stampGet a l

def stampSet (a t q : Nat) : List (Nat × Nat × Nat) → List (Nat × Nat × Nat)
  | [] => [(a, t, q)]
  | (x, t', q') :: l =>
    if a < x then (a, t, q) :: (x, t', q') :: l
    else if a = x then (a, t, q) :: l
    else (x, t', q') :: stampSet a t q l

/-! Encryption (R226): a line is held under one key, or none. -/

def tagOf (m : Mem) (line : Nat) : Option Byte := (m.tags.find? fun x => x.1 == line).map (·.2)

/-- Byte `i` of a line written under one key as a mapping of another yields it. The line is never the plaintext: where the free bytes
would all equal it, the first is another. -/
def cipherByte (was now : Option Byte) (line : Nat) (bytes : List Byte) (i : Nat) : Byte :=
  let c (k : Nat) : Byte := Config.cipherByte was now line bytes k
  if i = 0 && (List.range 64).map c = bytes then c 0 + 1 else c i

/-- The device-wide bytes of a line, as they were written. -/
def Mem.cellLine (m : Mem) (line : Nat) : List Byte := (List.range 64).map fun i => cellGet (line * 64 + i) m.cells

/-- A line brought under another key: the bytes that the write does not replace become what that key makes of
them. -/
def Mem.retag (m : Mem) (line : Nat) (key : Option Byte) : Mem :=
  let was := tagOf m line
  if was = key then m
  else
    let bytes := m.cellLine line
    let cells := (List.range 64).foldl (fun c i => cellSet (line * 64 + i) (cipherByte was key line bytes i) c) m.cells
    let tags := m.tags.filter fun x => x.1 != line
    { m with cells := cells, tags := match key with | some k => (line, k) :: tags | none => tags }

/-- The lines that `n` bytes from `pa` touch. -/
def linesOf (pa n : Nat) : List Nat :=
  if n = 0 then [] else (List.range ((pa + n - 1) / 64 - pa / 64 + 1)).map fun i => pa / 64 + i

/-! The order of writes at narrower instances (R243, R244). -/

/-- What is left of a write outside a range. -/
def Wr.cut (w : Wr) (pa n : Nat) : List Wr :=
  let len := w.bytes.length
  if pa < w.pa + len && w.pa < pa + n then
    (if w.pa < pa then [{ w with bytes := w.bytes.take (pa - w.pa) }] else []) ++
      (if pa + n < w.pa + len then [{ w with pa := pa + n, bytes := w.bytes.drop (pa + n - w.pa) }] else [])
  else [w]

/-- Bytes become visible device-wide at time `t`. A write of a whole line clears its poison (R378). -/
def Mem.putDev (m : Mem) (key : Option Byte) (pa : Nat) (bytes : List Byte) (t : Nat) : Mem :=
  let ls := linesOf pa bytes.length
  let m := ls.foldl (fun m l => m.retag l key) m
  let q := m.seq + 1
  let whole (l : Nat) : Bool := pa ≤ l * 64 && l * 64 + 64 ≤ pa + bytes.length
  { m with
    cells := bytes.zipIdx.foldl (fun c b => cellSet (pa + b.2) b.1 c) m.cells
    stamps := bytes.zipIdx.foldl (fun st b => stampSet (pa + b.2) t q st) m.stamps
    past := m.past.flatMap fun w => w.cut pa bytes.length
    poison := m.poison.filter fun l => !(ls.contains l && whole l)
    seq := q }

/-! Scope instances (R240, R241; log entry 9). -/

/-- The instance of a level around a task on a core. -/
def instOf (l : Level) (task core : Nat) : Nat :=
  match l.val with
  | 0 => task
  | 1 => core
  | 2 => core / 8
  | 3 => core / 96
  | _ => 0

/-- Whether a write that is not device-wide is visible to a read at level `l` by a task (R243). -/
def Wr.visible (w : Wr) (l : Level) (task core : Nat) : Bool :=
  l ≤ w.level && instOf w.level w.task w.core == instOf w.level task core

/-- The level at which a write becomes visible at the instance of level `l` around a core: the first from `l` on whose instance there is
also that of the write's own core. A task that resumed elsewhere has writes at instances of the core that it left (R244). -/
def Wr.meet (w : Wr) (core : Nat) (l : Level) : Level :=
  ((List.finRange 5).find? fun j => l ≤ j && instOf j w.task w.core == instOf j w.task core).getD 4

/-- A write is held within the instance of level `l` around a task: it is visible there, or in an instance inside it. -/
def Wr.within (w : Wr) (l : Level) (task core : Nat) : Bool :=
  if w.level ≤ l then instOf l w.task w.core == instOf l task core else w.visible l task core

/-- The instances that a write has entered, the widest first, with its time and order at each. -/
def Wr.places (w : Wr) : List (Level × Nat × Nat) := (w.level, w.t, w.seq) :: w.inner

/-- Where a write stands for the instance of level `l` around a task: its time and order at the smallest instance which it has
entered that holds that one (R243, R244). -/
def Wr.stand (w : Wr) (l : Level) (task core : Nat) : Option (Nat × Nat) :=
  (w.places.filter fun x => l ≤ x.1 && instOf x.1 w.task w.core == instOf x.1 task core).getLast?.map (·.2)

def Wr.covers (w : Wr) (pa : Nat) : Bool := w.pa ≤ pa && pa < w.pa + w.bytes.length

/-- A write stands after another: by time, then by order of entry. -/
def stampAfter (a b : Nat × Nat) : Bool := b.1 < a.1 || (a.1 == b.1 && b.2 < a.2)

/-- A byte as it was written, the key it was written under, and where its write stands. -/
structure Raw where
  val : Byte
  key : Option Byte
  at_ : Nat × Nat

/-- The byte that stands last among those visible at the instance of level `l` around a task (R243). -/
def Mem.raw (m : Mem) (l : Level) (task core : Nat) (pa : Nat) : Raw :=
  let at_ := stampGet pa m.stamps
  -- a device-wide write with a place of its own in some narrower order stands among the past ones
  let own := m.past.any fun w => w.seq == at_.2 && w.covers pa
  (m.narrow ++ m.past).foldl (fun (best : Raw) w =>
    match w.stand l task core with
    | some x =>
      if w.covers pa && stampAfter x best.at_ then { val := w.bytes.getD (pa - w.pa) 0, key := w.key, at_ := x } else best
    | none => best)
    { val := cellGet pa m.cells, key := tagOf m (pa / 64), at_ := if own then (0, 0) else at_ }

/-- A byte through a mapping with a key, where `raw` gives the bytes as written; with the t of its write (R226). -/
def Raw.through (raw : Nat → Raw) (key : Option Byte) (pa : Nat) : Byte × Nat :=
  let r := raw pa
  let b := if r.key = key then r.val
    else cipherByte r.key key (pa / 64) ((List.range 64).map fun i => (raw (pa / 64 * 64 + i)).val) (pa % 64)
  (b, r.at_.1)

/-- The byte that a read at level `l` through a mapping with a key returns, with the t of its write (R226, R243). -/
def Mem.readByte (m : Mem) (l : Level) (task core : Nat) (key : Option Byte) (pa : Nat) : Byte × Nat :=
  Raw.through (m.raw l task core) key pa

def Mem.readBytes (m : Mem) (l : Level) (task core : Nat) (key : Option Byte) (pa n : Nat) : List Byte × Nat :=
  let xs := (List.range n).map fun i => m.readByte l task core key (pa + i)
  (xs.map (·.1), xs.foldl (fun a x => max a x.2) 0)

/-- The time and the order of a write where it entered first. -/
def Wr.first (w : Wr) : Nat × Nat := (w.places.getLast?.map (·.2)).getD (w.t, w.seq)

/-- The byte that was stored last of all, in whatever instance: by the order in which the writes were performed. -/
def Mem.latest (m : Mem) (pa : Nat) : Raw :=
  let at_ := stampGet pa m.stamps
  let own := m.past.any fun w => w.seq == at_.2 && w.covers pa
  (m.narrow ++ m.past).foldl (fun (best : Raw) w =>
    if w.covers pa && best.at_.2 < w.first.2 then { val := w.bytes.getD (pa - w.pa) 0, key := w.key, at_ := w.first } else best)
    { val := cellGet pa m.cells, key := tagOf m (pa / 64), at_ := if own then (0, 0) else at_ }

/-- The bytes stored last, through a mapping with a key, with the largest t of their writes. -/
def Mem.latestBytes (m : Mem) (key : Option Byte) (pa n : Nat) : List Byte × Nat :=
  let xs := (List.range n).map fun i => Raw.through m.latest key (pa + i)
  (xs.map (·.1), xs.foldl (fun a x => max a x.2) 0)

/-! Line timestamps (R216, R244). -/

def Mem.rts (m : Mem) (l : Level) (inst line : Nat) : Nat :=
  match m.lines.find? fun x => x.level == l && x.inst == inst && x.line == line with
  | some x => x.rts
  | none => 0

def Mem.wts (m : Mem) (l : Level) (inst line : Nat) : Nat :=
  match m.lines.find? fun x => x.level == l && x.inst == inst && x.line == line with
  | some x => x.wts
  | none => 0

/-- The tasks that have accessed a line at an instance, each with its core and the rts that it left. -/
def Mem.users (m : Mem) (l : Level) (inst line : Nat) : List (Nat × Nat × Nat) :=
  match m.lines.find? fun x => x.level == l && x.inst == inst && x.line == line with
  | some x => x.by_
  | none => []

/-- A line's timestamps at an instance, with the access of a task on a core that leaves them; none where hardware makes it. -/
def Mem.setLine (m : Mem) (l : Level) (inst line wts rts : Nat) (who : Option (Nat × Nat)) : Mem :=
  let old := m.users l inst line
  let users := match who with
    | some (u, c) => (u, c, rts) :: old.filter fun x => !(x.1 == u && x.2.1 == c)
    | none => old
  { m with lines := { level := l, inst := inst, line := line, wts := wts, rts := rts, by_ := users } ::
      m.lines.filter fun x => !(x.level == l && x.inst == inst && x.line == line) }

/-- The read lease of the lines of a range at an instance. -/
def Mem.rtsRange (m : Mem) (l : Level) (inst pa n : Nat) : Nat :=
  (linesOf pa n).foldl (fun a x => max a (m.rts l inst x)) 0

/-- The largest rts that tasks within the instance of level `l` around a task have left on the lines of a range at instance `inst` of
level `k`: what is mutually inclusive there with an access of the task at `l`. -/
def Mem.rtsOf (m : Mem) (k : Level) (inst : Nat) (l : Level) (task core pa n : Nat) : Nat :=
  (linesOf pa n).foldl (fun a x =>
    ((m.users k inst x).filter fun y => instOf l y.1 y.2.1 == instOf l task core).foldl (fun a y => max a y.2.2) a) 0

/-- The rts that a write at level `l` must pass: that of its own instance (R216), and at every other instance around its task what the
accesses that are mutually inclusive with it have left there (R247; DEDUCED, log entry 18). -/
def Mem.rtsAround (m : Mem) (l : Level) (task core pa n : Nat) : Nat :=
  ([0, 1, 2, 3, 4] : List Level).foldl (fun a k => max a (m.rtsOf k (instOf k task core) l task core pa n))
    (m.rtsRange l (instOf l task core) pa n)

/-- A read of time `t` extends the leases (R216). `who` is the task that reads, with its core. -/
def Mem.lease (m : Mem) (l : Level) (inst pa n t : Nat) (who : Option (Nat × Nat)) : Mem :=
  (linesOf pa n).foldl (fun m x => m.setLine l inst x (m.wts l inst x) (max (m.rts l inst x) (t + Config.lease)) who) m

/-- A write of time `t` enters an instance (R216). `who` is the task that wrote, with its core. -/
def Mem.enter (m : Mem) (l : Level) (inst pa n t : Nat) (who : Option (Nat × Nat)) : Mem :=
  (linesOf pa n).foldl (fun m x => m.setLine l inst x t t who) m

/-- At each instance that write `w` has entered, it stands after write `x`. -/
def Wr.over (w x : Wr) : Bool :=
  w.places.all fun p => match x.stand p.1 w.task w.core with | some a => stampAfter p.2 a | none => true

/-- A device-wide byte that a write of a narrower instance takes the place of, where it stands after that write at such an
instance. One that stands among the past writes already is kept there. -/
def Mem.overtaken (m : Mem) (w : Wr) (pa : Nat) : Option Wr :=
  let at_ := stampGet pa m.stamps
  if (w.places.any fun p => stampAfter at_ p.2) && !(m.past.any fun x => x.seq == at_.2 && x.covers pa) then
    some { id := 0, task := 0, core := 0, level := 4, pa := pa, bytes := [cellGet pa m.cells], t := at_.1, seq := at_.2
           inner := [], rel := false, bulk := true, cls := 0, va := none, key := tagOf m (pa / 64), asid := 0 }
  else none

/-- A narrower write becomes visible device-wide at time `t`. It keeps its place in the order of the instances that it entered
before, and what it comes before there is kept. -/
def Mem.enterDev (m : Mem) (w : Wr) (t : Nat) : Mem :=
  let n := w.bytes.length
  let lost := (List.range n).filterMap fun i => m.overtaken w (w.pa + i)
  let new := { w with level := 4, t := t, seq := m.seq + 1, inner := w.places }
  let keep := m.past.flatMap fun x => if new.over x then x.cut w.pa n else [x]
  let m := m.putDev w.key w.pa w.bytes t
  { m with past := new :: lost ++ keep }

/-- A write performed at a level at time `t` (R243). -/
def Mem.write (m : Mem) (l : Level) (task core : Nat) (key : Option Byte) (asid : Byte) (w : WrAs)
    (pa : Nat) (bytes : List Byte) : Mem :=
  let m := m.enter l (instOf l task core) pa bytes.length w.t (some (task, core))
  if l = 4 then m.putDev key pa bytes w.t
  else
    let q := m.seq + 1
    { m with
      narrow := m.narrow ++ [{ id := w.id, task := task, core := core, level := l, pa := pa, bytes := bytes, t := w.t
                               seq := q, inner := [], rel := w.rel, bulk := w.bulk, cls := w.cls, va := w.va, key := key
                               asid := asid }]
      seq := q }

/-- A write of memory by hardware at .dev on no task's behalf (records, status dwords, queue words). -/
def Mem.hwWrite (m : Mem) (key : Option Byte) (pa : Nat) (bytes : List Byte) : Mem :=
  let t := m.rtsRange 4 0 pa bytes.length + 1
  (m.enter 4 0 pa bytes.length t none).putDev key pa bytes t

/-- A read of device-wide bytes by hardware. -/
def Mem.hwRead (m : Mem) (key : Option Byte) (pa n : Nat) : List Byte :=
  (List.range n).map fun i =>
    let line := (pa + i) / 64
    let was := tagOf m line
    if was = key then cellGet (pa + i) m.cells else cipherByte was key line (m.cellLine line) ((pa + i) % 64)

def Mem.hwWord (m : Mem) (pa : Nat) : W32 := BitVec.ofNat 32 (leNat (m.hwRead none pa 4))

def Mem.hwDword (m : Mem) (pa : Nat) : W64 := BitVec.ofNat 64 (leNat (m.hwRead none pa 8))

/-! The physical address map (R218, R227). -/

inductive Region where
  | device
  | window (core ofs : Nat)
  | host (addr : Nat)
  | fabric (dev ofs : Nat)
  | none
  deriving DecidableEq, Repr

def region (pa : Nat) : Region :=
  if pa < 0x8000000000 then .device
  else if 0x10000000000 ≤ pa ∧ pa < 0x10030000000 then
    .window ((pa - 0x10000000000) / 0x200000) ((pa - 0x10000000000) % 0x200000)
  else if 0x4000000000000 ≤ pa ∧ pa < 0x8000000000000 then .host (pa - 0x4000000000000)
  else if 0x8000000000000 ≤ pa ∧ pa < 0x8400000000000 then
    .fabric ((pa - 0x8000000000000) / 0x8000000000 % 128) (pa % 0x8000000000)
  else .none

/-- A fabric address that names the device itself reaches its own memory (R218). -/
def physOf (devid : BitVec 7) (pa : Nat) : Nat :=
  match region pa with
  | .fabric d o => if d = devid.toNat then o else pa
  | _ => pa

/-- The physical address of a byte of a core's local store window (R218). -/
def windowPa (core ofs : Nat) : Nat := 0x10000000000 + core * 0x200000 + ofs

/-! Table entries (R219, R220). -/

/-- What a walk finds. -/
inductive Walk where
  | leaf (e : TlbEnt)
  | bad (cause level : Nat) (entry : W64)
  deriving DecidableEq, Repr

def fldOf (x : W64) (hi lo : Nat) : Nat := bits x.toNat hi lo

/-- The shift and width of the index at a level (R219). -/
def levelShift : Nat → Nat
  | 0 => 48 | 1 => 39 | 2 => 30 | 3 => 21 | _ => 16

def levelIndex (level va : Nat) : Nat :=
  va / 2 ^ levelShift level % (if level = 4 then 32 else 512)

/-- Whether a valid entry breaks the layout of R220. -/
def badEntry (instr : Bool) (level : Nat) (x : W64) : Bool :=
  if fldOf x 1 1 = 0 then
    level == 4 || fldOf x 63 52 != 0 || fldOf x 7 2 != 0 || (level < 3 && fldOf x 11 8 != 0)
  else
    level < 2 || fldOf x 55 52 != 0 || fldOf x 7 5 != 0 || fldOf x 51 16 * 65536 % 2 ^ levelShift level != 0 ||
      (instr && (level == 4 || fldOf x 15 8 != 0 || fldOf x 2 2 != 0))

/-- A walk from a table at a level, with fuel for the levels left (R219). A table outside device memory is read as the cells there:
ordinary memory (DESIGN CHOICE, log entry 95). -/
def walkGo (m : Mem) (devid : BitVec 7) (instr : Bool) (asid : Byte) (va : Nat) : Nat → Nat → Nat → Walk
  | 0, level, _ => .bad 2 level 0
  | fuel + 1, level, table =>
    let x := m.hwDword (physOf devid (table + 8 * levelIndex level va))
    if fldOf x 0 0 = 0 then .bad 1 level x
    else if badEntry instr level x then .bad 2 level x
    else if fldOf x 1 1 = 0 then walkGo m devid instr asid va fuel (level + 1) (fldOf x 51 8 * 256)
    else if fldOf x 63 56 ≠ asid.toNat then .bad 3 level x
    else
      let size := 2 ^ levelShift level
      .leaf { asid := asid, base := va / size * size, size := size, leaf := x }

/-- The lines of table entries that a walk reads, from a table at a level, with fuel for the levels left (R219). -/
def walkLines (m : Mem) (devid : BitVec 7) (instr : Bool) (va : Nat) : Nat → Nat → Nat → List Nat
  | 0, _, _ => []
  | fuel + 1, level, table =>
    let a := physOf devid (table + 8 * levelIndex level va)
    let x := m.hwDword a
    a / 64 ::
      if fldOf x 0 0 = 0 || badEntry instr level x || fldOf x 1 1 = 1 then []
      else walkLines m devid instr va fuel (level + 1) (fldOf x 51 8 * 256)

/-- Five levels from a root (R219). -/
def State.walk (s : State) (instr : Bool) (root : Nat) (asid : Byte) (va : Nat) : Walk :=
  walkGo s.mem s.dev.devid instr asid va 5 0 root

/-! TLBs (R233). -/

def TlbEnt.hits (e : TlbEnt) (asid : Byte) (va : Nat) : Bool :=
  e.asid == asid && e.base ≤ va && va < e.base + e.size

def tlbFind (l : List TlbEnt) (asid : Byte) (va : Nat) : Option TlbEnt := l.find? fun e => e.hits asid va

/-- An entry made most recently used, and the least recently used dropped past the size. -/
def tlbAdd (n : Nat) (e : TlbEnt) (l : List TlbEnt) : List TlbEnt := (e :: l.filter fun x => x != e).take n

/-- The set of the cluster TLB that holds a page (256 sets of 8 ways; log entry 10). -/
def ctlbSet (e : TlbEnt) : Nat := e.base / e.size % 256

def ctlbAdd (e : TlbEnt) (l : List TlbEnt) : List TlbEnt :=
  let l := l.filter fun x => x != e
  let same := l.filter fun x => ctlbSet x == ctlbSet e
  let keep := same.take 7
  e :: l.filter fun x => ctlbSet x != ctlbSet e || keep.contains x

/-- The translation of an address by an entry that hits. -/
def TlbEnt.tr (e : TlbEnt) (va : Nat) : Tr :=
  { pa := fldOf e.leaf 51 16 * 65536 + (va - e.base), fmt := fldOf e.leaf 15 11, geo := fldOf e.leaf 10 8
    e := fldOf e.leaf 4 4 == 1, asid := e.asid, base := e.base, size := e.size }

/-- A translated address that no page gave: a physical one. -/
def Tr.physical (pa : Nat) : Tr := { pa := pa, fmt := 8, geo := 0, e := false, asid := 0, base := 0, size := 0 }

/-- The bytes of a range that lie in the page of its first byte's translation; of a physical place, all. -/
def Tr.room (t : Tr) (va n : Nat) : Nat := if t.size = 0 then n else min n (t.base + t.size - va)

/-- A latched translation that an entry of this page and ASID gave. -/
def Tr.hits (t : Tr) (asid : Byte) (va : Nat) : Bool := t.asid == asid && t.base ≤ va && va < t.base + t.size

/-- The key of a translated access: none where no memory stack holds the line (R226). -/
def Tr.key (t : Tr) : Option Byte :=
  if t.e && (match region t.pa with | .device | .fabric .. => true | _ => false) then some t.asid else none

/-! Sparse tables of cores and clusters. -/

def State.core (s : State) (n : Nat) : Core :=
  match s.cores.find? fun c => c.num == n with
  | some c => c
  | none => Core.fresh n

def State.setCore (s : State) (c : Core) : State :=
  { s with cores := c :: s.cores.filter fun x => x.num != c.num }

def State.ctlb (s : State) (n : Nat) : List TlbEnt :=
  match s.clusters.find? fun c => c.num == n with
  | some c => c.ents
  | none => []

def State.setCtlb (s : State) (n : Nat) (l : List TlbEnt) : State :=
  { s with clusters := { num := n, ents := l } :: s.clusters.filter fun x => x.num != n }

/-! All tasks. -/

def State.tasks (s : State) : List Task := s.t :: s.others

/-- The task with a number brought into focus; a task that has ended is forgotten. -/
def State.focus (s : State) (u : Nat) : State :=
  if s.t.id.uid = u then s
  else
    match s.others.find? fun x => x.id.uid == u with
    | some x =>
      let rest := s.others.filter fun y => y.id.uid != u
      { s with t := x, others := if s.t.run = .ended then rest else s.t :: rest }
    | none => s

def State.hasTask (s : State) (u : Nat) : Bool := s.tasks.any fun x => x.id.uid == u

def State.taskOf (s : State) (u : Nat) : Option Task := s.tasks.find? fun x => x.id.uid == u

/-- A function applied to every task. -/
def State.mapTasks (s : State) (f : Task → Task) : State := { s with t := f s.t, others := s.others.map f }

def State.updTask (s : State) (u : Nat) (f : Task → Task) : State :=
  s.mapTasks fun x => if x.id.uid = u then f x else x

def State.setT (s : State) (t : Task) : State := { s with t := t }

/-! What a data access meets (R221, R227, R236). -/

def rootOf (r : W64) : Nat := fldOf r 51 12 * 4096

def asidOf (r : W64) : Byte := BitVec.ofNat 8 (fldOf r 63 56)

/-- The tile-stack reservation in force on a core, in bytes (R47). -/
def State.reserved (s : State) (core : Nat) : Nat :=
  let uses (x : Task) : Bool :=
    !x.id.helper && x.id.core == core && x.run != .ended &&
      (x.id.resident || x.stk.entries.any fun e => e.level == 2)
  s.tasks.foldl (fun n x => if uses x then max n (x.stk.res * 65536) else n) 0

/-- The DMA window of a task: base and size in bytes (R385, R386). -/
def State.dma (s : State) (t : Task) : Nat × Nat :=
  let fn : Option Nat :=
    if t.id.system then some 0
    else
      let b := s.dev.pfbind.get t.id.part
      if fldOf b 63 63 = 1 then some (fldOf b 5 0) else none
  match fn with
  | some f => (fldOf (s.host.dmab.get (Fin.ofNat 64 f)) 51 12 * 4096, fldOf (s.host.dmal.get (Fin.ofNat 64 f)) 51 12 * 4096)
  | none => (0, 0)

/-- What another device holds against this one's accesses (R378, R390, R391, R394). -/
def State.holder (s : State) (pa : Nat) : Option Holder :=
  match region pa with
  | .fabric d _ => if d = s.dev.devid.toNat then none else s.host.far.find? fun x => x.dev.toNat == d
  | _ => none

/-- R218, R227: an address out of range for a task's access of `n` bytes. `atomic` also covers CBO. -/
def State.outOfRange (s : State) (t : Task) (write : Bool) (tr : Tr) (n : Nat) : Bool :=
  match region tr.pa with
  | .device => s.mem.retired.contains (tr.pa / 65536)
  | .window c o =>
    c / 8 != t.id.core / 8 || (o < 0x100000 && 0x100000 - s.reserved c < min (o + n) 0x100000) ||
      (0x100000 < o + n && (write || 0x100080 < o + n))
  | .host a =>
    let (b, l) := s.dma t
    tr.e || !(b ≤ a && a + n ≤ b + l)
  | .fabric d o =>
    if d = s.dev.devid.toNat then s.mem.retired.contains (o / 65536)
    else (s.holder tr.pa).any fun x => x.retired.contains (o / 65536)
  | .none => true

/-- An address in the memory of another device, whose key is the one that counts there (R390). -/
def State.remote (s : State) (pa : Nat) : Bool :=
  match region pa with
  | .fabric d _ => d != s.dev.devid.toNat
  | _ => false

/-- An access that a window table refuses (R391): this device's, or the holder's, whose refusal returns fault 8. -/
def State.windowRefuses (s : State) (pa : Nat) (write : Bool) : Bool :=
  match region pa with
  | .fabric d _ =>
    d != s.dev.devid.toNat &&
      (let e := s.dev.fwent.get (Fin.ofNat 128 d)
       !e.getLsbD 1 || (write && !e.getLsbD 0) || (s.holder pa).any fun x => !x.opens || (write && !x.writes))
  | _ => false

/-- An encrypted access to an ASID without a key where the line is held (R390, R394). -/
def State.keyWanting (s : State) (tr : Tr) : Bool :=
  tr.e && (if s.remote tr.pa then (s.holder tr.pa).any fun x => x.keyless.contains tr.asid else !s.ros.keys.contains tr.asid)

/-- The lowest-numbered cause of R236 that an access meets once its leaf is known; `need` is the format that an
access that decodes by format requires (R221). -/
def State.cause (s : State) (t : Task) (leaf : W64) (tr : Tr) (write : Bool) (n : Nat) (need : Option Nat) : Option Nat :=
  let goodGeo := if tr.fmt = 6 then tr.geo == 2 else if tr.fmt = 7 then tr.geo == 1 else tr.geo == 0
  if write && fldOf leaf 2 2 = 0 then some 4
  else if fldOf leaf 3 3 = 1 && !t.id.system then some 5
  else if tr.fmt = 0 || 10 ≤ tr.fmt || !goodGeo || (match need with | some f => f != tr.fmt | none => false) then some 6
  else if s.outOfRange t write tr n then some 7
  else if s.windowRefuses tr.pa write then some 8
  else if s.keyWanting tr then some 9
  else none

/-- The result of looking an access up. -/
inductive Look where
  | ok (tr : Tr)
  | miss
  | fault (cause : Nat)
  | hostLost
  deriving DecidableEq, Repr

/-- A translated access reaches the host, and the host is lost (R235, R388). -/
def State.hostGone (s : State) (tr : Tr) : Bool :=
  s.dev.hostLost && (match region tr.pa with | .host _ => true | _ => false)

/-- A look-up in the data TLB of the current task's core, under the data root that the access issued under (R222, R233 to R236). A
row of a tile or bulk transfer beyond the 57 bits of the address space has no translation (log entry 13). -/
def State.look (s : State) (va n : Nat) (write : Bool) (need : Option Nat) (root : W64 := s.t.dtroot) : Look :=
  if 2 ^ 57 ≤ va then .fault 1
  else
    match tlbFind (s.core s.t.id.core).dtlb (asidOf root) va with
    | none => .miss
    | some e =>
      let tr := e.tr va
      match s.cause s.t e.leaf tr write n need with
      | some c => .fault c
      | none => if s.hostGone tr then .hostLost else .ok tr

/-- The pieces of a range within one 64 KiB page each: address and length. -/
def splitGo : Nat → Nat → Nat → List (Nat × Nat)
  | 0, _, _ => []
  | fuel + 1, va, n =>
    if n = 0 then []
    else
      let k := min n (65536 - va % 65536)
      (va, k) :: splitGo fuel (va + k) (n - k)

def splitPages (va n : Nat) : List (Nat × Nat) := splitGo (n / 65536 + 2) va n

/-- The look-up of a whole range: its translated pieces, or the first piece that stops it. -/
inductive LookR where
  | ok (l : List (Tr × Nat))
  | stop (va : Nat) (why : Look)
  deriving DecidableEq, Repr

def State.lookPieces (s : State) (root : W64) (write : Bool) (need : Option Nat) : List (Nat × Nat) → LookR
  | [] => .ok []
  | (va, n) :: l =>
    match s.look va n write need root with
    | .ok tr =>
      match s.lookPieces root write need l with
      | .ok r => .ok ((tr, n) :: r)
      | x => x
    | x => .stop (va % 2 ^ 57) x

def State.lookRange (s : State) (va n : Nat) (write : Bool) (need : Option Nat) (root : W64 := s.t.dtroot) : LookR :=
  s.lookPieces root write need (splitPages va n)

def State.phys (s : State) (pa : Nat) : Nat := physOf s.dev.devid pa

/-- Local-store windows are performed at every scope that holds the owner's cluster (R227). -/
def levelAt (pa : Nat) (l : Level) : Level :=
  match region pa with
  | .window _ _ => 4
  | _ => l

end Sys2Proof.Machine
end

