-- ==== Sys2Proof/Machine/Queue.lean ====
section
/-! DEFINITION. The queue controller's shared operations (15): node states and their status dwords, launches,
deques, groups, and the kill of a node (21). -/

namespace Sys2Proof.Machine

/-! Accesses of the queue controller, under the ASID of a partition's tenant (R267, R269). -/

/-- The first core of a partition. -/
def Part.firstCore (p : Part) : Nat :=
  match (List.range 48).find? fun n => p.clusters.getLsbD n with
  | some n => n * 8
  | none => 0

/-- The cores of a partition, ascending. -/
def Part.cores (p : Part) : List Nat :=
  ((List.range 48).filter fun n => p.clusters.getLsbD n).flatMap fun n => (List.range 8).map fun k => n * 8 + k

/-- The clusters of a partition, ascending. -/
def Part.list (p : Part) : List Nat := (List.range 48).filter fun n => p.clusters.getLsbD n

/-- A cluster of the partition stands for itself; one that has left it for the cluster of index n mod m among those that stand
(R278). -/
def Part.mapCluster (p : Part) (n : Nat) : Nat :=
  if p.clusters.getLsbD n then n else p.list.getD (n % p.list.length) n

/-- The translation of an address of a partition's tenant, by its data root and ASID, when no cause of R236 stops it and the host
answers (R388). The access is privileged, and reaches the host through the window of the function bound to the partition (R385). -/
def State.tenantTrOf (s : State) (pi : Fin 16) (root : W64) (asid : Byte) (va n : Nat) (write : Bool) : Option Tr :=
  match s.walk false (rootOf root) asid (va % 2 ^ 57) with
  | .bad .. => none
  | .leaf e =>
    let tr := e.tr (va % 2 ^ 57)
    let who := { Task.fresh with id := { TaskId.none with part := pi, core := (s.parts.get pi).firstCore } }
    match s.cause who (e.leaf &&& ~~~8) tr write n none with
    | some _ => none
    | none => if s.hostGone tr then none else some tr

/-- The same of the tenant that the partition has now. -/
def State.tenantTr (s : State) (pi : Fin 16) (va n : Nat) (write : Bool) : Option Tr :=
  let p := s.parts.get pi
  s.tenantTrOf pi p.dtroot p.asid va n write

/-- The lines that such an access meets: those of table entries, and its own (R378, R379). -/
def State.tenantLines (s : State) (pi : Fin 16) (root : W64) (asid : Byte) (va n : Nat) : List Nat :=
  walkLines s.mem s.dev.devid false (va % 2 ^ 57) 5 0 (rootOf root) ++
    (match s.tenantTrOf pi root asid va n false with | some tr => linesOf (s.phys tr.pa) n | none => [])

/-- Lines that the hardware has accessed: they are looked up in the containment structures at the end of the step (R379). -/
def State.meet (s : State) (lines : List Nat) : State :=
  if s.ros.copies.isEmpty then s else { s with ros := { s.ros with met := s.ros.met ++ lines } }

/-- The same of an access of the queue controller. -/
def State.tenantMet (s : State) (pi : Fin 16) (root : W64) (asid : Byte) (va n : Nat) : State :=
  s.meet (s.tenantLines pi root asid va n)

def State.tenantRead (s : State) (pi : Fin 16) (va n : Nat) : Option (List Byte) :=
  (s.tenantTr pi va n false).map fun tr => s.mem.hwRead tr.key (s.phys tr.pa) n

def State.tenantDword (s : State) (pi : Fin 16) (va : Nat) : Option W64 :=
  (s.tenantRead pi va 8).map fun b => BitVec.ofNat 64 (leNat b)

/-- A watch on a line fires when the first write becomes visible there, of time `t` (R150, R253, R217). `old` is the level at
which it was visible before. -/
def fireWatch (pa n : Nat) (l : Level) (task core : Nat) (old : Option Level) (t : Nat) (x : Task) : Task :=
  let sees (k : Level) : Bool := x.watch.level ≤ k && instOf k task core == instOf k x.id.uid x.id.core
  if x.watch.armed && !x.watch.fired && (linesOf pa n).contains x.watch.pline && sees l &&
      !(match old with | some k => sees k | none => false) then
    { x with watch := { x.watch with fired := true }, pts := max x.pts t }
  else x

def State.fire (s : State) (pa n : Nat) (l : Level) (task core : Nat) (old : Option Level) (t : Nat) : State :=
  s.mapTasks (fireWatch pa n l task core old t)

/-- A hardware write at .dev, with the watches it fires. -/
def State.devWrite (s : State) (key : Option Byte) (pa : Nat) (bytes : List Byte) : State :=
  let t := s.mem.rtsRange 4 0 pa bytes.length + 1
  let s := s.meet (linesOf pa bytes.length)
  State.fire { s with mem := s.mem.hwWrite key pa bytes } pa bytes.length 4 0 0 none t

/-- A write of the queue controller at an address of a tenant (R269, R282). Where the page has no translation, or none to write, it is
dropped (DESIGN CHOICE, log entry 127). -/
def State.tenantWriteOf (s : State) (pi : Fin 16) (root : W64) (asid : Byte) (va : Nat) (bytes : List Byte) : State :=
  let s := s.tenantMet pi root asid va bytes.length
  match s.tenantTrOf pi root asid va bytes.length true with
  | some tr => s.devWrite tr.key (s.phys tr.pa) bytes
  | none => s

def State.tenantWrite (s : State) (pi : Fin 16) (va : Nat) (bytes : List Byte) : State :=
  let p := s.parts.get pi
  s.tenantWriteOf pi p.dtroot p.asid va bytes

/-! Queues in memory: TAIL in word 0, HEAD in word 1, 256 records from base + 64 (R237, R282, R368). -/

/-- Whether the line and the records of a queue lie in device memory. -/
def queueOk (base len : Nat) : Bool := base != 0 && base + len ≤ 0x8000000000

/-- TAIL and HEAD of a queue are read (R379). -/
def State.queueMet (s : State) (base len : Nat) : State := if queueOk base len then s.meet (linesOf base 64) else s

/-- A record appended at a physical base; none where the queue is absent or full. -/
def State.postPhys (s : State) (base size : Nat) (rec : List Byte) : Option (State × Nat) :=
  if queueOk base (64 + 256 * size) then
    let tail := s.mem.hwWord base
    let head := s.mem.hwWord (base + 4)
    if (tail - head).toNat < 256 then
      let a := base + 64 + size * (tail.toNat % 256)
      some ((s.devWrite none a rec).devWrite none base (leBytes 4 (tail + 1).toNat), a)
    else none
  else none

/-! Nodes. -/

def State.node (s : State) (k : Nat) : Option Node := s.nodes.find? fun n => n.key == k

def State.updNode (s : State) (k : Nat) (f : Node → Node) : State :=
  { s with nodes := s.nodes.map fun n => if n.key = k then f n else n }

def NState.code : NState → Nat
  | .ready => 0 | .fired => 1 | .running => 2 | .parked => 3
  | .done => 4 | .trapped => 5 | .killed => 6 | .exposedFaulted => 7

def NState.final : NState → Bool
  | .done | .trapped | .killed | .exposedFaulted => true
  | _ => false

/-! Fields of a node record (R268). -/

def Node.f (n : Node) (dw : Fin 14) (hi lo : Nat) : Nat := fldOf (n.drec.get dw) hi lo
def Node.inputs (n : Node) : Nat := n.f 4 31 28
def Node.staged (n : Node) : Bool := n.f 4 27 27 == 1
def Node.idempotent (n : Node) : Bool := n.f 4 26 26 == 1
def Node.cast (n : Node) : Bool := n.f 4 25 25 == 1
def Node.dbg (n : Node) : Bool := n.f 4 24 24 == 1
def Node.place (n : Node) : Nat := n.f 3 61 60
def Node.wher (n : Node) : Nat := n.f 3 58 50
def Node.helper (n : Node) : Bool := n.f 3 59 59 == 1
def Node.timetabled (n : Node) : Bool := n.f 3 63 63 == 1
def Node.dl (n : Node) : Bool := n.f 3 62 62 == 1
def Node.tick (n : Node) : Nat := n.f 3 15 0
def Node.deadline (n : Node) : Nat := n.f 3 31 16

/-- The cluster that a node's WHERE names, as it has been re-mapped (R278). -/
def Node.cluster (n : Node) : Nat := n.home.getD (if n.place = 1 then n.wher / 8 else n.wher)

/-- The core that a node with PLACE 1 is pinned to. -/
def Part.pinCore (p : Part) (n : Node) : Nat := p.mapCluster n.cluster * 8 + n.wher % 8

/-- Dword 14 (R269). -/
def Node.status14 (n : Node) : Nat :=
  n.state.code * 2 ^ 60 + n.tok.toNat * 2 ^ 52 + n.cause.toNat * 2 ^ 31 + n.depth.toNat * 2 ^ 18 + n.reason.toNat * 2 ^ 14

/-- The status dwords written at .dev, under the ASID of the node's own tenant (R269). -/
def State.writeStatus (s : State) (k : Nat) : State :=
  match s.node k with
  | some n =>
    s.tenantWriteOf n.part n.root n.asid (n.addr + 112) (leBytes 8 n.status14 ++ leBytes 8 n.taddr.toNat)
  | none => s

/-- The node record of the current task. -/
def State.nodeRec (s : State) : Vector W64 14 :=
  match s.node s.t.id.node with
  | some n => n.drec
  | none => Vector.replicate 14 0

/-- Launch argument k of the current task (R268). -/
def State.arg (s : State) (k : Fin 6) : W64 := s.nodeRec.get (Fin.ofNat 14 (8 + k.val))

/-! Launches (R266, R267). -/

def State.launch (s : State) (k : Nat) : Option Launch := s.launches.find? fun l => l.key == k

/-- The nodes of a tenant's running graphs. -/
def State.running (s : State) (pi : Fin 16) : List Node :=
  s.nodes.filter fun n =>
    n.part == pi && n.asid == (s.parts.get pi).asid &&
      (match s.launch n.launch with | some l => l.status == 1 | none => false)

/-- The node whose mailbox a message of the current task enters (R323). -/
def State.mailbox (s : State) (target : W32) : Option Node :=
  (s.running s.t.id.part).find? fun n => n.id == target && !n.state.final

def State.updLaunch (s : State) (k : Nat) (f : Launch → Launch) : State :=
  { s with launches := s.launches.map fun l => if l.key = k then f l else l }

/-- An MSI-X signal of a function (R384). -/
def State.signal (s : State) (fn : Fin 64) (vector : Fin 4) : State :=
  { s with host := { s.host with msix := s.host.msix ++ [(fn, vector)] } }

/-- The function that serves a partition (R385). -/
def State.fnOf (s : State) (pi : Fin 16) : Option (Fin 64) :=
  let b := s.dev.pfbind.get pi
  if b.getLsbD 63 then some (Fin.ofNat 64 (fldOf b 5 0)) else none

/-- Dword 3 of a launch record, under the ASID of the launch's own tenant; the host hears of STATUS 2, 3 and 4 by vector 0 of the
partition's function (R266, R386). -/
def State.writeLaunch (s : State) (k : Nat) : State :=
  match s.launch k with
  | some l =>
    let s := s.tenantWriteOf l.part l.root l.asid (l.addr + 24) (leBytes 8 (l.status * 2 ^ 56 + l.ended))
    match if 2 ≤ l.status then s.fnOf l.part else none with
    | some fn => s.signal fn 0
    | none => s
  | none => s

/-- STATUS 4 when every node of the graph and every spawned node is final (R267, R318). -/
def State.checkLaunch (s : State) (k : Nat) : State :=
  match s.launch k with
  | some l =>
    let live := s.nodes.any fun n => n.launch == k && n.spawned && !n.state.final
    if l.status = 1 && l.ended = l.count && !live then
      (s.updLaunch k fun l => { l with status := 4 }).writeLaunch k
    else s
  | none => s

/-- A slip event (R281, R282). One whose log page has no translation, or none to write, is dropped (DESIGN CHOICE, log entry 127). -/
def State.slip (s : State) (n : Node) : State :=
  let p := s.parts.get n.part
  if n.late = 0 || p.slog = 0 then s
  else
    let s := s.tenantMet n.part p.dtroot p.asid p.slog 8
    match s.tenantRead n.part p.slog 8 with
    | none => s
    | some b =>
      let tail : W32 := BitVec.ofNat 32 (leNat (b.take 4))
      let head : W32 := BitVec.ofNat 32 (leNat (b.drop 4))
      if 256 ≤ (tail - head).toNat then s
      else
        let ent := leBytes 8 (n.id.toNat * 2 ^ 32 + n.frame % 2 ^ 32) ++
          leBytes 8 ((if n.halted then 2 ^ 63 else 0) + n.deadline * 2 ^ 32 + n.late)
        (s.tenantWrite n.part (p.slog + 64 + 16 * (tail.toNat % 256)) ent).tenantWrite n.part p.slog
          (leBytes 4 (tail + 1).toNat)

/-- Whether a node stops the frame counter of its partition (R281). -/
def Part.stoppedBy (p : Part) (n : Node) : Bool :=
  n.timetabled && n.dl && !n.state.final && n.frame == p.frame && n.deadline ≤ p.tick

/-- The tick after this one (R279). -/
def Part.nextTick (p : Part) : Part :=
  if p.tick < p.flen then { p with tick := p.tick + 1 } else { p with tick := 0, frame := p.frame + 1 }

def State.updPart (s : State) (p : Fin 16) (f : Part → Part) : State := { s with parts := s.parts.set p (f (s.parts.get p)) }

/-- A node enters a state, with everything a final state brings (R267, R269, R273, R281): where it was the last that stopped the
frame counter, the next tick begins. -/
def State.nodeTo (s : State) (k : Nat) (st : NState) : State :=
  let s := (s.updNode k fun n => { n with state := st }).writeStatus k
  if st.final then
    match s.node k with
    | none => s
    | some n =>
      let s := s.slip n
      let s := s.updNode k fun n => { n with mbox := [] }
      let s := if n.spawned then s
        else (s.updLaunch n.launch fun l => { l with ended := l.ended + 1 }).writeLaunch n.launch
      let s := s.checkLaunch n.launch
      let p := s.parts.get n.part
      if p.stall && !(s.nodes.any fun x => x.part == n.part && p.stoppedBy x) then
        s.updPart n.part fun p => { p.nextTick with stall := false }
      else s
  else s

/-! Deques (R283, R286). -/

def Core.dq (c : Core) (helper : Bool) : List Nat := if helper then c.hdeque else c.deque

def Core.setDq (c : Core) (helper : Bool) (l : List Nat) : Core :=
  if helper then { c with hdeque := l } else { c with deque := l }

/-- A node of a partition's tenant that waits for a core. -/
def State.waits (s : State) (pi : Fin 16) (n : Node) : Bool :=
  n.part == pi && n.asid == (s.parts.get pi).asid && n.state == .fired

/-- The node's partition is in use by its tenant. -/
def State.tenantIn (s : State) (n : Node) : Bool :=
  let p := s.parts.get n.part
  p.inUse && n.asid == p.asid

/-- A reference whose node waits no longer is none (R370). -/
def State.standing (s : State) (k : Nat) : Bool :=
  match s.node k with
  | some n => n.state == .fired
  | none => false

/-- A reference is an entry of a core's deque while its node waits for a core, and the core is its tenant's. -/
def State.isEntry (s : State) (core k : Nat) : Bool :=
  match s.node k with
  | some n => n.state == .fired && s.tenantIn n && (s.parts.get n.part).clusters.getLsbD (core / 8)
  | none => false

/-- The entries of a context's deque, newest first. -/
def State.entriesOf (s : State) (core : Nat) (helper : Bool) : List Nat := ((s.core core).dq helper).filter (s.isEntry core)

/-- A deque holds 4,096 entries (R283). -/
def State.dequeFull (s : State) (core : Nat) (helper : Bool) : Bool := 4096 ≤ (s.entriesOf core helper).length

def State.pushTo (s : State) (core : Nat) (helper : Bool) (k : Nat) : State :=
  let c := s.core core
  s.setCore (c.setDq helper (k :: c.dq helper))

/-- The core of a partition whose deque holds the fewest entries, the lowest number winning ties. -/
def State.fewest (s : State) (p : Part) : Nat :=
  (p.cores.foldl (fun (b : Option (Nat × Nat)) c =>
    let n := (s.entriesOf c false).length
    match b with
    | some (m, x) => if n < m then some (n, c) else some (m, x)
    | none => some (n, c)) none).elim p.firstCore (·.2)

/-- The deque that a reference which is not timetabled goes to (R283): a pinned one's is that of its own context; any other's the
named one, or that of the core with the fewest entries where the named one is full or has left the partition (R278). None where it
is full: the reference waits outside (for one that is not pinned DESIGN CHOICE, log entry 106). -/
def State.dequeFor (s : State) (n : Node) (core : Nat) (helper : Bool) : Option (Nat × Bool) :=
  let p := s.parts.get n.part
  let c : Nat × Bool :=
    if n.place = 1 then (p.pinCore n, n.helper)
    else if p.cores.contains core && !s.dequeFull core helper then (core, helper)
    else (s.fewest p, false)
  if s.dequeFull c.1 c.2 then none else some c

/-- The deques that hold a reference. -/
def State.holders (s : State) (k : Nat) : List (Nat × Bool) :=
  s.cores.flatMap fun c => (if c.deque.contains k then [(c.num, false)] else []) ++ if c.hdeque.contains k then [(c.num, true)] else []

/-- A reference leaves every deque. -/
def State.unqueue (s : State) (k : Nat) : State :=
  if (s.holders k).isEmpty then s
  else
    { s with cores := s.cores.map fun (c : Core) =>
        { c with deque := c.deque.filter fun x => x != k, hdeque := c.hdeque.filter fun x => x != k } }

/-- A fired node that is not timetabled goes to the newest end of a deque, where its tenant has the partition. It stands in one deque. -/
def State.push (s : State) (n : Node) (core : Nat) (helper : Bool) : State :=
  if n.timetabled || !s.tenantIn n then s
  else
    let s := s.unqueue n.key
    match s.dequeFor n core helper with
    | some c => s.pushTo c.1 c.2 n.key
    | none => s

/-- A reference that waits for a deque with room: its node is FIRED and stands in none (R283). -/
def State.outside (s : State) (core : Nat) (helper : Bool) : Option Node :=
  s.nodes.find? fun n =>
    let p := s.parts.get n.part
    n.state == .fired && !n.timetabled && s.tenantIn n &&
      (if n.place = 1 then p.pinCore n == core && n.helper == helper else !helper && p.cores.contains core) &&
      !(s.cores.any fun c => c.deque.contains n.key || c.hdeque.contains n.key)

/-- While a deque has room, the references that wait for it enter it, the one that has waited longest first. -/
def State.letIn (s : State) (core : Nat) (helper : Bool) : State :=
  s.nodes.foldl (fun (s : State) _ =>
    match if s.dequeFull core helper then none else s.outside core helper with
    | some n => s.pushTo core helper n.key
    | none => s) s

/-- The references that wait for some deques, let in where those have room. -/
def State.letInAt (s : State) (l : List (Nat × Bool)) : State := l.foldl (fun s c => s.letIn c.1 c.2) s

/-- The same of every deque of a partition. -/
def State.letInAll (s : State) (pi : Fin 16) : State :=
  s.letInAt ((s.parts.get pi).cores.flatMap fun c => [(c, false), (c, true)])

/-- R273: a node becomes FIRED and is placed. -/
def State.fireNode (s : State) (k core : Nat) (helper : Bool) : State :=
  let s := s.nodeTo k .fired
  match s.node k with
  | some n => s.push n core helper
  | none => s

/-! Groups and barriers (R287, R288). -/

/-- The GBARs of a task that have arrived, `n` at most, oldest first. -/
def Task.arrivals (x : Task) (n : Nat) : List Ek := (x.eks.filter fun e => e.op == .gbar && e.waiting).take n

/-- As many GBARs of a task complete as it has arrivals in the round: kc falls and pts rises to the largest arrival. -/
def releaseGbar (us : List Nat) (t : Nat) (x : Task) : Task :=
  let gone := (x.arrivals (us.count x.id.uid)).map (·.id)
  if gone.isEmpty then x
  else
    { x with
      eks := x.eks.filter fun y => !gone.contains y.id
      cnt := { x.cnt with kc := x.cnt.kc - gone.length }, pts := max x.pts t }

/-- One completed round, when every member of its set has arrived or left; the next round opens. -/
def State.groupRound (s : State) (pi : Fin 16) (g : Fin 256) : State :=
  match (s.parts.get pi).groups.find? fun x => x.id == g with
  | none => s
  | some x =>
    if x.members.isEmpty then s.updPart pi fun p => { p with groups := p.groups.filter fun y => y.id != g }
    else if x.round.all fun u => x.arrived.contains u then
      let t := s.tasks.foldl (fun a y => (y.arrivals (x.arrived.count y.id.uid)).foldl (fun a e => max a e.tmax) a) 0
      let s := s.mapTasks (releaseGbar x.arrived t)
      let x' := { x with round := x.members, arrived := x.next, next := [] }
      s.updPart pi fun p => { p with groups := x' :: p.groups.filter fun y => y.id != g }
    else s

/-- A task leaves its group, if it has one. -/
def State.leaveGroup (s : State) (u : Nat) : State :=
  match s.taskOf u with
  | none => s
  | some x =>
    match x.id.group with
    | none => s
    | some g =>
      let drop (l : List Nat) : List Nat := l.filter fun y => y != u
      let s := s.updTask u fun x => { x with id := { x.id with group := none } }
      let s := s.updPart x.id.part fun p =>
        { p with groups := p.groups.map fun y =>
            if y.id = g then
              { y with members := drop y.members, round := drop y.round, arrived := drop y.arrived, next := drop y.next }
            else y }
      (s.groupRound x.id.part g).groupRound x.id.part g

/-- A JOIN: a member of another group leaves it first; a member of the group itself stays as it is (R287). -/
def State.joinGroup (s : State) (u : Nat) (g : Fin 256) : State :=
  match s.taskOf u with
  | none => s
  | some x =>
    if x.id.group = some g then s
    else
      let s := (s.leaveGroup u).updTask u fun x => { x with id := { x.id with group := some g } }
      s.updPart x.id.part fun p =>
        if p.groups.any fun y => y.id == g then
          { p with groups := p.groups.map fun y => if y.id = g then { y with members := y.members ++ [u] } else y }
        else { p with groups := { id := g, members := [u], round := [u], arrived := [], next := [] } :: p.groups }

/-- A JOIN or LEAVE of the current task is applied (R320). -/
def State.applyChange (s : State) (op : EkOp) : State :=
  match op with
  | .join g => s.joinGroup s.t.id.uid g
  | .leave => s.leaveGroup s.t.id.uid
  | _ => s

/-- A GBAR's arrival: in the open round where the task is in its set and has not arrived, else in the next. -/
def State.arrive (s : State) (u : Nat) : State :=
  match s.taskOf u with
  | none => s
  | some x =>
    match x.id.group with
    | none => s.updTask u (releaseGbar [u] 0)
    | some g =>
      let s := s.updPart x.id.part fun p =>
        { p with groups := p.groups.map fun y =>
            if y.id = g then
              (if y.round.contains u && !y.arrived.contains u then { y with arrived := y.arrived ++ [u] }
               else { y with next := y.next ++ [u] })
            else y }
      (s.groupRound x.id.part g).groupRound x.id.part g

/-! Blocks (R229, R230). -/

/-- The physical address of word `k` of a context's block-flag line. -/
def flagPa (core : Nat) (helper : Bool) (k : Nat) : Nat :=
  windowPa core (0x100000 + (if helper then 0x40 else 0) + 4 * k)

/-- A flag of the current task's context written at .core (R230). -/
def State.setFlag (s : State) (u : Nat) (k : Fin 16) (b : Block) : State :=
  match s.taskOf u with
  | none => s
  | some x =>
    let s := s.updTask u fun x => { x with blocks := x.blocks.set k b }
    let pa := flagPa x.id.core x.id.helper k.val
    let s := { s with mem := s.mem.hwWrite none pa (leBytes 4 b.flag.val) }
    s.fire pa 4 4 x.id.uid x.id.core none (s.mem.rtsRange 4 0 pa 4)

/-- The blocks of a task are released; those of a task that is not resident occupy no slot (R230). -/
def State.freeBlocks (s : State) (u : Nat) : State :=
  (List.range 16).foldl (fun s k =>
    let k : Fin 16 := Fin.ofNat 16 k
    match s.taskOf u with
    | some x =>
      if (x.blocks.get k).flag = 0 then s
      else if x.id.resident then s.setFlag u k Block.free
      else s.updTask u fun x => { x with blocks := x.blocks.set k Block.free }
    | none => s) s

/-! Collectives whose member ends (R328, R371, R381). -/

/-- Every open instance of a killed member ends with status 3. -/
def State.endColls (s : State) (u : Nat) : State :=
  { s with colls := s.colls.map fun c =>
      if c.members.any fun m => m.task == u && !m.ended then
        { c with started := true, status := if c.status = 0 then 3 else c.status
                 members := c.members.map fun m => if m.task = u then { m with ended := true } else m }
      else c }

/-! Moulds (R297, R300). -/

/-- The STATE field of a mould's record written at .dev. -/
def State.mouldState (s : State) (pi : Fin 16) (m : W32) (st : Nat) : State :=
  match s.tenantDword pi (m.toNat * 32768) with
  | some d => s.tenantWrite pi (m.toNat * 32768) (leBytes 8 (d.toNat % 2 ^ 60 + st * 2 ^ 60))
  | none => s

/-- A recording of the current task, open or closed, aborts with a status (R300). A later MBEG of the task finds
syllables before it that are none of BR, SA and SB. -/
def State.abortMould (s : State) (st : Nat) : State :=
  if s.t.mrec.state = .off then s
  else
    let r := s.mouldState s.t.id.part s.t.mrec.mould st
    r.setT { r.t with mrec := { Recording.off with impure := true } }

/-! The end of a task (R319, R371). -/

/-- What every end of a task does: group, blocks, watch, stack, commands. -/
def State.dropTask (s : State) (u : Nat) : State :=
  let s := (s.leaveGroup u).freeBlocks u
  let s := { s with mem := { s.mem with lines := s.mem.lines.filter fun x => !(x.level == 0 && x.inst == u) } }
  s.updTask u fun x =>
    { x with
      run := .ended, frz := none, watch := Watch.reset
      stk := { x.stk with map := [], entries := [] }
      acc := [], cmds := [], eks := [], fences := [], flights := [], pend := [], stage := Stage.off
      mrec := Recording.off, cast := none, slot := none, ran := [], id := { x.id with resident := false } }

/-- A DONE has found every access performed: the node is complete, and delivers its tokens (R372). -/
def Task.complete (t : Task) : Bool :=
  t.run == .doneWait && !t.eks.isEmpty && t.eks.all fun e => !e.deferred && (match e.op with | .token .. => true | _ => false)

/-- What ends a task that its node outlives or ends with: a recording is aborted, and its collectives end (R300, R328, R371). -/
def State.stopTask (s : State) (x : Task) : State :=
  ((if x.mrec.state = RecState.off then s else s.mouldState x.id.part x.mrec.mould 8).endColls x.id.uid).dropTask x.id.uid

/-- Why a node is killed (R371). -/
inductive KillWhy where
  | check | hostLost | nkill | cLost | saveSlot
  deriving DecidableEq, Repr

/-- A node ends KILLED, with the REASON of its status (R269). -/
def State.endKilled (s : State) (k : Nat) (reason : BitVec 4) : State :=
  (s.updNode k fun n => { n with reason := reason }).nodeTo k .killed

/-- A task that no kill of some cause ends: one of a node that is complete is spared by a machine check (R372), and once it has sent a
token its node can end in DONE alone (R273; DESIGN CHOICE, log entry 118). -/
def Task.spared (t : Task) (why : KillWhy) : Bool := t.told || why = .check && t.complete

/-- R371: the kill of a node, with its task if it has one. -/
def State.killNode (s : State) (k : Nat) (why : KillWhy) : State :=
  match s.node k with
  | none => s
  | some n =>
    if n.state.final || s.tasks.any (fun x => x.id.node == k && x.spared why) then s
    else
      let task := s.tasks.find? fun x => x.id.node == k && x.run != .ended
      let counts := match why with | .check => true | _ => false
      let kills := if counts then n.kills + 1 else n.kills
      let s := (task.elim s s.stopTask).updNode k fun n => { n with kills := kills, mbox := [] }
      match why with
      | .hostLost => s.endKilled k 2
      | .nkill => s.endKilled k 3
      | .cLost => s.endKilled k 4
      | _ =>
        if task.any (fun x => x.stage.mode == .exposed) && !n.idempotent then s.nodeTo k .exposedFaulted
        else if counts && (s.parts.get n.part).kmax < kills then s.endKilled k 1
        -- a node that has not fired keeps waiting; every other returns to FIRED with fresh state
        else if n.state = .ready || n.state = .fired && task.isNone then s
        else s.fireNode k (task.elim (s.parts.get n.part).firstCore (·.id.core)) (task.any (·.id.helper))

/-- The kill of a node, and the references that wait for a deque which it stood in, let in where that has room now (R283). -/
def State.kill (s : State) (k : Nat) (why : KillWhy) : State := (s.killNode k why).letInAt (s.holders k)

/-- The node of a task ends TRAPPED (R133, R236). -/
def State.endTrapped (s : State) (u : Nat) : State :=
  match s.taskOf u with
  | none => s
  | some x =>
    let s := (s.stopTask x).updNode x.id.node fun n =>
      { n with cause := x.trap.cause, depth := x.trap.depth, taddr := x.trap.addr }
    s.nodeTo x.id.node .trapped

end Sys2Proof.Machine
end

