-- ==== Sys2Proof/Machine/Check.lean ====
section
/-! DEFINITION. Partitions that change shape (R278), and failed checks: the machine-check log, the counts of errors, the
retirement of units and the loss of a cluster (R365 to R378, R380, R382). -/

namespace Sys2Proof.Machine

/-! Cores that leave a partition (R278). -/

def State.preemptIf (s : State) (f : Task → Bool) : State :=
  s.mapTasks fun x => if f x then { x with id := { x.id with preempt := true } } else x

/-- A leaving core's deques, as the partition's own, go whole and in order to the newest end of those of the remaining core with the
fewest entries, also beyond the bound of R283 (DESIGN CHOICE, log entry 126). -/
def State.moveDeque (s : State) (pi : Fin 16) (p : Part) (c : Nat) : State :=
  let d := s.fewest p
  if d = c then s
  else
    let from_ := s.core c
    let dst := s.core d
    let own (k : Nat) : Bool := (s.node k).any fun n => n.part == pi
    (s.setCore { dst with deque := from_.deque.filter own ++ dst.deque, hdeque := from_.hdeque.filter own ++ dst.hdeque }).setCore
      { from_ with deque := from_.deque.filter fun k => !own k, hdeque := from_.hdeque.filter fun k => !own k }

/-- A node whose WHERE has left the partition is re-mapped: the cluster of index n becomes that of index n mod m among those that
remain. -/
def Node.remap (n : Node) (pi : Fin 16) (now : BitVec 48) (left : Part) : Node :=
  let m := left.list.length
  if n.part = pi && n.place != 0 && !now.getLsbD n.cluster && m != 0 then { n with home := left.list[n.cluster % m]? } else n

/-- The partition, which holds `new` now, held `old` before. With no cluster in both, those that it holds now remain. -/
def State.recut (s : State) (pi : Fin 16) (old new : BitVec 48) : State :=
  let p := s.parts.get pi
  let gone := { p with clusters := old &&& ~~~new }.cores
  let left : Part := if old &&& new = 0 then p else { p with clusters := old &&& new }
  let s := { s with nodes := s.nodes.map fun (n : Node) => n.remap pi new left }
  let s := s.preemptIf fun x => x.id.part == pi && x.id.resident && gone.contains x.id.core
  gone.foldl (fun s c => s.moveDeque pi left c) s

/-- mepoch of a partition rises (R305). -/
def State.bumpEpoch (s : State) (pi : Fin 16) : State := s.updPart pi fun p => { p with mepoch := p.mepoch + 1 }

/-- The partition in use that holds a core. -/
def State.partOf (s : State) (core : Nat) : Option (Fin 16) :=
  (List.finRange 16).find? fun i => (s.parts.get i).inUse && (s.parts.get i).clusters.getLsbD (core / 8)

/-! Events for the Roskan controller (R392). -/

def State.report (s : State) (e : RosEvent) : State := { s with ros := { s.ros with events := s.ros.events ++ [e] } }

/-! CONTAINMENT-LOST (R380). -/

def State.loseContainment (s : State) : State :=
  if s.dev.cLost then s
  else
    let s := { s with dev := { s.dev with cLost := true } }
    let s := s.nodes.foldl (fun s n => s.kill n.key .cLost) s
    s.report .cLost

/-! The log (R368). -/

/-- A record for the log of a die, for the Roskan controller, and for the host. -/
def State.logRecord (s : State) (die : Fin 4) (d0 d1 d2 d3 : W64) : State :=
  let s := s.report (.machineCheck d0 d1 d2 d3)
  let base := fldOf (s.dev.mcbase.get die) 51 12 * 4096
  let s := s.queueMet base (64 + 256 * 32)
  let rec_ := leBytes 8 d0.toNat ++ leBytes 8 d1.toNat ++ leBytes 8 d2.toNat ++ leBytes 8 d3.toNat
  match s.postPhys base 32 rec_ with
  | some (s, _) => s.signal 0 1
  | none =>
    if queueOk base (64 + 256 * 32) then
      let ovf := (s.mem.hwWord (base + 8)).toNat
      s.devWrite none (base + 8) (leBytes 4 (min (ovf + 1) 0xFFFFFFFF))
    else s

/-! What a record names (R369). -/

/-- The SLOT of a syllable (R369). -/
def Kind.slot : Kind → Fin 12
  | .br => 0 | .sa => 1 | .sb => 2 | .am => 3 | .xf => 4 | .f => 5 | .xs => 6
  | .em => 7 | .et => 8 | .ev => 9 | .ec => 10 | .ek => 11

/-- SLOT and OPCODE of an instruction; zero where no syllable met the failure. -/
def slotOp (i : Option Instr) : Fin 12 × BitVec 7 :=
  match i.bind encode with
  | some (k, w :: _) => (Kind.slot k, BitVec.ofNat 7 (match k with | .f => bits w 27 22 | _ => bits w 26 20))
  | _ => (0, 0)

/-- What is carried out by the spare lane of a facet is its retired lane (R376). -/
def physLane (m : W64) (f : Fin 8) (lane : Nat) : Nat := if fldOf m (5 * f.val + 4) (5 * f.val) = lane then 16 else lane

/-! Counts (R374). -/

/-- The number of an array in the list of R366. -/
def Arr.num : Arr → Nat
  | .regs => 0 | .staging => 1 | .bench => 2 | .accumulators => 3 | .localStore => 4 | .mouldStore => 5 | .l1d => 6
  | .dieCache => 7 | .icache => 8 | .itlb => 9

/-- The unit that an error is charged to, under a map: its kind and its number on the core. While bundles are split the syllables of SA
and of SB run on the one unit that is left (R377). -/
def Upset.unit (x : Upset) (m : W64) : Nat × Nat :=
  match x.cls.val with
  | 1 => (1, if fldOf m 51 51 = 1 then 0 else x.slot.val)
  | 2 => (2, 0)
  | 3 | 4 => (3, x.facet.val * 32 + x.phys.toNat)
  | 5 | 6 => (5, 0)
  | 7 | 8 => (7, x.phys.toNat / 2)
  | 9 => (9, 0)
  | _ => (10, x.arr.num)

/-- The times that still lie within the window. -/
def State.inWindow (s : State) (ts : List Nat) : List Nat :=
  ts.filter fun t => s.ros.time.toNat - t ≤ fldOf s.dev.mcwin 15 0 * 60000000

def Core.count (c : Core) (k : Nat × Nat) : List Nat :=
  match c.errs.find? fun e => e.cls == k.1 && e.unit == k.2 with
  | some e => e.times
  | none => []

def Core.setCount (c : Core) (k : Nat × Nat) (ts : List Nat) : Core :=
  { c with errs := { cls := k.1, unit := k.2, times := ts } :: c.errs.filter fun e => !(e.cls == k.1 && e.unit == k.2) }

/-! The slot-to-engine map (R376). -/

/-- Bits `lo` to `hi` of a word set to a number. -/
def setFld (x : W64) (hi lo v : Nat) : W64 :=
  (x &&& ~~~(BitVec.ofNat 64 (2 ^ (hi + 1) - 2 ^ lo))) ||| BitVec.ofNat 64 (v % 2 ^ (hi + 1 - lo) * 2 ^ lo)

/-- A core without the counts of the units of a kind that meet a test. -/
def Core.clearCounts (c : Core) (kind : Nat) (f : Nat → Bool) : Core :=
  { c with errs := c.errs.filter fun e => !(e.cls == kind && f e.unit) }

/-- The error takes the first lane of its facet: the spare lane takes its place. -/
def Upset.lostLane (x : Upset) (m : W64) : Bool := fldOf m (5 * x.facet.val + 4) (5 * x.facet.val) == 31 && x.phys != 16

/-- What a retirement comes to: ACT and the core with its new map, the spare starting with a count of zero; none where no spare
remains and the core must go (R374, R375). -/
def retireUnit (c : Core) (x : Upset) : Option (Nat × Core) :=
  let m := c.semap
  let f := x.facet.val
  let u := x.unit m
  let one : Core := c.clearCounts u.1 fun n => n == u.2
  match x.cls.val with
  | 3 | 4 =>
    -- a first lane goes to the spare lane; a second one, or the spare lane, retires the datapath
    if x.lostLane m then some (1, { one with semap := setFld m (5 * f + 4) (5 * f) x.phys.toNat })
    else if fldOf m 43 40 = 15 then
      some (1, { c.clearCounts 3 (fun u => u / 32 == f) with semap := setFld (setFld m 43 40 f) (5 * f + 4) (5 * f) 31 })
    else none
  | 7 | 8 =>
    if fldOf m 49 44 = 63 then some (1, { one with semap := setFld m 49 44 (x.phys.toNat / 2) })
    else if fldOf m 50 50 = 0 then some (2, { one with semap := setFld m 50 50 1 })
    else none
  -- the unit that is left, 2 of SA and 1 of SB, keeps its count
  | 1 =>
    if fldOf m 51 51 = 0 then
      some (2, { (c.clearCounts 1 fun _ => true).setCount (1, 0) (c.count (1, 3 - x.slot.val)) with semap := setFld m 51 51 1 })
    else none
  | 10 => if (c.rows.filter (· == x.arr)).length < Config.spareRows x.arr.num then some (1, { one with rows := x.arr :: c.rows }) else none
  | _ => none

/-- mepoch of the partition that holds a core rises. -/
def State.bumpCore (s : State) (core : Nat) : State := match s.partOf core with | some pi => s.bumpEpoch pi | none => s

/-- One step of the steal generator (R285). -/
def stealStep (x : W32) : W32 :=
  let x := x ^^^ (x <<< 13)
  let x := x ^^^ (x >>> 17)
  x ^^^ (x <<< 5)

def stealSeed (core : Nat) : W32 :=
  let x : W32 := BitVec.ofNat 32 (core + 1) * 0x9E3779B9
  if x = 0 then 1 else x

/-- Every core of a partition seeds its steal generator, at each apply (R285). -/
def State.seedSteal (s : State) (pi : Fin 16) : State :=
  (s.parts.get pi).cores.foldl (fun (s : State) c => s.setCore { s.core c with gen := stealSeed c }) s

/-- A cluster whose core must go: the die's spare cluster takes its logical number (`phys`), or it leaves service, its number goes unused
and its partition is applied again without it (R2, R375, R377, R383). DESIGN CHOICE, log entry 56: the cores of the spare cluster hold what
those they replace held in local stores, TLBs, instruction caches and resident tasks. -/
def State.loseCluster (s : State) (cl : Nat) : State :=
  let die : Fin 4 := Fin.ofNat 4 (cl / 12)
  let each (s : State) (f : Core → Core) : State := (List.range 8).foldl (fun s i => s.setCore (f (s.core (cl * 8 + i)))) s
  match s.dev.spares.get die with
  | some spare =>
    let s := { s with dev := { s.dev with spares := s.dev.spares.set die none, phys := s.dev.phys.set (Fin.ofNat 48 cl) spare
                                          patcap := s.dev.patcap.set (Fin.ofNat 48 cl) (1700, 0) } }
    (each s fun c => { c with semap := semapFresh, errs := [], rows := [] }).bumpCore (cl * 8)
  | none =>
    let s := { s with dev := { s.dev with lost := s.dev.lost ||| (1 : BitVec 48) <<< cl } }
    let s := each s fun c => { c with semap := setFld c.semap 63 63 1 }
    match s.partOf (cl * 8) with
    | none => s
    | some pi =>
      let old := (s.parts.get pi).clusters
      let new := old &&& ~~~((1 : BitVec 48) <<< cl)
      let s := s.bumpEpoch pi
      if new = 0 then
        let s := (s.updPart pi fun p => { p with op := .releasing }).report (.partLost pi)
        s.preemptIf fun x => x.id.part == pi && x.id.resident
      else (((s.updPart pi fun p => { p with clusters := new }).seedSteal pi).recut pi old new).letInAll pi

/-- The unit of an error is retired: ACT, and the device with its new map. -/
def State.retire (s : State) (core : Nat) (x : Upset) : Nat × State :=
  let c := s.core core
  match retireUnit c x with
  | some (act, c') =>
    let s := s.setCore c'
    (act, if c'.semap = c.semap then s else s.bumpCore core)
  | none => (3, s.loseCluster (core / 8))

/-! A machine check (R365, R367, R369, R371, R372). -/

/-- A record of an error that retires a facet's datapath, beyond a lane, names the physical datapath that held the facet: the spare one is
number 8 (DESIGN CHOICE, log entry 111). `m` is the map before. -/
def Upset.retiring (x : Upset) (m : W64) (act : Nat) : Upset :=
  if (x.cls == 3 || x.cls == 4) && act != 0 && !x.lostLane m then
    { x with phys := BitVec.ofNat 7 (if fldOf m 43 40 = x.facet.val then 8 else x.facet.val) }
  else x

/-- Dword 0 of a record. -/
def mcWord0 (core : Nat) (helper : Bool) (x : Upset) (n act : Nat) : W64 :=
  BitVec.ofNat 64 (x.cls.val * 2 ^ 60 + core % 512 * 2 ^ 51 + (if helper then 2 ^ 50 else 0) + x.slot.val * 2 ^ 46 +
    x.op.toNat * 2 ^ 39 + x.facet.val * 2 ^ 36 + x.lane.toNat * 2 ^ 29 + x.phys.toNat * 2 ^ 22 + min n 15 * 2 ^ 18 +
    act * 2 ^ 16 + x.syn.toNat)

/-- An error counted against its unit on a core: the count, ACT of a lasting one, and what is left. -/
def State.charge (s : State) (core : Nat) (x : Upset) : Nat × Nat × State :=
  let c := s.core core
  let u := x.unit c.semap
  let ts := s.inWindow (c.count u) ++ [s.ros.time.toNat]
  let s := s.setCore (c.setCount u ts)
  let (act, s) := if fldOf s.dev.mcwin 19 16 ≤ ts.length then s.retire core x else (0, s)
  (ts.length, act, s)

/-- The killed node of a core that has been retired: a pinned one follows its core's number, any other goes to the deque with the
fewest entries (R373). -/
def State.rehome (s : State) (k : Nat) : State :=
  match s.node k with
  | none => s
  | some n =>
    if n.state != .fired || n.timetabled then s
    else
      let from_ := s.holders k
      let s := s.unqueue k
      (s.push n (s.fewest (s.parts.get n.part)) false).letInAt from_

/-- The record of one failed check of task `t` at bundle address `at_`. `seen` is the count of an error that no unit of the core is
charged with. In a cast the record names MADDR. -/
def State.checkRecord (s : State) (t : Task) (x : Upset) (at_ : VAddr) (seen : Option Nat) : State :=
  let core := t.id.core
  let m := (s.core core).semap
  let (n, act, s) := match seen with
    | some n => (n, 0, s)
    | none => s.charge core x
  let s := if act = 3 then s.rehome t.id.node else s
  let addr := match t.cast with | some c => c.maddr | none => at_
  s.logRecord (Fin.ofNat 4 (core / 96)) (mcWord0 core t.id.helper (x.retiring m act) n act)
    (addr.setWidth 64) (BitVec.ofNat 64 (t.id.nodeId.toNat * 2 ^ 32 + (asidOf t.dtroot).toNat * 2 ^ 24)) s.ros.time

/-- One failed check for each unit, the first, under the map of the core. -/
def oneEach (m : W64) : List (Upset × VAddr × Option Nat) → List (Upset × VAddr × Option Nat)
  | [] => []
  | x :: l => x :: (oneEach m l).filter fun y => !(y.1.unit m == x.1.unit m && y.2.2.isNone && x.2.2.isNone)

/-- Failed checks of a task's work in one cycle: its node is killed once, a record is written for each unit, and a lasting error
retires its unit between the kill and the re-run (R365, R372). -/
def State.machineCheck (s : State) (u : Nat) (l : List (Upset × VAddr × Option Nat)) : State :=
  match s.taskOf u with
  | none => s
  | some t => if l.isEmpty then s else (oneEach (s.core t.id.core).semap l).foldl (fun s x => s.checkRecord t x.1 x.2.1 x.2.2) (s.kill t.id.node .check)

/-- An error that no context consumes: it is counted against its array, and a retirement leaves its record (R366, R368, R375). -/
def State.softError (s : State) (core : Nat) (a : Arr) : State :=
  let x : Upset :=
    { cls := 10, slot := 0, op := 0, facet := 0, lane := 0, phys := 0, arr := a, syn := (Config.freeWord s.fv core).setWidth 16 }
  let (n, act, s) := State.charge { s with fv := s.fv + 1 } core x
  if act = 0 then s
  else
    s.logRecord (Fin.ofNat 4 (core / 96)) (mcWord0 core false x n act) 0 (BitVec.ofNat 64 (0xFFFFFFFF * 2 ^ 32)) s.ros.time

/-- A parity error: entry `k` of the instruction cache or of the instruction TLB is gone (R366). -/
def State.parityError (s : State) (core : Nat) (itlb : Bool) (k : Nat) : State :=
  let c := s.core core
  let c := if itlb then { c with itlb := c.itlb.eraseIdx k } else { c with icache := c.icache.eraseIdx k }
  (s.setCore c).softError core (if itlb then .itlb else .icache)

/-! Errors of the memory stacks (R378). -/

def frameCount (m : Mem) (f : Nat) : List Nat :=
  match m.frames.find? fun x => x.1 == f with
  | some x => x.2
  | none => []

/-- The stack of 64 GiB that a frame belongs to. -/
def stackOf (f : Nat) : Nat := f / 2 ^ 20

/-- An error in a frame; an uncorrectable one poisons its line. A frame with THRESH errors in the window goes to a spare
frame of its stack, or, with no spare left, to the retired-frame list. -/
def State.frameError (s : State) (f : Nat) (line : Option Nat) : State :=
  if 2 ^ 23 ≤ f then s
  else
    let ts := s.inWindow (frameCount s.mem f) ++ [s.ros.time.toNat]
    let poison := match line with
      | some l => if s.mem.poison.contains (f * 1024 + l % 1024) then s.mem.poison else (f * 1024 + l % 1024) :: s.mem.poison
      | none => s.mem.poison
    let lasting := fldOf s.dev.mcwin 19 16 ≤ ts.length
    let spare := (s.mem.remap.filter fun x => stackOf x == stackOf f).length < 1024
    let m := { s.mem with poison := poison, frames := (f, if lasting then [] else ts) :: s.mem.frames.filter fun x => x.1 != f }
    let m := if !lasting then m else if spare then { m with remap := f :: m.remap } else { m with retired := f :: m.retired }
    { s with mem := m }

/-- A read at a level meets the poison of a line, unless a write that replaces all of the line is visible there (R378). -/
def State.badLine (s : State) (l : Level) (u core line : Nat) : Bool :=
  s.mem.poison.contains line &&
    !(s.mem.narrow.any fun w => w.visible l u core && w.pa ≤ line * 64 && line * 64 + 64 ≤ w.pa + w.bytes.length)

/-- The first poisoned line among some bytes. -/
def State.badIn (s : State) (l : Level) (u core pa n : Nat) : Option Nat := (linesOf pa n).find? (s.badLine l u core)

/-! The copies of the containment structures (R379). -/

/-- What every copy of an entry should read. -/
def Mem.entryOf (m : Mem) (t : CTable) (key : Nat) : Bool :=
  match t with
  | .poison => m.poison.contains key
  | .retired => m.retired.contains key
  | .remap => m.remap.contains key

def Mem.setEntry (m : Mem) (t : CTable) (key : Nat) (v : Bool) : Mem :=
  let set (l : List Nat) : List Nat := if v then (if l.contains key then l else key :: l) else l.filter fun x => x != key
  match t with
  | .poison => { m with poison := set m.poison }
  | .retired => { m with retired := set m.retired }
  | .remap => { m with remap := set m.remap }

def CTable.copies : CTable → Nat
  | .poison | .retired => 2
  | .remap => 3

/-- What the copies of an entry read, those that fail their codes left out. -/
def State.copyReads (s : State) (t : CTable) (key : Nat) : List Bool :=
  (List.range t.copies).filterMap fun i =>
    match s.ros.copies.find? fun e => e.table == t && e.key == key && e.copy == i with
    | some e => e.reads
    | none => some (s.mem.entryOf t key)

/-- What an entry is rewritten to: of two copies, what every valid one reads; of three, what two agree in. None where they cannot be
reconciled. -/
def agreed (t : CTable) (l : List Bool) : Option Bool :=
  match t with
  | .remap => [true, false].find? fun v => 2 ≤ (l.filter (· == v)).length
  | _ => [true, false].find? fun v => !l.isEmpty && l.all (· == v)

/-- The copies of an entry compared. -/
def State.compareCopies (s : State) (t : CTable) (key : Nat) : State :=
  if s.ros.copies.any fun e => e.table == t && e.key == key then
    match agreed t (s.copyReads t key) with
    | some v =>
      { s with mem := s.mem.setEntry t key v
               ros := { s.ros with copies := s.ros.copies.filter fun e => !(e.table == t && e.key == key) } }
    | none => s.loseContainment
  else s

/-- A look-up of the lines of some physical bytes compares the copies that it meets. -/
def State.lookupCopies (s : State) (pas : List (Nat × Nat)) : State :=
  s.ros.copies.foldl (fun s e =>
    let met : Bool := pas.any fun p =>
      (linesOf p.1 p.2).any fun l => match e.table with | .poison => l == e.key | _ => l / 1024 == e.key
    if met then s.compareCopies e.table e.key else s) s

/-- The look-up of the lines that a read of the current tenant's memory by the queue controller meets, and the first that is poisoned. -/
def State.tenantMeet (s : State) (pi : Fin 16) (va n : Nat) : State × Option Nat :=
  let p := s.parts.get pi
  let ls := s.tenantLines pi p.dtroot p.asid va n
  let s := s.lookupCopies (ls.map fun l => (l * 64, 64))
  (s, ls.find? (s.badLine 4 0 0))

/-- The scrub compares all of them. -/
def State.scrubCopies (s : State) : State := s.ros.copies.foldl (fun s e => s.compareCopies e.table e.key) s

end Sys2Proof.Machine
end

