-- ==== Sys2Proof/Machine/Ops.lean ====
section
/-! DEFINITION. The shared operations of a core: guards, writes in flight and their landings (R117 to R121), holds and
freezes, taking a trap and returning from one (R133 to R136), accesses at issue (R163, R234), and staging (R254). -/

namespace Sys2Proof.Machine

abbrev Out := Host.Outcome State Fault Refusal

/-- Structural insertion by a key, after every element with an equal key. -/
def insertBy {α : Type} (key : α → Nat) (x : α) : List α → List α
  | [] => [x]
  | y :: l => if key x < key y then x :: y :: l else y :: insertBy key x l

/-- A stable sort by a key. -/
def sortBy {α : Type} (key : α → Nat) (l : List α) : List α := l.foldl (fun acc x => insertBy key x acc) []

/-! Guards (R22). -/

def State.on (s : State) (g : Fin 16) : Bool := s.t.p.getLsbD g.val

/-- A meaning under a guard predicate: a disabled syllable has no effect. -/
def guarded (g : Fin 16) (f : State → State) (s : State) : Out := .next (if s.on g then f s else s)

def State.withT (s : State) (f : Task → Task) : State := { s with t := f s.t }

def State.setRun (s : State) (r : Run) : State := s.withT fun t => { t with run := r }

/-- The bundle does not issue, and nothing changes (R55, R147, R148). -/
def State.hold (s : State) : State := s.setRun .held

/-- The core freezes (R235). -/
def State.freeze (s : State) (f : Freeze) : State := s.withT fun t => { t with frz := some f }

/-! What stops an issue. A hold comes before every trap of a syllable, and those before a translation (R234). -/

/-- 0: the bundle goes on; else 1 a freeze, 2 a trap, 3 a WAIT that parks, 4 a hold. -/
def State.stopRank (s : State) : Nat :=
  match s.t.run with
  | .held => 4
  | .parked (.kc _) _ => 3
  | .trapDrain r => if r.at_ = s.t.bidx then 2 else if s.t.frz.isSome then 1 else 0
  | _ => if s.t.frz.isSome then 1 else 0

/-- One more step of the same bundle after `cur`; `worst` is the first of the strongest stops so far. -/
def joinStop (acc : State × Option State) (next : State) : State × Option State :=
  if next.stopRank = 0 then (next, acc.2)
  else
    match acc.2 with
    | some w => if w.stopRank < next.stopRank then (acc.1, some next) else acc
    | none => (acc.1, some next)

/-- Steps of one bundle, one after the other. -/
def State.seqAll (s : State) (l : List (State → State)) : State :=
  let (cur, worst) := l.foldl (fun (acc : State × Option State) f => joinStop acc (f acc.1)) (s, none)
  worst.getD cur

/-! Origins (R299). -/

def Origin.join (a b : Origin) : Origin := { args := a.args ||| b.args, data := a.data || b.data }

/-- The origin of a result that comes from a load, a CSRR or a transfer from a facet. -/
def Origin.dat : Origin := { args := 0, data := true }

/-! Writes in flight. -/

def Dst.flight : Dst → FDst
  | .s i => .s i
  | .bs i => .bs i

/-- A write issued by the current bundle with latency `lat` (R117). -/
def State.fly (s : State) (d : FDst) (lat : Nat) (v : FVal) (o : Origin) : State :=
  s.withT fun t =>
    { t with
      flights := t.flights ++ [{ id := t.seq, dst := d, iss := t.bidx, land := t.bidx + lat, val := v, org := o }]
      seq := t.seq + 1 }

/-- A scalar result with the origin of its sources and its guard. -/
def State.wr (s : State) (g : Fin 16) (d : Dst) (lat : Nat) (x : W64) (o : Origin) : State :=
  s.fly (Dst.flight d) lat (.w x) (o.join (s.t.porg.get g))

/-! Facet registers. -/

def Task.facet (t : Task) (f : Fin 8) : Facet := t.fac.get f

def Task.updFacet (t : Task) (f : Fin 8) (g : Facet → Facet) : Task := { t with fac := t.fac.set f (g (t.fac.get f)) }

/-- The lanes of `m` take the new value. -/
def mergeLanes {α : Type} (m : BitVec 16) (old new : Vector α 16) : Vector α 16 :=
  vecOf fun l => if m.getLsbD l.val then new.get l else old.get l

/-- The bits of `m` take the new value. -/
def mergeBits {w : Nat} (m old new : BitVec w) : BitVec w := (m &&& new) ||| (~~~m &&& old)

/-- The value a bypass reads as in bundle `b` (R121). -/
def Byp.read (x : Byp) (b : Nat) : W64 := if x.born ≤ b ∧ b < x.stop then x.val else 0

def FByp.read (x : FByp) (b : Nat) : Lanes := if x.born ≤ b ∧ b < x.stop then x.val else Vector.replicate 16 0

/-- A write of a facet register landing at bundle `b`: a bypass starts a window of three bundles for every lane, and
a lane that the write disables keeps what it reads then (R121, R203). -/
def Facet.setV (x : Facet) (r : VReg) (b : Nat) (m : BitVec 16) (v : Lanes) : Facet :=
  match r with
  | .v i => { x with v := x.v.set i (mergeLanes m (x.v.get i) v) }
  | .bf i =>
    { x with bf := x.bf.set i { val := mergeLanes m ((x.bf.get i).read b) v, born := b, stop := b + 3 } }

/-- A mask pair of R23: even register and complement, in the lanes of `m`. -/
def Facet.setQ (x : Facet) (pair : Fin 4) (m c : BitVec 16) : Facet :=
  if pair = 0 then x
  else
    let e : Fin 8 := Fin.ofNat 8 (2 * pair.val)
    let o : Fin 8 := Fin.ofNat 8 (2 * pair.val + 1)
    { x with q := (x.q.set e (mergeBits m (x.q.get e) c)).set o (mergeBits m (x.q.get o) (~~~c)) }

/-- A distribution register: lanes of `m`, dependence mask and aligned flag (R342). -/
def mergeD (m : BitVec 16) (old new : DReg) : DReg :=
  { lanes := mergeLanes m old.lanes new.lanes, mask := new.mask, aligned := new.aligned }

/-- Flags as a facet's seven-bit status. -/
def Facet.raise (x : Facet) (fl : BitVec 7) : Facet := { x with fsr := x.fsr ||| fl, fresh := x.fresh ||| fl }

/-- The predicate pair of R23. -/
def setPair (p : BitVec 16) (pair : Fin 8) (c : Bool) : BitVec 16 :=
  if pair = 0 then p
  else
    let e : BitVec 16 := (1 : BitVec 16) <<< (2 * pair.val)
    let o : BitVec 16 := (2 : BitVec 16) <<< (2 * pair.val)
    if c then (p ||| e) &&& ~~~o else (p ||| o) &&& ~~~e

/-! Landings. -/

/-- A count added to fufcnt, which saturates (R75). -/
def satCount (a : W32) (n : Nat) : W32 := BitVec.ofNat 32 (min (a.toNat + n) 0xFFFFFFFF)

/-- One write in flight lands (R118, R121, R202). A CSRW takes effect after its own bundle instead (R171). -/
def Task.land1 (t : Task) (fl : Flight) : Task :=
  match fl.dst, fl.val with
  | .s i, .w x => if i = 0 then t else { t with s := t.s.set i x, sorg := t.sorg.set i fl.org }
  | .bs i, .w x => { t with bs := t.bs.set i { val := x, born := fl.land, stop := fl.land + 3, org := fl.org } }
  | .p pair, .pair _ c =>
    let e : Fin 16 := Fin.ofNat 16 (2 * pair.val)
    let o : Fin 16 := Fin.ofNat 16 (2 * pair.val + 1)
    if pair = 0 then t
    else { t with p := setPair t.p pair (c.getLsbD 0), porg := (t.porg.set e fl.org).set o fl.org }
  | .stg i, .w x =>
    { t with stg := t.stg.set i x, storg := t.storg.set i { org := fl.org, patch := none, ok := true } }
  | .stg i, .patch x k off ok =>
    { t with stg := t.stg.set i x, storg := t.storg.set i { org := fl.org, patch := some (k, off), ok := ok } }
  | .v f r, .lanes m x => t.updFacet f fun c => c.setV r fl.land m x
  | .q f pair, .pair m c => t.updFacet f fun x => x.setQ pair m c
  | .d f i, .dist m x => t.updFacet f fun c => { c with d := c.d.set i (mergeD m (c.d.get i) x) }
  | .fsr f, .w x => t.updFacet f fun c => c.raise (x.setWidth 7)
  | .ufcnt, .w x =>
    { t with fp := { t.fp with fufcnt := satCount t.fp.fufcnt x.toNat, fresh := t.fp.fresh + x.toNat } }
  | _, _ => t

def Flight.waits (fl : Flight) : Bool := fl.val == .wait

/-- The writes whose scheduled landing is bundle `b` or earlier land, the earlier landing first and, within one
landing, the earlier bundle first (R118). -/
def Task.landTo (t : Task) (b : Nat) : Task :=
  let due (fl : Flight) : Bool := fl.land ≤ b && !fl.waits
  let ls := sortBy (·.land) (t.flights.filter due)
  let t := { t with flights := t.flights.filter fun fl => !due fl }
  ls.foldl Task.land1 t

/-- What landed at a bundle is no longer fresh once it has issued, or once a drain ends. -/
def Task.unfresh (t : Task) : Task :=
  { t with fac := vecOf fun f => { t.fac.get f with fresh := 0 }, fp := { t.fp with fresh := 0 } }

/-- Every write lands (R133, R138). -/
def Task.landAll (t : Task) : Task := (t.landTo (t.flights.foldl (fun n fl => max n fl.land) t.bidx)).unfresh

/-- A write that lands at no exposed latency (R127). One that lands while the task is parked stands after its resumption; one that
lands while it is suspended does where the register lives (R264, R291). -/
def Task.asyncS (t : Task) (i : Fin 56) (x : W64) : Task :=
  let put (kept : BitVec 56) : Task := { t with s := t.s.set i x, sorg := t.sorg.set i Origin.dat, kept := kept }
  if i = 0 then t
  else
    match t.run with
    | .parked .. => put (t.kept ||| (1 : BitVec 56) <<< i.val)
    | .suspended => if t.kept.getLsbD i.val then put t.kept else t
    | _ => put t.kept

/-! Drains (R133). -/

/-- The instance that a collective has joined waits for no other rank: as many members as it has ranks have joined it, or more, or it has
ended (R325, R381). -/
def State.collFull (s : State) (uid ek : Nat) : Bool :=
  s.colls.any fun c => (c.started || c.size ≤ c.members.length) && c.members.any fun m => m.task == uid && m.ek == ek

/-- An EK command that waits on another party, or for the DONE of its node: a collective until its last rank joins, a SPAWN
once its status stands. -/
def State.ekIdle (s : State) (e : Ek) : Bool :=
  (e.deferred && (match e.op with | .spawn .. => e.status.isSome | _ => true)) ||
    (match e.op with
    | .coll .. => !s.collFull s.t.id.uid e.id
    | .gbar => e.waiting
    | .qtake .. => e.waiting
    | .krecv .. => (match s.node s.t.id.node with | some n => n.mbox.isEmpty | none => true)
    | .ksend target _ _ => (s.mailbox target).any fun n => 16 ≤ n.mbox.length
    | _ => false)

/-- Every operation in flight of the current task has landed and every engine command has completed. -/
def State.drained (s : State) : Bool :=
  s.t.acc.isEmpty && s.t.cmds.isEmpty && s.t.eks.all s.ekIdle

/-! Taking a trap (R133, R134). -/

/-- The depth count (R40). -/
def Task.depth (t : Task) : Nat := t.stk.map.length

/-- The trap of the bundle being issued, which has no effect: the drain begins. -/
def State.trap (s : State) (code : Nat) (need : Nat := 0) : State :=
  s.setRun (.trapDrain { code := code, need := need, depth := s.t.depth, addr := s.t.latch.addr
                         ret := s.t.latch.addr, at_ := s.t.bidx })

/-- The trap of TRAP and BRK, whose bundle issues in full; the resume address is set when it has (R133). -/
def State.trapAfter (s : State) (code : Nat) : State :=
  s.setRun (.trapDrain { code := code, need := 0, depth := s.t.depth, addr := s.t.latch.addr
                         ret := s.t.latch.next, at_ := s.t.bidx + 1 })

/-- DELAY and LEFT of a bypass window at bundle `b` (R134). -/
def saveDelay (born b : Nat) : BitVec 4 := BitVec.ofNat 4 (born - b)
def saveLeft (born stop b : Nat) : BitVec 2 := BitVec.ofNat 2 (stop - max born b)

/-- trbl: DELAY and LEFT of the four scalar bypasses. -/
def saveBl (bs : Vector Byp 4) (b : Nat) : BitVec 24 :=
  let one (i : Fin 4) : BitVec 24 :=
    let x := bs.get i
    ((saveDelay x.born b).setWidth 24 * 4 + (saveLeft x.born x.stop b).setWidth 24) <<< (6 * i.val)
  one 0 ||| one 1 ||| one 2 ||| one 3

/-- A facet bypass in the record. -/
def saveFb (fac : Vector Facet 8) (b : Nat) : Vector FSave 32 :=
  vecOf fun i =>
    let x := (fac.get (Fin.ofNat 8 (i.val / 4))).bf.get (Fin.ofNat 4 (i.val % 4))
    { delay := saveDelay x.born b, left := saveLeft x.born x.stop b, val := x.val }

/-- trpt: the pending transfers, soonest first, counted from bundle `b`. -/
def savePt (l : List Pend) (b : Nat) : Vector W64 3 :=
  let l := sortBy (·.due) l
  vecOf fun i => match l[i.val]? with
    | some x => BitVec.ofNat 64 (2 ^ 63 + (x.due + 1 - b) * 2 ^ 60 + x.target.toNat)
    | none => 0

/-- trcause: NEED above CODE (R11). -/
def causeWord (code need : Nat) : BitVec 21 := BitVec.ofNat 21 (need * 256 + code)

/-- The record of a trap; INTRAP stays as it is. VALUE of a bypass with LEFT = 0 is what the bypass held last (DESIGN CHOICE, log entry
120), and of two windows that overlap the record keeps the later value (log entry 22). -/
def trapRecord (t : Task) (r : TrapReq) : TrapRec :=
  { t.trap with
    cause := causeWord r.code r.need, depth := BitVec.ofNat 13 r.depth, addr := r.addr, ret := r.ret
    nest := t.trap.intrap
    bl := saveBl t.bs r.at_, bs := vecOf fun i => (t.bs.get i).val, fb := saveFb t.fac r.at_, pt := savePt t.pend r.at_ }

/-- Every bypass and pending transfer cleared. -/
def Task.clearTransit (t : Task) : Task :=
  { t with
    bs := Vector.replicate 4 Byp.dead, pend := []
    fac := vecOf fun f => { t.fac.get f with bf := Vector.replicate 4 FByp.dead } }

/-- A node takes the cause of its last trap (R269). -/
def State.noteTrap (s : State) : State :=
  s.updNode s.t.id.node fun n =>
    { n with cause := s.t.trap.cause, depth := s.t.trap.depth, taddr := s.t.trap.addr }

/-- The end of the drain of a trap (R133). A cast has no routine to enter (R307). -/
def State.finishTrap (s : State) (r : TrapReq) : State :=
  let t := s.t.landAll
  let nested := t.trap.intrap
  let rec1 := trapRecord t r
  let t := { t with trap := rec1, bidx := r.at_, ran := [] }.clearTransit
  let s := (s.setT t).abortMould 8
  if nested || t.id.trapr = 0 || t.cast.isSome then s.endTrapped t.id.uid
  else
    s.noteTrap.withT fun t =>
      { t with trap := { t.trap with intrap := true }, pc := t.id.trapr, run := .running }

/-! Returning from a trap routine (R136). -/

/-- A bypass restored at bundle `b`. -/
def loadByp (bl : BitVec 24) (i : Fin 4) (v : W64) (b : Nat) : Byp :=
  let d := bits bl.toNat (6 * i.val + 5) (6 * i.val + 2)
  let l := bits bl.toNat (6 * i.val + 1) (6 * i.val)
  { val := v, born := b + d, stop := b + d + l, org := Origin.dat }

def loadFb (x : FSave) (b : Nat) : FByp :=
  { val := x.val, born := b + x.delay.toNat, stop := b + x.delay.toNat + x.left.toNat }

/-- The valid entries of trpt0 to trpt2. -/
def loadPt (pt : Vector W64 3) (b : Nat) : List Pend :=
  pt.toList.filterMap fun x =>
    if x.getLsbD 63 then some { due := b + fldOf x 61 60 - 1, target := x.setWidth 57 } else none

/-- The end of the drain of an ERET. -/
def State.finishEret (s : State) : State :=
  s.withT fun t =>
    let t := t.landAll
    let b := t.bidx
    let r := t.trap
    { t with
      bs := vecOf fun i => loadByp r.bl i (r.bs.get i) b
      fac := vecOf fun f => { t.fac.get f with bf := vecOf fun i => loadFb (r.fb.get (Fin.ofNat 32 (4 * f.val + i.val))) b }
      pend := loadPt r.pt b
      trap := { r with intrap := false }
      pc := r.ret, run := .running }

/-! Transfers (R122, R141). -/

/-- A taken transfer: the target check, the collision check, and the pending transfer. DESIGN CHOICE, log entry 75: the
target check comes first. -/
def State.transfer (s : State) (target : W64) (delay : Nat) (after : State → State) : State :=
  if target.toNat % 8 ≠ 0 || 2 ^ 57 ≤ target.toNat then s.trap 0x15
  else if s.t.pend.any fun p => p.due == s.t.bidx + delay then s.trap 0x11
  else
    after (s.withT fun t => { t with pend := t.pend ++ [{ due := t.bidx + delay, target := target.setWidth 57 }] })

/-! Scopes (R242). -/

/-- The level of the ordering machine and the scope code of an access, with .grp resolved. -/
def State.scope (s : State) (sc : Scope) : Level × Nat :=
  match sc with
  | .task => (0, 0)
  | .core => (1, 1)
  | .clu => (2, 2)
  | .die => (3, 3)
  | .grp =>
    match s.t.id.group with
    | none => (0, 0)
    | some g =>
      let ms := s.tasks.filter fun x => x.id.group == some g && x.id.part == s.t.id.part && x.run != .ended
      let same (k : Nat) : Bool := ms.all fun x => x.id.core / k == s.t.id.core / k
      if same 8 then (2, 2) else if same 96 then (3, 3) else (4, 4)
  | .dev => (4, 4)
  | .host => (4, 6)
  | .node => (4, 7)
  | .dom => (4, 8)
  | .sys => (4, 9)

/-! Counters (R147). -/

inductive Cnt where
  | ld | st | cp | tl | kc
  deriving DecidableEq, Repr

def Counters.get (c : Counters) : Cnt → Nat
  | .ld => c.ld | .st => c.st | .cp => c.cp | .tl => c.tl | .kc => c.kc

def Counters.add (c : Counters) (k : Cnt) : Counters :=
  match k with
  | .ld => { c with ld := c.ld + 1 }
  | .st => { c with st := c.st + 1 }
  | .cp => { c with cp := c.cp + 1 }
  | .tl => { c with tl := c.tl + 1 }
  | .kc => { c with kc := c.kc + 1 }

def Counters.sub (c : Counters) (k : Cnt) : Counters :=
  match k with
  | .ld => { c with ld := c.ld - 1 }
  | .st => { c with st := c.st - 1 }
  | .cp => { c with cp := c.cp - 1 }
  | .tl => { c with tl := c.tl - 1 }
  | .kc => { c with kc := c.kc - 1 }

def Cnt.max : Cnt → Nat
  | .ld => 16 | .st => 32 | .cp => 16 | .tl => 32 | .kc => 16

def State.count (s : State) (k : Cnt) : State := s.withT fun t => { t with cnt := t.cnt.add k }

def State.uncount (s : State) (k : Cnt) : State := s.withT fun t => { t with cnt := t.cnt.sub k }

def State.full (s : State) (k : Cnt) : Bool := k.max ≤ s.t.cnt.get k

def State.cntFull (s : State) (c : Option Cnt) : Bool := match c with | some k => s.full k | none => false

/-! Classes of R148. -/

def cLD : BitVec 6 := 1
def cST : BitVec 6 := 2
def cCR : BitVec 6 := 4
def cCW : BitVec 6 := 8
def cKR : BitVec 6 := 16
def cKW : BitVec 6 := 32

def overlap (a n b m : Nat) : Bool := a < b + m && b < a + n

/-- A fence in force holds an access of these classes and virtual ranges; `loc` marks LDL and STL, which are in no
range (R148, R149). -/
def Fence.holds (f : Fence) (cls : BitVec 6) (rs : List (Nat × Nat)) (loc : Bool) : Bool :=
  f.succ &&& cls != 0 &&
    (match f.range with
    | none => true
    | some (a, n) => !loc && rs.any fun r => overlap a n r.1 r.2)

/-- A fence holds the bundles after its own. -/
def State.fenced (s : State) (cls : BitVec 6) (rs : List (Nat × Nat)) (loc : Bool) : Bool :=
  s.t.fences.any fun f => !f.done && f.iss < s.t.bidx && f.holds cls rs loc

/-- A successor of fences that wait no longer is released: pts rises to the largest t among what they waited for (R216). -/
def Task.release (t : Task) (cls : BitVec 6) (rs : List (Nat × Nat)) (loc : Bool) : Task :=
  let freed (f : Fence) : Bool := f.done && f.iss < t.bidx && f.holds cls rs loc
  { t with
    pts := (t.fences.filter freed).foldl (fun p f => max p f.tmax) t.pts
    fences := t.fences.filter fun f => !freed f }

/-- The physical bytes that a virtual range names, as its tables stand. -/
def State.physRanges (s : State) (va n : Nat) (root : W64 := s.t.dtroot) : List (Nat × Nat) :=
  ((splitPages va n).filter fun x => x.1 < 2 ^ 57).filterMap fun x =>
    match s.walk false (rootOf root) (asidOf root) x.1 with
    | .leaf e => some (s.phys (e.tr x.1).pa, x.2)
    | .bad .. => none

/-- An earlier tile transfer, whose rows hold later accesses (R250). -/
def State.earlierTile (s : State) (a : Acc) : Bool :=
  (match a.op with | .tld _ | .tst _ => true | _ => false) && a.iss < s.t.bidx

/-- The rows of earlier tile transfers that are not performed, with the data root of each. -/
def State.tileRows (s : State) : List (W64 × Piece) :=
  (s.t.acc.filter s.earlierTile).flatMap fun a => a.pieces.map fun p => (a.root, p)

/-- An earlier gather has not read its indices: any byte may be one of its rows. -/
def State.rowsUnknown (s : State) : Bool :=
  s.t.acc.any fun a => s.earlierTile a && a.pieces.isEmpty && a.got.isEmpty

/-- Such a row overlaps the access, in virtual or in physical bytes (R250). LDL and STL name offsets of the core's
own local store. -/
def State.tileHeld (s : State) (rs : List (Nat × Nat)) (loc : Bool) : Bool :=
  s.rowsUnknown ||
  match s.tileRows with
  | [] => false
  | ps =>
    let mine : List (Nat × Nat) :=
      if loc then rs.map fun r => (windowPa s.t.id.core r.1, r.2) else rs.flatMap fun r => s.physRanges r.1 r.2
    ps.any fun p =>
      (!loc && rs.any fun r => overlap p.2.va p.2.len r.1 r.2) ||
        ((s.physRanges p.2.va p.2.len p.1).any fun q => mine.any fun r => overlap q.1 q.2 r.1 r.2)

/-- R148, R149, R250. -/
def State.memHeld (s : State) (cls : BitVec 6) (rs : List (Nat × Nat)) (loc : Bool) : Bool :=
  s.fenced cls rs loc || s.tileHeld rs loc

/-! Translation at issue (R234). -/

/-- The level of a leaf by its page size (R219). -/
def TlbEnt.level (e : TlbEnt) : Nat := if e.size = 2 ^ 30 then 2 else if e.size = 2 ^ 21 then 3 else 4

/-- LEVEL and ENTRY of a fault found behind a TLB entry (R237). -/
def State.faultInfo (s : State) (root : W64) (va cause : Nat) : Nat × W64 :=
  if 6 ≤ cause then (0, 0)
  else
    match tlbFind (s.core s.t.id.core).dtlb (asidOf root) va with
    | some e => (e.level, e.leaf)
    | none => (0, 0)

/-- A freeze for what stopped a look-up. -/
def State.stopAt (s : State) (r : MemReq) (why : Look) : State :=
  match why with
  | .ok _ => s
  | .miss => s.freeze (.walk r)
  | .fault c =>
    let (l, e) := s.faultInfo r.root r.va c
    s.freeze (.fault r c l e none)
  | .hostLost => s.freeze .host

/-- A request of the bundle being issued. -/
def State.req (s : State) (va kind scope : Nat) (write : Bool) : MemReq :=
  { root := s.t.dtroot, va := va, kind := kind, scope := scope, write := write, atIssue := true, bundle := s.t.latch.addr
    ins := s.t.latch.ins }

/-! Staging (R254, R255). -/

/-- The 64-byte lines, by virtual address, of the staged bytes and of the staged stores on their way. -/
def Task.stagedLines (t : Task) : List Nat :=
  let held : List Nat := t.stage.bytes.map fun b => b.va / 64
  let coming : List Nat := (t.acc.filter fun a => a.staged).flatMap fun a => a.pieces.flatMap fun p => linesOf p.va p.len
  (held ++ coming).eraseDups

/-- Whether a store of these pieces would need a 6,145th line. -/
def Task.stageFull (t : Task) (ps : List (Nat × Nat)) : Bool :=
  6144 < (t.stagedLines ++ ps.flatMap fun p => linesOf p.1 p.2).eraseDups.length

/-- The commit scope of the node record (R268). -/
def State.commitScope (s : State) : Level × Nat :=
  match fldOf (s.nodeRec.get 4) 23 20 with
  | 0 => (0, 0)
  | 1 => (1, 1)
  | 2 => (2, 2)
  | 3 => (3, 3)
  | 5 => s.scope .grp
  | n => (4, n)

/-- Staging ends: the commit takes its place in program order, at the scope that the node record gives; .grp is resolved now
(R242, R255). -/
def State.endStaging (s : State) : State :=
  if s.t.stage.mode = .staging then
    let (l, sc) := s.commitScope
    s.withT fun t =>
      { t with
        stage := { t.stage with mode := .committing }
        acc := t.acc ++ [{ id := t.seq, iss := t.bidx, bundle := t.latch.addr, ins := t.latch.ins, note := false
                           root := t.dtroot, op := .commit, write := true, level := l, scope := sc, acq := false, rel := true, isLd := false, isSt := true
                           loc := false, staged := false, flight := none, pieces := [], got := [] }]
        seq := t.seq + 1 }
  else s

/-! Program-ordered accesses at issue (R245). -/

/-- What an access is, apart from its place. -/
structure AccReq where
  op : AccOp
  write : Bool
  level : Level
  scope : Nat
  acq : Bool
  rel : Bool
  cls : BitVec 6
  loc : Bool
  flight : Option Nat
  pieces : List Piece

/-- Whether staging takes the access in: a plain store of scope .task, no release, whose lines fit (R254). -/
def AccReq.stages (r : AccReq) (s : State) : Bool :=
  s.t.stage.mode = .staging && r.cls &&& cST != 0 && !r.rel && r.scope = 0 && !r.loc &&
    (match r.op with | .stS | .stV | .tst _ => true | _ => false) &&
    !s.t.stageFull (r.pieces.map fun p => (p.va, p.len))

/-- The base register of a tile transfer (R85). -/
def baseReg (i : Option Instr) : Fin 40 := match i with | some (.mmag _) => 8 | _ => 0

/-- The pages that an access reaches enter the recording: those of an unpatched transfer in an open region (R302). -/
def Task.notes (t : Task) (op : AccOp) : Bool :=
  t.mrec.state == .recording &&
    (match op with | .tld _ | .tst _ => (t.storg.get (baseReg t.latch.ins)).patch.isNone | _ => false)

/-- The access takes its place in program order. A store that staging takes in is marked (R254); any other write of
a staging node ends staging first (R255). -/
def State.addAcc (s : State) (r : AccReq) : State :=
  let isSt := r.cls &&& cST != 0
  let staged := r.stages s
  let s := if isSt && !staged then s.endStaging else s
  s.withT fun t =>
    let t := t.release r.cls (r.pieces.map fun p => (p.va, p.len)) r.loc
    { t with
      acc := t.acc ++ [{ id := t.seq, iss := t.bidx, bundle := t.latch.addr, ins := t.latch.ins, note := t.notes r.op
                         root := t.dtroot, op := r.op, write := r.write, level := r.level, scope := r.scope, acq := r.acq, rel := r.rel
                         isLd := r.cls &&& cLD != 0, isSt := isSt, loc := r.loc, staged := staged
                         flight := r.flight, pieces := r.pieces, got := [] }]
      seq := t.seq + 1 }

/-- Reads of one address become one read, which serves every lane that names it (R232). -/
def mergePieces : List Piece → List Piece
  | [] => []
  | p :: l =>
    let same := l.filter fun x => x.va == p.va
    { p with also := p.also ++ same.map (·.key) } :: (mergePieces l).filter fun x => x.va != p.va

/-- st counts the store just added, unless it is staged: a staged one is not performed by itself (R254). -/
def State.countStore (s : State) : State :=
  match s.t.acc.getLast? with
  | some a => if a.staged then s else s.count .st
  | none => s

def Acc.cls (a : Acc) : BitVec 6 := (if a.isLd then cLD else 0) ||| (if a.isSt then cST else 0)

end Sys2Proof.Machine
end

