-- ==== Sys2Proof/Machine/Operands.lean ====
section
/-! DEFINITION. The operand forms: scalar sources (R19, R21), facet sources (R20), addresses (R163, R197), and reads
between issue and landing (R117). -/

namespace Sys2Proof.Machine

/-! Reads between issue and landing (R117): old or new, as the free choices give. `k` tells the reads of one syllable
apart. -/

/-- The writes to a register that earlier bundles issued and that have not landed, in the order of their landing. -/
def Task.inFlight (t : Task) (d : FDst) : List Flight :=
  sortBy (·.land) (t.flights.filter fun fl => fl.dst == d && fl.iss < t.bidx)

/-- Whether a read sees a write in flight already landed. -/
def State.early (s : State) (fl : Flight) (k : Nat) : Bool := !fl.waits && Config.freePick s.fv (fl.id * 8 + k)

/-- A scalar register as the read stage finds it. -/
def State.readS (s : State) (i : Fin 56) (k : Nat) : W64 :=
  if i = 0 then 0
  else
    (s.t.inFlight (.s i)).foldl (fun v fl =>
      match fl.val with
      | .w x => if s.early fl k then x else v
      | _ => v) (s.t.s.get i)

/-- Its origin: that of every value the read may see. -/
def State.orgS (s : State) (i : Fin 56) : Origin :=
  (s.t.inFlight (.s i)).foldl (fun o fl => o.join fl.org) (s.t.sorg.get i)

/-! Scalar sources. -/

def sext4 (v : BitVec 4) : W64 := v.signExtend 64

def ixVal (ix : Option W32) : W64 := (ix.getD 0).signExtend 64

/-- R19, R21. -/
def State.src (s : State) (ix : Option W32) : Src → W64
  | .port i => s.t.latch.vals.get i
  | .byp i => (s.t.bs.get i).read s.t.bidx
  | .zero => 0
  | .ext => ixVal ix
  | .imm v => sext4 v

def State.srcOrg (s : State) : Src → Origin
  | .port i => s.t.latch.orgs.get i
  | .byp i => (s.t.bs.get i).org
  | _ => Origin.none

/-- The value through the port entry that names a register: of LOOP and CAS (R144, R168). -/
def State.entryVal (s : State) (n : Nat) : W64 :=
  match (List.range 4).find? fun i => (s.t.latch.entries.get (Fin.ofNat 4 i)).toNat == 64 + n with
  | some i => s.t.latch.vals.get (Fin.ofNat 4 i)
  | none => 0

def State.entryOrg (s : State) (n : Nat) : Origin :=
  match (List.range 4).find? fun i => (s.t.latch.entries.get (Fin.ofNat 4 i)).toNat == 64 + n with
  | some i => s.t.latch.orgs.get (Fin.ofNat 4 i)
  | none => Origin.none

/-- The address a + off; a short immediate counts in units of `size` bytes (R163). -/
def State.amAddr (s : State) (ix : Option W32) (a b : Src) (size : Nat) : W64 :=
  s.src ix a + (match b with
    | .imm v => sext4 v * BitVec.ofNat 64 size
    | b => s.src ix b)

/-! Facet sources. -/

/-- A vector register or facet bypass (R117, R121). -/
def State.vreg (s : State) (f : Fin 8) (r : VReg) (k : Nat) : Lanes :=
  match r with
  | .bf i => ((s.t.facet f).bf.get i).read s.t.bidx
  | .v i =>
    (s.t.inFlight (.v f (.v i))).foldl (fun v fl =>
      match fl.val with
      | .lanes m x => if s.early fl k then mergeLanes m v x else v
      | _ => v) ((s.t.facet f).v.get i)

/-- Whether a write to the register is in flight, so that some reads of it are undefined (R174, R184, R196). -/
def State.vBusy (s : State) (f : Fin 8) (r : VReg) : Bool :=
  match r with
  | .v _ => !(s.t.inFlight (.v f r)).isEmpty
  | .bf _ => false

/-- Lanes no rule gives a value to. -/
def State.freeLanes (s : State) (f : Fin 8) (k : Nat) : Lanes :=
  vecOf fun l => (Config.freeWord s.fv ((f.val * 16 + l.val) * 8 + k)).setWidth 32

/-- A read of R174, R184 or R196: undefined while a write is in flight. -/
def State.vregU (s : State) (f : Fin 8) (r : VReg) (k : Nat) : Lanes :=
  if s.vBusy f r then s.freeLanes f k else s.vreg f r k

def splat (x : W32) : Lanes := Vector.replicate 16 x

/-- The FP32 value of a small integer. -/
def smallFp (v : BitVec 4) : W32 := (rnd32 (ofInt v.toInt)).1

/-- A source read as INT32 or raw bits. -/
def State.fsrcI (s : State) (f : Fin 8) (ix : Option W32) (k : Nat) : FSrc → Lanes
  | .r r => s.vreg f r k
  | .zero => splat 0
  | .ext => splat (ix.getD 0)
  | .imm v => splat (v.signExtend 32)

/-- A source read as FP32: a short immediate is the value of its integer (R20). -/
def State.fsrcF (s : State) (f : Fin 8) (ix : Option W32) (k : Nat) : FSrc → Lanes
  | .imm v => splat (smallFp v)
  | x => s.fsrcI f ix k x

/-- A mask register (R178). -/
def State.qreg (s : State) (f : Fin 8) (n : Fin 8) (k : Nat) : BitVec 16 :=
  if n = 0 then 0xFFFF
  else if n = 1 then 0
  else
    (s.t.inFlight (.q f (Fin.ofNat 4 (n.val / 2)))).foldl (fun v fl =>
      match fl.val with
      | .pair m c => if s.early fl k then mergeBits m v (if n.val % 2 = 0 then c else ~~~c) else v
      | _ => v) ((s.t.facet f).q.get n)

/-- The lanes a mask enables. -/
def enabled (m : BitVec 16) : List (Fin 16) := (List.finRange 16).filter fun l => m.getLsbD l.val

/-- The address of layout M (R197). -/
def State.abAddr (s : State) (f : Fin 8) (ab : Fin 4) (ix : Option W32) (ofs : BitVec 8) : W64 :=
  ((s.t.facet f).ab.get ab).setWidth 64 + (match ix with
    | some x => x.signExtend 64
    | none => ofs.signExtend 64 * 64)

/-! Predicates as logical operands (R161). -/

def Lop.run (op : Lop) (a b : BitVec 16) : BitVec 16 :=
  match op with
  | .and => a &&& b
  | .or => a ||| b
  | .xor => a ^^^ b
  | .andn => a &&& ~~~b
  | .orn => a ||| ~~~b
  | .nand => ~~~(a &&& b)
  | .nor => ~~~(a ||| b)
  | .xnor => ~~~(a ^^^ b)

end Sys2Proof.Machine
end

