-- ==== Sys2Proof/Machine/Flags.lean ====
section
/-! DEFINITION. Sticky flags and underflow counts: fstat and fufcnt of the task (R75, R76), fsr of a facet (R179,
R202). -/

namespace Sys2Proof.Machine

/-- The flags and the underflow count of a command that completes (R76). -/
def Task.raise (t : Task) (fl : Flags) (uf : Nat) : Task :=
  { t with fp := { t.fp with fstat := t.fp.fstat ||| fl, fufcnt := satCount t.fp.fufcnt uf } }

/-- The flags of a facet operation, ORed into fsr at its scheduled landing (R202). -/
def State.fsrFly (s : State) (f : Fin 8) (lat : Nat) (fl : Flags) : State :=
  if fl = 0 then s else s.fly (.fsr f) lat (.w (fl.setWidth 64)) Origin.dat

/-- The flags of the enabled lanes. -/
def laneFlags (m : BitVec 16) (fl : Vector Flags 16) : Flags :=
  (enabled m).foldl (fun a l => a ||| fl.get l) 0

/-- A facet result with its flags. -/
def State.vfly (s : State) (f : Fin 8) (d : VReg) (lat : Nat) (m : BitVec 16) (x : Lanes) (fl : Flags) : State :=
  (s.fly (.v f d) lat (.lanes m x) Origin.dat).fsrFly f lat fl

end Sys2Proof.Machine
end

