-- ==== Sys2Proof/Machine/TileMath.lean ====
section
/-! DEFINITION. The arithmetic of tiles (05): what each engine command makes of the bytes of its operands. -/

namespace Sys2Proof.Machine

/-- A tile as a command reads it. -/
structure Tile where
  fmt : Fmt
  rows : Nat
  cols : Nat
  data : List (List Byte)
  deriving DecidableEq, Repr

/-- The exact values, row by row. -/
def Tile.nums (t : Tile) : List (List Num) := t.data.map (rowNums t.fmt)

/-- The elements as signed integers, for INT8 and INT32. -/
def Tile.ints (t : Tile) : List (List Int) := t.data.map fun r => (rowElems t.fmt r).map (toSigned t.fmt.width)

def orFlags (l : List Flags) : Flags := l.foldl (· ||| ·) 0

/-- A tile of FP32 from results with flags. -/
def fpTile (rows : List (List (W32 × Flags))) : List (List Byte) × Flags :=
  (rows.map fun r => r.flatMap fun x => leBytes 4 x.1.toNat, orFlags (rows.flatten.map (·.2)))

/-- A tile of INT32, wrapping. -/
def intTile (rows : List (List Int)) : List (List Byte) :=
  rows.map fun r => r.flatMap fun x => leBytes 4 (x % 0x100000000).toNat

/-- A row of zeros of a format: a block has SCALE 127 (R92, R96). -/
def zeroRow (f : Fmt) (cols : Nat) : List Byte :=
  if f.blocked then (List.replicate (cols / f.blk) (leBytes 2 0x7F00 ++ List.replicate (f.blk / 2) 0)).flatten
  else List.replicate (f.rowBytes cols) 0

def zeroTile (f : Fmt) (rows cols : Nat) : List (List Byte) := List.replicate rows (zeroRow f cols)

/-- The kind of R105: floating, integer, or neither. -/
inductive Arith where
  | float | int
  deriving DecidableEq, Repr

def arithOf (fs : List Fmt) : Option Arith :=
  if fs.all fun f => f.ff.isSome then some .float
  else if fs.all (·.isInt) then some .int
  else none

/-- The elementwise operations of two operands (R105): add, subtract, multiply, the greater, the lesser. -/
def binF (op : Fin 6) (x y : Num) : W32 × Flags :=
  match op.val with
  | 0 => numAdd x y
  | 1 => numSub x y
  | 2 => numMul x y
  | 3 => numMax x y
  | _ => numMin x y

def binI (op : Fin 6) (x y : Int) : Int :=
  match op.val with
  | 0 => x + y
  | 1 => x - y
  | 2 => x * y
  | 3 => max x y
  | _ => min x y

def tileBin (op : Fin 6) (x y : Tile) : List (List Byte) × Flags :=
  if x.fmt.isInt then (intTile (List.zipWith (List.zipWith (binI op)) x.ints y.ints), 0)
  else fpTile (List.zipWith (List.zipWith (binF op)) x.nums y.nums)

def zip3 {α β γ δ : Type} (f : α → β → γ → δ) : List α → List β → List γ → List δ
  | a :: as, b :: bs, c :: cs => f a b c :: zip3 f as bs cs
  | _, _, _ => []

def tileFma (x y w : Tile) : List (List Byte) × Flags :=
  if x.fmt.isInt then (intTile (zip3 (zip3 fun a b c => a * b + c) x.ints y.ints w.ints), 0)
  else fpTile (zip3 (zip3 numFma) x.nums y.nums w.nums)

/-- R106: `m` is a column. -/
def tileExp2 (x m : Tile) (c : W32) : List (List Byte) × Flags :=
  fpTile (List.zipWith (fun r (mr : List Num) => r.map fun a => numExp2 a (mr.getD 0 .nan) (dec32 c)) x.nums m.nums)

/-- R107: the reciprocal of a tile element. A tiny result raises UF and NX also where it is exact, which R186 does not
say of VRCP. -/
def rcpEl (x : Num) : W32 × Flags :=
  let (r, f) := numRcp x
  (r, if r.toNat / 2 ^ 23 % 256 == 0 && r.toNat % 2 ^ 23 != 0 then f ||| fUF ||| fNX else f)

def tileRcp (x : Tile) : List (List Byte) × Flags := fpTile (x.nums.map (·.map rcpEl))

/-- One line of a reduction in its fixed order; the first element is widened exactly (R108). -/
def reduceF (mx : Bool) (l : List Num) : W32 × Flags :=
  match l with
  | [] => (0, 0)
  | x :: r => r.foldl (fun acc y =>
      let (s, f) := if mx then numMax (dec32 acc.1) y else numAdd (dec32 acc.1) y
      (s, acc.2 ||| f)) (rnd32 x)

def reduceI (mx : Bool) (l : List Int) : Int :=
  match l with
  | [] => 0
  | x :: r => r.foldl (fun acc y => if mx then max acc y else acc + y) x

def transpose {α : Type} [Inhabited α] (cols : Nat) (l : List (List α)) : List (List α) :=
  (List.range cols).map fun j => l.map fun r => r.getD j default

/-- TRMAX 0, TRSUM 1, TCSUM 2 (R108). -/
def tileRed (op : Fin 3) (x : Tile) : List (List Byte) × Flags :=
  let mx := op == 0
  if x.fmt.isInt then
    let rows := if op == 2 then transpose x.cols x.ints else x.ints
    let z := rows.map (reduceI mx)
    (intTile (if op == 2 then [z] else z.map fun a => [a]), 0)
  else
    let n := x.nums
    let rows : List (List Num) :=
      if op == 2 then (List.range x.cols).map fun j => n.map fun r => r.getD j .nan else n
    let z := rows.map (reduceF mx)
    fpTile (if op == 2 then [z] else z.map fun a => [a])

def tileScl (x : Tile) (c : W32) : List (List Byte) × Flags :=
  if x.fmt.isInt then (intTile (x.ints.map fun r => r.map fun a => a * c.toInt), 0)
  else fpTile (x.nums.map fun r => r.map fun a => numMul a (dec32 c))

/-- A row cut into its elements' bytes. -/
def rowCells (f : Fmt) (row : List Byte) : List (List Byte) := chunksOf (f.width / 8) row.length row

def tileTrn (x : Tile) : List (List Byte) :=
  let cells := x.data.map (rowCells x.fmt)
  (List.range x.cols).map fun j => cells.flatMap fun r => r.getD j []

/-- R109; a blocked V has one row of the full width. -/
def tileBc (v : Tile) (rows cols : Nat) : List (List Byte) :=
  let row (i : Nat) : List Byte :=
    let r := v.data.getD (i % v.rows) []
    if v.cols = cols then r
    else
      let cells := rowCells v.fmt r
      (List.range cols).flatMap fun j => cells.getD (j % v.cols) []
  (List.range rows).map row

/-- The nibble codes and headers of a blocked row, to be laid out anew. -/
def blockCodes (L : Nat) (row : List Byte) : List (List Byte) := chunksOf (2 + L / 2) row.length row

/-- R97: the same elements in row-major order. The blocks of a blocked tile are kept whole (both shapes hold whole
blocks). -/
def tileShape (x : Tile) (rows cols : Nat) : List (List Byte) :=
  let per := x.fmt.rowBytes cols
  chunksOf per rows x.data.flatten

def tileJoin (x y : Tile) (h : Bool) : List (List Byte) :=
  if h then List.zipWith (· ++ ·) x.data y.data else x.data ++ y.data

/-- R110, and the conversions of TST and CPPUT: rows, flags, underflow count and generators. -/
def tileCvt (x : Tile) (dst : Fmt) (mode : Nat) (e4nan : Bool) (thresh : Nat) (gens : List W32) :
    List (List Byte) × Flags × Nat × List W32 :=
  if x.fmt = dst then (x.data, 0, 0, gens)
  else
    let (rs, f, n, gs) := x.data.zipIdx.foldl (fun (acc : List (List Byte) × Flags × Nat × List W32) r =>
      let (b, f, n, gs) := convertRow x.fmt dst mode e4nan thresh (r.2 * x.cols) r.1 acc.2.2.2
      (b :: acc.1, acc.2.1 ||| f, acc.2.2.1 + n, gs)) ([], 0, 0, gens)
    (rs.reverse, f, n, gs)

/-! Matrix engine (R80 to R82, R100 to R103). -/

/-- The chunk length of a pair of operand formats, or none where no row of R80 holds both. -/
def chunkLen (a b : Fmt) : Option Nat :=
  let row (f : Fmt) : Nat :=
    match f with
    | .bf16 | .fp16 => 16
    | .e4m3 | .e5m2 => 32
    | .e2m1b32 | .e2m1b16 => 64
    | .int8 => 640
    | .fp32 | .int32 => 0
  if row a = row b ∧ row a ≠ 0 then some (if row a = 640 then 64 else row a) else none

/-- Bit `b` of a word inverted. -/
def flipBit (x : W32) (b : Nat) : W32 := x ^^^ ((1 : W32) <<< b)

/-- One output element of R81. `inj` is the chunk and bit of an inversion that falls on this element (R361). -/
def dotF (L : Nat) (inj : Option (Nat × Nat)) : Nat → Nat → W32 × Flags → List Num → List Num → W32 × Flags
  | 0, _, acc, _, _ => acc
  | fuel + 1, c, acc, a, b =>
    if a.isEmpty then acc
    else
      let (ch, f) := fin32 (chunkSum (prods (a.take L) (b.take L)))
      let (s, g) := numAdd (dec32 acc.1) (dec32 ch)
      let s := match inj with
        | some (k, bit) => if k = c then flipBit s bit else s
        | none => s
      dotF L inj fuel (c + 1) (s, acc.2 ||| f ||| g) (a.drop L) (b.drop L)

/-- One output element of R82. -/
def dotI (inj : Option (Nat × Nat)) : Nat → Nat → Int × Flags → List Int → List Int → Int × Flags
  | 0, _, acc, _, _ => acc
  | fuel + 1, c, acc, a, b =>
    if a.isEmpty then acc
    else
      let ch := (List.zipWith (· * ·) (a.take 64) (b.take 64)).foldl (· + ·) 0
      let (s, f) := satInt 32 (acc.1 + ch)
      let s := match inj with
        | some (k, bit) => if k = c then (flipBit (BitVec.ofNat 32 s) bit).toNat else s
        | none => s
      dotI inj fuel (c + 1) (toSigned 32 s, acc.2 ||| f) (a.drop 64) (b.drop 64)

/-- The inversion as it falls on element (i, j). -/
def injAt (inj : Option Inj) (i j : Nat) : Option (Nat × Nat) :=
  match inj with
  | some x => if x.row = i ∧ x.col = j then some (x.chunk, x.bit) else none
  | none => none

/-- The columns of B as rows. -/
def colNums (b : Tile) : List (List Num) := (List.range b.cols).map fun j => b.nums.map fun r => r.getD j .nan

/-- A·B, or A·B + C, in the accumulator's format: the element patterns with flags (R81, R82). -/
def mmAcc (L : Nat) (inj : Option Inj) (a b : Tile) (c : Option Tile) : List (List (W32 × Flags)) :=
  if a.fmt == .int8 then
    let bt := transpose b.cols b.ints
    a.ints.zipIdx.map fun (r, i) => bt.zipIdx.map fun (col, j) =>
      let c0 : Int := match c with
        | some t => (t.ints.getD i []).getD j 0
        | none => 0
      let (s, f) := dotI (injAt inj i j) 64 0 (c0, 0) r col
      (BitVec.ofInt 32 s, f)
  else
    let bt := colNums b
    let cn := match c with
      | some t => t.nums
      | none => []
    a.nums.zipIdx.map fun (r, i) => bt.zipIdx.map fun (col, j) =>
      let c0 : W32 × Flags := match c with
        | some _ => rnd32 ((cn.getD i []).getD j .nan)
        | none => (0, 0)
      dotF L (injAt inj i j) 64 0 c0 r col

/-- The checksum tile of MMACK (R101). -/
def mmCheck (L : Nat) (a b : Tile) : List (List (W32 × Flags)) :=
  let n := max a.rows b.cols
  let pad (l : List (W32 × Flags)) : List (W32 × Flags) := l ++ List.replicate (n - l.length) (0, 0)
  if a.fmt == .int8 then
    let bsum := b.ints.map fun r => r.foldl (· + ·) 0
    let asum := (transpose a.cols a.ints).map fun r => r.foldl (· + ·) 0
    let enc (x : Int × Flags) : W32 × Flags := (BitVec.ofInt 32 x.1, x.2)
    [pad (a.ints.map fun r => enc (dotI none 64 0 (0, 0) r bsum)),
     pad ((transpose b.cols b.ints).map fun col => enc (dotI none 64 0 (0, 0) asum col))]
  else
    let sum (l : List Num) : Num := (chunkSum (l.map fun x => (x, 0))).1
    let nv (l : List Num) : Flags := (chunkSum (l.map fun x => (x, 0))).2
    let bsum := b.nums.map sum
    let at_ := (List.range a.cols).map fun k => a.nums.map fun r => r.getD k .nan
    let asum := at_.map sum
    let f := orFlags (b.nums.map nv ++ at_.map nv)
    [pad (a.nums.map fun r => let x := dotF L none 64 0 (0, 0) r bsum; (x.1, x.2 ||| f)),
     pad ((colNums b).map fun col => dotF L none 64 0 (0, 0) asum col)]

/-- R103: the product with s, rounded once to FP32. -/
def msclEl (intAcc : Bool) (s : W32) (x : W32 × Flags) : W32 × Flags :=
  let (r, f) := numMul (dec32 s) (if intAcc then ofInt x.1.toInt else dec32 x.1)
  (r, x.2 ||| f)

def wordTile (l : List (List (W32 × Flags))) : List (List Byte) × Flags := fpTile l

end Sys2Proof.Machine
end

