-- ==== Sys2Proof/Machine/Elements.lean ====
section
/-! DEFINITION. The element accesses of bulk transfers (R251): their classes, addresses and bytes; and when a fence's
predecessors are done (R252). -/

namespace Sys2Proof.Machine

/-! Entries of the stack. -/

def Task.entry (t : Task) (id : Nat) : Option Entry := t.stk.entries.find? fun e => e.id == id

def Task.updEntry (t : Task) (id : Nat) (f : Entry → Entry) : Task :=
  { t with stk := { t.stk with entries := t.stk.entries.map fun e => if e.id = id then f e else e } }

def Task.delEntry (t : Task) (id : Nat) : Task :=
  { t with stk := { t.stk with entries := t.stk.entries.filter fun e => e.id != id } }

def Entry.tile (e : Entry) : Tile := { fmt := e.fmt, rows := e.rows, cols := e.cols, data := e.data }

/-- The first entry that a command pushes, and for MMACK the second. -/
def CmdOp.pushes : CmdOp → List Nat
  | .tld e .. | .tgth _ e .. | .tpick _ e | .const e _ | .shape _ e | .join _ _ e _ | .fromv e _ | .mscl _ _ e _
  | .bin _ _ _ e | .fma _ _ _ e | .texp2 _ _ e _ | .trcp _ e | .red _ _ e | .tscl _ e _ | .tbc _ e | .tcvt _ e _
  | .ttrn _ e | .cpget e .. | .mmag _ _ e .. => [e]
  | .mma _ _ _ e check => e :: check.toList
  | _ => []

/-- An entry stands at the bench, where engines read and write it (R50). -/
def Task.atBench (t : Task) (id : Nat) : Bool := match t.entry id with | some e => e.level == 0 | none => true

/-- The rows of a command's accesses can enter its entry. Those of MMAG go to the operand latch (R102). -/
def Task.rowsLand (t : Task) (c : Cmd) : Bool :=
  match c.op with
  | .mmag .. => true
  | op => op.pushes.all t.atBench

/-- The virtual byte address base + i × pitch, modulo 2^64. -/
def rowAddr (base pitch : Int) (i : Nat) : Nat := ((base + pitch * i) % 2 ^ 64).toNat

/-! One element. -/

/-- What an element access is. `window` is a destination in a core's local store; `need` a page format it requires
(R221); `ready` says that what it depends on has been read; `skip` that no access is made. -/
structure Elem where
  cls : BitVec 6
  write : Bool
  va : Nat
  len : Nat
  window : Option (Nat × Int)
  need : Option Nat
  data : List Byte
  ready : Bool
  skip : Bool
  deriving DecidableEq, Repr

def Elem.read (cls : BitVec 6) (va len : Nat) (need : Option Nat) : Elem :=
  { cls := cls, write := false, va := va, len := len, window := none, need := need, data := [], ready := true
    skip := false }

def Elem.store (cls : BitVec 6) (va : Nat) (data : Option (List Byte)) (len : Nat) (need : Option Nat) : Elem :=
  { cls := cls, write := true, va := va, len := len, window := none, need := need, data := data.getD []
    ready := data.isSome, skip := false }

def Cmd.bytes (c : Cmd) (k : Nat) : Option (List Byte) := (c.got.find? fun x => x.1 == k).map (·.2)

/-- The number of elements of a command. -/
def Cmd.count (t : Task) (c : Cmd) : Nat :=
  match c.op with
  | .cpget e _ _ => (match t.entry e with | some x => x.rows | none => 0)
  | .cpput x _ _ _ => if c.latched then c.got.length else (match t.entry x with | some e => e.rows | none => 0)
  | .cpmc _ _ _ _ _ rows _ _ => rows * 9
  | .ldblk _ _ n _ => n
  | .cpsort _ _ _ _ n _ _ => n * 3
  | .cpfill base len _ => (linesOf base len).length
  | _ => 0

/-- The index of CPSORT's element `i` with its test (R315), when all `n` indices have been read: the gather unit takes the
requests of a command together (R232). -/
def sortIndex (c : Cmd) (bound : W64) (n i : Nat) : Option (Nat × Bool) :=
  if (List.range n).all fun k => (c.bytes k).isSome then
    (c.bytes i).map fun b =>
      let x := toSigned 32 (leNat b)
      (x.toNat, 0 ≤ x && (bound == 0 || x.toNat < bound.toNat))
  else none

/-- The bytes of a 64-bit pattern repeated, from offset `o` of a range that starts at a multiple of 8. -/
def fillBytes (pat : W64) (o n : Nat) : List Byte :=
  (List.range n).map fun i => BitVec.ofNat 8 (pat.toNat / 256 ^ ((o + i) % 8))

/-- Element `i` of a command; none beyond its elements. The virtual addresses wrap at 2^64, and a bit above 56 is out
of every translation. -/
def Cmd.elem (t : Task) (c : Cmd) (i : Nat) : Option Elem :=
  if c.count t ≤ i then none
  else
    match c.op with
    | .cpget e base pitch =>
      (t.entry e).map fun x => Elem.read cCR (rowAddr base pitch i) (x.fmt.rowBytes x.cols) (some x.fmt.code)
    | .cpput x base pitch fmt =>
      let len := match t.entry x, Fmt.ofCode fmt with
        | some e, some f => f.rowBytes e.cols
        | _, _ => (c.bytes i).elim 0 List.length
      some (Elem.store cCW (rowAddr base pitch i) (c.bytes i) len (some fmt))
    | .cpmc cluster base pitch ofs dpitch rows n sel =>
      if i < rows then some (Elem.read cCR (rowAddr base pitch i) n none)
      else
        let j := (i - rows) / 8
        let k := (i - rows) % 8
        some { Elem.store cCW 0 (c.bytes j) n none with
               window := some (cluster * 8 + k, ofs + dpitch * j), skip := !sel.getLsbD k }
    | .ldblk _ base .. => some (Elem.read cCR (base + 64 * i) 64 none)
    | .cpsort scat base idx lin n z bound =>
      if i < n then some (Elem.read cCR ((idx + 4 * i) % 2 ^ 64) 4 none)
      else
        let j := if i < 2 * n then i - n else i - 2 * n
        match sortIndex c bound n j with
        | none => some { Elem.read cCR 0 z none with ready := false }
        | some (x, ok) =>
          let a := (base + x * z) % 2 ^ 64
          let l := (lin + j * z) % 2 ^ 64
          if i < 2 * n then some { Elem.read cCR (if scat then l else a) z none with skip := !ok }
          else
            let d := if ok then c.bytes (n + j) else some (List.replicate z 0)
            some { Elem.store cCW (if scat then a else l) d z none with skip := scat && !ok }
    | .cpfill base len pat =>
      let l := base / 64 + i
      let a := max base (l * 64)
      let b := min (base + len) (l * 64 + 64)
      some (Elem.store cCW a (some (fillBytes pat (a - base) (b - a))) (b - a) none)
    | _ => none

/-- The classes of a command's elements (R148, R251). -/
def Cmd.cls (c : Cmd) : BitVec 6 :=
  match c.op with
  | .cpget .. => cCR
  | .cpput .. | .cpfill .. => cCW
  | .cpmc .. | .cpsort .. => cCR ||| cCW
  | .ldblk .. => cCR
  | _ => 0

/-- Whether some of an access's bytes lie in a range, where there is one (R149). LDL, STL and the window writes of CPMC name no
virtual address. -/
def inRange (r : Option (Nat × Nat)) (rs : List (Nat × Nat)) (loc : Bool) : Bool :=
  match r with
  | none => true
  | some (a, n) => !loc && rs.any fun x => overlap a n x.1 x.2

/-- Whether some element of the classes is not performed. -/
def Cmd.pending (t : Task) (c : Cmd) (cls : BitVec 6) : Bool :=
  c.cls &&& cls != 0 &&
    (List.range (c.count t)).any fun i =>
      match c.elem t i with
      | some e => !e.skip && !c.done.contains i && (!e.ready || e.cls &&& cls != 0)
      | none => false

/-- The virtual bytes of a command, for FENCER (R149): those of a CPSORT are all that it may touch until it has read its indices. -/
def Cmd.ranges (t : Task) (c : Cmd) : List (Nat × Nat) :=
  let each := (List.range (c.count t)).filterMap fun i => (c.elem t i).bind fun e =>
    if e.window.isSome || e.skip then none else some (e.va, e.len)
  match c.op with
  | .cpsort _ base idx lin n z bound =>
    if (sortIndex c bound n 0).isSome then each
    else [(idx, 4 * n), (lin, n * z), (base, if bound = 0 then 2 ^ 57 else bound.toNat * z)]
  | _ => each

/-- The same for a fence over a range: a bulk transfer of which any byte lies there is in range whole (R149). -/
def Cmd.pendingIn (t : Task) (c : Cmd) (cls : BitVec 6) (r : Option (Nat × Nat)) : Bool :=
  c.pending t cls && inRange r (c.ranges t) false

/-! EK commands. -/

/-- Length of a collective's source and destination in bytes (R326). `kind`: KAR 0, KAG 1, KRS 2, KBC 3. -/
def collLens (kind : Fin 4) (n rank size : Nat) : Nat × Nat :=
  match kind.val with
  | 0 => (n, n)
  | 1 => (n, size * n)
  | 2 => (size * n, n)
  | _ => (if rank = 0 then n else 0, n)

def Ek.cls (e : Ek) : BitVec 6 :=
  match e.op with
  | .coll .. => cKR ||| cKW
  | .ksend .. => cKR
  | .krecv .. => cKW
  | _ => 0

/-- The element reads are number 0, the element writes number 1. -/
def Ek.pending (e : Ek) (cls : BitVec 6) : Bool :=
  (e.cls &&& cls &&& cKR != 0 && !e.done.contains 0) || (e.cls &&& cls &&& cKW != 0 && !e.done.contains 1)

def Ek.ranges (e : Ek) : List (Nat × Nat) :=
  match e.op with
  | .coll k _ _ _ n src dst _ rank size =>
    let (a, b) := collLens k n rank size
    [(src, a), (dst, b)]
  | .ksend _ src n => [(src, n)]
  | .krecv _ dst n => [(dst, n)]
  | _ => []

/-- The same, for a fence over a range. -/
def Ek.pendingIn (e : Ek) (cls : BitVec 6) (r : Option (Nat × Nat)) : Bool := e.pending cls && inRange r e.ranges false

/-- The descriptor address of a ring command. -/
def EkOp.ring : EkOp → Option Tr
  | .qres _ tr | .qpub _ tr | .qtake _ tr | .qfree tr => some tr
  | _ => none

/-- An EK command completes: kc falls, and a later WAIT takes over the t of its elements (R251). -/
def Task.ekEnd (t : Task) (id : Nat) : Task :=
  let tm := match t.eks.find? fun e => e.id == id with | some e => e.tmax | none => 0
  { t with eks := t.eks.filter fun e => e.id != id, cnt := t.cnt.sub .kc, tkc := max t.tkc tm }

/-! What comes before (R248, R249, R255). -/

/-- No earlier bulk element and no earlier ring step of the task is still to be performed. -/
def Task.clearBefore (t : Task) (id : Nat) : Bool :=
  !(t.cmds.any fun c => c.id < id && c.pending t 0x3F) &&
    !(t.eks.any fun e => e.id < id && (e.pending 0x3F || e.op.ring.isSome))

/-- QTAKE and KRECV are acquires: no later access is performed before one of them (R248, R324). -/
def Task.takeBefore (t : Task) (id : Nat) : Bool :=
  t.eks.any fun e => e.id < id && (match e.op with | .qtake .. | .krecv .. => true | _ => false)

/-! Fences (R148, R149, R252). -/

/-- Whether the row addresses of a transfer are known: a gather's are once it has read its indices. -/
def Task.gatherKnown (t : Task) (c : Nat) : Bool :=
  match t.cmds.find? fun x => x.id == c with
  | some x => (match x.op with | .tgth .. | .mmag .. => x.latched | _ => true)
  | none => true

/-- The rows of a gather are known only once it has read its indices. -/
def Task.accKnown (t : Task) (a : Acc) : Bool := match a.op with | .tld c => t.gatherKnown c | _ => true

/-- Whether an access has been performed whole; a load then waits for its reply alone. -/
def Task.accDone (t : Task) (a : Acc) : Bool := a.pieces.isEmpty && t.accKnown a && a.op != .commit

/-- The virtual bytes of an access, for FENCER: all that it touches as it was issued (R149). -/
def Acc.ranges (a : Acc) : List (Nat × Nat) := a.span ++ a.pieces.map fun p => (p.va, p.len)

/-- Whether an access that may lie in a range, be it with one byte, is not performed whole. -/
def Task.accPending (t : Task) (a : Acc) (r : Option (Nat × Nat)) : Bool :=
  a.op == .commit || inRange r a.ranges a.loc && !a.pieces.isEmpty || !t.accKnown a

/-- An access of some classes at some bytes is among what a fence waits for. -/
def Fence.covers (f : Fence) (cls : BitVec 6) (rs : List (Nat × Nat)) (loc : Bool) : Bool :=
  f.pred &&& cls != 0 && inRange f.range rs loc

def Fence.waitsFor (f : Fence) (id : Nat) : Bool := f.accs.contains id || f.cmds.contains id || f.eks.contains id

/-- A narrow write is among what a fence waits for: a write of an access or a transfer that it waits for, of any bytes; of a commit, whose
writes are stores of their own, one in the range (R149). -/
def Fence.awaits (f : Fence) (w : Wr) : Bool :=
  f.waitsFor w.id && f.pred &&& w.cls != 0 &&
    (!w.rel || inRange f.range (w.va.toList.map fun a => (a, w.bytes.length)) w.va.isNone)

/-- The fence of a bundle: its predecessors are what the task has issued before. Staged stores are none (R254). -/
def State.mkFence (s : State) (pred succ : BitVec 6) (r : Option (Nat × Nat)) (l : Level) : Fence :=
  let t := s.t
  let accs := (t.acc.filter fun a => a.cls &&& pred != 0 && !a.staged && t.accPending a r).map (·.id)
  let cover (d : Done) : Bool := d.cls &&& pred != 0 && inRange r d.span d.loc
  let sent := t.sent.filter cover
  let past := (sent ++ t.late.filter cover).foldl (fun n d => max n d.t) 0
  let f : Fence :=
    { iss := t.bidx, done := false, pred := pred, succ := succ, range := r, level := l, accs := accs ++ sent.map (·.id)
      cmds := (t.cmds.filter fun c => c.pendingIn t pred r).map (·.id)
      eks := (t.eks.filter fun e => e.pendingIn pred r).map (·.id), tmax := past }
  -- writes already on their way stand at the time of the widest instance within the fence's scope
  let up := (s.mem.narrow.filter fun w => w.task == t.id.uid && f.awaits w).foldl (fun n w =>
    max n (((w.places.filter fun x => x.1 ≤ w.meet t.id.core l).head?.map fun x => x.2.1).getD 0)) past
  { f with tmax := up }

/-- Every predecessor has been performed. -/
def Task.fencePerformed (t : Task) (f : Fence) : Bool :=
  !(t.acc.any fun a => f.accs.contains a.id && t.accPending a f.range) &&
  !(t.cmds.any fun c => f.cmds.contains c.id && c.pendingIn t f.pred f.range) &&
  !(t.eks.any fun e => f.eks.contains e.id && e.pendingIn f.pred f.range)

/-- The writes of a task that a fence still waits to see at the instance of its scope that holds the task. -/
def State.fenceWrites (s : State) (t : Task) (f : Fence) : List Wr :=
  s.mem.narrow.filter fun w => w.task == t.id.uid && w.level < w.meet t.id.core f.level && f.awaits w

/-- Every predecessor has been performed, and its writes are visible at the fence's scope. -/
def State.fenceDone (s : State) (t : Task) (f : Fence) : Bool := t.fencePerformed f && (s.fenceWrites t f).isEmpty

/-- An access of some classes, or a part of it, has been performed at time `time`: the fences that wait for it will pass it on. `rs` are
its virtual bytes, those of the whole access. -/
def Task.noteT (t : Task) (id : Nat) (cls : BitVec 6) (rs : List (Nat × Nat)) (loc : Bool) (time : Nat) : Task :=
  { t with
    fences := t.fences.map fun f =>
      if !f.done && f.waitsFor id && f.covers cls rs loc then { f with tmax := max f.tmax time } else f }

/-- A write of the task has entered a level at time `time`. -/
def Task.noteUp (t : Task) (w : Wr) (l : Level) (time : Nat) : Task :=
  { t with
    wup := t.wup.set l (max (t.wup.get l) time)
    fences := t.fences.map fun f => if !f.done && l ≤ w.meet t.id.core f.level && f.awaits w then { f with tmax := max f.tmax time } else f }

/-- An element access of a bulk transfer has been performed; one beyond pts stays known to later fences. -/
def Task.noteBulk (t : Task) (id : Nat) (cls : BitVec 6) (rs : List (Nat × Nat)) (time : Nat) : Task :=
  let t := t.noteT id cls rs false time
  let late := t.late.filter fun d => t.pts < d.t
  { t with late := if t.pts < time then late ++ [{ id := id, cls := cls, span := rs, loc := false, t := time }] else late }

end Sys2Proof.Machine
end

