-- ==== Sys2Proof/Machine/Access.lean ====
section
/-! DEFINITION. The steps of the ordering machine (13): performing program-ordered accesses and bulk elements,
propagating writes, committing staged writes and keeping the exposure log. -/

namespace Sys2Proof.Machine

/-- The context is frozen for a reason other than a late reply. A late reply may itself wait for an older access that
meets a miss or a fault, which then takes its place as the reason. -/
def Task.stuck (t : Task) : Bool := match t.frz with | none | some (.reply _) => false | some _ => true

/-! Propagation (R244). -/

/-- Two writes touch one line. -/
def Wr.near (x y : Wr) : Bool := (linesOf x.pa x.bytes.length).any (linesOf y.pa y.bytes.length).contains

/-- A run of bytes of a narrow write becomes visible one level out, at time `t`. -/
def State.raiseRun (s : State) (t : Nat) (w : Wr) : State :=
  let n := w.bytes.length
  let j : Level := w.level + 1
  let m := s.mem.enter j (instOf j w.task w.core) w.pa n t (some (w.task, w.core))
  let m :=
    if j = 4 then { m with narrow := m.narrow.filter fun x => x.seq != w.seq }.enterDev w t
    else
      { m with
        narrow := m.narrow.map fun x =>
          if x.seq = w.seq then { x with level := j, t := t, seq := m.seq + 1, inner := x.places } else x
        seq := m.seq + 1 }
  let s := State.fire { s with mem := m } w.pa n j w.task w.core (some w.level) t
  s.updTask w.task fun x =>
    let x := x.noteUp w j t
    if j = 4 && !(m.narrow.any fun y => y.task == w.task && y.id == w.id) then
      { x with sent := x.sent.filter fun d => d.id != w.id }
    else x

/-- The runs of one write: the staged bytes of a line that a commit wrote (R255). -/
def Wr.mate (w x : Wr) : Bool :=
  x.seq == w.seq || (w.rel && x.rel && x.task == w.task && x.id == w.id && x.level == w.level && x.near w)

/-- A narrow write, named by the place of one of its runs in the order of entry, becomes visible one level out, whole. -/
def State.raise1 (s : State) (q : Nat) : State :=
  match s.mem.narrow.find? fun w => w.seq == q with
  | none => s
  | some w =>
    let ws := s.mem.narrow.filter w.mate
    let j : Level := w.level + 1
    let t := ws.foldl (fun t x => max t (max x.t (s.mem.rtsRange j (instOf j x.task x.core) x.pa x.bytes.length + 1))) 0
    ws.foldl (fun s x => s.raiseRun t x) s

/-- Every narrow write becomes visible as far out as `out` says, level by level, in the order in which they stand. -/
def State.raiseTo (s : State) (out : Wr → Level) : State :=
  (List.range 4).foldl (fun s k =>
    (sortBy (·.seq) (s.mem.narrow.filter fun w => k < (out w).val && w.level.val == k)).foldl (fun s w => s.raise1 w.seq) s) s

/-- The writes that must propagate for the chosen ones to be visible at the instance of a level around a core, each with the level that
it must reach: of the same task also those before to the same line (R244), and all before a release (R249). -/
def Mem.closure (m : Mem) (core : Nat) (l : Level) (sel : Wr → Bool) : List (Wr × Level) :=
  m.narrow.foldr (fun w later =>
    let needs (y : Wr × Level) : Level :=
      if y.1.task != w.task then 0 else if y.1.rel then w.meet y.1.core y.2 else if y.1.near w then y.2 else 0
    let j : Level := later.foldl (fun j y => max j (needs y)) (if sel w then w.meet core l else 0)
    if w.level < j then (w, j) :: later else later) []

/-- Nothing that a release waits for before it enters a wider instance is still to be performed (R249). -/
def State.mayJoin (s : State) (w : Wr) : Bool :=
  !w.rel || (match s.taskOf w.task with | some t => t.clearBefore w.id | none => true)

/-- The chosen writes, with those that must come with them, become visible at the instance of a level that holds the current task; none
while one of them cannot yet. -/
def State.carry (s : State) (sel : Wr → Bool) (l : Level) : Option State :=
  let ws := s.mem.closure s.t.id.core l sel
  if ws.all fun x => s.mayJoin x.1 then
    some (s.raiseTo fun w =>
      ws.foldl (fun j y => if y.1.task == w.task && y.1.id == w.id && y.1.pa == w.pa then max j y.2 else j) 0)
  else none

/-- Whether a write may enter the next level: the earlier writes of its task to its lines are there (R244), and a
release finds every earlier access of its task in the instance that it enters (R249). -/
def State.mayRaise (s : State) (w : Wr) : Bool :=
  let before := s.mem.narrow.takeWhile fun x => x.seq != w.seq
  let late (x : Wr) : Bool := if w.rel then x.level < x.meet w.core (w.level + 1) else x.level ≤ w.level && x.near w
  !(before.any fun x => !w.mate x && x.task == w.task && late x) && s.mayJoin w

/-! Fences (R252). -/

/-- What a fence waits for has been performed, and the machine propagates its writes to the fence's scope. -/
def State.pushFence (s : State) (f : Fence) : State :=
  if f.done || !s.t.fencePerformed f then s
  else
    let ws := s.fenceWrites s.t f
    if ws.isEmpty then s else (s.carry (fun w => ws.any fun y => y.seq == w.seq) f.level).getD s

/-- The fences of the current task: the propagations that they need, and which of them wait no longer. -/
def State.dropFences (s : State) : State :=
  let s := s.t.fences.foldl State.pushFence s
  s.withT fun t =>
    { t with fences := t.fences.map fun f =>
        if !f.done && s.fenceDone t f then { f with done := true, accs := [], cmds := [], eks := [] } else f }

/-! Staged bytes (R254). -/

def stagePut (a : SByte) : List SByte → List SByte
  | [] => [a]
  | x :: l => if a.pa < x.pa then a :: x :: l else if a.pa = x.pa then a :: l else x :: stagePut a l

/-- The task's own staged bytes over visible ones. -/
def Task.overlay (t : Task) (pa : Nat) (b : List Byte) : List Byte :=
  b.zipIdx.map fun (x, i) =>
    match t.stage.bytes.find? fun y => y.pa == pa + i with
    | some y => y.val
    | none => x

/-! Reads and writes of translated bytes. -/

/-- The data TLB entry of a page becomes the most recently used of its core (R233). -/
def State.touch (s : State) (va : Nat) (root : W64 := s.t.dtroot) : State :=
  let c := s.core s.t.id.core
  match tlbFind c.dtlb (asidOf root) va with
  | some e => s.setCore { c with dtlb := tlbAdd 64 e c.dtlb }
  | none => s

/-- The entries of the pages of a range. -/
def State.touchRange (s : State) (va n : Nat) (root : W64) : State :=
  (splitPages va n).foldl (fun s x => s.touch x.1 root) s

/-- The bytes of a range that translations made at issue cover, each as far as its page reaches. -/
def keptParts : List Tr → Nat → Nat → List (Tr × Nat)
  | [], _, _ => []
  | tr :: l, va, n => if n = 0 then [] else (tr, tr.room va n) :: keptParts l (va + tr.room va n) (n - tr.room va n)

/-- The number of bytes of some parts. -/
def partsLen (l : List (Tr × Nat)) : Nat := l.foldl (fun n x => n + x.2) 0

/-- The pieces of a range that the translations made at issue leave. -/
def restPages (trs : List Tr) (va len : Nat) : List (Nat × Nat) :=
  let n := partsLen (keptParts trs va len)
  splitPages (va + n) (len - n)

/-- The translated parts of a piece, each within a page. Parts translated at issue keep those translations (R234). -/
def State.lookFirst (s : State) (trs : List Tr) (va len : Nat) (root : W64) (write : Bool) (need : Option Nat) : LookR :=
  let kept := keptParts trs va len
  if kept.any fun x => s.hostGone x.1 then .stop va .hostLost
  else
    match s.lookPieces root write need (restPages trs va len) with
    | .ok r => .ok (kept ++ r)
    | x => x

/-- The entries of the pages of a piece that are looked up after issue become the most recently used. -/
def State.touchRest (s : State) (trs : List Tr) (va n : Nat) (root : W64) : State :=
  (restPages trs va n).foldl (fun s x => s.touch x.1 root) s

/-- Translated parts that reach the lost host (R235, R388). -/
def State.partsGone (s : State) (parts : List (Tr × Nat)) : Bool := parts.any fun x => s.hostGone x.1

/-- The first of some ranges, sorted by page, that a look-up stops (R232). -/
def State.firstStop (s : State) (root : W64) (rs : List (Nat × Nat × Bool × Option Nat)) : Option (Nat × Bool × Look) :=
  (sortBy (fun r => r.1 / 65536) rs).findSome? fun r =>
    match s.lookRange r.1 r.2.1 r.2.2.1 r.2.2.2 root with
    | .ok _ => none
    | .stop a why => some (a, r.2.2.1, why)

/-- A read of translated parts: the bytes, and the t of the writes they come from (R243, R244). -/
def State.readParts (s : State) (l : Level) (parts : List (Tr × Nat)) : List Byte × Nat :=
  parts.foldl (fun acc x =>
    let pa := s.phys x.1.pa
    let (b, w) := s.mem.readBytes (levelAt pa l) s.t.id.uid s.t.id.core x.1.key pa x.2
    (acc.1 ++ s.t.overlay pa b, max acc.2 w)) ([], 0)

/-- The leases that a read of time `t` takes (R216). -/
def State.leaseParts (s : State) (l : Level) (parts : List (Tr × Nat)) (t : Nat) : State :=
  { s with mem := parts.foldl (fun m x =>
      let pa := s.phys x.1.pa
      let k := levelAt pa l
      m.lease k (instOf k s.t.id.uid s.t.id.core) pa x.2 t (some (s.t.id.uid, s.t.id.core))) s.mem }

/-- The rts that a write of translated parts must pass (R216, R247). -/
def State.rtsParts (s : State) (l : Level) (parts : List (Tr × Nat)) : Nat :=
  parts.foldl (fun a x =>
    let pa := s.phys x.1.pa
    max a (s.mem.rtsAround (levelAt pa l) s.t.id.uid s.t.id.core pa x.2)) 0

/-! Mutually inclusive accesses (R247; log entry 18). -/

/-- A narrower write that an access of `n` bytes must find, since its instance holds the access's task. -/
def Wr.drawn (w : Wr) (task core pa n : Nat) : Bool :=
  instOf w.level w.task w.core == instOf w.level task core && overlap w.pa w.bytes.length pa n

/-- Such writes brought to the level of the access; none while one of them cannot yet be. -/
def State.join (s : State) (l : Level) (parts : List (Tr × Nat)) : Option State :=
  parts.foldl (fun (r : Option State) x => r.bind fun s =>
    let pa := s.phys x.1.pa
    let u := s.t.id.uid
    let c := s.t.id.core
    s.carry (fun w => w.drawn u c pa x.2) (levelAt pa l)) (some s)

/-- A write with the watches it fires. -/
def State.writePa (s : State) (l : Level) (key : Option Byte) (asid : Byte) (w : WrAs) (pa : Nat) (b : List Byte) : State :=
  let k := levelAt pa l
  let u := s.t.id.uid
  let c := s.t.id.core
  State.fire { s with mem := s.mem.write k u c key asid w pa b } pa b.length k u c none w.t

/-- A write of translated parts, its first virtual byte that of the first part. -/
def State.writeParts (s : State) (l : Level) (w : WrAs) (parts : List (Tr × Nat)) (b : List Byte) : State :=
  (parts.foldl (fun (acc : State × List Byte × Nat) x =>
    let (s, b, ofs) := acc
    let w' : WrAs := { w with va := w.va.map (· + ofs) }
    (s.writePa l x.1.key x.1.asid w' (s.phys x.1.pa) (b.take x.2), b.drop x.2, ofs + x.2)) (s, b, 0)).1

/-- A performed write that is not visible device-wide stays known to later fences. -/
def State.noteSent (s : State) (id : Nat) (cls : BitVec 6) (rs : List (Nat × Nat)) (loc : Bool) (t : Nat) : State :=
  let s := s.withT fun x => { x.noteT id cls rs loc t with wdone := max x.wdone t }
  if s.mem.narrow.any fun w => w.task == s.t.id.uid && w.id == id then
    s.withT fun x => { x with sent := x.sent ++ [{ id := id, cls := cls, span := rs, loc := loc, t := t }] }
  else s

/-! The exposure log (R257). -/

/-- A result, or the freeze that stops it. -/
inductive Res where
  | ok (s : State)
  | stop (s : State)

def Res.bind (r : Res) (f : State → Res) : Res :=
  match r with
  | .ok s => f s
  | .stop s => .stop s

/-- A write of the log at .dev, by the node's own translation. While the context is frozen for it already it waits. -/
def State.logBytes (s : State) (kind : Nat) (bundle : VAddr) (va : Nat) (b : List Byte) : Res :=
  match s.lookRange va b.length true none with
  | .stop a why =>
    .stop (if s.t.stuck then s
      else
        s.stopAt { root := s.t.dtroot, va := a, kind := kind, scope := 4, write := true, atIssue := false, bundle := bundle
                   ins := none }
          why)
  | .ok parts =>
    let s := s.touchRange va b.length s.t.dtroot
    .ok (parts.foldl (fun (acc : State × List Byte) x =>
      (acc.1.devWrite x.1.key (acc.1.phys x.1.pa) (acc.2.take x.2), acc.2.drop x.2)) (s, b)).1

/-- The entry that covers a write of an EXPOSED node, before the write. When COUNT reaches the capacity, OVF is set. -/
def State.logWrite (s : State) (kind : Nat) (bundle : VAddr) (scope va n : Nat) : Res :=
  if (s.t.stage.mode != .exposed && s.t.stage.mode != .committing) || n = 0 then .ok s
  else
    let base := fldOf (s.nodeRec.get 6) 56 4 * 16
    let cap := fldOf (s.nodeRec.get 7) 63 32
    let st := s.t.stage
    let setStage (x : Stage) (s : State) : Res := .ok (s.withT fun t => { t with stage := x })
    let entry (k sc a len : Nat) : State → Res := fun s =>
      s.logBytes kind bundle (base + 16 + 16 * k) (leBytes 8 (sc * 2 ^ 60 + a) ++ leBytes 8 len)
    let head (c : Nat) (o : Bool) : State → Res := fun s =>
      s.logBytes kind bundle base (leBytes 8 c ++ leBytes 8 (if o then 1 else 0))
    let append : Res :=
      if cap ≤ st.count then (head st.count true s).bind (setStage { st with ovf := true })
      else
        let full : Bool := cap ≤ st.count + 1
        ((entry st.count scope va n s).bind (head (st.count + 1) full)).bind
          (setStage { st with count := st.count + 1, ovf := full, last := some (scope, va, n) })
    if base = 0 then .ok s
    else
      match st.last with
      | some (sc, a, len) =>
        if sc = scope && a ≤ va + n && va ≤ a + len then
          let lo := min a va
          let hi := max (a + len) (va + n)
          if lo = a && hi = a + len then .ok s
          else (entry (st.count - 1) sc lo (hi - lo) s).bind (setStage { st with last := some (sc, lo, hi - lo) })
        else if st.ovf then .ok s
        else append
      | none => if st.ovf then .ok s else append

/-! The commit (R255). -/

/-- Runs of contiguous bytes, where `next x y` says that `y` follows `x`. -/
def runsBy (next : SByte → SByte → Bool) : List SByte → List (List SByte)
  | [] => []
  | x :: l =>
    match runsBy next l with
    | (y :: r) :: rs => if next x y then (x :: y :: r) :: rs else [x] :: (y :: r) :: rs
    | rs => [x] :: rs

/-- The runs of staged bytes in virtual address, in which the exposure log names them (R255). -/
def Stage.runs (g : Stage) : List (List SByte) := runsBy (fun x y => y.va == x.va + 1) (sortBy (·.va) g.bytes)

/-- Contiguous bytes that one write can hold: also in physical address, and under one key. -/
def together (x y : SByte) : Bool := y.pa == x.pa + 1 && y.va == x.va + 1 && y.key == x.key

/-- The staged bytes as places. -/
def Stage.parts (g : Stage) : List (Tr × Nat) :=
  g.bytes.map fun x => (Tr.physical x.pa, 1)

/-- The staged bytes of one line at the commit scope, as one write: one time for all of them. -/
def State.commitLine (s : State) (l : Level) (id : Nat) (bytes : List SByte) : State :=
  let parts : List (Tr × Nat) := bytes.map fun x => (Tr.physical x.pa, 1)
  let t := max s.t.pts (s.rtsParts l parts + 1)
  let s := (runsBy together bytes).foldl (fun (s : State) r =>
    match r with
    | [] => s
    | x :: _ =>
      let n := r.length
      let w : WrAs := { rel := true, bulk := false, t := t, id := id, cls := cST, va := some x.va }
      (s.writePa l x.key x.asid w x.pa (r.map (·.val))).noteSent id cST [(x.va, n)] false t) s
  s.withT fun y => { y with pts := t }

/-- The committed lines; the node is EXPOSED from then on, and the changes of membership that waited are applied (R255). -/
def State.commitBytes (s : State) (l : Level) (id : Nat) : State :=
  let lines := (s.t.stage.bytes.map fun x => x.pa / 64).eraseDups
  let s := lines.foldl (fun (s : State) k => s.commitLine l id (s.t.stage.bytes.filter fun x => x.pa / 64 == k)) s
  let s := s.withT fun t => { t with stage := { t.stage with bytes := [], mode := .exposed } }
  s.t.eks.foldl (fun (s : State) e =>
    match e.op with
    | .join _ | .leave => (s.applyChange e.op).withT fun t => t.ekEnd e.id
    | _ => s) s

/-- The first entries of the exposure log: one for each run of contiguous staged bytes. The runs that the log already
covers are skipped by the merging of R257 when the commit starts afresh after a freeze. -/
def logRuns (kind : Nat) (bundle : VAddr) (scope : Nat) : List (List SByte) → State → Res
  | [], s => .ok s
  | [] :: rs, s => logRuns kind bundle scope rs s
  | (x :: r) :: rs, s => (s.logWrite kind bundle scope x.va (r.length + 1)).bind (logRuns kind bundle scope rs)

/-! Program-ordered accesses (R245). -/

def Acc.kind (a : Acc) : Nat :=
  match a.op with
  | .ldS _ | .ldV .. | .ldT .. | .ldD .. => 0
  | .stS | .stV | .cbo _ | .commit => 1
  | .amo .. | .cas .. => 2
  | .tld _ | .tst _ => 4

/-- The format that a piece requires of its page (R221). -/
def State.accNeed (s : State) (a : Acc) : Option Nat :=
  match a.op with
  | .ldT _ _ f _ => some f.code
  | .tld c | .tst c =>
    (s.t.cmds.find? fun x => x.id == c).bind fun x =>
      match x.op with
      | .tld e _ _ | .tgth _ e _ _ _ => (s.t.entry e).map fun y => y.fmt.code
      | .mmag _ _ _ _ _ f _ _ => some f.code
      | .tst _ _ _ f => some f
      | _ => none
  | _ => none

/-- The bytes that an access writes at a piece; none while they are not known. -/
def State.accData (s : State) (a : Acc) (p : Piece) : Option (List Byte) :=
  match a.op with
  | .tst c =>
    (s.t.cmds.find? fun x => x.id == c).bind fun x => if x.latched then x.bytes p.key else none
  | .cbo .zero => some (List.replicate p.len 0)
  | _ => some p.data

/-- The new memory value of an atomic (R167). -/
def AmoOp.run (op : AmoOp) (len : Nat) (m b : Nat) : Nat :=
  let w := 8 * len
  let s (x : Nat) : Int := toSigned w (x % 2 ^ w)
  match op with
  | .add => (m + b) % 2 ^ w
  | .and => m &&& (b % 2 ^ w)
  | .or => m ||| (b % 2 ^ w)
  | .xor => m ^^^ (b % 2 ^ w)
  | .min => if s b < s m then b % 2 ^ w else m
  | .max => if s m < s b then b % 2 ^ w else m
  | .swp => b % 2 ^ w

def State.updAcc (s : State) (id : Nat) (f : Acc → Acc) : State :=
  s.withT fun t => { t with acc := t.acc.map fun a => if a.id = id then f a else a }

def State.dropAcc (s : State) (id : Nat) : State :=
  s.withT fun t => { t with acc := t.acc.filter fun a => a.id != id }

def State.updCmd (s : State) (id : Nat) (f : Cmd → Cmd) : State :=
  s.withT fun t => { t with cmds := t.cmds.map fun c => if c.id = id then f c else c }

def State.dropCmd (s : State) (id : Nat) : State :=
  s.withT fun t => { t with cmds := t.cmds.filter fun c => c.id != id }

/-- A command without a pushed entry completes: flags, and the t that a WAIT takes over (R76, R251). -/
def State.cmdDone (s : State) (c : Cmd) : State :=
  (s.dropCmd c.id).withT fun t =>
    let t := t.raise c.fl c.uf
    { t with tcp := if c.cls = 0 then t.tcp else max t.tcp c.tmax }

/-- What follows the last piece of an access. -/
def State.accEnd (s : State) (a : Acc) : State :=
  match a.op with
  | .stS | .stV => (s.dropAcc a.id).withT fun t => if a.staged then t else { t with cnt := t.cnt.sub .st }
  | .cbo .zero => (s.dropAcc a.id).uncount .st
  | .cbo _ => s.dropAcc a.id
  | .tst c =>
    let s := (s.dropAcc a.id).uncount .tl
    match s.t.cmds.find? fun x => x.id == c with
    | some x => s.cmdDone x
    | none => s
  | .tld c =>
    let got := (s.t.acc.find? fun y => y.id == a.id).elim [] (·.got)
    (s.dropAcc a.id).updCmd c fun x => { x with got := got }
  | _ => s

/-- A piece has been performed; the access ends with its last one. -/
def State.pieceDone (s : State) (a : Acc) (p : Piece) (got : List Byte) : State :=
  let s := s.updAcc a.id fun x => { x with pieces := x.pieces.tail, got := x.got ++ (p.key :: p.also).map fun k => (k, got) }
  if a.pieces.length ≤ 1 then s.accEnd a else s

/-- The physical lines of translated parts. -/
def State.partLines (s : State) (parts : List (Tr × Nat)) : List Nat := parts.flatMap fun x => linesOf (s.phys x.1.pa) x.2

/-- A read of time `t` beyond the lease of a ready block refills the whole block, whose flag passes through 1 and whose lines take
one lease (R229); the lines of a task that left its core are ordinary ones (R230). -/
def State.refill (s : State) (parts : List (Tr × Nat)) (t : Nat) : State :=
  let ls := s.partLines parts
  (List.finRange 16).foldl (fun (s : State) k =>
    let b := s.t.blocks.get k
    if s.t.id.resident && b.flag = 2 && b.lease < t && b.lines.any ls.contains then
      let inst := instOf b.level s.t.id.uid s.t.id.core
      let s := { s with mem := b.lines.foldl (fun m x => m.lease b.level inst (x * 64) 64 t (some (s.t.id.uid, s.t.id.core))) s.mem }
      (s.setFlag s.t.id.uid k { b with flag := 1 }).setFlag s.t.id.uid k { b with flag := 2, lease := t + Config.lease }
    else s) s

/-- One translated piece performed at its scope with its timestamps (R216, R243). A CAS whose compare fails writes nothing: it is performed
as a read, with the t and the lease of one (DESIGN CHOICE, log entry 124). -/
def State.performAt (s : State) (a : Acc) (p : Piece) (parts : List (Tr × Nat)) : State :=
  let t1 (s : State) (t : Nat) : State := s.withT fun x => { x with pts := t }
  let as_ (rel : Bool) (t : Nat) : WrAs :=
    { rel := rel, bulk := false, t := t, id := a.id, cls := a.cls, va := if a.loc then none else some p.va }
  match a.op with
  | .ldS _ | .ldV .. | .ldT .. | .ldD .. | .tld _ =>
    let (b, w) := s.readParts a.level parts
    let t := max s.t.pts w
    let s := (t1 (s.leaseParts a.level parts t) t).withT fun x => x.noteT a.id a.cls a.ranges a.loc t
    (s.refill parts t).pieceDone a p b
  | .amo op _ v =>
    let (b, _) := s.readParts a.level parts
    let t := max s.t.pts (s.rtsParts a.level parts + 1)
    let s := t1 (s.writeParts a.level (as_ true t) parts (leBytes p.len (op.run p.len (leNat b) v.toNat))) t
    (s.noteSent a.id a.cls a.ranges a.loc t).pieceDone a p b
  | .cas _ e v =>
    let (b, w) := s.readParts a.level parts
    if leNat b = e.toNat % 2 ^ (8 * p.len) then
      let t := max s.t.pts (s.rtsParts a.level parts + 1)
      let s := t1 (s.writeParts a.level (as_ true t) parts (leBytes p.len v.toNat)) t
      (s.noteSent a.id a.cls a.ranges a.loc t).pieceDone a p b
    else
      let t := max s.t.pts w
      let s := (t1 (s.leaseParts a.level parts t) t).withT fun x => x.noteT a.id a.cls a.ranges a.loc t
      (s.refill parts t).pieceDone a p b
  | .cbo .clean | .cbo .flush =>
    -- the bytes of the line that are held within the scope reach device memory: every narrower write to it there propagates (R170, R244)
    let pas := parts.map fun x => s.phys x.1.pa
    let near (w : Wr) : Bool :=
      w.within a.level s.t.id.uid s.t.id.core &&
        pas.any fun pa => (linesOf w.pa w.bytes.length).contains (pa / 64)
    match s.carry near 4 with
    | some s => s.pieceDone a p []
    | none => s
  | .stS | .stV | .tst _ | .cbo .zero =>
    match s.accData a p with
    | none => s
    | some b =>
      if a.staged then
        let bs := (parts.foldl (fun (acc : List SByte × List Byte × Nat) x =>
          (acc.1 ++ (acc.2.1.take x.2).zipIdx.map (fun y =>
              { pa := s.phys x.1.pa + y.2, va := acc.2.2 + y.2, val := y.1, key := x.1.key, asid := x.1.asid }),
            acc.2.1.drop x.2, acc.2.2 + x.2)) ([], b, p.va)).1
        let s := s.withT fun t => { t with stage := { t.stage with bytes := bs.foldl (fun l y => stagePut y l) t.stage.bytes } }
        s.pieceDone a p []
      else
        let t := max s.t.pts (s.rtsParts a.level parts + 1)
        let s := t1 (s.writeParts a.level (as_ a.rel t) parts b) t
        (s.noteSent a.id a.cls a.ranges a.loc t).pieceDone a p []
  | .commit => s

/-- What an access waits for before its next piece (R246, R248, R249): a release for everything earlier; every
access for an earlier QTAKE; a TST for its entry, and a row that enters an entry for that entry to stand at the bench (R50). -/
def State.accReady (s : State) (a : Acc) : Bool :=
  !s.t.takeBefore a.id && (!a.rel || s.t.clearBefore a.id) &&
    (match a.op with
    | .tst c => (match s.t.cmds.find? fun x => x.id == c with | some x => x.latched | none => true)
    | .tld c => s.t.gatherKnown c && (match s.t.cmds.find? fun x => x.id == c with | some x => s.t.rowsLand x | none => true)
    | _ => true)

/-! Poisoned lines (R378). -/

/-- The first poisoned line that a read of translated parts meets. -/
def State.poisonIn (s : State) (l : Level) (parts : List (Tr × Nat)) : Option Nat :=
  parts.findSome? fun x =>
    let pa := s.phys x.1.pa
    s.badIn (levelAt pa l) s.t.id.uid s.t.id.core pa x.2

/-- The machine check of a poisoned line that a syllable's work consumes; ECOUNT is the count of the line's frame, and no unit of the
core is charged. The syndrome of the line's code is free (log entry 88). -/
def State.consumePoison (s : State) (ins : Option Instr) (line : Nat) (at_ : VAddr) : State :=
  let (slot, op) := slotOp ins
  let x : Upset :=
    { cls := 10, slot := slot, op := op, facet := 0, lane := 0, phys := 0, arr := .l1d
      syn := (Config.freeWord s.fv line).setWidth 16 }
  State.machineCheck { s with fv := s.fv + 1 } s.t.id.uid [(x, at_, some (s.inWindow (frameCount s.mem (line / 1024))).length)]

/-- The end of a walk of the current task from a root, `instr` for the instruction tables: a poisoned line that it read raises a
machine check in the task (R378), else `go` receives what it found. The containment structures are looked up for each line (R379). -/
def State.endWalk (s : State) (instr : Bool) (root va : Nat) (ins : Option Instr) (at_ : VAddr) (go : State → State) : State :=
  let lines := walkLines s.mem s.dev.devid instr va 5 0 root
  let s := s.lookupCopies (lines.map fun l => (l * 64, 64))
  if s.dev.cLost then s
  else
    match lines.find? (s.badLine 4 s.t.id.uid s.t.id.core) with
    | some line => s.consumePoison ins line at_
    | none => go s

/-- A look-up of translated parts in the containment structures (R379). -/
def State.lookupParts (s : State) (parts : List (Tr × Nat)) : State :=
  s.lookupCopies (parts.map fun x => (s.phys x.1.pa, x.2))

def AccOp.reads : AccOp → Bool
  | .ldS _ | .ldV .. | .ldT .. | .ldD .. | .tld _ | .amo .. | .cas .. => true
  | _ => false

/-- What stops piece `p`: of a gather, the first of its pieces in sorted order (R232). -/
def State.accStop (s : State) (a : Acc) (va : Nat) (why : Look) : Nat × Look :=
  let gather : Bool := match a.op with
    | .tld c => s.t.cmds.any fun x => x.id == c && (match x.op with | .tgth .. | .mmag .. => true | _ => false)
    | _ => false
  if gather then
    (match s.firstStop a.root (a.pieces.map fun p => (p.va, p.len, a.write, s.accNeed a)) with
    | some (v, _, w) => (v, w)
    | none => (va, why))
  else (va, why)

/-- The commit (R255): the log first, then the bytes. -/
def State.performCommit (s : State) (a : Acc) : State :=
  let me := s.t.id.uid
  if s.t.stuck then s
  else
    if s.partsGone s.t.stage.parts then s.freeze .host
    else
    let s := s.lookupParts s.t.stage.parts
    if s.dev.cLost then s
    else
    match s.carry (fun w => w.task == me) a.level with
    | none => s
    | some s =>
      match s.join a.level s.t.stage.parts with
      | none => s
      | some s =>
        match logRuns 1 a.bundle a.scope s.t.stage.runs s with
        | .stop s => s
        | .ok s => (s.commitBytes a.level a.id).dropAcc a.id

/-- The length of a record in bytes (R301). -/
def Recording.bytes (r : Recording) : Nat :=
  64 + 16 * r.guards.length + 16 * r.pages.length + r.entries.foldl (fun n e => n + 8 + 16 * e.pairs.length) 0

/-- The pages that an access of the recording has reached enter it (R302). -/
def State.notePages (s : State) (a : Acc) (parts : List (Tr × Nat)) : State :=
  if !a.note || s.t.mrec.state = .off then s
  else
    let found : List (Nat × Nat × Nat) := parts.map fun x => (x.1.base / 65536, x.1.fmt, x.1.geo)
    let pages := found.foldl (fun (l : List (Nat × Nat × Nat)) p => if l.any fun q => q.1 == p.1 then l else l ++ [p])
      s.t.mrec.pages
    let r := { s.t.mrec with pages := pages }
    if 16 < pages.length || 32768 < r.bytes then s.abortMould 6 else s.withT fun t => { t with mrec := r }

/-- The oldest access of the current task that is not performed takes its next piece (R245). -/
def State.performNext (s : State) : State :=
  match s.t.acc.find? fun a => !s.t.accDone a with
  | none => s
  | some a =>
    if !s.accReady a then s
    else
      let me := s.t.id.uid
      match a.op, a.pieces with
      | .commit, _ => s.performCommit a
      | _, [] => s
      | _, p :: _ =>
        match s.lookFirst p.trs p.va p.len a.root a.write (s.accNeed a) with
        | .stop va why =>
          if s.t.stuck then s
          else
            let (va, why) := s.accStop a va why
            s.stopAt { root := a.root, va := va, kind := a.kind, scope := a.scope, write := a.write, atIssue := false
                       bundle := a.bundle, ins := a.ins } why
        | .ok parts =>
          let s := ((s.touchRest p.trs p.va p.len a.root).notePages a parts).lookupParts parts
          if s.dev.cLost then s
          else
          match if a.op.reads then s.poisonIn a.level parts else none with
          | some line => s.consumePoison a.ins line a.bundle
          | none =>
          let logged :=
            if a.write && !a.staged && (a.op != .cbo .clean) && (a.op != .cbo .flush) then
              s.logWrite a.kind a.bundle a.scope p.va p.len
            else .ok s
          match logged with
          | .stop s => s
          | .ok s =>
            if a.staged then s.performAt a p parts
            else
              -- R246: earlier narrower stores first; R249: and earlier bulk writes for a release
              let plain := match a.op with | .cbo .clean | .cbo .flush => false | _ => true
              let joined := (s.carry (fun w => w.task == me && (a.rel || !w.bulk)) a.level).bind fun s =>
                if plain then s.join a.level parts else some s
              match joined with
              | none => s
              | some s => s.performAt a p parts

/-! Replies (R119). -/

/-- The value that a completed load or atomic lands with. -/
def accValue (a : Acc) : FVal × Flags :=
  let first : List Byte := match a.got with | x :: _ => x.2 | [] => []
  let mask : BitVec 16 := a.got.foldl (fun m x => m ||| (1 : BitVec 16) <<< x.1) 0
  let lane (l : Fin 16) : List Byte := match a.got.find? fun x => x.1 == l.val with | some x => x.2 | none => []
  match a.op with
  | .ldV .. => (.lanes mask (vecOf fun l => BitVec.ofNat 32 (leNat (lane l))), 0)
  | .ldT _ _ f hi =>
    if f.blocked then
      -- one block, which every enabled lane reads
      let vs := blockNums f.blk first
      let r (l : Fin 16) : W32 × Flags := rnd32 (vs.getD (l.val + (if hi then 16 else 0)) (.fin false 0 0))
      (.lanes mask (vecOf fun l => (r l).1), laneFlags mask (vecOf fun l => (r l).2))
    else
      let one (l : Fin 16) : W32 :=
        let x := leNat (lane l)
        match f.ff with
        | some g => (rnd32 (g.decode x)).1
        | none => BitVec.ofInt 32 (toSigned f.width x)
      (.lanes mask (vecOf one), 0)
  | .ldD .. =>
    let r (l : Fin 16) : DLane × Flags := laneOfImage (lane l)
    (.dist mask { lanes := vecOf fun l => (r l).1, mask := 0, aligned := false },
      laneFlags mask (vecOf fun l => (r l).2))
  | _ => (.w (BitVec.ofNat 64 (leNat first)), 0)

/-- The flags of a facet load land with it (R200, R202, R348). -/
def State.replyFlags (s : State) (a : Acc) (land : Nat) (fl : Flags) : State :=
  let f : Option (Fin 8) := match a.op with | .ldT f .. => some f | .ldD f _ => some f | _ => none
  match f with
  | some f =>
    if fl = 0 then s
    else
      s.withT fun t =>
        { t with
          flights := t.flights ++ [{ id := t.seq, dst := .fsr f, iss := t.bidx, land := land
                                     val := .w (fl.setWidth 64), org := Origin.dat }]
          seq := t.seq + 1 }
  | none => s

/-- The reply of the oldest performed load reaches the core: its value stands in the write in flight, and ld falls. -/
def State.reply (s : State) : State :=
  match s.t.acc.find? fun a => s.t.accDone a && a.flight.isSome with
  | none => s
  | some a =>
    let (v, fl) := accValue a
    let land := match s.t.flights.find? fun x => some x.id == a.flight with | some x => x.land | none => s.t.bidx
    let s := s.withT fun t =>
      { t with
        flights := t.flights.map fun x => if some x.id = a.flight then { x with val := v } else x
        cnt := t.cnt.sub .ld
        frz := match t.frz with
          | some (.reply i) => if i = a.id then none else t.frz
          | x => x }
    (s.replyFlags a land fl).dropAcc a.id

/-! Bulk elements (R251). -/

/-- A byte that a performed element of a higher index than `i` has written (R232). -/
def Cmd.written (c : Cmd) (i pa : Nat) : Bool := c.wrote.any fun r => i < r.1 && r.2.1 ≤ pa && pa < r.2.1 + r.2.2

/-- Whether nothing that R248 or R255 puts before the command is still to be performed. -/
def Task.bulkFree (t : Task) (id : Nat) : Bool :=
  !t.takeBefore id && !(t.acc.any fun a => a.id < id && !t.accDone a && (a.acq || a.op == .commit))

/-- The window bytes of an element: its parts, or cause 7 (R227, R259). -/
def State.windowParts (s : State) (core : Nat) (ofs : Int) (n : Nat) : Option (List (Tr × Nat)) :=
  if 0 ≤ ofs ∧ ofs.toNat + n ≤ 0x100000 - s.reserved core then
    some [(Tr.physical (windowPa core ofs.toNat), n)]
  else none

/-- Virtual address, physical address and key of each byte of translated parts. -/
def State.partBytes (s : State) (va : Nat) (parts : List (Tr × Nat)) : List (Nat × Nat × Option Byte) :=
  let step (acc : List (Nat × Nat × Option Byte) × Nat) (x : Tr × Nat) : List (Nat × Nat × Option Byte) × Nat :=
    (acc.1 ++ (List.range x.2).map fun k => (acc.2 + k, s.phys x.1.pa + k, x.1.key), acc.2 + x.2)
  (parts.foldl step ([], va)).1

/-- The other data reads of CPSORT at the address of one: one read serves them all (R232). -/
def Cmd.sameReads (t : Task) (c : Cmd) (i : Nat) (e : Elem) : List Nat :=
  match c.op with
  | .cpsort _ _ _ _ n _ _ =>
    if e.write || i < n then []
    else
      (List.range (2 * n)).filter fun k =>
        n ≤ k && k != i && !c.done.contains k &&
          (match c.elem t k with | some x => x.ready && !x.skip && x.va == e.va | none => false)
  | _ => []

/-- An element of a copy command performed. `logged` goes first where the node is EXPOSED. -/
def State.elemAt (s : State) (c : Cmd) (i : Nat) (e : Elem) (parts : List (Tr × Nat)) : State :=
  let is := i :: c.sameReads s.t i e
  let rs := c.ranges s.t
  let loc := e.window.isSome
  let fin (s : State) (b : List Byte) (t : Nat) : State :=
    s.updCmd c.id fun x => { x with done := x.done ++ is, got := if e.write then x.got else x.got ++ is.map fun k => (k, b)
                                    tmax := max x.tmax t }
  if e.write then
    let t := max c.p (s.rtsParts c.level parts + 1)
    let as_ (va : Nat) : WrAs := { rel := false, bulk := true, t := t, id := c.id, cls := cCW, va := if loc then none else some va }
    let s : State :=
      match c.op with
      | .cpsort .. =>
        let sb : List SByte := ((s.partBytes e.va parts).zip e.data).filterMap fun x =>
          if c.written i x.1.2.1 then none
          else some { pa := x.1.2.1, va := x.1.1, val := x.2, key := x.1.2.2, asid := asidOf c.root }
        let s := s.updCmd c.id fun x => { x with wrote := x.wrote ++ parts.map fun y => (i, s.phys y.1.pa, y.2) }
        (runsBy together sb).foldl (fun (s : State) (r : List SByte) =>
          match r with
          | [] => s
          | x :: _ => s.writePa c.level x.key x.asid (as_ x.va) x.pa (r.map (·.val))) s
      | _ => s.writeParts c.level (as_ e.va) parts e.data
    fin ((s.noteSent c.id cCW rs false t).withT fun x => x.noteBulk c.id cCW rs t) [] t
  else
    let (b, w) := s.readParts c.level parts
    let t := max c.p w
    let s := (s.leaseParts c.level parts t).withT fun x => x.noteBulk c.id cCR rs t
    let s := match c.op with
      | .ldblk k .. => s.withT fun x => { x with blocks := x.blocks.set k { x.blocks.get k with
          lines := (x.blocks.get k).lines ++ if (x.blocks.get k).cmd = c.id then s.partLines parts else [] } }
      | _ => s.refill parts t
    fin s b t

/-- What stops element `i`: of CPSORT, the first of its requests in sorted order (R232). -/
def State.elemStop (s : State) (c : Cmd) (write : Bool) (va : Nat) (why : Look) : Nat × Bool × Look :=
  match c.op with
  | .cpsort .. =>
    let rs := (List.range (c.count s.t)).filterMap fun i => (c.elem s.t i).bind fun e =>
      if e.ready && !e.skip && !c.done.contains i then some (e.va, e.len, e.write, e.need) else none
    (s.firstStop c.root rs).getD (va, write, why)
  | _ => (va, write, why)

/-- BULK_ELEMENT_ACCESS on the current task's copy command `c`, element `i`. A fault in the local store that CPMC names carries as its
VADDR the offset there modulo 2^57, since the destination has no virtual address (DESIGN CHOICE, log entry 125). -/
def State.bulkCmd (s : State) (c : Cmd) (i : Nat) : State :=
  match c.elem s.t i with
  | none => s
  | some e =>
    if !e.ready || e.skip || c.done.contains i || !s.t.bulkFree c.id || !s.t.rowsLand c then s
    else
      let r : MemReq :=
        { root := c.root, va := e.va, kind := 5, scope := c.scope, write := e.write, atIssue := false, bundle := c.bundle
          ins := c.ins }
      match e.window with
      | some (core, ofs) =>
        match s.windowParts core ofs e.len with
        | some parts =>
          match s.logWrite 5 c.bundle c.scope (windowPa core ofs.toNat % 2 ^ 57) e.len with
          | .stop s => s
          | .ok s => ((s.join c.level parts).map fun s => s.elemAt c i e parts).getD s
        | none =>
          if s.t.stuck then s
          else s.freeze (.fault { r with va := (ofs % 2 ^ 57).toNat } 7 0 0 none)
      | none =>
        let trs := if i = 0 then c.first.toList else []
        match s.lookFirst trs e.va e.len c.root e.write e.need with
        | .stop va why =>
          let (va, write, why) := s.elemStop c e.write va why
          if s.t.stuck then s else s.stopAt { r with va := va, write := write } why
        | .ok parts =>
          let s := (s.touchRest trs e.va e.len c.root).lookupParts parts
          let fills := match c.op with | .ldblk .. => true | _ => false
          if s.dev.cLost then s
          else
          match if !e.write && !fills then s.poisonIn c.level parts else none with
          | some line => s.consumePoison c.ins line c.bundle
          | none =>
          match (if e.write then s.logWrite 5 c.bundle c.scope e.va e.len else .ok s) with
          | .stop s => s
          | .ok s => ((s.join c.level parts).map fun s => s.elemAt c i e parts).getD s

/-- A bulk read or write of an EK command: one element, whole. None where it cannot be performed yet. -/
def State.ekRead (s : State) (e : Ek) (va n : Nat) : State × Option (List Byte) :=
  match s.lookRange va n false none e.root with
  | .stop a why =>
    (if s.t.stuck then s
     else
       s.stopAt { root := e.root, va := a, kind := 6, scope := e.scope, write := false, atIssue := false, bundle := e.bundle
                  ins := e.ins }
         why, none)
  | .ok parts =>
    let s := (s.touchRange va n e.root).lookupParts parts
    if s.dev.cLost then (s, none)
    else
    match s.poisonIn e.level parts with
    | some line => (s.consumePoison e.ins line e.bundle, none)
    | none =>
    match s.join e.level parts with
    | none => (s, none)
    | some s =>
      let (b, w) := s.readParts e.level parts
      let t := max e.p w
      let s := (s.refill parts t |>.leaseParts e.level parts t).withT fun x =>
        { x.noteBulk e.id cKR e.ranges t with
          eks := x.eks.map fun y => if y.id = e.id then { y with done := y.done ++ [0], tmax := max y.tmax t } else y }
      (s, some b)

def State.ekWrite (s : State) (e : Ek) (va : Nat) (b : List Byte) : State × Bool :=
  match s.lookRange va b.length true none e.root with
  | .stop a why =>
    (if s.t.stuck then s
     else
       s.stopAt { root := e.root, va := a, kind := 6, scope := e.scope, write := true, atIssue := false, bundle := e.bundle
                  ins := e.ins }
         why, false)
  | .ok parts =>
    let s := (s.touchRange va b.length e.root).lookupParts parts
    if s.dev.cLost then (s, false)
    else
    match s.logWrite 6 e.bundle e.scope va b.length with
    | .stop s => (s, false)
    | .ok s =>
    match s.join e.level parts with
    | none => (s, false)
    | some s =>
      let t := max e.p (s.rtsParts e.level parts + 1)
      let w : WrAs := { rel := false, bulk := true, t := t, id := e.id, cls := cKW, va := some va }
      let s := (s.writeParts e.level w parts b).noteSent e.id cKW e.ranges false t
      (s.withT fun x =>
        { x.noteBulk e.id cKW e.ranges t with
          eks := x.eks.map fun y => if y.id = e.id then { y with done := y.done ++ [1], tmax := max y.tmax t } else y },
       true)

end Sys2Proof.Machine
end

