-- ==== Sys2Proof/Machine/Am.lean ====
section
/-! DEFINITION. The AM slot's memory accesses (R162 to R170). CSRR and CSRW stand in Csr.lean. -/

namespace Sys2Proof.Machine

/-! The common part (R163, R234): holds first, then the traps on the address, then the translation. -/

def addrTrap (a : W64) (size : Nat) : Option Nat :=
  if 2 ^ 57 ≤ a.toNat then some 0x31 else if a.toNat % size ≠ 0 then some 0x30 else none

/-- What an access needs before it issues. -/
structure AmReq where
  addr : W64
  size : Nat
  cls : BitVec 6
  cnt : Option Cnt
  write : Bool
  kind : Nat
  scope : Nat

def State.am (s : State) (r : AmReq) (issue : Tr → State → State) : State :=
  let a := r.addr.toNat
  if s.cntFull r.cnt || s.memHeld r.cls [(a, r.size)] false then s.hold
  else
    match addrTrap r.addr r.size with
    | some c => s.trap c
    | none =>
      match s.look a r.size r.write none with
      | .ok tr => issue tr (s.touch a)
      | why => s.stopAt (s.req a r.kind r.scope r.write) why

/-- One piece, translated at issue. -/
def onePiece (a : W64) (size : Nat) (tr : Tr) (data : List Byte) : List Piece :=
  [{ key := 0, also := [], va := a.toNat, len := size, trs := [tr], data := data }]

/-! Loads and stores (R164, R165). -/

def load (size : Nat) (acq : Bool) (o : OLd) (s : State) : Out :=
  guarded o.g (fun s =>
    let a := s.amAddr o.ix o.a o.b size
    let (l, sc) := s.scope o.scope
    s.am { addr := a, size := size, cls := cLD, cnt := some .ld, write := false, kind := 0, scope := sc } fun tr s =>
      let id := s.t.seq
      ((s.fly (Dst.flight o.d) 4 .wait Origin.dat).addAcc
        { op := .ldS o.d, write := false, level := l, scope := sc, acq := acq, rel := false, cls := cLD, loc := false
          flight := some id, pieces := onePiece a size tr [] }).count .ld) s

def store (size : Nat) (rel : Bool) (o : OSt) (s : State) : Out :=
  guarded o.g (fun s =>
    let a := s.amAddr o.ix o.a o.b size
    let v := leBytes size (s.src o.ix o.v).toNat
    let (l, sc) := s.scope o.scope
    s.am { addr := a, size := size, cls := cST, cnt := some .st, write := true, kind := 1, scope := sc } fun tr s =>
      (s.addAcc
        { op := .stS, write := true, level := l, scope := sc, acq := false, rel := rel, cls := cST, loc := false
          flight := none, pieces := onePiece a size tr v }).countStore) s

def execLdB (o : OLd) (s : State) : Out := load 1 false o s
def execLdH (o : OLd) (s : State) : Out := load 2 false o s
def execLdW (o : OLd) (s : State) : Out := load 4 false o s
def execLdD (o : OLd) (s : State) : Out := load 8 false o s
def execLdBAcq (o : OLd) (s : State) : Out := load 1 true o s
def execLdHAcq (o : OLd) (s : State) : Out := load 2 true o s
def execLdWAcq (o : OLd) (s : State) : Out := load 4 true o s
def execLdDAcq (o : OLd) (s : State) : Out := load 8 true o s
def execStB (o : OSt) (s : State) : Out := store 1 false o s
def execStH (o : OSt) (s : State) : Out := store 2 false o s
def execStW (o : OSt) (s : State) : Out := store 4 false o s
def execStD (o : OSt) (s : State) : Out := store 8 false o s
def execStBRel (o : OSt) (s : State) : Out := store 1 true o s
def execStHRel (o : OSt) (s : State) : Out := store 2 true o s
def execStWRel (o : OSt) (s : State) : Out := store 4 true o s
def execStDRel (o : OSt) (s : State) : Out := store 8 true o s

/-! LDL and STL (R166): offsets in the core's own local store, at scope CLUSTER. -/

/-- The checks of LDL and STL: an offset beyond the local store, or in the tile-stack reservation, is out of range, whatever its bits;
alignment alone follows R163. -/
def State.loc (s : State) (r : AmReq) (issue : Tr → State → State) : State :=
  let a := r.addr.toNat
  if s.cntFull r.cnt || s.memHeld r.cls [(a, r.size)] true then s.hold
  else
    if a % r.size ≠ 0 then s.trap 0x30
    else if 0x100000 - s.reserved s.t.id.core < a + r.size then s.freeze (.fault (s.req a r.kind 2 r.write) 7 0 0 none)
    else issue (Tr.physical (windowPa s.t.id.core a)) s

def loadLoc (size : Nat) (o : OR3) (s : State) : Out :=
  guarded o.g (fun s =>
    let a := s.amAddr o.ix o.a o.b size
    s.loc { addr := a, size := size, cls := cLD, cnt := some .ld, write := false, kind := 0, scope := 2 } fun tr s =>
      let id := s.t.seq
      ((s.fly (Dst.flight o.d) 3 .wait Origin.dat).addAcc
        { op := .ldS o.d, write := false, level := 2, scope := 2, acq := false, rel := false, cls := cLD, loc := true
          flight := some id, pieces := onePiece a size tr [] }).count .ld) s

def storeLoc (size : Nat) (o : OStl) (s : State) : Out :=
  guarded o.g (fun s =>
    let a := s.amAddr o.ix o.a o.b size
    let v := leBytes size (s.src o.ix o.v).toNat
    s.loc { addr := a, size := size, cls := cST, cnt := some .st, write := true, kind := 1, scope := 2 } fun tr s =>
      (s.addAcc
        { op := .stS, write := true, level := 2, scope := 2, acq := false, rel := false, cls := cST, loc := true
          flight := none, pieces := onePiece a size tr v }).countStore) s

def execLdlB (o : OR3) (s : State) : Out := loadLoc 1 o s
def execLdlH (o : OR3) (s : State) : Out := loadLoc 2 o s
def execLdlW (o : OR3) (s : State) : Out := loadLoc 4 o s
def execLdlD (o : OR3) (s : State) : Out := loadLoc 8 o s
def execStlB (o : OStl) (s : State) : Out := storeLoc 1 o s
def execStlH (o : OStl) (s : State) : Out := storeLoc 2 o s
def execStlW (o : OStl) (s : State) : Out := storeLoc 4 o s
def execStlD (o : OStl) (s : State) : Out := storeLoc 8 o s

/-! Atomics (R167, R168): acquire and release together, in the classes LD and ST. -/

def atomic (size : Nat) (op : State → AccOp) (o : OLd) (s : State) : Out :=
  guarded o.g (fun s =>
    let a := s.src o.ix o.a
    let (l, sc) := s.scope o.scope
    let op := op s
    s.am { addr := a, size := size, cls := cLD ||| cST, cnt := some .ld, write := true, kind := 2, scope := sc }
      fun tr s =>
        let id := s.t.seq
        ((s.fly (Dst.flight o.d) 4 .wait Origin.dat).addAcc
          { op := op, write := true, level := l, scope := sc, acq := true, rel := true, cls := cLD ||| cST, loc := false
            flight := some id, pieces := onePiece a size tr [] }).count .ld) s

def amo (op : AmoOp) (size : Nat) (o : OLd) (s : State) : Out := atomic size (fun s => .amo op o.d (s.src o.ix o.b)) o s

/-- CAS compares with the old value of its own destination, read through its port entry. -/
def cas (size : Nat) (o : OLd) (s : State) : Out :=
  let n : Nat := match o.d with | .s i => i.val | .bs _ => 0
  atomic size (fun s => .cas o.d (s.entryVal n) (s.src o.ix o.b)) o s

def execAmoaddW (o : OLd) (s : State) : Out := amo .add 4 o s
def execAmoaddD (o : OLd) (s : State) : Out := amo .add 8 o s
def execAmoandW (o : OLd) (s : State) : Out := amo .and 4 o s
def execAmoandD (o : OLd) (s : State) : Out := amo .and 8 o s
def execAmoorW (o : OLd) (s : State) : Out := amo .or 4 o s
def execAmoorD (o : OLd) (s : State) : Out := amo .or 8 o s
def execAmoxorW (o : OLd) (s : State) : Out := amo .xor 4 o s
def execAmoxorD (o : OLd) (s : State) : Out := amo .xor 8 o s
def execAmominW (o : OLd) (s : State) : Out := amo .min 4 o s
def execAmominD (o : OLd) (s : State) : Out := amo .min 8 o s
def execAmomaxW (o : OLd) (s : State) : Out := amo .max 4 o s
def execAmomaxD (o : OLd) (s : State) : Out := amo .max 8 o s
def execAmoswpW (o : OLd) (s : State) : Out := amo .swp 4 o s
def execAmoswpD (o : OLd) (s : State) : Out := amo .swp 8 o s
def execCasW (o : OLd) (s : State) : Out := cas 4 o s
def execCasD (o : OLd) (s : State) : Out := cas 8 o s

/-! Lines (R169, R170). -/

/-- PFD asks for a line to be brought nearer. It changes no architected state: no access, no counter, no trap. -/
def execPfd (o : OPfd) (s : State) : Out := guarded o.g id s

/-- CBO: alignment is never checked; a zero is a store of the line, and counts in st. -/
def execCbo (o : OCbo) (s : State) : Out :=
  guarded o.g (fun s =>
    let a := s.amAddr o.ix o.a o.b 1
    let line : W64 := a &&& ~~~63
    let (l, sc) := s.scope o.scope
    let zero := o.kind == .zero
    let cnt : Option Cnt := if zero then some .st else none
    if s.cntFull cnt || s.memHeld cST [(line.toNat, 64)] false then s.hold
    else if 2 ^ 57 ≤ a.toNat then s.trap 0x31
    else
      match s.look a.toNat 1 true none with
      | .ok tr =>
        let s := (s.touch a.toNat).addAcc
          { op := .cbo o.kind, write := true, level := l, scope := sc, acq := false, rel := false, cls := cST
            loc := false, flight := none
            pieces := onePiece line 64 { tr with pa := tr.pa / 64 * 64 } [] }
        if zero then s.count .st else s
      | why => s.stopAt (s.req a.toNat 1 sc true) why) s

end Sys2Proof.Machine
end

