-- ==== Sys2Proof/Machine/Csr.lean ====
section
/-! DEFINITION. The control registers by number: their reads, the traps of their writes, and their writes (R171); and
CSRR and CSRW. -/

namespace Sys2Proof.Machine

/-! Reads. -/

/-- The descriptor of R38. -/
def EState.code : EState → Nat
  | .filling => 1 | .ready => 2 | .draining => 3

def Entry.desc (e : Entry) : Nat :=
  e.state.code * 2 ^ 17 + (e.cols - 1) * 2 ^ 11 + (e.rows - 1) * 2 ^ 5 + e.fmt.code

/-- tsdesc (R42). -/
def Task.tsdesc (t : Task) : Nat :=
  match t.stk.map[t.stk.sel.toNat]? with
  | some id => (t.entry id).elim 0 Entry.desc
  | none => 0

/-- wcnt (R147). -/
def Counters.word (c : Counters) : Nat :=
  c.kc * 2 ^ 32 + c.tl * 2 ^ 24 + c.cp * 2 ^ 16 + c.st * 2 ^ 8 + c.ld

/-- wstat (R150). -/
def Watch.word (w : Watch) : Nat :=
  (if w.armed then 2 ^ 63 else 0) + (if w.fired then 2 ^ 62 else 0) + w.line.toNat * 64

/-- The facet bypass lane that trfsel names (R134). -/
def TrapRec.fsave (r : TrapRec) : FSave := r.fb.get (Fin.ofNat 32 (bits r.fsel.toNat 8 6 * 4 + bits r.fsel.toNat 5 4))

def TrapRec.lane (r : TrapRec) : Fin 16 := Fin.ofNat 16 (bits r.fsel.toNat 3 0)

/-- The die of the current task's core. -/
def State.die (s : State) : Fin 4 := Fin.ofNat 4 (s.t.id.core / 96)

def State.part (s : State) : Part := s.parts.get s.t.id.part

/-- devst (R388). -/
def DevRegs.devst (d : DevRegs) : Nat :=
  (if d.hostLost then 2 ^ 63 else 0) + (if d.cLost then 2 ^ 62 else 0) + (if d.lock then 2 ^ 61 else 0) +
    (if d.quiesce then 2 ^ 60 else 0) + d.devid.toNat

/-- CSRs that belong to the main context (R130). -/
def mainOnly (n : Nat) : Bool := (0xB0 ≤ n && n ≤ 0xBF) || (0x200 ≤ n && n ≤ 0x22F) || n == 0xF8

/-- The value of a control register. -/
def State.csrRead (s : State) (n : Nat) : W64 :=
  let t := s.t
  let nat (x : Nat) : W64 := BitVec.ofNat 64 x
  if t.id.helper && mainOnly n then 0
  else if 0xB8 ≤ n && n ≤ 0xBF then nat (t.stk.marks.get (Fin.ofNat 8 (n - 0xB8))).toNat
  else if 0xC6 ≤ n && n ≤ 0xC9 then t.trap.bs.get (Fin.ofNat 4 (n - 0xC6))
  else if 0xCC ≤ n && n ≤ 0xCE then t.trap.pt.get (Fin.ofNat 3 (n - 0xCC))
  else if 0x100 ≤ n && n ≤ 0x127 then t.stg.get (Fin.ofNat 40 (n - 0x100))
  else if 0x200 ≤ n && n ≤ 0x21F then
    nat ((t.facet (Fin.ofNat 8 ((n - 0x200) / 4))).ab.get (Fin.ofNat 4 ((n - 0x200) % 4))).toNat
  else if 0x220 ≤ n && n ≤ 0x227 then nat (t.facet (Fin.ofNat 8 (n - 0x220))).fsr.toNat
  else if 0x228 ≤ n && n ≤ 0x22F then (if (t.facet (Fin.ofNat 8 (n - 0x228))).fcr then 1 else 0)
  else if 0x850 ≤ n && n ≤ 0x85F then s.dev.pfbind.get (Fin.ofNat 16 (n - 0x850))
  else
    match n with
    | 0xB0 => nat t.stk.base.toNat
    | 0xB1 => nat t.stk.limit
    | 0xB2 => nat t.stk.res
    | 0xB3 => nat t.depth
    | 0xB4 => nat t.stk.sel.toNat
    | 0xB5 => nat t.tsdesc
    | 0xC0 => nat t.trap.cause.toNat
    | 0xC1 => nat t.trap.depth.toNat
    | 0xC2 => nat t.trap.addr.toNat
    | 0xC3 => nat t.trap.ret.toNat
    | 0xC4 => nat ((if t.trap.nest then 2 else 0) + (if t.trap.intrap then 1 else 0))
    | 0xC5 => nat t.trap.bl.toNat
    | 0xCA => nat t.trap.fsel.toNat
    | 0xCB =>
      let x := t.trap.fsave
      nat (x.delay.toNat * 2 ^ 34 + x.left.toNat * 2 ^ 32 + (x.val.get t.trap.lane).toNat)
    | 0xD0 => nat t.fp.fstat.toNat
    | 0xD1 => nat t.fp.fctl.toNat
    | 0xD2 => nat t.fp.fseed.toNat
    | 0xD3 => nat t.fp.fscsel.toNat
    | 0xD4 => nat t.fp.fufcnt.toNat
    | 0xE0 => nat t.cnt.word
    | 0xE1 => nat t.kstat.toNat
    | 0xE2 => nat t.watch.word
    | 0xF0 => nat Config.stepid
    | 0xF4 => nat (s.part.frame % 2 ^ 32 * 2 ^ 32 + (if s.part.stall then 2 ^ 16 else 0) + s.part.tick)
    | 0xF5 => nat t.id.coord.toNat
    | 0xF6 => nat t.id.nodeId.toNat
    | 0xF7 => s.part.mepoch
    | 0xF8 => t.finj
    | 0x800 => t.itroot
    | 0x801 => t.dtroot
    | 0x810 => s.dev.fqbase.get s.die
    | 0x812 => s.dev.fwdog
    | 0x820 => s.dev.pttbase
    | 0x821 => s.dev.pctl
    | 0x822 => s.dev.dbgctl
    | 0x824 => s.dev.kretry
    | 0x830 => s.dev.mcbase.get s.die
    | 0x831 => s.dev.mcwin
    | 0x832 => (s.core t.id.core).semap
    | 0x833 => s.dev.patcfg
    | 0x834 =>
      let x := s.dev.patcap.get (Fin.ofNat 48 (t.id.core / 8))
      nat (x.1.toNat * 2 ^ 32 + x.2.toNat)
    | 0x840 => nat s.dev.devst
    | 0x842 => s.dev.fwsel
    | 0x843 => nat ((s.dev.fwent.get (Fin.ofNat 128 (fldOf s.dev.fwsel 6 0))).toNat * 2 ^ 62)
    | _ => 0

/-! Traps of a write. -/

/-- Bits `hi` down to `lo`. -/
def bitMask (hi lo : Nat) : W64 := BitVec.ofNat 64 (2 ^ (hi + 1) - 2 ^ lo)

/-- The reserved bits whose writing takes trap 0x25; none where every write is ignored (R171). -/
def csrReserved (n : Nat) : Option W64 :=
  if 0xB8 ≤ n && n ≤ 0xBF then some (bitMask 63 13)
  else if 0xC6 ≤ n && n ≤ 0xC9 then some 0
  else if 0xCC ≤ n && n ≤ 0xCE then some (bitMask 62 62 ||| bitMask 59 57)
  else if 0x200 ≤ n && n ≤ 0x21F then some (bitMask 63 57)
  else if 0x220 ≤ n && n ≤ 0x227 then some (bitMask 63 7)
  else if 0x228 ≤ n && n ≤ 0x22F then some (bitMask 63 1)
  else if 0x850 ≤ n && n ≤ 0x85F then some (bitMask 62 6)
  else
    match n with
    | 0xB0 => some (bitMask 63 57)
    | 0xB1 => some (bitMask 63 13)
    | 0xB2 => some (bitMask 63 5)
    | 0xB4 => some 0
    | 0xC3 => some (bitMask 63 57)
    | 0xC5 => some (bitMask 63 24)
    | 0xCA => some (bitMask 63 9)
    | 0xCB => some (bitMask 63 38)
    | 0xD0 => some (bitMask 63 6)
    | 0xD1 => some (bitMask 63 3)
    | 0xD2 => some (bitMask 63 32)
    | 0xD3 => some (bitMask 63 8)
    | 0xD4 => some (bitMask 63 32)
    | 0xE1 => some (bitMask 63 16 ||| bitMask 7 5)
    | 0xF8 => some (bitMask 62 33 ||| bitMask 17 5)
    | 0x800 => some (bitMask 63 52 ||| bitMask 11 0)
    | 0x801 => some (bitMask 55 52 ||| bitMask 11 0)
    | 0x810 => some (bitMask 63 52 ||| bitMask 11 0)
    | 0x812 => some (bitMask 63 16)
    | 0x820 => some (bitMask 63 52 ||| bitMask 11 0)
    | 0x821 => some (bitMask 61 8)
    | 0x822 => some (bitMask 31 2)
    | 0x823 => some (bitMask 63 57 ||| bitMask 6 4)
    | 0x824 => some (bitMask 63 4)
    | 0x825 => some (bitMask 31 0)
    | 0x830 => some (bitMask 63 52 ||| bitMask 11 0)
    | 0x831 => some (bitMask 63 20)
    | 0x833 => some (bitMask 63 16)
    | 0x840 => some (bitMask 59 7)
    | 0x842 => some (bitMask 63 7)
    | 0x843 => some (bitMask 61 0)
    | _ => none

/-- The valid entries of trpt0 to trpt2 stand in ascending DUE order, no two alike, none 0 (R134). -/
def ptOk (l : List W64) : Bool :=
  let ds := (l.filter fun x => x.getLsbD 63).map fun x => fldOf x 61 60
  ds.all (fun d => d != 0) && (List.zip ds ds.tail).all fun p => p.1 < p.2

/-- Values that a register's map forbids beyond its reserved bits (R75, R134, R238, R265, R277, R374, R383, R385). -/
def State.csrBad (s : State) (n : Nat) (v : W64) : Bool :=
  if 0xCC ≤ n && n ≤ 0xCE then !ptOk (s.t.trap.pt.set (Fin.ofNat 3 (n - 0xCC)) v).toList
  else if 0x850 ≤ n && n ≤ 0x85F then
    v.getLsbD 63 && (List.finRange 16).any fun p =>
      p.val != n - 0x850 && (s.dev.pfbind.get p).getLsbD 63 && fldOf (s.dev.pfbind.get p) 5 0 == fldOf v 5 0
  else
    match n with
    | 0xC5 => (List.range 4).any fun i => 12 < fldOf v (6 * i + 5) (6 * i + 2)
    | 0xCB => 12 < fldOf v 37 34
    | 0xD1 => fldOf v 1 0 == 3
    | 0x812 => fldOf v 15 0 == 0
    | 0x821 => s.dev.pctl.getLsbD 63 || !(fldOf v 7 4 == 1 || fldOf v 7 4 == 2)
    | 0x823 => !(s.parts.get (Fin.ofNat 16 (fldOf v 3 0))).inUse
    | 0x831 => fldOf v 19 16 == 0 || fldOf v 15 0 == 0
    | 0x833 => fldOf v 15 8 == 0 || fldOf v 7 0 == 0
    | _ => false

/-- The stack configuration trap 0x23 (R44). -/
def State.csrStack (s : State) (n : Nat) (v : W64) : Bool :=
  (n == 0xB0 && s.t.depth != 0) ||
  (n == 0xB1 && (s.t.depth != 0 || 4096 < v.toNat)) ||
  (n == 0xB2 && (s.t.depth != 0 || 16 < v.toNat)) ||
  (0xB8 ≤ n && n ≤ 0xBF && 4096 < v.toNat)

/-- The trap of a CSRW, if any (R137, R171). -/
def State.csrTrap (s : State) (n : Nat) (v : W64) : Option Nat :=
  if 0x800 ≤ n && !s.t.id.system then some 0x14
  else if s.t.id.helper && mainOnly n then none
  else
    match csrReserved n with
    | none => none
    | some m => if v &&& m ≠ 0 || s.csrBad n v then some 0x25 else if s.csrStack n v then some 0x23 else none

/-! Writes with an effect of their own. -/

/-- fseed: all 256 generators are seeded (R74). -/
def FpRegs.reseed (f : FpRegs) (seed : W32) : FpRegs :=
  { f with fseed := seed, gens := vecOf fun g => seedGen seed g.val }

/-- A launch submitted to a partition (R265). It waits for LAUNCH_CHECK. -/
def State.submit (s : State) (addr : Nat) (p : Fin 16) : State :=
  { s with
    launches := s.launches ++ [{ key := s.nextKey, addr := addr, part := p, asid := (s.parts.get p).asid
                                 root := (s.parts.get p).dtroot, system := false, checked := false, status := 0, count := 0, ended := 0 }]
    nextKey := s.nextKey + 1 }

/-- nkill: a node that is FIRED, RUNNING or PARKED is killed with REASON 3 (R370). -/
def State.nkill (s : State) (id : W32) : State :=
  let hit := s.nodes.filter fun n =>
    n.id == id && (match n.state with | .fired | .running | .parked => true | _ => false)
  hit.foldl (fun s n => s.kill n.key .nkill) s

/-- dbgctl OP 1: the task of a debug node halts before its next bundle (R294, R295). -/
def State.dbgHalt (s : State) (id : W32) : State :=
  let hit := s.nodes.filter fun n =>
    n.id == id && n.dbg && (match n.state with | .running | .parked => true | _ => false)
  s.mapTasks fun x =>
    if hit.any fun n => n.key == x.id.node then { x with id := { x.id with haltReq := true } } else x

/-- dbgctl OP 2: a halted task goes on at the bundle where it halted, and finds what has landed meanwhile (R295). -/
def State.dbgResume (s : State) (id : W32) : State :=
  let hit := s.nodes.filter fun n =>
    n.id == id && n.dbg && (match n.state with | .running | .parked => true | _ => false)
  s.mapTasks fun x =>
    if hit.any fun n => n.key == x.id.node then
      let x := { x with id := { x.id with haltReq := false } }
      if x.run = .halted then { x.landAll with run := .running } else x
    else x

/-- pctl: an operation on a partition begins (R277). -/
def State.pctlBegin (s : State) (v : W64) : State :=
  let p : Fin 16 := Fin.ofNat 16 (fldOf v 3 0)
  let s := { s with dev := { s.dev with pctl := BitVec.ofNat 64 (2 ^ 63 + fldOf v 7 0) } }
  s.updPart p fun x => { x with op := if fldOf v 7 4 = 1 then .apply else .release }

/-- The hash that is measured at LOCK (R393). -/
def State.tableHash (s : State) : Nat := Config.tableHash s.dev.fwent.toList s.dev.devid

/-- devst.LOCK is set (R391). As it rises, measurement 4 is extended with the fabric window table and DEVID (R393). -/
def State.lockSet (s : State) : State :=
  if s.dev.lock then s
  else { s with dev := { s.dev with lock := true }
                ros := { s.ros with meas := s.ros.meas.set 3 (Config.extendMeasure (s.ros.meas.get 3) s.tableHash) } }

def State.updTrap (s : State) (f : TrapRec → TrapRec) : State := s.withT fun t => { t with trap := f t.trap }

def State.updFp (s : State) (f : FpRegs → FpRegs) : State := s.withT fun t => { t with fp := f t.fp }

def State.updStk (s : State) (f : Stack → Stack) : State := s.withT fun t => { t with stk := f t.stk }

def State.updDev (s : State) (f : DevRegs → DevRegs) : State := { s with dev := f s.dev }

/-- A write that takes no trap. Where flags land in an fsr, or an underflow count in fufcnt, in the bundle of the CSRW, they
join the written value (R202; DEDUCED for fufcnt, log entry 76). -/
def State.csrWrite (s : State) (n : Nat) (v : W64) : State :=
  if s.t.id.helper && mainOnly n then s
  else if 0xB8 ≤ n && n ≤ 0xBF then
    s.updStk fun k => { k with marks := k.marks.set (Fin.ofNat 8 (n - 0xB8)) (v.setWidth 13) }
  else if 0xC6 ≤ n && n ≤ 0xC9 then s.updTrap fun r => { r with bs := r.bs.set (Fin.ofNat 4 (n - 0xC6)) v }
  else if 0xCC ≤ n && n ≤ 0xCE then s.updTrap fun r => { r with pt := r.pt.set (Fin.ofNat 3 (n - 0xCC)) v }
  else if 0x200 ≤ n && n ≤ 0x21F then
    s.withT fun t => t.updFacet (Fin.ofNat 8 ((n - 0x200) / 4)) fun c =>
      { c with ab := c.ab.set (Fin.ofNat 4 ((n - 0x200) % 4)) (v.setWidth 57) }
  else if 0x220 ≤ n && n ≤ 0x227 then
    s.withT fun t => t.updFacet (Fin.ofNat 8 (n - 0x220)) fun c => { c with fsr := v.setWidth 7 ||| c.fresh }
  else if 0x228 ≤ n && n ≤ 0x22F then
    s.withT fun t => t.updFacet (Fin.ofNat 8 (n - 0x228)) fun c => { c with fcr := v.getLsbD 0 }
  else if 0x850 ≤ n && n ≤ 0x85F then s.updDev fun d => { d with pfbind := d.pfbind.set (Fin.ofNat 16 (n - 0x850)) v }
  else
    match n with
    | 0xB0 => s.updStk fun k => { k with base := v.setWidth 57 &&& ~~~0xFFFF }
    | 0xB1 => s.updStk fun k => { k with limit := v.toNat }
    | 0xB2 => s.updStk fun k => { k with res := v.toNat }
    | 0xB4 => s.updStk fun k => { k with sel := v.setWidth 12 }
    | 0xC3 => s.updTrap fun r => { r with ret := v.setWidth 57 }
    | 0xC5 => s.updTrap fun r => { r with bl := v.setWidth 24 }
    | 0xCA => s.updTrap fun r => { r with fsel := v.setWidth 9 }
    | 0xCB =>
      s.updTrap fun r =>
        let i : Fin 32 := Fin.ofNat 32 (bits r.fsel.toNat 8 6 * 4 + bits r.fsel.toNat 5 4)
        { r with fb := r.fb.set i { delay := BitVec.ofNat 4 (fldOf v 37 34), left := BitVec.ofNat 2 (fldOf v 33 32)
                                    val := (r.fb.get i).val.set r.lane (v.setWidth 32) } }
    | 0xD0 => s.updFp fun f => { f with fstat := v.setWidth 6 }
    | 0xD1 => s.updFp fun f => { f with fctl := v.setWidth 3 }
    | 0xD2 => s.updFp fun f => f.reseed (v.setWidth 32)
    | 0xD3 => s.updFp fun f => { f with fscsel := v.setWidth 8 }
    | 0xD4 => s.updFp fun f => { f with fufcnt := satCount (v.setWidth 32) f.fresh }
    | 0xE1 => s.withT fun t => { t with kstat := v.setWidth 16 }
    | 0xF8 => s.withT fun t => { t with finj := v }
    | 0x800 => s.withT fun t => { t with itroot := v }
    | 0x801 => s.withT fun t => { t with dtroot := v }
    | 0x810 => s.updDev fun d => { d with fqbase := d.fqbase.set s.die v }
    | 0x812 => s.updDev fun d => { d with fwdog := v }
    | 0x820 => s.updDev fun d => { d with pttbase := v }
    | 0x821 => s.pctlBegin v
    | 0x822 =>
      let s := s.updDev fun d => { d with dbgctl := v }
      if fldOf v 1 0 = 1 then s.dbgHalt (BitVec.ofNat 32 (fldOf v 63 32))
      else if fldOf v 1 0 = 2 then s.dbgResume (BitVec.ofNat 32 (fldOf v 63 32))
      else s
    | 0x823 => s.submit (fldOf v 56 7 * 128) (Fin.ofNat 16 (fldOf v 3 0))
    | 0x824 => s.updDev fun d => { d with kretry := v }
    | 0x825 => s.nkill (BitVec.ofNat 32 (fldOf v 63 32))
    | 0x830 => s.updDev fun d => { d with mcbase := d.mcbase.set s.die v }
    | 0x831 => s.updDev fun d => { d with mcwin := v }
    | 0x833 => s.updDev fun d => { d with patcfg := v }
    | 0x840 =>
      let s := s.updDev fun d =>
        { d with quiesce := v.getLsbD 60, devid := if d.lock then d.devid else v.setWidth 7 }
      if v.getLsbD 61 then s.lockSet else s
    | 0x842 => s.updDev fun d => if d.lock then d else { d with fwsel := v }
    | 0x843 => s.updDev fun d =>
        if d.lock then d
        else { d with fwent := d.fwent.set (Fin.ofNat 128 (fldOf d.fwsel 6 0)) (BitVec.ofNat 2 (fldOf v 63 62)) }
    | _ => s

/-! CSRR and CSRW (R171). -/

/-- CSRR: latency 3; a system CSR at task privilege takes trap 0x14 (R137). -/
def execCsrr (o : OCsrr) (s : State) : Out :=
  guarded o.g (fun s =>
    if 0x800 ≤ o.csr.toNat && !s.t.id.system then s.trap 0x14
    else s.wr o.g o.d 3 (s.csrRead o.csr.toNat) Origin.dat) s

/-- CSRW: the write takes effect for every later bundle, so it stands in flight until its own bundle ends. -/
def execCsrw (o : OCsrw) (s : State) : Out :=
  guarded o.g (fun s =>
    match s.csrTrap o.csr.toNat (s.src o.ix o.a) with
    | some c => s.trap c
    | none => s.fly (.csr o.csr) 1 (.w (s.src o.ix o.a)) Origin.none) s

/-- The CSR writes of the bundle that ends take effect, and its new watch. -/
def State.applyCsr (s : State) : State :=
  let isCsr (fl : Flight) : Bool := match fl.dst with | .csr _ => true | _ => false
  let ws := s.t.flights.filter isCsr
  let s := s.withT fun t => { t with flights := t.flights.filter fun fl => !isCsr fl }
  ws.foldl (fun s fl =>
    match fl.dst, fl.val with
    | .csr n, .w v => s.csrWrite n.toNat v
    | .csr _, .watch w => s.withT fun t => { t with watch := w }
    | _, _ => s) s

end Sys2Proof.Machine
end

