-- ==== Sys2Proof/Machine/Fetch.lean ====
section
/-! DEFINITION. The instruction side: the instruction address space (R131), the instruction cache and prefetches
(R114, R115, R132). -/

namespace Sys2Proof.Machine

/-! Translation (R131, R219). -/

/-- What an instruction address meets. -/
inductive ILook where
  | ok (pa : Nat) (key : Option Byte)
  | miss
  | system
  deriving DecidableEq, Repr

/-- The translation that an instruction TLB entry gives. -/
def State.iEntry (s : State) (e : TlbEnt) (va : Nat) : ILook :=
  if fldOf e.leaf 3 3 = 1 && !s.t.id.system then .system
  else
    let tr := e.tr va
    .ok tr.pa tr.key

/-- A look-up in the instruction TLB of the current task's core. -/
def State.ilook (s : State) (va : Nat) : ILook :=
  match tlbFind (s.core s.t.id.core).itlb (asidOf s.t.dtroot) va with
  | some e => s.iEntry e va
  | none => .miss

/-- A walk of the instruction tables of a context. -/
def State.iwalk (s : State) (va : Nat) : Walk :=
  s.walk true (rootOf s.t.itroot) (asidOf s.t.dtroot) va

/-- A walk's entry takes its place in the instruction TLB of the current task's core (32 entries). -/
def State.itlbFill (s : State) (e : TlbEnt) : State :=
  let c := s.core s.t.id.core
  s.setCore { c with itlb := tlbAdd 32 e c.itlb }

/-- An entry that translated becomes the most recently used. -/
def State.itlbUse (s : State) (va : Nat) : State :=
  let c := s.core s.t.id.core
  match tlbFind c.itlb (asidOf s.t.dtroot) va with
  | some e => s.setCore { c with itlb := tlbAdd 32 e c.itlb }
  | none => s

/-! The instruction cache: 128 sets of 4 ways of 128-byte lines (R114, R132). -/

def ILine.set (l : ILine) : Nat := l.line % 128

/-- A line made the most recently used of its set; the set keeps four. A line stands in the cache under one ASID at most
(R223). -/
def icacheAdd (x : ILine) (l : List ILine) : List ILine :=
  let rest := l.filter fun y => y.line != x.line
  let keep := (rest.filter fun y => y.set == x.set).take 3
  x :: rest.filter fun y => y.set != x.set || keep.contains y

def icacheFind (l : List ILine) (asid : Byte) (line : Nat) : Option ILine :=
  l.find? fun x => x.asid == asid && x.line == line

/-- A parcel as memory holds it for the task that fetches: its own stores, and those of every instance around it, are
seen (R132). -/
def State.readParcel (s : State) (key : Option Byte) (pa : Nat) : W64 :=
  BitVec.ofNat 64 (leNat (s.mem.readBytes 0 s.t.id.uid s.t.id.core key (s.phys pa) 8).1)

/-- A line as memory holds it. The poison of a 64-byte half comes with it (R378). -/
def State.readLine (s : State) (key : Option Byte) (asid : Byte) (line : Nat) : ILine :=
  let half (h : Nat) : Nat := s.phys (128 * line) / 64 + h
  { asid := asid, line := line, parcels := (List.range 16).map fun k => s.readParcel key (128 * line + 8 * k)
    bad := (List.range 2).filter fun h => s.badLine 0 s.t.id.uid s.t.id.core (half h) }

/-- A line enters the instruction cache of the current task's core, once the containment structures have been looked up for it
(R379). -/
def State.icacheFillLine (s : State) (key : Option Byte) (line : Nat) : State :=
  let s := s.lookupCopies [(s.phys (128 * line), 128)]
  let c := s.core s.t.id.core
  s.setCore { c with icache := icacheAdd (s.readLine key (asidOf s.t.dtroot) line) c.icache }

/-- The line of an instruction address stands in the range of the lost host (R235, R388). -/
def State.fetchGone (s : State) (va : VAddr) : Bool :=
  match s.ilook va.toNat with
  | .ok pa _ => s.hostGone (Tr.physical pa)
  | _ => false

/-- What a fetch of one parcel gives. -/
inductive Parcel where
  | ok (p : W64)
  | stop (f : Freeze)
  | trap (code : Nat)
  deriving DecidableEq, Repr

/-- One parcel of a demand fetch. A cached parcel that memory no longer holds yields its old or its new value, as a
free choice (R132). An address that is no multiple of 8 names the parcel that holds it (DESIGN CHOICE, log entry 101). -/
def State.parcel (s : State) (va : Nat) : Parcel :=
  match s.ilook va with
  | .system => .trap 0x09
  | .miss => .stop (.iwalk va)
  | .ok pa key =>
    match icacheFind (s.core s.t.id.core).icache (asidOf s.t.dtroot) (pa / 128) with
    | none => .stop (.fetch va)
    | some l =>
      let old := l.parcels.getD (pa % 128 / 8) 0
      let new := s.readParcel key (pa / 8 * 8)
      .ok (if old = new then old else if Config.freePick s.fv (pa / 8) then new else old)

/-- The parcels of a range in ascending order, or the first that stops. -/
def State.parcels (s : State) (va : Nat) : Nat → List W64 × Option Parcel
  | 0 => ([], none)
  | n + 1 =>
    match s.parcel (va % 2 ^ 57) with
    | .ok p =>
      let (l, e) := s.parcels (va + 8) n
      (p :: l, e)
    | x => ([], some x)

/-- A whole bundle: its header and its slot parcels; or the freeze or the trap of its demand fetch (R36, R115). A header
that fails one of the first two tests of R36 ends the fetch. -/
inductive Fetched where
  | ok (hp : W64) (slots : List W64)
  | stop (f : Freeze)
  | trap (code : Nat)
  deriving DecidableEq, Repr

/-- DESIGN CHOICE, log entry 77: parcels past the last instruction address are those from address 0. A header that a CALL
has already taken a length from is not read again (R123). -/
def State.fetchBundle (s : State) (va : Nat) : Fetched :=
  match s.parcel (va % 2 ^ 57) with
  | .stop f => .stop f
  | .trap c => .trap c
  | .ok p =>
    let hp := (s.t.hdrs.lookup (va % 2 ^ 57)).getD p
    if headerStarts hp.toNat then
      match s.parcels (va + 8) (headerSlots hp.toNat) with
      | (l, none) => .ok hp l
      | (_, some (.stop f)) => .stop f
      | (_, some (.trap c)) => .trap c
      | (l, some (.ok _)) => .ok hp l
    else .trap 0x10

/-- The range and the line of an address become the most recently used in TLB and cache, as the bundle that takes its parcels from
them issues (DESIGN CHOICE, log entry 117). -/
def State.useLine (s : State) (va : Nat) : State :=
  let s := s.itlbUse va
  match s.ilook va with
  | .ok pa _ =>
    let c := s.core s.t.id.core
    match icacheFind c.icache (asidOf s.t.dtroot) (pa / 128) with
    | some l => s.setCore { c with icache := icacheAdd l c.icache }
    | none => s
  | _ => s

/-! The bundle that issues next. -/

/-- The bundle at the pc, or what its fetch and its decoding meet (R36, R115). -/
inductive Front where
  | ok (b : Bundle)
  | stop (f : Freeze)
  | trap (code : Nat)
  deriving DecidableEq, Repr

def State.front (s : State) : Front :=
  match s.fetchBundle s.t.pc.toNat with
  | .stop f => .stop f
  | .trap c => .trap c
  | .ok hp slots =>
    match decodeBundle s.t.id.helper hp.toNat (slots.map (·.toNat)) with
    | some b => .ok b
    | none => .trap 0x10

/-- The poisoned line that a cached parcel came from. -/
def State.badParcel (s : State) (va : Nat) : Option Nat :=
  match s.ilook va with
  | .ok pa _ =>
    (icacheFind (s.core s.t.id.core).icache (asidOf s.t.dtroot) (pa / 128)).bind fun l =>
      if l.bad.contains (pa % 128 / 64) then some (s.phys (pa / 64 * 64) / 64) else none
  | _ => none

/-- The first poisoned line that the fetched parcels of the bundle at the pc come from (R378). -/
def State.badFetch (s : State) : Option Nat :=
  match s.parcel s.t.pc.toNat with
  | .ok p =>
    let hp := ((s.t.hdrs.lookup s.t.pc.toNat).getD p).toNat
    let n := if headerStarts hp then headerSlots hp else 0
    (List.range (1 + n)).findSome? fun k => s.badParcel ((s.t.pc.toNat + 8 * k) % 2 ^ 57)
  | _ => none

/-- The access whose reply is late at the bundle to issue next (R119). -/
def State.lateReply (s : State) : Option Nat :=
  (s.t.acc.find? fun a => s.t.flights.any fun fl => fl.waits && fl.land ≤ s.t.bidx && a.flight == some fl.id).map (·.id)

/-- The state in which the bundle at the pc issues: what lands at it has landed, and fences that are done are gone. -/
def State.landed (s : State) : State := (s.withT fun t => t.landTo t.bidx).dropFences

/-- Whether an ICINV still holds the bundle after an IFENCE (R146). -/
def Task.ifenced (t : Task) : Bool := t.ifence.any fun k => t.eks.any fun e => e.id == k

/-! Prefetches (R115, R132, R146). -/

/-- The walk of a prefetch. One that reads a poisoned line of a table finds no translation, and no context consumes the line (R378;
DESIGN CHOICE, log entry 113). -/
def State.prefetchWalk (s : State) (va : Nat) : State :=
  let lines := walkLines s.mem s.dev.devid true va 5 0 (rootOf s.t.itroot)
  let s := s.lookupCopies (lines.map fun l => (l * 64, 64))
  if lines.any (s.badLine 4 s.t.id.uid s.t.id.core) then s
  else match s.iwalk va with
    | .leaf e => s.itlbFill e
    | .bad .. => s

/-- A prefetch of the line that holds an address: it walks on a miss, and is dropped without a translation. A page
that a demand fetch could not use is not fetched. A line that is present already keeps its place in the order of use (DESIGN CHOICE,
log entry 117). -/
def State.prefetch (s : State) (va : Nat) : State :=
  let s : State := match s.ilook va with
    | .miss => s.prefetchWalk va
    | _ => s
  match s.ilook va with
  | .ok pa key =>
    match icacheFind (s.core s.t.id.core).icache (asidOf s.t.dtroot) (pa / 128) with
    | some _ => s
    | none => if s.hostGone (Tr.physical pa) then s else s.icacheFillLine key (pa / 128)
  | _ => s

/-- A header as the core fetches it ahead, by a prefetch along the sequential path (R123, R132); it is kept for the bundle
that it heads. Where it has no translation or cannot be fetched, the core has fetched no length, and the one it takes is a free word,
also for a bundle that becomes fetchable before it issues (DESIGN CHOICE, log entry 122). -/
def State.header (s : State) (va : Nat) : State × W64 :=
  match s.t.hdrs.lookup va with
  | some h => (s, h)
  | none =>
    let s := s.prefetch va
    match s.parcel va with
    | .ok p => (s.withT fun t => { t with hdrs := (va, p) :: t.hdrs }, p)
    | _ => (s, Config.freeWord s.fv va)

/-- The address after the bundle at `va`. -/
def State.after (s : State) (va : Nat) : State × Nat :=
  let (s, hp) := s.header va
  (s, (va + 8 * (1 + headerSlots hp.toNat)) % 2 ^ 57)

/-- The bundle that issues `k` bundles after the one to issue next, `next` following in sequence (R122). -/
def Task.pathAt (t : Task) (k next : Nat) : Nat := ((t.pend.find? fun p => p.due == t.bidx + k).map fun p => p.target.toNat).getD next

/-- The return address of a CALL: that of the bundle which follows the third delay bundle in sequence. The delay bundles stand on the
path that the transfers already pending give (R122, R123). -/
def State.returnAddr (s : State) (next : Nat) : State × Nat :=
  let (s, a) := s.after (s.t.pathAt 0 next)
  let (s, b) := s.after (s.t.pathAt 1 a)
  s.after (s.t.pathAt 2 b)

end Sys2Proof.Machine
end

