-- ==== Sys2Proof/Machine/Branch.lean ====
section
/-! DEFINITION. The BR slot: transfers of control, TRAP, BRK and ERET, WAIT, fences, and the watch (R140 to R151). -/

namespace Sys2Proof.Machine

/-! Transfers (R141 to R144). -/

/-- The target that an offset in parcels gives, from the address of the bundle (R140). -/
def State.ofsTarget (s : State) {n : Nat} (ix : Option W32) (ofs : BitVec n) : W64 :=
  s.t.latch.addr.setWidth 64 + (match ix with
    | some x => x.signExtend 64
    | none => ofs.signExtend 64) * 8

/-- BR: two delay bundles. -/
def execBr (o : OBr) (s : State) : Out := guarded o.g (fun s => s.transfer (s.ofsTarget o.ix o.ofs) 2 id) s

/-- BRC: taken when the register is zero (.z) or not zero (.nz). -/
def execBrc (o : OBrc) (s : State) : Out :=
  guarded o.g (fun s =>
    if (s.src o.ix o.a != 0) == o.nz then s.transfer (s.ofsTarget o.ix o.ofs) 2 id else s) s

/-- BRQ (R124). A lane of the enabling mask that is not set in the condition mask, beside one that is, traps. -/
def execBrq (o : OBrq) (s : State) : Out :=
  guarded o.g (fun s =>
    let c := s.qreg o.f o.qc 0
    let e := s.qreg o.f o.qe 1
    if e &&& ~~~c = 0 then s.transfer (s.ofsTarget o.ix o.ofs) 2 id
    else if e &&& c = 0 then s
    else s.trap 0x12) s

def execJmpi (o : OBrA) (s : State) : Out := guarded o.g (fun s => s.transfer (s.src none o.a) 2 id) s

/-- The write of the link register (R123, R143). -/
def State.link (g : Fin 16) (s : State) : State := s.wr g (.s 54) 1 (s.t.latch.ret.setWidth 64) Origin.none

def execCall (o : OBr) (s : State) : Out :=
  guarded o.g (fun s => s.transfer (s.ofsTarget o.ix o.ofs) 3 (State.link o.g)) s

def execCalli (o : OBrA) (s : State) : Out :=
  guarded o.g (fun s => s.transfer (s.src none o.a) 3 (State.link o.g)) s

def execRet (o : OBrA) (s : State) : Out := guarded o.g (fun s => s.transfer (s.src none o.a) 3 id) s

/-- LOOP (R144): the counter falls by one, and the transfer is taken unless it reaches zero. -/
def execLoop (o : OLoop) (s : State) : Out :=
  guarded o.g (fun s =>
    let n := s.entryVal o.c.val - 1
    let count (s : State) : State := s.wr o.g (.s (Fin.ofNat 56 o.c.val)) 1 n (s.entryOrg o.c.val)
    if n = 0 then count s else s.transfer (s.ofsTarget o.ix o.ofs) 2 count) s

/-! Traps (R136, R145). -/

def execTrap (o : OG) (s : State) : Out := guarded o.g (fun s => s.trapAfter 0x18) s

/-- A halt of the task, noted in its node (R282, R295). What is in flight lands when its bundle has issued. -/
def State.halt (s : State) : State :=
  let stopped : Bool := match s.node s.t.id.node with
    | some n => s.part.stall && s.part.stoppedBy n
    | none => false
  (s.updNode s.t.id.node fun n => { n with halted := n.halted || stopped }).setRun .halted

/-- A halt before the next bundle: what is in flight lands. -/
def State.haltNow (s : State) : State := (s.withT Task.landAll).halt

/-- BRK: breakpoint 0x19, or a halt under debug control (R145, R295). -/
def execBrk (o : OG) (s : State) : Out := guarded o.g (fun s => if s.t.id.debug then s.halt else s.trapAfter 0x19) s

/-- ERET (R136). -/
def execEret (o : OG) (s : State) : Out :=
  guarded o.g (fun s =>
    if !s.t.trap.intrap then s.trap 0x13
    else if s.t.pend.isEmpty then s.setRun .eretDrain
    else s.trap 0x11) s

/-! Fetch (R146). -/

/-- IPF: the line of the target and the next line are prefetched. -/
def execIpf (o : OBr) (s : State) : Out :=
  guarded o.g (fun s =>
    let a := (s.ofsTarget o.ix o.ofs).toNat
    if 2 ^ 57 ≤ a then s else (s.prefetch a).prefetch ((a + 128) % 2 ^ 57)) s

/-- IFENCE: the next bundle is held until every ICINV that the context has issued has completed, and what was fetched ahead
is discarded. No other parcel is kept between bundles but in the instruction cache. -/
def execIfence (o : OG) (s : State) : Out :=
  guarded o.g (fun s =>
    s.withT fun t =>
      { t with
        hdrs := []
        ifence := (t.eks.filter fun e => match e.op with | .icinv _ => true | _ => false).map (·.id) }) s

/-! WAIT (R147, R317). -/

/-- The counters that a WAIT names. -/
def waitCnts (cls : BitVec 5) : List Cnt :=
  [(0, Cnt.ld), (1, Cnt.st), (2, Cnt.cp), (3, Cnt.tl), (4, Cnt.kc)].filterMap fun x =>
    if cls.getLsbD x.1 then some x.2 else none

/-- pts takes over the t of the completed commands of the named classes (R251). -/
def Task.waited (t : Task) (cls : BitVec 5) : Task :=
  { t with
    pts := max (max t.pts (if cls.getLsbD 2 then t.tcp else 0)) (if cls.getLsbD 4 then t.tkc else 0) }

/-- Whether an EK command waits on another party, so that a WAIT on kc parks the task (R289). -/
def State.ekParks (s : State) (e : Ek) : Bool :=
  match e.op with
  | .gbar | .qtake .. => e.waiting
  | .krecv .. => (match s.node s.t.id.node with | some n => n.mbox.isEmpty | none => false)
  | _ => false

/-- A WAIT parks as WPARK does: a pending transfer collides with it (R151, R264). -/
def State.parkHere (s : State) (why : Park) : State :=
  if s.t.pend.isEmpty then s.setRun (.parked why true) else s.trap 0x11

def execWait (o : OWait) (s : State) : Out :=
  guarded o.g (fun s =>
    let n := o.n.toNat
    let kc := o.cls.getLsbD 4
    if kc && n < (s.t.eks.filter fun e => e.deferred).length then s.trap 0x16
    else if (waitCnts o.cls).all fun c => s.t.cnt.get c ≤ n then s.withT fun t => t.waited o.cls
    else if kc && s.t.eks.any fun e => s.ekParks e then s.parkHere (.kc n)
    else s.hold) s

/-! Fences (R148, R149). -/

def State.putFence (s : State) (pred succ : BitVec 6) (r : Option (Nat × Nat)) (sc : Scope) : State :=
  let (l, _) := s.scope sc
  s.withT fun t => { t with fences := t.fences ++ [s.mkFence pred succ r l] }

def execFence (o : OFence) (s : State) : Out := guarded o.g (fun s => s.putFence o.pred o.succ none o.scope) s

/-- FENCER: the byte range, cut at 2^57. An empty one orders nothing. -/
def execFencer (o : OFencer) (s : State) : Out :=
  guarded o.g (fun s =>
    let a := (s.src none o.a).toNat
    let n := min (s.src none o.b).toNat (2 ^ 57 - a)
    if n = 0 then s else s.putFence o.pred o.succ (some (a, n)) o.scope) s

/-! The watch (R150, R151). -/

/-- A new watch, readable in wstat from the next bundle (R9). -/
def State.aim (s : State) (w : Watch) : State := s.fly (.csr 0xE2) 1 (.watch w) Origin.none

/-- LWATCH: the address is translated at issue, as a load's is. -/
def execLwatch (o : OLwatch) (s : State) : Out :=
  guarded o.g (fun s =>
    let a := (s.amAddr o.ix o.a o.b 1).toNat
    if 2 ^ 57 ≤ a then s.trap 0x31
    else
      let (l, sc) := s.scope o.scope
      match s.look a 1 false none with
      | .ok tr =>
        let pa := s.phys tr.pa
        (s.touch a).aim { armed := true, fired := false, line := BitVec.ofNat 51 (a / 64), pline := pa / 64, level := levelAt pa l }
      | why => s.stopAt (s.req a 3 sc false) why) s

/-- WPARK. -/
def execWpark (o : OG) (s : State) : Out :=
  guarded o.g (fun s =>
    if !s.t.pend.isEmpty then s.trap 0x11
    else
      let s := s.endStaging
      if !s.t.watch.armed then s
      else if s.t.watch.fired then s.aim { s.t.watch with armed := false, fired := false }
      else s.setRun (.parked .watch true)) s

end Sys2Proof.Machine
end

