-- ==== Sys2Proof/Machine/Stack.lean ====
section
/-! DEFINITION. The tile stack at issue: stack faults, holds, renaming, and the issue of engine commands (R40, R41, R50
to R56, R86, R87). -/

namespace Sys2Proof.Machine

/-! Stack faults (R53). -/

/-- The depth limit; the helper context acts as though it were 0 (R311). -/
def Task.limitNow (t : Task) : Nat := if t.id.helper then 0 else t.stk.limit

/-- The stack fault of one syllable at depth count `n`: code and NEED. `reach` says that it names a depth, or a mark,
beyond the depth count. -/
def stackFault (limit n pops pushes : Nat) (reach : Bool) : Option (Nat × Nat) :=
  if reach then some (0x24, 0)
  else if n < pops then some (0x21, pops)
  else if limit < n - pops + pushes then some (0x22, pushes)
  else none

/-- The stack effect of an instruction at depth count `n`: pops, pushes, and whether its reach fails (R53, R94 to R111,
R215, R312). -/
def stackUse (t : Task) (n : Nat) : Instr → Nat × Nat × Bool
  | .tpick o => (0, 1, n ≤ o.d.toNat)
  | .trot o => (0, 0, n ≤ o.d.toNat)
  | .tdrop o => (o.d.toNat + 1, 0, false)
  | .tunwind o => let m := (t.stk.marks.get o.k).toNat; (n - m, 0, n < m)
  | .tld _ | .tzero _ | .tfill _ | .tfromv _ | .cpget _ => (0, 1, false)
  | .tst _ | .ttov _ | .cpput _ => (1, 0, false)
  | .tgth _ | .tshape _ | .trcp _ | .trmax _ | .trsum _ | .tcsum _ | .tscl _ | .tbc _ | .tcvt _ | .ttrn _ =>
    (1, 1, false)
  | .tjoin _ | .texp2 _ | .mma _ | .mmag _ | .mscl _ | .tadd _ | .tsub _ | .tmul _ | .tmaxe _ | .tmine _ => (2, 1, false)
  | .mmac _ | .tfma _ => (3, 1, false)
  | .mmack _ => (3, 2, false)
  | _ => (0, 0, false)

/-! Entries. -/

/-- The entry at a depth. -/
def Task.atDepth (t : Task) (d : Nat) : Option Entry := (t.stk.map[d]?).bind t.entry

/-- Bench latches in use on the current task's core: those of every entry on the bench, a suspended task's included
(R45, R50, R61). -/
def State.benchUsed (s : State) : Nat :=
  s.tasks.foldl (fun n x =>
    if x.id.core = s.t.id.core && !x.id.helper then n + (x.stk.entries.filter fun e => e.level == 0).length else n) 0

/-- R55, conditions 1 and 2. An entry that the bundle itself pushed holds nothing. -/
def State.entryHeld (s : State) (e : Entry) : Bool :=
  (e.state == .filling && e.iss != s.t.bidx) || e.level != 0

/-- A reader of an entry issues (R53, R54). -/
def Entry.readBy (e : Entry) : Entry :=
  { e with readers := e.readers + 1, state := if e.state = .ready then .draining else e.state }

/-- A reader has latched an entry (R54). None where the entry is empty now. -/
def Entry.latchedBy (e : Entry) : Option Entry :=
  let r := e.readers - 1
  if e.state = .draining && r = 0 then
    (if e.mapped then some { e with readers := 0, state := .ready } else none)
  else some { e with readers := r }

/-- An entry leaves the depth map (R54). None where it is empty now. -/
def Entry.unmapped (e : Entry) : Option Entry :=
  if e.state = .ready then none else some { e with mapped := false }

/-- The pushing command writes its last element (R54). -/
def Entry.filled (e : Entry) (data : List (List Byte)) : Option Entry :=
  if e.readers ≠ 0 then some { e with data := data, state := .draining }
  else if e.mapped then some { e with data := data, state := .ready }
  else none

/-- One entry changed, or gone. -/
def Stack.alter (k : Stack) (id : Nat) (f : Entry → Option Entry) : Stack :=
  { k with entries := k.entries.filterMap fun e => if e.id = id then f e else some e }

/-- The top `n` entries leave the depth map. -/
def Stack.popN (k : Stack) (n : Nat) : Stack :=
  let k' := (k.map.take n).foldl (fun (k : Stack) id => k.alter id Entry.unmapped) k
  { k' with map := k.map.drop n }

/-- The descriptor of a pushed entry (R38). -/
structure Desc where
  fmt : Fmt
  rows : Nat
  cols : Nat
  deriving DecidableEq, Repr

/-- A new entry, filling, at depth 0. -/
def Stack.push (k : Stack) (d : Desc) (cmd iss : Nat) (bundle : VAddr) : Stack :=
  { k with
    map := k.nextId :: k.map
    entries := k.entries ++
      [{ id := k.nextId, fmt := d.fmt, rows := d.rows, cols := d.cols, state := .filling, readers := 0, mapped := true
         level := 0, slot := 0, cmd := cmd, iss := iss, bundle := bundle, data := [], void := false, bad := none }]
    nextId := k.nextId + 1 }

/-- The entry at depth `d` moves to depth 0 (R94). -/
def rotate {α : Type} (l : List α) (d : Nat) : List α :=
  match l[d]? with
  | some x => x :: (l.take d ++ l.drop (d + 1))
  | none => l

/-! The engines' queues (R87). -/

/-- The slot of a command's engine (R86). -/
def CmdOp.engine : CmdOp → Kind
  | .mma .. | .mmag .. | .mscl .. => .em
  | .bin .. | .fma .. | .texp2 .. | .trcp .. | .red .. | .tscl .. | .tbc .. | .tcvt .. | .ttrn .. => .ev
  | .cpget .. | .cpput .. | .cpmc .. | .ldblk .. | .cpsort .. | .cpfill .. => .ec
  | _ => .et

/-- An accepted command that its engine has not started: it has not latched the entries it reads. One that reads none starts
as it issues. -/
def Cmd.unstarted (c : Cmd) : Bool := !c.latched && !c.reads.isEmpty

/-- The engine of a slot holds four commands that it has not started. -/
def Task.queueFull (t : Task) (k : Kind) : Bool :=
  4 ≤ (t.cmds.filter fun c => c.op.engine == k && c.unstarted).length

/-! Issue of a command. -/

/-- What a command needs of the stack: pops, pushes, the depths it reads, its counter, and a place in its engine's queue. -/
structure TileReq where
  pops : Nat
  pushes : Nat
  reads : List Nat
  cnt : Option Cnt := none
  reach : Bool := false
  eng : Option Kind := none

/-- Stack faults first, then holds (R53, R55, R87); `go` receives the entries the command reads. -/
def State.tileGo (s : State) (r : TileReq) (go : List Entry → State) : State :=
  match stackFault s.t.limitNow s.t.depth r.pops r.pushes r.reach with
  | some (c, n) => s.trap c n
  | none =>
    let es := r.reads.filterMap s.t.atDepth
    if s.cntFull r.cnt || (r.eng.elim false s.t.queueFull) || es.any s.entryHeld ||
        (r.pushes != 0 && 8 < s.benchUsed + r.pushes) then s.hold
    else go es

/-- What a command is apart from its stack effect. -/
structure CmdReq where
  reads : List Nat
  pops : Nat
  push : List Desc
  cnt : Option Cnt := none
  level : Level := 0
  scope : Nat := 0
  gens : List W32 := []
  inj : Option Inj := none
  /-- the translation of the page of its base, made at issue (R234) -/
  first : Option Tr := none
  /-- its entry is filled by element accesses -/
  fills : Bool := false

/-- A command issues: it reads, pops and pushes, and takes its place among the commands of the task. `op` receives
the number of the first entry pushed. -/
def State.issueCmd (s : State) (r : CmdReq) (op : Nat → CmdOp) : State :=
  s.withT fun t =>
    let k := r.reads.foldl (fun (k : Stack) id => k.alter id fun e => some e.readBy) t.stk
    let k := k.popN r.pops
    let first := k.nextId
    let k := r.push.foldl (fun (k : Stack) d => k.push d t.seq t.bidx t.latch.addr) k
    let c : Cmd :=
      { id := t.seq, bundle := t.latch.addr, ins := t.latch.ins, root := t.dtroot, first := r.first, op := op first
        level := r.level, scope := r.scope, fctl := t.fp.fctl, fscsel := t.fp.fscsel, gens := r.gens, inj := r.inj, reads := r.reads
        latched := r.reads.isEmpty && !r.fills, done := [], wrote := [], got := [], p := t.pts, tmax := 0, fl := 0, uf := 0 }
    let t := { t with stk := k, cnt := match r.cnt with | some c => t.cnt.add c | none => t.cnt, seq := t.seq + 1 }
    let t := t.release c.cls (c.ranges t) false
    { t with cmds := t.cmds ++ [{ c with p := t.pts }] }

/-- A command that reads all it names and pushes one entry. -/
def State.push1 (s : State) (es : List Entry) (pops : Nat) (d : Desc) (op : Nat → CmdOp) : State :=
  s.issueCmd { reads := es.map (·.id), pops := pops, push := [d] } op

/-- A refusal (R86). -/
def State.refuse (s : State) : State := s.trap 0x28

/-! Staging registers, as an engine syllable reads them (R85, R113, R310). -/

def State.tl (s : State) (k : Fin 8) : W64 := s.t.stg.get (Fin.ofNat 40 k.val)
def State.mx (s : State) (k : Fin 4) : W64 := s.t.stg.get (Fin.ofNat 40 (8 + k.val))
def State.tv (s : State) (k : Fin 4) : W64 := s.t.stg.get (Fin.ofNat 40 (12 + k.val))
def State.cp (s : State) (k : Fin 16) : W64 := s.t.stg.get (Fin.ofNat 40 (16 + k.val))
def State.cl (s : State) (k : Fin 8) : W64 := s.t.stg.get (Fin.ofNat 40 (32 + k.val))

/-! Generators of tile conversions (R74). -/

/-- The states of generators 0 to 127 that a command claims, and the task after its steps: element `i` of `n` steps
generator i mod 128. -/
def Task.claimGens (t : Task) (n : Nat) : List W32 × Task :=
  let now := (t.fp.gens.toList).take 128
  let gens := (List.range n).foldl (fun (g : Vector W32 256) i =>
    let k : Fin 256 := Fin.ofNat 256 (i % 128)
    g.set k (genStep (g.get k))) t.fp.gens
  (now, { t with fp := { t.fp with gens := gens } })

/-- Whether a conversion between two formats in a mode steps generators: not where the bits are copied (log entry
14). -/
def stochastic (src dst : Fmt) (mode : Nat) : Bool := mode == 2 && src != dst

/-- fctl.RM (R75). -/
def Task.rm (t : Task) : Nat := fldOf (t.fp.fctl.setWidth 64) 1 0

/-! Rows of a transfer. -/

def rowRanges (base pitch : Int) (rows len : Nat) : List (Nat × Nat) :=
  (List.range rows).map fun i => (rowAddr base pitch i, len)

/-- The refusals of TLD and CPGET that concern their staging values (R90, R312). -/
def loadRefusal (f : Fmt) (base pitch rows cols : W64) : Option Nat :=
  if rows.toNat < 1 || 64 < rows.toNat || cols.toNat < 1 || 64 < cols.toNat then some 0x26
  else if f.blocked && cols.toNat % f.blk ≠ 0 then some 0x26
  else if base.toNat % f.size ≠ 0 || pitch.toNat % f.size ≠ 0 then some 0x27
  else none

/-- The format of the page that holds an address, with the translation made at issue (R90, R91, R234). -/
inductive PageAt where
  | ok (f : Fmt) (tr : Tr)
  | stop (why : Look)
  deriving DecidableEq, Repr

def State.pageAt (s : State) (va : Nat) (write : Bool) : PageAt :=
  match s.look va 1 write none with
  | .ok tr => (match Fmt.ofCode tr.fmt with | some f => .ok f tr | none => .stop (.fault 6))
  | why => .stop why

/-- What stops row 0 of a transfer at issue, on the page that the translation at issue named, whatever the size of that page: its bytes
there may be out of range (R227, R234, R236). -/
def State.rowStop (s : State) (tr : Tr) (va len : Nat) (write : Bool) : Option Look :=
  match s.look va (tr.room va len) write none with
  | .ok _ => none
  | why => some why

/-- The row pieces of TLD and TST: the part of row 0 on the first page keeps the translation made at issue. -/
def rowPieces (base pitch : Int) (rows len : Nat) (tr : Tr) : List Piece :=
  (List.range rows).map fun i =>
    { key := i, also := [], va := rowAddr base pitch i, len := len, trs := if i = 0 then [tr] else [], data := [] }

/-- The requests of a gather (R92, R102, R245): one for each distinct row address, at the first row that names it. -/
def gatherPieces (idx : List Int) (base pitch : Int) (bound : W64) (len : Nat) : List Piece :=
  mergePieces (idx.zipIdx.filterMap fun x =>
    if x.1 < 0 || (bound ≠ 0 && bound.toNat ≤ x.1.toNat) then none
    else some { key := x.2, also := [], va := rowAddr base pitch x.1.toNat, len := len, trs := [], data := [] })

/-- The indices of an entry that is not filling. -/
def Entry.indices (e : Entry) : List Int := (e.tile.ints.getD 0 [])

/-- An entry that may hold a gather's indices. -/
def Entry.isIndex (e : Entry) : Bool := e.fmt == .int32 && e.rows == 1

end Sys2Proof.Machine
end

