-- ==== Sys2Proof/Machine/Copy.lean ====
section
/-! DEFINITION. The copy engine: the EC slot (R309 to R316, R215, R259). -/

namespace Sys2Proof.Machine

/-- Bits 63:57 of an address (R311). -/
def farAddr (a : W64) : Bool := 2 ^ 57 ≤ a.toNat

/-- A command that leaves the stack alone: held while cp is full or a fence holds one of its classes (R311). The counter of the context
is the only bound: R87 names a queue of four for the tile side alone (DESIGN CHOICE, log entry 121). -/
def State.copyGo (s : State) (cls : BitVec 6) (ranges : List (Nat × Nat)) (go : State) : State :=
  if s.full .cp || s.fenced cls ranges false then s.hold else go

/-- CPGET (R312): the staging, traps and format rules of TLD, as a bulk transfer. -/
def execCpget (o : OGS) (s : State) : Out :=
  guarded o.g (fun s =>
    s.tileGo { pops := 0, pushes := 1, reads := [], cnt := some .cp } fun _ =>
      let base := s.cp 0
      let pitch := s.cp 1
      let n := (s.cp 2).toNat
      let m := (s.cp 3).toNat
      let (l, sc) := s.scope o.scope
      let rows (len : Nat) : List (Nat × Nat) := if n ≤ 64 ∧ m ≤ 64 then rowRanges base.toNat pitch.toInt n len else []
      if farAddr base then (if s.fenced cCR [] false then s.hold else s.trap 0x31)
      else
        match s.pageAt base.toNat false with
        | .stop why =>
          if s.fenced cCR (rows (4 * m)) false then s.hold else s.stopAt (s.req base.toNat 5 sc false) why
        | .ok f tr =>
          if s.fenced cCR (rows (f.rowBytes m)) false then s.hold
          else
            match loadRefusal f base pitch (s.cp 2) (s.cp 3), s.rowStop tr base.toNat (f.rowBytes m) false with
            | some c, _ => s.trap c
            | none, some why => s.stopAt (s.req base.toNat 5 sc false) why
            | none, none =>
              (s.touch base.toNat).issueCmd
                { reads := [], pops := 0, push := [{ fmt := f, rows := n, cols := m }], cnt := some .cp, level := l
                  scope := sc, first := some tr, fills := true } fun e => .cpget e base.toNat pitch.toInt) s

/-- CPPUT (R215): the format, conversion and alignment rules of TST, as a bulk transfer. It ends staging (R255). -/
def execCpput (o : OGS) (s : State) : Out :=
  guarded o.g (fun s =>
    s.tileGo { pops := 1, pushes := 0, reads := [0], cnt := some .cp } fun es =>
      match es with
      | [x] =>
        let base := s.cp 0
        let pitch := s.cp 1
        let (l, sc) := s.scope o.scope
        let rows (len : Nat) : List (Nat × Nat) := rowRanges base.toNat pitch.toInt x.rows len
        if farAddr base then (if s.fenced cCW [] false then s.hold else s.trap 0x31)
        else
          (match s.pageAt base.toNat true with
          | .stop why =>
            if s.fenced cCW (rows (4 * x.cols)) false then s.hold else s.stopAt (s.req base.toNat 5 sc true) why
          | .ok f tr =>
            if s.fenced cCW (rows (f.rowBytes x.cols)) false then s.hold
            else if base.toNat % f.size ≠ 0 || pitch.toNat % f.size ≠ 0 then s.trap 0x27
            else if f.blocked && x.cols % f.blk ≠ 0 then s.stopAt (s.req base.toNat 5 sc true) (.fault 6)
            else
              match s.rowStop tr base.toNat (f.rowBytes x.cols) true with
              | some why => s.stopAt (s.req base.toNat 5 sc true) why
              | none =>
              let (gens, t) := s.t.claimGens (if stochastic x.fmt f s.t.rm then x.rows * x.cols else 0)
              (((s.setT t).touch base.toNat).endStaging).issueCmd
                { reads := [x.id], pops := 1, push := [], cnt := some .cp, level := l, scope := sc, first := some tr, gens := gens }
                fun _ => .cpput x.id base.toNat pitch.toInt f.code)
      | _ => s) s

/-- CPMC (R259). -/
def execCpmc (o : OGS) (s : State) : Out :=
  guarded o.g (fun s =>
    let base := s.cp 0
    let pitch := s.cp 1
    let rows := (s.cp 4).toNat
    let n := (s.cp 5).toNat
    let sel : Byte := (s.cp 6).setWidth 8
    let bad := rows < 1 || 64 < rows || n < 1 || 4096 < n || sel == 0 || fldOf (s.cp 6) 63 8 != 0
    let (l, sc) := s.scope o.scope
    s.copyGo (cCR ||| cCW) (if bad then [] else rowRanges base.toNat pitch.toInt rows n)
      (if bad then s.trap 0x26
       else if farAddr base then s.trap 0x31
       else
         s.endStaging.issueCmd { reads := [], pops := 0, push := [], cnt := some .cp, level := l, scope := sc }
           fun _ => .cpmc (s.t.id.core / 8) base.toNat pitch.toInt (s.cp 2).toNat (s.cp 3).toInt rows n sel)) s

/-! Blocks (R229, R230, R314). -/

/-- The blocks that stand in the L1 of the current core: those of the tasks resident on it, but for one slot of the
current task. -/
def State.blocksHere (s : State) (k : Fin 16) : List Block :=
  s.tasks.flatMap fun x =>
    if x.id.core = s.t.id.core && (x.id.resident || x.id.uid == s.t.id.uid) then
      (List.finRange 16).filterMap fun i =>
        let b := x.blocks.get i
        if b.flag = 0 || (x.id.uid = s.t.id.uid && i = k) then none else some b
    else []

/-- Whether a block has a line in an L1 set (R228). -/
def Block.inSet (b : Block) (set : Nat) : Bool := (List.range b.count).any fun i => (b.vline + i) % 1024 == set

/-- Whether one more block would take a set past 6 block lines. -/
def blockTooMany (bs : List Block) (vline n : Nat) : Bool :=
  (List.range n).any fun i => 6 ≤ (bs.filter fun b => b.inSet ((vline + i) % 1024)).length

def execLdblk (o : OBlk) (s : State) : Out :=
  guarded o.g (fun s =>
    let base := s.cp 0
    let n := (s.cp 1).toNat
    let (l, sc) := s.scope o.scope
    s.copyGo cCR (if n ≤ 64 then [(base.toNat, 64 * n)] else [])
      (if n < 1 || 64 < n then s.trap 0x26
       else if farAddr base then s.trap 0x31
       else if base.toNat % 64 ≠ 0 then s.trap 0x30
       else if blockTooMany (s.blocksHere o.k) (base.toNat / 64) n then s.trap 0x26
       else
         let u := s.t.id.uid
         let s := if (s.t.blocks.get o.k).flag = 0 then s else s.setFlag u o.k Block.free
         let b : Block := { flag := 1, vline := base.toNat / 64, count := n, lines := [], level := l, lease := 0
                            cmd := s.t.seq, asid := asidOf s.t.dtroot }
         (s.setFlag u o.k b).issueCmd { reads := [], pops := 0, push := [], cnt := some .cp, level := l, scope := sc }
           fun _ => .ldblk o.k base.toNat n false)) s

/-- LDBLK.rel: cp rises and falls at once. -/
def execLdblkRel (o : OBlkRel) (s : State) : Out :=
  guarded o.g (fun s =>
    if s.full .cp then s.hold
    else if (s.t.blocks.get o.k).flag = 0 then s
    else s.setFlag s.t.id.uid o.k Block.free) s

/-- The bytes that a CPSORT touches, for FENCER: each index and the element that it names, by the indices that memory holds as it
issues. Where an index cannot be read yet any element may be touched. DESIGN CHOICE, log entry 99. -/
def State.sortRanges (s : State) (l : Level) (base idx lin n z : Nat) (bound : W64) : List (Nat × Nat) :=
  let index (i : Nat) : Option Int :=
    let va := (idx + 4 * i) % 2 ^ 57
    match s.walk false (rootOf s.t.dtroot) (asidOf s.t.dtroot) va with
    | .leaf e => some (toSigned 32 (leNat (s.readParts l [(e.tr va, 4)]).1))
    | .bad .. => none
  match (List.range n).mapM index with
  | none => [(idx, 4 * n), (lin, n * z), (base, if bound = 0 then 2 ^ 57 else bound.toNat * z)]
  | some xs =>
    (idx, 4 * n) :: (lin, n * z) ::
      (xs.filter fun x => 0 ≤ x && (bound == 0 || x.toNat < bound.toNat)).map fun x => ((base + x.toNat * z) % 2 ^ 64, z)

/-- CPSORT (R315). -/
def execCpsort (o : OSort) (s : State) : Out :=
  guarded o.g (fun s =>
    let base := (s.cp 0).toNat
    let idx := (s.cp 1).toNat
    let lin := (s.cp 2).toNat
    let n := (s.cp 3).toNat
    let z := (s.cp 4).toNat
    let bound := s.cp 5
    let bad := z < 1 || 4096 < z || n < 1 || 65536 < n
    let (l, sc) := s.scope o.scope
    let ranges : List (Nat × Nat) :=
      if bad then []
      else if s.t.fences.any fun f => f.range.isSome then s.sortRanges l base idx lin n z bound
      else [(idx, 4 * n)]
    s.copyGo (cCR ||| cCW) ranges
      (if bad then s.trap 0x26
       else if farAddr (s.cp 0) || farAddr (s.cp 1) || farAddr (s.cp 2) then s.trap 0x31
       else if base % min z 8 ≠ 0 || lin % min z 8 ≠ 0 || idx % 4 ≠ 0 then s.trap 0x30
       else
         s.endStaging.issueCmd { reads := [], pops := 0, push := [], cnt := some .cp, level := l, scope := sc }
           fun _ => .cpsort o.scat base idx lin n z bound)) s

/-- CPFILL (R316). -/
def execCpfill (o : OGS) (s : State) : Out :=
  guarded o.g (fun s =>
    let base := (s.cp 0).toNat
    let n := (s.cp 1).toNat
    let (l, sc) := s.scope o.scope
    s.copyGo cCW [(base, n)]
      (if farAddr (s.cp 0) then s.trap 0x31
       else if base % 8 ≠ 0 || n % 8 ≠ 0 then s.trap 0x30
       else if n < 8 || 2 ^ 32 < n then s.trap 0x26
       else
         s.endStaging.issueCmd { reads := [], pops := 0, push := [], cnt := some .cp, level := l, scope := sc }
           fun _ => .cpfill base n (s.cp 2))) s

end Sys2Proof.Machine
end

