-- ==== Sys2Proof/Machine/Facet.lean ====
section
/-! DEFINITION. The facet instructions on registers (R180 to R196, R202, R203). -/

namespace Sys2Proof.Machine

/-! Shapes of operation. -/

/-- Every facet that executes the syllable, with its own guard mask (R180). -/
def State.facets (s : State) (q : Fin 8) (f : Fin 8 → BitVec 16 → State → State) : Out :=
  .next (s.seqAll (s.t.latch.facets.map fun k => fun s => f k (s.qreg k q 7) s))

/-- A result lane by lane, with the flags of the enabled lanes. -/
def State.lanewise (s : State) (f : Fin 8) (d : VReg) (lat : Nat) (m : BitVec 16) (r : Fin 16 → W32 × Flags) : State :=
  s.vfly f d lat m (vecOf fun l => (r l).1) (laneFlags m (vecOf fun l => (r l).2))

/-- Two sources read as FP32. -/
def vop2 (lat : Nat) (g : W32 → W32 → W32 × Flags) (o : OV3) (s : State) : Out :=
  s.facets o.q fun f m s =>
    let a := s.fsrcF f o.ix 0 o.a
    let b := s.fsrcF f o.ix 1 o.b
    s.lanewise f o.d lat m fun l => g (a.get l) (b.get l)

/-- Two sources read as INT32 or bits: latency 2, no flag. -/
def iop2 (g : W32 → W32 → W32) (o : OV3) (s : State) : Out :=
  s.facets o.q fun f m s =>
    let a := s.fsrcI f o.ix 0 o.a
    let b := s.fsrcI f o.ix 1 o.b
    s.lanewise f o.d 2 m fun l => (g (a.get l) (b.get l), 0)

/-- One source read as FP32. -/
def vop1 (lat : Nat) (g : W32 → W32 × Flags) (o : OV2) (s : State) : Out :=
  s.facets o.q fun f m s =>
    let a := s.fsrcF f o.ix 0 o.a
    s.lanewise f o.d lat m fun l => g (a.get l)

/-! Floating-point arithmetic (R183 to R186). -/

def onNum (g : Num → Num → W32 × Flags) (a b : W32) : W32 × Flags := g (dec32 a) (dec32 b)

def execVadd (o : OV3) (s : State) : Out := vop2 4 (onNum numAdd) o s
def execVsub (o : OV3) (s : State) : Out := vop2 4 (onNum numSub) o s
def execVmul (o : OV3) (s : State) : Out := vop2 4 (onNum numMul) o s
def execVmin (o : OV3) (s : State) : Out := vop2 4 (onNum numMin) o s
def execVmax (o : OV3) (s : State) : Out := vop2 4 (onNum numMax) o s

/-- VFMA and VFMS also read the old destination. -/
def fused (g : Num → Num → Num → W32 × Flags) (o : OV3) (s : State) : Out :=
  s.facets o.q fun f m s =>
    let a := s.fsrcF f o.ix 0 o.a
    let b := s.fsrcF f o.ix 1 o.b
    let c := s.vregU f o.d 2
    s.lanewise f o.d 4 m fun l => g (dec32 (a.get l)) (dec32 (b.get l)) (dec32 (c.get l))

def execVfma (o : OV3) (s : State) : Out := fused numFma o s
def execVfms (o : OV3) (s : State) : Out := fused numFms o s

def absLane (a : W32) : W32 := if (dec32 a).isNan then nan32 else a &&& 0x7FFFFFFF
def negLane (a : W32) : W32 := if (dec32 a).isNan then nan32 else a ^^^ 0x80000000

def execVabs (o : OV2) (s : State) : Out := vop1 4 (fun a => (absLane a, 0)) o s
def execVneg (o : OV2) (s : State) : Out := vop1 4 (fun a => (negLane a, 0)) o s
def execVrcp (o : OV2) (s : State) : Out := vop1 6 (fun a => numRcp (dec32 a)) o s
def execVrsq (o : OV2) (s : State) : Out := vop1 6 (fun a => numRsqrt (dec32 a)) o s
def execVlog2 (o : OV2) (s : State) : Out := vop1 6 (fun a => numLog2 (dec32 a)) o s

def execVexp2 (o : OVexp) (s : State) : Out :=
  s.facets o.q fun f m s =>
    let a := s.fsrcF f none 0 o.a
    let b := s.fsrcF f none 1 o.b
    s.lanewise f o.d 6 m fun l => numExp2 (dec32 (a.get l)) (dec32 (b.get l)) (dec32 o.c)

/-! Conversions (R187). -/

/-- Source and destination formats of a conversion. -/
def CvtKind.fmts : CvtKind → Fmt × Fmt
  | .i32f32 => (.fp32, .int32)
  | .f32i32 => (.int32, .fp32)
  | .bf16f32 => (.fp32, .bf16)
  | .f32bf16 => (.bf16, .fp32)
  | .f16f32 => (.fp32, .fp16)
  | .f32f16 => (.fp16, .fp32)
  | .e4m3f32 => (.fp32, .e4m3)
  | .f32e4m3 => (.e4m3, .fp32)
  | .e5m2f32 => (.fp32, .e5m2)
  | .f32e5m2 => (.e5m2, .fp32)
  | .i8f32 => (.fp32, .int8)

/-- The exact value of a lane in its narrow field. -/
def laneNum (src : Fmt) (x : W32) : Num :=
  match src.ff with
  | some g => g.decode (x.toNat % 2 ^ g.width)
  | none => ofInt (toSigned src.width x.toNat)

/-- A converted pattern in its lane: INT8 is sign-extended. -/
def laneBits (dst : Fmt) (x : Nat) : W32 :=
  if dst = .int8 then BitVec.ofInt 32 (toSigned 8 x) else BitVec.ofNat 32 x

/-- The mode of a conversion (R72). -/
def State.mode (s : State) (m : RMode) : Nat := match m with | .dyn => fldOf (s.t.fp.fctl.setWidth 64) 1 0 | m => RMode.code m

def State.e4nan (s : State) : Bool := s.t.fp.fctl.getLsbD 2

/-- The generator of a lane (R74). -/
def laneGen (f : Fin 8) (l : Fin 16) : Fin 256 := Fin.ofNat 256 (128 + f.val * 16 + l.val)

/-- In the stochastic mode every lane of the mask steps its generator once. -/
def State.stepLanes (s : State) (f : Fin 8) (m : BitVec 16) (mode : Nat) : State :=
  if mode = 2 then
    s.withT fun t => { t with fp := { t.fp with gens := (enabled m).foldl (fun g l =>
      g.set (laneGen f l) (genStep (g.get (laneGen f l)))) t.fp.gens } }
  else s

/-- The rounding of a lane, from the state of its generator before the step. -/
def State.laneMode (s : State) (f : Fin 8) (l : Fin 16) (mode : Nat) : RM :=
  rmOf mode (genStep (s.t.fp.gens.get (laneGen f l)))

def execVcvt (o : OVcvt) (s : State) : Out :=
  s.facets o.q fun f m s =>
    let (src, dst) := CvtKind.fmts o.kind
    let a := if src.isInt then s.fsrcI f o.ix 0 o.a else s.fsrcF f o.ix 0 o.a
    let mode := s.mode o.rm
    let r (l : Fin 16) : W32 × Flags :=
      let (x, fl) := convert1 src.isInt dst (s.laneMode f l mode) s.e4nan (laneNum src (a.get l))
      (laneBits dst x, fl)
    (s.stepLanes f m mode).lanewise f o.d 4 m r

/-! Integer and logic (R188). -/

def lane5 (b : W32) : Nat := b.toNat % 32

def execViadd (o : OV3) (s : State) : Out := iop2 (· + ·) o s
def execVisub (o : OV3) (s : State) : Out := iop2 (· - ·) o s
def execVimul (o : OV3) (s : State) : Out := iop2 (· * ·) o s
def execVand (o : OV3) (s : State) : Out := iop2 (· &&& ·) o s
def execVor (o : OV3) (s : State) : Out := iop2 (· ||| ·) o s
def execVxor (o : OV3) (s : State) : Out := iop2 (· ^^^ ·) o s
def execVshl (o : OV3) (s : State) : Out := iop2 (fun a b => a <<< lane5 b) o s
def execVshr (o : OV3) (s : State) : Out := iop2 (fun a b => a >>> lane5 b) o s
def execVsra (o : OV3) (s : State) : Out := iop2 (fun a b => a.sshiftRight (lane5 b)) o s
def execVimin (o : OV3) (s : State) : Out := iop2 (fun a b => if b.toInt < a.toInt then b else a) o s
def execVimax (o : OV3) (s : State) : Out := iop2 (fun a b => if a.toInt < b.toInt then b else a) o s

/-! Compares, selects and masks (R189 to R191). -/

def VCond.isInt : VCond → Bool
  | .ieq | .ine | .ilt | .ile | .igt | .ige | .iltu | .igeu => true
  | _ => false

def VCond.test (c : VCond) (a b : W32) : Bool :=
  let x := dec32 a
  let y := dec32 b
  let un := x.isNan || y.isNan
  let k := x.cmp y
  match c with
  | .eq => !un && k == 0
  | .ne => un || k != 0
  | .lt => !un && decide (k < 0)
  | .le => !un && decide (k ≤ 0)
  | .gt => !un && decide (0 < k)
  | .ge => !un && decide (0 ≤ k)
  | .un => un
  | .ord => !un
  | .ieq => a == b
  | .ine => a != b
  | .ilt => a.toInt < b.toInt
  | .ile => a.toInt ≤ b.toInt
  | .igt => b.toInt < a.toInt
  | .ige => b.toInt ≤ a.toInt
  | .iltu => a.toNat < b.toNat
  | .igeu => b.toNat ≤ a.toNat

/-- A mask with a bit for each lane. -/
def laneMask (p : Fin 16 → Bool) : BitVec 16 :=
  (List.finRange 16).foldl (fun (m : BitVec 16) l => if p l then m ||| (1 : BitVec 16) <<< l.val else m) 0

def execVcmp (o : OVcmp) (s : State) : Out :=
  s.facets o.q fun f m s =>
    let rd (k : Nat) (x : FSrc) : Lanes := if VCond.isInt o.c then s.fsrcI f o.ix k x else s.fsrcF f o.ix k x
    let a := rd 0 o.a
    let b := rd 1 o.b
    s.fly (.q f o.qe) 2 (.pair m (laneMask fun l => VCond.test o.c (a.get l) (b.get l))) Origin.dat

def execVsel (o : OVsel) (s : State) : Out :=
  s.facets o.q fun f m s =>
    let a := s.fsrcI f o.ix 0 o.a
    let b := s.fsrcI f o.ix 1 o.b
    let n := s.qreg f o.n 2
    s.lanewise f o.d 2 m fun l => (if n.getLsbD l.val then a.get l else b.get l, 0)

def execQlog (o : OQlog) (s : State) : Out :=
  s.facets o.q fun f m s =>
    s.fly (.q f o.qe) 2 (.pair m (Lop.run o.op (s.qreg f o.qa 0) (s.qreg f o.qb 1))) Origin.dat

/-! Lane operations (R192 to R196). -/

def execVmov (o : OVmov) (s : State) : Out :=
  s.facets o.q fun f m s =>
    let a := s.fsrcI f none 0 o.a
    s.lanewise f o.d 2 m fun l => (a.get l, 0)

def execVmovi (o : OV2) (s : State) : Out :=
  s.facets o.q fun f m s =>
    let a := s.fsrcI f o.ix 0 o.a
    s.lanewise f o.d 2 m fun l => (a.get l, 0)

def execVshf (o : OV3) (s : State) : Out :=
  s.facets o.q fun f m s =>
    let a := s.fsrcI f o.ix 0 o.a
    let b := s.fsrcI f o.ix 1 o.b
    s.lanewise f o.d 2 m fun l => (a.get (Fin.ofNat 16 ((b.get l).toNat % 16)), 0)

def RedOp.isFloat : RedOp → Bool
  | .add | .max | .min => true
  | _ => false

/-- The identity of a reduction (R194). -/
def RedOp.unit : RedOp → W32
  | .add => 0x80000000
  | .max => 0xFF800000
  | .min => 0x7F800000
  | .iadd | .or | .xor => 0
  | .imax => 0x80000000
  | .imin => 0x7FFFFFFF
  | .and => 0xFFFFFFFF

def RedOp.comb (op : RedOp) (a b : W32) : W32 × Flags :=
  match op with
  | .add => onNum numAdd a b
  | .max => onNum numMax a b
  | .min => onNum numMin a b
  | .iadd => (a + b, 0)
  | .imax => (if a.toInt < b.toInt then b else a, 0)
  | .imin => (if b.toInt < a.toInt then b else a, 0)
  | .and => (a &&& b, 0)
  | .or => (a ||| b, 0)
  | .xor => (a ^^^ b, 0)

/-- One level of the tree: neighbours are combined. -/
def RedOp.pairs (op : RedOp) : List W32 → List W32 × Flags
  | a :: b :: l =>
    let (x, f) := RedOp.comb op a b
    let (r, g) := RedOp.pairs op l
    (x :: r, f ||| g)
  | l => (l, 0)

/-- The tree of VRED over 16 lanes. -/
def RedOp.tree (op : RedOp) (x : List W32) : W32 × Flags :=
  let (a, f1) := RedOp.pairs op x
  let (b, f2) := RedOp.pairs op a
  let (c, f3) := RedOp.pairs op b
  let (d, f4) := RedOp.pairs op c
  (d.headD 0, f1 ||| f2 ||| f3 ||| f4)

/-- The prefixes of VSCAN, first lane first. -/
def RedOp.scan (op : RedOp) : List W32 → List W32 × Flags
  | [] => ([], 0)
  | x :: l =>
    let (r, _, f) := l.foldl (fun (acc : List W32 × W32 × Flags) y =>
      let (z, g) := RedOp.comb op acc.2.1 y
      (z :: acc.1, z, acc.2.2 ||| g)) ([x], x, 0)
    (r.reverse, f)

/-- The lanes of a reduction, each NaN canonical (R67): a disabled lane gives the identity. -/
def State.redSrc (s : State) (f : Fin 8) (m : BitVec 16) (op : RedOp) (a : FSrc) : List W32 :=
  let canon (y : W32) : W32 := if (dec32 y).isNan then nan32 else y
  let x := if RedOp.isFloat op then (s.fsrcF f none 0 a).map canon else s.fsrcI f none 0 a
  (List.finRange 16).map fun l => if m.getLsbD l.val then x.get l else RedOp.unit op

def execVred (o : OVred) (s : State) : Out :=
  s.facets o.q fun f m s =>
    let (x, fl) := RedOp.tree o.op (s.redSrc f m o.op o.a)
    s.vfly f o.d 5 m (splat x) fl

def execVscan (o : OVred) (s : State) : Out :=
  s.facets o.q fun f m s =>
    let (xs, fl) := RedOp.scan o.op (s.redSrc f m o.op o.a)
    s.vfly f o.d 5 m (vecOf fun l => xs.getD l.val 0) fl

/-- The exact sum of products of floating lanes, rounded once (R81, R195). -/
def dotFloat (ps : List (Num × Num)) : W32 × Flags := fin32 (chunkSum (ps.map fun p => p.1.mul p.2))

def bf16Halves (x : W32) : List Num := [bf16.decode (x.toNat % 65536), bf16.decode (x.toNat / 65536)]

def signedBytes (x : W32) : List Int := (List.range 4).map fun k => toSigned 8 (x.toNat / 256 ^ k)

def intDot (a b : List Int) : Int := (List.zipWith (· * ·) a b).foldl (· + ·) 0

def execVdot (o : OVdot) (s : State) : Out :=
  s.facets o.q fun f m s =>
    let ls := enabled m
    let isF : Bool := o.kind == .f32 || o.kind == .bf16
    let a := if isF then s.fsrcF f o.ix 0 o.a else s.fsrcI f o.ix 0 o.a
    let b := if isF then s.fsrcF f o.ix 1 o.b else s.fsrcI f o.ix 1 o.b
    let (x, fl) : W32 × Flags := match o.kind with
      | .f32 => dotFloat (ls.map fun l => (dec32 (a.get l), dec32 (b.get l)))
      | .bf16 => dotFloat (ls.flatMap fun l => List.zip (bf16Halves (a.get l)) (bf16Halves (b.get l)))
      | .i8 => (BitVec.ofInt 32 (intDot (ls.flatMap fun l => signedBytes (a.get l)) (ls.flatMap fun l => signedBytes (b.get l))), 0)
      | .i32 => (BitVec.ofInt 32 (intDot (ls.map fun l => (a.get l).toInt) (ls.map fun l => (b.get l).toInt)), 0)
    s.vfly f o.d 5 m (splat x) fl

/-- VCOPY reads another facet's register; it is undefined while a write to it is in flight. -/
def execVcopy (o : OVcopy) (s : State) : Out :=
  s.facets o.q fun f m s =>
    let a := s.vregU o.srcf o.a f.val
    s.lanewise f o.d 4 m fun l => (a.get l, 0)

end Sys2Proof.Machine
end

