-- ==== Sys2Proof/Machine/FacetMem.lean ====
section
/-! DEFINITION. Facet memory access (R197 to R201). -/

namespace Sys2Proof.Machine

/-! The common part: holds, then the traps on every enabled lane's address, then the translations (R197, R234). -/

/-- One request of a facet memory syllable: lane, address and length. -/
structure LaneReq where
  lane : Nat
  va : W64
  len : Nat
  deriving DecidableEq, Repr

/-- The trap on the addresses: out of range first, then misaligned. -/
def lanesTrap (l : List LaneReq) (size : Nat) : Option Nat :=
  if l.any fun r => 2 ^ 57 ≤ r.va.toNat then some 0x31
  else if l.any fun r => r.va.toNat % size != 0 then some 0x30
  else none

def laneRanges (l : List LaneReq) : List (Nat × Nat) := l.map fun r => (r.va.toNat, r.len)

/-- Whether the counter or a fence or a tile transfer holds the syllable. -/
def State.lanesHeld (s : State) (l : List LaneReq) (cls : BitVec 6) (c : Cnt) : Bool :=
  s.full c || s.memHeld cls (laneRanges l) false

/-- The translations at issue, or the first in address order that stops. -/
inductive LookL where
  | ok (l : List (LaneReq × List Tr))
  | stop (va : Nat) (why : Look)
  deriving DecidableEq, Repr

def State.lookLanes (s : State) (write : Bool) (need : Option Nat) : List LaneReq → LookL
  | [] => .ok []
  | r :: l =>
    match s.lookRange r.va.toNat r.len write need with
    | .stop va why => .stop va why
    | .ok parts =>
      match s.lookLanes write need l with
      | .ok k => .ok ((r, parts.map (·.1)) :: k)
      | x => x

/-- The rest of a facet access once no hold is left: traps, then translations in address order (R232). -/
def State.lanesIssue (s : State) (l : List LaneReq) (size : Nat) (write : Bool) (scope : Nat) (need : Option Nat)
    (go : List (LaneReq × List Tr) → State → State) : State :=
  match lanesTrap l size with
  | some c => s.trap c
  | none =>
    match s.lookLanes write need (sortBy (fun r => r.va.toNat) l) with
    | .stop va why => s.stopAt (s.req va (if write then 1 else 0) scope write) why
    | .ok k => go k (l.foldl (fun s r => s.touchRange r.va.toNat r.len s.t.dtroot) s)

/-- Layout M: consecutive elements. -/
def rowReqs (base : W64) (size : Nat) (m : BitVec 16) : List LaneReq :=
  (enabled m).map fun l => { lane := l.val, va := base + BitVec.ofNat 64 (l.val * size), len := size }

/-- Layout G: one address for each lane. -/
def gatherReqs (base : W64) (a : Lanes) (size : Nat) (m : BitVec 16) : List LaneReq :=
  (enabled m).map fun l =>
    { lane := l.val, va := base + (a.get l).setWidth 64 * BitVec.ofNat 64 size, len := size }

def VSize.bytes : VSize → Nat
  | .b => 1 | .h => 2 | .w => 4

/-- Pieces in ascending lane order. -/
def lanePieces (l : List (LaneReq × List Tr)) (data : Nat → List Byte) : List Piece :=
  (sortBy (fun (x : LaneReq × List Tr) => x.1.lane) l).map fun x =>
    { key := x.1.lane, also := [], va := x.1.va.toNat, len := x.1.len, trs := x.2, data := data x.1.lane }

/-- Whether the pieces lie in the core's own window (R198). A load of lanes that lie only in part there has the longer latency (DESIGN
CHOICE, log entry 96). -/
def State.ownWindow (s : State) (l : List (LaneReq × List Tr)) : Bool :=
  !l.isEmpty && l.all fun x => x.2.all fun tr => (match region tr.pa with | .window c _ => c == s.t.id.core | _ => false)

/-- A facet load takes its place: a write in flight that waits, and an access (R201). -/
def State.loadLanes (s : State) (dst : FDst) (op : AccOp) (l : Level) (sc : Nat) (lat : Nat) (ps : List Piece) : State :=
  let id := s.t.seq
  ((s.fly dst lat .wait Origin.dat).addAcc
    { op := op, write := false, level := l, scope := sc, acq := false, rel := false, cls := cLD, loc := false
      flight := some id, pieces := ps }).count .ld

def State.storeLanes (s : State) (l : Level) (sc : Nat) (ps : List Piece) : State :=
  (s.addAcc
    { op := .stV, write := true, level := l, scope := sc, acq := false, rel := false, cls := cST, loc := false
      flight := none, pieces := ps }).countStore

/-! VLD, VST, VGTH, VSCT (R198, R199). -/

/-- A load of raw elements. With no lane enabled there is no access; a bypass starts a new window all the same, at latency 4 (DESIGN
CHOICE, log entry 96). -/
def State.rawLoad (s : State) (f : Fin 8) (d : VReg) (gth : Bool) (scope : Scope) (size : Nat) (rs : List LaneReq) :
    State :=
  let (l, sc) := s.scope scope
  if rs.isEmpty then s.fly (.v f d) 4 (.lanes 0 (splat 0)) Origin.dat
  else if s.lanesHeld rs cLD .ld then s.hold
  else
    s.lanesIssue rs size false sc none fun k s =>
      s.loadLanes (.v f d) (.ldV f d gth) l sc (if s.ownWindow k then 3 else 4) (mergePieces (lanePieces k fun _ => []))

/-- A store of the low bytes of the lanes. -/
def State.rawStore (s : State) (v : Lanes) (scope : Scope) (size : Nat) (rs : List LaneReq) : State :=
  let (l, sc) := s.scope scope
  if rs.isEmpty then s
  else if s.lanesHeld rs cST .st then s.hold
  else
    s.lanesIssue rs size true sc none fun k s =>
      s.storeLanes l sc (lanePieces k fun i => leBytes size (v.get (Fin.ofNat 16 i)).toNat)

def execVld (o : OVmem) (s : State) : Out :=
  s.facets o.q fun f m s =>
    let n := VSize.bytes o.sz
    s.rawLoad f o.d false o.scope n (rowReqs (s.abAddr f o.ab o.ix o.ofs) n m)

def execVst (o : OVmem) (s : State) : Out :=
  s.facets o.q fun f m s =>
    let n := VSize.bytes o.sz
    s.rawStore (s.vreg f o.d 0) o.scope n (rowReqs (s.abAddr f o.ab o.ix o.ofs) n m)

/-- The base of layout G. -/
def State.abBase (s : State) (f : Fin 8) (ab : Fin 4) : W64 := ((s.t.facet f).ab.get ab).setWidth 64

def execVgth (o : OVgs) (s : State) : Out :=
  s.facets o.q fun f m s =>
    let n := VSize.bytes o.sz
    s.rawLoad f o.d true o.scope n (gatherReqs (s.abBase f o.ab) (s.fsrcI f none 0 o.a) n m)

def execVsct (o : OVgs) (s : State) : Out :=
  s.facets o.q fun f m s =>
    let n := VSize.bytes o.sz
    s.rawStore (s.vreg f o.d 1) o.scope n (gatherReqs (s.abBase f o.ab) (s.fsrcI f none 0 o.a) n m)

/-! VLDT and VSTT (R200). -/

/-- The format of the page that holds an address, read at issue. -/
inductive PageFmt where
  | ok (f : Fmt)
  | stop (why : Look)
  deriving DecidableEq, Repr

def State.pageFmt (s : State) (va : Nat) (write : Bool) : PageFmt :=
  match s.look va 1 write none with
  | .ok tr => (match Fmt.ofCode tr.fmt with | some f => .ok f | none => .stop (.fault 6))
  | why => .stop why

/-- The requests of a decoding access: one block, of which all the bytes are accessed whichever half is read (DESIGN CHOICE, log entry
97), or the elements of the enabled lanes. -/
def fmtReqs (base : W64) (f : Fmt) (m : BitVec 16) : List LaneReq :=
  if f.blocked then (match enabled m with | [] => [] | l :: _ => [{ lane := l.val, va := base, len := f.rowBytes f.blk }])
  else rowReqs base (f.width / 8) m

/-- The bytes that a decoding access may touch while its page is not known. -/
def wideRange (base : W64) : List (Nat × Nat) := [(base.toNat, 64)]

/-- VLDT. A base beyond the address space has no page that gives a format: it takes trap 0x31 whichever lanes are enabled
(DESIGN CHOICE, log entry 78). -/
def State.vldt (s : State) (o : OVldt) (f : Fin 8) (m : BitVec 16) : State :=
  let base := s.abAddr f o.ab o.ix o.ofs
  let (l, sc) := s.scope o.scope
  if m = 0 then s.fly (.v f o.d) 4 (.lanes 0 (splat 0)) Origin.dat
  else if s.full .ld then s.hold
  else if 2 ^ 57 ≤ base.toNat then (if s.memHeld cLD (wideRange base) false then s.hold else s.trap 0x31)
  else
    match s.pageFmt base.toNat false with
    | .stop why =>
      if s.memHeld cLD (wideRange base) false then s.hold else s.stopAt (s.req base.toNat 0 sc false) why
    | .ok fmt =>
      let rs := fmtReqs base fmt m
      if s.memHeld cLD (laneRanges rs) false then s.hold
      else if o.hi && fmt != .e2m1b32 then
        (match lanesTrap rs fmt.size with | some c => s.trap c | none => s.trap 0x28)
      else
        s.lanesIssue rs fmt.size false sc (some fmt.code) fun k s =>
          let ps := lanePieces k fun _ => []
          let rest := ((enabled m).map (·.val)).tail
          s.loadLanes (.v f o.d) (.ldT f o.d fmt o.hi) l sc (if s.ownWindow k then 3 else 4)
            (if fmt.blocked then ps.map fun p => { p with also := rest } else ps)

def execVldt (o : OVldt) (s : State) : Out := s.facets o.q fun f m s => s.vldt o f m

/-- The conversion of VSTT: bytes of each lane, or of the block under key 0, with flags and underflow count. -/
def State.vsttData (s : State) (f : Fin 8) (v : Lanes) (fmt : Fmt) (m : BitVec 16) (mode : Nat) :
    (Nat → List Byte) × Flags × Nat :=
  if fmt.blocked then
    let vs := (List.finRange 16).map fun l => if m.getLsbD l.val then dec32 (v.get l) else .fin false 0 0
    let gi := (List.finRange 16).map fun l => if m.getLsbD l.val then some l.val else none
    let gens := (List.finRange 16).map fun l => s.t.fp.gens.get (laneGen f l)
    let (b, fl, n, _) := packBlock 16 mode s.e4nan s.t.fp.fscsel.toNat vs gi gens
    (fun _ => b, fl, n)
  else
    let r (l : Fin 16) : Nat × Flags :=
      convert1 fmt.isInt fmt (s.laneMode f l mode) s.e4nan
        (if fmt.isInt then ofInt (v.get l).toInt else dec32 (v.get l))
    (fun i => leBytes (fmt.width / 8) (r (Fin.ofNat 16 i)).1, laneFlags m (vecOf fun l => (r l).2), 0)

/-- VSTT; for its base as VLDT (DESIGN CHOICE, log entry 78). -/
def State.vstt (s : State) (o : OVstt) (f : Fin 8) (m : BitVec 16) : State :=
  let base := s.abAddr f o.ab o.ix o.ofs
  let (l, sc) := s.scope o.scope
  if m = 0 then s
  else if s.full .st then s.hold
  else if 2 ^ 57 ≤ base.toNat then (if s.memHeld cST (wideRange base) false then s.hold else s.trap 0x31)
  else
    match s.pageFmt base.toNat true with
    | .stop why =>
      if s.memHeld cST (wideRange base) false then s.hold else s.stopAt (s.req base.toNat 1 sc true) why
    | .ok fmt =>
      let rs := fmtReqs base fmt m
      if s.memHeld cST (laneRanges rs) false then s.hold
      else if fmt == .e2m1b32 then
        (match lanesTrap rs fmt.size with
        | some c => s.trap c
        | none => s.stopAt (s.req base.toNat 1 sc true) (.fault 6))
      else
        s.lanesIssue rs fmt.size true sc (some fmt.code) fun k s =>
          let mode := fldOf (s.t.fp.fctl.setWidth 64) 1 0
          let (data, fl, n) := s.vsttData f (s.vreg f o.d 0) fmt m mode
          let s := ((s.stepLanes f m mode).storeLanes l sc (lanePieces k data)).fsrFly f 1 fl
          if n = 0 then s else s.fly .ufcnt 1 (.w (BitVec.ofNat 64 n)) Origin.dat

def execVstt (o : OVstt) (s : State) : Out := s.facets o.q fun f m s => s.vstt o f m

end Sys2Proof.Machine
end

