-- ==== Sys2Proof/Machine/Dist.lean ====
section
/-! DEFINITION. The distribution instructions (18, 19): R335 to R359. -/

namespace Sys2Proof.Machine

/-! Reads and writes of distribution registers. -/

/-- What a read of a register with a write in flight gives (R358). -/
def State.freeD (s : State) (f : Fin 8) (k : Nat) : DReg :=
  let w (n : Nat) : W64 := Config.freeWord s.fv (4096 + (f.val * 136 + n) * 4 + k)
  { lanes := vecOf fun l => vecOf fun i =>
      { val := (w (l.val * 8 + i.val)).setWidth 32, wt := BitVec.ofNat 16 (fldOf (w (l.val * 8 + i.val)) 47 32) }
    mask := (w 128).setWidth 16, aligned := (w 129).getLsbD 0 }

/-- A write to the register is in flight (R358). -/
def State.dBusy (s : State) (f i : Fin 8) : Bool := !(s.t.inFlight (.d f i)).isEmpty

def State.dreg (s : State) (f i : Fin 8) (k : Nat) : DReg :=
  if s.dBusy f i then s.freeD f k else (s.t.facet f).d.get i

/-- A distribution result: the points of the enabled lanes, the tag mask and the aligned bit (R342). -/
def State.dfly (s : State) (f d : Fin 8) (lat : Nat) (m : BitVec 16) (r : Fin 16 → DLane × Flags) (mask : BitVec 16)
    (aligned : Bool) : State :=
  (s.fly (.d f d) lat (.dist m { lanes := vecOf fun l => (r l).1, mask := mask, aligned := aligned }) Origin.dat).fsrFly
    f lat (laneFlags m (vecOf fun l => (r l).2))

/-- A fresh identifier as a mask, and the generator's step (R336, R342). -/
def State.freshTag (s : State) (f : Fin 8) : BitVec 16 × State :=
  ((1 : BitVec 16) <<< (s.t.facet f).tag.toNat, s.withT fun t => t.updFacet f fun c => { c with tag := c.tag + 1 })

/-! Making distributions (R345 to R348). -/

/-- A point mass: its bits are copied. -/
def pointMass (a : W32) : DLane := (Vector.replicate 8 Point.zero).set 0 { val := a, wt := 0x8000 }

def execDset (o : ODset) (s : State) : Out :=
  s.facets o.q fun f m s =>
    let a := s.fsrcF f o.ix 0 o.a
    let (tag, s) := s.freshTag f
    s.dfly f o.d 4 m (fun l => (pointMass (a.get l), 0)) tag true

def execDsmp (o : ODsmp) (s : State) : Out :=
  s.facets o.q fun f m s =>
    let vs : List Lanes := (List.range 8).map fun k => s.vreg f (.v (Fin.ofNat 32 (o.n.val + k))) k
    s.dfly f o.d 8 m (fun l => (smpLane (vs.map fun v => v.get l), 0)) 0 false

/-- DTAG writes no point. -/
def execDtag (o : ODtag) (s : State) : Out :=
  s.facets o.q fun f _ s =>
    let (tag, s) := s.freshTag f
    s.dfly f o.d 2 0 (fun _ => (voidLane, 0)) tag true

/-- The images of the enabled lanes: 64 bytes each (R348). -/
def imageReqs (base : W64) (m : BitVec 16) : List LaneReq := rowReqs base 64 m

/-- DLD on one facet, in the lanes of `m`. -/
def State.dld (s : State) (o : ODmem) (f : Fin 8) (m : BitVec 16) : State :=
  let (l, sc) := s.scope o.scope
  let rs := imageReqs (s.abAddr f o.ab o.ix o.ofs) m
  if rs.isEmpty then s.dfly f o.d 4 0 (fun _ => (voidLane, 0)) 0 false
  else if s.lanesHeld rs cLD .ld then s.hold
  else
    s.lanesIssue rs 64 false sc none fun k s =>
      s.loadLanes (.d f o.d) (.ldD f o.d) l sc (if s.ownWindow k then 3 else 4) (lanePieces k fun _ => [])

def execDld (o : ODmem) (s : State) : Out := s.facets o.q fun f m s => s.dld o f m

/-- DST on one facet, in the lanes of `m`. -/
def State.dst (s : State) (o : ODmem) (f : Fin 8) (m : BitVec 16) : State :=
  let (l, sc) := s.scope o.scope
  let d := s.dreg f o.d 0
  let rs := imageReqs (s.abAddr f o.ab o.ix o.ofs) m
  if rs.isEmpty then s
  else if s.lanesHeld rs cST .st then s.hold
  else
    s.lanesIssue rs 64 true sc none fun k s =>
      s.storeLanes l sc (lanePieces k fun i => imageOfLane (d.lanes.get (Fin.ofNat 16 i)))

def execDst (o : ODmem) (s : State) : Out := s.facets o.q fun f m s => s.dst o f m

/-! Pairing (R349 to R351). -/

/-- The case of a pairing. With a write to an operand in flight it is any one of the three (R358). -/
def State.pairCase (s : State) (f i j : Fin 8) (a b : DReg) : PairCase :=
  if s.dBusy f i || s.dBusy f j then
    (match (Config.freeWord s.fv (8192 + f.val)).toNat % 3 with
    | 0 => .independent
    | 1 => .indexed
    | _ => .approximated)
  else Sys2Proof.Machine.pairCase a b

def pairing (op : PairOp) (o : ODbin) (s : State) : Out :=
  s.facets o.q fun f m s =>
    let a := s.dreg f o.a 0
    let b := if o.a = o.b then a else s.dreg f o.b 1
    let c := s.pairCase f o.a o.b a b
    let approx := c == .approximated && m != 0
    if approx && (s.t.facet f).fcr then s.trap 0x29
    else
      let s := s.dfly f o.d 12 m (fun l => pairLane op c (a.lanes.get l) (b.lanes.get l)) (a.mask ||| b.mask) false
      if approx then s.fly (.fsr f) 12 (.w 64) Origin.dat else s

def execDadd (o : ODbin) (s : State) : Out := pairing .add o s
def execDsub (o : ODbin) (s : State) : Out := pairing .sub o s
def execDmul (o : ODbin) (s : State) : Out := pairing .mul o s
def execDmin (o : ODbin) (s : State) : Out := pairing .min o s
def execDmax (o : ODbin) (s : State) : Out := pairing .max o s

/-! Affine maps, mixtures and conditioning (R352 to R354). -/

def execDaff (o : ODaff) (s : State) : Out :=
  s.facets o.q fun f m s =>
    let a := s.dreg f o.a 0
    let x := s.fsrcF f o.ix 0 o.va
    let y := s.fsrcF f o.ix 1 o.vb
    s.dfly f o.d 4 m (fun l => affLane (a.lanes.get l) (x.get l) (y.get l)) a.mask a.aligned

def execDmix (o : ODmix) (s : State) : Out :=
  s.facets o.q fun f m s =>
    let a := s.dreg f o.a 0
    let b := if o.a = o.b then a else s.dreg f o.b 1
    let w := s.fsrcI f o.ix 0 o.w
    s.dfly f o.d 12 m (fun l => mixLane (a.lanes.get l) (b.lanes.get l) ((w.get l).toNat % 65536))
      (a.mask ||| b.mask) false

def execDcnd (o : ODaff) (s : State) : Out :=
  s.facets o.q fun f m s =>
    let a := s.dreg f o.a 0
    let x := s.fsrcF f o.ix 0 o.va
    let y := s.fsrcF f o.ix 1 o.vb
    s.dfly f o.d 8 m (fun l => cndLane (a.lanes.get l) (x.get l) (y.get l)) a.mask false

/-! Reading distributions as numbers (R355 to R357). -/

def execDmom (o : ODmom) (s : State) : Out :=
  s.facets o.q fun f m s =>
    let a := s.dreg f o.a 0
    let r (l : Fin 16) : List W32 × Flags := momLane (a.lanes.get l)
    let put (s : State) (k : Nat) : State :=
      s.fly (.v f (.v (Fin.ofNat 32 (o.vd.val + k)))) 8 (.lanes m (vecOf fun l => (r l).1.getD k 0)) Origin.dat
    ((List.range 4).foldl put s).fsrFly f 8 (laneFlags m (vecOf fun l => (r l).2))

def execDqnt (o : ODqnt) (s : State) : Out :=
  s.facets o.q fun f m s =>
    let a := s.dreg f o.a 0
    let b := s.fsrcI f o.ix 0 o.b
    s.lanewise f o.vd 5 m fun l => qntLane (a.lanes.get l) ((b.get l).toNat % 65536)

def execDcdf (o : ODqnt) (s : State) : Out :=
  s.facets o.q fun f m s =>
    let a := s.dreg f o.a 0
    let b := s.fsrcF f o.ix 0 o.b
    s.lanewise f o.vd 5 m fun l => cdfLane (a.lanes.get l) (b.get l)

end Sys2Proof.Machine
end

