-- ==== Sys2Proof/Machine/Port.lean ====
section
/-! DEFINITION. The collective-and-task port: the EK slot but for the mould commands (R317 to R333, R258 to R264). -/

namespace Sys2Proof.Machine

/-! Issue of a command that counts in kc (R311). Every EK command but DONE ends staging (R255). -/

structure EkReq where
  op : EkOp
  level : Level := 4
  scope : Nat := 4
  deferred : Bool := false

/-- The command takes its place among the EK commands of the task. -/
def State.issueEk (s : State) (r : EkReq) : State :=
  let grp := (s.scope .grp).1
  s.endStaging.withT fun t =>
    let e : Ek :=
      { id := t.seq, bundle := t.latch.addr, ins := t.latch.ins, root := t.dtroot, grp := grp, op := r.op, level := r.level, scope := r.scope
        deferred := r.deferred, status := none, waiting := false, done := [], got := [], p := t.pts, tmax := 0 }
    let t := t.release e.cls e.ranges false
    { t with eks := t.eks ++ [{ e with p := t.pts }], cnt := t.cnt.add .kc, seq := t.seq + 1 }

/-- Held while kc is full or a fence holds one of the command's classes. -/
def State.ekGo (s : State) (cls : BitVec 6) (ranges : List (Nat × Nat)) (go : State) : State :=
  if s.full .kc || s.fenced cls ranges false then s.hold else go

/-! Deferred commands (R317, R318, R260). -/

/-- TOKEN and SPAWN: trap 0x17 where nothing counted in kc can fall before DONE. -/
def State.deferGo (s : State) (bad : Option Nat) (go : State) : State :=
  if s.full .kc && !(s.t.eks.all (·.deferred)) then s.hold
  else
    match bad with
    | some c => s.trap c
    | none => if s.full .kc then s.trap 0x17 else go

def execToken (o : OTok) (s : State) : Out :=
  guarded o.g (fun s =>
    let (l, sc) := s.scope o.scope
    s.deferGo (if fldOf (s.cl 2) 63 32 ≠ 0 then some 0x26 else none)
      (s.issueEk { op := .token ((s.cl 2).setWidth 32) o.k, level := l, scope := sc, deferred := true })) s

def execSpawn (o : OKd) (s : State) : Out :=
  guarded o.g (fun s =>
    let a := s.cl 5
    s.deferGo (if farAddr a then some 0x31 else if a.toNat % 128 ≠ 0 then some 0x30 else none)
      (s.issueEk { op := .spawn o.d a.toNat, deferred := true })) s

/-- DONE (R319): no later bundle issues. DESIGN CHOICE, log entry 79: it prevails over a TRAP or an ERET of its bundle. -/
def execDone (o : OG) (s : State) : Out :=
  guarded o.g (fun s => if s.t.pend.isEmpty then s.setRun .doneWait else s.trap 0x11) s

/-! Groups (R320). The change of a JOIN or LEAVE is applied as it issues (log entry 15), so that kc rises and falls at
once; one that ends staging, or comes while the commit is on its way, follows the commit (R255). -/

/-- Whether a GBAR of the task is pending. -/
def Task.gbarPending (t : Task) : Bool := t.eks.any fun e => e.op == .gbar

/-- A change of membership still waits for the commit. -/
def Task.changePending (t : Task) : Bool := t.eks.any fun e => match e.op with | .join _ | .leave => true | _ => false

/-- A change of membership. -/
def State.changeGroup (s : State) (op : EkOp) : State :=
  if s.t.gbarPending then s.hold
  else
    s.ekGo 0 []
      (match s.t.stage.mode with
      | .staging | .committing => s.issueEk { op := op }
      | _ => s.applyChange op)

def execJoin (o : OJoinG) (s : State) : Out := guarded o.g (fun s => s.changeGroup (.join o.n)) s

def execLeave (o : OG) (s : State) : Out := guarded o.g (fun s => s.changeGroup .leave) s

/-- GBAR. That of a task in no group completes at once. -/
def execGbar (o : OG) (s : State) : Out :=
  guarded o.g (fun s =>
    s.ekGo 0 []
      (if s.t.id.group.isNone && !s.t.changePending then s.endStaging else s.issueEk { op := .gbar })) s

/-! Rings (R263): the address is checked and translated at issue. -/

def State.ringGo (s : State) (op : Tr → EkOp) : State :=
  let a := s.cl 0
  s.ekGo 0 []
    (if a.toNat % 64 ≠ 0 then s.trap 0x30
     else if farAddr a then s.trap 0x31
     else
       match s.look a.toNat 64 true none with
       | .ok tr => (s.touch a.toNat).issueEk { op := op tr }
       | why => s.stopAt (s.req a.toNat 6 4 true) why)

def execQres (o : OKd) (s : State) : Out := guarded o.g (fun s => s.ringGo fun tr => .qres o.d tr) s

def execQpub (o : OG) (s : State) : Out :=
  guarded o.g (fun s => s.ringGo fun tr => .qpub ((s.cl 1).setWidth 32) tr) s

def execQtake (o : OKd) (s : State) : Out := guarded o.g (fun s => s.ringGo fun tr => .qtake o.d tr) s

def execQfree (o : OG) (s : State) : Out := guarded o.g (fun s => s.ringGo fun tr => .qfree tr) s

/-! Messages (R323, R324). -/

/-- A byte count of 1 to 4,096. -/
def badLen (x : W64) : Bool := x.toNat < 1 || 4096 < x.toNat

def execKsend (o : OGS) (s : State) : Out :=
  guarded o.g (fun s =>
    let n := (s.cl 0).toNat
    let src := s.cl 5
    let bad := badLen (s.cl 0) || fldOf (s.cl 2) 63 32 != 0
    let (l, sc) := s.scope o.scope
    s.ekGo cKR (if bad then [] else [(src.toNat, n)])
      (if bad then s.trap 0x26
       else if farAddr src then s.trap 0x31
       else s.issueEk { op := .ksend ((s.cl 2).setWidth 32) src.toNat n, level := l, scope := sc })) s

def execKrecv (o : OKrecv) (s : State) : Out :=
  guarded o.g (fun s =>
    let n := (s.cl 0).toNat
    let dst := s.cl 6
    let bad := badLen (s.cl 0)
    let (l, sc) := s.scope o.scope
    s.ekGo cKW (if bad then [] else [(dst.toNat, n)])
      (if bad then s.trap 0x26
       else if farAddr dst then s.trap 0x31
       else s.issueEk { op := .krecv o.d dst.toNat n, level := l, scope := sc })) s

/-! Collectives (R325, R326). -/

def EType.bytes : EType → Nat
  | .fp32 | .int32 => 4 | .bf16 | .fp16 => 2 | .int8 => 1

/-- The command just issued by a member joins the instance that its node's count names, which opens with its first member (R325). -/
def State.joinColl (s : State) (comm rank size scope : Nat) (shape : CollShape) : State :=
  match s.node s.t.id.node with
  | none => s
  | some nd =>
    let ek := s.t.seq - 1
    let num := match nd.comms.find? fun x => x.1 == comm && x.2.1 == size with | some x => x.2.2 | none => 0
    let s := s.updNode nd.key fun n =>
      { n with comms := (comm, size, num + 1) :: n.comms.filter fun x => !(x.1 == comm && x.2.1 == size) }
    let me : Member :=
      { rank := rank, task := s.t.id.uid, ek := ek, dev := none, scope := scope, shape := shape, retries := 0, got := none
        ended := false }
    let mine (c : Coll) : Bool := c.comm == comm && c.size == size && c.num == num
    if s.colls.any mine then
      { s with colls := s.colls.map fun c => if mine c then { c with members := c.members ++ [me] } else c }
    else
      { s with
        colls := s.colls ++ [{ key := s.nextKey, comm := comm, size := size, num := num, started := false, status := 0
                               members := [me], order := [] }]
        nextKey := s.nextKey + 1 }

structure CollReq where
  g : Fin 16
  scope : Scope
  d : Fin 56
  kind : Fin 4
  rop : Rop
  et : EType

def collective (o : CollReq) (s : State) : Out :=
  guarded o.g (fun s =>
    let n := (s.cl 0).toNat
    let src := s.cl 5
    let dst := s.cl 6
    let c := s.cl 7
    let rank := fldOf c 47 32
    let size := fldOf c 63 48 + 1
    let e := EType.bytes o.et
    let bad := size ≤ rank || 2 ^ 32 ≤ n || n < 1 || n % e ≠ 0
    let (l, sc) := s.scope o.scope
    let (a, b) := collLens o.kind n rank size
    s.ekGo (cKR ||| cKW) (if bad then [] else [(src.toNat, a), (dst.toNat, b)])
      (if bad then s.trap 0x26
       else if farAddr src || farAddr dst then s.trap 0x31
       else if src.toNat % e ≠ 0 || dst.toNat % e ≠ 0 then s.trap 0x30
       else
         (s.issueEk { op := .coll o.kind o.rop o.et o.d n src.toNat dst.toNat (fldOf c 31 0) rank size
                      level := l, scope := sc }).joinColl (fldOf c 31 0) rank size sc { kind := o.kind, rop := o.rop, et := o.et, n := n })) s

def execKar (o : OKar) (s : State) : Out :=
  collective { g := o.g, scope := o.scope, d := o.d, kind := 0, rop := o.op, et := o.e } s
def execKag (o : OKag) (s : State) : Out :=
  collective { g := o.g, scope := o.scope, d := o.d, kind := 1, rop := .add, et := o.e } s
def execKrs (o : OKar) (s : State) : Out :=
  collective { g := o.g, scope := o.scope, d := o.d, kind := 2, rop := o.op, et := o.e } s
def execKbc (o : OKag) (s : State) : Out :=
  collective { g := o.g, scope := o.scope, d := o.d, kind := 3, rop := .add, et := o.e } s

/-! System commands (R330 to R333). Each is a release at its scope; the effect comes with INVALIDATION_COMPLETE, but mepoch
rises as the command issues (R305). -/

/-- mepoch rises in every partition. -/
def State.bumpAll (s : State) : State := (List.finRange 16).foldl State.bumpEpoch s

/-- TLBI and FLUSHCTX at task privilege, and an ASID above 255. -/
def State.sysGo (s : State) (addr : Option W64) (go : State) : State :=
  s.ekGo 0 []
    (if !s.t.id.system then s.trap 0x1A
     else if fldOf (s.cl 6) 63 8 ≠ 0 then s.trap 0x26
     else if (match addr with | some a => farAddr a | none => false) then s.trap 0x31
     else go)

def execTlbi (o : OTlbi) (s : State) : Out :=
  guarded o.g (fun s =>
    s.sysGo (if o.k = .page then some (s.cl 5) else none)
      (s.issueEk { op := .tlbi o.k ((s.cl 5).setWidth 57) ((s.cl 6).setWidth 8) })) s

def execFlushctx (o : OG) (s : State) : Out :=
  guarded o.g (fun s => s.sysGo none (s.bumpAll.issueEk { op := .flush ((s.cl 6).setWidth 8) })) s

def execIcinv (o : OGS) (s : State) : Out :=
  guarded o.g (fun s =>
    let (l, sc) := s.scope o.scope
    s.ekGo 0 []
      (if farAddr (s.cl 5) then s.trap 0x31
       else (s.bumpEpoch s.t.id.part).issueEk { op := .icinv ((s.cl 5).setWidth 57), level := l, scope := sc })) s

end Sys2Proof.Machine
end

