-- ==== Sys2Proof/Machine/Mould.lean ====
section
/-! DEFINITION. Moulds: MBEG, MGRD and MEND, what a recording notes of each bundle, and the record (R297 to R304). -/

namespace Sys2Proof.Machine

/-! Origins that are fixed (R299). -/

/-- Every argument of the origin is held by an eq guard. -/
def Origin.fixed (gs : List (Rel × Fin 6 × W64)) (o : Origin) : Bool :=
  !o.data && (List.finRange 6).all fun k => !o.args.getLsbD k.val || gs.any fun g => g.1 == .eq && g.2.1 == k

/-- REL of R302 between two values. -/
def Rel.holds (r : Rel) (a b : W64) : Bool :=
  match r with
  | .eq => a == b
  | .ne => a != b
  | .lt => a.slt b
  | .ge => !a.slt b
  | .ltu => a.ult b
  | .geu => !a.ult b

/-! The instructions (R298). -/

/-- The address of the record of a mould (R297). -/
def mouldAddr (m : W32) : Nat := m.toNat * 32768

/-- STATE of a mould's record. -/
def State.mouldNow (s : State) (m : W32) : Nat :=
  match s.tenantDword s.t.id.part (mouldAddr m) with
  | some d => fldOf d 63 60
  | none => 0

/-- A recording begins. One at a depth count other than 0, or after syllables other than those of BR, SA and SB, aborts
(R300). -/
def State.beginMould (s : State) (m : W32) : State :=
  let bad : Bool := s.t.mrec.impure || s.t.depth != 0
  let r : Recording := Recording.off
  let new : Recording := { r with state := .recording, mould := m, maddr := s.t.latch.addr, epoch := s.part.mepoch
                                  interval := s.t.bidx }
  let s := (s.mouldState s.t.id.part m 1).withT fun t => { t with mrec := new }
  if bad then s.abortMould 5 else s

/-- MBEG. A second one inside a region aborts the recording (R300). -/
def execMbeg (o : OG) (s : State) : Out :=
  guarded o.g (fun s =>
    let m : W32 := (s.cl 3).setWidth 32
    if fldOf (s.cl 3) 63 32 != 0 || m == 0 then s.trap 0x26
    else if s.t.mrec.state != RecState.off then s.endStaging.abortMould 5
    else
      match s.lookRange (mouldAddr m) 8 true none with
      | .stop va why => s.stopAt (s.req va 6 4 true) why
      | .ok parts =>
        let s := (s.touchRange (mouldAddr m) 8 s.t.dtroot).lookupParts parts
        if s.dev.cLost then s
        else
        match s.poisonIn 4 parts with
        | some line => s.consumePoison s.t.latch.ins line s.t.latch.addr
        | none =>
        let s := s.endStaging
        if s.mouldNow m = 1 then s.withT fun t => { t with mrec := { t.mrec with impure := true } }
        else s.beginMould m) s

/-- MGRD. -/
def execMgrd (o : OMgrd) (s : State) : Out :=
  guarded o.g (fun s =>
    let v := s.cl 4
    if fldOf v 63 32 ≠ 0 then s.trap 0x26
    else
      let s := s.endStaging
      if s.t.mrec.state ≠ .recording then s
      else if !Rel.holds o.rel (s.arg o.k) v then s.abortMould 3
      else
        let r := { s.t.mrec with guards := s.t.mrec.guards ++ [(o.rel, o.k, v)] }
        if 8 < r.guards.length || 32768 < r.bytes then s.abortMould 6 else s.withT fun t => { t with mrec := r }) s

/-- MEND closes the region. -/
def execMend (o : OG) (s : State) : Out :=
  guarded o.g (fun s =>
    let s := s.endStaging
    if s.t.mrec.state = .recording then s.withT fun t => { t with mrec := { t.mrec with state := .closed } } else s) s

/-! What a recording notes of a bundle (R299, R300, R303). -/

/-- The first word of a syllable, with guard 0. -/
def sylWord (i : Instr) : Nat :=
  match encode i with
  | some (_, w :: _) => w % 0x10000000
  | _ => 0

/-- The guard of a syllable that is not a facet's (R18). -/
def sylGuard (i : Instr) : Fin 16 :=
  match encode i with
  | some (_, w :: _) => Fin.ofNat 16 (w / 0x10000000)
  | _ => 0

/-- KIND of a command entry; none for a syllable that no entry is made for. -/
def entryKind (x : Syl) : Option Nat :=
  match x.kind, x.ins with
  | .em, _ => some 1
  | .et, _ => some 2
  | .ev, _ => some 3
  | .ec, _ => some 4
  | .ek, .mbeg _ | .ek, .mend _ | .ek, .mgrd _ | .ek, .done _ => none
  | .ek, _ => some 5
  | .br, .wait _ => some 6
  | _, _ => none

/-- KIND and SYL as a syllable. -/
def MouldEntry.decode (e : MouldEntry) : Option Syl :=
  let kind : Option Kind := match e.kind with
    | 1 => some .em | 2 => some .et | 3 => some .ev | 4 => some .ec | 5 => some .ek | 6 => some .br
    | _ => none
  kind.bind fun k =>
    match decodeSyl k [e.syl.toNat] with
    | some (some i, []) => some { kind := k, facets := [], ins := i }
    | _ => none

/-- The next group: an entry and those after it with INTERVAL 0. -/
def nextGroup : List MouldEntry → List MouldEntry × List MouldEntry
  | [] => ([], [])
  | e :: l => (e :: l.takeWhile fun x => x.interval == 0, l.dropWhile fun x => x.interval == 0)

/-- The staging registers of a class (R85, R303, R310). -/
def classRegs (k : Nat) : List (Fin 40) :=
  let range (a n : Nat) : List (Fin 40) := (List.range n).map fun i => Fin.ofNat 40 (a + i)
  match k with
  | 1 => range 8 4
  | 2 => range 0 8
  | 3 => range 12 4
  | 4 => range 16 16
  | 5 => range 32 8
  | _ => []

/-- Syllables that no region may hold (R300). -/
def impureSyl (x : Syl) : Bool :=
  match x.kind, x.ins with
  | .am, _ | .xf, _ | .f, _ | .xs, _ => true
  | _, .tfromv _ | _, .ttov _ => true
  | _, .spawn _ | _, .qres _ | _, .qtake _ | _, .krecv _ | _, .kar _ | _, .kag _ | _, .krs _ | _, .kbc _ => true
  | _, _ => false

/-- A syllable other than BR, SA and SB. -/
def farSyl (x : Syl) : Bool :=
  match x.kind with
  | .br | .sa | .sb => false
  | _ => true

/-- What decides a transfer besides its guard; none for another instruction. -/
def State.transferOrg (s : State) (i : Instr) : Option Origin :=
  match i with
  | .br _ | .call _ => some Origin.none
  | .brc o => some (s.srcOrg o.a)
  | .brq _ => some Origin.dat
  | .jmpi o | .calli o | .ret o => some (s.srcOrg o.a)
  | .loop o => some (s.entryOrg o.c.val)
  | _ => none

/-- Whether a syllable's guard decides what a recording holds. -/
def guardCounts (s : State) (x : Syl) : Bool :=
  (entryKind x).isSome || (s.transferOrg x.ins).isSome ||
    (match x.ins with | .movStaging _ | .movPatch _ => true | _ => false)

/-- A staging register as the image holds it: a patch, or a value. -/
def State.stgForm (s : State) (r : Fin 40) : W64 × Option (Fin 6 × BitVec 29) :=
  match (s.t.storg.get r).patch with
  | some p => (p.2.signExtend 64, some p)
  | none => (s.t.stg.get r, none)

def stgPair (r : Fin 40) (x : W64 × Option (Fin 6 × BitVec 29)) : W64 × W64 :=
  let (p, k) := match x.2 with
    | some q => (2 ^ 63, q.1.val)
    | none => (0, 0)
  (BitVec.ofNat 64 (p + k * 2 ^ 56 + r.val * 2 ^ 50), x.1)

/-- One command of a bundle enters the recording (R303). -/
def State.noteCmd (s : State) (k : Nat) (i : Instr) : State :=
  let r := s.t.mrec
  let differ := (classRegs k).filter fun x => s.stgForm x != r.image.get x
  let unpatched := (classRegs k).any fun x =>
    let o := s.t.storg.get x
    match o.patch with
    | some _ => !o.ok
    | none => s.stgForm x != r.image.get x && !o.org.fixed r.guards
  if unpatched then s.abortMould 4
  else
    let e : MouldEntry := { kind := k, interval := min 65535 (s.t.bidx - r.interval), syl := BitVec.ofNat 32 (sylWord i)
                            pairs := differ.map fun x => stgPair x (s.stgForm x) }
    let r := { r with image := differ.foldl (fun v (x : Fin 40) => v.set x (s.stgForm x)) r.image, entries := r.entries ++ [e]
                      interval := s.t.bidx }
    if 65535 < r.entries.length || 32768 < r.bytes then s.abortMould 6
    else s.withT fun t => { t with mrec := r }

/-- One syllable of a bundle in an open region. -/
def State.noteSyl (s : State) (x : Syl) : State :=
  let r := s.t.mrec
  if r.state ≠ .recording then s
  else
    let on := x.kind == .f || s.on (sylGuard x.ins)
    if guardCounts s x && !(s.t.porg.get (sylGuard x.ins)).fixed r.guards then s.abortMould 3
    else if !on then s
    else if impureSyl x then s.abortMould 5
    else
      match s.transferOrg x.ins, entryKind x with
      | some o, _ => if o.fixed r.guards then s else s.abortMould 3
      | none, some k => s.noteCmd k x.ins
      | none, none => s

/-- One syllable of a bundle between MEND and DONE: no command enters the record any more, but transfers and staging MOVs must still be
fixed, and no syllable other than BR, SA and SB may stand there (R300). -/
def State.noteClosed (s : State) (x : Syl) : State :=
  let gs := s.t.mrec.guards
  if s.t.mrec.state ≠ .closed then s
  else
    let on := x.kind == .f || s.on (sylGuard x.ins)
    let done := match x.ins with | .done _ => true | _ => false
    if (entryKind x).isNone && guardCounts s x && !(s.t.porg.get (sylGuard x.ins)).fixed gs then s.abortMould 3
    else if !on || done then s
    else if farSyl x then s.abortMould 5
    else
      match s.transferOrg x.ins with
      | some o => if o.fixed gs then s else s.abortMould 3
      | none => s

/-- The bundle that is about to issue, as a recording sees it: WAIT first, then the engines' order. -/
def State.observe (s : State) (l : List Syl) : State :=
  match s.t.mrec.state with
  | .recording => l.foldl State.noteSyl s
  | .closed => l.foldl State.noteClosed s
  | .off =>
    if l.any fun x => farSyl x && (x.kind == .f || s.on (sylGuard x.ins)) && (match x.ins with | .mbeg _ => false | _ => true)
    then s.withT fun t => { t with mrec := { t.mrec with impure := true } }
    else s

/-! The record (R301 to R304). -/

def Recording.image8 (x : W64) : List Byte := leBytes 8 x.toNat

/-- The record as bytes, with STATE as given. -/
def State.mouldBytes (s : State) (st : Nat) : List Byte :=
  let r := s.t.mrec
  let d (n : Nat) : List Byte := leBytes 8 n
  d (st * 2 ^ 60 + r.guards.length * 2 ^ 56 + r.pages.length * 2 ^ 51 + r.entries.length * 2 ^ 32 + Config.stepid) ++
    d ((asidOf s.t.dtroot).toNat * 2 ^ 56) ++ d r.epoch.toNat ++ d (s.t.id.nodeId.toNat * 2 ^ 32 + r.bytes) ++
    d r.maddr.toNat ++ d 0 ++ d 0 ++ d 0 ++
    (r.guards.flatMap fun g => d (g.1.code * 2 ^ 61 + g.2.1.val * 2 ^ 56) ++ d g.2.2.toNat) ++
    (r.pages.flatMap fun p => d (p.1 * 65536) ++ d (p.2.1 * 2 ^ 11 + p.2.2 * 2 ^ 8)) ++
    r.entries.flatMap fun e =>
      d (e.kind * 2 ^ 60 + e.pairs.length * 2 ^ 48 + e.interval * 2 ^ 32 + e.syl.toNat) ++
        e.pairs.flatMap fun p => d p.1.toNat ++ d p.2.toNat

/-- R304: the record is written at .dev, STATE last. -/
def State.writeMould (s : State) : Res :=
  if s.t.mrec.state ≠ .closed then .ok s
  else
    let a := mouldAddr s.t.mrec.mould
    let st := if s.part.mepoch = s.t.mrec.epoch then 2 else 7
    let b := s.mouldBytes 1
    (s.logBytes 6 s.t.latch.addr a b).bind fun s =>
      (s.logBytes 6 s.t.latch.addr a ((s.mouldBytes st).take 8)).bind fun s =>
        .ok (s.withT fun t => { t with mrec := Recording.off })

end Sys2Proof.Machine
end

