-- ==== Sys2Proof/Machine/Event.lean ====
section
/-! DEFINITION. What the events share: the task an event is about, and a core that is frozen; and the events of fetch,
memory, translation and faults (R114, R115, R119, R132, R133, R136, R233 to R253). An event that its rule does not enable
leaves the state as it is (log entry 16). -/

namespace Sys2Proof.Machine

/-- A step about a task: it stands in focus for the step alone. -/
def State.onTask (s : State) (u : Nat) (f : State → State) : State :=
  if s.hasTask u then (f (s.focus u)).focus s.t.id.uid else s

/-- A freeze stops a core, both its contexts and its engines (R57, R130). -/
def State.coreFrozen (s : State) : Bool := s.tasks.any fun x => x.id.core == s.t.id.core && x.frz.isSome

/-- A freeze other than one for a late reply stops the memory requests of a core too. DEDUCED, log entry 80: while a reply is
late they go on, since the reply may wait for them. -/
def State.enginesStop (s : State) : Bool :=
  s.tasks.any fun x => x.id.core == s.t.id.core && (match x.frz with | none | some (.reply _) => false | some _ => true)

def Task.live (t : Task) : Bool := t.run != .ended

def State.updEk (s : State) (id : Nat) (f : Ek → Ek) : State :=
  s.withT fun t => { t with eks := t.eks.map fun e => if e.id = id then f e else e }

/-! Drains (R133, R136). -/

def execTrapDrainEnd (u : Nat) (s : State) : Out :=
  .next (s.onTask u fun s =>
    match s.t.run with
    | .trapDrain r => if s.drained && !s.coreFrozen then s.finishTrap r else s
    | _ => s)

def execEretDrainEnd (u : Nat) (s : State) : Out :=
  .next (s.onTask u fun s =>
    match s.t.run with
    | .eretDrain => if s.drained && !s.coreFrozen then s.finishEret else s
    | _ => s)

/-! Fetch. -/

/-- A trap of the bundle at the pc, which has not been fetched whole. -/
def State.trapAtPc (s : State) (code : Nat) : State :=
  (s.withT fun t => { t with latch := { t.latch with addr := t.pc }, ran := [] }).trap code

/-- The same, unless a parcel that was fetched comes from a poisoned line: a machine check comes before a trap (R372, R378). -/
def State.trapFetched (s : State) (code : Nat) : State :=
  match s.badFetch with
  | some line => s.consumePoison none line s.t.pc
  | none => s.trapAtPc code

/-- What the demand fetch of the bundle at the pc still misses: the freeze goes on until every missing line is present (R114). -/
def State.refetch (s : State) : State :=
  match s.fetchBundle s.t.pc.toNat with
  | .stop f => s.freeze f
  | _ => s

/-- ICACHE_FILL: the missing line is present (R114). One that the lost host holds never comes (R235, R388). -/
def execIcacheFill (u : Nat) (s : State) : Out :=
  .next (s.onTask u fun s =>
    match s.t.frz with
    | some (.fetch va) =>
      if s.fetchGone va then s
      else
        let s := s.withT fun t => { t with frz := none }
        (match s.ilook va with
        | .ok pa key => (s.icacheFillLine key (pa / 128)).refetch
        | _ => s)
    | _ => s)

/-- INSTRUCTION_PREFETCH: within 512 bytes beyond the issuing bundle, along the sequential path or from a pending target
(R132). -/
def execInstructionPrefetch (u : Nat) (va : VAddr) (s : State) : Out :=
  .next (s.onTask u fun s =>
    let near (a : VAddr) : Bool := a.toNat ≤ va.toNat && va.toNat < a.toNat + 512
    if s.t.id.resident && s.t.live && !s.coreFrozen && (near s.t.pc || s.t.pend.any fun p => near p.target) then
      s.prefetch va.toNat
    else s)

/-! Memory. -/

/-- The task is frozen for a late reply. -/
def Task.awaits (t : Task) : Bool := match t.frz with | some (.reply _) => true | _ => false

/-- MEMORY_REPLY. A reply that reaches a frozen core is kept until the freeze ends, but for the one that the freeze waits for
(R57, R119). -/
def execMemoryReply (u : Nat) (s : State) : Out :=
  .next (s.onTask u fun s => if !s.coreFrozen || (s.t.awaits && !s.enginesStop) then s.reply else s)

/-- A task whose engine commands and accesses go on: not one that has left its core (R292). -/
def Task.works (t : Task) : Bool :=
  t.live && (match t.run with | .suspended | .parked _ false => false | _ => true)

/-- The engines of the current task's core move its accesses. -/
def State.engines (s : State) : Bool := s.t.works && !s.enginesStop

/-- The EK port moves a command of the current task: also while the task is away from its core. -/
def State.ekGoes (s : State) : Bool := s.t.live && !(s.t.id.resident && s.enginesStop)

def execPerformAccess (u : Nat) (s : State) : Out :=
  .next (s.onTask u fun s => if s.engines then s.performNext else s)

/-- The bulk write of a KRECV: it takes the oldest message of the mailbox (R324). -/
def State.krecvStep (s : State) (e : Ek) (d : Fin 56) (dst n : Nat) : State :=
  let first := s.t.eks.find? fun x => match x.op with | .krecv .. => true | _ => false
  if (first.map (·.id)) != some e.id || !s.t.bulkFree e.id then s
  else
    match s.node s.t.id.node with
    | none => s
    | some nd =>
      match nd.mbox with
      | [] => s.updEk e.id fun x => { x with waiting := true }
      | m :: rest =>
        let (s', ok) := s.ekWrite e dst (m.bytes.take n)
        if ok then
          let s' := s'.updNode s.t.id.node fun y => { y with mbox := rest }
          (s'.withT fun t =>
            { (t.ekEnd e.id).asyncS d (BitVec.ofNat 64 (m.bytes.length * 2 ^ 32 + m.sender.toNat)) with
              pts := max t.pts m.t
              kstat := if n < m.bytes.length then t.kstat ||| 0x10 else t.kstat })
        else s'

/-- BULK_ELEMENT_ACCESS: element `e` of command `c`. -/
def execBulkElementAccess (u c e : Nat) (s : State) : Out :=
  .next (s.onTask u fun s =>
    match s.t.cmds.find? fun x => x.id == c with
    | some x => if s.engines then s.bulkCmd x e else s
    | none =>
      match s.t.eks.find? fun x => x.id == c with
      | some x =>
        (match x.op with
        | .krecv d dst n => if s.ekGoes then s.krecvStep x d dst n else s
        | _ => s)
      | none => s)

/-- PROPAGATE_WRITE: the narrow write with this place in the order of entry goes one level out (R244). -/
def execPropagateWrite (w : Nat) (s : State) : Out :=
  .next (match s.mem.narrow.find? fun x => x.seq == w with
  | some x => if s.mayRaise x then s.raise1 w else s
  | none => s)

/-- WATCH_FIRE: the copy of the watched line is lost, by eviction or by the end of its lease (R150). A write fires the
watch in its own step (R253). -/
def execWatchFire (u : Nat) (s : State) : Out :=
  .next (s.onTask u fun s =>
    s.withT fun t => if t.watch.armed && t.live then { t with watch := { t.watch with fired := true } } else t)

/-! Translation (R233). -/

/-- A data walk's entry takes its place in the core's TLB and in the cluster's. -/
def State.dtlbFill (s : State) (e : TlbEnt) : State :=
  let c := s.core s.t.id.core
  let s := s.setCore { c with dtlb := tlbAdd 64 e c.dtlb }
  s.setCtlb (s.t.id.core / 8) (ctlbAdd e (s.ctlb (s.t.id.core / 8)))

/-- What a data TLB miss finds under a data root: the cluster's entry, or the walk's. -/
def State.dwalk (s : State) (root : W64) (va : Nat) : Walk :=
  match tlbFind (s.ctlb (s.t.id.core / 8)) (asidOf root) va with
  | some e => .leaf e
  | none => s.walk false (rootOf root) (asidOf root) va

/-- PAGE_WALK_COMPLETE: the freeze ends with the walk's entry, or goes on as a fault; a demand fetch without a translation
takes trap 0x08 (R115, R236). -/
def execPageWalkComplete (u : Nat) (s : State) : Out :=
  .next (s.onTask u fun s =>
    match s.t.frz with
    | some (.walk r) =>
      let go (s : State) : State :=
        match s.dwalk r.root r.va with
        | .leaf e => (s.withT fun t => { t with frz := none }).dtlbFill e
        | .bad c l e => s.freeze (.fault r c l e none)
      if (tlbFind (s.ctlb (s.t.id.core / 8)) (asidOf r.root) r.va).isSome then go s
      else s.endWalk false (rootOf r.root) r.va r.ins r.bundle go
    | some (.iwalk va) =>
      s.endWalk true (rootOf s.t.itroot) va.toNat none s.t.pc fun s =>
        let s := s.withT fun t => { t with frz := none }
        match s.iwalk va.toNat with
        | .leaf e => (s.itlbFill e).refetch
        | .bad .. => s.trapAtPc 0x08
    | _ => s)

/-! The fault service (R236, R237). -/

/-- A fault record. -/
def faultBytes (t : Task) (r : MemReq) (cause level : Nat) (entry : W64) : List Byte :=
  leBytes 8 (r.va % 2 ^ 57) ++
    leBytes 8 ((asidOf r.root).toNat * 2 ^ 56 + t.id.core * 2 ^ 47 + (if t.id.helper then 2 ^ 46 else 0) +
      cause * 2 ^ 42 + r.kind * 2 ^ 38 + r.scope * 2 ^ 34 + level * 2 ^ 31 + (if r.write then 2 ^ 30 else 0)) ++
    leBytes 8 entry.toNat ++ leBytes 8 (t.id.nodeId.toNat * 2 ^ 32)

/-- A core has one record posted at most. -/
def posted (t : Task) : Bool := match t.frz with | some (.fault _ _ _ _ (some _)) => true | _ => false

def State.faultPost (s : State) : State :=
  match s.t.frz with
  | some (.fault r c l e none) =>
    if s.tasks.any fun x => x.id.core == s.t.id.core && posted x then s
    else
      let base := fldOf (s.dev.fqbase.get (Fin.ofNat 4 (s.t.id.core / 96))) 51 12 * 4096
      let s := s.queueMet base (64 + 256 * 32)
      (match s.postPhys base 32 (faultBytes s.t r c l e) with
      | some (s, a) => s.freeze (.fault r c l e (some a))
      | none => s)
  | _ => s

def execFaultRecordPost (u : Nat) (s : State) : Out := .next (s.onTask u State.faultPost)

/-- The TLB entries of a page are dropped on a core and its cluster. -/
def State.dropPage (s : State) (asid : Byte) (va : Nat) : State :=
  let c := s.core s.t.id.core
  let drop (l : List TlbEnt) : List TlbEnt := l.filter fun e => !e.hits asid va
  let s := s.setCore { c with dtlb := drop c.dtlb }
  s.setCtlb (s.t.id.core / 8) (drop (s.ctlb (s.t.id.core / 8)))

/-- A denied access: a precise trap where it translates at issue, else the end of its node, with no routine entered. -/
def State.deny (s : State) (r : MemReq) : State :=
  let s := s.withT fun t => { t with frz := none }
  if r.atIssue then (s.withT fun t => { t with latch := { t.latch with addr := r.bundle } }).trap 0x33
  else
    State.endTrapped
      (s.withT fun t =>
        { t with trap := { t.trap with cause := causeWord 0x33 0, depth := BitVec.ofNat 13 t.depth, addr := r.bundle
                                       ret := r.bundle } }) s.t.id.uid

/-- FAULT_REPLY: retry, or deny. -/
def execFaultReply (u : Nat) (s : State) : Out :=
  .next (s.onTask u fun s =>
    match s.t.frz with
    | some (.fault r _ _ _ (some a)) =>
      let reply := fldOf (s.mem.hwDword (a + 24)) 1 0
      if reply = 0 then s
      else
      let s := s.meet (linesOf (a + 24) 8)
      if reply = 1 then (s.withT fun t => { t with frz := none }).dropPage (asidOf r.root) r.va
      else s.deny r
    | _ => s)

/-- The context waits for the host, which will not answer: its freeze names it, or the access that goes next reaches for it
(R235, R388). -/
def State.awaitsHost (s : State) : Bool :=
  let gone (a : Acc) : Bool := a.pieces.head?.any fun p =>
    match s.lookFirst p.trs p.va p.len a.root a.write (s.accNeed a) with
    | .stop _ .hostLost => true
    | _ => false
  s.dev.hostLost &&
    (match s.t.frz with
    | some .host => true
    | some (.fetch va) => s.fetchGone va
    | none | some (.reply _) => (s.t.acc.find? fun a => !s.t.accDone a).any gone
    | _ => false)

/-- FREEZE_WATCHDOG_EXPIRY: a freeze or a drain that lasts ends with a kill (R133, R235, R238). While a debugger halts
the task it pauses. -/
def execFreezeWatchdogExpiry (u : Nat) (s : State) : Out :=
  .next (s.onTask u fun s =>
    let drains := match s.t.run with | .trapDrain _ | .eretDrain => true | _ => false
    if s.t.run = .halted || !(s.t.frz.isSome || drains) then s
    else if s.awaitsHost then s.kill s.t.id.node .hostLost
    else s.kill s.t.id.node .check)

end Sys2Proof.Machine
end

