-- ==== Sys2Proof/Machine/EvRing.lean ====
section
/-! DEFINITION. The steps of rings (R258, R262, R263, R321). -/

namespace Sys2Proof.Machine

/-- The pointers and the bitmap of a descriptor line (R262). -/
structure Ring where
  rsv : W32
  pub : W32
  tak : W32
  fre : W32
  bm : W64
  deriving DecidableEq, Repr

def Ring.ofBytes (b : List Byte) : Ring :=
  let w (i : Nat) : W32 := BitVec.ofNat 32 (leNat ((b.drop (4 * i)).take 4))
  { rsv := w 1, pub := w 0, tak := w 3, fre := w 2, bm := BitVec.ofNat 64 (leNat ((b.drop 16).take 8)) }

def Ring.bytes (r : Ring) : List Byte :=
  leBytes 4 r.pub.toNat ++ leBytes 4 r.rsv.toNat ++ leBytes 4 r.fre.toNat ++ leBytes 4 r.tak.toNat ++
    leBytes 8 r.bm.toNat

/-- A pointer stands after another: the difference modulo 2^32, read as signed, is positive. -/
def after (a b : W32) : Bool := 0 < (a - b).toInt

/-- QRES: the slot reserved, if any. -/
def Ring.reserve (r : Ring) (n : Nat) : Option (W32 × Ring) :=
  if (r.rsv - r.fre).toNat < n && (r.rsv - r.pub).toNat < 64 then some (r.rsv, { r with rsv := r.rsv + 1 }) else none

/-- The bitmap shifts down over every published slot. -/
def Ring.settle : Nat → Ring → Ring
  | 0, r => r
  | k + 1, r => if r.bm.getLsbD 0 then Ring.settle k { r with bm := r.bm >>> 1, pub := r.pub + 1 } else r

/-- QPUB; none where the slot is outside PUB to RSV − 1, or already marked, or 64 or more past PUB, where no bit of BM stands for it
(DESIGN CHOICE, log entry 109). -/
def Ring.publish (r : Ring) (slot : W32) : Option Ring :=
  let i := (slot - r.pub).toNat
  if (r.rsv - r.pub).toNat ≤ i || 64 ≤ i || r.bm.getLsbD i then none
  else some (Ring.settle 64 { r with bm := r.bm ||| (1 : W64) <<< i })

/-- QTAKE: the slot taken, if any. -/
def Ring.take (r : Ring) : Option (W32 × Ring) :=
  if after r.pub r.tak then some (r.tak, { r with tak := r.tak + 1 }) else none

/-- QFREE. -/
def Ring.free (r : Ring) : Ring := if after r.tak r.fre then { r with fre := r.fre + 1 } else r

/-- The scope and the number of slots of a descriptor line; none for a bad one (R262). -/
def ringShape (b : List Byte) : Option (Nat × Nat) :=
  let d (i : Nat) : Nat := leNat ((b.drop (8 * i)).take 8)
  let w := d 3
  if 9 < bits w 19 16 || w / 2 ^ 20 ≠ 0 || d 4 ≠ 0 || d 5 ≠ 0 || d 6 ≠ 0 || d 7 ≠ 0 then none
  else some (bits w 19 16, bits w 15 0 + 1)

/-- The level of a scope code in a command's ring; .grp is that of its issue (R242). -/
def Ek.levelOf (e : Ek) (code : Nat) : Level :=
  match code with
  | 0 => 0
  | 1 => 1
  | 2 => 2
  | 3 => 3
  | 5 => e.grp
  | _ => 4

/-- Everything that an access of the task waits for at a release (R249): earlier accesses, and elements. -/
def Task.allBefore (t : Task) (id : Nat) : Bool :=
  t.clearBefore id && !(t.acc.any fun a => a.id < id && !t.accDone a)

/-- The step of command `e` may be taken: the steps of one task on one ring come in program order, after a commit that it ends
staging for (R255), and nothing passes an earlier acquire (R248, R263). -/
def State.ringReady (s : State) (e : Ek) (tr : Tr) : Bool :=
  s.ekGoes && s.t.bulkFree e.id &&
    !(s.t.eks.any fun x => x.id < e.id && (match x.op.ring with | some q => s.phys q.pa == s.phys tr.pa | none => false))

/-- The line as a ring step at a level finds it. -/
def State.ringLine (s : State) (l : Level) (tr : Tr) : List Byte := (s.readParts l [(tr, 64)]).1

/-- A changed line, written at the ring's scope, with the time of the step. -/
def State.ringWrite (s : State) (e : Ek) (l : Level) (tr : Tr) (rel : Bool) (r : Ring) : State × Nat :=
  let t := max e.p (s.rtsParts l [(tr, 64)] + 1)
  let w : WrAs := { rel := rel, bulk := false, t := t, id := e.id, cls := 0, va := none }
  let s := s.writeParts l w [(tr, 24)] r.bytes
  ((s.updEk e.id fun x => { x with tmax := max x.tmax t }).withT fun x => { x with wdone := max x.wdone t }, t)

/-- A step that ends with a value for a scalar register, or none (R127, R263). -/
def State.ringEnd (s : State) (e : Ek) (d : Option (Fin 56)) (v : W64) : State :=
  s.withT fun t =>
    let t := t.ekEnd e.id
    match d with
    | some d => t.asyncS d v
    | none => t

/-- A status bit of the task's EK work (R322). -/
def State.kstatSet (s : State) (b : Nat) : State :=
  s.withT fun t => { t with kstat := t.kstat ||| (1 : BitVec 16) <<< b }

/-- The line of a ring read whole at the ring's scope, which stands in the line itself: the scope that the line names when it is
read at that scope. DESIGN CHOICE, log entry 86: the search starts from the task's own view and takes five turns at most. -/
def State.ringAt (s : State) (e : Ek) (tr : Tr) : Nat → Level → Option (State × Level)
  | 0, l => (s.join l [(tr, 64)]).map fun s => (s, l)
  | k + 1, l =>
    (s.join l [(tr, 64)]).bind fun s' =>
      match ringShape (s'.ringLine l tr) with
      | none => some (s', l)
      | some (code, _) => if e.levelOf code = l then some (s', l) else s.ringAt e tr k (e.levelOf code)

/-- The destination of a ring command that returns a slot. -/
def EkOp.slotDst : EkOp → Option (Fin 56)
  | .qres d _ | .qtake d _ => some d
  | _ => none

/-- A ring step of the current task's command `c`, of a kind that `is` admits: `go` receives the level and the number of slots,
and answers none where the command waits. A bad descriptor changes nothing (R321); a poisoned line raises a machine check (R378). -/
def State.ringStep (s : State) (c : Nat) (is : EkOp → Bool) (go : State → Ek → Tr → Level → Nat → Option State) : State :=
  match s.t.eks.find? fun x => x.id == c && is x.op with
  | none => s
  | some e =>
    match e.op.ring with
    | none => s
    | some tr =>
      if !s.ringReady e tr then s
      else if s.hostGone tr then (if s.t.stuck || e.waiting then s else s.freeze .host)
      else
        match s.ringAt e tr 5 0 with
        | none => s
        | some (s', l) =>
          let s' := s'.lookupParts [(tr, 64)]
          if s'.dev.cLost then s'
          else
            match s'.poisonIn l [(tr, 64)], ringShape (s'.ringLine l tr) with
            | some line, _ => s'.consumePoison e.ins line e.bundle
            | none, none => (s.kstatSet 0).ringEnd e e.op.slotDst (BitVec.allOnes 64)
            | none, some (_, n) => (go s' e tr l n).getD (s.updEk e.id fun x => { x with waiting := true })

/-- RING_RESERVE_STEP: QRES. -/
def execRingReserveStep (u c : Nat) (s : State) : Out :=
  .next (s.onTask u fun s =>
    s.ringStep c (fun op => match op with | .qres .. => true | _ => false) fun s e tr l n =>
      some (match (Ring.ofBytes (s.ringLine l tr)).reserve n with
      | some (slot, r) => (s.ringWrite e l tr false r).1.ringEnd e e.op.slotDst (slot.setWidth 64)
      | none => s.ringEnd e e.op.slotDst (BitVec.allOnes 64)))

/-- RING_PUBLISH_STEP: QPUB, a release at the ring's scope. -/
def execRingPublishStep (u c : Nat) (s : State) : Out :=
  .next (s.onTask u fun s =>
    s.ringStep c (fun op => match op with | .qpub .. => true | _ => false) fun s e tr l _ =>
      let me := s.t.id.uid
      match if s.t.allBefore e.id then s.carry (fun w => w.task == me) l else none with
      | none => some s
      | some s =>
        let slot : W32 := match e.op with | .qpub x _ => x | _ => 0
        some (match (Ring.ofBytes (s.ringLine l tr)).publish slot with
        | some r => (s.ringWrite e l tr true r).1.ringEnd e none 0
        | none => (s.kstatSet 1).ringEnd e none 0))

/-- The step of QTAKE, an acquire; with no published slot it waits. -/
def State.takeStep (c : Nat) (s : State) : State :=
  s.ringStep c (fun op => match op with | .qtake .. => true | _ => false) fun s e tr l _ =>
    (Ring.ofBytes (s.ringLine l tr)).take.map fun (slot, r) =>
      let (s, t) := s.ringWrite e l tr false r
      (s.ringEnd e e.op.slotDst (slot.setWidth 64)).withT fun x => { x with pts := max x.pts t }

/-- RING_TAKE_STEP: QTAKE. -/
def execRingTakeStep (u c : Nat) (s : State) : Out := .next (s.onTask u (State.takeStep c))

/-- RING_FREE_STEP: QFREE. -/
def execRingFreeStep (u c : Nat) (s : State) : Out :=
  .next (s.onTask u fun s =>
    s.ringStep c (fun op => match op with | .qfree _ => true | _ => false) fun s e tr l _ =>
      let r := Ring.ofBytes (s.ringLine l tr)
      some ((if r.free = r then s else (s.ringWrite e l tr false r.free).1).ringEnd e none 0))

/-- The QTAKEs of a task that wait at a ring. -/
def Task.waitingTakes (t : Task) : List (Nat × Nat) :=
  (t.eks.filter fun e => e.waiting && (match e.op with | .qtake .. => true | _ => false)).map fun e => (t.id.uid, e.id)

/-- Every waiting QTAKE tests its ring afresh and takes a slot where it finds one: what follows at once the change that let it
(R258). The contexts come in ascending core number, the main one first (R263). -/
def State.takeAll (s : State) : State :=
  let ts := sortBy (fun t => 2 * t.id.core + (if t.id.helper then 1 else 0)) s.tasks
  (ts.flatMap Task.waitingTakes).foldl (fun s x => s.onTask x.1 (State.takeStep x.2)) s

end Sys2Proof.Machine
end

