-- ==== Sys2Proof/Machine/Issue.lean ====
section
/-! DEFINITION. The issue of the syllables of one bundle, or of one group of a cast: the order of their effects, the
stack faults that come first, and what is left of a bundle that does not issue (R36, R41, R53, R55, R245). -/

namespace Sys2Proof.Machine

/-- The order in which the syllables of one bundle take effect: that of the templates (R15), but the facets before XS,
and the engines in the order of R41. -/
def Kind.rank : Kind → Nat
  | .br => 0 | .sa => 1 | .sb => 2 | .am => 3 | .xf => 4 | .f => 5 | .xs => 6
  | .em => 7 | .et => 8 | .ev => 9 | .ec => 10 | .ek => 11

/-- The kinds that have a stack effect (R41). -/
def Kind.stacked : Kind → Bool
  | .em | .et | .ev | .ec => true
  | _ => false

/-- The stack faults of a bundle, decided before anything changes (R53). `l` holds its enabled syllables in the order of
R41, `n` is the depth count. -/
def bundleFault (t : Task) : List Instr → Nat → Option (Nat × Nat)
  | [], _ => none
  | i :: l, n =>
    let (pops, pushes, reach) := stackUse t n i
    match stackFault t.limitNow n pops pushes reach with
    | some f => some f
    | none => bundleFault t l (n - pops + pushes)

/-- What the issue of a bundle has come to: the state so far, and the strongest stop. Once a syllable with a stack effect has
stopped, `ahead` is the state in which those after it are tried: all the holds of the bundle come before its refusals (R53, R86). -/
structure Issuing where
  cur : State
  worst : Option State
  ahead : Option State

/-- The counter of an engine command (R147). -/
def countedIn : Instr → Option Cnt
  | .tld _ | .tst _ | .tgth _ | .mmag _ => some .tl
  | .cpget _ | .cpput _ => some .cp
  | _ => none

/-- The entries that a syllable has pushed without issuing: a gather's has the shape that its staging values and its other entries
give, every other one has none. -/
def State.assumedPush (s : State) (i : Instr) (pushes : Nat) : List Desc :=
  let given (v : W64) (f : Fmt → Desc) : List Desc :=
    match if fldOf v 63 5 = 0 then Fmt.ofCode v.toNat else none with
    | some x => [f x]
    | none => [{ fmt := .fp32, rows := 0, cols := 0 }]
  match i, s.t.atDepth 0, s.t.atDepth 1 with
  | .tgth _, some x, _ => given (s.tl 2) fun f => { fmt := f, rows := x.cols, cols := (s.tl 3).toNat }
  | .mmag _, some b, some x => given (s.mx 2) fun f => { fmt := if f == .int8 then .int32 else .fp32, rows := x.cols, cols := b.cols }
  | _, _, _ => List.replicate pushes { fmt := .fp32, rows := 0, cols := 0 }

/-- The stack effect of a syllable that has stopped, as the syllables after it find it. -/
def State.assumed (s : State) (i : Instr) : State :=
  let (pops, pushes, _) := stackUse s.t s.t.depth i
  s.issueCmd { reads := s.t.stk.map.take pops, pops := pops, push := s.assumedPush i pushes, cnt := countedIn i } fun e => .const e 0

/-- A syllable reads an entry without a shape, which one before it in its bundle has pushed without issuing: what its checks find
there is no refusal of it. A TTOV is refused for such a source whatever its shape (R86). -/
def State.readsUnknown (s : State) (i : Instr) : Bool :=
  let ds := match i with
    | .ttov _ => []
    | .tpick o => [o.d.toNat]
    | i => List.range (stackUse s.t s.t.depth i).1
  (ds.filterMap s.t.atDepth).any fun e => e.rows == 0

/-- A TRAP or a BRK of the bundle has taken effect. -/
def State.trapsAfter (s : State) : Bool := match s.t.run with | .trapDrain r => r.at_ != s.t.bidx | _ => false

/-- One more syllable, by the meaning `f`. A next state that stops the bundle leaves the state before it. Beside a TRAP or a BRK, which
stands first, a syllable that would trap has no effect (R175; DESIGN CHOICE, log entry 100). One that reads what a TLD or a CPGET
still pushes, whose page has not been translated yet, is not refused before that: the bundle waits for the walk (R86, R234). -/
def Issuing.step (a : Issuing) (x : Syl) (r : State → Out) : Host.Outcome Issuing Fault Refusal :=
  let tried := if Kind.stacked x.kind then a.ahead else none
  let base := tried.getD a.cur
  match r (base.withT fun t => { t with latch := { t.latch with facets := x.facets, ins := some x.ins } }) with
  | .next s =>
    let s := { s with fv := s.fv + 1 }
    let goes := s.stopRank = 0
    let (cur, worst) :=
      if (goes ∧ tried.isSome) ∨ (s.stopRank = 2 ∧ (a.cur.trapsAfter ∨ (tried.isSome ∧ base.readsUnknown x.ins))) then (a.cur, a.worst) else joinStop (a.cur, a.worst) s
    let ahead :=
      if !Kind.stacked x.kind then a.ahead else if goes then tried.map fun _ => s else some (base.assumed x.ins)
    .next { cur := { cur with fv := s.fv }, worst := worst, ahead := ahead }
  | .fault e => .fault e
  | .refused e => .refused e

/-- Syllables one after the other. -/
def Issuing.run (f : Instr → State → Out) : List Syl → Issuing → Host.Outcome Issuing Fault Refusal
  | [], a => .next a
  | x :: l, a =>
    match a.step x (f x.ins) with
    | .next a => Issuing.run f l a
    | .fault e => .fault e
    | .refused e => .refused e

/-- A bundle that does not issue leaves nothing but its stop: a trap that drains, a park in place, a hold, which leaves the
task running, or a freeze, also beside a TRAP, a BRK or a WPARK. `l` holds its enabled syllables, whose checks may fail beside the trap
(R372). -/
def State.stopped (s : State) (l : List Syl) (w : State) : State :=
  let s := { s with fv := w.fv }
  match w.stopRank, w.t.run with
  | 4, _ => s
  | 3, run => (s.setRun run).abortMould 8
  | 2, .trapDrain r => (s.setRun (.trapDrain { r with depth := s.t.depth })).withT fun t => { t with ran := l, ranAt := t.latch.addr }
  | _, _ => s.withT fun t => { t with frz := w.t.frz }

/-- The result of an issue attempt: `full` says that every syllable has taken effect. -/
structure Issued where
  full : Bool
  s : State

/-- The stack faults come before every other cause of a syllable; a bundle that takes one issues no syllable (R36, R53).
`base` is the state that a bundle which does not issue leaves. -/
def State.issueSyls (s base : State) (f : Instr → State → Out) (on : Syl → Bool) (l : List Syl) :
    Host.Outcome Issued Fault Refusal :=
  let st := (l.filter fun x => Kind.stacked x.kind && on x).map (·.ins)
  match bundleFault s.t st s.t.depth with
  | some (c, n) => .next { full := false, s := (base.withT fun t => { t with ran := [] }).trap c n }
  | none =>
    match Issuing.run f l { cur := s, worst := none, ahead := none } with
    | .next a =>
      (match a.worst with
      | some w => .next { full := false, s := base.stopped (l.filter on) { w with fv := a.cur.fv } }
      | none => .next { full := true, s := a.cur })
    | .fault e => .fault e
    | .refused e => .refused e

/-- The syllables of a bundle in the order in which they take effect. -/
def issueOrder (l : List Syl) : List Syl := sortBy (fun x => Kind.rank x.kind) l

/-! The order of one bundle's accesses (R245). -/

/-- Reads before writes; within each the AM access, the facets, the rows of ET, those of MMAG. -/
def State.accRank (s : State) (a : Acc) : Nat :=
  let within : Nat := match a.op with
    | .tld c | .tst c =>
      if s.t.cmds.any fun x => x.id == c && (match x.op with | .mmag .. => true | _ => false) then 2 else 1
    | _ => 0
  (if a.write then 3 else 0) + within

/-- A commit and the write that follows it stay together: the rank of a commit is that of the next access (R255). -/
def ranked (rank : Acc → Nat) : List Acc → List (Nat × Acc)
  | [] => []
  | a :: l =>
    let rest := ranked rank l
    match a.op, rest with
    | .commit, (n, b) :: _ => (n, a) :: (n, b) :: rest.drop 1
    | .commit, [] => [(5, a)]
    | _, _ => (rank a, a) :: rest

/-- The accesses of the bundle that has just issued take their places. -/
def State.orderAccs (s : State) : State :=
  let b := s.t.bidx
  let old := s.t.acc.filter fun a => a.iss != b
  let new := s.t.acc.filter fun a => a.iss == b
  let sorted := (sortBy (·.1) (ranked s.accRank new)).map (·.2)
  s.withT fun t => { t with acc := old ++ sorted }

end Sys2Proof.Machine
end

