-- ==== Sys2Proof/Machine/Tile.lean ====
section
/-! DEFINITION. The tile unit: the ET slot (R90 to R99). -/

namespace Sys2Proof.Machine

/-! Transfers (R90 to R93). -/

/-- The bytes that a row transfer may touch while its page's format is not known. -/
def wideRows (base pitch : W64) (rows cols : Nat) : List (Nat × Nat) :=
  if rows ≤ 64 ∧ cols ≤ 64 then rowRanges base.toNat pitch.toInt rows (4 * cols) else []

/-- The place of a tile transfer in program order. -/
def State.addRows (s : State) (op : AccOp) (write : Bool) (l : Level) (sc : Nat) (ps : List Piece) : State :=
  s.addAcc { op := op, write := write, level := l, scope := sc, acq := false, rel := false
             cls := if write then cST else cLD, loc := false, flight := none, pieces := ps }

/-- TLD (R90). -/
def execTld (o : OGS) (s : State) : Out :=
  guarded o.g (fun s =>
    s.tileGo { pops := 0, pushes := 1, reads := [], cnt := some .tl, eng := some .et } fun _ =>
      let base := s.tl 0
      let pitch := s.tl 1
      let n := (s.tl 2).toNat
      let m := (s.tl 3).toNat
      let (l, sc) := s.scope o.scope
      match s.pageAt base.toNat false with
      | .stop why =>
        if s.memHeld cLD (wideRows base pitch n m) false then s.hold else s.stopAt (s.req base.toNat 4 sc false) why
      | .ok f tr =>
        let len := f.rowBytes m
        if s.memHeld cLD (if n ≤ 64 then rowRanges base.toNat pitch.toInt n len else []) false then s.hold
        else
          match loadRefusal f base pitch (s.tl 2) (s.tl 3), s.rowStop tr base.toNat len false with
          | some c, _ => s.trap c
          | none, some why => s.stopAt (s.req base.toNat 4 sc false) why
          | none, none =>
            let id := s.t.seq
            ((s.touch base.toNat).issueCmd
              { reads := [], pops := 0, push := [{ fmt := f, rows := n, cols := m }], cnt := some .tl, level := l
                scope := sc } fun e => .tld e base.toNat pitch.toInt).addRows (.tld id) false l sc
              (rowPieces base.toNat pitch.toInt n len tr)) s

/-- TST (R91). -/
def execTst (o : OGS) (s : State) : Out :=
  guarded o.g (fun s =>
    s.tileGo { pops := 1, pushes := 0, reads := [0], cnt := some .tl, eng := some .et } fun es =>
      match es with
      | [x] =>
        let base := s.tl 0
        let pitch := s.tl 1
        let (l, sc) := s.scope o.scope
        (match s.pageAt base.toNat true with
        | .stop why =>
          if s.memHeld cST (wideRows base pitch x.rows x.cols) false then s.hold
          else s.stopAt (s.req base.toNat 4 sc true) why
        | .ok f tr =>
          let len := f.rowBytes x.cols
          if s.memHeld cST (rowRanges base.toNat pitch.toInt x.rows len) false then s.hold
          else if base.toNat % f.size ≠ 0 || pitch.toNat % f.size ≠ 0 then s.trap 0x27
          else if f.blocked && x.cols % f.blk ≠ 0 then s.stopAt (s.req base.toNat 4 sc true) (.fault 6)
          else
            match s.rowStop tr base.toNat len true with
            | some why => s.stopAt (s.req base.toNat 4 sc true) why
            | none =>
            let id := s.t.seq
            let (gens, t) := s.t.claimGens (if stochastic x.fmt f s.t.rm then x.rows * x.cols else 0)
            (((s.setT t).touch base.toNat).issueCmd
              { reads := [x.id], pops := 1, push := [], cnt := some .tl, level := l, scope := sc, gens := gens }
              fun _ => .tst x.id base.toNat pitch.toInt f.code).addRows (.tst id) true l sc
                (rowPieces base.toNat pitch.toInt x.rows len tr))
      | _ => s) s

/-- The requests of a gather, when its indices can be read already. -/
def Entry.gather (e : Entry) (base pitch bound : W64) (len : Nat) : Option (List Piece) :=
  if e.state = .filling then none else some (gatherPieces e.indices base.toNat pitch.toInt bound len)

/-- Fences and tile transfers that hold a gather. While its rows are not known, as where its own bundle pushes the entry of its
indices, any byte may be one of them (R250; DEDUCED, log entry 98). -/
def State.gatherHeld (s : State) (ps : Option (List Piece)) : Bool :=
  match ps with
  | some l => s.memHeld cLD (l.map fun p => (p.va, p.len)) false
  | none => s.fenced cLD [(0, 2 ^ 57)] false || s.rowsUnknown || !s.tileRows.isEmpty

/-- The rest of a gather at issue: the translation of its base (R234), the command, and its place in order. -/
def State.gatherIssue (s : State) (scope : Scope) (base : W64) (ps : Option (List Piece)) (r : CmdReq)
    (op : Nat → CmdOp) : State :=
  let (l, sc) := s.scope scope
  match s.look base.toNat 1 false none with
  | .ok _ =>
    let id := s.t.seq
    ((s.touch base.toNat).issueCmd { r with cnt := some .tl, level := l, scope := sc } op).addRows (.tld id) false l sc
      (ps.getD [])
  | why => s.stopAt (s.req base.toNat 4 sc false) why

/-- TGTH (R92). -/
def execTgth (o : OGS) (s : State) : Out :=
  guarded o.g (fun s =>
    s.tileGo { pops := 1, pushes := 1, reads := [0], cnt := some .tl, eng := some .et } fun es =>
      match es with
      | [i] =>
        let base := s.tl 0
        let pitch := s.tl 1
        let m := (s.tl 3).toNat
        (match (if fldOf (s.tl 2) 63 5 = 0 then Fmt.ofCode (s.tl 2).toNat else none) with
        | none => if s.gatherHeld none then s.hold else if i.isIndex then s.trap 0x26 else s.refuse
        | some f =>
          let ps := i.gather base pitch (s.tl 5) (f.rowBytes m)
          if s.gatherHeld ps then s.hold
          else if !i.isIndex then s.refuse
          else
            match loadRefusal f base pitch 1 (s.tl 3) with
            | some c => s.trap c
            | none =>
              s.gatherIssue o.scope base ps
                { reads := [i.id], pops := 1, push := [{ fmt := f, rows := i.cols, cols := m }] }
                fun e => .tgth i.id e base.toNat pitch.toInt (s.tl 5))
      | _ => s) s

/-! Renaming and marks (R94, R95, R58). -/

/-- TPICK: the one renaming that reads its source and pushes a copy. -/
def execTpick (o : ODep) (s : State) : Out :=
  guarded o.g (fun s =>
    let d := o.d.toNat
    s.tileGo { pops := 0, pushes := 1, reads := [d], reach := s.t.depth ≤ d, eng := some .et } fun es =>
      match es with
      | [x] => s.push1 es 0 { fmt := x.fmt, rows := x.rows, cols := x.cols } fun e => .tpick x.id e
      | _ => s) s

def execTrot (o : ODep) (s : State) : Out :=
  guarded o.g (fun s =>
    let d := o.d.toNat
    s.tileGo { pops := 0, pushes := 0, reads := [], reach := s.t.depth ≤ d } fun _ =>
      s.withT fun t => { t with stk := { t.stk with map := rotate t.stk.map d } }) s

def execTdrop (o : ODep) (s : State) : Out :=
  guarded o.g (fun s =>
    let n := o.d.toNat + 1
    s.tileGo { pops := n, pushes := 0, reads := [] } fun _ =>
      s.withT fun t => { t with stk := t.stk.popN n }) s

def execTmark (o : OMark) (s : State) : Out :=
  guarded o.g (fun s =>
    s.withT fun t => { t with stk := { t.stk with marks := t.stk.marks.set o.k (BitVec.ofNat 13 t.depth) } }) s

def execTunwind (o : OMark) (s : State) : Out :=
  guarded o.g (fun s =>
    let m := (s.t.stk.marks.get o.k).toNat
    let n := s.t.depth - m
    s.tileGo { pops := n, pushes := 0, reads := [], reach := s.t.depth < m } fun _ =>
      s.withT fun t => { t with stk := t.stk.popN n }) s

/-! Tiles made in place (R96 to R98). -/

def execTzero (o : OMake) (s : State) : Out :=
  guarded o.g (fun s =>
    s.tileGo { pops := 0, pushes := 1, reads := [], eng := some .et } fun es =>
      s.push1 es 0 { fmt := o.f, rows := o.r.val + 1, cols := o.c.val + 1 } fun e => .const e 0) s

/-- TFILL: the low bits of tl4. -/
def execTfill (o : OMake) (s : State) : Out :=
  guarded o.g (fun s =>
    s.tileGo { pops := 0, pushes := 1, reads := [], eng := some .et } fun es =>
      s.push1 es 0 { fmt := o.f, rows := o.r.val + 1, cols := o.c.val + 1 } fun e => .const e ((s.tl 4).setWidth 32)) s

def execTshape (o : OShape) (s : State) : Out :=
  guarded o.g (fun s =>
    s.tileGo { pops := 1, pushes := 1, reads := [0], eng := some .et } fun es =>
      match es with
      | [x] =>
        let r := o.r.val + 1
        let c := o.c.val + 1
        if r * c ≠ x.rows * x.cols || (x.fmt.blocked && c % x.fmt.blk ≠ 0) then s.refuse
        else s.push1 es 1 { fmt := x.fmt, rows := r, cols := c } fun e => .shape x.id e
      | _ => s) s

/-- TJOIN: Y at depth 0 below X's rows (.v) or to the right of its columns (.h). -/
def execTjoin (o : OJoin) (s : State) : Out :=
  guarded o.g (fun s =>
    s.tileGo { pops := 2, pushes := 1, reads := [0, 1], eng := some .et } fun es =>
      match es with
      | [y, x] =>
        let fits := if o.h then x.rows == y.rows && x.cols + y.cols ≤ 64 else x.cols == y.cols && x.rows + y.rows ≤ 64
        if x.fmt != y.fmt || !fits then s.refuse
        else
          s.push1 es 2
            { fmt := x.fmt, rows := if o.h then x.rows else x.rows + y.rows
              cols := if o.h then x.cols + y.cols else x.cols } fun e => .join x.id y.id e o.h
      | _ => s) s

/-- TFROMV: row i from logical facet i mod 8, read with the bundle's other reads. -/
def execTfromv (o : OFromv) (s : State) : Out :=
  guarded o.g (fun s =>
    s.tileGo { pops := 0, pushes := 1, reads := [], eng := some .et } fun es =>
      let rows : List Lanes := (List.range (o.r.val + 1)).map fun i =>
        s.vregU (Fin.ofNat 8 i) (.v (Fin.ofNat 32 (o.vb.val + i / 8))) (i / 8)
      s.push1 es 0 { fmt := o.f, rows := o.r.val + 1, cols := 16 } fun e => .fromv e rows) s

/-- The lanes of one row of a tile of 32-bit elements; those beyond its columns are zero. -/
def rowLanes (b : List Byte) : Lanes := vecOf fun l => BitVec.ofNat 32 (leNat ((b.drop (4 * l.val)).take 4))

/-- TTOV: its writes ignore the facets' guards and land at latency 6 (R99). -/
def execTtov (o : OTov) (s : State) : Out :=
  guarded o.g (fun s =>
    s.tileGo { pops := 1, pushes := 0, reads := [0], eng := some .et } fun es =>
      match es with
      | [x] =>
        if x.state = .filling || !(x.fmt == .fp32 || x.fmt == .int32) || x.rows ≠ o.r.val + 1 || 16 < x.cols then s.refuse
        else
          let s := s.issueCmd { reads := [x.id], pops := 1, push := [] } fun _ => .ttov x.id
          x.data.zipIdx.foldl (fun s r =>
            s.fly (.v (Fin.ofNat 8 r.2) (.v (Fin.ofNat 32 (o.vb.val + r.2 / 8)))) 6 (.lanes 0xFFFF (rowLanes r.1))
              Origin.dat) s
      | _ => s) s

end Sys2Proof.Machine
end

