-- ==== Sys2Proof/Machine/Matrix.lean ====
section
/-! DEFINITION. The matrix engine: the EM slot (R100 to R104), and the armed inversion (R360, R361). -/

namespace Sys2Proof.Machine

/-- The inversion that a matrix command carries, as finj stands (R361). -/
def Task.armed (t : Task) : Option Inj :=
  if t.finj.getLsbD 32 then
    some { row := fldOf t.finj 31 26, col := fldOf t.finj 25 20, chunk := fldOf t.finj 19 18, bit := fldOf t.finj 4 0 }
  else none

/-- A matrix command issues: it takes the inversion with it. -/
def State.issueMatrix (s : State) (r : CmdReq) (op : Nat → CmdOp) : State :=
  (s.issueCmd { r with inj := s.t.armed } op).withT fun t => { t with finj := t.finj &&& ~~~((1 : W64) <<< 32) }

/-- The format of the accumulator of a pair of operands (R80). -/
def accFmt (a : Fmt) : Fmt := if a == .int8 then .int32 else .fp32

/-- Whether A and B meet the rules of R100. -/
def mmFits (a b : Entry) : Bool := (chunkLen a.fmt b.fmt).isSome && a.cols == b.rows

/-- Whether C does. -/
def mmFitsC (a b c : Entry) : Bool :=
  c.rows == a.rows && c.cols == b.cols && (c.fmt.isInt == (a.fmt == .int8))

def prodDesc (a b : Entry) : Desc := { fmt := accFmt a.fmt, rows := a.rows, cols := b.cols }

def execMma (o : OG) (s : State) : Out :=
  guarded o.g (fun s =>
    s.tileGo { pops := 2, pushes := 1, reads := [0, 1], eng := some .em } fun es =>
      match es with
      | [b, a] =>
        if mmFits a b then
          s.issueMatrix { reads := [b.id, a.id], pops := 2, push := [prodDesc a b] } fun e => .mma a.id b.id none e none
        else s.refuse
      | _ => s) s

def execMmac (o : OG) (s : State) : Out :=
  guarded o.g (fun s =>
    s.tileGo { pops := 3, pushes := 1, reads := [0, 1, 2], eng := some .em } fun es =>
      match es with
      | [c, b, a] =>
        if mmFits a b && mmFitsC a b c then
          s.issueMatrix { reads := [c.id, b.id, a.id], pops := 3, push := [prodDesc a b] }
            fun e => .mma a.id b.id (some c.id) e none
        else s.refuse
      | _ => s) s

/-- MMACK: D, then the checksum tile S at depth 0 (R101). -/
def execMmack (o : OG) (s : State) : Out :=
  guarded o.g (fun s =>
    s.tileGo { pops := 3, pushes := 2, reads := [0, 1, 2], eng := some .em } fun es =>
      match es with
      | [c, b, a] =>
        if mmFits a b && mmFitsC a b c then
          s.issueMatrix
            { reads := [c.id, b.id, a.id], pops := 3
              push := [prodDesc a b, { fmt := accFmt a.fmt, rows := 2, cols := max a.rows b.cols }] }
            fun e => .mma a.id b.id (some c.id) e (some (e + 1))
        else s.refuse
      | _ => s) s

/-- MMAG (R102): the rows of A are gathered from memory and form no entry. -/
def execMmag (o : OGS) (s : State) : Out :=
  guarded o.g (fun s =>
    s.tileGo { pops := 2, pushes := 1, reads := [0, 1], cnt := some .tl, eng := some .em } fun es =>
      match es with
      | [b, i] =>
        let base := s.mx 0
        let pitch := s.mx 1
        (match (if fldOf (s.mx 2) 63 5 = 0 then Fmt.ofCode (s.mx 2).toNat else none) with
        | none => if s.gatherHeld none then s.hold else if i.isIndex then s.trap 0x26 else s.refuse
        | some f =>
          let ps := i.gather base pitch (s.mx 3) (f.rowBytes b.rows)
          if s.gatherHeld ps then s.hold
          else if !i.isIndex || !(chunkLen f b.fmt).isSome || (f.blocked && b.rows % f.blk ≠ 0) then s.refuse
          else if base.toNat % f.size ≠ 0 || pitch.toNat % f.size ≠ 0 then s.trap 0x27
          else
            let t := s.gatherIssue o.scope base ps
              { reads := [b.id, i.id], pops := 2, inj := s.t.armed
                push := [{ fmt := accFmt f, rows := i.cols, cols := b.cols }] }
              fun e => .mmag b.id i.id e base.toNat pitch.toInt f b.rows (s.mx 3)
            if t.stopRank = 0 then t.withT fun t => { t with finj := t.finj &&& ~~~((1 : W64) <<< 32) } else t)
      | _ => s) s

/-- MSCL (R103): FP32 whatever the operands. -/
def execMscl (o : OG) (s : State) : Out :=
  guarded o.g (fun s =>
    s.tileGo { pops := 2, pushes := 1, reads := [0, 1], eng := some .em } fun es =>
      match es with
      | [b, a] =>
        if mmFits a b then
          s.issueMatrix
            { reads := [b.id, a.id], pops := 2, push := [{ fmt := .fp32, rows := a.rows, cols := b.cols }] }
            fun e => .mscl a.id b.id e ((s.mx 2).setWidth 32)
        else s.refuse
      | _ => s) s

end Sys2Proof.Machine
end

