-- ==== Sys2Proof/Machine/TileVec.lean ====
section
/-! DEFINITION. The tile vector engine: the EV slot (R105 to R111). -/

namespace Sys2Proof.Machine

/-- The format of an elementwise result (R105); none for a blocked operand or a mix of kinds. -/
def kindFmt (fs : List Fmt) : Option Fmt :=
  match arithOf fs with
  | some .float => some .fp32
  | some .int => some .int32
  | none => none

def sameShape (x y : Entry) : Bool := x.rows == y.rows && x.cols == y.cols

/-- The elementwise commands of two operands (R105). -/
def tileBin2 (op : Fin 6) (o : OG) (s : State) : Out :=
  guarded o.g (fun s =>
    s.tileGo { pops := 2, pushes := 1, reads := [0, 1], eng := some .ev } fun es =>
      match es with
      | [y, x] =>
        (match (if sameShape x y then kindFmt [x.fmt, y.fmt] else none) with
        | some f => s.push1 es 2 { fmt := f, rows := x.rows, cols := x.cols } fun e => .bin op x.id y.id e
        | none => s.refuse)
      | _ => s) s

def execTadd (o : OG) (s : State) : Out := tileBin2 0 o s
def execTsub (o : OG) (s : State) : Out := tileBin2 1 o s
def execTmul (o : OG) (s : State) : Out := tileBin2 2 o s
def execTmaxe (o : OG) (s : State) : Out := tileBin2 3 o s
def execTmine (o : OG) (s : State) : Out := tileBin2 4 o s

def execTfma (o : OG) (s : State) : Out :=
  guarded o.g (fun s =>
    s.tileGo { pops := 3, pushes := 1, reads := [0, 1, 2], eng := some .ev } fun es =>
      match es with
      | [w, y, x] =>
        (match (if sameShape x y && sameShape x w then kindFmt [x.fmt, y.fmt, w.fmt] else none) with
        | some f => s.push1 es 3 { fmt := f, rows := x.rows, cols := x.cols } fun e => .fma x.id y.id w.id e
        | none => s.refuse)
      | _ => s) s

/-- TEXP2 (R106): m is a column of X's rows. -/
def execTexp2 (o : OG) (s : State) : Out :=
  guarded o.g (fun s =>
    s.tileGo { pops := 2, pushes := 1, reads := [0, 1], eng := some .ev } fun es =>
      match es with
      | [m, x] =>
        if kindFmt [x.fmt, m.fmt] == some .fp32 && m.rows == x.rows && m.cols == 1 then
          s.push1 es 2 { fmt := .fp32, rows := x.rows, cols := x.cols } fun e => .texp2 x.id m.id e ((s.tv 0).setWidth 32)
        else s.refuse
      | _ => s) s

/-- TRCP (R107). -/
def execTrcp (o : OG) (s : State) : Out :=
  guarded o.g (fun s =>
    s.tileGo { pops := 1, pushes := 1, reads := [0], eng := some .ev } fun es =>
      match es with
      | [x] =>
        if kindFmt [x.fmt] == some .fp32 then
          s.push1 es 1 { fmt := .fp32, rows := x.rows, cols := x.cols } fun e => .trcp x.id e
        else s.refuse
      | _ => s) s

/-- The reductions (R108): op 0 and 1 along rows, 2 along columns. -/
def tileReduce (op : Fin 3) (o : OG) (s : State) : Out :=
  guarded o.g (fun s =>
    s.tileGo { pops := 1, pushes := 1, reads := [0], eng := some .ev } fun es =>
      match es with
      | [x] =>
        (match kindFmt [x.fmt] with
        | some f =>
          s.push1 es 1
            { fmt := f, rows := if op = 2 then 1 else x.rows, cols := if op = 2 then x.cols else 1 }
            fun e => .red op x.id e
        | none => s.refuse)
      | _ => s) s

def execTrmax (o : OG) (s : State) : Out := tileReduce 0 o s
def execTrsum (o : OG) (s : State) : Out := tileReduce 1 o s
def execTcsum (o : OG) (s : State) : Out := tileReduce 2 o s

/-- TSCL (R109). -/
def execTscl (o : OG) (s : State) : Out :=
  guarded o.g (fun s =>
    s.tileGo { pops := 1, pushes := 1, reads := [0], eng := some .ev } fun es =>
      match es with
      | [x] =>
        (match kindFmt [x.fmt] with
        | some f =>
          s.push1 es 1 { fmt := f, rows := x.rows, cols := x.cols } fun e => .tscl x.id e ((s.tv 0).setWidth 32)
        | none => s.refuse)
      | _ => s) s

/-- TBC (R109): V's rows are 1 or rows, its columns 1 or cols, one of the two 1; a blocked V is one full row. -/
def execTbc (o : OShape) (s : State) : Out :=
  guarded o.g (fun s =>
    s.tileGo { pops := 1, pushes := 1, reads := [0], eng := some .ev } fun es =>
      match es with
      | [v] =>
        let r := o.r.val + 1
        let c := o.c.val + 1
        let fits := (v.rows == 1 || v.rows == r) && (v.cols == 1 || v.cols == c) && (v.rows == 1 || v.cols == 1)
        if !fits || (v.fmt.blocked && !(v.rows == 1 && v.cols == c)) then s.refuse
        else s.push1 es 1 { fmt := v.fmt, rows := r, cols := c } fun e => .tbc v.id e
      | _ => s) s

/-- The mode code of a conversion (R72, R110). -/
def Task.modeOf (t : Task) : RMode → Nat
  | .rn => 0 | .rz => 1 | .rs => 2 | .dyn => t.rm

/-- TCVT (R110). A command of the stochastic mode claims its generators' steps at issue (R74). -/
def execTcvt (o : OTcvt) (s : State) : Out :=
  guarded o.g (fun s =>
    s.tileGo { pops := 1, pushes := 1, reads := [0], eng := some .ev } fun es =>
      match es with
      | [x] =>
        if o.f.blocked && x.cols % o.f.blk ≠ 0 then s.refuse
        else
          let m := s.t.modeOf o.rm
          let (gens, t) := s.t.claimGens (if stochastic x.fmt o.f m then x.rows * x.cols else 0)
          (s.setT t).issueCmd
            { reads := [x.id], pops := 1, push := [{ fmt := o.f, rows := x.rows, cols := x.cols }], gens := gens }
            fun e => .tcvt x.id e m
      | _ => s) s

/-- TTRN (R111). -/
def execTtrn (o : OG) (s : State) : Out :=
  guarded o.g (fun s =>
    s.tileGo { pops := 1, pushes := 1, reads := [0], eng := some .ev } fun es =>
      match es with
      | [x] =>
        if x.fmt.blocked then s.refuse
        else s.push1 es 1 { fmt := x.fmt, rows := x.cols, cols := x.rows } fun e => .ttrn x.id e
      | _ => s) s

end Sys2Proof.Machine
end

