-- ==== Sys2Proof/Machine/EvStack.lean ====
section
/-! DEFINITION. The events of the tile stack and of the engines (R48 to R62, R76, R87, R311, R314, R330 to R333). -/

namespace Sys2Proof.Machine

/-! What a command computes from its latched sources. -/

/-- Rows, flags and underflow count; and the rows of the checksum tile of MMACK. -/
structure Result where
  rows : List (List Byte)
  fl : Flags := 0
  uf : Nat := 0
  check : List (List Byte) := []

def Result.ofPair (x : List (List Byte) × Flags) : Result := { rows := x.1, fl := x.2 }

/-- A conversion under the controls that the command read at issue (R75). -/
def Cmd.convert (c : Cmd) (x : Tile) (f : Fmt) (mode : Nat) : Result :=
  let (rows, fl, uf, _) := tileCvt x f mode (c.fctl.getLsbD 2) c.fscsel.toNat c.gens
  { rows := rows, fl := fl, uf := uf }

/-- The inversion a command carries, where its place exists (R361). -/
def injFor (j : Option Inj) (m n k l : Nat) : Option Inj :=
  match j with
  | some x => if x.row < m && x.col < n && x.chunk < (k + l - 1) / l then some x else none
  | none => none

def chunkOf (a b : Tile) : Nat := (chunkLen a.fmt b.fmt).getD 16

/-- The chunk sums of R81 and R82 as an accumulator tile. -/
def mmResult (j : Option Inj) (a b : Tile) (c : Option Tile) : List (List Byte) × Flags :=
  wordTile (mmAcc (chunkOf a b) (injFor j a.rows b.cols a.cols (chunkOf a b)) a b c)

/-- The result of a command whose sources are latched. -/
def Task.result (t : Task) (c : Cmd) : Result :=
  let tile (e : Nat) : Tile := match t.entry e with
    | some x => x.tile
    | none => { fmt := .fp32, rows := 0, cols := 0, data := [] }
  let mode := fldOf (c.fctl.setWidth 64) 1 0
  match c.op with
  | .tst x _ _ f | .cpput x _ _ f =>
    (match Fmt.ofCode f with
    | some f => c.convert (tile x) f mode
    | none => { rows := [] })
  | .tpick x _ => { rows := (tile x).data }
  | .shape x e => { rows := tileShape (tile x) (tile e).rows (tile e).cols }
  | .join x y _ h => { rows := tileJoin (tile x) (tile y) h }
  | .mma a b k _ check =>
    let r := mmResult c.inj (tile a) (tile b) (k.map tile)
    (match check with
    | some _ =>
      let s := wordTile (mmCheck (chunkOf (tile a) (tile b)) (tile a) (tile b))
      { rows := r.1, fl := r.2 ||| s.2, check := s.1 }
    | none => .ofPair r)
  | .mscl a b _ sc =>
    let l := chunkOf (tile a) (tile b)
    let acc := mmAcc l (injFor c.inj (tile a).rows (tile b).cols (tile a).cols l) (tile a) (tile b) none
    .ofPair (wordTile (acc.map fun r => r.map (msclEl ((tile a).fmt == .int8) sc)))
  | .bin op x y _ => .ofPair (tileBin op (tile x) (tile y))
  | .fma x y w _ => .ofPair (tileFma (tile x) (tile y) (tile w))
  | .texp2 x m _ k => .ofPair (tileExp2 (tile x) (tile m) k)
  | .trcp x _ => .ofPair (tileRcp (tile x))
  | .red op x _ => .ofPair (tileRed op (tile x))
  | .tscl x _ k => .ofPair (tileScl (tile x) k)
  | .tbc v e => { rows := tileBc (tile v) (tile e).rows (tile e).cols }
  | .tcvt x e m => c.convert (tile x) (tile e).fmt m
  | .ttrn x _ => { rows := tileTrn (tile x) }
  | _ => { rows := [] }

/-- Where the inversion of a matrix command falls outside, the command carries none. -/
def Task.injKept (t : Task) (c : Cmd) : Option Inj :=
  match c.op with
  | .mma a b .. | .mscl a b .. =>
    (match t.entry a, t.entry b with
    | some x, some y => injFor c.inj x.rows y.cols x.cols ((chunkLen x.fmt y.fmt).getD 16)
    | _, _ => none)
  | .mmag b i _ _ _ f k _ =>
    (match t.entry i, t.entry b with
    | some x, some y => injFor c.inj x.cols y.cols k ((chunkLen f y.fmt).getD 16)
    | _, _ => none)
  | _ => c.inj

/-! Entries read. -/

/-- None of the entries that a command reads is filling, and each stands at the bench (R50). -/
def Task.sourcesReady (t : Task) (c : Cmd) : Bool :=
  c.reads.all fun id => match t.entry id with | some e => e.state != .filling && e.level == 0 | none => true

/-- A command has latched its sources (R54). -/
def Task.unread (t : Task) (c : Cmd) : Task :=
  { t with stk := c.reads.foldl (fun (k : Stack) id => k.alter id Entry.latchedBy) t.stk }

/-- The rows of a command by number; those of S count from 64. -/
def Result.keyed (r : Result) : List (Nat × List Byte) :=
  r.rows.zipIdx.map (fun x => (x.2, x.1)) ++ r.check.zipIdx.map fun x => (64 + x.2, x.1)

/-- The requests of a gather whose indices are latched: they take the place that the command holds in program order. -/
def State.gatherNow (s : State) (c : Cmd) (i : Nat) (base pitch : Int) (bound : W64) (len : Nat) : State :=
  let ps := match s.t.entry i with
    | some e => gatherPieces e.indices base pitch bound len
    | none => []
  s.withT fun t =>
    { t with
      acc := (t.acc.map fun a => if a.op = .tld c.id then { a with pieces := ps, span := ps.map fun p => (p.va, p.len) } else a).filter fun a =>
        !(a.op == .tld c.id && ps.isEmpty) }

/-- Whether a gather's requests are known from its issue. -/
def Task.gathered (t : Task) (c : Cmd) : Bool := t.acc.any fun a => a.op == .tld c.id && !(a.pieces.isEmpty && a.got.isEmpty)

/-- The step of ENTRY_LATCHED. -/
def State.latchCmd (s : State) (c : Cmd) : State :=
  match c.op with
  | .ttov _ => (s.dropCmd c.id).withT fun t => t.unread c
  | .tgth i e base pitch bound =>
    let len := match s.t.entry e with | some x => x.fmt.rowBytes x.cols | none => 0
    let s := if s.t.gathered c then s else s.gatherNow c i base pitch bound len
    (s.withT fun t => t.unread c).updCmd c.id fun x => { x with latched := true }
  | .mmag _ i _ base pitch f k bound =>
    let s := if s.t.gathered c then s else s.gatherNow c i base pitch bound (f.rowBytes k)
    s.updCmd c.id fun x => { x with latched := true }
  | _ =>
    let r := s.t.result c
    let j := s.t.injKept c
    let s := (s.withT fun t => t.unread c).updCmd c.id fun x =>
      { x with latched := true, got := r.keyed, fl := r.fl, uf := r.uf, inj := j }
    { s with fv := s.fv + 1 }

/-- A command that a task's engines may work on now. -/
def State.cmdNow (s : State) (c : Nat) : Option Cmd :=
  if s.t.works && !s.coreFrozen then s.t.cmds.find? fun x => x.id == c else none

/-- The poisoned line that a source of a command came back from. -/
def Task.badSource (t : Task) (c : Cmd) : Option Nat := c.reads.findSome? fun id => (t.entry id).bind (·.bad)

/-- ENTRY_LATCHED: command `c` has latched the entries it reads, and with them the error of one (R369, R378). -/
def execEntryLatched (u c : Nat) (s : State) : Out :=
  .next (s.onTask u fun s =>
    match s.cmdNow c with
    | some x =>
      if x.latched || x.reads.isEmpty || !s.t.sourcesReady x then s
      else
        match s.t.badSource x with
        | some line => s.consumePoison x.ins line x.bundle
        | none => s.latchCmd x
    | none => s)

/-! Entries filled. -/

/-- One row as TFILL and TZERO make it (R96). -/
def constRow (f : Fmt) (cols : Nat) (pat : W32) : List Byte :=
  if f.blocked then
    (List.replicate (cols / f.blk)
      (leBytes 2 0x7F00 ++ List.replicate (f.blk / 2) (BitVec.ofNat 8 (pat.toNat % 16 * 17)))).flatten
  else (List.replicate cols (leBytes (f.width / 8) pat.toNat)).flatten

/-- One row of TFROMV in a format of 32-bit elements. -/
def laneRow (x : Lanes) : List Byte := x.toList.flatMap fun w => leBytes 4 w.toNat

/-- The number under which a command holds row 0 of an entry it pushed: 64 for the checksum tile. -/
def Cmd.rowBase (c : Cmd) (id : Nat) : Nat := if c.op.pushes.head? = some id then 0 else 64

/-- Row `i` of an entry that a command pushed, as far as it has been made: read or computed, or known from the command. -/
def Cmd.row (c : Cmd) (e : Entry) (i : Nat) : List Byte :=
  match c.bytes (c.rowBase e.id + i), c.op with
  | some b, _ => b
  | none, .const _ pat => constRow e.fmt e.cols pat
  | none, .fromv _ rows => laneRow (rows.getD i (splat 0))
  | none, _ => zeroRow e.fmt e.cols

/-- The rows of an entry that a command pushed. -/
def Cmd.rowsFor (c : Cmd) (e : Entry) : List (List Byte) := (List.range e.rows).map (c.row e)

/-- Whether the last element of a command's entries can be written: at the bench (R50), once everything is read. -/
def Task.canFill (t : Task) (c : Cmd) : Bool :=
  c.op.pushes.all t.atBench &&
  match c.op with
  | .tld .. => !(t.acc.any fun a => a.op == .tld c.id)
  | .tgth .. => c.latched && !(t.acc.any fun a => a.op == .tld c.id)
  | .mmag .. => c.latched && t.sourcesReady c && !(t.acc.any fun a => a.op == .tld c.id)
  | .cpget .. => !c.latched && (List.range (c.count t)).all fun i => c.done.contains i
  | _ => c.latched

/-- The product of MMAG, whose left operand is the gathered rows (R102). -/
def Task.gatherProduct (t : Task) (c : Cmd) : Cmd :=
  match c.op with
  | .mmag b i _ _ _ f k _ =>
    let n := match t.entry i with | some x => x.cols | none => 0
    let bt : Tile := match t.entry b with
      | some x => x.tile
      | none => { fmt := .fp32, rows := 0, cols := 0, data := [] }
    let at_ : Tile := { fmt := f, rows := n, cols := k, data := (List.range n).map fun r => (c.bytes r).getD (zeroRow f k) }
    let r := Result.ofPair (mmResult c.inj at_ bt none)
    { c with got := r.keyed, fl := r.fl, inj := t.injKept c }
  | _ => c

/-- The step of ENTRY_READY. The counter of a command falls as its entry becomes ready, and its flags are seen from then on (R76, R87;
for MMAG DEDUCED, log entry 44). -/
def State.fillCmd (s : State) (c : Cmd) : State :=
  let c := s.t.gatherProduct c
  let fill (k : Stack) (id : Nat) : Stack := k.alter id fun e => e.filled (c.rowsFor e)
  let s := s.withT fun t => { t with stk := c.op.pushes.foldl fill t.stk }
  match c.op with
  | .cpget .. => s.updCmd c.id fun x => { x with latched := true }
  | op =>
    let s := s.withT fun t =>
      let t := if c.inj.isSome then { t with finj := t.finj ||| (1 : W64) <<< 63 } else t
      match op with
      | .tld .. | .tgth .. => { t with cnt := t.cnt.sub .tl }
      | .mmag .. => { t.unread c with cnt := t.cnt.sub .tl }
      | _ => t
    s.cmdDone c

/-- ENTRY_READY: command `c` writes the last element of the entries it pushed. -/
def execEntryReady (u c : Nat) (s : State) : Out :=
  .next (s.onTask u fun s =>
    match s.cmdNow c with
    | some x => if x.op.pushes.isEmpty || !s.t.canFill x then s else s.fillCmd x
    | none => s)

/-! Residence (R45 to R52, R61). -/

/-- Bytes of an entry (R39), in granules of 1 KiB. -/
def Entry.size (e : Entry) : Nat := e.rows * e.fmt.rowBytes e.cols
def Entry.granules (e : Entry) : Nat := (e.size + 1023) / 1024

/-- Granules in use on a level of the current task's core, by every task. -/
def State.levelUsed (s : State) (l : Fin 4) : Nat :=
  s.tasks.foldl (fun n x =>
    if x.id.core = s.t.id.core && !x.id.helper then
      n + (x.stk.entries.foldl (fun m e => if e.level = l then m + e.granules else m) 0)
    else n) 0

/-- A suspended task has an entry on a level of the current task's core. -/
def State.suspendedOn (s : State) (l : Fin 4) : Bool :=
  s.tasks.any fun x =>
    x.id.core == s.t.id.core && !x.id.helper && x.live && !x.works && x.stk.entries.any fun e => e.level == l

/-- The depth of an entry, or a depth beyond every other for one outside the map. -/
def Stack.depthOf (k : Stack) (id : Nat) : Nat := k.map.findIdx fun x => x == id

/-- The deepest entry that meets a test. -/
def Stack.deepest (k : Stack) (f : Entry → Bool) : Option Entry :=
  (k.entries.filter f).foldl (fun (b : Option Entry) e =>
    match b with
    | some x => if k.depthOf x.id < k.depthOf e.id then some e else some x
    | none => some e) none

/-- One entry changed. -/
def Stack.put (k : Stack) (id : Nat) (f : Entry → Entry) : Stack :=
  { k with entries := k.entries.map fun e => if e.id = id then f e else e }

def Stack.setLevel (k : Stack) (id : Nat) (l : Fin 4) : Stack := k.put id fun e => { e with level := l }

/-- The lowest free slot of the spill region. -/
def Stack.freeSlot (k : Stack) : Option Nat :=
  (List.range k.limit).find? fun i => !(k.entries.any fun e => e.level == 3 && !e.void && e.slot == i)

/-- The data slot and the descriptor slot of the spill region. DESIGN CHOICE, log entry 21: an entry takes the lowest free slot, and its
descriptor slot holds the word that tsdesc gives, then zeros. -/
def Stack.slotVa (k : Stack) (i : Nat) : Nat := k.base.toNat + i * 16384
def Stack.descVa (k : Stack) (i : Nat) : Nat := k.base.toNat + k.limit * 16384 + i * 64

/-! What bundles name (R51, R52, R55). -/

/-- The depth map as bundles ahead will find it; an entry that they push has no number yet. -/
structure MapSim where
  map : List (Option Nat)
  marks : Vector (BitVec 13) 8

def Stack.sim (k : Stack) : MapSim := { map := k.map.map some, marks := k.marks }

/-- The map after a syllable. -/
def MapSim.step (t : Task) (m : MapSim) (i : Instr) : MapSim :=
  match i with
  | .trot o => { m with map := rotate m.map o.d.toNat }
  | .tmark o => { m with marks := m.marks.set o.k (BitVec.ofNat 13 m.map.length) }
  | .tunwind o => { m with map := m.map.drop (m.map.length - (m.marks.get o.k).toNat) }
  | i =>
    let (pops, pushes, _) := stackUse t m.map.length i
    { m with map := List.replicate pushes none ++ m.map.drop pops }

/-- The entries at some depths. -/
def MapSim.at_ (m : MapSim) (ds : List Nat) : List Nat := ds.filterMap fun d => (m.map[d]?).bind id

/-- The entries that a syllable reads (R55). -/
def MapSim.reads (t : Task) (m : MapSim) (i : Instr) : List Nat :=
  match i with
  | .tpick o => m.at_ [o.d.toNat]
  | .trot _ | .tdrop _ | .tunwind _ => []
  | i => m.at_ (List.range (stackUse t m.map.length i).1)

/-- The entry that a TPICK, TROT or TST names (R52). -/
def MapSim.names (m : MapSim) (i : Instr) : List Nat :=
  match i with
  | .tpick o | .trot o => m.at_ [o.d.toNat]
  | .tst _ => m.at_ [0]
  | _ => []

/-- The entries that the syllables of a bundle read or name, in order, and the map after them. -/
def MapSim.over (t : Task) (f : MapSim → Instr → List Nat) : List Instr → MapSim → List Nat × MapSim
  | [], m => ([], m)
  | i :: l, m =>
    let (r, m') := MapSim.over t f l (m.step t i)
    (f m i ++ r, m')

/-- The syllables of a bundle that have a stack effect, by the guards as they stand. -/
def State.stackSyls (s : State) (l : List Syl) : List Instr :=
  ((issueOrder l).filter fun x => Kind.stacked x.kind && s.on (sylGuard x.ins)).map (·.ins)

/-- The bundles fetched from an address on, `n` at most, along the sequential path and the pending transfers. -/
def State.fetchedAhead (s : State) : Nat → Nat → Nat → List (List Instr)
  | 0, _, _ => []
  | n + 1, va, b =>
    match s.fetchBundle va with
    | .ok hp slots =>
      (match decodeBundle s.t.id.helper hp.toNat (slots.map (·.toNat)) with
      | some x =>
        let next := match s.t.pend.find? fun p => p.due == b with
          | some p => p.target.toNat
          | none => (va + 8 * (1 + x.hdr.npar)) % 2 ^ 57
        s.stackSyls x.syls :: s.fetchedAhead n next (b + 1)
      | none => [])
    | _ => []

/-- The groups of a cast, `n` at most. -/
def State.castAhead (s : State) : Nat → List MouldEntry → List (List Instr)
  | 0, _ => []
  | n + 1, l =>
    match nextGroup l with
    | ([], _) => []
    | (g, rest) => s.stackSyls (g.filterMap MouldEntry.decode) :: s.castAhead n rest

/-- What the bundles ahead need: the entries that the bundle at the pc reads, the latches that its pushes need, and the entries that
the 16 bundles fetched after it name, in the order in which the bundles need them. -/
structure Ahead where
  now : List Nat
  pushes : Nat
  soon : List Nat

def State.lookAhead (s : State) : Ahead :=
  let bundles : List (List Instr) :=
    if s.t.run != .running then []
    else
      match s.t.cast with
      | some c => s.castAhead 17 c.left
      | none => s.fetchedAhead 17 s.t.pc.toNat s.t.bidx
  match bundles with
  | [] => { now := [], pushes := 0, soon := [] }
  | x :: l =>
    let (now, m) := MapSim.over s.t (MapSim.reads s.t) x s.t.stk.sim
    let soon := l.foldl (fun (acc : List Nat × MapSim) y =>
      let (r, m) := MapSim.over s.t MapSim.names y acc.2
      (acc.1 ++ r, m)) ([], m)
    { now := now, pushes := x.foldl (fun n i => n + (stackUse s.t 0 i).2.1) 0, soon := soon.1 }

/-- The entry that sinks next, if any (R51). With a latch free, an entry that the bundle at the pc reads or that the bundles
ahead name stays. DEDUCED, log entry 81: with no latch free for a push of the bundle at the pc, an entry that this bundle reads
goes only where no other can and no latch is free at all, since it would rise again at once. -/
def State.sinkNext (s : State) : Option Entry :=
  let a := s.lookAhead
  let ready (e : Entry) : Bool := e.level == 0 && e.state == .ready
  let other := s.t.stk.deepest fun e => ready e && !a.now.contains e.id
  if 8 ≤ s.benchUsed then other.or (s.t.stk.deepest ready)
  else if 8 < s.benchUsed + a.pushes then other
  else if 6 < s.benchUsed then s.t.stk.deepest fun e => ready e && !a.now.contains e.id && !a.soon.contains e.id
  else none

/-- The entry that rises next, if any (R52): one that a command in flight waits for, one that the bundle at the pc reads, one
that the bundles ahead name, into any free latch; and with at most 5 entries on the bench one of depth less than 8. -/
def State.riseNext (s : State) : Option Nat :=
  let t := s.t
  let is (f : Entry → Bool) (id : Nat) : Bool := match t.entry id with | some e => e.level != 0 && f e | none => false
  let a := s.lookAhead
  let resumed := (t.cmds.flatMap fun c => c.reads ++ c.op.pushes).filter (is fun e => e.state != .ready)
  if 8 ≤ s.benchUsed then none
  else
    ((resumed ++ a.now ++ a.soon).find? (is fun _ => true)).or
      (if s.benchUsed ≤ 5 then (t.stk.map.take 8).find? (is fun _ => true) else none)

/-- The entry of another format that an FP32 or INT32 entry displaces when it finds level 1 full (R51). DESIGN CHOICE, log entry
116: another format is one that is neither FP32 nor INT32, so an FP32 entry never displaces an INT32 one, nor the reverse. -/
def State.displaced (s : State) (e : Entry) : Option Entry :=
  let wide (f : Fmt) : Bool := f == .fp32 || f == .int32
  if s.levelUsed 1 + e.granules ≤ 512 || !wide e.fmt then none
  else s.t.stk.deepest fun x => x.level == 1 && !wide x.fmt

/-- Level 1 has room for an entry, and level 2, which is allocated by the same granules (DESIGN CHOICE, log entry 83). -/
def State.room1 (s : State) (e : Entry) : Bool := s.levelUsed 1 + e.granules ≤ 512
def State.room2 (s : State) (e : Entry) : Bool := s.levelUsed 2 + e.granules ≤ 64 * s.t.stk.res

/-- The level whose suspended entries leave before an entry of the running task sinks (R61). -/
def State.suspendedFirst (s : State) (e : Entry) : Option (Fin 4) :=
  if s.suspendedOn 0 then some 0
  else if s.room1 e then none
  else if s.suspendedOn 1 then some 1
  else if s.suspendedOn 2 && !s.room2 ((s.displaced e).getD e) then some 2
  else none

/-! Movement. -/

/-- One access of level 3: kind 7, at scope TASK, charged to the bundle that pushed the entry (R48, R49, R236). -/
def State.spillAt (s : State) (e : Entry) (va n : Nat) (write : Bool) (go : List (Tr × Nat) → State → Res) : Res :=
  match s.lookRange va n write none with
  | .ok parts =>
    let s := (s.touchRange va n s.t.dtroot).lookupParts parts
    if s.dev.cLost then .stop s else go parts s
  | .stop a why =>
    .stop (if s.t.stuck then s
      else s.stopAt { root := s.t.dtroot, va := a, kind := 7, scope := 0, write := write, atIssue := false, bundle := e.bundle
                      ins := none } why)

/-- The bytes that were stored last in translated parts, by any agent. -/
def State.storedParts (s : State) (parts : List (Tr × Nat)) : List Byte × Nat :=
  parts.foldl (fun acc x =>
    let (b, w) := s.mem.latestBytes x.1.key (s.phys x.1.pa) x.2
    (acc.1 ++ b, max acc.2 w)) ([], 0)

/-- The command that pushed an entry which is filling, with the rows that its accesses have read so far. -/
def Task.filler (t : Task) (e : Entry) : Option Cmd :=
  if e.state = .filling then
    (t.cmds.find? fun c => c.id == e.cmd).map fun c =>
      { c with got := c.got ++ ((t.acc.find? fun a => a.op == .tld c.id).elim [] (·.got)) }
  else none

/-- The contents of an entry: those of a filling one are partial (R60). The gathered rows of MMAG are no part of its entry. -/
def Task.contents (t : Task) (e : Entry) : List (List Byte) :=
  match t.filler e with
  | some c => (match c.op with | .mmag .. => zeroTile e.fmt e.rows e.cols | _ => c.rowsFor e)
  | none => e.data

/-- An entry written to the spill region. -/
def State.spill (s : State) (e : Entry) : State :=
  if e.void then s
  else
    match s.t.stk.freeSlot with
    | none => s
    | some i =>
      let put (b : List Byte) (parts : List (Tr × Nat)) (s : State) : Res :=
        let w : WrAs :=
          { rel := false, bulk := false, t := max s.t.pts (s.rtsParts 0 parts + 1), id := 0, cls := 0, va := none }
        .ok (s.writeParts 0 w parts b)
      match (s.spillAt e (s.t.stk.slotVa i) e.size true (put (s.t.contents e).flatten)).bind fun s =>
          s.spillAt e (s.t.stk.descVa i) 64 true (put (leBytes 64 e.desc)) with
      | .stop s => s
      | .ok s =>
        s.withT fun t => { t with stk := t.stk.put e.id fun x => { x with level := 3, slot := i, data := [] } }

/-- A level below that has room, for an entry that leaves a level. An entry on level 2 is held apart from the local store, whose
bytes under the reservation keep what they held and show it again once the reservation is gone (DESIGN CHOICE, log entry 84). -/
def State.sinkTo (s : State) (e : Entry) (below : Fin 4) : State :=
  if below ≤ 1 && s.room1 e then s.withT fun t => { t with stk := t.stk.setLevel e.id 1 }
  else if below ≤ 2 && s.room2 e then s.withT fun t => { t with stk := t.stk.setLevel e.id 2 }
  else s.spill e

/-- An entry sinks, or the entry that it displaces makes room (R51). -/
def State.sink (s : State) (e : Entry) : State :=
  match s.displaced e with
  | some x =>
    let s := s.sinkTo x 2
    if s.room1 e then s.sinkTo e 1 else s
  | none => s.sinkTo e 1

/-- ENTRY_SINK: entry `c`, which is the one that sinks next, leaves the bench. -/
def execEntrySink (u c : Nat) (s : State) : Out :=
  .next (s.onTask u fun s =>
    match s.sinkNext with
    | some e => if e.id = c && s.t.works && !s.coreFrozen && s.suspendedFirst e = none then s.sink e else s
    | none => s)

/-- The rows of a filling entry as they come back: those that its command held are replaced. -/
def Task.refillRows (t : Task) (e : Entry) (rows : List (List Byte)) : Task :=
  match t.filler e with
  | some c =>
    let base := c.rowBase e.id
    let made (i : Nat) : Bool := match c.op with
      | .mmag .. => false
      | .const .. | .fromv .. => true
      | _ => (c.bytes (base + i)).isSome
    let back : List (Nat × List Byte) := (rows.zipIdx.filter fun x => made x.2).map fun x => (base + x.2, x.1)
    let put (got : List (Nat × List Byte)) : List (Nat × List Byte) :=
      back ++ got.filter fun x => !(back.any fun y => y.1 == x.1)
    { t with
      cmds := t.cmds.map fun x => if x.id = c.id then { x with got := put c.got } else x
      acc := t.acc.map fun a => if a.op = .tld c.id then { a with got := put a.got } else a }
  | none => t

/-- An entry read back from the spill region, with the error of a poisoned line, which moves with it (R369, R378); a dead one is made
of zeros without an access. What any agent has stored there since replaces its bytes, whatever its t and its scope (R48; log entry
85). -/
def State.unspill (s : State) (e : Entry) : State :=
  let land (rows : List (List Byte)) (bad : Option Nat) (s : State) : State :=
    s.withT fun t =>
      let t := t.refillRows e rows
      { t with stk := t.stk.put e.id fun x =>
          { x with level := 0, slot := 0, void := false, bad := bad, data := if x.state = .filling then [] else rows } }
  if e.void then land (zeroTile e.fmt e.rows e.cols) none s
  else
    let take (parts : List (Tr × Nat)) (s : State) : Res :=
      let (b, w) := s.storedParts parts
      .ok (land (chunksOf (e.fmt.rowBytes e.cols) e.rows b) (e.bad.or (s.poisonIn 0 parts)) (s.refill parts (max s.t.pts w)))
    match s.spillAt e (s.t.stk.slotVa e.slot) e.size false take with
    | .ok s => s
    | .stop s => s

/-- ENTRY_RISE: entry `c`, which is the one that rises next, returns to a free latch of the bench. -/
def execEntryRise (u c : Nat) (s : State) : Out :=
  .next (s.onTask u fun s =>
    match s.t.entry c with
    | some e =>
      if s.riseNext = some c && s.t.works && !s.coreFrozen then
        (if e.level = 3 then s.unspill e else s.withT fun t => { t with stk := t.stk.setLevel e.id 0 })
      else s
    | none => s)

/-! Copy commands (R311, R314). -/

/-- Every element of a command has been performed. -/
def Cmd.whole (t : Task) (c : Cmd) : Bool :=
  (List.range (c.count t)).all fun i =>
    match c.elem t i with
    | some e => e.ready && (e.skip || c.done.contains i)
    | none => false

/-- COPY_COMMAND_COMPLETE: cp falls. -/
def execCopyCommandComplete (u c : Nat) (s : State) : Out :=
  .next (s.onTask u fun s =>
    match s.cmdNow c with
    | some x =>
      (match x.op with
      | .cpget .. => if x.latched then (s.cmdDone x).uncount .cp else s
      | .cpput .. => if x.latched && x.whole s.t then (s.cmdDone x).uncount .cp else s
      | .cpmc .. | .cpsort .. | .cpfill .. => if x.whole s.t then (s.cmdDone x).uncount .cp else s
      | _ => s)
    | none => s)

/-- BLOCK_READY: the last line of a block is present, its lines take one lease, and its flag becomes 2 (R229, R230, R314). -/
def execBlockReady (u c : Nat) (s : State) : Out :=
  .next (s.onTask u fun s =>
    match s.cmdNow c with
    | some x =>
      (match x.op with
      | .ldblk k _ _ again =>
        if x.whole s.t then
          let s := if again then s.cmdDone x else (s.cmdDone x).uncount .cp
          let b := s.t.blocks.get k
          if b.cmd = x.id && b.flag = 1 then
            let inst := instOf b.level s.t.id.uid s.t.id.core
            let s := { s with mem := b.lines.foldl (fun m l => m.lease b.level inst (l * 64) 64 x.tmax (some (s.t.id.uid, s.t.id.core))) s.mem }
            s.setFlag s.t.id.uid k { b with flag := 2, lease := x.tmax + Config.lease }
          else s
        else s
      | _ => s)
    | none => s)

/-! System commands (R330 to R333). -/

/-- Every TLB entry that meets a test is dropped, on every core and cluster. -/
def State.dropTlbs (s : State) (f : TlbEnt → Bool) : State :=
  { s with
    cores := s.cores.map fun c =>
      { c with dtlb := c.dtlb.filter fun e => !f e, itlb := c.itlb.filter fun e => !f e }
    clusters := s.clusters.map fun c => { c with ents := c.ents.filter fun e => !f e } }

/-- The blocks of an ASID are dropped, and their flags become 0. -/
def State.dropBlocks (s : State) (asid : Byte) : State :=
  s.tasks.foldl (fun (s : State) x =>
    (List.finRange 16).foldl (fun (s : State) k =>
      let b := x.blocks.get k
      if b.flag = 0 || b.asid ≠ asid then s
      else if x.id.resident then s.setFlag x.id.uid k Block.free
      else s.updTask x.id.uid fun y => { y with blocks := y.blocks.set k Block.free }) s) s

/-- A key is gone: what it encrypted reads as ciphertext from then on (R226, R394). -/
def State.dropKey (s : State) (asid : Byte) : State :=
  let lines : List Nat := (s.mem.tags.filter fun x => x.2 == asid).map (·.1)
  { s with
    mem := lines.foldl (fun m l => m.retag l none) s.mem
    ros := { s.ros with keys := s.ros.keys.filter (· != asid), keyDying := s.ros.keyDying.filter (· != asid) } }

/-- FLUSHCTX's effect: the modified lines tagged with the ASID are written back, those of tasks that have ended too, and everything
tagged with it is dropped; none while a line cannot be written back yet. -/
def State.flushAsid (s : State) (asid : Byte) : Option State :=
  (s.carry (fun w => w.asid == asid) 4).map fun s =>
    let s := (s.dropTlbs fun e => e.asid == asid).dropBlocks asid
    let s := { s with cores := s.cores.map fun (c : Core) => { c with icache := c.icache.filter fun l => l.asid != asid } }
    if s.ros.keyDying.contains asid then s.dropKey asid else s

/-- ICINV's effect: one line dropped in the instruction caches of an instance (R333). -/
def State.icinvLine (s : State) (l : Level) (va : VAddr) : State :=
  let l : Level := if l = 0 then 1 else l
  let c := s.t.id.core
  match s.iwalk va.toNat with
  | .leaf e =>
    if fldOf e.leaf 3 3 = 1 && !s.t.id.system then s
    else
      let line := (e.tr va.toNat).pa / 128
      { s with cores := s.cores.map fun (x : Core) =>
          if instOf l 0 x.num = instOf l 0 c then { x with icache := x.icache.filter fun y => y.line != line } else x }
  | .bad .. => s

/-- The translations that the accesses and commands of a task have latched, each with the data root that it came from. -/
def Task.latchedTrs (t : Task) : List (W64 × Tr) :=
  (t.acc.flatMap fun a => a.pieces.flatMap fun p => p.trs.map fun x => (a.root, x)) ++
    (t.cmds.filterMap fun c => c.first.map fun x => (c.root, x)) ++
    t.eks.filterMap fun e => e.op.ring.map fun x => (e.root, x)

/-- The virtual address of a latched translation. -/
def Tr.va (t : Tr) : Nat := t.base + t.pa % t.size

/-- A latched translation is not what the tables give now. -/
def State.stale (s : State) (root : W64) (t : Tr) : Bool :=
  match s.walk false (rootOf root) t.asid t.va with
  | .leaf e => e.tr t.va != t
  | .bad .. => true

/-- What a TLBI names: the entries, and the translations that came from them. -/
def tlbiHits (k : TlbiKind) (va : VAddr) (asid : Byte) : (TlbEnt → Bool) × (Tr → Bool) :=
  match k with
  | .page => (fun e => e.hits asid va.toNat, fun t => t.hits asid va.toNat)
  | .asid => (fun e => e.asid == asid, fun t => t.asid == asid)
  | .all => (fun _ => true, fun _ => true)

/-- TLBI's effect: the entries go, and it is complete when no latched translation is left that a dropped entry gave and the tables
no longer give (R331). -/
def State.tlbi (s : State) (k : TlbiKind) (va : VAddr) (asid : Byte) : State × Bool :=
  let (ent, tr) := tlbiHits k va asid
  (s.dropTlbs ent, !(s.tasks.any fun x => x.latchedTrs.any fun y => tr y.2 && s.stale y.1 y.2))

/-- INVALIDATION_COMPLETE: TLBI, FLUSHCTX and ICINV are releases at their scope, and take effect whole. -/
def execInvalidationComplete (u c : Nat) (s : State) : Out :=
  .next (s.onTask u fun s =>
    match s.t.eks.find? fun x => x.id == c with
    | some e =>
      if !s.ekGoes || s.t.takeBefore e.id || !s.t.allBefore e.id then s
      else
        let me := s.t.id.uid
        let fin (s : State) : State := s.withT fun t => t.ekEnd e.id
        match s.carry (fun w => w.task == me) e.level with
        | none => s
        | some s' =>
          (match e.op with
          | .tlbi k va asid =>
            let (s'', whole) := s'.tlbi k va asid
            if whole then fin s'' else s''
          | .flush asid => ((s'.flushAsid asid).map fin).getD s'
          | .icinv va => s'.endWalk true (rootOf s'.t.itroot) va.toNat e.ins e.bundle fun s => fin (s.icinvLine e.level va)
          | _ => s)
    | none => s)

end Sys2Proof.Machine
end

