-- ==== Sys2Proof/Machine/EvColl.lean ====
section
/-! DEFINITION. The events of collectives and of messages (R323, R325 to R328, R381). -/

namespace Sys2Proof.Machine

/-! Reductions (R326). -/

def EType.ff : EType → Option FF
  | .fp32 => some fp32
  | .bf16 => some bf16
  | .fp16 => some fp16
  | _ => none

/-- Two elements of ETYPE combined, with one rounding to nearest even. -/
def combine (et : EType) (rop : Rop) (a b : Nat) : Nat × Flags :=
  match EType.ff et with
  | some f =>
    let x := f.decode a
    let y := f.decode b
    let (r, fl) : Num × Flags := match rop with
      | .max => (x.pick true y, 0)
      | .min => (x.pick false y, 0)
      | _ => x.add y
    let (v, g) := f.ofNum .near false r
    (v, fl ||| g)
  | none =>
    let w := 8 * EType.bytes et
    let r : Nat := match rop with
      | .add => (a + b) % 2 ^ w
      | .max => if toSigned w a < toSigned w b then b else a
      | .min => if toSigned w b < toSigned w a then b else a
      | .and => a &&& b
      | .or => a ||| b
      | .xor => a ^^^ b
    (r, 0)

/-- An element as a reduction takes it: a NaN is canonical, also where no other member is combined with it (R67, R326). -/
def canonEl (et : EType) (x : Nat) : Nat :=
  match EType.ff et with
  | some f => if (f.decode x).isNan then f.nan else x
  | none => x

/-- Element by element, in the order in which the parts were taken. -/
def reduceParts (et : EType) (rop : Rop) (parts : List (List Byte)) : List Byte × Flags :=
  let n := EType.bytes et
  let elems (b : List Byte) : List Nat := (chunksOf n b.length b).map fun e => canonEl et (leNat e)
  match parts with
  | [] => ([], 0)
  | p :: rest =>
    let (r, fl) := rest.foldl (fun (acc : List Nat × Flags) q =>
      let z := List.zipWith (combine et rop) acc.1 (elems q)
      (z.map (·.1), acc.2 ||| orFlags (z.map (·.2)))) (elems p, 0)
    (r.flatMap (leBytes n), fl)

/-! Instances. -/

def State.coll (s : State) (k : Nat) : Option Coll := s.colls.find? fun c => c.key == k

def State.updColl (s : State) (k : Nat) (f : Coll → Coll) : State :=
  { s with colls := s.colls.map fun c => if c.key = k then f c else c }

def Coll.member (c : Coll) (r : Nat) : Option Member := c.members.find? fun m => m.rank == r && !m.ended

def Coll.updMember (c : Coll) (task ek : Nat) (f : Member → Member) : Coll :=
  { c with members := c.members.map fun m => if m.dev.isNone && m.task = task && m.ek = ek then f m else m }

/-- Whether the members agree, and their ranks differ (R328). -/
def agreeAll (ms : List Member) : Bool :=
  (ms.map (·.rank)).Nodup &&
    (match ms with
    | [] => true
    | x :: rest => rest.all fun y => y.shape == x.shape)

/-- The device of a member. -/
def State.memberDev (s : State) (m : Member) : Nat := match m.dev with | some d => d.val | none => s.dev.devid.toNat

/-- The scope of a member contains another (R240, R241). Two members on one other device are taken to: where their scope were too
narrow, it would not contain the members on this device either. -/
def State.holdsMember (s : State) (x y : Member) : Bool :=
  let d := s.memberDev x
  if d = s.memberDev y then
    match x.dev, s.taskOf x.task, s.taskOf y.task with
    | none, some a, some b =>
      let l : Level := Fin.ofNat 5 (min x.scope 4)
      instOf l a.id.uid a.id.core == instOf l b.id.uid b.id.core
    | _, _, _ => true
  else if x.scope = 7 then d / 8 == s.memberDev y / 8
  else 8 ≤ x.scope

/-- Whether each member's scope contains every member. -/
def State.scopesHold (s : State) (ms : List Member) : Bool := ms.all fun x => ms.all fun y => s.holdsMember x y

/-- COLLECTIVE_INSTANCE_START: all ranks have joined. Statuses 2 and 4 are found before any element is written. -/
def execCollectiveInstanceStart (c : Nat) (s : State) : Out :=
  .next (match s.coll c with
  | some x =>
    if x.started || x.members.length < x.size then s
    else
      let st := if !agreeAll x.members then 2 else if !s.scopesHold x.members then 4 else 0
      s.updColl c fun y => { y with started := true, status := st }
  | none => s)

/-! Members on other devices (R325). -/

/-- The instance with its members that are here: a member on another device ends there. It is forgotten once all of them have. -/
def State.sweepColls (s : State) : State :=
  { s with colls := s.colls.filter fun y => !(y.size ≤ y.members.length && y.members.all fun m => m.ended || m.dev.isSome) }

/-- A member on another device joins instance `num` of a communicator. -/
def State.remoteJoin (s : State) (comm size num : Nat) (m : Member) : State :=
  let mine (c : Coll) : Bool := c.comm == comm && c.size == size && c.num == num
  let here : Bool := match m.dev with | some d => d.val == s.dev.devid.toNat | none => true
  if here || size ≤ m.rank then s
  else
    let me := { m with task := 0, ek := 0, retries := 0, got := none, ended := false }
    match s.colls.find? mine with
    | some c =>
      if c.started || c.size ≤ c.members.length then s
      else s.updColl c.key fun c => { c with members := c.members ++ [me] }
    | none =>
      { s with
        colls := s.colls ++ [{ key := s.nextKey, comm := comm, size := size, num := num, started := false, status := 0
                               members := [me], order := [] }]
        nextKey := s.nextKey + 1 }

/-- A member of an open instance on another device. -/
def Coll.remote (c : Coll) (r : Nat) : Option Member := c.members.find? fun m => m.rank == r && m.dev.isSome && !m.ended

def Coll.updRemote (c : Coll) (r : Nat) (f : Member → Member) : Coll :=
  { c with members := c.members.map fun m => if m.rank = r && m.dev.isSome then f m else m }

/-- The bytes of rank `r` of another device arrive and are acknowledged. -/
def State.remoteBytes (s : State) (c r : Nat) (b : List Byte) : State :=
  match s.coll c with
  | some x =>
    (match (if x.started && x.status == 0 then x.remote r else none) with
    | some m =>
      if m.got.isSome || b.length ≠ (collLens m.shape.kind m.shape.n r x.size).1 then s
      else s.updColl c fun y => { y.updRemote r fun z => { z with got := some b } with order := y.order ++ [r] }
    | none => s)
  | none => s

/-- The node of rank `r` of another device is killed: the instance ends with status 3 (R381). -/
def State.remoteKilled (s : State) (c r : Nat) : State :=
  match (s.coll c).bind fun x => x.remote r with
  | some _ =>
    (s.updColl c fun y =>
      { y.updRemote r fun z => { z with ended := true } with started := true, status := if y.status = 0 then 3 else y.status }).sweepColls
  | none => s

/-- The source bytes of the member in focus. -/
def State.collSource (s : State) (e : Ek) : State × Option (List Byte) :=
  match e.op with
  | .coll k _ _ _ n src _ _ rank size =>
    let (a, _) := collLens k n rank size
    if a = 0 then (s.updEk e.id fun y => { y with done := y.done ++ [0] }, some []) else s.ekRead e src a
  | _ => (s, none)

/-- COLLECTIVE_STEP: the bytes of rank `r` are taken from its source and acknowledged. -/
def execCollectiveStep (c r : Nat) (s : State) : Out :=
  .next (match s.coll c with
  | some x =>
    (match (if x.started && x.status == 0 then x.member r else none) with
    | some m =>
      if m.got.isSome || m.dev.isSome then s
      else
        s.onTask m.task fun s =>
          match s.t.eks.find? fun e => e.id == m.ek with
          | some e =>
            if !s.t.bulkFree e.id || !s.ekGoes then s
            else
              let (s, b) := s.collSource e
              match b with
              | some b => s.updColl c fun y =>
                  { y.updMember m.task m.ek fun z => { z with got := some b } with order := y.order ++ [r] }
              | none => s
          | none => s
    | none => s)
  | none => s)

/-- COLLECTIVE_STEP_TIMEOUT: a step is resent, or its retries are exhausted (R327). -/
def execCollectiveStepTimeout (c r : Nat) (s : State) : Out :=
  .next (match s.coll c with
  | some x =>
    (match (if x.started && x.status == 0 then x.member r else none) with
    | some m =>
      if m.got.isSome then s
      else if m.retries < fldOf s.dev.kretry 3 0 then
        let more (z : Member) : Member := { z with retries := z.retries + 1 }
        s.updColl c fun y => if m.dev.isSome then y.updRemote r more else y.updMember m.task m.ek more
      else s.updColl c fun y => { y with status := 1 }
    | none => s)
  | none => s)

/-- The parts that a member's result combines: all of each source, or one block of it. -/
def Coll.parts (c : Coll) (ofs n : Nat) : List (List Byte) :=
  c.order.filterMap fun r =>
    ((c.members.find? fun m => m.rank == r).bind (·.got)).map fun b => (b.drop ofs).take n

/-- The result of a complete instance at a rank, with its flags (R326). -/
def Coll.result (c : Coll) (op : EkOp) : List Byte × Flags :=
  let got (r : Nat) : List Byte := ((c.members.find? fun m => m.rank == r).bind (·.got)).getD []
  match op with
  | .coll k rop et _ n _ _ _ rank size =>
    (match k.val with
    | 0 => reduceParts et rop (c.parts 0 n)
    | 1 => ((List.range size).flatMap got, 0)
    | 2 => reduceParts et rop (c.parts (rank * n) n)
    | _ => (got 0, 0))
  | _ => ([], 0)

/-- Bytes that no rule gives a value to. -/
def State.freeBytes (s : State) (k n : Nat) : List Byte :=
  (List.range n).map fun i => (Config.freeWord s.fv (k * 65536 + i)).setWidth 8

/-- The end of a member's part: its status, and the steps retried (R127, R322, R328). -/
def State.collEnd (s : State) (c : Nat) (m : Member) (d : Fin 56) (status : Nat) (fl : Flags) : State :=
  let s := s.withT fun t =>
    let retry := min 255 ((t.kstat.toNat / 256) + m.retries)
    let t := ((t.ekEnd m.ek).raise fl 0).asyncS d (BitVec.ofNat 64 status)
    { t with kstat := BitVec.ofNat 16 (retry * 256 + t.kstat.toNat % 256) }
  let s := (s.updColl c fun y => y.updMember m.task m.ek fun z => { z with ended := true }).sweepColls
  { s with fv := s.fv + 1 }

/-- COLLECTIVE_END: rank `r` receives its result and its status. -/
def execCollectiveEnd (c r : Nat) (s : State) : Out :=
  .next (match s.coll c with
  | some x =>
    (match (if x.started && (x.status != 0 || x.members.all fun m => m.got.isSome) then x.member r else none) with
    | some m =>
      if m.dev.isSome then s
      else
      s.onTask m.task fun s =>
        match s.t.eks.find? fun e => e.id == m.ek with
        | some e =>
          (match e.op with
          | .coll k _ _ d n src dst _ rank size =>
            let (a, b) := collLens k n rank size
            let open_ := x.status == 1 || x.status == 3 || overlap src a dst b
            let (whole, fl) := x.result e.op
            let bytes := if open_ then s.freeBytes e.id b else whole
            if !s.ekGoes then s
            else if x.status = 2 || x.status = 4 then s.collEnd c m d x.status 0
            else if x.status ≠ 0 then
              (match s.lookRange dst b true none with
              | .ok _ =>
                let (s', ok) := s.ekWrite e dst bytes
                if ok then s'.collEnd c m d x.status 0 else s'
              | .stop .. => s.collEnd c m d x.status 0)
            else
              let (s', ok) := s.ekWrite e dst bytes
              if ok then s'.collEnd c m d 0 fl else s'
          | _ => s)
        | none => s
    | none => s)
  | none => s)

/-! Messages (R323). -/

/-- The largest t among the task's writes, each at its own scope and, where it has gone further, at each level up to `l` (R256). -/
def Task.doneT (t : Task) (l : Level) : Nat :=
  (List.finRange 5).foldl (fun n k => if k ≤ l then max n (t.wup.get k) else n) t.wdone

/-- A message enters a mailbox, as a release; with no mailbox to enter it is dropped, and a full one makes it wait. -/
def State.sendNow (s : State) (e : Ek) (target : W32) (bytes : List Byte) : State :=
  if !s.t.allBefore e.id then s
  else
    let me := s.t.id.uid
    match s.mailbox target with
    | none => (s.kstatSet 3).withT fun t => t.ekEnd e.id
    | some n =>
      if 16 ≤ n.mbox.length then s
      else
        match s.carry (fun w => w.task == me) e.level with
        | none => s
        | some s =>
          let m : Msg := { sender := s.t.id.nodeId, bytes := bytes, t := max s.t.pts (s.t.doneT e.level) }
          (s.updNode n.key fun y => { y with mbox := y.mbox ++ [m] }).withT fun t => t.ekEnd e.id

/-- MAILBOX_DELIVERY: the oldest KSEND of a task to its target reads its source, and its message enters the mailbox. -/
def execMailboxDelivery (u c : Nat) (s : State) : Out :=
  .next (s.onTask u fun s =>
    match s.t.eks.find? fun x => x.id == c with
    | some e =>
      (match e.op with
      | .ksend target src n =>
        let first := s.t.eks.find? fun x => match x.op with | .ksend g _ _ => g == target | _ => false
        if (first.map (·.id)) != some e.id || !s.ekGoes then s
        else if e.done.contains 0 then s.sendNow e target ((e.got.find? fun x => x.1 == 0).elim [] (·.2))
        else if !s.t.bulkFree e.id then s
        else
          let (s, b) := s.ekRead e src n
          (match b with
          | some b =>
            let s := s.updEk e.id fun x => { x with got := [(0, b)] }
            (match s.t.eks.find? fun x => x.id == c with
            | some e => s.sendNow e target b
            | none => s)
          | none => s)
      | _ => s)
    | none => s)

end Sys2Proof.Machine
end

