-- ==== Sys2Proof/Machine/Graph.lean ====
section
/-! DEFINITION. Node records and their rules (R266 to R268), the nodes of a graph, and the end of a task with its
deferred commands (R256, R260, R317 to R319). -/

namespace Sys2Proof.Machine

/-! Records. -/

/-- The dwords of a record. -/
def dwordsOf (b : List Byte) (n : Nat) : List Nat := (List.range n).map fun i => leNat ((b.drop (8 * i)).take 8)

def recOf (b : List Byte) : Vector W64 14 :=
  vecOf fun i => BitVec.ofNat 64 ((dwordsOf b 14).getD i.val 0)

/-- The reserved bits of dwords 0 to 7. -/
def recReserved (r : Vector W64 14) : Bool :=
  fldOf (r.get 0) 63 57 != 0 || fldOf (r.get 1) 63 57 != 0 || fldOf (r.get 2) 63 48 != 0 ||
    fldOf (r.get 3) 49 32 != 0 || fldOf (r.get 4) 19 5 != 0 || fldOf (r.get 5) 63 57 != 0 ||
    fldOf (r.get 5) 15 13 != 0 || fldOf (r.get 6) 63 57 != 0 || fldOf (r.get 6) 3 0 != 0

/-- A record that breaks R268 in a partition. -/
def recBad (p : Part) (r : Vector W64 14) : Bool :=
  let d (i : Fin 14) (hi lo : Nat) : Nat := fldOf (r.get i) hi lo
  let place := d 3 61 60
  let wher := d 3 58 50
  let tick := d 3 15 0
  let dead := d 3 31 16
  let cl := if place = 1 then wher / 8 else wher
  recReserved r || d 0 2 0 != 0 || d 1 2 0 != 0 || 8 < d 4 31 28 || 4096 < d 5 12 0 || 16 < d 4 4 0 || place == 3 ||
    ((place == 1 || place == 2) && (48 ≤ cl || !p.clusters.getLsbD cl)) || (d 3 59 59 == 1 && place != 1) ||
    (d 3 63 63 == 1 && place == 0) || (d 3 62 62 == 1 && (dead < tick || p.flen < dead)) ||
    d 4 23 20 == 0 || 9 < d 4 23 20

def recId (r : Vector W64 14) : W32 := BitVec.ofNat 32 (fldOf (r.get 4) 63 32)

/-- A node of a launch, before it fires. A node that a task adds runs at the privilege of its launch (DESIGN CHOICE, log entry 102). -/
def State.addNode (s : State) (pi : Fin 16) (launch : Launch) (addr frame : Nat) (r : Vector W64 14) (spawned : Bool)
    (startT : Nat) : State :=
  let nd : Node :=
    { key := s.nextKey, id := recId r, part := pi, asid := launch.asid, root := launch.root, home := none, launch := launch.key, addr := addr
      drec := r, state := .ready, tok := 0, cause := 0, depth := 0, reason := 0, taddr := 0, kills := 0, mbox := []
      comms := [], frame := frame, system := launch.system, spawned := spawned, startT := startT, late := 0
      halted := false }
  { s with nodes := s.nodes ++ [nd], nextKey := s.nextKey + 1 }

/-- READY, or FIRED at once with no inputs; a node that fires is pushed at a core. -/
def State.startNode (s : State) (k core : Nat) : State :=
  match s.node k with
  | some n => if n.inputs = 0 then s.fireNode k core false else s.writeStatus k
  | none => s

/-- A reference pushed from a core that would find no deque with room (R283). -/
def State.mustWait (s : State) (n : Node) (core : Nat) : Bool := !n.timetabled && (s.dequeFor n core false).isNone

/-! SPAWN (R318). -/

/-- The status of a SPAWN whose record was read, or could not be. -/
def State.spawnStatus (s : State) (b : Option (List Byte)) : Nat :=
  let pi := s.t.id.part
  let p := s.parts.get pi
  match b with
  | none => 3
  | some b =>
    let r := recOf b
    let held := (s.running pi).any fun n => n.id == recId r
    let spawning := s.tasks.any fun t => t.id.part == pi && t.eks.any fun e =>
      e.status == some 1 && (match e.op with | .spawn .. => recId (recOf ((e.got.find? fun x => x.1 == 0).elim [] (·.2))) == recId r | _ => false)
    if recBad p r || fldOf (r.get 3) 63 63 = 1 || held || spawning then 3
    else if 65536 ≤ (s.nodes.filter fun n => n.part == pi && n.asid == p.asid && n.spawned && !n.state.final).length ||
        (fldOf (r.get 3) 59 59 = 1 && !p.split) then 2
    else 1

/-- SPAWN_CHECK: in issue order, after every earlier access of the task is performed at .dev. A poisoned line of the record is consumed by
the task (R378). -/
def execSpawnCheck (u c : Nat) (s : State) : Out :=
  .next (s.onTask u fun s =>
    let isNew (e : Ek) : Bool := e.status.isNone && (match e.op with | .spawn .. => true | _ => false)
    match s.t.eks.find? isNew with
    | some e =>
      if e.id != c || !s.ekGoes || s.t.takeBefore e.id || !s.t.allBefore e.id then s
      else
        let me := s.t.id.uid
        (match e.op, s.carry (fun w => w.task == me) 4 with
        | .spawn d addr, some s =>
          let (s, bad) := s.tenantMeet s.t.id.part addr 112
          if s.dev.cLost then s
          else match bad with
          | some line => s.consumePoison e.ins line e.bundle
          | none =>
          let b := s.tenantRead s.t.id.part addr 112
          let st := s.spawnStatus b
          (s.updEk e.id fun x => { x with status := some st, got := [(0, b.getD [])] }).withT fun t =>
            t.asyncS d (BitVec.ofNat 64 st)
        | _, _ => s)
    | none => s)

/-! DONE (R256, R319). -/

/-- A node reaches DONE; what it held is given up. -/
def State.finishDone (s : State) : State :=
  let k := s.t.id.node
  (s.dropTask s.t.id.uid).nodeTo k .done

/-- The SPAWNs in program order: each with status 1 enters the graph, unless its deque is full. -/
def adoptSpawns (core : Nat) : List Ek → State → State
  | [], s => s
  | e :: es, s =>
    match e.op with
    | .spawn _ addr =>
      if e.status = some 1 then
        match (s.node s.t.id.node).bind fun n => (s.launch n.launch).map fun l => (n, l) with
        | some (n, l) =>
          let r := recOf ((e.got.find? fun x => x.1 == 0).elim [] (·.2))
          let k := s.nextKey
          let s' := s.addNode n.part l addr n.frame r true (s.t.doneT 4)
          match s'.node k with
          | some x =>
            if x.inputs = 0 && s.mustWait x core then s
            else adoptSpawns core es ((s'.startNode k core).withT fun t => t.ekEnd e.id)
          | none => s
        | none => s
      else adoptSpawns core es (s.withT fun t => t.ekEnd e.id)
    | _ => adoptSpawns core es s

def Ek.isSpawn (e : Ek) : Bool := match e.op with | .spawn .. => true | _ => false

/-- NODE_DONE_COMPLETE: every access and command is performed; commit, mould record, SPAWNs, and then the TOKENs. -/
def execNodeDoneComplete (u : Nat) (s : State) : Out :=
  .next (s.onTask u fun s =>
    if s.t.run ≠ .doneWait || s.t.complete || s.coreFrozen || !s.t.acc.isEmpty || !s.t.cmds.isEmpty ||
        !(s.t.eks.all fun e => e.deferred && (!e.isSpawn || e.status.isSome)) then s
    else if s.t.stage.mode = .staging then s.endStaging
    else
      let s := if s.t.mrec.state = .recording then s.abortMould 8 else s
      match s.writeMould with
      | .stop s => s
      | .ok s =>
        let me := s.t.id.uid
        -- the DONE of a node with SPAWNs is a release at .dev (R318)
        match if s.t.eks.any Ek.isSpawn then s.carry (fun w => w.task == me) 4 else some s with
        | none => s
        | some s =>
          let s := adoptSpawns s.t.id.core (s.t.eks.filter Ek.isSpawn) s
          if s.t.eks.any Ek.isSpawn then s
          else if s.t.eks.isEmpty then s.finishDone
          else s.withT fun t => { t with eks := t.eks.map fun e => { e with deferred := false } })

/-- A token for an input of a node: absorbed without a trace, discarded, or the last of a set that fires it (R260, R273, R275). None
where a full deque keeps it waiting. `l` is the level of its release. -/
def State.giveToken (s : State) (target : W32) (k : Fin 8) (l : Level) : Option State :=
  let drop : State := s.kstatSet 2
  match (s.running s.t.id.part).find? fun n => n.id == target with
  | none => some drop
  | some n =>
    if n.inputs ≤ k.val || n.state ≠ .ready then some drop
    else if n.tok.getLsbD k.val then some s
    else
      let tok : Byte := n.tok ||| (1 : Byte) <<< k.val
      let all := (List.range n.inputs).all fun i => tok.getLsbD i
      if all && s.mustWait n s.t.id.core then none
      else
        let t := s.t.doneT l
        let s := s.updNode n.key fun x => { x with tok := tok, startT := max x.startT t }
        some (if all then s.fireNode n.key s.t.id.core false else s)

/-- TOKEN_DELIVERY: a deferred token is delivered as a release at its scope; the last one ends the node. A core that is frozen delivers
none (R57, R114, R130). -/
def execTokenDelivery (u c : Nat) (s : State) : Out :=
  .next (s.onTask u fun s =>
    match s.t.eks with
    | e :: _ =>
      if e.id ≠ c || !s.t.complete || s.coreFrozen then s
      else
        (match e.op with
        | .token target k =>
          let me := s.t.id.uid
          (match (s.carry (fun w => w.task == me) e.level).bind fun s => s.giveToken target k e.level with
          | some s =>
            let s := s.withT fun t => { t.ekEnd e.id with told := true }
            if s.t.eks.isEmpty then s.finishDone else s
          | none => s)
        | _ => s)
    | [] => s)

/-- BARRIER_ARRIVAL: a GBAR enters its task's arrival, as a release at scope .grp (R288, R320). -/
def execBarrierArrival (u c : Nat) (s : State) : Out :=
  .next (s.onTask u fun s =>
    match s.t.eks.find? fun e => e.op == .gbar && !e.waiting with
    | some e =>
      if e.id ≠ c || s.t.changePending || !s.ekGoes || s.t.takeBefore e.id || !s.t.allBefore e.id then s
      else
        let me := s.t.id.uid
        match s.carry (fun w => w.task == me) e.grp with
        | none => s
        | some s => (s.updEk e.id fun x => { x with waiting := true, tmax := max s.t.pts (s.t.doneT e.grp) }).arrive s.t.id.uid
    | none => s)

end Sys2Proof.Machine
end

