-- ==== Sys2Proof/Machine/EvTask.lean ====
section
/-! DEFINITION. A task that leaves its core and comes back: pre-emption, parking and resumption (R60 to R62, R138, R230,
R289 to R293), and the deques (R283 to R286). -/

namespace Sys2Proof.Machine

/-! The pre-emption map (R290). -/

/-- An 88-byte entry of a map section; none where a bit is set that no field has. -/
def PmEntry.ofBytes (asid : Byte) (b : List Byte) : Option PmEntry :=
  let d (i : Nat) : W64 := BitVec.ofNat 64 ((dwordsOf b 11).getD i 0)
  let facBad (f : Nat) : Bool := fldOf (d (3 + f)) 33 32 != 0 || fldOf (d (3 + f)) 63 48 != 0
  if fldOf (d 0) 63 57 ≠ 0 || fldOf (d 1) 63 56 ≠ 0 || fldOf (d 1) 0 0 ≠ 0 || fldOf (d 2) 63 29 ≠ 0 || fldOf (d 2) 1 0 ≠ 0 ||
      (List.range 8).any facBad then none
  else
    some { asid := asid, addr := (d 0).setWidth 57, smask := (d 1).setWidth 56, live := fldOf (d 2) 28 16
           pmask := BitVec.ofNat 16 (fldOf (d 2) 15 2 * 4)
           fac := vecOf fun f =>
             let x := d (3 + f.val)
             (x.setWidth 32, BitVec.ofNat 8 (fldOf x 39 34 * 4), BitVec.ofNat 8 (fldOf x 47 40)) }

/-- The entries of a section; none where it breaks the layout or its order. -/
def pmSection (asid : Byte) (b : List Byte) : Option (List PmEntry) :=
  let n := b.length / 88
  match (chunksOf 88 n b).mapM (PmEntry.ofBytes asid) with
  | some l => if b.length = 88 * n && (l.map fun e => e.addr.toNat).Pairwise (· < ·) then some l else none
  | none => none

/-- The loader places the map section of the binary of an ASID; it refuses one that is none. -/
def State.loadMap (s : State) (asid : Byte) (b : List Byte) : State :=
  match pmSection asid b with
  | some l => { s with pmap := l ++ s.pmap.filter fun e => e.asid != asid }
  | none => s

/-- The entry that lists a bundle of the current task. -/
def State.listed (s : State) : Option PmEntry :=
  s.pmap.find? fun e => e.asid == asidOf s.t.dtroot && e.addr == s.t.pc

/-- Save slots (R276, R289, R293): those that the tasks of a tenant hold in a partition. -/
def State.slotsHeld (s : State) (pi : Fin 16) (asid : Byte) : List Nat :=
  (s.tasks.filter fun (x : Task) => x.id.part == pi && x.live && (s.node x.id.node).any fun n => n.asid == asid).filterMap (·.slot)

/-- The lowest free save slot of the current task's partition. -/
def State.slotFor (s : State) : Option Nat :=
  let held := s.slotsHeld s.t.id.part s.part.asid
  ((List.range (held.length + 1)).find? fun i => !held.contains i).bind fun i => if i < s.part.saven then some i else none

/-- The bundle at the pc is held by a WAIT that does not name kc. -/
def State.waitHolds (s : State) : Bool :=
  let s := s.landed
  match s.front with
  | .ok b => b.syls.any fun x =>
      (match x.ins with
      | .wait o => s.on o.g && !o.cls.getLsbD 4 && (waitCnts o.cls).any fun c => o.n.toNat < s.t.cnt.get c
      | _ => false)
  | _ => false

/-- A pre-emption stops the task before the listed bundle at its pc, where a save slot is free and no WAIT without kc holds it
(R292, R293). -/
def State.mustStop (s : State) : Bool :=
  s.t.id.preempt && s.t.cast.isNone && s.listed.isSome && s.slotFor.isSome && !s.waitHolds

/-! Saving (R60, R138, R289). -/

/-- No transfer is pending, every write in flight can land, and of the accesses only rows of suspended transfers are left. -/
def Task.settled (t : Task) : Bool :=
  t.pend.isEmpty && t.frz.isNone && t.flights.all (fun fl => !fl.waits) &&
    t.acc.all fun a => match a.op with | .tld _ | .tst _ => true | _ => false

/-- The entries at depth `live` and deeper. -/
def Stack.dead (k : Stack) (live : Nat) : List Nat := k.map.drop live

/-- A dead entry is saved once it is ready. -/
def Task.deadReady (t : Task) (live : Nat) : Bool :=
  (t.stk.dead live).all fun id => match t.entry id with | some e => e.state == .ready | none => true

/-- A dead entry, whose data is not saved: it stands below the bench and reads as zero when it rises (R60). -/
def Entry.killed (e : Entry) : Entry := { e with level := 3, slot := 0, data := [], void := true }

/-- What a map entry leaves: every register and lane outside its masks reads zero, dead entries too, but for a scalar register that an
asynchronous write has reached since the task parked (R60, R264, R291). -/
def Task.keepLive (t : Task) (e : PmEntry) : Task :=
  let pm : BitVec 16 := e.pmask ||| 1
  let dead := t.stk.dead e.live
  { t with
    s := vecOf fun i => if e.smask.getLsbD i.val || t.kept.getLsbD i.val then t.s.get i else 0
    p := t.p &&& pm
    fac := vecOf fun f =>
      let c := t.fac.get f
      let m := e.fac.get f
      { c with
        v := vecOf fun i => if m.1.getLsbD i.val then c.v.get i else Vector.replicate 16 0
        q := vecOf fun i => if i.val < 2 || m.2.1.getLsbD i.val then c.q.get i else 0
        d := vecOf fun i => if m.2.2.getLsbD i.val then c.d.get i else DReg.zero }
    stk := { t.stk with entries := t.stk.entries.map fun x => if dead.contains x.id then x.killed else x } }

/-- The context's block flags read 0 once the task has taken its blocks with it (R230). -/
def State.hideBlocks (s : State) (u : Nat) : State :=
  match s.taskOf u with
  | none => s
  | some x =>
    (List.finRange 16).foldl (fun (s : State) k =>
      let b := x.blocks.get k
      if b.flag = 0 then s else (s.setFlag u k Block.free).updTask u fun y => { y with blocks := y.blocks.set k b }) s

/-- Whether the task can leave its core under a map entry, or under none: everything lives then. -/
def State.canLeave (s : State) (e : Option PmEntry) : Bool :=
  s.t.settled && (match e with | some e => s.t.deadReady e.live | none => true)

/-- The entry under which the task leaves its core; a cast, whose state is wholly live, leaves under none (R307). -/
def State.leaveEntry (s : State) : Option PmEntry := if s.t.cast.isSome then none else s.listed

/-- Everything in flight lands, and what the map entry does not name is given up (R138). -/
def Task.putAway (t : Task) (e : Option PmEntry) : Task :=
  let t := t.landAll
  match e with | some e => t.keepLive e | none => t

/-- Save slot `i` of the current task's partition is written. Its layout belongs to the stepping: its bytes are free, and the model
keeps the saved state with the task (R276; DESIGN CHOICE, log entry 89). -/
def State.fillSlot (s : State) (i : Nat) : State :=
  let bytes (h : Nat) : List Byte := (List.range 65536).map fun k => (Config.freeWord s.fv (h * 65536 + k)).setWidth 8
  let va := s.part.save + i * 131072
  let s' := (s.tenantWrite s.t.id.part va (bytes 0)).tenantWrite s.t.id.part (va + 65536) (bytes 1)
  { s' with fv := s'.fv + 1 }

/-- The current task leaves its core for save slot `i`. -/
def State.leaveCore (s : State) (e : Option PmEntry) (run : Run) (i : Nat) : State :=
  let s := s.withT fun t =>
    let t := t.putAway e
    let lives : BitVec 56 := match e with | some e => e.smask | none => BitVec.allOnes 56
    { t with run := run, past := [], ran := [], slot := some i, kept := if run = .suspended then lives else t.kept
             id := { t.id with resident := false, preempt := false } }
  (s.hideBlocks s.t.id.uid).fillSlot i

/-! Pre-emption (R292). -/

/-- PREEMPTION_STOP: the core stops before a listed bundle, or a cast between two groups, whose state is wholly live
(R138, R307). Without a free save slot the task runs on (R293), and so it does while a WAIT without kc holds it. -/
def execPreemptionStop (u : Nat) (s : State) : Out :=
  .next (s.onTask u fun s =>
    let e := s.leaveEntry
    if s.t.run ≠ .running || !s.t.id.preempt || s.coreFrozen || !(s.t.cast.isSome || s.mustStop) || !s.canLeave e then s
    else
      match s.slotFor with
      | none => s
      | some i =>
        let s := ((s.abortMould 8).leaveCore e .suspended i).nodeTo s.t.id.node .fired
        match s.node s.t.id.node with
        | some n => s.push n s.t.id.core s.t.id.helper
        | none => s)

/-! Parking (R289). -/

/-- The node of the current task is PARKED: its parking has ended. -/
def State.nodeParked (s : State) : Bool := (s.node s.t.id.node).any fun n => n.state == .parked

/-- Parking ends: the task leaves its core for a save slot. With none free it is parked in place, and leaves once one is. -/
def State.parkOut (s : State) : State :=
  match s.t.run with
  | .parked why true =>
    let e := s.leaveEntry
    let ends (s : State) : State := if s.nodeParked then s else s.nodeTo s.t.id.node .parked
    if s.coreFrozen || !s.canLeave e then s
    else
      match s.slotFor with
      | some i => ends (s.leaveCore e (.parked why false) i)
      | none => ends s
  | _ => s

/-- The condition of a park holds. A WAIT on kc has nothing to wait on any longer, or would issue. -/
def State.parkOver (s : State) : Bool :=
  match s.t.run with
  | .parked .watch _ => s.t.watch.fired
  | .parked (.kc n) _ => s.t.cnt.kc ≤ n || !(s.t.eks.any fun e => s.ekParks e)
  | _ => false

def Task.clearWatch (t : Task) : Task := { t with watch := { t.watch with armed := false, fired := false } }

/-- A task that was suspended or parked goes on. -/
def Task.goOn (t : Task) : Task :=
  let t' := { t with run := .running, slot := none, kept := 0 }
  match t.run with
  | .parked .watch _ => t'.clearWatch
  | _ => t'

/-- The current task goes on: its node is RUNNING. A halt that came while it was parked falls before its first bundle (R295). -/
def State.goOn (s : State) : State :=
  let s := s.withT Task.goOn
  (if s.t.id.haltReq && s.t.id.debug then s.halt else s).nodeTo s.t.id.node .running

/-- PARK_WAKE, once parking has ended: the node is FIRED again, at the context where its task parked (R283, R289). A task that is
parked in place goes on there, with what its map entry leaves. -/
def execParkWake (u : Nat) (s : State) : Out :=
  .next (s.onTask u fun s =>
    if !s.parkOver || !s.nodeParked then s
    else
      match s.t.run with
      | .parked _ true =>
        let e := s.leaveEntry
        ((s.withT fun t => t.putAway e).nodeTo s.t.id.node .fired).goOn
      | _ =>
        let s := s.nodeTo s.t.id.node .fired
        (match s.node s.t.id.node with
        | some n => s.push n s.t.id.core s.t.id.helper
        | none => s))

/-! Lazy saving (R61). -/

/-- The level whose suspended entries the running task of the current core needs: the bench where it holds more than 6 entries or
has no latch for a push of the bundle at the pc, or the level that an entry which sinks goes to. -/
def State.needLevel (s : State) : Option (Fin 4) :=
  if (6 < s.benchUsed || 8 < s.benchUsed + s.lookAhead.pushes) && s.suspendedOn 0 then some 0 else s.sinkNext.bind s.suspendedFirst

/-- A core that another tenant than one of an ASID has used since its stores were last scrubbed (R224). -/
def State.dirty (s : State) (asid : Byte) (core : Nat) : Bool := (s.core core).tenant.any fun a => a != asid

/-- The current task, which has left its core, is to go on elsewhere, or its core's stores are about to be scrubbed. -/
def State.movesOut (s : State) : Bool :=
  let k := s.t.id.node
  let elsewhere : Bool := s.cores.any fun c => c.num != s.t.id.core && (c.deque ++ c.hdeque).contains k
  let fired : Bool := match s.node k with
    | some n => n.state == .fired && (elsewhere || n.timetabled)
    | none => false
  fired || (match s.partOf s.t.id.core with
    | some pi => (s.parts.get pi).op == .applied true && s.dirty (s.parts.get pi).asid s.t.id.core
    | none => true)

/-- The entry of a task that has left its core which goes next to its spill region: the deepest, on the level that the running
task needs, or on any where the task moves. -/
def State.spillNext (s : State) : Option Entry :=
  if !s.t.live || s.t.works || s.t.id.helper then none
  else if s.movesOut then s.t.stk.deepest fun e => e.level != 3
  else
    let run := s.tasks.find? fun x => x.works && x.id.core == s.t.id.core && !x.id.helper
    (run.bind fun x => (s.focus x.id.uid).needLevel).bind fun l => s.t.stk.deepest fun e => e.level == l

/-- SUSPENDED_ENTRY_SPILL: entry `c`, which is the next of its task, goes to that task's spill region. -/
def execSuspendedEntrySpill (u c : Nat) (s : State) : Out :=
  .next (s.onTask u fun s =>
    match s.spillNext with
    | some e => if e.id = c && !s.coreFrozen then s.spill e else s
    | none => s)

/-! Resumption. -/

/-- Another core takes a task only when its entries are all in its spill region (R61). -/
def Task.movable (t : Task) (core : Nat) : Bool := t.id.core == core || t.stk.entries.all fun e => e.level == 3

/-- The blocks that stand in the L1 of a task's core when its block `k` is allocated afresh. -/
def State.blocksBefore (s : State) (x : Task) (k : Fin 16) : List Block :=
  let others := s.tasks.flatMap fun (y : Task) =>
    if y.id.uid != x.id.uid && y.id.core == x.id.core && y.id.resident then y.blocks.toList else []
  (others ++ x.blocks.toList.take k.val).filter fun b => b.flag != 0

/-- The fill of block `k` of a task that has moved to another core, whose L1 has none of its lines: a bulk transfer of its own, or the
one already under way, from its first line (R229, R230). -/
def Task.fillAgain (t : Task) (k : Fin 16) : Task :=
  let b := t.blocks.get k
  if b.flag = 1 then
    { t with
      blocks := t.blocks.set k { b with lines := [] }
      cmds := t.cmds.map fun c => if c.id = b.cmd then { c with done := [] } else c }
  else
    let c : Cmd :=
      { id := t.seq, bundle := t.pc, ins := none, root := t.dtroot, first := none, op := .ldblk k (64 * b.vline) b.count true
        level := b.level, scope := b.level.val, fctl := t.fp.fctl, fscsel := t.fp.fscsel, gens := [], inj := none, reads := []
        latched := true, done := [], wrote := [], got := [], p := t.pts, tmax := 0, fl := 0, uf := 0 }
    { t with blocks := t.blocks.set k { b with flag := 1, lines := [], cmd := t.seq }, cmds := t.cmds ++ [c], seq := t.seq + 1 }

/-- The blocks of a task that resumes are allocated afresh with flag 1 (R230), in the order of their slots (DESIGN CHOICE, log entry
103). On the core that it left, the lines of a block that was
ready are still present (DESIGN CHOICE, log entry 103), and its flag reaches 2 at once; on another it is filled. One that would take a
set past 6 block lines is released (R314). -/
def State.showBlocks (s : State) (u : Nat) (moved : Bool) : State :=
  (List.finRange 16).foldl (fun (s : State) k =>
    match s.taskOf u with
    | none => s
    | some x =>
      let b := x.blocks.get k
      if b.flag = 0 then s
      else if blockTooMany (s.blocksBefore x k) b.vline b.count then s.setFlag u k Block.free
      else
        let s := s.setFlag u k { b with flag := 1 }
        if moved then s.updTask u fun y => { y with blocks := y.blocks.set k b }.fillAgain k
        else if b.flag = 2 then s.setFlag u k b
        else s) s

/-- The TASK instance of a task that resumes on another core stands inside that core's instance from then on (R241, R244). -/
def State.follow (s : State) (u core : Nat) : State :=
  { s with mem := { s.mem with narrow := s.mem.narrow.map fun w =>
      if w.task = u && w.level = 0 then { w with core := core } else w } }

/-- A suspended or parked task takes a context of a core. -/
def State.resume (s : State) (u core : Nat) (helper : Bool) : State :=
  let moved := (s.taskOf u).any fun x => x.id.core != core
  let s := s.updTask u fun x =>
    { x with id := { x.id with core := core, helper := helper, resident := true, preempt := false } }
  ((s.follow u core).showBlocks u moved).onTask u State.goOn

/-! Free contexts and the timetable (R280, R284). -/

/-- Whether a context has no resident task. -/
def State.idle (s : State) (core : Nat) (helper : Bool) : Bool :=
  !(s.tasks.any fun x => x.id.resident && x.live && x.id.core == core && x.id.helper == helper)

/-- The core is out of service (R376). -/
def State.retired (s : State) (core : Nat) : Bool := fldOf (s.core core).semap 63 63 == 1

/-- The counter has reached the node's launch frame at or past its TICK. -/
def Part.reached (p : Part) (n : Node) : Bool := n.frame < p.frame || (n.frame == p.frame && n.tick ≤ p.tick)

def State.eligible (s : State) (pi : Fin 16) (n : Node) : Bool :=
  n.timetabled && s.waits pi n && (s.parts.get pi).reached n

/-- The contexts that a timetabled node may use, in ascending core number. -/
def Part.allowed (p : Part) (n : Node) : List (Nat × Bool) :=
  if n.place = 1 then [(p.pinCore n, n.helper)]
  else (List.range 8).map fun k => (p.mapCluster n.cluster * 8 + k, false)

/-- The context that takes a timetabled node: the lowest that is idle. -/
def State.takerOf (s : State) (p : Part) (n : Node) : Option (Nat × Bool) :=
  (p.allowed n).find? fun c => s.idle c.1 c.2 && !s.retired c.1

/-- The eligible nodes of a context, by TICK and then by identifier. -/
def State.timetable (s : State) (pi : Fin 16) (core : Nat) (helper : Bool) : List Node :=
  let p := s.parts.get pi
  sortBy (fun n => n.tick * 2 ^ 32 + n.id.toNat)
    (s.nodes.filter fun n => s.eligible pi n && s.takerOf p n == some (core, helper))

/-- PREEMPTION_REQUEST: a timetabled node has become eligible, no core that it may use is idle, and the task runs dynamic
work on the lowest-numbered such core. A request that stands is not repeated. -/
def State.demanded (s : State) (u : Nat) : Bool :=
  match s.taskOf u with
  | none => false
  | some x =>
    let pi := x.id.part
    let p := s.parts.get pi
    s.nodes.any fun n =>
      s.eligible pi n && (s.takerOf p n).isNone &&
        (let dynamic (y : Task) : Bool :=
            y.id.resident && y.live && !((s.node y.id.node).elim true Node.timetabled) &&
              (p.allowed n).contains (y.id.core, y.id.helper)
         let on : List Task := sortBy (fun y => y.id.core) (s.tasks.filter dynamic)
         !(on.any fun y => y.id.preempt) && (on.head?.map fun y => y.id.uid) == some u)

def execPreemptionRequest (u : Nat) (s : State) : Out :=
  .next (if s.demanded u then s.preemptIf fun x => x.id.uid == u else s)

/-! Deques (R283 to R286). -/

/-- What a context may take from a deque: not a reference that waits for another cluster. -/
def State.takes (s : State) (pi : Fin 16) (core : Nat) (k : Nat) : Bool :=
  match s.node k with
  | some n => s.waits pi n && (n.place != 2 || (s.parts.get pi).mapCluster n.cluster == core / 8)
  | none => false

/-- The other main contexts of a partition, ascending. -/
def Part.others (p : Part) (core : Nat) : List Nat := p.cores.filter fun c => c != core

/-- Whether work is placed on the cores of a partition at all: no operation on it is under way, and neither CONTAINMENT-LOST
nor a quiesced HOST-LOST stops it (R278, R380, R388). -/
def State.placing (s : State) (pi : Fin 16) : Bool :=
  let p := s.parts.get pi
  p.inUse && !s.dev.cLost && !(s.dev.hostLost && s.dev.quiesce) &&
    (match p.op with | .none | .applied false => true | _ => false)

/-- STEAL_PROBE: the idle core steps its generator and takes the older half of its victim's stealable references. A deque whose entries all
wait for another cluster does not keep its core from probing: R296 promises that a fired node starts (DESIGN CHOICE, log entry
119). -/
def execStealProbe (core : Nat) (s : State) : Out :=
  .next (match s.partOf core with
  | none => s
  | some pi =>
    let p := s.parts.get pi
    let c := s.core core
    let vs := p.others core
    if !s.placing pi || s.retired core || !s.idle core false || (s.entriesOf core false).any (s.takes pi core) || vs.isEmpty ||
        !(s.timetable pi core false).isEmpty then s
    else
      let x := stealStep c.gen
      let v := vs.getD (x.toNat % vs.length) core
      let victim := s.core v
      let stealable := victim.deque.filter fun k =>
        s.takes pi core k && (match s.node k with | some n => n.place != 1 | none => false)
      let m := (stealable.length + 1) / 2
      let taken := stealable.drop (stealable.length - m)
      let s := s.setCore { victim with deque := victim.deque.filter fun k => !taken.contains k }
      (s.setCore { c with gen := x, deque := taken ++ c.deque.filter s.standing }).letIn v false)

end Sys2Proof.Machine
end

