-- ==== Sys2Proof/Machine/EvCast.lean ====
section
/-! DEFINITION. Casts, and the dispatch of a task (R284, R306, R307). -/

namespace Sys2Proof.Machine

/-! The record of a mould (R301 to R303). -/

/-- Dword `i` of a record. -/
def recWord (b : List Byte) (i : Nat) : W64 := BitVec.ofNat 64 (leNat ((b.drop (8 * i)).take 8))

/-- `n` pairs from dword `i`. -/
def recPairs (b : List Byte) (i : Nat) : Nat → List (W64 × W64)
  | 0 => []
  | n + 1 => (recWord b i, recWord b (i + 1)) :: recPairs b (i + 2) n

/-- `n` command entries from dword `i`. -/
def recEntries (b : List Byte) : Nat → Nat → List MouldEntry
  | 0, _ => []
  | n + 1, i =>
    let x := recWord b i
    let k := fldOf x 52 48
    { kind := fldOf x 63 60, interval := fldOf x 47 32, syl := x.setWidth 32, pairs := recPairs b (i + 1) k } ::
      recEntries b n (i + 1 + 2 * k)

/-- What a dispatch makes of a mould: it casts once the pages hold, refuses, or refuses and marks the record STALE. -/
inductive CastCheck where
  | cast (pages : List (W64 × W64)) (c : Cast)
  | refuse
  | stale

/-- A page entry still holds, under the translation of its page (R306). -/
def State.pageHolds (s : State) (x : W64 × W64) (e : TlbEnt) : Bool :=
  (s.cause s.t e.leaf (e.tr (fldOf x.1 56 16 * 65536)) false 1 none).isNone && fldOf e.leaf 15 11 == fldOf x.2 15 11 &&
    fldOf e.leaf 10 8 == fldOf x.2 10 8

/-- The pages of a record are translated in their order, as an access would be, and `go` receives what becomes of them: they all hold, or one
does not (R306). A poisoned line of the translation tables is consumed by the task (R378). -/
def State.castPages (go : Bool → State → State) : List (W64 × W64) → State → State
  | [], s => go true s
  | x :: l, s =>
    let va := fldOf x.1 56 16 * 65536
    let asid := asidOf s.t.dtroot
    let next (e : TlbEnt) (s : State) : State := if s.pageHolds x e then State.castPages go l s else go false s
    let find (s : State) : State :=
      match s.dwalk s.t.dtroot va with
      | .leaf e => next e (s.dtlbFill e)
      | .bad .. => go false s
    match tlbFind (s.core s.t.id.core).dtlb asid va with
    | some e => next e (s.touch va)
    | none =>
      if (tlbFind (s.ctlb (s.t.id.core / 8)) asid va).isSome then find s
      else s.endWalk false (rootOf s.t.dtroot) va none s.t.pc find

/-- The checks of R306, of the current task's node, but for its pages. -/
def State.castCheck (s : State) (n : Node) : CastCheck :=
  let m : W32 := BitVec.ofNat 32 (n.f 7 31 0)
  let arg (k : Nat) : W64 := n.drec.get (Fin.ofNat 14 (8 + k))
  if m = 0 then .refuse
  else
    match s.tenantRead n.part (mouldAddr m) 64 with
    | none => .refuse
    | some h =>
      let d (i : Nat) : W64 := recWord h i
      if fldOf (d 0) 63 60 ≠ 2 then .refuse
      else if fldOf (d 0) 15 0 ≠ Config.stepid || fldOf (d 1) 63 56 ≠ (asidOf s.t.dtroot).toNat || d 2 ≠ s.part.mepoch then .stale
      else
        match s.tenantRead n.part (mouldAddr m) 32768 with
        | none => .refuse
        | some b =>
          let ng := fldOf (d 0) 59 56
          let np := fldOf (d 0) 55 51
          let guards := recPairs b 8 ng
          let pages := recPairs b (8 + 2 * ng) np
          let good (g : W64 × W64) : Bool :=
            match Rel.ofCode (fldOf g.1 63 61) with
            | some r => fldOf g.1 58 56 < 6 && Rel.holds r (arg (fldOf g.1 58 56)) g.2
            | none => false
          if !guards.all good then .refuse
          else
            .cast pages { left := recEntries b (fldOf (d 0) 47 32) (8 + 2 * ng + 2 * np), args := vecOf fun k => arg k.val
                          maddr := (d 4).setWidth 57 }

/-- The bytes of a mould's record that its dispatch reads. -/
def castLen (b : List Byte) : Nat :=
  let d := recWord b 0
  let i := 8 + 2 * fldOf d 59 56 + 2 * fldOf d 55 51
  let es := recEntries b (fldOf d 47 32) i
  min 32768 (8 * (i + es.foldl (fun n e => n + 1 + 2 * e.pairs.length) 0))

/-- The dispatch of a node with CAST = 1. A refusal runs the node from ROUTINE. A poisoned line of the record is consumed by the task
(R378). -/
def State.startCast (s : State) (n : Node) : State :=
  let m : W32 := BitVec.ofNat 32 (n.f 7 31 0)
  let len := (s.tenantRead n.part (mouldAddr m) 32768).elim 64 castLen
  let (s, bad) := if m = 0 then (s, none) else s.tenantMeet n.part (mouldAddr m) len
  if s.dev.cLost then s
  else match bad with
  | some line => s.consumePoison none line s.t.pc
  | none =>
    match s.castCheck n with
    | .cast pages c =>
      State.castPages (fun ok s =>
        if ok then s.withT fun t => { t with cast := some c, latch := { t.latch with addr := c.maddr, next := c.maddr } }
        else s.mouldState n.part m 7) pages s
    | .refuse => s
    | .stale => s.mouldState n.part m 7

/-! Issue groups (R303, R306). -/

/-- The meaning of a syllable that a record can hold; any other is an illegal one. -/
def castStep : Instr → State → Out
  | .wait o => execWait o
  | .tld o => execTld o
  | .tst o => execTst o
  | .tgth o => execTgth o
  | .tpick o => execTpick o
  | .trot o => execTrot o
  | .tdrop o => execTdrop o
  | .tmark o => execTmark o
  | .tunwind o => execTunwind o
  | .tzero o => execTzero o
  | .tfill o => execTfill o
  | .tshape o => execTshape o
  | .tjoin o => execTjoin o
  | .mma o => execMma o
  | .mmac o => execMmac o
  | .mmack o => execMmack o
  | .mmag o => execMmag o
  | .mscl o => execMscl o
  | .tadd o => execTadd o
  | .tsub o => execTsub o
  | .tmul o => execTmul o
  | .tfma o => execTfma o
  | .tmaxe o => execTmaxe o
  | .tmine o => execTmine o
  | .texp2 o => execTexp2 o
  | .trcp o => execTrcp o
  | .trmax o => execTrmax o
  | .trsum o => execTrsum o
  | .tcsum o => execTcsum o
  | .tscl o => execTscl o
  | .tbc o => execTbc o
  | .tcvt o => execTcvt o
  | .ttrn o => execTtrn o
  | .cpget o => execCpget o
  | .cpput o => execCpput o
  | .cpmc o => execCpmc o
  | .ldblk o => execLdblk o
  | .ldblkRel o => execLdblkRel o
  | .cpsort o => execCpsort o
  | .cpfill o => execCpfill o
  | .ksend o => execKsend o
  | .token o => execToken o
  | .join o => execJoin o
  | .leave o => execLeave o
  | .gbar o => execGbar o
  | .qpub o => execQpub o
  | .qfree o => execQfree o
  | .tlbi o => execTlbi o
  | .flushctx o => execFlushctx o
  | .icinv o => execIcinv o
  | _ => fun s => .next (s.trap 0x10)

/-- The staging image with the pairs of an entry, a patch giving ARGk + d; none where a pair names no staging register. -/
def Cast.image (c : Cast) (st : Vector W64 40) (e : MouldEntry) : Option (Vector W64 40) :=
  e.pairs.foldl (fun (st : Option (Vector W64 40)) p =>
    st.bind fun st =>
      let r := fldOf p.1 55 50
      let k := fldOf p.1 58 56
      if 40 ≤ r || (p.1.getLsbD 63 && 6 ≤ k) then none
      else
        let v := if p.1.getLsbD 63 then c.args.get (Fin.ofNat 6 k) + p.2 else p.2
        some (st.set (Fin.ofNat 40 r) v)) (some st)

/-- The image and the syllables of a group. -/
def Cast.group (c : Cast) (st : Vector W64 40) (g : List MouldEntry) : Option (Vector W64 40 × List Syl) :=
  let st' := g.foldl (fun (a : Option (Vector W64 40)) e => a.bind fun st => c.image st e) (some st)
  st'.bind fun st =>
    let l := g.filterMap MouldEntry.decode
    if l.length = g.length then some (st, l) else none

/-- One group issues, under the stack faults and holds of any bundle. -/
def State.castGroup (s : State) (c : Cast) : Out :=
  let (g, rest) := nextGroup c.left
  match c.group s.t.stg g with
  | none => .next (s.trap 0x10)
  | some (st, l) =>
    match (s.withT fun t => { t with stg := st }).issueSyls s castStep (fun _ => true) (issueOrder l) with
    | .next r =>
      if r.full then
        .next (r.s.orderAccs.withT fun t =>
          { t with bidx := t.bidx + 1, cast := some { c with left := rest }, ran := l, ranAt := c.maddr, past := (c.maddr :: t.past).take 3 })
      else .next r.s
    | .fault e => .fault e
    | .refused e => .refused e

/-- CAST_ISSUE_GROUP: the next group of a cast, or the DONE after the last one. A debug halt falls between groups (R307). -/
def execCastIssueGroup (u : Nat) (s : State) : Out :=
  if !s.hasTask u then .next s
  else
    let me := s.t.id.uid
    let f := s.focus u
    let out : Out :=
      match f.t.cast with
      | none => .next f
      | some c =>
        if f.t.run ≠ .running || f.coreFrozen then .next f
        else if f.t.id.haltReq && f.t.id.debug then .next f.haltNow
        else if c.left.isEmpty then .next (f.setRun .doneWait)
        else f.dropFences.castGroup c
    match out with
    | .next s => .next (s.focus me)
    | x => x

/-! Dispatch (R43, R256, R268, R284). -/

/-- The record as memory holds it now, where it can be read and keeps to R268. -/
def State.rereadRec (s : State) (n : Node) : Vector W64 14 :=
  match s.tenantRead n.part n.addr 112 with
  | some b => if recBad (s.parts.get n.part) (recOf b) || recId (recOf b) != n.id then n.drec else recOf b
  | none => n.drec

/-- A fresh task of a node. -/
def State.freshTask (s : State) (n : Node) (core : Nat) (helper : Bool) : Task :=
  let p := s.parts.get n.part
  let t := Task.fresh
  { t with
    id := { TaskId.none with
      uid := s.nextKey, node := n.key, part := n.part, core := core, helper := helper, system := n.system, resident := true
      debug := n.dbg, coord := (n.drec.get 2).setWidth 48, nodeId := n.id, trapr := (n.drec.get 1).setWidth 57 }
    run := .running
    s := vecOf fun i => if 48 ≤ i.val && i.val ≤ 53 then n.drec.get (Fin.ofNat 14 (i.val - 40)) else 0
    pc := (n.drec.get 0).setWidth 57
    stk := { Stack.reset with
      base := BitVec.ofNat 57 (n.f 5 56 16 * 65536), limit := n.f 5 12 0
      res := if n.f 4 4 0 = 0 then 8 else n.f 4 4 0 }
    dtroot := p.dtroot, itroot := p.itroot, pts := n.startT
    stage := if n.staged then { Stage.off with mode := .staging } else Stage.off }

/-- A node starts: its record is read, its task is made, and a cast is tried. A poisoned line of the record is consumed by the task
(R378). -/
def State.startTask (s : State) (k core : Nat) (helper : Bool) : State :=
  match s.node k with
  | none => s
  | some n =>
    let (s, bad) := s.tenantMeet n.part n.addr 112
    if s.dev.cLost then s
    else
    let s := s.updNode k fun x => { x with drec := s.rereadRec n }
    match s.node k with
    | none => s
    | some n =>
      let t := s.freshTask n core helper
      let s := { s with nextKey := s.nextKey + 1, others := s.others ++ [t] }
      let s := s.nodeTo k .running
      match bad with
      | some line => s.onTask t.id.uid fun s => s.consumePoison none line s.t.pc
      | none => if n.cast then s.onTask t.id.uid fun s => s.startCast n else s

/-- The task of a node that has left its core. -/
def State.suspendedOf (s : State) (k : Nat) : Option Task :=
  s.tasks.find? fun x => x.id.node == k && x.live && !x.id.resident

/-- The node takes the context: its suspended task resumes, or a fresh one starts. -/
def State.place (s : State) (k core : Nat) (helper : Bool) : State :=
  match s.suspendedOf k with
  | some x => s.resume x.id.uid core helper
  | none => s.startTask k core helper

/-- Whether a suspended task of the node could resume on the core now. -/
def State.canPlace (s : State) (core k : Nat) : Bool :=
  match s.suspendedOf k with
  | some x => x.movable core
  | none => true

/-- TASK_DISPATCH: a free context takes the first timetabled node that is eligible for it, or the newest reference of its
own deque. -/
def execTaskDispatch (core : Nat) (helper : Bool) (s : State) : Out :=
  .next (match s.partOf core with
  | none => s
  | some pi =>
    if !s.placing pi || s.retired core || !s.idle core helper || (helper && !(s.parts.get pi).split) then s
    else
      match s.timetable pi core helper with
      | n :: _ => if s.canPlace core n.key then s.place n.key core helper else s
      | [] =>
        let c := s.core core
        match (c.dq helper).find? (s.takes pi core) with
        | none => s
        | some k =>
          if s.canPlace core k then
            ((s.setCore (c.setDq helper ((c.dq helper).filter fun x => x != k && s.standing x))).place k core helper).letIn core
              helper
          else s)

end Sys2Proof.Machine
end

