-- ==== Sys2Proof/Machine/EvSched.lean ====
section
/-! DEFINITION. Events of the queue controller: writes of its registers, launches, frames, and partitions (R265 to R281,
R293 to R295, R370). -/

namespace Sys2Proof.Machine

/-! Writes of a register by the task in focus, as a CSRW would make them; a value that takes trap 0x25 has no effect. -/

def State.sysWriteOk (s : State) (n : Nat) (v : W64) : Bool :=
  (match csrReserved n with | some m => v &&& m == 0 | none => true) && !s.csrBad n v

def State.writeCsr (s : State) (n : Nat) (v : W64) : State := if s.sysWriteOk n v then s.csrWrite n v else s

/-- LNCH_WRITE (R265). -/
def execLnchWrite (v : W64) (s : State) : Out := .next (s.writeCsr 0x823 v)

/-- DBGCTL_HALT (R294). -/
def execDbgctlHalt (n : W32) (s : State) : Out := .next (s.writeCsr 0x822 (BitVec.ofNat 64 (n.toNat * 2 ^ 32 + 1)))

/-- DBGCTL_RESUME. -/
def execDbgctlResume (n : W32) (s : State) : Out := .next (s.writeCsr 0x822 (BitVec.ofNat 64 (n.toNat * 2 ^ 32 + 2)))

/-- NKILL_WRITE (R370). -/
def execNkillWrite (n : W32) (s : State) : Out := .next (s.writeCsr 0x825 (BitVec.ofNat 64 (n.toNat * 2 ^ 32)))

/-- The same of a register that only its own task writes: a cast writes none (R306, R362), and a recording aborts as at any CSRW
(R300). -/
def State.writeOwn (s : State) (n : Nat) (v : W64) : State :=
  if s.t.cast.isSome || !s.sysWriteOk n v then s
  else ((s.abortMould 5).withT fun t => { t with mrec := { t.mrec with impure := true } }).csrWrite n v

/-- FINJ_WRITE (R360, R362). -/
def execFinjWrite (v : W64) (s : State) : Out := .next (s.writeOwn 0xF8 v)

/-- FSEED_WRITE (R74). -/
def execFseedWrite (v : W64) (s : State) : Out := .next (s.writeOwn 0xD2 v)

/-- DEVST_LOCK_SET: LOCK is set, and the rest of devst stays (R391). -/
def execDevstLockSet (s : State) : Out := .next s.lockSet

/-- A write of a system CSR by firmware, on a die. -/
def State.firmwareWrite (s : State) (die : Fin 4) (n : BitVec 12) (v : W64) : State :=
  if n.toNat < 0x802 then s
  else
    let t := s.t.id
    let s := s.withT fun x => { x with id := { x.id with core := die.val * 96, helper := false } }
    (s.writeCsr n.toNat v).withT fun x => { x with id := { x.id with core := t.core, helper := t.helper } }

/-! Launches (R266, R267). -/

/-- The reserved bits of a launch record, whose dwords are `d`. -/
def launchReserved (d : Nat → Nat) : Bool :=
  bits (d 0) 63 57 != 0 || bits (d 0) 6 0 != 0 || bits (d 1) 46 16 != 0 || bits (d 2) 27 0 != 0 ||
    bits (d 3) 55 32 != 0 || d 4 != 0 || d 5 != 0 || d 6 != 0 || d 7 != 0

/-- Requests beyond the limits of R213, or another stepping. -/
def launchResource (d : Nat → Nat) : Bool :=
  bits (d 1) 47 47 == 0 &&
    (bits (d 1) 63 48 != Config.stepid || 56 < bits (d 2) 63 58 || 8 < bits (d 2) 57 54 || 32 < bits (d 2) 53 48 ||
      8 < bits (d 2) 47 44 || 16 < bits (d 2) 43 39 || 1024 < bits (d 2) 38 28 + 64 * bits (d 2) 43 39)

def hasDup : List W32 → Bool
  | [] => false
  | x :: l => l.contains x || hasDup l

/-- The node records of a graph; none where one cannot be read. -/
def State.graphRecs (s : State) (pi : Fin 16) (va : Nat) : Nat → Option (List (Nat × Vector W64 14))
  | 0 => some []
  | n + 1 =>
    match s.tenantRead pi va 112, s.graphRecs pi (va + 128) n with
    | some b, some l => some ((va, recOf b) :: l)
    | _, _ => none

/-- The lines that the check of a launch reads: those of its record, and of the records of its graph (R379). -/
def State.launchLines (s : State) (l : Launch) : List Nat :=
  let p := s.parts.get l.part
  let lines (va n : Nat) : List Nat := s.tenantLines l.part p.dtroot p.asid va n
  lines l.addr 64 ++
    (match s.tenantRead l.part l.addr 64 with
    | none => []
    | some b =>
      let d (i : Nat) : Nat := (dwordsOf b 8).getD i 0
      (List.range (bits (d 1) 15 0)).flatMap fun k => lines (bits (d 0) 56 7 * 128 + 128 * k) 112)

/-- STATUS of a launch by R267, with the records of its graph. A record on a poisoned line, which no context consumes, cannot be read
(DESIGN CHOICE, log entry 114). -/
def State.launchStatus (s : State) (l : Launch) : Nat × List (Nat × Vector W64 14) :=
  match s.tenantRead l.part l.addr 64 with
  | none => (3, [])
  | some b =>
    let d (i : Nat) : Nat := (dwordsOf b 8).getD i 0
    let count := bits (d 1) 15 0
    let bad : Bool := !s.mem.poison.isEmpty && (s.launchLines l).any (s.badLine 4 0 0)
    match if bad then none else s.graphRecs l.part (bits (d 0) 56 7 * 128) count with
    | none => (3, [])
    | some rs =>
      let p := s.parts.get l.part
      let ids := rs.map fun r => recId r.2
      if launchReserved d || count = 0 || rs.any (fun r => recBad p r.2) then (3, [])
      else if hasDup ids || (s.running l.part).any (fun n => ids.contains n.id) then (3, [])
      else if launchResource d then (2, [])
      else if !p.split && rs.any (fun r => fldOf (r.2.get 3) 59 59 == 1) then (2, [])
      else (1, rs)

/-- The launch frame: the current one when every DEADLINE lies after the current tick (R280). -/
def Part.launchFrame (p : Part) (rs : List (Nat × Vector W64 14)) : Nat :=
  let late (r : Nat × Vector W64 14) : Bool := fldOf (r.2.get 3) 62 62 == 1 && fldOf (r.2.get 3) 31 16 ≤ p.tick
  if rs.any late then p.frame + 1 else p.frame

/-- The core whose turn it is among those of a partition (R283). -/
def Part.turnCore (p : Part) : Nat := (p.cores.find? fun c => p.rr ≤ c).getD p.firstCore

/-- A node of an accepted launch enters READY, or fires at once. -/
def State.launchNode (s : State) (l : Launch) (frame : Nat) (r : Nat × Vector W64 14) : State :=
  let k := s.nextKey
  let s := s.addNode l.part l r.1 frame r.2 false 0
  match s.node k with
  | none => s
  | some n =>
    let p := s.parts.get l.part
    let c := p.turnCore
    let s := s.startNode k c
    if n.inputs = 0 && !n.timetabled && n.place != 1 then s.updPart l.part fun p => { p with rr := c + 1 } else s

/-- LAUNCH_CHECK: the queue controller takes launch `k`, under the tenant that its partition has now. One whose partition has been
released meanwhile is discarded (DESIGN CHOICE, log entry 108). -/
def execLaunchCheck (k : Nat) (s : State) : Out :=
  .next (match s.launch k with
  | none => s
  | some l =>
    if l.checked || s.dev.cLost then s
    else if !(s.parts.get l.part).inUse || (s.tenantTr l.part (l.addr + 24) 8 true).isNone then
      { s with launches := s.launches.filter fun x => x.key != k }
    else
      let s := s.lookupCopies ((s.launchLines l).map fun x => (x * 64, 64))
      if s.dev.cLost then s
      else
      let p := s.parts.get l.part
      let (st, rs) := s.launchStatus l
      let s := (s.updLaunch k fun x => { x with asid := p.asid, root := p.dtroot, checked := true, status := st, count := rs.length }).writeLaunch k
      match s.launch k with
      | some l => rs.foldl (fun s r => s.launchNode l ((s.parts.get l.part).launchFrame rs) r) s
      | none => s)

/-! Frames (R279 to R281). -/

/-- FRAME_TICK: one tick period has passed. A counter that a deadline stops counts the periods of the overrun instead. -/
def execFrameTick (pi : Fin 16) (s : State) : Out :=
  .next (let p := s.parts.get pi
  if !p.inUse then s
  else if s.nodes.any (fun (n : Node) => n.part == pi && p.stoppedBy n) then
    let halted (n : Node) : Bool := s.tasks.any fun x => x.id.node == n.key && x.run == .halted
    let overrun (n : Node) : Node :=
      if n.part = pi && p.stoppedBy n then { n with late := n.late + 1, halted := n.halted || halted n } else n
    State.updPart { s with nodes := s.nodes.map overrun } pi fun p => { p with stall := true }
  else s.updPart pi Part.nextTick)

/-! Partitions (R276 to R278). -/

/-- The reserved bits of a partition record. -/
def partReserved (d : Nat → Nat) : Bool :=
  bits (d 0) 62 48 != 0 || bits (d 1) 55 52 != 0 || bits (d 1) 11 1 != 0 || bits (d 2) 63 52 != 0 || bits (d 2) 11 0 != 0 ||
    bits (d 3) 31 4 != 0 || bits (d 4) 63 57 != 0 || bits (d 4) 5 0 != 0 || bits (d 5) 63 57 != 0 || bits (d 5) 16 16 != 0 ||
    d 6 != 0 || d 7 != 0

/-- BUSY falls, where pctl names the partition. -/
def State.pctlEnd (s : State) (pi : Fin 16) (err : Bool) : State :=
  if fldOf s.dev.pctl 3 0 = pi.val then
    s.updDev fun d => { d with pctl := BitVec.ofNat 64 (fldOf d.pctl 7 0 + if err then 2 ^ 62 else 0) }
  else s

/-- The clusters that a record names, but for those out of service, whose numbers go unused (R377). -/
def State.named (s : State) (d : Nat → Nat) : BitVec 48 := BitVec.ofNat 48 (d 0) &&& ~~~s.dev.lost

/-- An apply is refused (R277). -/
def State.applyRefused (s : State) (pi : Fin 16) (d : Nat → Nat) : Bool :=
  let p := s.parts.get pi
  let cl : BitVec 48 := s.named d
  let other (i : Fin 16) : Bool := i != pi && (s.parts.get i).inUse && (s.parts.get i).clusters &&& cl != 0
  bits (d 0) 63 63 == 0 || partReserved d || cl == 0 || (List.finRange 16).any other ||
    ((bits (d 1) 0 0 == 1) != p.split && s.tasks.any fun x => x.id.part == pi && x.id.resident && x.live)

/-- The fields of a record, with the clusters that it names. -/
def Part.load (p : Part) (d : Nat → Nat) (cl : BitVec 48) : Part :=
  { p with
    inUse := true, clusters := cl, asid := BitVec.ofNat 8 (bits (d 1) 63 56)
    dtroot := BitVec.ofNat 64 (bits (d 1) 63 1 * 2), itroot := BitVec.ofNat 64 (d 2), split := bits (d 1) 0 0 == 1
    tper := bits (d 3) 63 48, flen := bits (d 3) 47 32, kmax := bits (d 3) 3 0, slog := bits (d 4) 56 6 * 64
    save := bits (d 5) 56 17 * 131072, saven := bits (d 5) 15 0 }

/-- The waiting nodes of a partition's tenant that stand in no deque of its cores, since the partition was released or had another
tenant meanwhile, come back to one: each at the context where its task left, or at the first core (DESIGN CHOICE, log entry
107). -/
def State.requeue (s : State) (pi : Fin 16) : State :=
  let p := s.parts.get pi
  let mine := s.nodes.filter fun n => s.waits pi n && !n.timetabled
  let inDeque (c : Core) (k : Nat) : Bool := c.deque.contains k || c.hdeque.contains k
  let lost := mine.filter fun n => !(p.cores.any fun c => inDeque (s.core c) n.key)
  let drop (l : List Nat) : List Nat := l.filter fun k => !(lost.any fun n => n.key == k)
  let s := { s with cores := s.cores.map fun (c : Core) => { c with deque := drop c.deque, hdeque := drop c.hdeque } }
  lost.foldl (fun (s : State) n =>
    let at_ : Nat × Bool := match s.suspendedOf n.key with
      | some x => (p.mapCluster (x.id.core / 8) * 8 + x.id.core % 8, x.id.helper)
      | none => (p.firstCore, false)
    s.push n at_.1 at_.2) s

/-- The cores of a partition that must be scrubbed before its tenant has them (R224). -/
def State.unclean (s : State) (pi : Fin 16) : List Nat :=
  let p := s.parts.get pi
  p.cores.filter (s.dirty p.asid)

/-- The cores of a partition are its tenant's from now on, or have no tenant's data. -/
def State.setTenant (s : State) (pi : Fin 16) (a : Option Byte) : State :=
  (s.parts.get pi).cores.foldl (fun (s : State) c => s.setCore { s.core c with tenant := a }) s

/-- PCTL_APPLY. A new tenant's record takes effect once every task of the old tenant has left its core. No task is placed while a core
that another tenant used is to be scrubbed (R224). -/
def execPctlApply (pi : Fin 16) (s : State) : Out :=
  .next (let p := s.parts.get pi
  if p.op ≠ .apply then s
  else
    let base := fldOf s.dev.pttbase 51 12 * 4096 + 64 * pi.val
    let s := s.meet (linesOf base 64)
    let d (i : Nat) : Nat := (s.mem.hwDword (base + 8 * i)).toNat
    if s.applyRefused pi d then (s.updPart pi fun p => { p with op := .none }).pctlEnd pi true
    else
      let asid : Byte := BitVec.ofNat 8 (bits (d 1) 63 56)
      let cl := s.named d
      let here (x : Task) : Bool := x.id.part == pi && x.id.resident && x.live
      if p.inUse && asid ≠ p.asid && s.tasks.any here then s.preemptIf here
      else
        let s := s.updPart pi fun p =>
          let q := if p.inUse then p else { p with frame := 0, tick := 0, stall := false, rr := 0 }
          { q.load d cl with op := .applied false }
        let s := if (s.unclean pi).isEmpty then s.setTenant pi (some asid) else s.updPart pi fun p => { p with op := .applied true }
        let s := (s.bumpEpoch pi).seedSteal pi
        ((if p.inUse then s.recut pi p.clusters cl else s).requeue pi).letInAll pi)

/-- PCTL_RELEASE: every task of the partition is asked to leave. -/
def execPctlRelease (pi : Fin 16) (s : State) : Out :=
  .next (if (s.parts.get pi).op ≠ .release then s
  else
    (s.updPart pi fun p => { p with op := .releasing }).preemptIf fun x => x.id.part == pi && x.id.resident)

/-- The local stores of some cores are scrubbed to zero (R224). The bench and the stores of the stack hold no entry then, and the mould
store is not part of this state. -/
def State.scrub (s : State) (cs : List Nat) : State :=
  let gone (a : Nat) : Bool := cs.any fun c => windowPa c 0 ≤ a && a < windowPa c 0 + 0x200000
  { s with mem := { s.mem with cells := s.mem.cells.filter fun x => !gone x.1
                               stamps := s.mem.stamps.filter fun x => !gone x.1
                               tags := s.mem.tags.filter fun x => !gone (x.1 * 64) } }

/-- A suspended task still has entries on one of some cores (R61). -/
def State.entriesOn (s : State) (cs : List Nat) : Bool :=
  s.tasks.any fun x => x.live && !x.id.resident && cs.contains x.id.core && x.stk.entries.any fun e => e.level != 3

/-- V of a partition's record is cleared (R278). -/
def State.clearV (s : State) (pi : Fin 16) : State :=
  let a := fldOf s.dev.pttbase 51 12 * 4096 + 64 * pi.val
  s.devWrite none a (leBytes 8 ((s.mem.hwDword a).toNat % 2 ^ 63))

/-- The end of the operation on one partition, when everything it waits for is done. -/
def State.partEnd (s : State) (pi : Fin 16) : State :=
  let p := s.parts.get pi
  let stays (x : Task) : Bool := x.id.part == pi && x.id.resident && x.live
  match p.op with
  | .applied scrub =>
    if (s.tasks.any fun x => stays x && !p.cores.contains x.id.core) || (scrub && s.entriesOn (s.unclean pi)) then s
    else
      let s := if scrub then (s.scrub (s.unclean pi)).setTenant pi (some p.asid) else s
      (s.updPart pi fun p => { p with op := .none }).pctlEnd pi false
  | .releasing =>
    if s.tasks.any stays then s
    else
      ((s.clearV pi).updPart pi fun p => { p with op := .none, inUse := false, clusters := 0, stall := false }).pctlEnd pi false
  | _ => s

/-- PARTITION_OP_COMPLETE. -/
def execPartitionOpComplete (s : State) : Out := .next ((List.finRange 16).foldl (fun s i => s.partEnd i) s)

/-- SAVE_SLOT_TIMEOUT: an operation has waited for a save slot; each task that still needs one is killed, which does not count
toward KMAX (R293). -/
def execSaveSlotTimeout (pi : Fin 16) (s : State) : Out :=
  .next (let p := s.parts.get pi
  let busy := match p.op with | .apply | .applied _ | .releasing => true | _ => false
  if busy && p.saven ≤ (s.slotsHeld pi p.asid).length then
    (s.tasks.filter fun x => x.id.part == pi && x.id.resident && x.live && x.id.preempt).foldl
      (fun (s : State) x => s.kill x.id.node .saveSlot) s
  else s)

end Sys2Proof.Machine
end

