-- ==== Sys2Proof/Machine/EvHost.lean ====
section
/-! DEFINITION. Events of checking, power and reset (R36, R367, R379, R383, R387, R392, R396), of the host and the fabric
(R386 to R391), and of the Roskan controller (R393, R394). -/

namespace Sys2Proof.Machine

/-! Checks. -/

/-- The bundle at the pc of the task in focus has reached issue: no late reply, IFENCE, pre-emption or halt stops it before. -/
def State.reachesIssue (s : State) : Bool :=
  s.t.run == .running && !s.coreFrozen && !s.mustStop && s.t.cast.isNone && !(s.t.id.haltReq && s.t.id.debug) &&
    s.lateReply.isNone && !s.landed.t.ifenced

/-- DEMAND_FETCH: the next bundle is fetched; a miss freezes the core, and what traps does so where the bundle has reached issue (R36,
R115). -/
def execDemandFetch (u : Nat) (s : State) : Out :=
  .next (s.onTask u fun s =>
    if s.t.run != .running || s.coreFrozen || s.t.cast.isSome then s
    else
      match s.fetchBundle s.t.pc.toNat with
      | .ok _ _ => s.useLine s.t.pc.toNat
      | .stop f => s.freeze f
      | .trap c => if s.reachesIssue then s.landed.trapFetched c else s)

/-- ILLEGAL_BUNDLE: the bundle at the pc of the task in focus reaches issue and is illegal: it takes trap 0x10, and in no
other case (R35, R36, R378). -/
def execIllegalBundle (s : State) : Out :=
  .next (if s.reachesIssue && s.landed.front == .trap 0x10 then s.landed.trapFetched 0x10 else s)

/-- SIGNATURE_MISMATCH: the shadow's signature of a bundle differs by `x`; the main engine has issued two bundles since
(R367). In split mode no signature is compared, and a cast issues no bundle. -/
def execSignatureMismatch (u : Nat) (x : W32) (s : State) : Out :=
  .next (match s.taskOf u with
  | none => s
  | some t =>
    match t.past with
    | [_, _, a] =>
      if x = 0 || !t.works || t.cast.isSome || (s.parts.get t.id.part).split then s
      else
        let y : Upset := { cls := 9, slot := 0, op := 0, facet := 0, lane := 0, phys := 0, arr := .regs, syn := x.setWidth 16 }
        s.machineCheck u [(y, a, none)]
    | _ => s)

/-- CONTAINMENT_SCRUB: copies that cannot be reconciled end containment; any other difference is repaired (R379). -/
def execContainmentScrub (s : State) : Out := .next s.scrubCopies

/-- PATINA_MEASUREMENT: cluster `cl` has drifted by `drift` hundredths of a percent. Beyond LIMIT its cap falls by 25 MHz, not
below 1,200, and a record is written (R383). -/
def execPatinaMeasurement (cl drift : Nat) (s : State) : Out :=
  .next (if 48 ≤ cl then s
  else
    let c : Fin 48 := Fin.ofNat 48 cl
    let cap := (s.dev.patcap.get c).1.toNat
    let crossed := fldOf s.dev.patcfg 15 8 * 10 < drift
    let new := if crossed then max (cap - 25) 1200 else cap
    let s := s.updDev fun d => { d with patcap := d.patcap.set c (BitVec.ofNat 16 new, BitVec.ofNat 16 drift) }
    if crossed then
      s.logRecord (Fin.ofNat 4 (cl / 12)) (BitVec.ofNat 64 (11 * 2 ^ 60 + cl * 8 * 2 ^ 51 + new)) 0
        (BitVec.ofNat 64 (0xFFFFFFFF * 2 ^ 32)) s.ros.time
    else s)

/-! Power (R396). No clock rate is part of a result: steps are counted. -/

/-- POWER_CLAMP. -/
def execPowerClamp (on : Bool) (s : State) : Out :=
  .next { s with ros := { s.ros with clamp := if on then s.ros.clamp + 1 else s.ros.clamp - 1 } }

/-- What a module reset leaves: the memory stacks, the controller's non-volatile data, and what stands outside the module's
control; LOCK and all processor state go (R374, R380, R391, R392), but for HOST-LOST, which only an FLR ends (R388). -/
def State.moduleReset (s : State) : State :=
  let r := State.reset
  let m := s.mem
  { r with
    cores := s.cores.map fun c => { Core.fresh c.num with semap := c.semap, errs := c.errs, rows := c.rows }
    mem := { r.mem with
      cells := m.cells.filter fun x => !(0x10000000000 ≤ x.1 && x.1 < 0x10030000000)
      tags := m.tags, poison := m.poison, retired := m.retired, frames := m.frames, remap := m.remap }
    pmap := s.pmap
    dev := { r.dev with spares := s.dev.spares, phys := s.dev.phys, lost := s.dev.lost, hostLost := s.dev.hostLost }
    host := { r.host with linkUp := s.host.linkUp, msix := s.host.msix, far := s.host.far }
    ros := { r.ros with
      links := s.ros.links, active := s.ros.active, staged := s.ros.staged, events := s.ros.events, time := s.ros.time
      hot := s.ros.hot, clamp := s.ros.clamp }
    turn := s.turn, fv := s.fv, nextKey := s.nextKey }

/-- MODULE_RESET. -/
def execModuleReset (s : State) : Out := .next s.moduleReset

/-- DIE_OVERTEMP: a die crosses 105 or 115 degrees. -/
def execDieOvertemp (die deg : Nat) (s : State) : Out :=
  .next (if 4 ≤ die then s
  else if 115 < deg then (s.report (.trip die)).moduleReset
  else
    let d : Fin 4 := Fin.ofNat 4 die
    let n := s.ros.hot.get d
    { s with ros := { s.ros with hot := s.ros.hot.set d (if 105 < deg then n + 1 else n - 1) } })

/-! Function-level reset (R387). -/

/-- The steps of one partition: its nodes are killed, also those that a release left in save slots, and its launches not yet accepted
are discarded. One in use then has its ASID flushed and its cores scrubbed, and is released. -/
def State.resetPart (s : State) (pi : Fin 16) : State :=
  let p := s.parts.get pi
  let s := s.nodes.foldl (fun (s : State) (n : Node) => if n.part = pi then s.kill n.key .nkill else s) s
  let s := { s with launches := s.launches.filter fun l => !(l.part == pi && l.status == 0) }
  if !p.inUse then s
  else
    let s := (((s.flushAsid p.asid).getD s).bumpAll.scrub p.cores).setTenant pi none
    ((s.clearV pi).updPart pi fun p => { p with inUse := false, clusters := 0, stall := false, op := .none }).pctlEnd pi false

/-- The registers of one function. -/
def State.resetFn (s : State) (fn : Fin 64) : State :=
  { s with host := { s.host with dmab := s.host.dmab.set fn 0, dmal := s.host.dmal.set fn 0
                                 nopart := s.host.nopart &&& ~~~((1 : BitVec 64) <<< fn.val) } }

/-- The partition bound to a function (R385). -/
def State.boundTo (s : State) (fn : Fin 64) : Option (Fin 16) :=
  (List.finRange 16).find? fun p =>
    let b := s.dev.pfbind.get p
    b.getLsbD 63 && fldOf b 5 0 == fn.val

/-- Every CSR at its reset value, but for the fabric window table, LOCK, DEVID and the state of R374. -/
def DevRegs.flr (d : DevRegs) (linkUp : Bool) : DevRegs :=
  let r := DevRegs.reset
  { r with
    lock := d.lock, devid := d.devid, fwent := d.fwent, mcwin := d.mcwin, spares := d.spares, phys := d.phys, lost := d.lost
    hostLost := d.hostLost && !linkUp }

/-- FUNCTION_LEVEL_RESET. That of function 0 ends CONTAINMENT-LOST, and HOST-LOST once the link is back (R388). -/
def execFunctionLevelReset (fn : Fin 64) (s : State) : Out :=
  .next (if fn.val = 0 then
    let s := (List.finRange 16).foldl (fun s p => s.resetPart p) s
    let s := (List.finRange 64).foldl (fun s f => s.resetFn f) s
    { s with
      parts := Vector.replicate 16 Part.off, launches := []
      dev := s.dev.flr s.host.linkUp, ros := { s.ros with copies := [] } }
  else
    match s.boundTo fn with
    | some p => (s.resetPart p).resetFn fn
    | none => s.resetFn fn)

/-! The host (R386, R388). -/

/-- What the host reads at an offset of BAR0 of a function. In recovery hid reads as zero (R393). -/
def State.bar0 (s : State) (fn : Fin 64) (ofs : Nat) : W64 :=
  if ofs = 0 then (if s.ros.recovery then 0 else BitVec.ofNat 64 Config.stepid)
  else if ofs = 0x1008 then (if s.dev.cLost then 2 else 0) ||| (if s.host.nopart.getLsbD fn.val then 1 else 0)
  else if ofs = 0x2000 then s.host.dmab.get fn
  else if ofs = 0x2008 then s.host.dmal.get fn
  else 0

/-- HOST_LINK_DOWN: the device enters HOST-LOST. -/
def execHostLinkDown (s : State) : Out :=
  .next (if !s.host.linkUp then s
  else
    State.report { s with host := { s.host with linkUp := false }, dev := { s.dev with hostLost := true } } .hostLost)

/-- HOST_LINK_UP. -/
def execHostLinkUp (s : State) : Out := .next { s with host := { s.host with linkUp := true } }

/-- HLNCH_WRITE. -/
def execHlnchWrite (fn : Fin 64) (v : W64) (s : State) : Out :=
  .next (match s.boundTo fn with
  | some p =>
    if (s.parts.get p).inUse then s.submit (fldOf v 56 7 * 128) p
    else { s with host := { s.host with nopart := s.host.nopart ||| (1 : BitVec 64) <<< fn.val } }
  | none => { s with host := { s.host with nopart := s.host.nopart ||| (1 : BitVec 64) <<< fn.val } })

/-- HSTAT_NOPART_CLEAR. -/
def execHstatNopartClear (fn : Fin 64) (s : State) : Out :=
  .next { s with host := { s.host with nopart := s.host.nopart &&& ~~~((1 : BitVec 64) <<< fn.val) } }

/-- HOST_REGISTER_WRITE: dmab and dmal keep bits [51:12]; no other offset is writable in this way. -/
def execHostRegisterWrite (fn : Fin 64) (ofs : Nat) (v : W64) (s : State) : Out :=
  let x := v &&& bitMask 51 12
  .next (if ofs = 0x2000 then { s with host := { s.host with dmab := s.host.dmab.set fn x } }
  else if ofs = 0x2008 then { s with host := { s.host with dmal := s.host.dmal.set fn x } }
  else s)

/-! The Kranum links (R389). -/

/-- KRANUM_FLIT_RECEIVE: a flit that fails its CRC is resent. -/
def execKranumFlitReceive (link : Fin 16) (crc : Bool) (s : State) : Out :=
  .next (if s.ros.links.getLsbD link.val then
    { s with ros := { s.ros with resends := s.ros.resends.set link (if crc then 0 else s.ros.resends.get link + 1) } }
  else s)

/-- LINK_RETRY_EXPIRY. -/
def execLinkRetryExpiry (link : Fin 16) (s : State) : Out :=
  .next (if s.ros.links.getLsbD link.val && s.ros.resends.get link != 0 then
    State.report { s with ros := { s.ros with links := s.ros.links &&& ~~~((1 : BitVec 16) <<< link.val)
                                              resends := s.ros.resends.set link 0 } } (.linkOut link)
  else s)

/-- KRANUM_LINK_RETURN. -/
def execKranumLinkReturn (link : Fin 16) (s : State) : Out :=
  .next (if s.ros.links.getLsbD link.val then s
  else State.report { s with ros := { s.ros with links := s.ros.links ||| (1 : BitVec 16) <<< link.val } } (.linkBack link))

/-! The fabric (R390, R391). -/

/-- A request of another device is refused: by the window table, by a retired frame, or for want of a key. -/
def State.fabricRefused (s : State) (r : FabricReq) : Bool :=
  let e := s.dev.fwent.get r.dev
  let n := r.data.length
  let own := r.dev.val == s.dev.devid.toNat
  let pages := (List.range ((r.ofs.toNat % 65536 + n + 65535) / 65536)).map fun i => r.ofs.toNat / 65536 + i
  (!own && (!e.getLsbD 1 || (r.op != .read && !e.getLsbD 0))) || 2 ^ 39 < r.ofs.toNat + n ||
    pages.any (fun f => s.mem.retired.contains f) || (r.e && !s.ros.keys.contains r.asid)

/-- What a request writes over the bytes that it finds; none where it writes nothing (R167, R168). -/
def FabricReq.writes (r : FabricReq) (old : List Byte) : Option (List Byte) :=
  let n := r.data.length
  let amo (op : AmoOp) : Option (List Byte) := some (leBytes n (op.run n (leNat old) (leNat r.data)))
  match r.op with
  | .read => none
  | .write => some r.data
  | .add => amo .add
  | .and => amo .and
  | .or => amo .or
  | .xor => amo .xor
  | .min => amo .min
  | .max => amo .max
  | .swp => amo .swp
  | .cas x => if old = x then some r.data else none

/-- FABRIC_REQUEST: performed at device memory at .dev, under the key of the ASID it carries. `data` has the length of a
read. -/
def execFabricRequest (r : FabricReq) (s : State) : Out :=
  .next (let pa := r.ofs.toNat
  let key : Option Byte := if r.e then some r.asid else none
  let s := s.lookupCopies [(pa, r.data.length)]
  if s.dev.cLost || s.fabricRefused r then s
  else
    let (old, t) := s.mem.readBytes 4 0 0 key pa r.data.length
    match FabricReq.writes r old with
    | some b => s.devWrite key pa b
    | none => { s with mem := s.mem.lease 4 0 pa r.data.length t none })

/-- DEVICE_FAULT_SIGNAL: a collective that has a member on the faulted device ends with status 1 or 3, which is a free choice. Whether
one that still waits for members has one there is free too (R382). -/
def execDeviceFaultSignal (dev : Nat) (s : State) : Out :=
  .next (let s := s.report (.peerFault dev)
  let pick (c : Coll) (k : Nat) : Bool := Config.freePick s.fv (2 * c.key + k)
  let there (m : Member) : Bool := m.dev.any fun d => d.val == dev
  let hit (c : Coll) : Bool := c.status == 0 && (c.members.any there || (c.members.length < c.size && pick c 0))
  let fail (c : Coll) : Coll :=
    if hit c then
      { c with started := true, status := if pick c 1 then 1 else 3
               members := c.members.map fun m => if there m then { m with ended := true } else m }
    else c
  State.sweepColls { s with fv := s.fv + 1, colls := s.colls.map fail })

/-! The Roskan controller (R392 to R394). -/

/-- KEY_INSTALL: refused while a key is present for the ASID. -/
def execKeyInstall (asid : BitVec 8) (s : State) : Out :=
  .next (if s.ros.recovery || s.ros.keys.contains asid then s
  else { s with ros := { s.ros with keys := asid :: s.ros.keys } })

/-- KEY_DESTROY: the key goes when the next FLUSHCTX of the ASID completes. -/
def execKeyDestroy (asid : BitVec 8) (s : State) : Out :=
  .next (if s.ros.recovery || !s.ros.keys.contains asid || s.ros.keyDying.contains asid then s
  else { s with ros := { s.ros with keyDying := asid :: s.ros.keyDying } })

/-- GET_MEASUREMENTS returns indices 1 to 4. -/
def execGetMeasurements (s : State) : Out :=
  .next (if s.ros.recovery then s else s.report (.measured s.ros.meas.toList))

/-- FIRMWARE_UPDATE: an image is staged, and activated where its signature is good. The next boot runs it. -/
def execFirmwareUpdate (img : Nat) (s : State) : Out :=
  .next { s with ros := { s.ros with staged := some img
                                     active := if Config.signatureGood 2 img then some img else s.ros.active } }

/-- BOOT_STAGE_VERIFY: the stages come in the order 1 to 4, each measured before it runs. An image whose signature fails is not
run, and the device stays in recovery. The image of stage 4 is the fabric window table with DEVID, measured at LOCK (R393). -/
def execBootStageVerify (stage hash : Nat) (s : State) : Out :=
  .next (if s.ros.recovery || stage ≠ s.ros.bootStage + 1 || 4 < stage then s
  else if Config.signatureGood stage (if stage = 4 then s.tableHash else hash) then
    let k : Fin 4 := Fin.ofNat 4 (stage - 1)
    if stage = 4 then State.lockSet { s with ros := { s.ros with bootStage := 4 } }
    else { s with ros := { s.ros with bootStage := stage
                                      meas := s.ros.meas.set k (Config.extendMeasure (s.ros.meas.get k) hash) } }
  else { s with ros := { s.ros with recovery := true } })

/-- POWER_ON: all state but the controller's non-volatile data is gone; the clock of TIME starts (R369, R392). The power-on
measurement of the patina monitors comes with PATINA_MEASUREMENT. -/
def execPowerOn (s : State) : Out :=
  .next (let r := State.reset
  { r with
    cores := s.cores.map fun c => { Core.fresh c.num with semap := c.semap, errs := c.errs, rows := c.rows }
    mem := { r.mem with retired := s.mem.retired, remap := s.mem.remap }
    dev := { r.dev with spares := s.dev.spares, phys := s.dev.phys, lost := s.dev.lost }
    host := { r.host with far := s.host.far }
    ros := { r.ros with active := s.ros.active, events := s.ros.events }
    turn := s.turn, fv := s.fv, nextKey := s.nextKey })

end Sys2Proof.Machine
end

