-- ==== Sys2Proof/Machine/Scalar.lean ====
section
/-! DEFINITION. The SA and SB slots: integer arithmetic, logic, constants, bit fields, compares and moves into staging
registers (R152 to R161). Nothing here sets a flag or traps (R139). -/

namespace Sys2Proof.Machine

/-! Shapes of operation. -/

/-- A result of two sources (R153). -/
def alu2 (lat : Nat) (f : W64 → W64 → W64) (o : OR3) (s : State) : Out :=
  guarded o.g (fun s =>
    s.wr o.g o.d lat (f (s.src o.ix o.a) (s.src o.ix o.b)) ((s.srcOrg o.a).join (s.srcOrg o.b))) s

/-- A result of one source (R155, R156). -/
def alu1 (f : W64 → W64) (o : OR2) (s : State) : Out :=
  guarded o.g (fun s => s.wr o.g o.d 1 (f (s.src o.ix o.a)) (s.srcOrg o.a)) s

/-! Functions of values. -/

def mulHigh (a b : W64) : W64 := BitVec.ofInt 64 (a.toInt * b.toInt / 2 ^ 64)
def mulHighU (a b : W64) : W64 := BitVec.ofNat 64 (a.toNat * b.toNat / 2 ^ 64)

/-- R154. The quotient of −2^63 by −1 wraps to −2^63. -/
def divS (a b : W64) : W64 := if b = 0 then -1 else BitVec.ofInt 64 (a.toInt.tdiv b.toInt)
def divU (a b : W64) : W64 := if b = 0 then -1 else a / b
def remS (a b : W64) : W64 := if b = 0 then a else BitVec.ofInt 64 (a.toInt.tmod b.toInt)
def remU (a b : W64) : W64 := if b = 0 then a else a % b

/-- A shift amount is b[5:0]. -/
def shAmt (b : W64) : Nat := b.toNat % 64

def minS (a b : W64) : W64 := if a.toInt ≤ b.toInt then a else b
def maxS (a b : W64) : W64 := if a.toInt ≤ b.toInt then b else a
def minU (a b : W64) : W64 := if a.toNat ≤ b.toNat then a else b
def maxU (a b : W64) : W64 := if a.toNat ≤ b.toNat then b else a

/-- Leading zeros of the low `n` bits. -/
def clzGo (a : W64) : Nat → Nat
  | 0 => 0
  | n + 1 => if a.getLsbD n then 0 else clzGo a n + 1

def clz (a : W64) : W64 := BitVec.ofNat 64 (clzGo a 64)

/-- Trailing zeros from bit 64 − n upward. -/
def ctzGo (a : W64) : Nat → Nat
  | 0 => 0
  | n + 1 => if a.getLsbD (63 - n) then 0 else ctzGo a n + 1

def ctz (a : W64) : W64 := BitVec.ofNat 64 (ctzGo a 64)

def popcount {w : Nat} (a : BitVec w) : Nat := (List.range w).foldl (fun n i => if a.getLsbD i then n + 1 else n) 0

/-- The low `w` bits, for w up to 64. -/
def lowBits (a : W64) (w : Nat) : W64 := a &&& BitVec.ofNat 64 (2 ^ w - 1)

/-- The low `w` bits as a signed value. -/
def signBits (a : W64) (w : Nat) : W64 := BitVec.ofInt 64 (if w = 0 then 0 else toSigned w a.toNat)

/-- w of EXT (R158). -/
def extWidth (b : W64) : Nat := min (b.toNat % 128) 64

/-- BFI (R159): bits above bit 63 are dropped. -/
def insertBits (a b : W64) (pos w : Nat) : W64 :=
  let m : W64 := BitVec.ofNat 64 (2 ^ w - 1) <<< pos
  (a &&& ~~~m) ||| ((b <<< pos) &&& m)

/-- The conditions of CMP (R160). -/
def Cond.test (c : Cond) (a b : W64) : Bool :=
  match c with
  | .eq => a == b
  | .ne => a != b
  | .lt => a.toInt < b.toInt
  | .le => a.toInt ≤ b.toInt
  | .gt => b.toInt < a.toInt
  | .ge => b.toInt ≤ a.toInt
  | .ltu => a.toNat < b.toNat
  | .leu => a.toNat ≤ b.toNat
  | .gtu => b.toNat < a.toNat
  | .geu => b.toNat ≤ a.toNat
  | .tst => a &&& b != 0
  | .ntst => a &&& b == 0

/-! Arithmetic and logic (R153, R154). Latencies of R120. -/

def execAdd (o : OR3) (s : State) : Out := alu2 1 (· + ·) o s
def execSub (o : OR3) (s : State) : Out := alu2 1 (· - ·) o s
def execMul (o : OR3) (s : State) : Out := alu2 3 (· * ·) o s
def execMulh (o : OR3) (s : State) : Out := alu2 3 mulHigh o s
def execMulhu (o : OR3) (s : State) : Out := alu2 3 mulHighU o s
def execDiv (o : OR3) (s : State) : Out := alu2 12 divS o s
def execDivu (o : OR3) (s : State) : Out := alu2 12 divU o s
def execRem (o : OR3) (s : State) : Out := alu2 12 remS o s
def execRemu (o : OR3) (s : State) : Out := alu2 12 remU o s
def execAnd (o : OR3) (s : State) : Out := alu2 1 (· &&& ·) o s
def execOr (o : OR3) (s : State) : Out := alu2 1 (· ||| ·) o s
def execXor (o : OR3) (s : State) : Out := alu2 1 (· ^^^ ·) o s
def execAndn (o : OR3) (s : State) : Out := alu2 1 (fun a b => a &&& ~~~b) o s
def execShl (o : OR3) (s : State) : Out := alu2 1 (fun a b => a <<< shAmt b) o s
def execShr (o : OR3) (s : State) : Out := alu2 1 (fun a b => a >>> shAmt b) o s
def execSra (o : OR3) (s : State) : Out := alu2 1 (fun a b => a.sshiftRight (shAmt b)) o s
def execRot (o : OR3) (s : State) : Out := alu2 1 (fun a b => a.rotateLeft (shAmt b)) o s
def execMin (o : OR3) (s : State) : Out := alu2 1 minS o s
def execMax (o : OR3) (s : State) : Out := alu2 1 maxS o s
def execMinu (o : OR3) (s : State) : Out := alu2 1 minU o s
def execMaxu (o : OR3) (s : State) : Out := alu2 1 maxU o s

/-! Unary operations and SEL (R155). -/

def execClz (o : OR2) (s : State) : Out := alu1 clz o s
def execCtz (o : OR2) (s : State) : Out := alu1 ctz o s
def execPopc (o : OR2) (s : State) : Out := alu1 (fun a => BitVec.ofNat 64 (popcount a)) o s

/-- SEL: the result depends on the predicate too. -/
def execSel (o : OR3n) (s : State) : Out :=
  guarded o.g (fun s =>
    let org := ((s.srcOrg o.a).join (s.srcOrg o.b)).join (s.t.porg.get o.n)
    s.wr o.g o.d 1 (if s.t.p.getLsbD o.n.val then s.src o.ix o.a else s.src o.ix o.b) org) s

/-! Moves and constants (R156, R157). -/

def execMov (o : OR2) (s : State) : Out := alu1 id o s

/-- MOV to a staging register, with latency 1. -/
def execMovStaging (o : OStg) (s : State) : Out :=
  guarded o.g (fun s => s.fly (.stg o.d) 1 (.w (s.src o.ix o.a)) ((s.srcOrg o.a).join (s.t.porg.get o.g))) s

/-- MOV.patch: a recording compares the value with launch argument k plus d (R300). -/
def execMovPatch (o : OPatch) (s : State) : Out :=
  guarded o.g (fun s =>
    let x := s.src none o.a
    let want := s.arg o.k + o.off.signExtend 64
    s.fly (.stg o.d) 1 (.patch x o.k o.off (x == want)) ((s.srcOrg o.a).join (s.t.porg.get o.g))) s

def execMovi (o : OMovi) (s : State) : Out :=
  guarded o.g (fun s => s.wr o.g o.d 1 (lowBits (s.src o.ix o.b) 32) (s.srcOrg o.b)) s

def execMoviH (o : OR3) (s : State) : Out := alu2 1 (fun a b => (b <<< 32) ||| lowBits a 32) o s

/-! LEA, EXT and bit fields (R158, R159). -/

def execLea (o : OR3n) (s : State) : Out :=
  guarded o.g (fun s =>
    s.wr o.g o.d 1 (s.src o.ix o.a + s.src o.ix o.b <<< o.n.val) ((s.srcOrg o.a).join (s.srcOrg o.b))) s

def execExtZ (o : OR3) (s : State) : Out := alu2 1 (fun a b => lowBits a (extWidth b)) o s
def execExtS (o : OR3) (s : State) : Out := alu2 1 (fun a b => signBits a (extWidth b)) o s

/-- A field of a; bits above bit 63 read as zero. -/
def bfx (f : W64 → Nat → W64) (o : OBfx) (s : State) : Out :=
  guarded o.g (fun s => s.wr o.g o.d 1 (f (s.src none o.a >>> o.pos.val) o.w.val) (s.srcOrg o.a)) s

def execBfx (o : OBfx) (s : State) : Out := bfx lowBits o s
def execBfxS (o : OBfx) (s : State) : Out := bfx signBits o s

def execBfi (o : OBfi) (s : State) : Out :=
  guarded o.g (fun s =>
    s.wr o.g o.d 1 (insertBits (s.src none o.a) (s.src none o.b) o.pos.val o.w.val)
      ((s.srcOrg o.a).join (s.srcOrg o.b))) s

/-! Predicates (R160, R161). -/

/-- The pair of R23: the even predicate takes the value, the odd one its complement. -/
def State.wrPair (s : State) (g : Fin 16) (pe : Fin 8) (c : Bool) (org : Origin) : State :=
  s.fly (.p pe) 1 (.pair 1 (if c then 1 else 0)) (org.join (s.t.porg.get g))

def execCmp (o : OCmp) (s : State) : Out :=
  guarded o.g (fun s =>
    s.wrPair o.g o.pe (Cond.test o.c (s.src o.ix o.a) (s.src o.ix o.b)) ((s.srcOrg o.a).join (s.srcOrg o.b))) s

def execPlog (o : OPlog) (s : State) : Out :=
  guarded o.g (fun s =>
    let bit (i : Fin 16) : BitVec 16 := if s.t.p.getLsbD i.val then 1 else 0
    s.wrPair o.g o.pe ((Lop.run o.op (bit o.pa) (bit o.pb)).getLsbD 0) ((s.t.porg.get o.pa).join (s.t.porg.get o.pb))) s

end Sys2Proof.Machine
end

