-- ==== Sys2Proof/Machine/Xfer.lean ====
section
/-! DEFINITION. The XF and XS slots: transfers between scalar registers and facets (R172 to R174). -/

namespace Sys2Proof.Machine

/-- XBC: every lane of the register, in one facet or in all eight. -/
def execXbc (o : OXbc) (s : State) : Out :=
  guarded o.g (fun s =>
    let x := splat ((s.src o.ix o.a).setWidth 32)
    let fs : List (Fin 8) := if o.all then allFacets else [o.f]
    fs.foldl (fun s f => s.fly (.v f o.vd) 2 (.lanes 0xFFFF x) Origin.none) s) s

/-- XIN: one lane. -/
def execXin (o : OXin) (s : State) : Out :=
  guarded o.g (fun s =>
    let x := splat ((s.src o.ix o.a).setWidth 32)
    s.fly (.v o.f o.vd) 2 (.lanes ((1 : BitVec 16) <<< o.lane.val) x) Origin.none) s

/-- XEX: undefined while a write to the register is in flight. -/
def execXex (o : OXex) (s : State) : Out :=
  guarded o.g (fun s => s.wr o.g o.d 3 (((s.vregU o.f o.va 0).get o.lane).setWidth 64) Origin.dat) s

/-- XRED's reduction of 16 lanes (R174). The mask form is not among them. -/
def XredOp.run (op : XredOp) (x : Lanes) : W64 :=
  let l := x.toList
  let signed (r : Int) : W64 := BitVec.ofInt 64 r
  match op with
  | .add => (l.foldl (· + ·) (0 : W32)).signExtend 64
  | .and => (l.foldl (· &&& ·) (0xFFFFFFFF : W32)).setWidth 64
  | .or => (l.foldl (· ||| ·) (0 : W32)).setWidth 64
  | .xor => (l.foldl (· ^^^ ·) (0 : W32)).setWidth 64
  | .max => signed (l.foldl (fun a b => max a b.toInt) (-2147483648))
  | .min => signed (l.foldl (fun a b => min a b.toInt) 2147483647)
  | .any => BitVec.ofNat 64 ((List.finRange 16).foldl (fun n i => if x.get i = 0 then n else n + 2 ^ i.val) 0)
  | .mask => 0

/-- The mask register that XRED.mask names (R172). -/
def maskNum : VReg → Fin 8
  | .v i => Fin.ofNat 8 i.val
  | .bf _ => 0

/-- A mask read by XRED: undefined while a write to it is in flight. -/
def State.qregU (s : State) (f n : Fin 8) (k : Nat) : BitVec 16 :=
  if n.val < 2 || (s.t.inFlight (.q f (Fin.ofNat 4 (n.val / 2)))).isEmpty then s.qreg f n k
  else (Config.freeWord s.fv k).setWidth 16

def execXred (o : OXred) (s : State) : Out :=
  guarded o.g (fun s =>
    let x : W64 := match o.op with
      | .mask => (s.qregU o.f (maskNum o.va) 0).setWidth 64
      | op => XredOp.run op (s.vregU o.f o.va 0)
    s.wr o.g o.d 3 x Origin.dat) s

end Sys2Proof.Machine
end

