-- ==== Sys2Proof/Machine/Dispatch.lean ====
section
/-! DEFINITION. One arm per constructor of `Instr`: each is one direct call of its meaning. -/

namespace Sys2Proof.Machine

/-- What an instruction or an event does to the state. -/
def exec (i : Instr) (s : State) : Host.Outcome State Fault Refusal :=
  match i with
  | .br o => Sys2Proof.Machine.execBr o s
  | .brc o => Sys2Proof.Machine.execBrc o s
  | .brq o => Sys2Proof.Machine.execBrq o s
  | .jmpi o => Sys2Proof.Machine.execJmpi o s
  | .call o => Sys2Proof.Machine.execCall o s
  | .calli o => Sys2Proof.Machine.execCalli o s
  | .ret o => Sys2Proof.Machine.execRet o s
  | .loop o => Sys2Proof.Machine.execLoop o s
  | .trap o => Sys2Proof.Machine.execTrap o s
  | .eret o => Sys2Proof.Machine.execEret o s
  | .brk o => Sys2Proof.Machine.execBrk o s
  | .ipf o => Sys2Proof.Machine.execIpf o s
  | .ifence o => Sys2Proof.Machine.execIfence o s
  | .wait o => Sys2Proof.Machine.execWait o s
  | .fence o => Sys2Proof.Machine.execFence o s
  | .fencer o => Sys2Proof.Machine.execFencer o s
  | .lwatch o => Sys2Proof.Machine.execLwatch o s
  | .wpark o => Sys2Proof.Machine.execWpark o s
  | .add o => Sys2Proof.Machine.execAdd o s
  | .sub o => Sys2Proof.Machine.execSub o s
  | .mul o => Sys2Proof.Machine.execMul o s
  | .mulh o => Sys2Proof.Machine.execMulh o s
  | .mulhu o => Sys2Proof.Machine.execMulhu o s
  | .div o => Sys2Proof.Machine.execDiv o s
  | .divu o => Sys2Proof.Machine.execDivu o s
  | .rem o => Sys2Proof.Machine.execRem o s
  | .remu o => Sys2Proof.Machine.execRemu o s
  | .and o => Sys2Proof.Machine.execAnd o s
  | .or o => Sys2Proof.Machine.execOr o s
  | .xor o => Sys2Proof.Machine.execXor o s
  | .andn o => Sys2Proof.Machine.execAndn o s
  | .shl o => Sys2Proof.Machine.execShl o s
  | .shr o => Sys2Proof.Machine.execShr o s
  | .sra o => Sys2Proof.Machine.execSra o s
  | .rot o => Sys2Proof.Machine.execRot o s
  | .min o => Sys2Proof.Machine.execMin o s
  | .max o => Sys2Proof.Machine.execMax o s
  | .minu o => Sys2Proof.Machine.execMinu o s
  | .maxu o => Sys2Proof.Machine.execMaxu o s
  | .clz o => Sys2Proof.Machine.execClz o s
  | .ctz o => Sys2Proof.Machine.execCtz o s
  | .popc o => Sys2Proof.Machine.execPopc o s
  | .sel o => Sys2Proof.Machine.execSel o s
  | .mov o => Sys2Proof.Machine.execMov o s
  | .movStaging o => Sys2Proof.Machine.execMovStaging o s
  | .movPatch o => Sys2Proof.Machine.execMovPatch o s
  | .movi o => Sys2Proof.Machine.execMovi o s
  | .moviH o => Sys2Proof.Machine.execMoviH o s
  | .lea o => Sys2Proof.Machine.execLea o s
  | .extZ o => Sys2Proof.Machine.execExtZ o s
  | .extS o => Sys2Proof.Machine.execExtS o s
  | .bfx o => Sys2Proof.Machine.execBfx o s
  | .bfxS o => Sys2Proof.Machine.execBfxS o s
  | .bfi o => Sys2Proof.Machine.execBfi o s
  | .cmp o => Sys2Proof.Machine.execCmp o s
  | .plog o => Sys2Proof.Machine.execPlog o s
  | .ldB o => Sys2Proof.Machine.execLdB o s
  | .ldH o => Sys2Proof.Machine.execLdH o s
  | .ldW o => Sys2Proof.Machine.execLdW o s
  | .ldD o => Sys2Proof.Machine.execLdD o s
  | .ldBAcq o => Sys2Proof.Machine.execLdBAcq o s
  | .ldHAcq o => Sys2Proof.Machine.execLdHAcq o s
  | .ldWAcq o => Sys2Proof.Machine.execLdWAcq o s
  | .ldDAcq o => Sys2Proof.Machine.execLdDAcq o s
  | .stB o => Sys2Proof.Machine.execStB o s
  | .stH o => Sys2Proof.Machine.execStH o s
  | .stW o => Sys2Proof.Machine.execStW o s
  | .stD o => Sys2Proof.Machine.execStD o s
  | .stBRel o => Sys2Proof.Machine.execStBRel o s
  | .stHRel o => Sys2Proof.Machine.execStHRel o s
  | .stWRel o => Sys2Proof.Machine.execStWRel o s
  | .stDRel o => Sys2Proof.Machine.execStDRel o s
  | .ldlB o => Sys2Proof.Machine.execLdlB o s
  | .ldlH o => Sys2Proof.Machine.execLdlH o s
  | .ldlW o => Sys2Proof.Machine.execLdlW o s
  | .ldlD o => Sys2Proof.Machine.execLdlD o s
  | .stlB o => Sys2Proof.Machine.execStlB o s
  | .stlH o => Sys2Proof.Machine.execStlH o s
  | .stlW o => Sys2Proof.Machine.execStlW o s
  | .stlD o => Sys2Proof.Machine.execStlD o s
  | .amoaddW o => Sys2Proof.Machine.execAmoaddW o s
  | .amoaddD o => Sys2Proof.Machine.execAmoaddD o s
  | .amoandW o => Sys2Proof.Machine.execAmoandW o s
  | .amoandD o => Sys2Proof.Machine.execAmoandD o s
  | .amoorW o => Sys2Proof.Machine.execAmoorW o s
  | .amoorD o => Sys2Proof.Machine.execAmoorD o s
  | .amoxorW o => Sys2Proof.Machine.execAmoxorW o s
  | .amoxorD o => Sys2Proof.Machine.execAmoxorD o s
  | .amominW o => Sys2Proof.Machine.execAmominW o s
  | .amominD o => Sys2Proof.Machine.execAmominD o s
  | .amomaxW o => Sys2Proof.Machine.execAmomaxW o s
  | .amomaxD o => Sys2Proof.Machine.execAmomaxD o s
  | .amoswpW o => Sys2Proof.Machine.execAmoswpW o s
  | .amoswpD o => Sys2Proof.Machine.execAmoswpD o s
  | .casW o => Sys2Proof.Machine.execCasW o s
  | .casD o => Sys2Proof.Machine.execCasD o s
  | .pfd o => Sys2Proof.Machine.execPfd o s
  | .cbo o => Sys2Proof.Machine.execCbo o s
  | .csrr o => Sys2Proof.Machine.execCsrr o s
  | .csrw o => Sys2Proof.Machine.execCsrw o s
  | .xbc o => Sys2Proof.Machine.execXbc o s
  | .xin o => Sys2Proof.Machine.execXin o s
  | .xex o => Sys2Proof.Machine.execXex o s
  | .xred o => Sys2Proof.Machine.execXred o s
  | .vadd o => Sys2Proof.Machine.execVadd o s
  | .vsub o => Sys2Proof.Machine.execVsub o s
  | .vmul o => Sys2Proof.Machine.execVmul o s
  | .vfma o => Sys2Proof.Machine.execVfma o s
  | .vfms o => Sys2Proof.Machine.execVfms o s
  | .vmin o => Sys2Proof.Machine.execVmin o s
  | .vmax o => Sys2Proof.Machine.execVmax o s
  | .vabs o => Sys2Proof.Machine.execVabs o s
  | .vneg o => Sys2Proof.Machine.execVneg o s
  | .vrcp o => Sys2Proof.Machine.execVrcp o s
  | .vrsq o => Sys2Proof.Machine.execVrsq o s
  | .vlog2 o => Sys2Proof.Machine.execVlog2 o s
  | .vexp2 o => Sys2Proof.Machine.execVexp2 o s
  | .vcvt o => Sys2Proof.Machine.execVcvt o s
  | .vcmp o => Sys2Proof.Machine.execVcmp o s
  | .vsel o => Sys2Proof.Machine.execVsel o s
  | .viadd o => Sys2Proof.Machine.execViadd o s
  | .visub o => Sys2Proof.Machine.execVisub o s
  | .vimul o => Sys2Proof.Machine.execVimul o s
  | .vand o => Sys2Proof.Machine.execVand o s
  | .vor o => Sys2Proof.Machine.execVor o s
  | .vxor o => Sys2Proof.Machine.execVxor o s
  | .vshl o => Sys2Proof.Machine.execVshl o s
  | .vshr o => Sys2Proof.Machine.execVshr o s
  | .vsra o => Sys2Proof.Machine.execVsra o s
  | .vimin o => Sys2Proof.Machine.execVimin o s
  | .vimax o => Sys2Proof.Machine.execVimax o s
  | .vmov o => Sys2Proof.Machine.execVmov o s
  | .vmovi o => Sys2Proof.Machine.execVmovi o s
  | .vshf o => Sys2Proof.Machine.execVshf o s
  | .vred o => Sys2Proof.Machine.execVred o s
  | .vscan o => Sys2Proof.Machine.execVscan o s
  | .vdot o => Sys2Proof.Machine.execVdot o s
  | .vcopy o => Sys2Proof.Machine.execVcopy o s
  | .vld o => Sys2Proof.Machine.execVld o s
  | .vst o => Sys2Proof.Machine.execVst o s
  | .vgth o => Sys2Proof.Machine.execVgth o s
  | .vsct o => Sys2Proof.Machine.execVsct o s
  | .vldt o => Sys2Proof.Machine.execVldt o s
  | .vstt o => Sys2Proof.Machine.execVstt o s
  | .qlog o => Sys2Proof.Machine.execQlog o s
  | .dset o => Sys2Proof.Machine.execDset o s
  | .dsmp o => Sys2Proof.Machine.execDsmp o s
  | .dld o => Sys2Proof.Machine.execDld o s
  | .dst o => Sys2Proof.Machine.execDst o s
  | .dadd o => Sys2Proof.Machine.execDadd o s
  | .dsub o => Sys2Proof.Machine.execDsub o s
  | .dmul o => Sys2Proof.Machine.execDmul o s
  | .dmin o => Sys2Proof.Machine.execDmin o s
  | .dmax o => Sys2Proof.Machine.execDmax o s
  | .daff o => Sys2Proof.Machine.execDaff o s
  | .dmix o => Sys2Proof.Machine.execDmix o s
  | .dcnd o => Sys2Proof.Machine.execDcnd o s
  | .dmom o => Sys2Proof.Machine.execDmom o s
  | .dqnt o => Sys2Proof.Machine.execDqnt o s
  | .dcdf o => Sys2Proof.Machine.execDcdf o s
  | .dtag o => Sys2Proof.Machine.execDtag o s
  | .tld o => Sys2Proof.Machine.execTld o s
  | .tst o => Sys2Proof.Machine.execTst o s
  | .tgth o => Sys2Proof.Machine.execTgth o s
  | .tpick o => Sys2Proof.Machine.execTpick o s
  | .trot o => Sys2Proof.Machine.execTrot o s
  | .tdrop o => Sys2Proof.Machine.execTdrop o s
  | .tmark o => Sys2Proof.Machine.execTmark o s
  | .tunwind o => Sys2Proof.Machine.execTunwind o s
  | .tzero o => Sys2Proof.Machine.execTzero o s
  | .tfill o => Sys2Proof.Machine.execTfill o s
  | .tshape o => Sys2Proof.Machine.execTshape o s
  | .tjoin o => Sys2Proof.Machine.execTjoin o s
  | .tfromv o => Sys2Proof.Machine.execTfromv o s
  | .ttov o => Sys2Proof.Machine.execTtov o s
  | .mma o => Sys2Proof.Machine.execMma o s
  | .mmac o => Sys2Proof.Machine.execMmac o s
  | .mmack o => Sys2Proof.Machine.execMmack o s
  | .mmag o => Sys2Proof.Machine.execMmag o s
  | .mscl o => Sys2Proof.Machine.execMscl o s
  | .tadd o => Sys2Proof.Machine.execTadd o s
  | .tsub o => Sys2Proof.Machine.execTsub o s
  | .tmul o => Sys2Proof.Machine.execTmul o s
  | .tfma o => Sys2Proof.Machine.execTfma o s
  | .tmaxe o => Sys2Proof.Machine.execTmaxe o s
  | .tmine o => Sys2Proof.Machine.execTmine o s
  | .texp2 o => Sys2Proof.Machine.execTexp2 o s
  | .trcp o => Sys2Proof.Machine.execTrcp o s
  | .trmax o => Sys2Proof.Machine.execTrmax o s
  | .trsum o => Sys2Proof.Machine.execTrsum o s
  | .tcsum o => Sys2Proof.Machine.execTcsum o s
  | .tscl o => Sys2Proof.Machine.execTscl o s
  | .tbc o => Sys2Proof.Machine.execTbc o s
  | .tcvt o => Sys2Proof.Machine.execTcvt o s
  | .ttrn o => Sys2Proof.Machine.execTtrn o s
  | .cpget o => Sys2Proof.Machine.execCpget o s
  | .cpput o => Sys2Proof.Machine.execCpput o s
  | .cpmc o => Sys2Proof.Machine.execCpmc o s
  | .ldblk o => Sys2Proof.Machine.execLdblk o s
  | .ldblkRel o => Sys2Proof.Machine.execLdblkRel o s
  | .cpsort o => Sys2Proof.Machine.execCpsort o s
  | .cpfill o => Sys2Proof.Machine.execCpfill o s
  | .kar o => Sys2Proof.Machine.execKar o s
  | .kag o => Sys2Proof.Machine.execKag o s
  | .krs o => Sys2Proof.Machine.execKrs o s
  | .kbc o => Sys2Proof.Machine.execKbc o s
  | .ksend o => Sys2Proof.Machine.execKsend o s
  | .krecv o => Sys2Proof.Machine.execKrecv o s
  | .spawn o => Sys2Proof.Machine.execSpawn o s
  | .token o => Sys2Proof.Machine.execToken o s
  | .done o => Sys2Proof.Machine.execDone o s
  | .join o => Sys2Proof.Machine.execJoin o s
  | .leave o => Sys2Proof.Machine.execLeave o s
  | .gbar o => Sys2Proof.Machine.execGbar o s
  | .qres o => Sys2Proof.Machine.execQres o s
  | .qpub o => Sys2Proof.Machine.execQpub o s
  | .qtake o => Sys2Proof.Machine.execQtake o s
  | .qfree o => Sys2Proof.Machine.execQfree o s
  | .mbeg o => Sys2Proof.Machine.execMbeg o s
  | .mend o => Sys2Proof.Machine.execMend o s
  | .mgrd o => Sys2Proof.Machine.execMgrd o s
  | .tlbi o => Sys2Proof.Machine.execTlbi o s
  | .flushctx o => Sys2Proof.Machine.execFlushctx o s
  | .icinv o => Sys2Proof.Machine.execIcinv o s
  | .illegalBundle => Sys2Proof.Machine.execIllegalBundle s
  | .trapDrainEnd u => Sys2Proof.Machine.execTrapDrainEnd u s
  | .eretDrainEnd u => Sys2Proof.Machine.execEretDrainEnd u s
  | .demandFetch u => Sys2Proof.Machine.execDemandFetch u s
  | .icacheFill u => Sys2Proof.Machine.execIcacheFill u s
  | .instructionPrefetch u va => Sys2Proof.Machine.execInstructionPrefetch u va s
  | .memoryReply u => Sys2Proof.Machine.execMemoryReply u s
  | .performAccess u => Sys2Proof.Machine.execPerformAccess u s
  | .bulkElementAccess u c e => Sys2Proof.Machine.execBulkElementAccess u c e s
  | .propagateWrite w => Sys2Proof.Machine.execPropagateWrite w s
  | .watchFire u => Sys2Proof.Machine.execWatchFire u s
  | .ringReserveStep u c => Sys2Proof.Machine.execRingReserveStep u c s
  | .ringPublishStep u c => Sys2Proof.Machine.execRingPublishStep u c s
  | .ringTakeStep u c => Sys2Proof.Machine.execRingTakeStep u c s
  | .ringFreeStep u c => Sys2Proof.Machine.execRingFreeStep u c s
  | .entryReady u c => Sys2Proof.Machine.execEntryReady u c s
  | .entryLatched u c => Sys2Proof.Machine.execEntryLatched u c s
  | .entrySink u c => Sys2Proof.Machine.execEntrySink u c s
  | .entryRise u c => Sys2Proof.Machine.execEntryRise u c s
  | .suspendedEntrySpill u c => Sys2Proof.Machine.execSuspendedEntrySpill u c s
  | .copyCommandComplete u c => Sys2Proof.Machine.execCopyCommandComplete u c s
  | .blockReady u c => Sys2Proof.Machine.execBlockReady u c s
  | .invalidationComplete u c => Sys2Proof.Machine.execInvalidationComplete u c s
  | .pageWalkComplete u => Sys2Proof.Machine.execPageWalkComplete u s
  | .faultRecordPost u => Sys2Proof.Machine.execFaultRecordPost u s
  | .faultReply u => Sys2Proof.Machine.execFaultReply u s
  | .freezeWatchdogExpiry u => Sys2Proof.Machine.execFreezeWatchdogExpiry u s
  | .signatureMismatch u x => Sys2Proof.Machine.execSignatureMismatch u x s
  | .containmentScrub => Sys2Proof.Machine.execContainmentScrub s
  | .patinaMeasurement cl drift => Sys2Proof.Machine.execPatinaMeasurement cl drift s
  | .powerClamp on => Sys2Proof.Machine.execPowerClamp on s
  | .dieOvertemp die deg => Sys2Proof.Machine.execDieOvertemp die deg s
  | .moduleReset => Sys2Proof.Machine.execModuleReset s
  | .hostLinkDown => Sys2Proof.Machine.execHostLinkDown s
  | .functionLevelReset fn => Sys2Proof.Machine.execFunctionLevelReset fn s
  | .hlnchWrite fn v => Sys2Proof.Machine.execHlnchWrite fn v s
  | .hstatNopartClear fn => Sys2Proof.Machine.execHstatNopartClear fn s
  | .hostRegisterWrite fn ofs v => Sys2Proof.Machine.execHostRegisterWrite fn ofs v s
  | .kranumFlitReceive link crc => Sys2Proof.Machine.execKranumFlitReceive link crc s
  | .linkRetryExpiry link => Sys2Proof.Machine.execLinkRetryExpiry link s
  | .fabricRequest r => Sys2Proof.Machine.execFabricRequest r s
  | .deviceFaultSignal dev => Sys2Proof.Machine.execDeviceFaultSignal dev s
  | .collectiveInstanceStart c => Sys2Proof.Machine.execCollectiveInstanceStart c s
  | .collectiveStep c r => Sys2Proof.Machine.execCollectiveStep c r s
  | .collectiveStepTimeout c r => Sys2Proof.Machine.execCollectiveStepTimeout c r s
  | .collectiveEnd c r => Sys2Proof.Machine.execCollectiveEnd c r s
  | .mailboxDelivery u c => Sys2Proof.Machine.execMailboxDelivery u c s
  | .tokenDelivery u c => Sys2Proof.Machine.execTokenDelivery u c s
  | .nodeDoneComplete u => Sys2Proof.Machine.execNodeDoneComplete u s
  | .spawnCheck u c => Sys2Proof.Machine.execSpawnCheck u c s
  | .barrierArrival u c => Sys2Proof.Machine.execBarrierArrival u c s
  | .lnchWrite v => Sys2Proof.Machine.execLnchWrite v s
  | .launchCheck l => Sys2Proof.Machine.execLaunchCheck l s
  | .frameTick p => Sys2Proof.Machine.execFrameTick p s
  | .taskDispatch core helper => Sys2Proof.Machine.execTaskDispatch core helper s
  | .castIssueGroup u => Sys2Proof.Machine.execCastIssueGroup u s
  | .stealProbe core => Sys2Proof.Machine.execStealProbe core s
  | .preemptionRequest u => Sys2Proof.Machine.execPreemptionRequest u s
  | .preemptionStop u => Sys2Proof.Machine.execPreemptionStop u s
  | .saveSlotTimeout p => Sys2Proof.Machine.execSaveSlotTimeout p s
  | .parkWake u => Sys2Proof.Machine.execParkWake u s
  | .pctlApply p => Sys2Proof.Machine.execPctlApply p s
  | .pctlRelease p => Sys2Proof.Machine.execPctlRelease p s
  | .partitionOpComplete => Sys2Proof.Machine.execPartitionOpComplete s
  | .dbgctlHalt n => Sys2Proof.Machine.execDbgctlHalt n s
  | .dbgctlResume n => Sys2Proof.Machine.execDbgctlResume n s
  | .nkillWrite n => Sys2Proof.Machine.execNkillWrite n s
  | .finjWrite v => Sys2Proof.Machine.execFinjWrite v s
  | .fseedWrite v => Sys2Proof.Machine.execFseedWrite v s
  | .devstLockSet => Sys2Proof.Machine.execDevstLockSet s
  | .keyInstall asid => Sys2Proof.Machine.execKeyInstall asid s
  | .keyDestroy asid => Sys2Proof.Machine.execKeyDestroy asid s
  | .getMeasurements => Sys2Proof.Machine.execGetMeasurements s
  | .firmwareUpdate img => Sys2Proof.Machine.execFirmwareUpdate img s
  | .bootStageVerify stage hash => Sys2Proof.Machine.execBootStageVerify stage hash s
  | .hostLinkUp => Sys2Proof.Machine.execHostLinkUp s
  | .kranumLinkReturn link => Sys2Proof.Machine.execKranumLinkReturn link s
  | .powerOn => Sys2Proof.Machine.execPowerOn s

end Sys2Proof.Machine
end

