-- ==== Sys2Proof/Machine/Residue.lean ====
section
/-! DEFINITION. Residue checks (R363 to R366): what a datapath predicts, which work of which syllable it covers, and where a failed
check is charged. -/

namespace Sys2Proof.Machine

/-! Residues (R364). -/

/-- r(x). -/
def resOf (x : Nat) : Nat := x % 7

/-- A difference modulo 7. -/
def resSub (a b : Nat) : Nat := (a + 7 - b % 7) % 7

/-- A sum of residues with carry-out `o` from `w` bits. -/
def resAdd (w r o : Nat) : Nat := resSub r (o * 2 ^ (w % 3))

/-- A shift of a value with residue `r` to the left by `k`, the bits `h` lost at the top of `w`. -/
def resShl (w r k h : Nat) : Nat := resSub (r * 2 ^ (k % 3)) (resOf h * 2 ^ (w % 3))

/-- A shift to the right by `k`, the bits `d` lost. -/
def resShr (r k d : Nat) : Nat := resSub r (resOf d) * 2 ^ ((3 - k % 3) % 3) % 7

/-- The sum of some terms, as they are or each by the residue of its product. -/
def termSum (f : Nat → Nat → Nat) (l : List (Bool × Nat × Nat)) : Int :=
  (l.map fun x => if x.1 then -(f x.2.1 x.2.2 : Int) else (f x.2.1 x.2.2 : Int)).sum

/-- The stages of an accumulator addition: the aligned operand, what is added to `a`, and their sum with its carry. -/
def accumStages (w a b s : Nat) (minus : Bool) : Nat × Nat × Nat :=
  let x := b / 2 ^ s
  let y := if minus then 2 ^ w - 1 - x else x
  (x, y, a + y + minus.toNat)

/-- The residue that a datapath predicts from those of its inputs. -/
def ResOp.predict : ResOp → Nat
  | .add w a b c => resAdd w (resOf a + resOf b + c.toNat) ((a + b + c.toNat) / 2 ^ w)
  | .sub w a b =>
    let nb := 2 ^ w - 1 - b
    resAdd w (resOf a + resOf nb + 1) ((a + nb + 1) / 2 ^ w)
  | .mul _ a b => resOf a * resOf b % 7
  | .shl w x k => resShl w (resOf x) k (x * 2 ^ k / 2 ^ w)
  | .shr _ x k => resShr (resOf x) k (x % 2 ^ k)
  | .round _ q i => (resOf q + i) % 7
  | .align _ p k => resOf p * 2 ^ (k % 3) % 7
  | .chunk w l =>
    let o := termSum (fun p k => p * 2 ^ k) l / 2 ^ w
    ((termSum (fun p k => resOf p * 2 ^ (k % 3)) l - o * 2 ^ (w % 3)) % 7).toNat
  | .accum w a b s minus right k i =>
    let (_, _, sum) := accumStages w a b s minus
    let rx := resShr (resOf b) s (b % 2 ^ s)
    let ry := if minus then resSub (resOf (2 ^ w - 1)) rx else rx
    let rs := resAdd w (resOf a + ry + minus.toNat) (sum / 2 ^ w)
    let kept := sum % 2 ^ w
    let rn := if right then resShr rs k (kept % 2 ^ k) else resShl w rs k (kept * 2 ^ k / 2 ^ w)
    (rn + i) % 7

/-- What the operation comes to in a sound datapath. -/
def ResOp.result : ResOp → Nat
  | .add w a b c => (a + b + c.toNat) % 2 ^ w
  | .sub w a b => (a + (2 ^ w - 1 - b) + 1) % 2 ^ w
  | .mul _ a b => a * b
  | .shl w x k => x * 2 ^ k % 2 ^ w
  | .shr _ x k => x / 2 ^ k
  | .round _ q i => q + i
  | .align _ p k => p * 2 ^ k
  | .chunk w l => (termSum (fun p k => p * 2 ^ k) l % 2 ^ w).toNat
  | .accum w a b s minus right k i =>
    let kept := (accumStages w a b s minus).2.2 % 2 ^ w
    (if right then kept / 2 ^ k else kept * 2 ^ k % 2 ^ w) + i

/-- The operands are values of the width. -/
def ResOp.bounded : ResOp → Bool
  | .add w a b _ | .sub w a b | .mul w a b => a < 2 ^ w && b < 2 ^ w
  | .shl w x k | .shr w x k | .align w x k => x < 2 ^ w && k ≤ w
  | .round w q i => q < 2 ^ w && i ≤ 1
  | .chunk w l => l.all fun x => x.2.1 < 2 ^ w
  | .accum w a b s _ _ k i => a < 2 ^ w && b < 2 ^ w && s ≤ w && k ≤ w && i ≤ 1

/-! The covered work (R363). -/

/-- The classes whose datapaths an instruction's work is checked in (R363, R369). -/
def coveredBy (i : Instr) : List Nat :=
  match i with
  | .add _ | .sub _ | .mul _ | .mulh _ | .mulhu _ | .div _ | .divu _ | .rem _ | .remu _ | .shl _ | .shr _ | .sra _ | .rot _
  | .min _ | .max _ | .minu _ | .maxu _ | .cmp _ | .lea _ | .bfx _ | .bfxS _ | .bfi _ => [1]
  | .ldB _ | .ldH _ | .ldW _ | .ldD _ | .ldBAcq _ | .ldHAcq _ | .ldWAcq _ | .ldDAcq _ | .stB _ | .stH _ | .stW _ | .stD _
  | .stBRel _ | .stHRel _ | .stWRel _ | .stDRel _ | .ldlB _ | .ldlH _ | .ldlW _ | .ldlD _ | .stlB _ | .stlH _ | .stlW _
  | .stlD _ | .amoaddW _ | .amoaddD _ | .amoandW _ | .amoandD _ | .amoorW _ | .amoorD _ | .amoxorW _ | .amoxorD _ | .amominW _
  | .amominD _ | .amomaxW _ | .amomaxD _ | .amoswpW _ | .amoswpD _ | .casW _ | .casD _ | .pfd _ | .cbo _ | .lwatch _ => [2]
  | .vld _ | .vst _ | .vgth _ | .vsct _ | .dld _ | .dst _ => [2]
  | .vldt _ | .vstt _ => [2, 4]
  | .viadd _ | .visub _ | .vimul _ | .vshl _ | .vshr _ | .vsra _ => [3]
  | .vred o | .vscan o => (match o.op with | .iadd | .imax | .imin => [3] | .add => [4] | _ => [])
  | .vdot o => (match o.kind with | .i8 | .i32 => [3] | .f32 | .bf16 => [4])
  | .vadd _ | .vsub _ | .vmul _ | .vfma _ | .vfms _ | .vrcp _ | .vrsq _ | .vlog2 _ | .vexp2 _ | .vcvt _
  | .dset _ | .dsmp _ | .dadd _ | .dsub _ | .dmul _ | .dmin _ | .dmax _ | .daff _ | .dmix _ | .dcnd _ | .dmom _
  | .dqnt _ | .dcdf _ => [4]
  | .tld _ | .tgth _ | .cpget _ | .cpmc _ | .ldblk _ | .cpsort _ | .cpfill _ | .kar _ | .kag _ | .krs _ | .kbc _ | .ksend _
  | .krecv _ | .spawn _ | .qres _ | .qpub _ | .qtake _ | .qfree _ => [2]
  | .tst _ | .cpput _ => [2, 6]
  | .tadd _ | .tsub _ | .tfma _ | .trsum _ | .tcsum _ => [5, 6]
  | .tmaxe _ | .tmine _ | .trmax _ => [5]
  | .tmul _ | .tscl _ | .tcvt _ | .texp2 _ | .trcp _ => [6]
  | .mma _ | .mmac _ | .mmack _ | .mscl _ => [7, 8]
  | .mmag _ => [2, 7, 8]
  | _ => []

/-- The operations that a scalar unit makes of the operands of an instruction (R153 to R160). A divide takes steps of its own. -/
def State.scalarWork (s : State) (i : Instr) (x : ResOp) : Bool :=
  let v (ix : Option W32) (a : Src) : Nat := (s.src ix a).toNat
  match i with
  | .add o => x == .add 64 (v o.ix o.a) (v o.ix o.b) false
  | .sub o | .min o | .max o | .minu o | .maxu o => x == .sub 64 (v o.ix o.a) (v o.ix o.b)
  | .cmp o => o.c != .tst && o.c != .ntst && x == .sub 64 (v o.ix o.a) (v o.ix o.b)
  | .mul o | .mulh o | .mulhu o => x == .mul 64 (v o.ix o.a) (v o.ix o.b)
  | .shl o => x == .shl 64 (v o.ix o.a) (shAmt (s.src o.ix o.b))
  | .shr o | .sra o => x == .shr 64 (v o.ix o.a) (shAmt (s.src o.ix o.b))
  | .rot o =>
    let k := shAmt (s.src o.ix o.b)
    x == .shl 64 (v o.ix o.a) k || x == .shr 64 (v o.ix o.a) (64 - k)
  | .lea o =>
    let k := v o.ix o.b
    x == .shl 64 k o.n.val || x == .add 64 (v o.ix o.a) (k * 2 ^ o.n.val % 2 ^ 64) false
  | .bfx o | .bfxS o => x == .shr 64 (v none o.a) o.pos.val
  | .bfi o => x == .shl 64 (v none o.b) o.pos.val
  | .div _ | .divu _ | .rem _ | .remu _ =>
    (match x with | .add 64 _ _ _ | .sub 64 _ _ | .mul 64 _ _ | .shl 64 _ _ => true | _ => false)
  | _ => false

/-- A write to a facet source is in flight, so that its read is free. -/
def State.srcBusy (s : State) (f : Fin 8) : FSrc → Bool
  | .r r => s.vBusy f r
  | _ => false

/-- The operations that a facet's integer lane makes (R188, R191, R192). -/
def State.laneWork (s : State) (i : Instr) (f : Fin 8) (l : Fin 16) (x : ResOp) : Bool :=
  let two (o : OV3) (g : Nat → Nat → ResOp) : Bool :=
    let y := g ((s.fsrcI f o.ix 0 o.a).get l).toNat ((s.fsrcI f o.ix 1 o.b).get l).toNat
    if s.srcBusy f o.a || s.srcBusy f o.b then
      (match x, y with
      | .add 32 .., .add .. | .sub 32 .., .sub .. | .mul 32 .., .mul .. | .shl 32 .., .shl .. | .shr 32 .., .shr .. => true
      | _, _ => false)
    else x == y
  match i with
  | .viadd o => two o fun a b => .add 32 a b false
  | .visub o => two o fun a b => .sub 32 a b
  | .vimul o => two o fun a b => .mul 32 a b
  | .vshl o => two o fun a b => .shl 32 a (b % 32)
  | .vshr o | .vsra o => two o fun a b => .shr 32 a (b % 32)
  | .vred o | .vscan o =>
    (match o.op, x with | .iadd, .add 32 .. | .imax, .sub 32 .. | .imin, .sub 32 .. => true | _, _ => false)
  | .vdot o =>
    (match o.kind, x with | .i8, .mul 8 .. | .i8, .add 32 .. | .i32, .mul 32 .. | .i32, .add 32 .. => true | _, _ => false)
  | _ => false

/-- The mantissa of an FP32 pattern, its hidden bit with it (R364). -/
def mantissa (x : W32) : Nat :=
  let e := x.toNat / 2 ^ 23 % 256
  if e = 0 then x.toNat % 2 ^ 23 else 2 ^ 23 + x.toNat % 2 ^ 23

/-- The steps of a floating path but its products: alignment, addition, normalisation and rounding. -/
def ResOp.floating : ResOp → Bool
  | .add .. | .sub .. | .shl .. | .shr .. | .round .. | .align .. | .accum .. => true
  | .mul .. | .chunk .. => false

/-- The operations that a facet's floating lane makes: products of 24-bit mantissas, or of 8-bit ones of BF16, where an instruction
multiplies, and the steps of the path. -/
def State.floatWork (s : State) (i : Instr) (f : Fin 8) (l : Fin 16) (x : ResOp) : Bool :=
  match x with
  | .mul w a b =>
    (match i with
    | .vmul o | .vfma o | .vfms o =>
      w == 24 && (s.srcBusy f o.a || s.srcBusy f o.b ||
        (a == mantissa ((s.fsrcF f o.ix 0 o.a).get l) && b == mantissa ((s.fsrcF f o.ix 1 o.b).get l)))
    | .vdot o => (match o.kind with | .f32 => w == 24 | .bf16 => w == 8 | _ => false)
    | .vadd _ | .vsub _ | .vcvt _ | .vred _ | .vscan _ | .vldt _ | .vstt _ => false
    | _ => w == 24)
  | _ => x.floating

/-! Addresses. -/

/-- The base and the address of an AM syllable or an LWATCH (R163, R167). -/
def State.amForm (s : State) (i : Instr) : Option (W64 × W64) :=
  let form (ix : Option W32) (a b : Src) (n : Nat) : Option (W64 × W64) := some (s.src ix a, s.amAddr ix a b n)
  match i with
  | .ldB o | .ldBAcq o => form o.ix o.a o.b 1
  | .ldH o | .ldHAcq o => form o.ix o.a o.b 2
  | .ldW o | .ldWAcq o => form o.ix o.a o.b 4
  | .ldD o | .ldDAcq o => form o.ix o.a o.b 8
  | .stB o | .stBRel o => form o.ix o.a o.b 1
  | .stH o | .stHRel o => form o.ix o.a o.b 2
  | .stW o | .stWRel o => form o.ix o.a o.b 4
  | .stD o | .stDRel o => form o.ix o.a o.b 8
  | .ldlB o => form o.ix o.a o.b 1
  | .ldlH o => form o.ix o.a o.b 2
  | .ldlW o => form o.ix o.a o.b 4
  | .ldlD o => form o.ix o.a o.b 8
  | .stlB o => form o.ix o.a o.b 1
  | .stlH o => form o.ix o.a o.b 2
  | .stlW o => form o.ix o.a o.b 4
  | .stlD o => form o.ix o.a o.b 8
  | .amoaddW o | .amoaddD o | .amoandW o | .amoandD o | .amoorW o | .amoorD o | .amoxorW o | .amoxorD o | .amominW o
  | .amominD o | .amomaxW o | .amomaxD o | .amoswpW o | .amoswpD o | .casW o | .casD o => some (s.src o.ix o.a, s.src o.ix o.a)
  | .pfd o => form o.ix o.a o.b 1
  | .cbo o => form o.ix o.a o.b 1
  | .lwatch o => form o.ix o.a o.b 1
  | _ => none

/-- The additions of a facet's address adders, each a base and the address formed from it: that of the row, and those of its lanes, whichever
are enabled (R197 to R200, R348). -/
def State.facetForms (s : State) (i : Instr) (f : Fin 8) : List (W64 × W64) :=
  let row (ab : Fin 4) (ix : Option W32) (ofs : BitVec 8) (sizes : List Nat) : List (W64 × W64) :=
    let base := s.abAddr f ab ix ofs
    (s.abBase f ab, base) :: sizes.flatMap fun n => (rowReqs base n 0xFFFF).map fun r => (base, r.va)
  match i with
  | .vld o | .vst o => row o.ab o.ix o.ofs [VSize.bytes o.sz]
  | .vgth o | .vsct o => (gatherReqs (s.abBase f o.ab) (s.fsrcI f none 0 o.a) (VSize.bytes o.sz) 0xFFFF).map fun r => (s.abBase f o.ab, r.va)
  | .vldt o => row o.ab o.ix o.ofs [1, 2, 4]
  | .vstt o => row o.ab o.ix o.ofs [1, 2, 4]
  | .dld o | .dst o => row o.ab o.ix o.ofs [64]
  | _ => []

/-- The addresses that an engine command starts from. -/
def CmdOp.bases : CmdOp → List Nat
  | .tld _ a _ | .tst _ a _ _ | .tgth _ _ a _ _ | .mmag _ _ _ a .. | .cpget _ a _ | .cpput _ a _ _ => [(a % 2 ^ 64).toNat]
  | .cpmc _ a _ ofs .. => [(a % 2 ^ 64).toNat, ofs]
  | .ldblk _ a .. | .cpfill a .. => [a]
  | .cpsort _ a idx lin .. => [a, idx, lin]
  | _ => []

def insideAny (l : List (Nat × Nat)) (v : Nat) : Bool := l.any fun r => r.1 ≤ v && v < r.1 + r.2

/-- An engine command forms an address: any, while the indices that it gathers by are not read. -/
def State.cmdForms (s : State) (c : Cmd) (v : Nat) : Bool :=
  let rows := (s.t.acc.filter fun a => a.op == .tld c.id || a.op == .tst c.id).flatMap Acc.ranges
  let windows := (List.range (c.count s.t)).filterMap fun i => (c.elem s.t i).bind fun e =>
    e.window.map fun w => ((w.2 % 2 ^ 64).toNat, e.len)
  !s.t.gatherKnown c.id || c.op.bases.contains v || insideAny (rows ++ c.ranges s.t ++ windows) v

/-- A command of the port forms an address: those of a ring come from its descriptor, which only its step reads. -/
def Ek.forms (e : Ek) (v : Nat) : Bool :=
  match e.op with
  | .spawn _ a => insideAny [(a, 112)] v
  | op => op.ring.isSome || insideAny e.ranges v

/-- The operations of the address adders (R363): a base, or for a command an address that it forms, and what leads from there to another. -/
def State.addrWork (s : State) (x : Failure) : Bool :=
  match x.work with
  | .add 64 p q false =>
    let sum : Nat := (p + q) % 2 ^ 64
    (match x.cmd with
    | none =>
      let l := (s.amForm x.ins).toList ++ s.facetForms x.ins x.facet
      let open_ : Bool := match x.ins with
        | .vgth o | .vsct o => s.srcBusy x.facet o.a && p == (s.abBase x.facet o.ab).toNat
        | _ => false
      open_ || l.any fun y => p == y.1.toNat && sum == y.2.toNat
    | some k =>
      ((s.t.cmds.find? fun c => c.id == k).any fun c =>
        (c.op.bases.contains p || (s.t.gatherKnown c.id && s.cmdForms c p)) && s.cmdForms c sum) ||
        ((s.t.eks.find? fun e => e.id == k).any fun e => e.forms p && e.forms sum))
  | _ => false

/-! The engines. What they make of the operands of a command is checked while it holds these (DESIGN CHOICE, log entry 115). -/

/-- The tile of an entry that is not filling. -/
def Task.tileOf (t : Task) (id : Nat) : Option Tile :=
  (t.entry id).bind fun e => if e.state == .filling then none else some e.tile

/-- The pattern of an integer. -/
def u32 (z : Int) : Nat := (z % 2 ^ 32).toNat

/-- The steps of one line of an integer reduction (R108). -/
def lineWork (mx : Bool) : List Int → List ResOp
  | [] => []
  | x :: l =>
    (l.foldl (fun (a : Int × List ResOp) y =>
      if mx then (max a.1 y, a.2 ++ [.sub 32 (u32 a.1) (u32 y)])
      else (a.1 + y, a.2 ++ [.add 32 (u32 a.1) (u32 y) false])) (x, [])).2

/-- The operations of the tile vector engine's integer adders for a command: sums, differences, and the comparisons of the greater and the
lesser (R105, R108). -/
def Task.intWork (t : Task) (op : CmdOp) : List ResOp :=
  let ints (id : Nat) : List (List Int) := match t.tileOf id with
    | some x => if x.fmt.isInt then x.ints else []
    | none => []
  match op with
  | .bin k x y _ =>
    if k = 2 then []
    else (List.zipWith (List.zipWith fun a b => if k = 0 then ResOp.add 32 (u32 a) (u32 b) false else .sub 32 (u32 a) (u32 b))
      (ints x) (ints y)).flatten
  | .fma x y w _ => (zip3 (zip3 fun a b c => ResOp.add 32 (u32 (a * b)) (u32 c) false) (ints x) (ints y) (ints w)).flatten
  | .red k x _ =>
    let rows := ints x
    ((if k = 2 then transpose (rows.headD []).length rows else rows).map (lineWork (k == 0))).flatten
  | _ => []

/-- A product of mantissas of the tile vector engine: of the elements of a command that multiplies, or of a step of TEXP2 or TRCP, which
are not given. -/
def Task.tileMul (t : Task) (op : CmdOp) (p q : Nat) : Bool :=
  let nums (id : Nat) : List (List Num) := match t.tileOf id with
    | some x => if x.fmt.isInt then [] else x.nums
    | none => []
  let man (x : Num) : Nat := mantissa (rnd32 x).1
  let both (a b : Num) : Bool := p == man a && q == man b
  match op with
  | .bin k x y _ => k == 2 && (List.zipWith (List.zipWith both) (nums x) (nums y)).flatten.any fun b => b
  | .fma x y _ _ => (List.zipWith (List.zipWith both) (nums x) (nums y)).flatten.any fun b => b
  | .tscl x _ c => (nums x).flatten.any fun a => both a (dec32 c)
  | .texp2 .. | .trcp .. => true
  | _ => false

/-- One output element of a matrix command: a row of A, a column of B, what it is added to, and the inversion that falls on it. -/
structure Dot where
  int : Bool
  len : Nat
  a : List Num
  b : List Num
  c : W32
  inj : Option (Nat × Nat)

/-- The operands of a matrix command (R100 to R103). The rows of MMAG's A are those that it has gathered. -/
def Task.factors (t : Task) (c : Cmd) : Option (Tile × Tile × Option Tile × Bool) :=
  match c.op with
  | .mma a b k _ check => (t.tileOf a).bind fun x => (t.tileOf b).map fun y => (x, y, k.bind t.tileOf, check.isSome)
  | .mscl a b .. => (t.tileOf a).bind fun x => (t.tileOf b).map fun y => (x, y, none, false)
  | .mmag b i _ _ _ f k _ =>
    (t.tileOf b).map fun y =>
      let n := match t.entry i with | some x => x.cols | none => 0
      ({ fmt := f, rows := n, cols := k, data := (List.range n).map fun r => (c.bytes r).getD (zeroRow f k) }, y, none, false)
  | _ => none

/-- The output elements of a matrix command, those of a checksum tile with them (R81, R82, R101). -/
def Task.dots (t : Task) (c : Cmd) : List Dot :=
  match t.factors c with
  | none => []
  | some (x, y, z, check) =>
    let int := x.fmt == .int8
    let len := chunkOf x y
    let j := injFor c.inj x.rows y.cols x.cols len
    let zn := match z with | some w => w.nums | none => []
    let c0 (i k : Nat) : W32 := match (zn.getD i [])[k]? with
      | some v => if int then (match v with | .fin s m _ => BitVec.ofInt 32 (if s then -(m : Int) else m) | _ => 0) else (rnd32 v).1
      | none => 0
    let rows := x.nums
    let cols := colNums y
    let sum (l : List Num) : Num := (chunkSum (l.map fun v => (v, 0))).1
    let plain (a b : List Num) : Dot := { int := int, len := len, a := a, b := b, c := 0, inj := none }
    let checks :=
      if check then
        rows.map (fun r => plain r (y.nums.map sum)) ++
          cols.map fun col => plain ((List.range x.cols).map fun k => sum (rows.map fun r => r.getD k .nan)) col
      else []
    (rows.zipIdx.flatMap fun (r, i) => cols.zipIdx.map fun (col, k) =>
      { int := int, len := len, a := r, b := col, c := c0 i k, inj := injAt j i k }) ++ checks

/-- The products of each chunk of an element. -/
def Dot.chunks (d : Dot) : List (List (Num × Flags)) :=
  (List.range ((d.a.length + d.len - 1) / d.len)).map fun c =>
    prods ((d.a.drop (c * d.len)).take d.len) ((d.b.drop (c * d.len)).take d.len)

/-- The aligned terms of a chunk: the products, each shifted up from one common exponent (R364). -/
def chunkTerms (ps : List (Num × Flags)) (l : List (Bool × Nat × Nat)) : Bool :=
  let term (z : Int) (p : Num) (x : Bool × Nat × Nat) : Bool :=
    match p with
    | .fin s m e => x.2.1 == m && (m == 0 || (x.1 == s && (x.2.2 : Int) == e - z))
    | _ => false
  let base : Option Int := (List.zip ps l).findSome? fun y =>
    match y.1.1 with
    | .fin _ m e => if m = 0 then none else some (e - y.2.2.2)
    | _ => none
  ps.length == l.length && (List.zip ps l).all fun y => term (base.getD 0) y.1.1 y.2

/-- The steps of an element's accumulator: what it held, and the chunk that is added (R81, R82). -/
def Dot.steps (d : Dot) : List (W32 × W32) :=
  (d.chunks.zipIdx.foldl (fun (a : W32 × List (W32 × W32)) (ps, c) =>
    let sum := chunkSum ps
    let (ch, next) : W32 × W32 :=
      if d.int then
        (match sum.1 with
        | .fin s m e =>
          let v : Int := (if s then -1 else 1) * (m * 2 ^ e.toNat : Nat)
          (BitVec.ofInt 32 v, BitVec.ofNat 32 (satInt 32 (a.1.toInt + v)).1)
        | _ => (0, a.1))
      else
        let ch := (fin32 sum).1
        (ch, (numAdd (dec32 a.1) (dec32 ch)).1)
    let next := match d.inj with
      | some (k, bit) => if k = c then flipBit next bit else next
      | none => next
    (next, a.2 ++ [(a.1, ch)])) (d.c, [])).2

/-- The exponent field of a pattern, that of a subnormal being the least. -/
def expField (x : W32) : Nat := max 1 (x.toNat / 2 ^ 23 % 256)

/-- The addition of a chunk to an accumulator: of two finite FP32 values the one with the lesser exponent is aligned to the other, both under
the same guard bits. -/
def accumStep (int : Bool) (acc ch : W32) (x : ResOp) : Bool :=
  match x with
  | .add 32 p q false => int && p == acc.toNat && q == ch.toNat
  | .accum w a b s minus _ _ _ =>
    let finite (v : W32) : Bool := v.toNat / 2 ^ 23 % 256 != 255
    let order (u v : W32) : Bool :=
      expField v ≤ expField u && s == min w (expField u - expField v) &&
        (List.range 64).any fun g => a == mantissa u * 2 ^ g && b == mantissa v * 2 ^ g
    !int && finite acc && finite ch && minus == (acc.getLsbD 31 != ch.getLsbD 31) && (order acc ch || order ch acc)
  | _ => false

/-- The operations of an engine for a command. -/
def State.engineWork (s : State) (x : Failure) : Bool :=
  (x.cmd.bind fun k => s.t.cmds.find? fun c => c.id == k).any fun c =>
    match x.cls.val, x.work with
    | 5, w => (s.t.intWork c.op).contains w
    | 6, .mul w p q => w == 24 && s.t.tileMul c.op p q
    | 6, w => w.floating
    | 7, .chunk _ l => (s.t.dots c).any fun d => d.chunks.any fun ps => chunkTerms ps l
    | 8, w => (s.t.dots c).any fun d => d.steps.any fun y => accumStep d.int y.1 y.2 w
    | _, _ => false

/-- The operation is one that the unit of the class makes for the syllable. The steps of a divide and of a floating path, and their
widths, are not given (DESIGN CHOICE, log entry 115). -/
def State.works (s : State) (x : Failure) : Bool :=
  match x.cls.val with
  | 1 => s.scalarWork x.ins x.work
  | 2 => s.addrWork x
  | 3 => s.laneWork x.ins x.facet (Fin.ofNat 16 x.lane) x.work
  | 4 => s.floatWork x.ins x.facet (Fin.ofNat 16 x.lane) x.work
  | _ => s.engineWork x

/-! Failed checks (R365, R366). -/

/-- A failed check as a record names it; `m` is the map of its core. Fields that do not apply to its class are zero. -/
def Failure.upset (x : Failure) (m : W64) : Upset :=
  let c := x.cls.val
  let facet : Bool := c == 3 || c == 4
  let row : Bool := c == 7 || c == 8
  { cls := x.cls, slot := Kind.slot x.kind, op := (slotOp (some x.ins)).2, facet := if facet then x.facet else 0
    lane := BitVec.ofNat 7 (if facet then x.facet.val * 16 + x.lane else if 5 ≤ c && c ≤ 8 then x.lane else 0)
    phys := BitVec.ofNat 7 (if facet then physLane m x.facet x.lane else if row then x.lane else 0)
    arr := x.arr, syn := if c = 10 then x.syn else BitVec.ofNat 16 (x.work.predict * 8 + resOf x.got) }

/-- The check fails: a datapath that the class covers gives another residue than it predicted (R363, R365), or a word with a
double-bit error is consumed (R366). The instruction cache and TLB carry parity alone. `s` is the state as the bundle read it. -/
def State.fails (s : State) (x : Failure) : Bool :=
  let c := x.cls.val
  let inRange := if c = 3 || c = 4 then x.lane < 16 else if c = 5 || c = 6 then x.lane < 128 else x.lane < 66
  if c = 10 then x.arr != .icache && x.arr != .itlb
  else 1 ≤ c && c ≤ 8 && (coveredBy x.ins).contains c && inRange && x.work.bounded && s.works x && x.work.predict != resOf x.got

/-- The accesses of a syllable of the bundle at an address that are still to be performed. -/
def Task.yetToDo (t : Task) (i : Instr) (a : VAddr) : List Acc := t.acc.filter fun y => y.ins == some i && y.bundle == a

/-- The work of a command that stores is not all performed, so that a result which fails is not written (R365). -/
def Task.notAll (t : Task) (x : Failure) (c : Cmd) : Bool :=
  match x.ins with
  | .cpput _ | .cpmc _ | .cpsort _ | .cpfill _ => c.done.length < c.count t
  | .tst _ => !(t.yetToDo x.ins c.bundle).isEmpty
  | _ => true

/-- The last bundle has issued in full, TRAP or BRK among its syllables where it drains. -/
def Task.ranFull (t : Task) : Bool :=
  match t.run with
  | .trapDrain _ => t.ran.any fun y => match y.ins with | .trap _ | .brk _ => true | _ => false
  | _ => true

/-- Where a failed check is charged (R365, R369): the bundle of the command; the bundle that issued last, or that trapped, before any
access of the failing syllable is performed; or for a word consumed by an access the bundle of the access. None where the task has no
such work in flight. -/
def Task.failAt (t : Task) (x : Failure) : Option VAddr :=
  let stores : Bool := x.cls.val == 2 || (match x.ins with | .vstt _ => true | _ => false)
  match x.cmd with
  | some c =>
    if ((encode x.ins).map (·.1)) != some x.kind then none
    else
      ((t.cmds.find? fun y => y.id == c && y.ins == some x.ins && t.notAll x y).map (·.bundle)).or
        ((t.eks.find? fun y => y.id == c && y.ins == some x.ins).map (·.bundle))
  | none =>
    let facet : Bool := x.cls.val == 3 || x.cls.val == 4
    let whole (y : Syl) : Bool :=
      let n := (t.yetToDo y.ins t.ranAt).length
      match y.ins with
      | .pfd _ | .lwatch _ => true
      | .cbo o => o.kind != .zero || !t.ranFull || n != 0
      | _ => !t.ranFull || (if y.kind = .f then n == y.facets.length else n != 0)
    let last := t.ran.any fun y => y.ins == x.ins && y.kind == x.kind && (!facet || y.facets.contains x.facet) && (!stores || whole y)
    if last then some t.ranAt
    else if x.cls = 10 then (t.acc.find? fun a => a.ins == some x.ins && (encode x.ins).map (·.1) == some x.kind).map (·.bundle)
    else none

/-- The task in focus as its last bundle read it: what that bundle wrote has not landed. -/
def State.asRead (s : State) : State :=
  s.withT fun t => { t with bidx := if t.ranFull then t.bidx - 1 else t.bidx }

/-- The checks of a cycle that fail, as the choice names them. -/
def State.failures (s : State) (u : Nat) (l : List Failure) : List (Upset × VAddr × Option Nat) :=
  match s.taskOf u with
  | none => []
  | some t =>
    let f := (s.focus u).asRead
    l.filterMap fun x =>
      if f.fails x then (t.failAt x).map fun a => (x.upset (s.core t.id.core).semap, a, none) else none

end Sys2Proof.Machine
end

