-- ==== Sys2Proof/Machine/Bundle.lean ====
section
/-! DEFINITION. The issue of a bundle (R9, R36, R115, R117, R122, R123), what moves next, and the placing of one instruction
where the next step fetches it. -/

namespace Sys2Proof.Machine

/-! The read stage. -/

/-- Whether a bundle needs its return address. -/
def isCall (i : Instr) : Bool :=
  match i with
  | .call _ | .calli _ => true
  | _ => false

/-- The address of the bundle after the one at the pc, in sequence. DESIGN CHOICE, log entry 77: addresses wrap at 2^57. -/
def State.nextInSequence (s : State) (b : Bundle) : Nat := (s.t.pc.toNat + 8 * (1 + b.hdr.npar)) % 2 ^ 57

/-- The return address of the CALL of a bundle, with what its fetch leaves; 0 for a bundle without one. -/
def State.callReturn (s : State) (b : Bundle) : State × Nat :=
  if b.syls.any fun x => isCall x.ins then s.returnAddr (s.nextInSequence b) else (s, 0)

/-- The latch of the bundle at the pc. -/
def State.latchFor (s : State) (b : Bundle) (ret : Nat) : Latch :=
  let reg (i : Fin 4) : Option (Fin 56) :=
    let e := b.hdr.ports.get i
    if e.getLsbD 6 then some (Fin.ofNat 56 (e.toNat % 64)) else none
  { addr := s.t.pc, next := BitVec.ofNat 57 (s.nextInSequence b), ret := BitVec.ofNat 57 ret
    entries := b.hdr.ports
    vals := vecOf fun i => match reg i with | some r => s.readS r i.val | none => 0
    orgs := vecOf fun i => match reg i with | some r => s.orgS r | none => Origin.none
    facets := [], ins := none }

/-! The write stage. -/

/-- Where the path goes after bundle `b` (R122). -/
def Task.nextPc (t : Task) (b : Nat) : VAddr :=
  match t.pend.find? fun p => p.due == b with
  | some p => p.target
  | none => t.latch.next

/-- A bundle that has issued in full, with its enabled syllables: its CSR writes take effect, its accesses take their places, and the path
goes on. A TRAP or BRK resumes where the path goes (R133); where a BRK halts, what is in flight lands (R295). -/
def State.issued (s : State) (l : List Syl) : State :=
  let s := s.applyCsr.orderAccs
  let s := match s.t.run with
    | .parked .watch _ => s.abortMould 8
    | _ => s
  let s := s.withT fun t =>
    let b := t.bidx
    let pc := t.nextPc b
    { t.unfresh with
      pc := pc, bidx := b + 1, pend := t.pend.filter fun p => p.due != b
      past := (t.latch.addr :: t.past).take 3, ran := l, ranAt := t.latch.addr
      hdrs := t.hdrs.filter fun h => h.1 != t.latch.addr.toNat
      run := match t.run with
        | .trapDrain r => .trapDrain { r with ret := pc }
        | r => r }
  if s.t.run = .halted then s.withT Task.landAll else s

/-- The issue of the bundle at the pc. A parcel of a poisoned line is consumed as the bundle issues (R378). -/
def State.issueBundle (s : State) : Out :=
  match s.lateReply with
  | some a => .next (s.freeze (.reply a))
  | none =>
    let s := s.landed
    if s.t.ifenced then .next s
    else
      match s.front with
      | .stop f => .next (s.freeze f)
      | .trap c => .next (s.trapFetched c)
      | .ok b =>
        match s.badFetch with
        | some line => .next (s.consumePoison none line s.t.pc)
        | none =>
        let (s, ret) := s.callReturn b
        let latch := s.latchFor b ret
        let used := (s.useLine s.t.pc.toNat).useLine ((latch.next.toNat + 2 ^ 57 - 8) % 2 ^ 57)
        let base := used.withT fun t => { t with latch := latch, ifence := [] }
        let l := issueOrder b.syls
        let on (x : Syl) : Bool := x.kind == .f || base.on (sylGuard x.ins)
        match (base.observe l).issueSyls base exec on l with
        | .next r => .next (if r.full then r.s.issued (l.filter on) else r.s)
        | .fault e => .fault e
        | .refused e => .refused e

/-! One issue attempt of the task in focus. -/

/-- A bundle or a group of a cast issues, a park completes, or a debug halt falls (R289, R295). A frozen core, and a task that
drains, is halted or has ended, issues nothing. -/
def State.issue (s : State) : Out :=
  match s.t.run with
  | .running =>
    if s.coreFrozen || s.mustStop then .next s
    else if s.t.cast.isSome then execCastIssueGroup s.t.id.uid s
    else if s.t.id.haltReq && s.t.id.debug then .next s.haltNow
    else s.issueBundle
  | .parked _ true => .next s.parkOut
  | _ => .next s

/-- Task `u` comes into focus and issues. -/
def State.issueTask (s : State) (u : Nat) : Out := if s.hasTask u then (s.focus u).issue else .next s

/-! What moves next (log entry 2). -/

/-- What reaches a device in recovery: it accepts only a firmware update (R393), besides what happens to it from outside. -/
def Choice.inRecovery : Choice → Bool
  | .issue _ | .leaseEnd _ | .systemLaunch .. | .sysWrite .. | .loadMap .. | .remoteJoin .. | .remoteBytes .. | .remoteKilled .. => false
  | .event i =>
    (match i with
    | .firmwareUpdate _ | .moduleReset | .powerOn | .functionLevelReset _ | .hostLinkDown | .hostLinkUp | .kranumFlitReceive ..
    | .linkRetryExpiry _ | .kranumLinkReturn _ | .dieOvertemp .. | .powerClamp _ | .patinaMeasurement .. | .containmentScrub => true
    | _ => false)
  | _ => true

/-- The choice itself. -/
def State.chosen (s : State) (c : Choice) : Out :=
  if s.ros.recovery && !c.inRecovery then .next s
  else
  match c with
  | .issue u => s.issueTask u
  | .event i => exec i s
  | .upset u l => .next (s.machineCheck u (s.failures u l))
  | .softError core a => .next (if core < 384 then s.softError core a else s)
  | .parity core itlb k => .next (if core < 384 then s.parityError core itlb k else s)
  | .clock us => .next { s with ros := { s.ros with time := s.ros.time + BitVec.ofNat 64 us } }
  | .stackError f l => .next (s.frameError f l)
  | .copyError e => .next { s with ros := { s.ros with copies := s.ros.copies ++ [e] } }
  | .leaseEnd u => exec (.watchFire u) s
  | .systemLaunch addr p =>
    .next (if (s.parts.get p).inUse then
      let s := s.submit (addr / 128 * 128 % 2 ^ 57) p
      { s with launches := s.launches.map fun l => if l.key + 1 = s.nextKey then { l with system := true } else l }
    else s)
  | .sysWrite die n v => .next (s.firmwareWrite die n v)
  | .loadMap asid b => .next (s.loadMap asid b)
  | .remoteJoin comm size num m => .next (s.remoteJoin comm size num m)
  | .remoteBytes c r b => .next (s.remoteBytes c r b)
  | .remoteKilled c r => .next (s.remoteKilled c r)
  | .holderIs x => .next { s with host := { s.host with far := x :: s.host.far.filter fun y => y.dev != x.dev } }
  | .agentWrite pa b =>
    .next (if 0x4000000000000 ≤ pa && pa + b.length ≤ 0x8400000000000 then s.devWrite none pa b else s)

/-- What follows a move: the copies that it looked up are compared (R379), and a waiting QTAKE that may take a slot does so (R258). -/
def State.settle (s : State) : State :=
  let met := s.ros.met
  (if met.isEmpty then s
   else State.lookupCopies { s with ros := { s.ros with met := [] } } (met.map fun l => (l * 64, 64))).takeAll

/-- One choice. -/
def State.choose (s : State) (c : Choice) : Out :=
  match s.chosen c with
  | .next s => .next s.settle
  | r => r

/-! With no choice listed, the machine takes the first of these that changes anything, the work in flight of a task before its
next bundle. Each move is the meaning of an event. -/

abbrev Move := State → Out

/-- The elements of the commands of a task. -/
def elementMoves (t : Task) : List Move :=
  let u := t.id.uid
  (t.cmds.flatMap fun c => (List.range (c.count t)).map fun e => execBulkElementAccess u c.id e) ++
    t.eks.map fun e => execBulkElementAccess u e.id 0

/-- What the work in flight of a task can do. -/
def Task.moves (t : Task) : List Move :=
  let u := t.id.uid
  let cmds : List Move := t.cmds.flatMap fun c =>
    [execEntryLatched u c.id, execEntryReady u c.id, execCopyCommandComplete u c.id, execBlockReady u c.id]
  let eks : List Move := t.eks.flatMap fun e =>
    [execRingReserveStep u e.id, execRingPublishStep u e.id, execRingTakeStep u e.id, execRingFreeStep u e.id,
     execInvalidationComplete u e.id, execMailboxDelivery u e.id, execSpawnCheck u e.id, execBarrierArrival u e.id,
     execTokenDelivery u e.id]
  let frz : List Move := match t.frz with
    | some (.walk _) | some (.iwalk _) => [execPageWalkComplete u]
    | some (.fetch _) => [execIcacheFill u]
    | some (.fault ..) => [execFaultRecordPost u, execFaultReply u]
    | _ => []
  let ends : List Move := match t.run with
    | .trapDrain _ => [execTrapDrainEnd u]
    | .eretDrain => [execEretDrainEnd u]
    | .doneWait => [execNodeDoneComplete u]
    | .parked .. => [execParkWake u]
    | _ => []
  let acc : List Move := if t.acc.isEmpty then [] else [execPerformAccess u, execMemoryReply u]
  let stop : List Move := if t.id.preempt then [execPreemptionStop u] else []
  frz ++ acc ++ cmds ++ elementMoves t ++ eks ++ ends ++ stop

/-- The entries of suspended tasks that leave their cores. -/
def State.spillMoves (s : State) : List Move :=
  (s.tasks.filter fun t => !t.works).filterMap fun t =>
    (s.focus t.id.uid).spillNext.map fun e => execSuspendedEntrySpill t.id.uid e.id

/-- The writes that meet a test go outward (R244). -/
def State.raiseMoves (s : State) (f : Wr → Bool) : List Move := (s.mem.narrow.filter f).map fun w => execPropagateWrite w.seq

/-- How entries move: those of suspended tasks first (R61), then the one of the task in focus that rises or sinks next. -/
def State.shifts (s : State) : List Move :=
  let u := s.t.id.uid
  s.spillMoves ++ (s.riseNext.toList.map fun c => execEntryRise u c) ++ s.sinkNext.toList.map fun e => execEntrySink u e.id

/-- What the collectives can do. -/
def State.collMoves (s : State) : List Move :=
  s.colls.flatMap fun c =>
    execCollectiveInstanceStart c.key ::
      c.members.flatMap fun m => [execCollectiveStep c.key m.rank, execCollectiveEnd c.key m.rank]

/-- What the queue controller can do. -/
def State.queueMoves (s : State) : List Move :=
  let parts : List (Fin 16) := List.finRange 16
  let busy := parts.filter fun p => (s.parts.get p).op != .none
  let ops : List Move := busy.flatMap fun p => [execPctlApply p, execPctlRelease p]
  let cores : List Nat := (parts.filter fun p => (s.parts.get p).inUse).flatMap fun p => (s.parts.get p).cores
  let work := s.nodes.any fun n => n.state == .fired
  (s.launches.filter (fun l => !l.checked)).map (fun l => execLaunchCheck l.key) ++ ops ++
    (if busy.isEmpty then [] else [execPartitionOpComplete]) ++
    (if work then cores.flatMap fun c => [execTaskDispatch c false, execTaskDispatch c true] else [])

/-- An idle core that probes until its deque holds a reference, `n` times at most. -/
def probeMove (core : Nat) : Nat → Move
  | 0, s => .next s
  | n + 1, s =>
    match execStealProbe core s with
    | .next s' => if (s'.entriesOf core false).isEmpty then probeMove core n s' else .next s'
    | r => r

/-- The probes that find work, while a node waits for a core. -/
def State.probeMoves (s : State) : List Move :=
  if s.nodes.any fun n => n.state == .fired && !n.timetabled then
    (List.finRange 16).flatMap fun p =>
      let cores := if (s.parts.get p).inUse then (s.parts.get p).cores else []
      cores.map fun c => fun s =>
        match probeMove c (8 * cores.length) s with
        | .next s' => if (s'.entriesOf c false).isEmpty then .next s else .next s'
        | r => r
  else []

/-- Pre-emption for timetabled nodes that wait for a core. -/
def State.demandMoves (s : State) : List Move :=
  if s.nodes.any fun n => n.state == .fired && n.timetabled then s.tasks.map fun t => execPreemptionRequest t.id.uid else []

/-- The states differ in nothing but the task in focus. -/
def State.sameBut (s s' : State) : Bool :=
  { s' with t := s.t, others := s.others } = s &&
    sortBy (fun x => x.id.uid) s'.tasks = sortBy (fun x => x.id.uid) s.tasks

/-- The first move that changes the state. -/
def State.firstChange (s : State) : List Move → Option State
  | [] => none
  | f :: l =>
    match f s with
    | .next s' => if s.sameBut s' then s.firstChange l else some s'
    | _ => s.firstChange l

/-- An issue attempt counts as a move where more than the counter of free values changes. -/
def State.tryIssue (s : State) : Option State :=
  match s.issue with
  | .next s' => if { s' with fv := s.fv } = s then none else some s'
  | _ => none

/-- A move about a task: its work in flight, its writes on their way outward, its next bundle, and then its entries. -/
def State.taskMove (s : State) (t : Task) : Option State :=
  match s.firstChange (t.moves ++ s.raiseMoves fun w => w.task == t.id.uid) with
  | some s' => some s'
  | none =>
    match (s.focus t.id.uid).tryIssue with
    | some s' => some s'
    | none =>
      let s' := s.focus t.id.uid
      s.firstChange s'.shifts

def State.firstTask (s : State) : List Task → Option State
  | [] => none
  | t :: l =>
    match s.taskMove t with
    | some s' => some s'
    | none => s.firstTask l

/-- The step with no choice listed: collectives, queues and the writes of tasks that are gone, then the task that has moved least
recently. Where nothing moves, nothing changes. A waiting QTAKE then tests its ring (R258). -/
def State.unguided (s : State) : State :=
  let orphans := s.raiseMoves fun w => !s.hasTask w.task
  if s.ros.recovery then s
  else match s.firstChange (s.collMoves ++ s.queueMoves ++ s.demandMoves ++ s.probeMoves ++ orphans) with
  | some s' => s'.settle
  | none => ((s.firstTask (s.others.reverse ++ [s.t])).map State.settle).getD s

/-! Placing an instruction (log entry 17). -/

/-- A template that holds one syllable of the kind, the F group apart (R16). -/
def Kind.template : Kind → Fin 32
  | .br => 0 | .sa => 1 | .sb => 9 | .am => 2 | .xf => 15 | .f => 3 | .xs => 16
  | .em => 4 | .et => 5 | .ev => 6 | .ec => 7 | .ek => 8

/-- The register that LOOP and CAS read through a port entry of its own (R144, R168). -/
def entryReg (nbits w : Nat) : Nat :=
  match decodeTableWord nbits w with
  | some (.loop o) => o.c.val
  | some (.casW o) | some (.casD o) => (match o.d with | .s r => r.val | .bs _ => 0)
  | _ => 0

/-- A bundle of one syllable, its extended immediate zero: header and slot parcel. Its ports are valid, and a facet
syllable runs on facet 0. -/
def placedBundle (nbits w : Nat) : Nat × Nat :=
  let k := (tableKind w).getD .br
  let h : Header :=
    { npar := 1, tmpl := Kind.template k, fmask := if k = .f then 1 else 0, fbc := false
      ports := #v[64, 65, 66, BitVec.ofNat 7 (64 + entryReg nbits w)] }
  (encodeHeader h, w % 0x100000000)

/-- A 2 MiB instruction page that holds an address, mapped at the bottom of device memory. -/
def placedPage (asid : Byte) (va : Nat) : TlbEnt :=
  { asid := asid, base := va / 0x200000 * 0x200000, size := 0x200000, leaf := BitVec.ofNat 64 (asid.toNat * 2 ^ 56 + 3) }

/-- The task in focus runs, unfrozen, on its core, and the next step is its issue. The bundle stands in memory at its pc, under a
translation, and in the instruction cache. -/
def State.placeWord (s : State) (nbits w : Nat) : State :=
  let (h, p) := placedBundle nbits w
  let va := s.t.pc.toNat
  let e := placedPage (asidOf s.t.dtroot) va
  let pa := (e.tr va).pa
  let s := { s with
    t := { s.t with run := .running, frz := none, cast := none, id := { s.t.id with resident := true, preempt := false } }
    mem := s.mem.hwWrite none pa (leBytes 8 h ++ leBytes 8 p)
    turn := .issue s.t.id.uid :: s.turn }
  ((s.itlbFill e).icacheFillLine none (pa / 128)).icacheFillLine none ((pa + 8) / 128)

end Sys2Proof.Machine
end

