-- ==== Sys2Proof/Machine/Step.lean ====
section
/-! DEFINITION. One step of the machine: the next choice of `turn`, or a move of the machine's own (log entry 2). -/

namespace Sys2Proof.Machine

def step (s : State) : Host.Outcome State Fault Refusal :=
  match s.turn with
  | c :: l => State.choose { s with turn := l } c
  | [] => .next s.unguided

/-- `s` with one instruction placed where the next step fetches it (log entry 17). -/
def State.withFetchWord (s : State) (nbits w : Nat) : State := s.placeWord nbits w

end Sys2Proof.Machine
end

