-- ==== Sys2Proof/Laws/Encoding.lean ====
section
/-! SUPPORT. The decoder reads back each operand structure from the word that the encoder makes of it: every field of every
layout at every value its type admits. -/

namespace Sys2Proof

/-! Codes of the operand kinds. -/

@[simp] theorem Src.ofCode_code (a : Src) : Src.ofCode a.code = some a := by
  cases a with
  | port i => revert i; decide
  | byp i => revert i; decide
  | zero => rfl
  | ext => rfl
  | imm v => revert v; decide

theorem Src.code_lt (a : Src) : a.code < 32 := by cases a <;> simp [Src.code] <;> omega

@[simp] theorem Dst.ofCode_code (a : Dst) : Dst.ofCode a.code = some a := by
  cases a with
  | s i => revert i; decide
  | bs i => revert i; decide

theorem Dst.code_lt (a : Dst) : a.code < 64 := by cases a <;> simp [Dst.code] <;> omega

@[simp] theorem VReg.ofCode_code (a : VReg) : VReg.ofCode a.code = some a := by
  cases a with
  | v i => revert i; decide
  | bf i => revert i; decide

theorem VReg.code_lt (a : VReg) : a.code < 36 := by cases a <;> simp [VReg.code] <;> omega

@[simp] theorem FSrc.ofCode_code (a : FSrc) : FSrc.ofCode a.code = some a := by
  cases a with
  | r x => simp [FSrc.code, FSrc.ofCode, x.code_lt]
  | zero => rfl
  | ext => rfl
  | imm v => revert v; decide

theorem FSrc.code_lt (a : FSrc) : a.code < 64 := by
  cases a with
  | r x => have := x.code_lt; simp [FSrc.code]; omega
  | zero => decide
  | ext => decide
  | imm v => simp [FSrc.code]; omega

@[simp] theorem Scope.ofCode_code (a : Scope) : Scope.ofCode a.code = some a := by cases a <;> rfl

theorem Scope.code_lt (a : Scope) : a.code < 10 := by cases a <;> decide

@[simp] theorem Fmt.ofCode_code (a : Fmt) : Fmt.ofCode a.code = some a := by cases a <;> rfl

theorem Fmt.code_lt (a : Fmt) : a.code < 10 := by cases a <;> decide

@[simp] theorem Cond.ofCode_code (a : Cond) : Cond.ofCode a.code = some a := by cases a <;> rfl

theorem Cond.code_lt (a : Cond) : a.code < 12 := by cases a <;> decide

@[simp] theorem Lop.ofCode_code (a : Lop) : Lop.ofCode a.code = some a := by cases a <;> rfl

theorem Lop.code_lt (a : Lop) : a.code < 8 := by cases a <;> decide

@[simp] theorem CboKind.ofCode_code (a : CboKind) : CboKind.ofCode a.code = some a := by cases a <;> rfl

theorem CboKind.code_lt (a : CboKind) : a.code < 3 := by cases a <;> decide

@[simp] theorem XredOp.ofCode_code (a : XredOp) : XredOp.ofCode a.code = some a := by cases a <;> rfl

theorem XredOp.code_lt (a : XredOp) : a.code < 8 := by cases a <;> decide

@[simp] theorem CvtKind.ofCode_code (a : CvtKind) : CvtKind.ofCode a.code = some a := by cases a <;> rfl

theorem CvtKind.code_lt (a : CvtKind) : a.code < 11 := by cases a <;> decide

@[simp] theorem RMode.ofCode_code (a : RMode) : RMode.ofCode a.code = some a := by cases a <;> rfl

theorem RMode.code_lt (a : RMode) : a.code < 4 := by cases a <;> decide

@[simp] theorem VCond.ofCode_code (a : VCond) : VCond.ofCode a.code = some a := by cases a <;> rfl

theorem VCond.code_lt (a : VCond) : a.code < 16 := by cases a <;> decide

@[simp] theorem RedOp.ofCode_code (a : RedOp) : RedOp.ofCode a.code = some a := by cases a <;> rfl

theorem RedOp.code_lt (a : RedOp) : a.code < 9 := by cases a <;> decide

@[simp] theorem DotKind.ofCode_code (a : DotKind) : DotKind.ofCode a.code = some a := by cases a <;> rfl

theorem DotKind.code_lt (a : DotKind) : a.code < 4 := by cases a <;> decide

@[simp] theorem VSize.ofCode_code (a : VSize) : VSize.ofCode a.code = some a := by cases a <;> rfl

theorem VSize.code_lt (a : VSize) : a.code < 3 := by cases a <;> decide

@[simp] theorem Rop.ofCode_code (a : Rop) : Rop.ofCode a.code = some a := by cases a <;> rfl

theorem Rop.code_lt (a : Rop) : a.code < 6 := by cases a <;> decide

@[simp] theorem EType.ofCode_code (a : EType) : EType.ofCode a.code = some a := by cases a <;> rfl

theorem EType.code_lt (a : EType) : a.code < 10 := by cases a <;> decide

@[simp] theorem Rel.ofCode_code (a : Rel) : Rel.ofCode a.code = some a := by cases a <;> rfl

theorem Rel.code_lt (a : Rel) : a.code < 6 := by cases a <;> decide

@[simp] theorem TlbiKind.ofCode_code (a : TlbiKind) : TlbiKind.ofCode a.code = some a := by cases a <;> rfl

theorem TlbiKind.code_lt (a : TlbiKind) : a.code < 3 := by cases a <;> decide

@[simp] theorem boolCode_none : boolCode (none : Option W32).isSome = 0 := rfl

@[simp] theorem boolCode_some (x : W32) : boolCode (some x).isSome = 1 := rfl

@[simp] theorem boolOf_code (b : Bool) : boolOf (boolCode b) = some b := by cases b <;> rfl

theorem boolCode_lt (b : Bool) : boolCode b < 2 := by cases b <;> decide

@[simp] theorem finOf_val (m : Nat) [NeZero m] (i : Fin m) : finOf m i.val = some i := by
  simp [finOf]

@[simp] theorem pairOf_val (m : Nat) [NeZero m] (i : Fin m) : pairOf m (2 * i.val) = some i := by
  simp [pairOf]

/-! Operand structures. -/

theorem OBr.enc_fields (o : OBr) (op : Nat) (h : op < 128) :
    bits (o.enc op) 31 28 = o.g.val ∧
      bits (o.enc op) 26 20 = op ∧
      bits (o.enc op) 27 27 = boolCode o.ix.isSome ∧
      bits (o.enc op) 19 0 = o.ofs.toNat := by
  have := o.g.isLt
  have := boolCode_lt o.ix.isSome
  have := o.ofs.isLt
  simp only [OBr.enc, frameG, bits]
  refine ⟨?_, ?_, ?_, ?_⟩ <;> omega

@[simp] theorem OBr.dec_enc (o : OBr) (op : Nat) (h : op < 128) : OBr.dec (o.enc op) o.ix = some o := by
  obtain ⟨h0, h1, h2, h3⟩ := o.enc_fields op h
  simp [OBr.dec, gOf, *]

theorem OBrc.enc_fields (o : OBrc) (op : Nat) (h : op < 128) :
    bits (o.enc op) 31 28 = o.g.val ∧
      bits (o.enc op) 26 20 = op ∧
      bits (o.enc op) 27 27 = boolCode o.ix.isSome ∧
      bits (o.enc op) 19 15 = o.a.code ∧
      bits (o.enc op) 14 14 = boolCode o.nz ∧
      bits (o.enc op) 13 0 = o.ofs.toNat := by
  have := o.g.isLt
  have := boolCode_lt o.ix.isSome
  have := o.a.code_lt
  have := boolCode_lt o.nz
  have := o.ofs.isLt
  simp only [OBrc.enc, frameG, bits]
  refine ⟨?_, ?_, ?_, ?_, ?_, ?_⟩ <;> omega

@[simp] theorem OBrc.dec_enc (o : OBrc) (op : Nat) (h : op < 128) : OBrc.dec (o.enc op) o.ix = some o := by
  obtain ⟨h0, h1, h2, h3, h4, h5⟩ := o.enc_fields op h
  simp [OBrc.dec, gOf, *]

theorem OBrq.enc_fields (o : OBrq) (op : Nat) (h : op < 128) :
    bits (o.enc op) 31 28 = o.g.val ∧
      bits (o.enc op) 26 20 = op ∧
      bits (o.enc op) 27 27 = boolCode o.ix.isSome ∧
      bits (o.enc op) 19 17 = o.f.val ∧
      bits (o.enc op) 16 14 = o.qc.val ∧
      bits (o.enc op) 13 11 = o.qe.val ∧
      bits (o.enc op) 10 0 = o.ofs.toNat := by
  have := o.g.isLt
  have := boolCode_lt o.ix.isSome
  have := o.f.isLt
  have := o.qc.isLt
  have := o.qe.isLt
  have := o.ofs.isLt
  simp only [OBrq.enc, frameG, bits]
  refine ⟨?_, ?_, ?_, ?_, ?_, ?_, ?_⟩ <;> omega

@[simp] theorem OBrq.dec_enc (o : OBrq) (op : Nat) (h : op < 128) : OBrq.dec (o.enc op) o.ix = some o := by
  obtain ⟨h0, h1, h2, h3, h4, h5, h6⟩ := o.enc_fields op h
  simp [OBrq.dec, gOf, *]

theorem OBrA.enc_fields (o : OBrA) (op : Nat) (h : op < 128) :
    bits (o.enc op) 31 28 = o.g.val ∧
      bits (o.enc op) 26 20 = op ∧
      bits (o.enc op) 27 27 = 0 ∧
      bits (o.enc op) 14 0 = 0 ∧
      bits (o.enc op) 19 15 = o.a.code := by
  have := o.g.isLt
  have := o.a.code_lt
  simp only [OBrA.enc, frameG, bits, boolCode_none]
  refine ⟨?_, ?_, ?_, ?_, ?_⟩ <;> omega

@[simp] theorem OBrA.dec_enc (o : OBrA) (op : Nat) (h : op < 128) : OBrA.dec (o.enc op) none = some o := by
  obtain ⟨h0, h1, h2, h3, h4⟩ := o.enc_fields op h
  simp [OBrA.dec, gOf, *]

theorem OLoop.enc_fields (o : OLoop) (op : Nat) (h : op < 128) :
    bits (o.enc op) 31 28 = o.g.val ∧
      bits (o.enc op) 26 20 = op ∧
      bits (o.enc op) 27 27 = boolCode o.ix.isSome ∧
      bits (o.enc op) 19 14 = o.c.val ∧
      bits (o.enc op) 13 0 = o.ofs.toNat := by
  have := o.g.isLt
  have := boolCode_lt o.ix.isSome
  have := o.c.isLt
  have := o.ofs.isLt
  simp only [OLoop.enc, frameG, bits]
  refine ⟨?_, ?_, ?_, ?_, ?_⟩ <;> omega

@[simp] theorem OLoop.dec_enc (o : OLoop) (op : Nat) (h : op < 128) : OLoop.dec (o.enc op) o.ix = some o := by
  obtain ⟨h0, h1, h2, h3, h4⟩ := o.enc_fields op h
  simp [OLoop.dec, gOf, *]

theorem OG.enc_fields (o : OG) (op : Nat) (h : op < 128) :
    bits (o.enc op) 31 28 = o.g.val ∧
      bits (o.enc op) 26 20 = op ∧
      bits (o.enc op) 27 27 = 0 ∧
      bits (o.enc op) 19 0 = 0 := by
  have := o.g.isLt
  simp only [OG.enc, frameG, bits, boolCode_none]
  refine ⟨?_, ?_, ?_, ?_⟩ <;> omega

@[simp] theorem OG.dec_enc (o : OG) (op : Nat) (h : op < 128) : OG.dec (o.enc op) none = some o := by
  obtain ⟨h0, h1, h2, h3⟩ := o.enc_fields op h
  simp [OG.dec, gOf, *]

theorem OWait.enc_fields (o : OWait) (op : Nat) (h : op < 128) :
    bits (o.enc op) 31 28 = o.g.val ∧
      bits (o.enc op) 26 20 = op ∧
      bits (o.enc op) 27 27 = 0 ∧
      bits (o.enc op) 14 8 = 0 ∧
      bits (o.enc op) 19 15 = o.cls.toNat ∧
      bits (o.enc op) 7 0 = o.n.toNat := by
  have := o.g.isLt
  have := o.cls.isLt
  have := o.n.isLt
  simp only [OWait.enc, frameG, bits, boolCode_none]
  refine ⟨?_, ?_, ?_, ?_, ?_, ?_⟩ <;> omega

@[simp] theorem OWait.dec_enc (o : OWait) (op : Nat) (h : op < 128) : OWait.dec (o.enc op) none = some o := by
  obtain ⟨h0, h1, h2, h3, h4, h5⟩ := o.enc_fields op h
  simp [OWait.dec, gOf, *]

theorem OFence.enc_fields (o : OFence) (op : Nat) (h : op < 128) :
    bits (o.enc op) 31 28 = o.g.val ∧
      bits (o.enc op) 26 20 = op ∧
      bits (o.enc op) 27 27 = 0 ∧
      bits (o.enc op) 3 0 = 0 ∧
      bits (o.enc op) 7 4 = o.scope.code ∧
      bits (o.enc op) 19 14 = o.pred.toNat ∧
      bits (o.enc op) 13 8 = o.succ.toNat := by
  have := o.g.isLt
  have := o.pred.isLt
  have := o.succ.isLt
  have := o.scope.code_lt
  simp only [OFence.enc, frameG, bits, boolCode_none]
  refine ⟨?_, ?_, ?_, ?_, ?_, ?_, ?_⟩ <;> omega

@[simp] theorem OFence.dec_enc (o : OFence) (op : Nat) (h : op < 128) : OFence.dec (o.enc op) none = some o := by
  obtain ⟨h0, h1, h2, h3, h4, h5, h6⟩ := o.enc_fields op h
  simp [OFence.dec, gOf, *]

theorem OLwatch.enc_fields (o : OLwatch) (op : Nat) (h : op < 128) :
    bits (o.enc op) 31 28 = o.g.val ∧
      bits (o.enc op) 26 20 = op ∧
      bits (o.enc op) 27 27 = boolCode o.ix.isSome ∧
      bits (o.enc op) 9 4 = 0 ∧
      bits (o.enc op) 19 15 = o.a.code ∧
      bits (o.enc op) 14 10 = o.b.code ∧
      bits (o.enc op) 3 0 = o.scope.code := by
  have := o.g.isLt
  have := boolCode_lt o.ix.isSome
  have := o.a.code_lt
  have := o.b.code_lt
  have := o.scope.code_lt
  simp only [OLwatch.enc, frameG, bits]
  refine ⟨?_, ?_, ?_, ?_, ?_, ?_, ?_⟩ <;> omega

@[simp] theorem OLwatch.dec_enc (o : OLwatch) (op : Nat) (h : op < 128) : OLwatch.dec (o.enc op) o.ix = some o := by
  obtain ⟨h0, h1, h2, h3, h4, h5, h6⟩ := o.enc_fields op h
  simp [OLwatch.dec, gOf, *]

theorem OR3.enc_fields (o : OR3) (op fn : Nat) (h : op < 128) (hf : fn < 16) :
    bits (o.enc op fn) 31 28 = o.g.val ∧
      bits (o.enc op fn) 26 20 = op ∧
      bits (o.enc op fn) 27 27 = boolCode o.ix.isSome ∧
      bits (o.enc op fn) 3 0 = fn ∧
      bits (o.enc op fn) 19 14 = o.d.code ∧
      bits (o.enc op fn) 13 9 = o.a.code ∧
      bits (o.enc op fn) 8 4 = o.b.code := by
  have := o.g.isLt
  have := boolCode_lt o.ix.isSome
  have := o.d.code_lt
  have := o.a.code_lt
  have := o.b.code_lt
  simp only [OR3.enc, frameG, bits]
  refine ⟨?_, ?_, ?_, ?_, ?_, ?_, ?_⟩ <;> omega

@[simp] theorem OR3.dec_enc (o : OR3) (op fn : Nat) (h : op < 128) (hf : fn < 16) : OR3.dec (o.enc op fn) o.ix fn = some o := by
  obtain ⟨h0, h1, h2, h3, h4, h5, h6⟩ := o.enc_fields op fn h hf
  simp [OR3.dec, gOf, *]

theorem OR2.enc_fields (o : OR2) (op : Nat) (h : op < 128) :
    bits (o.enc op) 31 28 = o.g.val ∧
      bits (o.enc op) 26 20 = op ∧
      bits (o.enc op) 27 27 = boolCode o.ix.isSome ∧
      bits (o.enc op) 8 0 = 0 ∧
      bits (o.enc op) 19 14 = o.d.code ∧
      bits (o.enc op) 13 9 = o.a.code := by
  have := o.g.isLt
  have := boolCode_lt o.ix.isSome
  have := o.d.code_lt
  have := o.a.code_lt
  simp only [OR2.enc, frameG, bits]
  refine ⟨?_, ?_, ?_, ?_, ?_, ?_⟩ <;> omega

@[simp] theorem OR2.dec_enc (o : OR2) (op : Nat) (h : op < 128) : OR2.dec (o.enc op) o.ix = some o := by
  obtain ⟨h0, h1, h2, h3, h4, h5⟩ := o.enc_fields op h
  simp [OR2.dec, gOf, *]

theorem OR3n.enc_fields (o : OR3n) (op : Nat) (h : op < 128) :
    bits (o.enc op) 31 28 = o.g.val ∧
      bits (o.enc op) 26 20 = op ∧
      bits (o.enc op) 27 27 = boolCode o.ix.isSome ∧
      bits (o.enc op) 19 14 = o.d.code ∧
      bits (o.enc op) 13 9 = o.a.code ∧
      bits (o.enc op) 8 4 = o.b.code ∧
      bits (o.enc op) 3 0 = o.n.val := by
  have := o.g.isLt
  have := boolCode_lt o.ix.isSome
  have := o.d.code_lt
  have := o.a.code_lt
  have := o.b.code_lt
  have := o.n.isLt
  simp only [OR3n.enc, frameG, bits]
  refine ⟨?_, ?_, ?_, ?_, ?_, ?_, ?_⟩ <;> omega

@[simp] theorem OR3n.dec_enc (o : OR3n) (op : Nat) (h : op < 128) : OR3n.dec (o.enc op) o.ix = some o := by
  obtain ⟨h0, h1, h2, h3, h4, h5, h6⟩ := o.enc_fields op h
  simp [OR3n.dec, gOf, *]

theorem OStg.enc_fields (o : OStg) (op : Nat) (h : op < 128) :
    bits (o.enc op) 31 28 = o.g.val ∧
      bits (o.enc op) 26 20 = op ∧
      bits (o.enc op) 27 27 = boolCode o.ix.isSome ∧
      bits (o.enc op) 8 0 = 0 ∧
      bits (o.enc op) 19 14 = o.d.val ∧
      bits (o.enc op) 13 9 = o.a.code := by
  have := o.g.isLt
  have := boolCode_lt o.ix.isSome
  have := o.d.isLt
  have := o.a.code_lt
  simp only [OStg.enc, frameG, bits]
  refine ⟨?_, ?_, ?_, ?_, ?_, ?_⟩ <;> omega

@[simp] theorem OStg.dec_enc (o : OStg) (op : Nat) (h : op < 128) : OStg.dec (o.enc op) o.ix = some o := by
  obtain ⟨h0, h1, h2, h3, h4, h5⟩ := o.enc_fields op h
  simp [OStg.dec, gOf, *]

theorem OMovi.enc_fields (o : OMovi) (op : Nat) (h : op < 128) :
    bits (o.enc op) 31 28 = o.g.val ∧
      bits (o.enc op) 26 20 = op ∧
      bits (o.enc op) 27 27 = boolCode o.ix.isSome ∧
      bits (o.enc op) 13 9 = 0 ∧
      bits (o.enc op) 3 0 = 0 ∧
      bits (o.enc op) 19 14 = o.d.code ∧
      bits (o.enc op) 8 4 = o.b.code := by
  have := o.g.isLt
  have := boolCode_lt o.ix.isSome
  have := o.d.code_lt
  have := o.b.code_lt
  simp only [OMovi.enc, frameG, bits]
  refine ⟨?_, ?_, ?_, ?_, ?_, ?_, ?_⟩ <;> omega

@[simp] theorem OMovi.dec_enc (o : OMovi) (op : Nat) (h : op < 128) : OMovi.dec (o.enc op) o.ix = some o := by
  obtain ⟨h0, h1, h2, h3, h4, h5, h6⟩ := o.enc_fields op h
  simp [OMovi.dec, gOf, *]

theorem OCmp.enc_fields (o : OCmp) (op : Nat) (h : op < 128) :
    bits (o.enc op) 31 28 = o.g.val ∧
      bits (o.enc op) 26 20 = op ∧
      bits (o.enc op) 27 27 = boolCode o.ix.isSome ∧
      bits (o.enc op) 19 14 = 2 * o.pe.val ∧
      bits (o.enc op) 13 9 = o.a.code ∧
      bits (o.enc op) 8 4 = o.b.code ∧
      bits (o.enc op) 3 0 = o.c.code := by
  have := o.g.isLt
  have := boolCode_lt o.ix.isSome
  have := o.pe.isLt
  have := o.a.code_lt
  have := o.b.code_lt
  have := o.c.code_lt
  simp only [OCmp.enc, frameG, bits]
  refine ⟨?_, ?_, ?_, ?_, ?_, ?_, ?_⟩ <;> omega

@[simp] theorem OCmp.dec_enc (o : OCmp) (op : Nat) (h : op < 128) : OCmp.dec (o.enc op) o.ix = some o := by
  obtain ⟨h0, h1, h2, h3, h4, h5, h6⟩ := o.enc_fields op h
  simp [OCmp.dec, gOf, *]

theorem OPlog.enc_fields (o : OPlog) (op : Nat) (h : op < 128) :
    bits (o.enc op) 31 28 = o.g.val ∧
      bits (o.enc op) 26 20 = op ∧
      bits (o.enc op) 27 27 = 0 ∧
      bits (o.enc op) 19 14 = 2 * o.pe.val ∧
      bits (o.enc op) 13 9 = o.pa.val ∧
      bits (o.enc op) 8 4 = o.pb.val ∧
      bits (o.enc op) 3 0 = o.op.code := by
  have := o.g.isLt
  have := o.pe.isLt
  have := o.pa.isLt
  have := o.pb.isLt
  have := o.op.code_lt
  simp only [OPlog.enc, frameG, bits, boolCode_none]
  refine ⟨?_, ?_, ?_, ?_, ?_, ?_, ?_⟩ <;> omega

@[simp] theorem OPlog.dec_enc (o : OPlog) (op : Nat) (h : op < 128) : OPlog.dec (o.enc op) none = some o := by
  obtain ⟨h0, h1, h2, h3, h4, h5, h6⟩ := o.enc_fields op h
  simp [OPlog.dec, gOf, *]

theorem OLd.enc_fields (o : OLd) (op : Nat) (h : op < 128) :
    bits (o.enc op) 31 28 = o.g.val ∧
      bits (o.enc op) 26 20 = op ∧
      bits (o.enc op) 27 27 = boolCode o.ix.isSome ∧
      bits (o.enc op) 19 14 = o.d.code ∧
      bits (o.enc op) 13 9 = o.a.code ∧
      bits (o.enc op) 8 4 = o.b.code ∧
      bits (o.enc op) 3 0 = o.scope.code := by
  have := o.g.isLt
  have := boolCode_lt o.ix.isSome
  have := o.d.code_lt
  have := o.a.code_lt
  have := o.b.code_lt
  have := o.scope.code_lt
  simp only [OLd.enc, frameG, bits]
  refine ⟨?_, ?_, ?_, ?_, ?_, ?_, ?_⟩ <;> omega

@[simp] theorem OLd.dec_enc (o : OLd) (op : Nat) (h : op < 128) : OLd.dec (o.enc op) o.ix = some o := by
  obtain ⟨h0, h1, h2, h3, h4, h5, h6⟩ := o.enc_fields op h
  simp [OLd.dec, gOf, *]

theorem OSt.enc_fields (o : OSt) (op : Nat) (h : op < 128) :
    bits (o.enc op) 31 28 = o.g.val ∧
      bits (o.enc op) 26 20 = op ∧
      bits (o.enc op) 27 27 = boolCode o.ix.isSome ∧
      bits (o.enc op) 14 14 = 0 ∧
      bits (o.enc op) 19 15 = o.v.code ∧
      bits (o.enc op) 13 9 = o.a.code ∧
      bits (o.enc op) 8 4 = o.b.code ∧
      bits (o.enc op) 3 0 = o.scope.code := by
  have := o.g.isLt
  have := boolCode_lt o.ix.isSome
  have := o.v.code_lt
  have := o.a.code_lt
  have := o.b.code_lt
  have := o.scope.code_lt
  simp only [OSt.enc, frameG, bits]
  refine ⟨?_, ?_, ?_, ?_, ?_, ?_, ?_, ?_⟩ <;> omega

@[simp] theorem OSt.dec_enc (o : OSt) (op : Nat) (h : op < 128) : OSt.dec (o.enc op) o.ix = some o := by
  obtain ⟨h0, h1, h2, h3, h4, h5, h6, h7⟩ := o.enc_fields op h
  simp [OSt.dec, gOf, *]

theorem OStl.enc_fields (o : OStl) (op : Nat) (h : op < 128) :
    bits (o.enc op) 31 28 = o.g.val ∧
      bits (o.enc op) 26 20 = op ∧
      bits (o.enc op) 27 27 = boolCode o.ix.isSome ∧
      bits (o.enc op) 14 14 = 0 ∧
      bits (o.enc op) 3 0 = 0 ∧
      bits (o.enc op) 19 15 = o.v.code ∧
      bits (o.enc op) 13 9 = o.a.code ∧
      bits (o.enc op) 8 4 = o.b.code := by
  have := o.g.isLt
  have := boolCode_lt o.ix.isSome
  have := o.v.code_lt
  have := o.a.code_lt
  have := o.b.code_lt
  simp only [OStl.enc, frameG, bits]
  refine ⟨?_, ?_, ?_, ?_, ?_, ?_, ?_, ?_⟩ <;> omega

@[simp] theorem OStl.dec_enc (o : OStl) (op : Nat) (h : op < 128) : OStl.dec (o.enc op) o.ix = some o := by
  obtain ⟨h0, h1, h2, h3, h4, h5, h6, h7⟩ := o.enc_fields op h
  simp [OStl.dec, gOf, *]

theorem OPfd.enc_fields (o : OPfd) (op : Nat) (h : op < 128) :
    bits (o.enc op) 31 28 = o.g.val ∧
      bits (o.enc op) 26 20 = op ∧
      bits (o.enc op) 27 27 = boolCode o.ix.isSome ∧
      bits (o.enc op) 17 14 = 0 ∧
      bits (o.enc op) 3 0 = 0 ∧
      bits (o.enc op) 19 18 = boolCode o.die ∧
      bits (o.enc op) 13 9 = o.a.code ∧
      bits (o.enc op) 8 4 = o.b.code := by
  have := o.g.isLt
  have := boolCode_lt o.ix.isSome
  have := boolCode_lt o.die
  have := o.a.code_lt
  have := o.b.code_lt
  simp only [OPfd.enc, frameG, bits]
  refine ⟨?_, ?_, ?_, ?_, ?_, ?_, ?_, ?_⟩ <;> omega

@[simp] theorem OPfd.dec_enc (o : OPfd) (op : Nat) (h : op < 128) : OPfd.dec (o.enc op) o.ix = some o := by
  obtain ⟨h0, h1, h2, h3, h4, h5, h6, h7⟩ := o.enc_fields op h
  simp [OPfd.dec, gOf, *]

theorem OCbo.enc_fields (o : OCbo) (op : Nat) (h : op < 128) :
    bits (o.enc op) 31 28 = o.g.val ∧
      bits (o.enc op) 26 20 = op ∧
      bits (o.enc op) 27 27 = boolCode o.ix.isSome ∧
      bits (o.enc op) 17 14 = 0 ∧
      bits (o.enc op) 19 18 = o.kind.code ∧
      bits (o.enc op) 13 9 = o.a.code ∧
      bits (o.enc op) 8 4 = o.b.code ∧
      bits (o.enc op) 3 0 = o.scope.code := by
  have := o.g.isLt
  have := boolCode_lt o.ix.isSome
  have := o.kind.code_lt
  have := o.a.code_lt
  have := o.b.code_lt
  have := o.scope.code_lt
  simp only [OCbo.enc, frameG, bits]
  refine ⟨?_, ?_, ?_, ?_, ?_, ?_, ?_, ?_⟩ <;> omega

@[simp] theorem OCbo.dec_enc (o : OCbo) (op : Nat) (h : op < 128) : OCbo.dec (o.enc op) o.ix = some o := by
  obtain ⟨h0, h1, h2, h3, h4, h5, h6, h7⟩ := o.enc_fields op h
  simp [OCbo.dec, gOf, *]

theorem OCsrr.enc_fields (o : OCsrr) (op : Nat) (h : op < 128) :
    bits (o.enc op) 31 28 = o.g.val ∧
      bits (o.enc op) 26 20 = op ∧
      bits (o.enc op) 27 27 = 0 ∧
      bits (o.enc op) 13 12 = 0 ∧
      bits (o.enc op) 19 14 = o.d.code ∧
      bits (o.enc op) 11 0 = o.csr.toNat := by
  have := o.g.isLt
  have := o.d.code_lt
  have := o.csr.isLt
  simp only [OCsrr.enc, frameG, bits, boolCode_none]
  refine ⟨?_, ?_, ?_, ?_, ?_, ?_⟩ <;> omega

@[simp] theorem OCsrr.dec_enc (o : OCsrr) (op : Nat) (h : op < 128) : OCsrr.dec (o.enc op) none = some o := by
  obtain ⟨h0, h1, h2, h3, h4, h5⟩ := o.enc_fields op h
  simp [OCsrr.dec, gOf, *]

theorem OCsrw.enc_fields (o : OCsrw) (op : Nat) (h : op < 128) :
    bits (o.enc op) 31 28 = o.g.val ∧
      bits (o.enc op) 26 20 = op ∧
      bits (o.enc op) 27 27 = boolCode o.ix.isSome ∧
      bits (o.enc op) 14 12 = 0 ∧
      bits (o.enc op) 19 15 = o.a.code ∧
      bits (o.enc op) 11 0 = o.csr.toNat := by
  have := o.g.isLt
  have := boolCode_lt o.ix.isSome
  have := o.a.code_lt
  have := o.csr.isLt
  simp only [OCsrw.enc, frameG, bits]
  refine ⟨?_, ?_, ?_, ?_, ?_, ?_⟩ <;> omega

@[simp] theorem OCsrw.dec_enc (o : OCsrw) (op : Nat) (h : op < 128) : OCsrw.dec (o.enc op) o.ix = some o := by
  obtain ⟨h0, h1, h2, h3, h4, h5⟩ := o.enc_fields op h
  simp [OCsrw.dec, gOf, *]

theorem OXbc.enc_fields (o : OXbc) (op : Nat) (h : op < 128) :
    bits (o.enc op) 31 28 = o.g.val ∧
      bits (o.enc op) 26 20 = op ∧
      bits (o.enc op) 27 27 = boolCode o.ix.isSome ∧
      bits (o.enc op) 4 0 = 0 ∧
      bits (o.enc op) 16 16 = boolCode o.all ∧
      bits (o.enc op) 15 10 = o.vd.code ∧
      bits (o.enc op) 9 5 = o.a.code ∧
      bits (o.enc op) 19 17 = o.f.val := by
  have := o.g.isLt
  have := boolCode_lt o.ix.isSome
  have := o.f.isLt
  have := boolCode_lt o.all
  have := o.vd.code_lt
  have := o.a.code_lt
  simp only [OXbc.enc, frameG, bits]
  refine ⟨?_, ?_, ?_, ?_, ?_, ?_, ?_, ?_⟩ <;> omega

@[simp] theorem OXbc.dec_enc (o : OXbc) (op : Nat) (h : op < 128) : OXbc.dec (o.enc op) o.ix = some o := by
  obtain ⟨h0, h1, h2, h3, h4, h5, h6, h7⟩ := o.enc_fields op h
  simp [OXbc.dec, gOf, *]

theorem OXin.enc_fields (o : OXin) (op : Nat) (h : op < 128) :
    bits (o.enc op) 31 28 = o.g.val ∧
      bits (o.enc op) 26 20 = op ∧
      bits (o.enc op) 27 27 = boolCode o.ix.isSome ∧
      bits (o.enc op) 16 16 = 0 ∧
      bits (o.enc op) 4 4 = 0 ∧
      bits (o.enc op) 15 10 = o.vd.code ∧
      bits (o.enc op) 9 5 = o.a.code ∧
      bits (o.enc op) 19 17 = o.f.val ∧
      bits (o.enc op) 3 0 = o.lane.val := by
  have := o.g.isLt
  have := boolCode_lt o.ix.isSome
  have := o.f.isLt
  have := o.vd.code_lt
  have := o.a.code_lt
  have := o.lane.isLt
  simp only [OXin.enc, frameG, bits]
  refine ⟨?_, ?_, ?_, ?_, ?_, ?_, ?_, ?_, ?_⟩ <;> omega

@[simp] theorem OXin.dec_enc (o : OXin) (op : Nat) (h : op < 128) : OXin.dec (o.enc op) o.ix = some o := by
  obtain ⟨h0, h1, h2, h3, h4, h5, h6, h7, h8⟩ := o.enc_fields op h
  simp [OXin.dec, gOf, *]

theorem OXex.enc_fields (o : OXex) (op : Nat) (h : op < 128) :
    bits (o.enc op) 31 28 = o.g.val ∧
      bits (o.enc op) 26 20 = op ∧
      bits (o.enc op) 27 27 = 0 ∧
      bits (o.enc op) 4 4 = 0 ∧
      bits (o.enc op) 19 14 = o.d.code ∧
      bits (o.enc op) 10 5 = o.va.code ∧
      bits (o.enc op) 13 11 = o.f.val ∧
      bits (o.enc op) 3 0 = o.lane.val := by
  have := o.g.isLt
  have := o.d.code_lt
  have := o.f.isLt
  have := o.va.code_lt
  have := o.lane.isLt
  simp only [OXex.enc, frameG, bits, boolCode_none]
  refine ⟨?_, ?_, ?_, ?_, ?_, ?_, ?_, ?_⟩ <;> omega

@[simp] theorem OXex.dec_enc (o : OXex) (op : Nat) (h : op < 128) : OXex.dec (o.enc op) none = some o := by
  obtain ⟨h0, h1, h2, h3, h4, h5, h6, h7⟩ := o.enc_fields op h
  simp [OXex.dec, gOf, *]

theorem OXred.enc_fields (o : OXred) (op : Nat) (h : op < 128) :
    bits (o.enc op) 31 28 = o.g.val ∧
      bits (o.enc op) 26 20 = op ∧
      bits (o.enc op) 27 27 = 0 ∧
      bits (o.enc op) 4 4 = 0 ∧
      bits (o.enc op) 19 14 = o.d.code ∧
      bits (o.enc op) 10 5 = o.va.code ∧
      bits (o.enc op) 3 0 = o.op.code ∧
      bits (o.enc op) 13 11 = o.f.val := by
  have := o.g.isLt
  have := o.d.code_lt
  have := o.f.isLt
  have := o.va.code_lt
  have := o.op.code_lt
  simp only [OXred.enc, frameG, bits, boolCode_none]
  refine ⟨?_, ?_, ?_, ?_, ?_, ?_, ?_, ?_⟩ <;> omega

@[simp] theorem OXred.dec_enc (o : OXred) (op : Nat) (h : op < 128) : OXred.dec (o.enc op) none = some o := by
  obtain ⟨h0, h1, h2, h3, h4, h5, h6, h7⟩ := o.enc_fields op h
  simp [OXred.dec, gOf, *]

theorem OV3.enc_fields (o : OV3) (op : Nat) (h : op < 64) :
    bits (o.enc op) 31 29 = o.q.val ∧
      bits (o.enc op) 27 22 = op ∧
      bits (o.enc op) 28 28 = boolCode o.ix.isSome ∧
      bits (o.enc op) 3 0 = 0 ∧
      bits (o.enc op) 21 16 = o.d.code ∧
      bits (o.enc op) 15 10 = o.a.code ∧
      bits (o.enc op) 9 4 = o.b.code := by
  have := o.q.isLt
  have := boolCode_lt o.ix.isSome
  have := o.d.code_lt
  have := o.a.code_lt
  have := o.b.code_lt
  simp only [OV3.enc, frameQ, bits]
  refine ⟨?_, ?_, ?_, ?_, ?_, ?_, ?_⟩ <;> omega

@[simp] theorem OV3.dec_enc (o : OV3) (op : Nat) (h : op < 64) : OV3.dec (o.enc op) o.ix = some o := by
  obtain ⟨h0, h1, h2, h3, h4, h5, h6⟩ := o.enc_fields op h
  simp [OV3.dec, qOf, *]

theorem OV2.enc_fields (o : OV2) (op : Nat) (h : op < 64) :
    bits (o.enc op) 31 29 = o.q.val ∧
      bits (o.enc op) 27 22 = op ∧
      bits (o.enc op) 28 28 = boolCode o.ix.isSome ∧
      bits (o.enc op) 9 0 = 0 ∧
      bits (o.enc op) 21 16 = o.d.code ∧
      bits (o.enc op) 15 10 = o.a.code := by
  have := o.q.isLt
  have := boolCode_lt o.ix.isSome
  have := o.d.code_lt
  have := o.a.code_lt
  simp only [OV2.enc, frameQ, bits]
  refine ⟨?_, ?_, ?_, ?_, ?_, ?_⟩ <;> omega

@[simp] theorem OV2.dec_enc (o : OV2) (op : Nat) (h : op < 64) : OV2.dec (o.enc op) o.ix = some o := by
  obtain ⟨h0, h1, h2, h3, h4, h5⟩ := o.enc_fields op h
  simp [OV2.dec, qOf, *]

theorem OVcvt.enc_fields (o : OVcvt) (op : Nat) (h : op < 64) :
    bits (o.enc op) 31 29 = o.q.val ∧
      bits (o.enc op) 27 22 = op ∧
      bits (o.enc op) 28 28 = boolCode o.ix.isSome ∧
      bits (o.enc op) 3 0 = 0 ∧
      bits (o.enc op) 21 16 = o.d.code ∧
      bits (o.enc op) 15 10 = o.a.code ∧
      bits (o.enc op) 9 6 = o.kind.code ∧
      bits (o.enc op) 5 4 = o.rm.code := by
  have := o.q.isLt
  have := boolCode_lt o.ix.isSome
  have := o.d.code_lt
  have := o.a.code_lt
  have := o.kind.code_lt
  have := o.rm.code_lt
  simp only [OVcvt.enc, frameQ, bits]
  refine ⟨?_, ?_, ?_, ?_, ?_, ?_, ?_, ?_⟩ <;> omega

@[simp] theorem OVcvt.dec_enc (o : OVcvt) (op : Nat) (h : op < 64) : OVcvt.dec (o.enc op) o.ix = some o := by
  obtain ⟨h0, h1, h2, h3, h4, h5, h6, h7⟩ := o.enc_fields op h
  simp [OVcvt.dec, qOf, *]

theorem OVcmp.enc_fields (o : OVcmp) (op : Nat) (h : op < 64) :
    bits (o.enc op) 31 29 = o.q.val ∧
      bits (o.enc op) 27 22 = op ∧
      bits (o.enc op) 28 28 = boolCode o.ix.isSome ∧
      bits (o.enc op) 21 16 = 2 * o.qe.val ∧
      bits (o.enc op) 15 10 = o.a.code ∧
      bits (o.enc op) 9 4 = o.b.code ∧
      bits (o.enc op) 3 0 = o.c.code := by
  have := o.q.isLt
  have := boolCode_lt o.ix.isSome
  have := o.qe.isLt
  have := o.a.code_lt
  have := o.b.code_lt
  have := o.c.code_lt
  simp only [OVcmp.enc, frameQ, bits]
  refine ⟨?_, ?_, ?_, ?_, ?_, ?_, ?_⟩ <;> omega

@[simp] theorem OVcmp.dec_enc (o : OVcmp) (op : Nat) (h : op < 64) : OVcmp.dec (o.enc op) o.ix = some o := by
  obtain ⟨h0, h1, h2, h3, h4, h5, h6⟩ := o.enc_fields op h
  simp [OVcmp.dec, qOf, *]

theorem OVsel.enc_fields (o : OVsel) (op : Nat) (h : op < 64) :
    bits (o.enc op) 31 29 = o.q.val ∧
      bits (o.enc op) 27 22 = op ∧
      bits (o.enc op) 28 28 = boolCode o.ix.isSome ∧
      bits (o.enc op) 3 3 = 0 ∧
      bits (o.enc op) 21 16 = o.d.code ∧
      bits (o.enc op) 15 10 = o.a.code ∧
      bits (o.enc op) 9 4 = o.b.code ∧
      bits (o.enc op) 2 0 = o.n.val := by
  have := o.q.isLt
  have := boolCode_lt o.ix.isSome
  have := o.d.code_lt
  have := o.a.code_lt
  have := o.b.code_lt
  have := o.n.isLt
  simp only [OVsel.enc, frameQ, bits]
  refine ⟨?_, ?_, ?_, ?_, ?_, ?_, ?_, ?_⟩ <;> omega

@[simp] theorem OVsel.dec_enc (o : OVsel) (op : Nat) (h : op < 64) : OVsel.dec (o.enc op) o.ix = some o := by
  obtain ⟨h0, h1, h2, h3, h4, h5, h6, h7⟩ := o.enc_fields op h
  simp [OVsel.dec, qOf, *]

theorem OVmov.enc_fields (o : OVmov) (op : Nat) (h : op < 64) :
    bits (o.enc op) 31 29 = o.q.val ∧
      bits (o.enc op) 27 22 = op ∧
      bits (o.enc op) 28 28 = 0 ∧
      bits (o.enc op) 9 0 = 0 ∧
      bits (o.enc op) 21 16 = o.d.code ∧
      bits (o.enc op) 15 10 = o.a.code := by
  have := o.q.isLt
  have := o.d.code_lt
  have := o.a.code_lt
  simp only [OVmov.enc, frameQ, bits, boolCode_none]
  refine ⟨?_, ?_, ?_, ?_, ?_, ?_⟩ <;> omega

@[simp] theorem OVmov.dec_enc (o : OVmov) (op : Nat) (h : op < 64) : OVmov.dec (o.enc op) none = some o := by
  obtain ⟨h0, h1, h2, h3, h4, h5⟩ := o.enc_fields op h
  simp [OVmov.dec, qOf, *]

theorem OVred.enc_fields (o : OVred) (op : Nat) (h : op < 64) :
    bits (o.enc op) 31 29 = o.q.val ∧
      bits (o.enc op) 27 22 = op ∧
      bits (o.enc op) 28 28 = 0 ∧
      bits (o.enc op) 9 4 = 0 ∧
      bits (o.enc op) 21 16 = o.d.code ∧
      bits (o.enc op) 15 10 = o.a.code ∧
      bits (o.enc op) 3 0 = o.op.code := by
  have := o.q.isLt
  have := o.d.code_lt
  have := o.a.code_lt
  have := o.op.code_lt
  simp only [OVred.enc, frameQ, bits, boolCode_none]
  refine ⟨?_, ?_, ?_, ?_, ?_, ?_, ?_⟩ <;> omega

@[simp] theorem OVred.dec_enc (o : OVred) (op : Nat) (h : op < 64) : OVred.dec (o.enc op) none = some o := by
  obtain ⟨h0, h1, h2, h3, h4, h5, h6⟩ := o.enc_fields op h
  simp [OVred.dec, qOf, *]

theorem OVdot.enc_fields (o : OVdot) (op : Nat) (h : op < 64) :
    bits (o.enc op) 31 29 = o.q.val ∧
      bits (o.enc op) 27 22 = op ∧
      bits (o.enc op) 28 28 = boolCode o.ix.isSome ∧
      bits (o.enc op) 21 16 = o.d.code ∧
      bits (o.enc op) 15 10 = o.a.code ∧
      bits (o.enc op) 9 4 = o.b.code ∧
      bits (o.enc op) 3 0 = o.kind.code := by
  have := o.q.isLt
  have := boolCode_lt o.ix.isSome
  have := o.d.code_lt
  have := o.a.code_lt
  have := o.b.code_lt
  have := o.kind.code_lt
  simp only [OVdot.enc, frameQ, bits]
  refine ⟨?_, ?_, ?_, ?_, ?_, ?_, ?_⟩ <;> omega

@[simp] theorem OVdot.dec_enc (o : OVdot) (op : Nat) (h : op < 64) : OVdot.dec (o.enc op) o.ix = some o := by
  obtain ⟨h0, h1, h2, h3, h4, h5, h6⟩ := o.enc_fields op h
  simp [OVdot.dec, qOf, *]

theorem OVcopy.enc_fields (o : OVcopy) (op : Nat) (h : op < 64) :
    bits (o.enc op) 31 29 = o.q.val ∧
      bits (o.enc op) 27 22 = op ∧
      bits (o.enc op) 28 28 = 0 ∧
      bits (o.enc op) 6 0 = 0 ∧
      bits (o.enc op) 21 16 = o.d.code ∧
      bits (o.enc op) 15 10 = o.a.code ∧
      bits (o.enc op) 9 7 = o.srcf.val := by
  have := o.q.isLt
  have := o.d.code_lt
  have := o.a.code_lt
  have := o.srcf.isLt
  simp only [OVcopy.enc, frameQ, bits, boolCode_none]
  refine ⟨?_, ?_, ?_, ?_, ?_, ?_, ?_⟩ <;> omega

@[simp] theorem OVcopy.dec_enc (o : OVcopy) (op : Nat) (h : op < 64) : OVcopy.dec (o.enc op) none = some o := by
  obtain ⟨h0, h1, h2, h3, h4, h5, h6⟩ := o.enc_fields op h
  simp [OVcopy.dec, qOf, *]

theorem OVmem.enc_fields (o : OVmem) (op : Nat) (h : op < 64) :
    bits (o.enc op) 31 29 = o.q.val ∧
      bits (o.enc op) 27 22 = op ∧
      bits (o.enc op) 28 28 = boolCode o.ix.isSome ∧
      bits (o.enc op) 21 16 = o.d.code ∧
      bits (o.enc op) 13 12 = o.sz.code ∧
      bits (o.enc op) 11 8 = o.scope.code ∧
      bits (o.enc op) 15 14 = o.ab.val ∧
      bits (o.enc op) 7 0 = o.ofs.toNat := by
  have := o.q.isLt
  have := boolCode_lt o.ix.isSome
  have := o.d.code_lt
  have := o.ab.isLt
  have := o.sz.code_lt
  have := o.scope.code_lt
  have := o.ofs.isLt
  simp only [OVmem.enc, frameQ, bits]
  refine ⟨?_, ?_, ?_, ?_, ?_, ?_, ?_, ?_⟩ <;> omega

@[simp] theorem OVmem.dec_enc (o : OVmem) (op : Nat) (h : op < 64) : OVmem.dec (o.enc op) o.ix = some o := by
  obtain ⟨h0, h1, h2, h3, h4, h5, h6, h7⟩ := o.enc_fields op h
  simp [OVmem.dec, qOf, *]

theorem OVgs.enc_fields (o : OVgs) (op : Nat) (h : op < 64) :
    bits (o.enc op) 31 29 = o.q.val ∧
      bits (o.enc op) 27 22 = op ∧
      bits (o.enc op) 28 28 = 0 ∧
      bits (o.enc op) 5 4 = 0 ∧
      bits (o.enc op) 21 16 = o.d.code ∧
      bits (o.enc op) 15 10 = o.a.code ∧
      bits (o.enc op) 7 6 = o.sz.code ∧
      bits (o.enc op) 3 0 = o.scope.code ∧
      bits (o.enc op) 9 8 = o.ab.val := by
  have := o.q.isLt
  have := o.d.code_lt
  have := o.a.code_lt
  have := o.ab.isLt
  have := o.sz.code_lt
  have := o.scope.code_lt
  simp only [OVgs.enc, frameQ, bits, boolCode_none]
  refine ⟨?_, ?_, ?_, ?_, ?_, ?_, ?_, ?_, ?_⟩ <;> omega

@[simp] theorem OVgs.dec_enc (o : OVgs) (op : Nat) (h : op < 64) : OVgs.dec (o.enc op) none = some o := by
  obtain ⟨h0, h1, h2, h3, h4, h5, h6, h7, h8⟩ := o.enc_fields op h
  simp [OVgs.dec, qOf, *]

theorem OVldt.enc_fields (o : OVldt) (op : Nat) (h : op < 64) :
    bits (o.enc op) 31 29 = o.q.val ∧
      bits (o.enc op) 27 22 = op ∧
      bits (o.enc op) 28 28 = boolCode o.ix.isSome ∧
      bits (o.enc op) 12 12 = 0 ∧
      bits (o.enc op) 21 16 = o.d.code ∧
      bits (o.enc op) 13 13 = boolCode o.hi ∧
      bits (o.enc op) 11 8 = o.scope.code ∧
      bits (o.enc op) 15 14 = o.ab.val ∧
      bits (o.enc op) 7 0 = o.ofs.toNat := by
  have := o.q.isLt
  have := boolCode_lt o.ix.isSome
  have := o.d.code_lt
  have := o.ab.isLt
  have := boolCode_lt o.hi
  have := o.scope.code_lt
  have := o.ofs.isLt
  simp only [OVldt.enc, frameQ, bits]
  refine ⟨?_, ?_, ?_, ?_, ?_, ?_, ?_, ?_, ?_⟩ <;> omega

@[simp] theorem OVldt.dec_enc (o : OVldt) (op : Nat) (h : op < 64) : OVldt.dec (o.enc op) o.ix = some o := by
  obtain ⟨h0, h1, h2, h3, h4, h5, h6, h7, h8⟩ := o.enc_fields op h
  simp [OVldt.dec, qOf, *]

theorem OVstt.enc_fields (o : OVstt) (op : Nat) (h : op < 64) :
    bits (o.enc op) 31 29 = o.q.val ∧
      bits (o.enc op) 27 22 = op ∧
      bits (o.enc op) 28 28 = boolCode o.ix.isSome ∧
      bits (o.enc op) 13 12 = 0 ∧
      bits (o.enc op) 21 16 = o.d.code ∧
      bits (o.enc op) 11 8 = o.scope.code ∧
      bits (o.enc op) 15 14 = o.ab.val ∧
      bits (o.enc op) 7 0 = o.ofs.toNat := by
  have := o.q.isLt
  have := boolCode_lt o.ix.isSome
  have := o.d.code_lt
  have := o.ab.isLt
  have := o.scope.code_lt
  have := o.ofs.isLt
  simp only [OVstt.enc, frameQ, bits]
  refine ⟨?_, ?_, ?_, ?_, ?_, ?_, ?_, ?_⟩ <;> omega

@[simp] theorem OVstt.dec_enc (o : OVstt) (op : Nat) (h : op < 64) : OVstt.dec (o.enc op) o.ix = some o := by
  obtain ⟨h0, h1, h2, h3, h4, h5, h6, h7⟩ := o.enc_fields op h
  simp [OVstt.dec, qOf, *]

theorem OQlog.enc_fields (o : OQlog) (op : Nat) (h : op < 64) :
    bits (o.enc op) 31 29 = o.q.val ∧
      bits (o.enc op) 27 22 = op ∧
      bits (o.enc op) 28 28 = 0 ∧
      bits (o.enc op) 21 16 = 2 * o.qe.val ∧
      bits (o.enc op) 15 10 = o.qa.val ∧
      bits (o.enc op) 9 4 = o.qb.val ∧
      bits (o.enc op) 3 0 = o.op.code := by
  have := o.q.isLt
  have := o.qe.isLt
  have := o.qa.isLt
  have := o.qb.isLt
  have := o.op.code_lt
  simp only [OQlog.enc, frameQ, bits, boolCode_none]
  refine ⟨?_, ?_, ?_, ?_, ?_, ?_, ?_⟩ <;> omega

@[simp] theorem OQlog.dec_enc (o : OQlog) (op : Nat) (h : op < 64) : OQlog.dec (o.enc op) none = some o := by
  obtain ⟨h0, h1, h2, h3, h4, h5, h6⟩ := o.enc_fields op h
  simp [OQlog.dec, qOf, *]

theorem ODset.enc_fields (o : ODset) (op : Nat) (h : op < 64) :
    bits (o.enc op) 31 29 = o.q.val ∧
      bits (o.enc op) 27 22 = op ∧
      bits (o.enc op) 28 28 = boolCode o.ix.isSome ∧
      bits (o.enc op) 18 16 = 0 ∧
      bits (o.enc op) 9 0 = 0 ∧
      bits (o.enc op) 15 10 = o.a.code ∧
      bits (o.enc op) 21 19 = o.d.val := by
  have := o.q.isLt
  have := boolCode_lt o.ix.isSome
  have := o.d.isLt
  have := o.a.code_lt
  simp only [ODset.enc, frameQ, bits]
  refine ⟨?_, ?_, ?_, ?_, ?_, ?_, ?_⟩ <;> omega

@[simp] theorem ODset.dec_enc (o : ODset) (op : Nat) (h : op < 64) : ODset.dec (o.enc op) o.ix = some o := by
  obtain ⟨h0, h1, h2, h3, h4, h5, h6⟩ := o.enc_fields op h
  simp [ODset.dec, qOf, *]

theorem ODsmp.enc_fields (o : ODsmp) (op : Nat) (h : op < 64) :
    bits (o.enc op) 31 29 = o.q.val ∧
      bits (o.enc op) 27 22 = op ∧
      bits (o.enc op) 28 28 = 0 ∧
      bits (o.enc op) 18 16 = 0 ∧
      bits (o.enc op) 9 0 = 0 ∧
      bits (o.enc op) 15 10 = o.n.val ∧
      bits (o.enc op) 21 19 = o.d.val := by
  have := o.q.isLt
  have := o.d.isLt
  have := o.n.isLt
  simp only [ODsmp.enc, frameQ, bits, boolCode_none]
  refine ⟨?_, ?_, ?_, ?_, ?_, ?_, ?_⟩ <;> omega

@[simp] theorem ODsmp.dec_enc (o : ODsmp) (op : Nat) (h : op < 64) : ODsmp.dec (o.enc op) none = some o := by
  obtain ⟨h0, h1, h2, h3, h4, h5, h6⟩ := o.enc_fields op h
  simp [ODsmp.dec, qOf, *]

theorem ODmem.enc_fields (o : ODmem) (op : Nat) (h : op < 64) :
    bits (o.enc op) 31 29 = o.q.val ∧
      bits (o.enc op) 27 22 = op ∧
      bits (o.enc op) 28 28 = boolCode o.ix.isSome ∧
      bits (o.enc op) 18 16 = 0 ∧
      bits (o.enc op) 13 12 = 0 ∧
      bits (o.enc op) 11 8 = o.scope.code ∧
      bits (o.enc op) 21 19 = o.d.val ∧
      bits (o.enc op) 15 14 = o.ab.val ∧
      bits (o.enc op) 7 0 = o.ofs.toNat := by
  have := o.q.isLt
  have := boolCode_lt o.ix.isSome
  have := o.d.isLt
  have := o.ab.isLt
  have := o.scope.code_lt
  have := o.ofs.isLt
  simp only [ODmem.enc, frameQ, bits]
  refine ⟨?_, ?_, ?_, ?_, ?_, ?_, ?_, ?_, ?_⟩ <;> omega

@[simp] theorem ODmem.dec_enc (o : ODmem) (op : Nat) (h : op < 64) : ODmem.dec (o.enc op) o.ix = some o := by
  obtain ⟨h0, h1, h2, h3, h4, h5, h6, h7, h8⟩ := o.enc_fields op h
  simp [ODmem.dec, qOf, *]

theorem ODbin.enc_fields (o : ODbin) (op : Nat) (h : op < 64) :
    bits (o.enc op) 31 29 = o.q.val ∧
      bits (o.enc op) 27 22 = op ∧
      bits (o.enc op) 28 28 = 0 ∧
      bits (o.enc op) 12 0 = 0 ∧
      bits (o.enc op) 21 19 = o.d.val ∧
      bits (o.enc op) 18 16 = o.a.val ∧
      bits (o.enc op) 15 13 = o.b.val := by
  have := o.q.isLt
  have := o.d.isLt
  have := o.a.isLt
  have := o.b.isLt
  simp only [ODbin.enc, frameQ, bits, boolCode_none]
  refine ⟨?_, ?_, ?_, ?_, ?_, ?_, ?_⟩ <;> omega

@[simp] theorem ODbin.dec_enc (o : ODbin) (op : Nat) (h : op < 64) : ODbin.dec (o.enc op) none = some o := by
  obtain ⟨h0, h1, h2, h3, h4, h5, h6⟩ := o.enc_fields op h
  simp [ODbin.dec, qOf, *]

theorem ODaff.enc_fields (o : ODaff) (op : Nat) (h : op < 64) :
    bits (o.enc op) 31 29 = o.q.val ∧
      bits (o.enc op) 27 22 = op ∧
      bits (o.enc op) 28 28 = boolCode o.ix.isSome ∧
      bits (o.enc op) 3 0 = 0 ∧
      bits (o.enc op) 15 10 = o.va.code ∧
      bits (o.enc op) 9 4 = o.vb.code ∧
      bits (o.enc op) 21 19 = o.d.val ∧
      bits (o.enc op) 18 16 = o.a.val := by
  have := o.q.isLt
  have := boolCode_lt o.ix.isSome
  have := o.d.isLt
  have := o.a.isLt
  have := o.va.code_lt
  have := o.vb.code_lt
  simp only [ODaff.enc, frameQ, bits]
  refine ⟨?_, ?_, ?_, ?_, ?_, ?_, ?_, ?_⟩ <;> omega

@[simp] theorem ODaff.dec_enc (o : ODaff) (op : Nat) (h : op < 64) : ODaff.dec (o.enc op) o.ix = some o := by
  obtain ⟨h0, h1, h2, h3, h4, h5, h6, h7⟩ := o.enc_fields op h
  simp [ODaff.dec, qOf, *]

theorem ODmix.enc_fields (o : ODmix) (op : Nat) (h : op < 64) :
    bits (o.enc op) 31 29 = o.q.val ∧
      bits (o.enc op) 27 22 = op ∧
      bits (o.enc op) 28 28 = boolCode o.ix.isSome ∧
      bits (o.enc op) 6 0 = 0 ∧
      bits (o.enc op) 12 7 = o.w.code ∧
      bits (o.enc op) 21 19 = o.d.val ∧
      bits (o.enc op) 18 16 = o.a.val ∧
      bits (o.enc op) 15 13 = o.b.val := by
  have := o.q.isLt
  have := boolCode_lt o.ix.isSome
  have := o.d.isLt
  have := o.a.isLt
  have := o.b.isLt
  have := o.w.code_lt
  simp only [ODmix.enc, frameQ, bits]
  refine ⟨?_, ?_, ?_, ?_, ?_, ?_, ?_, ?_⟩ <;> omega

@[simp] theorem ODmix.dec_enc (o : ODmix) (op : Nat) (h : op < 64) : ODmix.dec (o.enc op) o.ix = some o := by
  obtain ⟨h0, h1, h2, h3, h4, h5, h6, h7⟩ := o.enc_fields op h
  simp [ODmix.dec, qOf, *]

theorem ODmom.enc_fields (o : ODmom) (op : Nat) (h : op < 64) :
    bits (o.enc op) 31 29 = o.q.val ∧
      bits (o.enc op) 27 22 = op ∧
      bits (o.enc op) 28 28 = 0 ∧
      bits (o.enc op) 12 0 = 0 ∧
      bits (o.enc op) 21 16 = o.vd.val ∧
      bits (o.enc op) 15 13 = o.a.val := by
  have := o.q.isLt
  have := o.vd.isLt
  have := o.a.isLt
  simp only [ODmom.enc, frameQ, bits, boolCode_none]
  refine ⟨?_, ?_, ?_, ?_, ?_, ?_⟩ <;> omega

@[simp] theorem ODmom.dec_enc (o : ODmom) (op : Nat) (h : op < 64) : ODmom.dec (o.enc op) none = some o := by
  obtain ⟨h0, h1, h2, h3, h4, h5⟩ := o.enc_fields op h
  simp [ODmom.dec, qOf, *]

theorem ODqnt.enc_fields (o : ODqnt) (op : Nat) (h : op < 64) :
    bits (o.enc op) 31 29 = o.q.val ∧
      bits (o.enc op) 27 22 = op ∧
      bits (o.enc op) 28 28 = boolCode o.ix.isSome ∧
      bits (o.enc op) 6 0 = 0 ∧
      bits (o.enc op) 21 16 = o.vd.code ∧
      bits (o.enc op) 12 7 = o.b.code ∧
      bits (o.enc op) 15 13 = o.a.val := by
  have := o.q.isLt
  have := boolCode_lt o.ix.isSome
  have := o.vd.code_lt
  have := o.a.isLt
  have := o.b.code_lt
  simp only [ODqnt.enc, frameQ, bits]
  refine ⟨?_, ?_, ?_, ?_, ?_, ?_, ?_⟩ <;> omega

@[simp] theorem ODqnt.dec_enc (o : ODqnt) (op : Nat) (h : op < 64) : ODqnt.dec (o.enc op) o.ix = some o := by
  obtain ⟨h0, h1, h2, h3, h4, h5, h6⟩ := o.enc_fields op h
  simp [ODqnt.dec, qOf, *]

theorem ODtag.enc_fields (o : ODtag) (op : Nat) (h : op < 64) :
    bits (o.enc op) 31 29 = o.q.val ∧
      bits (o.enc op) 27 22 = op ∧
      bits (o.enc op) 28 28 = 0 ∧
      bits (o.enc op) 18 0 = 0 ∧
      bits (o.enc op) 21 19 = o.d.val := by
  have := o.q.isLt
  have := o.d.isLt
  simp only [ODtag.enc, frameQ, bits, boolCode_none]
  refine ⟨?_, ?_, ?_, ?_, ?_⟩ <;> omega

@[simp] theorem ODtag.dec_enc (o : ODtag) (op : Nat) (h : op < 64) : ODtag.dec (o.enc op) none = some o := by
  obtain ⟨h0, h1, h2, h3, h4⟩ := o.enc_fields op h
  simp [ODtag.dec, qOf, *]

theorem OGS.enc_fields (o : OGS) (op : Nat) (h : op < 128) :
    bits (o.enc op) 31 28 = o.g.val ∧
      bits (o.enc op) 26 20 = op ∧
      bits (o.enc op) 27 27 = 0 ∧
      bits (o.enc op) 15 0 = 0 ∧
      bits (o.enc op) 19 16 = o.scope.code := by
  have := o.g.isLt
  have := o.scope.code_lt
  simp only [OGS.enc, frameG, bits, boolCode_none]
  refine ⟨?_, ?_, ?_, ?_, ?_⟩ <;> omega

@[simp] theorem OGS.dec_enc (o : OGS) (op : Nat) (h : op < 128) : OGS.dec (o.enc op) none = some o := by
  obtain ⟨h0, h1, h2, h3, h4⟩ := o.enc_fields op h
  simp [OGS.dec, gOf, *]

theorem ODep.enc_fields (o : ODep) (op : Nat) (h : op < 128) :
    bits (o.enc op) 31 28 = o.g.val ∧
      bits (o.enc op) 26 20 = op ∧
      bits (o.enc op) 27 27 = 0 ∧
      bits (o.enc op) 19 12 = 0 ∧
      bits (o.enc op) 11 0 = o.d.toNat := by
  have := o.g.isLt
  have := o.d.isLt
  simp only [ODep.enc, frameG, bits, boolCode_none]
  refine ⟨?_, ?_, ?_, ?_, ?_⟩ <;> omega

@[simp] theorem ODep.dec_enc (o : ODep) (op : Nat) (h : op < 128) : ODep.dec (o.enc op) none = some o := by
  obtain ⟨h0, h1, h2, h3, h4⟩ := o.enc_fields op h
  simp [ODep.dec, gOf, *]

theorem OMark.enc_fields (o : OMark) (op : Nat) (h : op < 128) :
    bits (o.enc op) 31 28 = o.g.val ∧
      bits (o.enc op) 26 20 = op ∧
      bits (o.enc op) 27 27 = 0 ∧
      bits (o.enc op) 19 3 = 0 ∧
      bits (o.enc op) 2 0 = o.k.val := by
  have := o.g.isLt
  have := o.k.isLt
  simp only [OMark.enc, frameG, bits, boolCode_none]
  refine ⟨?_, ?_, ?_, ?_, ?_⟩ <;> omega

@[simp] theorem OMark.dec_enc (o : OMark) (op : Nat) (h : op < 128) : OMark.dec (o.enc op) none = some o := by
  obtain ⟨h0, h1, h2, h3, h4⟩ := o.enc_fields op h
  simp [OMark.dec, gOf, *]

theorem OMake.enc_fields (o : OMake) (op : Nat) (h : op < 128) :
    bits (o.enc op) 31 28 = o.g.val ∧
      bits (o.enc op) 26 20 = op ∧
      bits (o.enc op) 27 27 = 0 ∧
      bits (o.enc op) 19 17 = 0 ∧
      bits (o.enc op) 4 0 = o.f.code ∧
      bits (o.enc op) 16 11 = o.c.val ∧
      bits (o.enc op) 10 5 = o.r.val := by
  have := o.g.isLt
  have := o.c.isLt
  have := o.r.isLt
  have := o.f.code_lt
  simp only [OMake.enc, frameG, bits, boolCode_none]
  refine ⟨?_, ?_, ?_, ?_, ?_, ?_, ?_⟩ <;> omega

@[simp] theorem OMake.dec_enc (o : OMake) (op : Nat) (h : op < 128) : OMake.dec (o.enc op) none = some o := by
  obtain ⟨h0, h1, h2, h3, h4, h5, h6⟩ := o.enc_fields op h
  simp [OMake.dec, gOf, *]

theorem OShape.enc_fields (o : OShape) (op : Nat) (h : op < 128) :
    bits (o.enc op) 31 28 = o.g.val ∧
      bits (o.enc op) 26 20 = op ∧
      bits (o.enc op) 27 27 = 0 ∧
      bits (o.enc op) 19 17 = 0 ∧
      bits (o.enc op) 4 0 = 0 ∧
      bits (o.enc op) 16 11 = o.c.val ∧
      bits (o.enc op) 10 5 = o.r.val := by
  have := o.g.isLt
  have := o.c.isLt
  have := o.r.isLt
  simp only [OShape.enc, frameG, bits, boolCode_none]
  refine ⟨?_, ?_, ?_, ?_, ?_, ?_, ?_⟩ <;> omega

@[simp] theorem OShape.dec_enc (o : OShape) (op : Nat) (h : op < 128) : OShape.dec (o.enc op) none = some o := by
  obtain ⟨h0, h1, h2, h3, h4, h5, h6⟩ := o.enc_fields op h
  simp [OShape.dec, gOf, *]

theorem OJoin.enc_fields (o : OJoin) (op : Nat) (h : op < 128) :
    bits (o.enc op) 31 28 = o.g.val ∧
      bits (o.enc op) 26 20 = op ∧
      bits (o.enc op) 27 27 = 0 ∧
      bits (o.enc op) 19 1 = 0 ∧
      bits (o.enc op) 0 0 = boolCode o.h := by
  have := o.g.isLt
  have := boolCode_lt o.h
  simp only [OJoin.enc, frameG, bits, boolCode_none]
  refine ⟨?_, ?_, ?_, ?_, ?_⟩ <;> omega

@[simp] theorem OJoin.dec_enc (o : OJoin) (op : Nat) (h : op < 128) : OJoin.dec (o.enc op) none = some o := by
  obtain ⟨h0, h1, h2, h3, h4⟩ := o.enc_fields op h
  simp [OJoin.dec, gOf, *]

theorem OFromv.enc_fields (o : OFromv) (op : Nat) (h : op < 128) :
    bits (o.enc op) 31 28 = o.g.val ∧
      bits (o.enc op) 26 20 = op ∧
      bits (o.enc op) 27 27 = 0 ∧
      bits (o.enc op) 19 16 = 0 ∧
      bits (o.enc op) 4 0 = o.f.code ∧
      bits (o.enc op) 15 11 = o.vb.val ∧
      bits (o.enc op) 10 5 = o.r.val := by
  have := o.g.isLt
  have := o.vb.isLt
  have := o.r.isLt
  have := o.f.code_lt
  simp only [OFromv.enc, frameG, bits, boolCode_none]
  refine ⟨?_, ?_, ?_, ?_, ?_, ?_, ?_⟩ <;> omega

@[simp] theorem OFromv.dec_enc (o : OFromv) (op : Nat) (h : op < 128) : OFromv.dec (o.enc op) none = some o := by
  obtain ⟨h0, h1, h2, h3, h4, h5, h6⟩ := o.enc_fields op h
  simp [OFromv.dec, gOf, *]

theorem OTov.enc_fields (o : OTov) (op : Nat) (h : op < 128) :
    bits (o.enc op) 31 28 = o.g.val ∧
      bits (o.enc op) 26 20 = op ∧
      bits (o.enc op) 27 27 = 0 ∧
      bits (o.enc op) 19 16 = 0 ∧
      bits (o.enc op) 4 0 = 0 ∧
      bits (o.enc op) 15 11 = o.vb.val ∧
      bits (o.enc op) 10 5 = o.r.val := by
  have := o.g.isLt
  have := o.vb.isLt
  have := o.r.isLt
  simp only [OTov.enc, frameG, bits, boolCode_none]
  refine ⟨?_, ?_, ?_, ?_, ?_, ?_, ?_⟩ <;> omega

@[simp] theorem OTov.dec_enc (o : OTov) (op : Nat) (h : op < 128) : OTov.dec (o.enc op) none = some o := by
  obtain ⟨h0, h1, h2, h3, h4, h5, h6⟩ := o.enc_fields op h
  simp [OTov.dec, gOf, *]

theorem OTcvt.enc_fields (o : OTcvt) (op : Nat) (h : op < 128) :
    bits (o.enc op) 31 28 = o.g.val ∧
      bits (o.enc op) 26 20 = op ∧
      bits (o.enc op) 27 27 = 0 ∧
      bits (o.enc op) 19 7 = 0 ∧
      bits (o.enc op) 6 5 = o.rm.code ∧
      bits (o.enc op) 4 0 = o.f.code := by
  have := o.g.isLt
  have := o.rm.code_lt
  have := o.f.code_lt
  simp only [OTcvt.enc, frameG, bits, boolCode_none]
  refine ⟨?_, ?_, ?_, ?_, ?_, ?_⟩ <;> omega

@[simp] theorem OTcvt.dec_enc (o : OTcvt) (op : Nat) (h : op < 128) : OTcvt.dec (o.enc op) none = some o := by
  obtain ⟨h0, h1, h2, h3, h4, h5⟩ := o.enc_fields op h
  simp [OTcvt.dec, gOf, *]

theorem OBlk.enc_fields (o : OBlk) (op : Nat) (h : op < 128) :
    bits (o.enc op) 31 28 = o.g.val ∧
      bits (o.enc op) 26 20 = op ∧
      bits (o.enc op) 27 27 = 0 ∧
      bits (o.enc op) 15 4 = 0 ∧
      bits (o.enc op) 19 16 = o.scope.code ∧
      bits (o.enc op) 3 0 = o.k.val := by
  have := o.g.isLt
  have := o.scope.code_lt
  have := o.k.isLt
  simp only [OBlk.enc, frameG, bits, boolCode_none]
  refine ⟨?_, ?_, ?_, ?_, ?_, ?_⟩ <;> omega

@[simp] theorem OBlk.dec_enc (o : OBlk) (op : Nat) (h : op < 128) : OBlk.dec (o.enc op) none = some o := by
  obtain ⟨h0, h1, h2, h3, h4, h5⟩ := o.enc_fields op h
  simp [OBlk.dec, gOf, *]

theorem OBlkRel.enc_fields (o : OBlkRel) (op : Nat) (h : op < 128) :
    bits (o.enc op) 31 28 = o.g.val ∧
      bits (o.enc op) 26 20 = op ∧
      bits (o.enc op) 27 27 = 0 ∧
      bits (o.enc op) 19 5 = 0 ∧
      bits (o.enc op) 4 4 = 1 ∧
      bits (o.enc op) 3 0 = o.k.val := by
  have := o.g.isLt
  have := o.k.isLt
  simp only [OBlkRel.enc, frameG, bits, boolCode_none]
  refine ⟨?_, ?_, ?_, ?_, ?_, ?_⟩ <;> omega

@[simp] theorem OBlkRel.dec_enc (o : OBlkRel) (op : Nat) (h : op < 128) : OBlkRel.dec (o.enc op) none = some o := by
  obtain ⟨h0, h1, h2, h3, h4, h5⟩ := o.enc_fields op h
  simp [OBlkRel.dec, gOf, *]

theorem OSort.enc_fields (o : OSort) (op : Nat) (h : op < 128) :
    bits (o.enc op) 31 28 = o.g.val ∧
      bits (o.enc op) 26 20 = op ∧
      bits (o.enc op) 27 27 = 0 ∧
      bits (o.enc op) 15 1 = 0 ∧
      bits (o.enc op) 19 16 = o.scope.code ∧
      bits (o.enc op) 0 0 = boolCode o.scat := by
  have := o.g.isLt
  have := o.scope.code_lt
  have := boolCode_lt o.scat
  simp only [OSort.enc, frameG, bits, boolCode_none]
  refine ⟨?_, ?_, ?_, ?_, ?_, ?_⟩ <;> omega

@[simp] theorem OSort.dec_enc (o : OSort) (op : Nat) (h : op < 128) : OSort.dec (o.enc op) none = some o := by
  obtain ⟨h0, h1, h2, h3, h4, h5⟩ := o.enc_fields op h
  simp [OSort.dec, gOf, *]

theorem OKar.enc_fields (o : OKar) (op : Nat) (h : op < 128) :
    bits (o.enc op) 31 28 = o.g.val ∧
      bits (o.enc op) 26 20 = op ∧
      bits (o.enc op) 27 27 = 0 ∧
      bits (o.enc op) 1 0 = 0 ∧
      bits (o.enc op) 19 16 = o.scope.code ∧
      bits (o.enc op) 15 10 = o.d.val ∧
      bits (o.enc op) 9 6 = o.op.code ∧
      bits (o.enc op) 5 2 = o.e.code := by
  have := o.g.isLt
  have := o.scope.code_lt
  have := o.d.isLt
  have := o.op.code_lt
  have := o.e.code_lt
  simp only [OKar.enc, frameG, bits, boolCode_none]
  refine ⟨?_, ?_, ?_, ?_, ?_, ?_, ?_, ?_⟩ <;> omega

@[simp] theorem OKar.dec_enc (o : OKar) (op : Nat) (h : op < 128) : OKar.dec (o.enc op) none = some o := by
  obtain ⟨h0, h1, h2, h3, h4, h5, h6, h7⟩ := o.enc_fields op h
  simp [OKar.dec, gOf, *]

theorem OKag.enc_fields (o : OKag) (op : Nat) (h : op < 128) :
    bits (o.enc op) 31 28 = o.g.val ∧
      bits (o.enc op) 26 20 = op ∧
      bits (o.enc op) 27 27 = 0 ∧
      bits (o.enc op) 9 6 = 0 ∧
      bits (o.enc op) 1 0 = 0 ∧
      bits (o.enc op) 19 16 = o.scope.code ∧
      bits (o.enc op) 15 10 = o.d.val ∧
      bits (o.enc op) 5 2 = o.e.code := by
  have := o.g.isLt
  have := o.scope.code_lt
  have := o.d.isLt
  have := o.e.code_lt
  simp only [OKag.enc, frameG, bits, boolCode_none]
  refine ⟨?_, ?_, ?_, ?_, ?_, ?_, ?_, ?_⟩ <;> omega

@[simp] theorem OKag.dec_enc (o : OKag) (op : Nat) (h : op < 128) : OKag.dec (o.enc op) none = some o := by
  obtain ⟨h0, h1, h2, h3, h4, h5, h6, h7⟩ := o.enc_fields op h
  simp [OKag.dec, gOf, *]

theorem OKrecv.enc_fields (o : OKrecv) (op : Nat) (h : op < 128) :
    bits (o.enc op) 31 28 = o.g.val ∧
      bits (o.enc op) 26 20 = op ∧
      bits (o.enc op) 27 27 = 0 ∧
      bits (o.enc op) 9 0 = 0 ∧
      bits (o.enc op) 19 16 = o.scope.code ∧
      bits (o.enc op) 15 10 = o.d.val := by
  have := o.g.isLt
  have := o.scope.code_lt
  have := o.d.isLt
  simp only [OKrecv.enc, frameG, bits, boolCode_none]
  refine ⟨?_, ?_, ?_, ?_, ?_, ?_⟩ <;> omega

@[simp] theorem OKrecv.dec_enc (o : OKrecv) (op : Nat) (h : op < 128) : OKrecv.dec (o.enc op) none = some o := by
  obtain ⟨h0, h1, h2, h3, h4, h5⟩ := o.enc_fields op h
  simp [OKrecv.dec, gOf, *]

theorem OKd.enc_fields (o : OKd) (op : Nat) (h : op < 128) :
    bits (o.enc op) 31 28 = o.g.val ∧
      bits (o.enc op) 26 20 = op ∧
      bits (o.enc op) 27 27 = 0 ∧
      bits (o.enc op) 19 16 = 0 ∧
      bits (o.enc op) 9 0 = 0 ∧
      bits (o.enc op) 15 10 = o.d.val := by
  have := o.g.isLt
  have := o.d.isLt
  simp only [OKd.enc, frameG, bits, boolCode_none]
  refine ⟨?_, ?_, ?_, ?_, ?_, ?_⟩ <;> omega

@[simp] theorem OKd.dec_enc (o : OKd) (op : Nat) (h : op < 128) : OKd.dec (o.enc op) none = some o := by
  obtain ⟨h0, h1, h2, h3, h4, h5⟩ := o.enc_fields op h
  simp [OKd.dec, gOf, *]

theorem OTok.enc_fields (o : OTok) (op : Nat) (h : op < 128) :
    bits (o.enc op) 31 28 = o.g.val ∧
      bits (o.enc op) 26 20 = op ∧
      bits (o.enc op) 27 27 = 0 ∧
      bits (o.enc op) 15 3 = 0 ∧
      bits (o.enc op) 19 16 = o.scope.code ∧
      bits (o.enc op) 2 0 = o.k.val := by
  have := o.g.isLt
  have := o.scope.code_lt
  have := o.k.isLt
  simp only [OTok.enc, frameG, bits, boolCode_none]
  refine ⟨?_, ?_, ?_, ?_, ?_, ?_⟩ <;> omega

@[simp] theorem OTok.dec_enc (o : OTok) (op : Nat) (h : op < 128) : OTok.dec (o.enc op) none = some o := by
  obtain ⟨h0, h1, h2, h3, h4, h5⟩ := o.enc_fields op h
  simp [OTok.dec, gOf, *]

theorem OJoinG.enc_fields (o : OJoinG) (op : Nat) (h : op < 128) :
    bits (o.enc op) 31 28 = o.g.val ∧
      bits (o.enc op) 26 20 = op ∧
      bits (o.enc op) 27 27 = 0 ∧
      bits (o.enc op) 19 8 = 0 ∧
      bits (o.enc op) 7 0 = o.n.val := by
  have := o.g.isLt
  have := o.n.isLt
  simp only [OJoinG.enc, frameG, bits, boolCode_none]
  refine ⟨?_, ?_, ?_, ?_, ?_⟩ <;> omega

@[simp] theorem OJoinG.dec_enc (o : OJoinG) (op : Nat) (h : op < 128) : OJoinG.dec (o.enc op) none = some o := by
  obtain ⟨h0, h1, h2, h3, h4⟩ := o.enc_fields op h
  simp [OJoinG.dec, gOf, *]

theorem OMgrd.enc_fields (o : OMgrd) (op : Nat) (h : op < 128) :
    bits (o.enc op) 31 28 = o.g.val ∧
      bits (o.enc op) 26 20 = op ∧
      bits (o.enc op) 27 27 = 0 ∧
      bits (o.enc op) 19 6 = 0 ∧
      bits (o.enc op) 5 3 = o.rel.code ∧
      bits (o.enc op) 2 0 = o.k.val := by
  have := o.g.isLt
  have := o.rel.code_lt
  have := o.k.isLt
  simp only [OMgrd.enc, frameG, bits, boolCode_none]
  refine ⟨?_, ?_, ?_, ?_, ?_, ?_⟩ <;> omega

@[simp] theorem OMgrd.dec_enc (o : OMgrd) (op : Nat) (h : op < 128) : OMgrd.dec (o.enc op) none = some o := by
  obtain ⟨h0, h1, h2, h3, h4, h5⟩ := o.enc_fields op h
  simp [OMgrd.dec, gOf, *]

theorem OTlbi.enc_fields (o : OTlbi) (op : Nat) (h : op < 128) :
    bits (o.enc op) 31 28 = o.g.val ∧
      bits (o.enc op) 26 20 = op ∧
      bits (o.enc op) 27 27 = 0 ∧
      bits (o.enc op) 19 2 = 0 ∧
      bits (o.enc op) 1 0 = o.k.code := by
  have := o.g.isLt
  have := o.k.code_lt
  simp only [OTlbi.enc, frameG, bits, boolCode_none]
  refine ⟨?_, ?_, ?_, ?_, ?_⟩ <;> omega

@[simp] theorem OTlbi.dec_enc (o : OTlbi) (op : Nat) (h : op < 128) : OTlbi.dec (o.enc op) none = some o := by
  obtain ⟨h0, h1, h2, h3, h4⟩ := o.enc_fields op h
  simp [OTlbi.dec, gOf, *]

theorem OFencer.enc_fields (o : OFencer) (op : Nat) (h : op < 128) :
    bits (o.enc op) 31 28 = o.g.val ∧
      bits (o.enc op) 26 20 = op ∧
      bits (o.enc op) 27 27 = 1 ∧
      bits (o.enc op) 9 0 = 0 ∧
      bits (o.enc op) 19 15 = o.a.code ∧
      bits (o.enc op) 14 10 = o.b.code := by
  have := o.g.isLt
  have := o.a.code_lt
  have := o.b.code_lt
  simp only [OFencer.enc, frameG, bits, boolCode_some]
  refine ⟨?_, ?_, ?_, ?_, ?_, ?_⟩ <;> omega

theorem OPatch.enc_fields (o : OPatch) (op : Nat) (h : op < 128) :
    bits (o.enc op) 31 28 = o.g.val ∧
      bits (o.enc op) 26 20 = op ∧
      bits (o.enc op) 27 27 = 1 ∧
      bits (o.enc op) 8 0 = 1 ∧
      bits (o.enc op) 19 14 = o.d.val ∧
      bits (o.enc op) 13 9 = o.a.code := by
  have := o.g.isLt
  have := o.d.isLt
  have := o.a.code_lt
  simp only [OPatch.enc, frameG, bits, boolCode_some]
  refine ⟨?_, ?_, ?_, ?_, ?_, ?_⟩ <;> omega

theorem OBfx.enc_fields (o : OBfx) (op fn : Nat) (h : op < 128) (hf : fn < 512) :
    bits (o.enc op fn) 31 28 = o.g.val ∧
      bits (o.enc op fn) 26 20 = op ∧
      bits (o.enc op fn) 27 27 = 1 ∧
      bits (o.enc op fn) 8 0 = fn ∧
      bits (o.enc op fn) 19 14 = o.d.code ∧
      bits (o.enc op fn) 13 9 = o.a.code := by
  have := o.g.isLt
  have := o.d.code_lt
  have := o.a.code_lt
  simp only [OBfx.enc, frameG, bits, boolCode_some]
  refine ⟨?_, ?_, ?_, ?_, ?_, ?_⟩ <;> omega

theorem OBfi.enc_fields (o : OBfi) (op : Nat) (h : op < 128) :
    bits (o.enc op) 31 28 = o.g.val ∧
      bits (o.enc op) 26 20 = op ∧
      bits (o.enc op) 27 27 = 1 ∧
      bits (o.enc op) 3 0 = 0 ∧
      bits (o.enc op) 19 14 = o.d.code ∧
      bits (o.enc op) 13 9 = o.a.code ∧
      bits (o.enc op) 8 4 = o.b.code := by
  have := o.g.isLt
  have := o.d.code_lt
  have := o.a.code_lt
  have := o.b.code_lt
  simp only [OBfi.enc, frameG, bits, boolCode_some]
  refine ⟨?_, ?_, ?_, ?_, ?_, ?_, ?_⟩ <;> omega

theorem OVexp.enc_fields (o : OVexp) (op : Nat) (h : op < 64) :
    bits (o.enc op) 31 29 = o.q.val ∧
      bits (o.enc op) 27 22 = op ∧
      bits (o.enc op) 28 28 = 1 ∧
      bits (o.enc op) 3 0 = 0 ∧
      bits (o.enc op) 21 16 = o.d.code ∧
      bits (o.enc op) 15 10 = o.a.code ∧
      bits (o.enc op) 9 4 = o.b.code := by
  have := o.q.isLt
  have := o.d.code_lt
  have := o.a.code_lt
  have := o.b.code_lt
  simp only [OVexp.enc, frameQ, bits, boolCode_some]
  refine ⟨?_, ?_, ?_, ?_, ?_, ?_, ?_⟩ <;> omega

/-! The syllables whose IX syllable is required. -/

theorem OFencer.ix_fields (o : OFencer) :
    bits (BitVec.ofNat 32 o.ix).toNat 31 16 = 0 ∧ bits (BitVec.ofNat 32 o.ix).toNat 15 12 = o.scope.code ∧
      bits (BitVec.ofNat 32 o.ix).toNat 5 0 = o.pred.toNat ∧ bits (BitVec.ofNat 32 o.ix).toNat 11 6 = o.succ.toNat := by
  have := o.pred.isLt
  have := o.succ.isLt
  have := o.scope.code_lt
  simp only [OFencer.ix, bits, BitVec.toNat_ofNat]
  refine ⟨?_, ?_, ?_, ?_⟩ <;> omega

@[simp] theorem OFencer.dec_enc (o : OFencer) (op : Nat) (h : op < 128) :
    OFencer.dec (o.enc op) (some (BitVec.ofNat 32 o.ix)) = some o := by
  obtain ⟨h0, h1, h2, h3, h4, h5⟩ := o.enc_fields op h
  obtain ⟨i0, i1, i2, i3⟩ := o.ix_fields
  generalize BitVec.ofNat 32 o.ix = x at *
  simp [OFencer.dec, gOf, *]

theorem OPatch.ix_fields (o : OPatch) :
    bits (BitVec.ofNat 32 o.ix).toNat 2 0 = o.k.val ∧ bits (BitVec.ofNat 32 o.ix).toNat 31 3 = o.off.toNat := by
  have := o.k.isLt
  have := o.off.isLt
  simp only [OPatch.ix, bits, BitVec.toNat_ofNat]
  refine ⟨?_, ?_⟩ <;> omega

@[simp] theorem OPatch.dec_enc (o : OPatch) (op : Nat) (h : op < 128) :
    OPatch.dec (o.enc op) (some (BitVec.ofNat 32 o.ix)) = some o := by
  obtain ⟨h0, h1, h2, h3, h4, h5⟩ := o.enc_fields op h
  obtain ⟨i0, i1⟩ := o.ix_fields
  generalize BitVec.ofNat 32 o.ix = x at *
  simp [OPatch.dec, gOf, *]

theorem OBfx.ix_fields (o : OBfx) :
    bits (BitVec.ofNat 32 o.ix).toNat 31 13 = 0 ∧ bits (BitVec.ofNat 32 o.ix).toNat 12 6 = o.w.val ∧
      bits (BitVec.ofNat 32 o.ix).toNat 5 0 = o.pos.val := by
  have := o.pos.isLt
  have := o.w.isLt
  simp only [OBfx.ix, bits, BitVec.toNat_ofNat]
  refine ⟨?_, ?_, ?_⟩ <;> omega

@[simp] theorem OBfx.dec_enc (o : OBfx) (op fn : Nat) (h : op < 128) (hf : fn < 512) :
    OBfx.dec (o.enc op fn) (some (BitVec.ofNat 32 o.ix)) fn = some o := by
  obtain ⟨h0, h1, h2, h3, h4, h5⟩ := o.enc_fields op fn h hf
  obtain ⟨i0, i1, i2⟩ := o.ix_fields
  generalize BitVec.ofNat 32 o.ix = x at *
  simp [OBfx.dec, gOf, *]

theorem OBfi.ix_fields (o : OBfi) :
    bits (BitVec.ofNat 32 o.ix).toNat 31 13 = 0 ∧ bits (BitVec.ofNat 32 o.ix).toNat 12 6 = o.w.val ∧
      bits (BitVec.ofNat 32 o.ix).toNat 5 0 = o.pos.val := by
  have := o.pos.isLt
  have := o.w.isLt
  simp only [OBfi.ix, bits, BitVec.toNat_ofNat]
  refine ⟨?_, ?_, ?_⟩ <;> omega

@[simp] theorem OBfi.dec_enc (o : OBfi) (op : Nat) (h : op < 128) :
    OBfi.dec (o.enc op) (some (BitVec.ofNat 32 o.ix)) = some o := by
  obtain ⟨h0, h1, h2, h3, h4, h5, h6⟩ := o.enc_fields op h
  obtain ⟨i0, i1, i2⟩ := o.ix_fields
  generalize BitVec.ofNat 32 o.ix = x at *
  simp [OBfi.dec, gOf, *]

@[simp] theorem OVexp.dec_enc (o : OVexp) (op : Nat) (h : op < 64) : OVexp.dec (o.enc op) (some o.c) = some o := by
  obtain ⟨h0, h1, h2, h3, h4, h5, h6⟩ := o.enc_fields op h
  simp [OVexp.dec, qOf, *]

end Sys2Proof
end

