-- ==== Sys2Proof/Laws/PerInstr.lean ====
section
/-! SUPPORT. Statements about every instruction as syntax, one lemma for each constructor: `RoundTrip` says that the decoder
reads an encoded instruction back. -/

namespace Sys2Proof.Laws.RoundTrip

/-- What the encoder makes of a well-formed instruction, followed by any words, decodes to it and leaves those words. -/
def Statement (i : Instr) : Prop :=
  i.wf = true → ∀ rest : List Nat, ∃ k ws, encode i = some (k, ws) ∧ decodeSyl k (ws ++ rest) = some (some i, rest)

theorem bits_zero (hi lo : Nat) : bits 0 hi lo = 0 := by simp [bits]

/-- A syllable that the raw decoder reads as `i` is read by `decodeSyl`, its IX syllable with it. -/
theorem of {i : Instr} {k : Kind} {w : Nat} {ix : Option W32} (hi lo : Nat) {op : Nat} (he : encode i = some (k, w :: ixWords ix))
    (hop : bits w hi lo = op) (h0 : op ≠ 0) (hix : ixeBit k w = boolCode ix.isSome) (hd : decodeRaw k w ix = some i) : Statement i := by
  intro hwf rest
  have hw : w ≠ 0 := by
    rintro rfl
    exact h0 (hop ▸ bits_zero hi lo)
  have hins : decodeIns k w ix = some i := by simp [decodeIns, hd, hwf]
  refine ⟨k, _, he, ?_⟩
  cases ix with
  | none => simp [decodeSyl, ixWords, hw, hix, hins, boolCode]
  | some x => simp [decodeSyl, ixWords, hw, hix, hins, boolCode]

/-- The same for a required IX syllable, given as a number. -/
theorem ofIx {i : Instr} {k : Kind} {w x : Nat} (hi lo : Nat) {op : Nat} (he : encode i = some (k, [w, x]))
    (hop : bits w hi lo = op) (h0 : op ≠ 0) (hix : ixeBit k w = 1) (hd : decodeRaw k w (some (BitVec.ofNat 32 x)) = some i) :
    Statement i := by
  intro hwf rest
  have hw : w ≠ 0 := by
    rintro rfl
    exact h0 (hop ▸ bits_zero hi lo)
  have hins : decodeIns k w (some (BitVec.ofNat 32 x)) = some i := by simp [decodeIns, hd, hwf]
  exact ⟨k, _, he, by simp [decodeSyl, hw, hix, hins]⟩

theorem first {α : Type} {a : Option α} {b : Option Instr} {f : α → Instr} {x : α} (h : a = some x) :
    (a.map f <|> b) = some (f x) := by rw [h]; rfl

theorem second {α β : Type} {a : Option α} {b : Option β} {f : α → Instr} {g : β → Instr} {x : β} (ha : a = none)
    (hb : b = some x) : (a.map f <|> b.map g) = some (g x) := by rw [ha, hb]; rfl

/-- An event has no encoding, and no rule of well-formedness lets it through. -/
theorem event {i : Instr} (h : i.wf = false) : Statement i := by
  intro hwf
  rw [h] at hwf
  contradiction

theorem br (o : OBr) : Statement (.br o) := by
  obtain ⟨_, h1, h2, _⟩ := o.enc_fields 1 (by decide)
  refine of (ix := o.ix) 26 20 rfl h1 (by decide) h2 ?_
  show decodeBr (bits (o.enc 1) 26 20) _ _ = _
  rw [h1]
  exact congrArg (Option.map Instr.br) (o.dec_enc 1 (by decide))

theorem brc (o : OBrc) : Statement (.brc o) := by
  obtain ⟨_, h1, h2, _, _, _⟩ := o.enc_fields 2 (by decide)
  refine of (ix := o.ix) 26 20 rfl h1 (by decide) h2 ?_
  show decodeBr (bits (o.enc 2) 26 20) _ _ = _
  rw [h1]
  exact congrArg (Option.map Instr.brc) (o.dec_enc 2 (by decide))

theorem brq (o : OBrq) : Statement (.brq o) := by
  obtain ⟨_, h1, h2, _, _, _, _⟩ := o.enc_fields 3 (by decide)
  refine of (ix := o.ix) 26 20 rfl h1 (by decide) h2 ?_
  show decodeBr (bits (o.enc 3) 26 20) _ _ = _
  rw [h1]
  exact congrArg (Option.map Instr.brq) (o.dec_enc 3 (by decide))

theorem jmpi (o : OBrA) : Statement (.jmpi o) := by
  obtain ⟨_, h1, h2, _, _⟩ := o.enc_fields 4 (by decide)
  refine of (ix := none) 26 20 rfl h1 (by decide) h2 ?_
  show decodeBr (bits (o.enc 4) 26 20) _ _ = _
  rw [h1]
  exact congrArg (Option.map Instr.jmpi) (o.dec_enc 4 (by decide))

theorem call (o : OBr) : Statement (.call o) := by
  obtain ⟨_, h1, h2, _⟩ := o.enc_fields 5 (by decide)
  refine of (ix := o.ix) 26 20 rfl h1 (by decide) h2 ?_
  show decodeBr (bits (o.enc 5) 26 20) _ _ = _
  rw [h1]
  exact congrArg (Option.map Instr.call) (o.dec_enc 5 (by decide))

theorem calli (o : OBrA) : Statement (.calli o) := by
  obtain ⟨_, h1, h2, _, _⟩ := o.enc_fields 6 (by decide)
  refine of (ix := none) 26 20 rfl h1 (by decide) h2 ?_
  show decodeBr (bits (o.enc 6) 26 20) _ _ = _
  rw [h1]
  exact congrArg (Option.map Instr.calli) (o.dec_enc 6 (by decide))

theorem ret (o : OBrA) : Statement (.ret o) := by
  obtain ⟨_, h1, h2, _, _⟩ := o.enc_fields 7 (by decide)
  refine of (ix := none) 26 20 rfl h1 (by decide) h2 ?_
  show decodeBr (bits (o.enc 7) 26 20) _ _ = _
  rw [h1]
  exact congrArg (Option.map Instr.ret) (o.dec_enc 7 (by decide))

theorem loop (o : OLoop) : Statement (.loop o) := by
  obtain ⟨_, h1, h2, _, _⟩ := o.enc_fields 8 (by decide)
  refine of (ix := o.ix) 26 20 rfl h1 (by decide) h2 ?_
  show decodeBr (bits (o.enc 8) 26 20) _ _ = _
  rw [h1]
  exact congrArg (Option.map Instr.loop) (o.dec_enc 8 (by decide))

theorem trap (o : OG) : Statement (.trap o) := by
  obtain ⟨_, h1, h2, _⟩ := o.enc_fields 9 (by decide)
  refine of (ix := none) 26 20 rfl h1 (by decide) h2 ?_
  show decodeBr (bits (o.enc 9) 26 20) _ _ = _
  rw [h1]
  exact congrArg (Option.map Instr.trap) (o.dec_enc 9 (by decide))

theorem eret (o : OG) : Statement (.eret o) := by
  obtain ⟨_, h1, h2, _⟩ := o.enc_fields 10 (by decide)
  refine of (ix := none) 26 20 rfl h1 (by decide) h2 ?_
  show decodeBr (bits (o.enc 10) 26 20) _ _ = _
  rw [h1]
  exact congrArg (Option.map Instr.eret) (o.dec_enc 10 (by decide))

theorem brk (o : OG) : Statement (.brk o) := by
  obtain ⟨_, h1, h2, _⟩ := o.enc_fields 11 (by decide)
  refine of (ix := none) 26 20 rfl h1 (by decide) h2 ?_
  show decodeBr (bits (o.enc 11) 26 20) _ _ = _
  rw [h1]
  exact congrArg (Option.map Instr.brk) (o.dec_enc 11 (by decide))

theorem ipf (o : OBr) : Statement (.ipf o) := by
  obtain ⟨_, h1, h2, _⟩ := o.enc_fields 12 (by decide)
  refine of (ix := o.ix) 26 20 rfl h1 (by decide) h2 ?_
  show decodeBr (bits (o.enc 12) 26 20) _ _ = _
  rw [h1]
  exact congrArg (Option.map Instr.ipf) (o.dec_enc 12 (by decide))

theorem ifence (o : OG) : Statement (.ifence o) := by
  obtain ⟨_, h1, h2, _⟩ := o.enc_fields 13 (by decide)
  refine of (ix := none) 26 20 rfl h1 (by decide) h2 ?_
  show decodeBr (bits (o.enc 13) 26 20) _ _ = _
  rw [h1]
  exact congrArg (Option.map Instr.ifence) (o.dec_enc 13 (by decide))

theorem wait (o : OWait) : Statement (.wait o) := by
  obtain ⟨_, h1, h2, _, _, _⟩ := o.enc_fields 14 (by decide)
  refine of (ix := none) 26 20 rfl h1 (by decide) h2 ?_
  show decodeBr (bits (o.enc 14) 26 20) _ _ = _
  rw [h1]
  exact congrArg (Option.map Instr.wait) (o.dec_enc 14 (by decide))

theorem fence (o : OFence) : Statement (.fence o) := by
  obtain ⟨_, h1, h2, _, _, _, _⟩ := o.enc_fields 15 (by decide)
  refine of (ix := none) 26 20 rfl h1 (by decide) h2 ?_
  show decodeBr (bits (o.enc 15) 26 20) _ _ = _
  rw [h1]
  exact congrArg (Option.map Instr.fence) (o.dec_enc 15 (by decide))

theorem fencer (o : OFencer) : Statement (.fencer o) := by
  obtain ⟨_, h1, h2, _, _, _⟩ := o.enc_fields 16 (by decide)
  refine ofIx 26 20 rfl h1 (by decide) h2 ?_
  show decodeBr (bits (o.enc 16) 26 20) _ _ = _
  rw [h1]
  exact congrArg (Option.map Instr.fencer) (o.dec_enc 16 (by decide))

theorem lwatch (o : OLwatch) : Statement (.lwatch o) := by
  obtain ⟨_, h1, h2, _, _, _, _⟩ := o.enc_fields 17 (by decide)
  refine of (ix := o.ix) 26 20 rfl h1 (by decide) h2 ?_
  show decodeBr (bits (o.enc 17) 26 20) _ _ = _
  rw [h1]
  exact congrArg (Option.map Instr.lwatch) (o.dec_enc 17 (by decide))

theorem wpark (o : OG) : Statement (.wpark o) := by
  obtain ⟨_, h1, h2, _⟩ := o.enc_fields 18 (by decide)
  refine of (ix := none) 26 20 rfl h1 (by decide) h2 ?_
  show decodeBr (bits (o.enc 18) 26 20) _ _ = _
  rw [h1]
  exact congrArg (Option.map Instr.wpark) (o.dec_enc 18 (by decide))

theorem add (o : OR3) : Statement (.add o) := by
  obtain ⟨_, h1, h2, _, _, _, _⟩ := o.enc_fields 1 0 (by decide) (by decide)
  refine of (ix := o.ix) 26 20 rfl h1 (by decide) h2 ?_
  show decodeSa (bits (o.enc 1 0) 26 20) _ _ = _
  rw [h1]
  exact congrArg (Option.map Instr.add) (o.dec_enc 1 0 (by decide) (by decide))

theorem sub (o : OR3) : Statement (.sub o) := by
  obtain ⟨_, h1, h2, _, _, _, _⟩ := o.enc_fields 2 0 (by decide) (by decide)
  refine of (ix := o.ix) 26 20 rfl h1 (by decide) h2 ?_
  show decodeSa (bits (o.enc 2 0) 26 20) _ _ = _
  rw [h1]
  exact congrArg (Option.map Instr.sub) (o.dec_enc 2 0 (by decide) (by decide))

theorem mul (o : OR3) : Statement (.mul o) := by
  obtain ⟨_, h1, h2, _, _, _, _⟩ := o.enc_fields 3 0 (by decide) (by decide)
  refine of (ix := o.ix) 26 20 rfl h1 (by decide) h2 ?_
  show decodeSa (bits (o.enc 3 0) 26 20) _ _ = _
  rw [h1]
  exact congrArg (Option.map Instr.mul) (o.dec_enc 3 0 (by decide) (by decide))

theorem mulh (o : OR3) : Statement (.mulh o) := by
  obtain ⟨_, h1, h2, _, _, _, _⟩ := o.enc_fields 4 0 (by decide) (by decide)
  refine of (ix := o.ix) 26 20 rfl h1 (by decide) h2 ?_
  show decodeSa (bits (o.enc 4 0) 26 20) _ _ = _
  rw [h1]
  exact congrArg (Option.map Instr.mulh) (o.dec_enc 4 0 (by decide) (by decide))

theorem mulhu (o : OR3) : Statement (.mulhu o) := by
  obtain ⟨_, h1, h2, _, _, _, _⟩ := o.enc_fields 5 0 (by decide) (by decide)
  refine of (ix := o.ix) 26 20 rfl h1 (by decide) h2 ?_
  show decodeSa (bits (o.enc 5 0) 26 20) _ _ = _
  rw [h1]
  exact congrArg (Option.map Instr.mulhu) (o.dec_enc 5 0 (by decide) (by decide))

theorem div (o : OR3) : Statement (.div o) := by
  obtain ⟨_, h1, h2, _, _, _, _⟩ := o.enc_fields 6 0 (by decide) (by decide)
  refine of (ix := o.ix) 26 20 rfl h1 (by decide) h2 ?_
  show decodeSa (bits (o.enc 6 0) 26 20) _ _ = _
  rw [h1]
  exact congrArg (Option.map Instr.div) (o.dec_enc 6 0 (by decide) (by decide))

theorem divu (o : OR3) : Statement (.divu o) := by
  obtain ⟨_, h1, h2, _, _, _, _⟩ := o.enc_fields 7 0 (by decide) (by decide)
  refine of (ix := o.ix) 26 20 rfl h1 (by decide) h2 ?_
  show decodeSa (bits (o.enc 7 0) 26 20) _ _ = _
  rw [h1]
  exact congrArg (Option.map Instr.divu) (o.dec_enc 7 0 (by decide) (by decide))

theorem rem (o : OR3) : Statement (.rem o) := by
  obtain ⟨_, h1, h2, _, _, _, _⟩ := o.enc_fields 8 0 (by decide) (by decide)
  refine of (ix := o.ix) 26 20 rfl h1 (by decide) h2 ?_
  show decodeSa (bits (o.enc 8 0) 26 20) _ _ = _
  rw [h1]
  exact congrArg (Option.map Instr.rem) (o.dec_enc 8 0 (by decide) (by decide))

theorem remu (o : OR3) : Statement (.remu o) := by
  obtain ⟨_, h1, h2, _, _, _, _⟩ := o.enc_fields 9 0 (by decide) (by decide)
  refine of (ix := o.ix) 26 20 rfl h1 (by decide) h2 ?_
  show decodeSa (bits (o.enc 9 0) 26 20) _ _ = _
  rw [h1]
  exact congrArg (Option.map Instr.remu) (o.dec_enc 9 0 (by decide) (by decide))

theorem and (o : OR3) : Statement (.and o) := by
  obtain ⟨_, h1, h2, _, _, _, _⟩ := o.enc_fields 10 0 (by decide) (by decide)
  refine of (ix := o.ix) 26 20 rfl h1 (by decide) h2 ?_
  show decodeSa (bits (o.enc 10 0) 26 20) _ _ = _
  rw [h1]
  exact congrArg (Option.map Instr.and) (o.dec_enc 10 0 (by decide) (by decide))

theorem or (o : OR3) : Statement (.or o) := by
  obtain ⟨_, h1, h2, _, _, _, _⟩ := o.enc_fields 11 0 (by decide) (by decide)
  refine of (ix := o.ix) 26 20 rfl h1 (by decide) h2 ?_
  show decodeSa (bits (o.enc 11 0) 26 20) _ _ = _
  rw [h1]
  exact congrArg (Option.map Instr.or) (o.dec_enc 11 0 (by decide) (by decide))

theorem xor (o : OR3) : Statement (.xor o) := by
  obtain ⟨_, h1, h2, _, _, _, _⟩ := o.enc_fields 12 0 (by decide) (by decide)
  refine of (ix := o.ix) 26 20 rfl h1 (by decide) h2 ?_
  show decodeSa (bits (o.enc 12 0) 26 20) _ _ = _
  rw [h1]
  exact congrArg (Option.map Instr.xor) (o.dec_enc 12 0 (by decide) (by decide))

theorem andn (o : OR3) : Statement (.andn o) := by
  obtain ⟨_, h1, h2, _, _, _, _⟩ := o.enc_fields 13 0 (by decide) (by decide)
  refine of (ix := o.ix) 26 20 rfl h1 (by decide) h2 ?_
  show decodeSa (bits (o.enc 13 0) 26 20) _ _ = _
  rw [h1]
  exact congrArg (Option.map Instr.andn) (o.dec_enc 13 0 (by decide) (by decide))

theorem shl (o : OR3) : Statement (.shl o) := by
  obtain ⟨_, h1, h2, _, _, _, _⟩ := o.enc_fields 14 0 (by decide) (by decide)
  refine of (ix := o.ix) 26 20 rfl h1 (by decide) h2 ?_
  show decodeSa (bits (o.enc 14 0) 26 20) _ _ = _
  rw [h1]
  exact congrArg (Option.map Instr.shl) (o.dec_enc 14 0 (by decide) (by decide))

theorem shr (o : OR3) : Statement (.shr o) := by
  obtain ⟨_, h1, h2, _, _, _, _⟩ := o.enc_fields 15 0 (by decide) (by decide)
  refine of (ix := o.ix) 26 20 rfl h1 (by decide) h2 ?_
  show decodeSa (bits (o.enc 15 0) 26 20) _ _ = _
  rw [h1]
  exact congrArg (Option.map Instr.shr) (o.dec_enc 15 0 (by decide) (by decide))

theorem sra (o : OR3) : Statement (.sra o) := by
  obtain ⟨_, h1, h2, _, _, _, _⟩ := o.enc_fields 16 0 (by decide) (by decide)
  refine of (ix := o.ix) 26 20 rfl h1 (by decide) h2 ?_
  show decodeSa (bits (o.enc 16 0) 26 20) _ _ = _
  rw [h1]
  exact congrArg (Option.map Instr.sra) (o.dec_enc 16 0 (by decide) (by decide))

theorem rot (o : OR3) : Statement (.rot o) := by
  obtain ⟨_, h1, h2, _, _, _, _⟩ := o.enc_fields 17 0 (by decide) (by decide)
  refine of (ix := o.ix) 26 20 rfl h1 (by decide) h2 ?_
  show decodeSa (bits (o.enc 17 0) 26 20) _ _ = _
  rw [h1]
  exact congrArg (Option.map Instr.rot) (o.dec_enc 17 0 (by decide) (by decide))

theorem min (o : OR3) : Statement (.min o) := by
  obtain ⟨_, h1, h2, _, _, _, _⟩ := o.enc_fields 18 0 (by decide) (by decide)
  refine of (ix := o.ix) 26 20 rfl h1 (by decide) h2 ?_
  show decodeSa (bits (o.enc 18 0) 26 20) _ _ = _
  rw [h1]
  exact congrArg (Option.map Instr.min) (o.dec_enc 18 0 (by decide) (by decide))

theorem max (o : OR3) : Statement (.max o) := by
  obtain ⟨_, h1, h2, _, _, _, _⟩ := o.enc_fields 19 0 (by decide) (by decide)
  refine of (ix := o.ix) 26 20 rfl h1 (by decide) h2 ?_
  show decodeSa (bits (o.enc 19 0) 26 20) _ _ = _
  rw [h1]
  exact congrArg (Option.map Instr.max) (o.dec_enc 19 0 (by decide) (by decide))

theorem minu (o : OR3) : Statement (.minu o) := by
  obtain ⟨_, h1, h2, _, _, _, _⟩ := o.enc_fields 20 0 (by decide) (by decide)
  refine of (ix := o.ix) 26 20 rfl h1 (by decide) h2 ?_
  show decodeSa (bits (o.enc 20 0) 26 20) _ _ = _
  rw [h1]
  exact congrArg (Option.map Instr.minu) (o.dec_enc 20 0 (by decide) (by decide))

theorem maxu (o : OR3) : Statement (.maxu o) := by
  obtain ⟨_, h1, h2, _, _, _, _⟩ := o.enc_fields 21 0 (by decide) (by decide)
  refine of (ix := o.ix) 26 20 rfl h1 (by decide) h2 ?_
  show decodeSa (bits (o.enc 21 0) 26 20) _ _ = _
  rw [h1]
  exact congrArg (Option.map Instr.maxu) (o.dec_enc 21 0 (by decide) (by decide))

theorem clz (o : OR2) : Statement (.clz o) := by
  obtain ⟨_, h1, h2, _, _, _⟩ := o.enc_fields 22 (by decide)
  refine of (ix := o.ix) 26 20 rfl h1 (by decide) h2 ?_
  show decodeSa (bits (o.enc 22) 26 20) _ _ = _
  rw [h1]
  exact congrArg (Option.map Instr.clz) (o.dec_enc 22 (by decide))

theorem ctz (o : OR2) : Statement (.ctz o) := by
  obtain ⟨_, h1, h2, _, _, _⟩ := o.enc_fields 23 (by decide)
  refine of (ix := o.ix) 26 20 rfl h1 (by decide) h2 ?_
  show decodeSa (bits (o.enc 23) 26 20) _ _ = _
  rw [h1]
  exact congrArg (Option.map Instr.ctz) (o.dec_enc 23 (by decide))

theorem popc (o : OR2) : Statement (.popc o) := by
  obtain ⟨_, h1, h2, _, _, _⟩ := o.enc_fields 24 (by decide)
  refine of (ix := o.ix) 26 20 rfl h1 (by decide) h2 ?_
  show decodeSa (bits (o.enc 24) 26 20) _ _ = _
  rw [h1]
  exact congrArg (Option.map Instr.popc) (o.dec_enc 24 (by decide))

theorem sel (o : OR3n) : Statement (.sel o) := by
  obtain ⟨_, h1, h2, _, _, _, _⟩ := o.enc_fields 25 (by decide)
  refine of (ix := o.ix) 26 20 rfl h1 (by decide) h2 ?_
  show decodeSa (bits (o.enc 25) 26 20) _ _ = _
  rw [h1]
  exact congrArg (Option.map Instr.sel) (o.dec_enc 25 (by decide))

theorem mov (o : OR2) : Statement (.mov o) := by
  obtain ⟨_, h1, h2, _, _, _⟩ := o.enc_fields 26 (by decide)
  refine of (ix := o.ix) 26 20 rfl h1 (by decide) h2 ?_
  show decodeSa (bits (o.enc 26) 26 20) _ _ = _
  rw [h1]
  exact congrArg (Option.map Instr.mov) (o.dec_enc 26 (by decide))

theorem movStaging (o : OStg) : Statement (.movStaging o) := by
  obtain ⟨_, h1, h2, _, _, _⟩ := o.enc_fields 27 (by decide)
  refine of (ix := o.ix) 26 20 rfl h1 (by decide) h2 ?_
  show decodeSa (bits (o.enc 27) 26 20) _ _ = _
  rw [h1]
  dsimp only [decodeSa]
  exact first (o.dec_enc 27 (by decide))

theorem movPatch (o : OPatch) : Statement (.movPatch o) := by
  obtain ⟨h0, h1, h2, h3, h4, h5⟩ := o.enc_fields 27 (by decide)
  refine ofIx 26 20 rfl h1 (by decide) h2 ?_
  show decodeSa (bits (o.enc 27) 26 20) _ _ = _
  rw [h1]
  dsimp only [decodeSa]
  exact second (by simp [OStg.dec, *]) (o.dec_enc 27 (by decide))

theorem movi (o : OMovi) : Statement (.movi o) := by
  obtain ⟨_, h1, h2, _, _, _, _⟩ := o.enc_fields 28 (by decide)
  refine of (ix := o.ix) 26 20 rfl h1 (by decide) h2 ?_
  show decodeSa (bits (o.enc 28) 26 20) _ _ = _
  rw [h1]
  dsimp only [decodeSa]
  exact first (o.dec_enc 28 (by decide))

theorem moviH (o : OR3) : Statement (.moviH o) := by
  obtain ⟨h0, h1, h2, h3, h4, h5, h6⟩ := o.enc_fields 28 1 (by decide) (by decide)
  refine of (ix := o.ix) 26 20 rfl h1 (by decide) h2 ?_
  show decodeSa (bits (o.enc 28 1) 26 20) _ _ = _
  rw [h1]
  dsimp only [decodeSa]
  exact second (by simp [OMovi.dec, *]) (o.dec_enc 28 1 (by decide) (by decide))

theorem lea (o : OR3n) : Statement (.lea o) := by
  obtain ⟨_, h1, h2, _, _, _, _⟩ := o.enc_fields 29 (by decide)
  refine of (ix := o.ix) 26 20 rfl h1 (by decide) h2 ?_
  show decodeSa (bits (o.enc 29) 26 20) _ _ = _
  rw [h1]
  exact congrArg (Option.map Instr.lea) (o.dec_enc 29 (by decide))

theorem extZ (o : OR3) : Statement (.extZ o) := by
  obtain ⟨_, h1, h2, _, _, _, _⟩ := o.enc_fields 30 0 (by decide) (by decide)
  refine of (ix := o.ix) 26 20 rfl h1 (by decide) h2 ?_
  show decodeSa (bits (o.enc 30 0) 26 20) _ _ = _
  rw [h1]
  dsimp only [decodeSa]
  exact first (o.dec_enc 30 0 (by decide) (by decide))

theorem extS (o : OR3) : Statement (.extS o) := by
  obtain ⟨h0, h1, h2, h3, h4, h5, h6⟩ := o.enc_fields 30 1 (by decide) (by decide)
  refine of (ix := o.ix) 26 20 rfl h1 (by decide) h2 ?_
  show decodeSa (bits (o.enc 30 1) 26 20) _ _ = _
  rw [h1]
  dsimp only [decodeSa]
  exact second (by simp [OR3.dec, *]) (o.dec_enc 30 1 (by decide) (by decide))

theorem bfx (o : OBfx) : Statement (.bfx o) := by
  obtain ⟨_, h1, h2, _, _, _⟩ := o.enc_fields 31 0 (by decide) (by decide)
  refine ofIx 26 20 rfl h1 (by decide) h2 ?_
  show decodeSa (bits (o.enc 31 0) 26 20) _ _ = _
  rw [h1]
  dsimp only [decodeSa]
  exact first (o.dec_enc 31 0 (by decide) (by decide))

theorem bfxS (o : OBfx) : Statement (.bfxS o) := by
  obtain ⟨h0, h1, h2, h3, h4, h5⟩ := o.enc_fields 31 1 (by decide) (by decide)
  refine ofIx 26 20 rfl h1 (by decide) h2 ?_
  show decodeSa (bits (o.enc 31 1) 26 20) _ _ = _
  rw [h1]
  dsimp only [decodeSa]
  exact second (by simp [OBfx.dec, *]) (o.dec_enc 31 1 (by decide) (by decide))

theorem bfi (o : OBfi) : Statement (.bfi o) := by
  obtain ⟨_, h1, h2, _, _, _, _⟩ := o.enc_fields 32 (by decide)
  refine ofIx 26 20 rfl h1 (by decide) h2 ?_
  show decodeSa (bits (o.enc 32) 26 20) _ _ = _
  rw [h1]
  exact congrArg (Option.map Instr.bfi) (o.dec_enc 32 (by decide))

theorem cmp (o : OCmp) : Statement (.cmp o) := by
  obtain ⟨_, h1, h2, _, _, _, _⟩ := o.enc_fields 33 (by decide)
  refine of (ix := o.ix) 26 20 rfl h1 (by decide) h2 ?_
  show decodeSa (bits (o.enc 33) 26 20) _ _ = _
  rw [h1]
  exact congrArg (Option.map Instr.cmp) (o.dec_enc 33 (by decide))

theorem plog (o : OPlog) : Statement (.plog o) := by
  obtain ⟨_, h1, h2, _, _, _, _⟩ := o.enc_fields 34 (by decide)
  refine of (ix := none) 26 20 rfl h1 (by decide) h2 ?_
  show decodeSa (bits (o.enc 34) 26 20) _ _ = _
  rw [h1]
  exact congrArg (Option.map Instr.plog) (o.dec_enc 34 (by decide))

theorem ldB (o : OLd) : Statement (.ldB o) := by
  obtain ⟨_, h1, h2, _, _, _, _⟩ := o.enc_fields 1 (by decide)
  refine of (ix := o.ix) 26 20 rfl h1 (by decide) h2 ?_
  show decodeAm (bits (o.enc 1) 26 20) _ _ = _
  rw [h1]
  exact congrArg (Option.map Instr.ldB) (o.dec_enc 1 (by decide))

theorem ldH (o : OLd) : Statement (.ldH o) := by
  obtain ⟨_, h1, h2, _, _, _, _⟩ := o.enc_fields 2 (by decide)
  refine of (ix := o.ix) 26 20 rfl h1 (by decide) h2 ?_
  show decodeAm (bits (o.enc 2) 26 20) _ _ = _
  rw [h1]
  exact congrArg (Option.map Instr.ldH) (o.dec_enc 2 (by decide))

theorem ldW (o : OLd) : Statement (.ldW o) := by
  obtain ⟨_, h1, h2, _, _, _, _⟩ := o.enc_fields 3 (by decide)
  refine of (ix := o.ix) 26 20 rfl h1 (by decide) h2 ?_
  show decodeAm (bits (o.enc 3) 26 20) _ _ = _
  rw [h1]
  exact congrArg (Option.map Instr.ldW) (o.dec_enc 3 (by decide))

theorem ldD (o : OLd) : Statement (.ldD o) := by
  obtain ⟨_, h1, h2, _, _, _, _⟩ := o.enc_fields 4 (by decide)
  refine of (ix := o.ix) 26 20 rfl h1 (by decide) h2 ?_
  show decodeAm (bits (o.enc 4) 26 20) _ _ = _
  rw [h1]
  exact congrArg (Option.map Instr.ldD) (o.dec_enc 4 (by decide))

theorem ldBAcq (o : OLd) : Statement (.ldBAcq o) := by
  obtain ⟨_, h1, h2, _, _, _, _⟩ := o.enc_fields 5 (by decide)
  refine of (ix := o.ix) 26 20 rfl h1 (by decide) h2 ?_
  show decodeAm (bits (o.enc 5) 26 20) _ _ = _
  rw [h1]
  exact congrArg (Option.map Instr.ldBAcq) (o.dec_enc 5 (by decide))

theorem ldHAcq (o : OLd) : Statement (.ldHAcq o) := by
  obtain ⟨_, h1, h2, _, _, _, _⟩ := o.enc_fields 6 (by decide)
  refine of (ix := o.ix) 26 20 rfl h1 (by decide) h2 ?_
  show decodeAm (bits (o.enc 6) 26 20) _ _ = _
  rw [h1]
  exact congrArg (Option.map Instr.ldHAcq) (o.dec_enc 6 (by decide))

theorem ldWAcq (o : OLd) : Statement (.ldWAcq o) := by
  obtain ⟨_, h1, h2, _, _, _, _⟩ := o.enc_fields 7 (by decide)
  refine of (ix := o.ix) 26 20 rfl h1 (by decide) h2 ?_
  show decodeAm (bits (o.enc 7) 26 20) _ _ = _
  rw [h1]
  exact congrArg (Option.map Instr.ldWAcq) (o.dec_enc 7 (by decide))

theorem ldDAcq (o : OLd) : Statement (.ldDAcq o) := by
  obtain ⟨_, h1, h2, _, _, _, _⟩ := o.enc_fields 8 (by decide)
  refine of (ix := o.ix) 26 20 rfl h1 (by decide) h2 ?_
  show decodeAm (bits (o.enc 8) 26 20) _ _ = _
  rw [h1]
  exact congrArg (Option.map Instr.ldDAcq) (o.dec_enc 8 (by decide))

theorem stB (o : OSt) : Statement (.stB o) := by
  obtain ⟨_, h1, h2, _, _, _, _, _⟩ := o.enc_fields 9 (by decide)
  refine of (ix := o.ix) 26 20 rfl h1 (by decide) h2 ?_
  show decodeAm (bits (o.enc 9) 26 20) _ _ = _
  rw [h1]
  exact congrArg (Option.map Instr.stB) (o.dec_enc 9 (by decide))

theorem stH (o : OSt) : Statement (.stH o) := by
  obtain ⟨_, h1, h2, _, _, _, _, _⟩ := o.enc_fields 10 (by decide)
  refine of (ix := o.ix) 26 20 rfl h1 (by decide) h2 ?_
  show decodeAm (bits (o.enc 10) 26 20) _ _ = _
  rw [h1]
  exact congrArg (Option.map Instr.stH) (o.dec_enc 10 (by decide))

theorem stW (o : OSt) : Statement (.stW o) := by
  obtain ⟨_, h1, h2, _, _, _, _, _⟩ := o.enc_fields 11 (by decide)
  refine of (ix := o.ix) 26 20 rfl h1 (by decide) h2 ?_
  show decodeAm (bits (o.enc 11) 26 20) _ _ = _
  rw [h1]
  exact congrArg (Option.map Instr.stW) (o.dec_enc 11 (by decide))

theorem stD (o : OSt) : Statement (.stD o) := by
  obtain ⟨_, h1, h2, _, _, _, _, _⟩ := o.enc_fields 12 (by decide)
  refine of (ix := o.ix) 26 20 rfl h1 (by decide) h2 ?_
  show decodeAm (bits (o.enc 12) 26 20) _ _ = _
  rw [h1]
  exact congrArg (Option.map Instr.stD) (o.dec_enc 12 (by decide))

theorem stBRel (o : OSt) : Statement (.stBRel o) := by
  obtain ⟨_, h1, h2, _, _, _, _, _⟩ := o.enc_fields 13 (by decide)
  refine of (ix := o.ix) 26 20 rfl h1 (by decide) h2 ?_
  show decodeAm (bits (o.enc 13) 26 20) _ _ = _
  rw [h1]
  exact congrArg (Option.map Instr.stBRel) (o.dec_enc 13 (by decide))

theorem stHRel (o : OSt) : Statement (.stHRel o) := by
  obtain ⟨_, h1, h2, _, _, _, _, _⟩ := o.enc_fields 14 (by decide)
  refine of (ix := o.ix) 26 20 rfl h1 (by decide) h2 ?_
  show decodeAm (bits (o.enc 14) 26 20) _ _ = _
  rw [h1]
  exact congrArg (Option.map Instr.stHRel) (o.dec_enc 14 (by decide))

theorem stWRel (o : OSt) : Statement (.stWRel o) := by
  obtain ⟨_, h1, h2, _, _, _, _, _⟩ := o.enc_fields 15 (by decide)
  refine of (ix := o.ix) 26 20 rfl h1 (by decide) h2 ?_
  show decodeAm (bits (o.enc 15) 26 20) _ _ = _
  rw [h1]
  exact congrArg (Option.map Instr.stWRel) (o.dec_enc 15 (by decide))

theorem stDRel (o : OSt) : Statement (.stDRel o) := by
  obtain ⟨_, h1, h2, _, _, _, _, _⟩ := o.enc_fields 16 (by decide)
  refine of (ix := o.ix) 26 20 rfl h1 (by decide) h2 ?_
  show decodeAm (bits (o.enc 16) 26 20) _ _ = _
  rw [h1]
  exact congrArg (Option.map Instr.stDRel) (o.dec_enc 16 (by decide))

theorem ldlB (o : OR3) : Statement (.ldlB o) := by
  obtain ⟨_, h1, h2, _, _, _, _⟩ := o.enc_fields 17 0 (by decide) (by decide)
  refine of (ix := o.ix) 26 20 rfl h1 (by decide) h2 ?_
  show decodeAm (bits (o.enc 17 0) 26 20) _ _ = _
  rw [h1]
  exact congrArg (Option.map Instr.ldlB) (o.dec_enc 17 0 (by decide) (by decide))

theorem ldlH (o : OR3) : Statement (.ldlH o) := by
  obtain ⟨_, h1, h2, _, _, _, _⟩ := o.enc_fields 18 0 (by decide) (by decide)
  refine of (ix := o.ix) 26 20 rfl h1 (by decide) h2 ?_
  show decodeAm (bits (o.enc 18 0) 26 20) _ _ = _
  rw [h1]
  exact congrArg (Option.map Instr.ldlH) (o.dec_enc 18 0 (by decide) (by decide))

theorem ldlW (o : OR3) : Statement (.ldlW o) := by
  obtain ⟨_, h1, h2, _, _, _, _⟩ := o.enc_fields 19 0 (by decide) (by decide)
  refine of (ix := o.ix) 26 20 rfl h1 (by decide) h2 ?_
  show decodeAm (bits (o.enc 19 0) 26 20) _ _ = _
  rw [h1]
  exact congrArg (Option.map Instr.ldlW) (o.dec_enc 19 0 (by decide) (by decide))

theorem ldlD (o : OR3) : Statement (.ldlD o) := by
  obtain ⟨_, h1, h2, _, _, _, _⟩ := o.enc_fields 20 0 (by decide) (by decide)
  refine of (ix := o.ix) 26 20 rfl h1 (by decide) h2 ?_
  show decodeAm (bits (o.enc 20 0) 26 20) _ _ = _
  rw [h1]
  exact congrArg (Option.map Instr.ldlD) (o.dec_enc 20 0 (by decide) (by decide))

theorem stlB (o : OStl) : Statement (.stlB o) := by
  obtain ⟨_, h1, h2, _, _, _, _, _⟩ := o.enc_fields 21 (by decide)
  refine of (ix := o.ix) 26 20 rfl h1 (by decide) h2 ?_
  show decodeAm (bits (o.enc 21) 26 20) _ _ = _
  rw [h1]
  exact congrArg (Option.map Instr.stlB) (o.dec_enc 21 (by decide))

theorem stlH (o : OStl) : Statement (.stlH o) := by
  obtain ⟨_, h1, h2, _, _, _, _, _⟩ := o.enc_fields 22 (by decide)
  refine of (ix := o.ix) 26 20 rfl h1 (by decide) h2 ?_
  show decodeAm (bits (o.enc 22) 26 20) _ _ = _
  rw [h1]
  exact congrArg (Option.map Instr.stlH) (o.dec_enc 22 (by decide))

theorem stlW (o : OStl) : Statement (.stlW o) := by
  obtain ⟨_, h1, h2, _, _, _, _, _⟩ := o.enc_fields 23 (by decide)
  refine of (ix := o.ix) 26 20 rfl h1 (by decide) h2 ?_
  show decodeAm (bits (o.enc 23) 26 20) _ _ = _
  rw [h1]
  exact congrArg (Option.map Instr.stlW) (o.dec_enc 23 (by decide))

theorem stlD (o : OStl) : Statement (.stlD o) := by
  obtain ⟨_, h1, h2, _, _, _, _, _⟩ := o.enc_fields 24 (by decide)
  refine of (ix := o.ix) 26 20 rfl h1 (by decide) h2 ?_
  show decodeAm (bits (o.enc 24) 26 20) _ _ = _
  rw [h1]
  exact congrArg (Option.map Instr.stlD) (o.dec_enc 24 (by decide))

theorem amoaddW (o : OLd) : Statement (.amoaddW o) := by
  obtain ⟨_, h1, h2, _, _, _, _⟩ := o.enc_fields 25 (by decide)
  refine of (ix := o.ix) 26 20 rfl h1 (by decide) h2 ?_
  show decodeAm (bits (o.enc 25) 26 20) _ _ = _
  rw [h1]
  exact congrArg (Option.map Instr.amoaddW) (o.dec_enc 25 (by decide))

theorem amoaddD (o : OLd) : Statement (.amoaddD o) := by
  obtain ⟨_, h1, h2, _, _, _, _⟩ := o.enc_fields 26 (by decide)
  refine of (ix := o.ix) 26 20 rfl h1 (by decide) h2 ?_
  show decodeAm (bits (o.enc 26) 26 20) _ _ = _
  rw [h1]
  exact congrArg (Option.map Instr.amoaddD) (o.dec_enc 26 (by decide))

theorem amoandW (o : OLd) : Statement (.amoandW o) := by
  obtain ⟨_, h1, h2, _, _, _, _⟩ := o.enc_fields 27 (by decide)
  refine of (ix := o.ix) 26 20 rfl h1 (by decide) h2 ?_
  show decodeAm (bits (o.enc 27) 26 20) _ _ = _
  rw [h1]
  exact congrArg (Option.map Instr.amoandW) (o.dec_enc 27 (by decide))

theorem amoandD (o : OLd) : Statement (.amoandD o) := by
  obtain ⟨_, h1, h2, _, _, _, _⟩ := o.enc_fields 28 (by decide)
  refine of (ix := o.ix) 26 20 rfl h1 (by decide) h2 ?_
  show decodeAm (bits (o.enc 28) 26 20) _ _ = _
  rw [h1]
  exact congrArg (Option.map Instr.amoandD) (o.dec_enc 28 (by decide))

theorem amoorW (o : OLd) : Statement (.amoorW o) := by
  obtain ⟨_, h1, h2, _, _, _, _⟩ := o.enc_fields 29 (by decide)
  refine of (ix := o.ix) 26 20 rfl h1 (by decide) h2 ?_
  show decodeAm (bits (o.enc 29) 26 20) _ _ = _
  rw [h1]
  exact congrArg (Option.map Instr.amoorW) (o.dec_enc 29 (by decide))

theorem amoorD (o : OLd) : Statement (.amoorD o) := by
  obtain ⟨_, h1, h2, _, _, _, _⟩ := o.enc_fields 30 (by decide)
  refine of (ix := o.ix) 26 20 rfl h1 (by decide) h2 ?_
  show decodeAm (bits (o.enc 30) 26 20) _ _ = _
  rw [h1]
  exact congrArg (Option.map Instr.amoorD) (o.dec_enc 30 (by decide))

theorem amoxorW (o : OLd) : Statement (.amoxorW o) := by
  obtain ⟨_, h1, h2, _, _, _, _⟩ := o.enc_fields 31 (by decide)
  refine of (ix := o.ix) 26 20 rfl h1 (by decide) h2 ?_
  show decodeAm (bits (o.enc 31) 26 20) _ _ = _
  rw [h1]
  exact congrArg (Option.map Instr.amoxorW) (o.dec_enc 31 (by decide))

theorem amoxorD (o : OLd) : Statement (.amoxorD o) := by
  obtain ⟨_, h1, h2, _, _, _, _⟩ := o.enc_fields 32 (by decide)
  refine of (ix := o.ix) 26 20 rfl h1 (by decide) h2 ?_
  show decodeAm (bits (o.enc 32) 26 20) _ _ = _
  rw [h1]
  exact congrArg (Option.map Instr.amoxorD) (o.dec_enc 32 (by decide))

theorem amominW (o : OLd) : Statement (.amominW o) := by
  obtain ⟨_, h1, h2, _, _, _, _⟩ := o.enc_fields 33 (by decide)
  refine of (ix := o.ix) 26 20 rfl h1 (by decide) h2 ?_
  show decodeAm (bits (o.enc 33) 26 20) _ _ = _
  rw [h1]
  exact congrArg (Option.map Instr.amominW) (o.dec_enc 33 (by decide))

theorem amominD (o : OLd) : Statement (.amominD o) := by
  obtain ⟨_, h1, h2, _, _, _, _⟩ := o.enc_fields 34 (by decide)
  refine of (ix := o.ix) 26 20 rfl h1 (by decide) h2 ?_
  show decodeAm (bits (o.enc 34) 26 20) _ _ = _
  rw [h1]
  exact congrArg (Option.map Instr.amominD) (o.dec_enc 34 (by decide))

theorem amomaxW (o : OLd) : Statement (.amomaxW o) := by
  obtain ⟨_, h1, h2, _, _, _, _⟩ := o.enc_fields 35 (by decide)
  refine of (ix := o.ix) 26 20 rfl h1 (by decide) h2 ?_
  show decodeAm (bits (o.enc 35) 26 20) _ _ = _
  rw [h1]
  exact congrArg (Option.map Instr.amomaxW) (o.dec_enc 35 (by decide))

theorem amomaxD (o : OLd) : Statement (.amomaxD o) := by
  obtain ⟨_, h1, h2, _, _, _, _⟩ := o.enc_fields 36 (by decide)
  refine of (ix := o.ix) 26 20 rfl h1 (by decide) h2 ?_
  show decodeAm (bits (o.enc 36) 26 20) _ _ = _
  rw [h1]
  exact congrArg (Option.map Instr.amomaxD) (o.dec_enc 36 (by decide))

theorem amoswpW (o : OLd) : Statement (.amoswpW o) := by
  obtain ⟨_, h1, h2, _, _, _, _⟩ := o.enc_fields 37 (by decide)
  refine of (ix := o.ix) 26 20 rfl h1 (by decide) h2 ?_
  show decodeAm (bits (o.enc 37) 26 20) _ _ = _
  rw [h1]
  exact congrArg (Option.map Instr.amoswpW) (o.dec_enc 37 (by decide))

theorem amoswpD (o : OLd) : Statement (.amoswpD o) := by
  obtain ⟨_, h1, h2, _, _, _, _⟩ := o.enc_fields 38 (by decide)
  refine of (ix := o.ix) 26 20 rfl h1 (by decide) h2 ?_
  show decodeAm (bits (o.enc 38) 26 20) _ _ = _
  rw [h1]
  exact congrArg (Option.map Instr.amoswpD) (o.dec_enc 38 (by decide))

theorem casW (o : OLd) : Statement (.casW o) := by
  obtain ⟨_, h1, h2, _, _, _, _⟩ := o.enc_fields 39 (by decide)
  refine of (ix := o.ix) 26 20 rfl h1 (by decide) h2 ?_
  show decodeAm (bits (o.enc 39) 26 20) _ _ = _
  rw [h1]
  exact congrArg (Option.map Instr.casW) (o.dec_enc 39 (by decide))

theorem casD (o : OLd) : Statement (.casD o) := by
  obtain ⟨_, h1, h2, _, _, _, _⟩ := o.enc_fields 40 (by decide)
  refine of (ix := o.ix) 26 20 rfl h1 (by decide) h2 ?_
  show decodeAm (bits (o.enc 40) 26 20) _ _ = _
  rw [h1]
  exact congrArg (Option.map Instr.casD) (o.dec_enc 40 (by decide))

theorem pfd (o : OPfd) : Statement (.pfd o) := by
  obtain ⟨_, h1, h2, _, _, _, _, _⟩ := o.enc_fields 41 (by decide)
  refine of (ix := o.ix) 26 20 rfl h1 (by decide) h2 ?_
  show decodeAm (bits (o.enc 41) 26 20) _ _ = _
  rw [h1]
  exact congrArg (Option.map Instr.pfd) (o.dec_enc 41 (by decide))

theorem cbo (o : OCbo) : Statement (.cbo o) := by
  obtain ⟨_, h1, h2, _, _, _, _, _⟩ := o.enc_fields 42 (by decide)
  refine of (ix := o.ix) 26 20 rfl h1 (by decide) h2 ?_
  show decodeAm (bits (o.enc 42) 26 20) _ _ = _
  rw [h1]
  exact congrArg (Option.map Instr.cbo) (o.dec_enc 42 (by decide))

theorem csrr (o : OCsrr) : Statement (.csrr o) := by
  obtain ⟨_, h1, h2, _, _, _⟩ := o.enc_fields 43 (by decide)
  refine of (ix := none) 26 20 rfl h1 (by decide) h2 ?_
  show decodeAm (bits (o.enc 43) 26 20) _ _ = _
  rw [h1]
  exact congrArg (Option.map Instr.csrr) (o.dec_enc 43 (by decide))

theorem csrw (o : OCsrw) : Statement (.csrw o) := by
  obtain ⟨_, h1, h2, _, _, _⟩ := o.enc_fields 44 (by decide)
  refine of (ix := o.ix) 26 20 rfl h1 (by decide) h2 ?_
  show decodeAm (bits (o.enc 44) 26 20) _ _ = _
  rw [h1]
  exact congrArg (Option.map Instr.csrw) (o.dec_enc 44 (by decide))

theorem xbc (o : OXbc) : Statement (.xbc o) := by
  obtain ⟨_, h1, h2, _, _, _, _, _⟩ := o.enc_fields 1 (by decide)
  refine of (ix := o.ix) 26 20 rfl h1 (by decide) h2 ?_
  show decodeXf (bits (o.enc 1) 26 20) _ _ = _
  rw [h1]
  exact congrArg (Option.map Instr.xbc) (o.dec_enc 1 (by decide))

theorem xin (o : OXin) : Statement (.xin o) := by
  obtain ⟨_, h1, h2, _, _, _, _, _, _⟩ := o.enc_fields 2 (by decide)
  refine of (ix := o.ix) 26 20 rfl h1 (by decide) h2 ?_
  show decodeXf (bits (o.enc 2) 26 20) _ _ = _
  rw [h1]
  exact congrArg (Option.map Instr.xin) (o.dec_enc 2 (by decide))

theorem xex (o : OXex) : Statement (.xex o) := by
  obtain ⟨_, h1, h2, _, _, _, _, _⟩ := o.enc_fields 1 (by decide)
  refine of (ix := none) 26 20 rfl h1 (by decide) h2 ?_
  show decodeXs (bits (o.enc 1) 26 20) _ _ = _
  rw [h1]
  exact congrArg (Option.map Instr.xex) (o.dec_enc 1 (by decide))

theorem xred (o : OXred) : Statement (.xred o) := by
  obtain ⟨_, h1, h2, _, _, _, _, _⟩ := o.enc_fields 2 (by decide)
  refine of (ix := none) 26 20 rfl h1 (by decide) h2 ?_
  show decodeXs (bits (o.enc 2) 26 20) _ _ = _
  rw [h1]
  exact congrArg (Option.map Instr.xred) (o.dec_enc 2 (by decide))

theorem vadd (o : OV3) : Statement (.vadd o) := by
  obtain ⟨_, h1, h2, _, _, _, _⟩ := o.enc_fields 1 (by decide)
  refine of (ix := o.ix) 27 22 rfl h1 (by decide) h2 ?_
  show decodeF (bits (o.enc 1) 27 22) _ _ = _
  rw [h1]
  exact congrArg (Option.map Instr.vadd) (o.dec_enc 1 (by decide))

theorem vsub (o : OV3) : Statement (.vsub o) := by
  obtain ⟨_, h1, h2, _, _, _, _⟩ := o.enc_fields 2 (by decide)
  refine of (ix := o.ix) 27 22 rfl h1 (by decide) h2 ?_
  show decodeF (bits (o.enc 2) 27 22) _ _ = _
  rw [h1]
  exact congrArg (Option.map Instr.vsub) (o.dec_enc 2 (by decide))

theorem vmul (o : OV3) : Statement (.vmul o) := by
  obtain ⟨_, h1, h2, _, _, _, _⟩ := o.enc_fields 3 (by decide)
  refine of (ix := o.ix) 27 22 rfl h1 (by decide) h2 ?_
  show decodeF (bits (o.enc 3) 27 22) _ _ = _
  rw [h1]
  exact congrArg (Option.map Instr.vmul) (o.dec_enc 3 (by decide))

theorem vfma (o : OV3) : Statement (.vfma o) := by
  obtain ⟨_, h1, h2, _, _, _, _⟩ := o.enc_fields 4 (by decide)
  refine of (ix := o.ix) 27 22 rfl h1 (by decide) h2 ?_
  show decodeF (bits (o.enc 4) 27 22) _ _ = _
  rw [h1]
  exact congrArg (Option.map Instr.vfma) (o.dec_enc 4 (by decide))

theorem vfms (o : OV3) : Statement (.vfms o) := by
  obtain ⟨_, h1, h2, _, _, _, _⟩ := o.enc_fields 5 (by decide)
  refine of (ix := o.ix) 27 22 rfl h1 (by decide) h2 ?_
  show decodeF (bits (o.enc 5) 27 22) _ _ = _
  rw [h1]
  exact congrArg (Option.map Instr.vfms) (o.dec_enc 5 (by decide))

theorem vmin (o : OV3) : Statement (.vmin o) := by
  obtain ⟨_, h1, h2, _, _, _, _⟩ := o.enc_fields 6 (by decide)
  refine of (ix := o.ix) 27 22 rfl h1 (by decide) h2 ?_
  show decodeF (bits (o.enc 6) 27 22) _ _ = _
  rw [h1]
  exact congrArg (Option.map Instr.vmin) (o.dec_enc 6 (by decide))

theorem vmax (o : OV3) : Statement (.vmax o) := by
  obtain ⟨_, h1, h2, _, _, _, _⟩ := o.enc_fields 7 (by decide)
  refine of (ix := o.ix) 27 22 rfl h1 (by decide) h2 ?_
  show decodeF (bits (o.enc 7) 27 22) _ _ = _
  rw [h1]
  exact congrArg (Option.map Instr.vmax) (o.dec_enc 7 (by decide))

theorem vabs (o : OV2) : Statement (.vabs o) := by
  obtain ⟨_, h1, h2, _, _, _⟩ := o.enc_fields 8 (by decide)
  refine of (ix := o.ix) 27 22 rfl h1 (by decide) h2 ?_
  show decodeF (bits (o.enc 8) 27 22) _ _ = _
  rw [h1]
  exact congrArg (Option.map Instr.vabs) (o.dec_enc 8 (by decide))

theorem vneg (o : OV2) : Statement (.vneg o) := by
  obtain ⟨_, h1, h2, _, _, _⟩ := o.enc_fields 9 (by decide)
  refine of (ix := o.ix) 27 22 rfl h1 (by decide) h2 ?_
  show decodeF (bits (o.enc 9) 27 22) _ _ = _
  rw [h1]
  exact congrArg (Option.map Instr.vneg) (o.dec_enc 9 (by decide))

theorem vrcp (o : OV2) : Statement (.vrcp o) := by
  obtain ⟨_, h1, h2, _, _, _⟩ := o.enc_fields 10 (by decide)
  refine of (ix := o.ix) 27 22 rfl h1 (by decide) h2 ?_
  show decodeF (bits (o.enc 10) 27 22) _ _ = _
  rw [h1]
  exact congrArg (Option.map Instr.vrcp) (o.dec_enc 10 (by decide))

theorem vrsq (o : OV2) : Statement (.vrsq o) := by
  obtain ⟨_, h1, h2, _, _, _⟩ := o.enc_fields 11 (by decide)
  refine of (ix := o.ix) 27 22 rfl h1 (by decide) h2 ?_
  show decodeF (bits (o.enc 11) 27 22) _ _ = _
  rw [h1]
  exact congrArg (Option.map Instr.vrsq) (o.dec_enc 11 (by decide))

theorem vlog2 (o : OV2) : Statement (.vlog2 o) := by
  obtain ⟨_, h1, h2, _, _, _⟩ := o.enc_fields 12 (by decide)
  refine of (ix := o.ix) 27 22 rfl h1 (by decide) h2 ?_
  show decodeF (bits (o.enc 12) 27 22) _ _ = _
  rw [h1]
  exact congrArg (Option.map Instr.vlog2) (o.dec_enc 12 (by decide))

theorem vexp2 (o : OVexp) : Statement (.vexp2 o) := by
  obtain ⟨_, h1, h2, _, _, _, _⟩ := o.enc_fields 13 (by decide)
  refine of (ix := some o.c) 27 22 rfl h1 (by decide) h2 ?_
  show decodeF (bits (o.enc 13) 27 22) _ _ = _
  rw [h1]
  exact congrArg (Option.map Instr.vexp2) (o.dec_enc 13 (by decide))

theorem vcvt (o : OVcvt) : Statement (.vcvt o) := by
  obtain ⟨_, h1, h2, _, _, _, _, _⟩ := o.enc_fields 14 (by decide)
  refine of (ix := o.ix) 27 22 rfl h1 (by decide) h2 ?_
  show decodeF (bits (o.enc 14) 27 22) _ _ = _
  rw [h1]
  exact congrArg (Option.map Instr.vcvt) (o.dec_enc 14 (by decide))

theorem vcmp (o : OVcmp) : Statement (.vcmp o) := by
  obtain ⟨_, h1, h2, _, _, _, _⟩ := o.enc_fields 15 (by decide)
  refine of (ix := o.ix) 27 22 rfl h1 (by decide) h2 ?_
  show decodeF (bits (o.enc 15) 27 22) _ _ = _
  rw [h1]
  exact congrArg (Option.map Instr.vcmp) (o.dec_enc 15 (by decide))

theorem vsel (o : OVsel) : Statement (.vsel o) := by
  obtain ⟨_, h1, h2, _, _, _, _, _⟩ := o.enc_fields 16 (by decide)
  refine of (ix := o.ix) 27 22 rfl h1 (by decide) h2 ?_
  show decodeF (bits (o.enc 16) 27 22) _ _ = _
  rw [h1]
  exact congrArg (Option.map Instr.vsel) (o.dec_enc 16 (by decide))

theorem viadd (o : OV3) : Statement (.viadd o) := by
  obtain ⟨_, h1, h2, _, _, _, _⟩ := o.enc_fields 17 (by decide)
  refine of (ix := o.ix) 27 22 rfl h1 (by decide) h2 ?_
  show decodeF (bits (o.enc 17) 27 22) _ _ = _
  rw [h1]
  exact congrArg (Option.map Instr.viadd) (o.dec_enc 17 (by decide))

theorem visub (o : OV3) : Statement (.visub o) := by
  obtain ⟨_, h1, h2, _, _, _, _⟩ := o.enc_fields 18 (by decide)
  refine of (ix := o.ix) 27 22 rfl h1 (by decide) h2 ?_
  show decodeF (bits (o.enc 18) 27 22) _ _ = _
  rw [h1]
  exact congrArg (Option.map Instr.visub) (o.dec_enc 18 (by decide))

theorem vimul (o : OV3) : Statement (.vimul o) := by
  obtain ⟨_, h1, h2, _, _, _, _⟩ := o.enc_fields 19 (by decide)
  refine of (ix := o.ix) 27 22 rfl h1 (by decide) h2 ?_
  show decodeF (bits (o.enc 19) 27 22) _ _ = _
  rw [h1]
  exact congrArg (Option.map Instr.vimul) (o.dec_enc 19 (by decide))

theorem vand (o : OV3) : Statement (.vand o) := by
  obtain ⟨_, h1, h2, _, _, _, _⟩ := o.enc_fields 20 (by decide)
  refine of (ix := o.ix) 27 22 rfl h1 (by decide) h2 ?_
  show decodeF (bits (o.enc 20) 27 22) _ _ = _
  rw [h1]
  exact congrArg (Option.map Instr.vand) (o.dec_enc 20 (by decide))

theorem vor (o : OV3) : Statement (.vor o) := by
  obtain ⟨_, h1, h2, _, _, _, _⟩ := o.enc_fields 21 (by decide)
  refine of (ix := o.ix) 27 22 rfl h1 (by decide) h2 ?_
  show decodeF (bits (o.enc 21) 27 22) _ _ = _
  rw [h1]
  exact congrArg (Option.map Instr.vor) (o.dec_enc 21 (by decide))

theorem vxor (o : OV3) : Statement (.vxor o) := by
  obtain ⟨_, h1, h2, _, _, _, _⟩ := o.enc_fields 22 (by decide)
  refine of (ix := o.ix) 27 22 rfl h1 (by decide) h2 ?_
  show decodeF (bits (o.enc 22) 27 22) _ _ = _
  rw [h1]
  exact congrArg (Option.map Instr.vxor) (o.dec_enc 22 (by decide))

theorem vshl (o : OV3) : Statement (.vshl o) := by
  obtain ⟨_, h1, h2, _, _, _, _⟩ := o.enc_fields 23 (by decide)
  refine of (ix := o.ix) 27 22 rfl h1 (by decide) h2 ?_
  show decodeF (bits (o.enc 23) 27 22) _ _ = _
  rw [h1]
  exact congrArg (Option.map Instr.vshl) (o.dec_enc 23 (by decide))

theorem vshr (o : OV3) : Statement (.vshr o) := by
  obtain ⟨_, h1, h2, _, _, _, _⟩ := o.enc_fields 24 (by decide)
  refine of (ix := o.ix) 27 22 rfl h1 (by decide) h2 ?_
  show decodeF (bits (o.enc 24) 27 22) _ _ = _
  rw [h1]
  exact congrArg (Option.map Instr.vshr) (o.dec_enc 24 (by decide))

theorem vsra (o : OV3) : Statement (.vsra o) := by
  obtain ⟨_, h1, h2, _, _, _, _⟩ := o.enc_fields 25 (by decide)
  refine of (ix := o.ix) 27 22 rfl h1 (by decide) h2 ?_
  show decodeF (bits (o.enc 25) 27 22) _ _ = _
  rw [h1]
  exact congrArg (Option.map Instr.vsra) (o.dec_enc 25 (by decide))

theorem vimin (o : OV3) : Statement (.vimin o) := by
  obtain ⟨_, h1, h2, _, _, _, _⟩ := o.enc_fields 26 (by decide)
  refine of (ix := o.ix) 27 22 rfl h1 (by decide) h2 ?_
  show decodeF (bits (o.enc 26) 27 22) _ _ = _
  rw [h1]
  exact congrArg (Option.map Instr.vimin) (o.dec_enc 26 (by decide))

theorem vimax (o : OV3) : Statement (.vimax o) := by
  obtain ⟨_, h1, h2, _, _, _, _⟩ := o.enc_fields 27 (by decide)
  refine of (ix := o.ix) 27 22 rfl h1 (by decide) h2 ?_
  show decodeF (bits (o.enc 27) 27 22) _ _ = _
  rw [h1]
  exact congrArg (Option.map Instr.vimax) (o.dec_enc 27 (by decide))

theorem vmov (o : OVmov) : Statement (.vmov o) := by
  obtain ⟨_, h1, h2, _, _, _⟩ := o.enc_fields 28 (by decide)
  refine of (ix := none) 27 22 rfl h1 (by decide) h2 ?_
  show decodeF (bits (o.enc 28) 27 22) _ _ = _
  rw [h1]
  exact congrArg (Option.map Instr.vmov) (o.dec_enc 28 (by decide))

theorem vmovi (o : OV2) : Statement (.vmovi o) := by
  obtain ⟨_, h1, h2, _, _, _⟩ := o.enc_fields 29 (by decide)
  refine of (ix := o.ix) 27 22 rfl h1 (by decide) h2 ?_
  show decodeF (bits (o.enc 29) 27 22) _ _ = _
  rw [h1]
  exact congrArg (Option.map Instr.vmovi) (o.dec_enc 29 (by decide))

theorem vshf (o : OV3) : Statement (.vshf o) := by
  obtain ⟨_, h1, h2, _, _, _, _⟩ := o.enc_fields 30 (by decide)
  refine of (ix := o.ix) 27 22 rfl h1 (by decide) h2 ?_
  show decodeF (bits (o.enc 30) 27 22) _ _ = _
  rw [h1]
  exact congrArg (Option.map Instr.vshf) (o.dec_enc 30 (by decide))

theorem vred (o : OVred) : Statement (.vred o) := by
  obtain ⟨_, h1, h2, _, _, _, _⟩ := o.enc_fields 31 (by decide)
  refine of (ix := none) 27 22 rfl h1 (by decide) h2 ?_
  show decodeF (bits (o.enc 31) 27 22) _ _ = _
  rw [h1]
  exact congrArg (Option.map Instr.vred) (o.dec_enc 31 (by decide))

theorem vscan (o : OVred) : Statement (.vscan o) := by
  obtain ⟨_, h1, h2, _, _, _, _⟩ := o.enc_fields 32 (by decide)
  refine of (ix := none) 27 22 rfl h1 (by decide) h2 ?_
  show decodeF (bits (o.enc 32) 27 22) _ _ = _
  rw [h1]
  exact congrArg (Option.map Instr.vscan) (o.dec_enc 32 (by decide))

theorem vdot (o : OVdot) : Statement (.vdot o) := by
  obtain ⟨_, h1, h2, _, _, _, _⟩ := o.enc_fields 33 (by decide)
  refine of (ix := o.ix) 27 22 rfl h1 (by decide) h2 ?_
  show decodeF (bits (o.enc 33) 27 22) _ _ = _
  rw [h1]
  exact congrArg (Option.map Instr.vdot) (o.dec_enc 33 (by decide))

theorem vcopy (o : OVcopy) : Statement (.vcopy o) := by
  obtain ⟨_, h1, h2, _, _, _, _⟩ := o.enc_fields 34 (by decide)
  refine of (ix := none) 27 22 rfl h1 (by decide) h2 ?_
  show decodeF (bits (o.enc 34) 27 22) _ _ = _
  rw [h1]
  exact congrArg (Option.map Instr.vcopy) (o.dec_enc 34 (by decide))

theorem vld (o : OVmem) : Statement (.vld o) := by
  obtain ⟨_, h1, h2, _, _, _, _, _⟩ := o.enc_fields 35 (by decide)
  refine of (ix := o.ix) 27 22 rfl h1 (by decide) h2 ?_
  show decodeF (bits (o.enc 35) 27 22) _ _ = _
  rw [h1]
  exact congrArg (Option.map Instr.vld) (o.dec_enc 35 (by decide))

theorem vst (o : OVmem) : Statement (.vst o) := by
  obtain ⟨_, h1, h2, _, _, _, _, _⟩ := o.enc_fields 36 (by decide)
  refine of (ix := o.ix) 27 22 rfl h1 (by decide) h2 ?_
  show decodeF (bits (o.enc 36) 27 22) _ _ = _
  rw [h1]
  exact congrArg (Option.map Instr.vst) (o.dec_enc 36 (by decide))

theorem vgth (o : OVgs) : Statement (.vgth o) := by
  obtain ⟨_, h1, h2, _, _, _, _, _, _⟩ := o.enc_fields 37 (by decide)
  refine of (ix := none) 27 22 rfl h1 (by decide) h2 ?_
  show decodeF (bits (o.enc 37) 27 22) _ _ = _
  rw [h1]
  exact congrArg (Option.map Instr.vgth) (o.dec_enc 37 (by decide))

theorem vsct (o : OVgs) : Statement (.vsct o) := by
  obtain ⟨_, h1, h2, _, _, _, _, _, _⟩ := o.enc_fields 38 (by decide)
  refine of (ix := none) 27 22 rfl h1 (by decide) h2 ?_
  show decodeF (bits (o.enc 38) 27 22) _ _ = _
  rw [h1]
  exact congrArg (Option.map Instr.vsct) (o.dec_enc 38 (by decide))

theorem vldt (o : OVldt) : Statement (.vldt o) := by
  obtain ⟨_, h1, h2, _, _, _, _, _, _⟩ := o.enc_fields 39 (by decide)
  refine of (ix := o.ix) 27 22 rfl h1 (by decide) h2 ?_
  show decodeF (bits (o.enc 39) 27 22) _ _ = _
  rw [h1]
  exact congrArg (Option.map Instr.vldt) (o.dec_enc 39 (by decide))

theorem vstt (o : OVstt) : Statement (.vstt o) := by
  obtain ⟨_, h1, h2, _, _, _, _, _⟩ := o.enc_fields 40 (by decide)
  refine of (ix := o.ix) 27 22 rfl h1 (by decide) h2 ?_
  show decodeF (bits (o.enc 40) 27 22) _ _ = _
  rw [h1]
  exact congrArg (Option.map Instr.vstt) (o.dec_enc 40 (by decide))

theorem qlog (o : OQlog) : Statement (.qlog o) := by
  obtain ⟨_, h1, h2, _, _, _, _⟩ := o.enc_fields 41 (by decide)
  refine of (ix := none) 27 22 rfl h1 (by decide) h2 ?_
  show decodeF (bits (o.enc 41) 27 22) _ _ = _
  rw [h1]
  exact congrArg (Option.map Instr.qlog) (o.dec_enc 41 (by decide))

theorem dset (o : ODset) : Statement (.dset o) := by
  obtain ⟨_, h1, h2, _, _, _, _⟩ := o.enc_fields 48 (by decide)
  refine of (ix := o.ix) 27 22 rfl h1 (by decide) h2 ?_
  show decodeF (bits (o.enc 48) 27 22) _ _ = _
  rw [h1]
  exact congrArg (Option.map Instr.dset) (o.dec_enc 48 (by decide))

theorem dsmp (o : ODsmp) : Statement (.dsmp o) := by
  obtain ⟨_, h1, h2, _, _, _, _⟩ := o.enc_fields 49 (by decide)
  refine of (ix := none) 27 22 rfl h1 (by decide) h2 ?_
  show decodeF (bits (o.enc 49) 27 22) _ _ = _
  rw [h1]
  exact congrArg (Option.map Instr.dsmp) (o.dec_enc 49 (by decide))

theorem dld (o : ODmem) : Statement (.dld o) := by
  obtain ⟨_, h1, h2, _, _, _, _, _, _⟩ := o.enc_fields 50 (by decide)
  refine of (ix := o.ix) 27 22 rfl h1 (by decide) h2 ?_
  show decodeF (bits (o.enc 50) 27 22) _ _ = _
  rw [h1]
  exact congrArg (Option.map Instr.dld) (o.dec_enc 50 (by decide))

theorem dst (o : ODmem) : Statement (.dst o) := by
  obtain ⟨_, h1, h2, _, _, _, _, _, _⟩ := o.enc_fields 51 (by decide)
  refine of (ix := o.ix) 27 22 rfl h1 (by decide) h2 ?_
  show decodeF (bits (o.enc 51) 27 22) _ _ = _
  rw [h1]
  exact congrArg (Option.map Instr.dst) (o.dec_enc 51 (by decide))

theorem dadd (o : ODbin) : Statement (.dadd o) := by
  obtain ⟨_, h1, h2, _, _, _, _⟩ := o.enc_fields 52 (by decide)
  refine of (ix := none) 27 22 rfl h1 (by decide) h2 ?_
  show decodeF (bits (o.enc 52) 27 22) _ _ = _
  rw [h1]
  exact congrArg (Option.map Instr.dadd) (o.dec_enc 52 (by decide))

theorem dsub (o : ODbin) : Statement (.dsub o) := by
  obtain ⟨_, h1, h2, _, _, _, _⟩ := o.enc_fields 53 (by decide)
  refine of (ix := none) 27 22 rfl h1 (by decide) h2 ?_
  show decodeF (bits (o.enc 53) 27 22) _ _ = _
  rw [h1]
  exact congrArg (Option.map Instr.dsub) (o.dec_enc 53 (by decide))

theorem dmul (o : ODbin) : Statement (.dmul o) := by
  obtain ⟨_, h1, h2, _, _, _, _⟩ := o.enc_fields 54 (by decide)
  refine of (ix := none) 27 22 rfl h1 (by decide) h2 ?_
  show decodeF (bits (o.enc 54) 27 22) _ _ = _
  rw [h1]
  exact congrArg (Option.map Instr.dmul) (o.dec_enc 54 (by decide))

theorem dmin (o : ODbin) : Statement (.dmin o) := by
  obtain ⟨_, h1, h2, _, _, _, _⟩ := o.enc_fields 55 (by decide)
  refine of (ix := none) 27 22 rfl h1 (by decide) h2 ?_
  show decodeF (bits (o.enc 55) 27 22) _ _ = _
  rw [h1]
  exact congrArg (Option.map Instr.dmin) (o.dec_enc 55 (by decide))

theorem dmax (o : ODbin) : Statement (.dmax o) := by
  obtain ⟨_, h1, h2, _, _, _, _⟩ := o.enc_fields 56 (by decide)
  refine of (ix := none) 27 22 rfl h1 (by decide) h2 ?_
  show decodeF (bits (o.enc 56) 27 22) _ _ = _
  rw [h1]
  exact congrArg (Option.map Instr.dmax) (o.dec_enc 56 (by decide))

theorem daff (o : ODaff) : Statement (.daff o) := by
  obtain ⟨_, h1, h2, _, _, _, _, _⟩ := o.enc_fields 57 (by decide)
  refine of (ix := o.ix) 27 22 rfl h1 (by decide) h2 ?_
  show decodeF (bits (o.enc 57) 27 22) _ _ = _
  rw [h1]
  exact congrArg (Option.map Instr.daff) (o.dec_enc 57 (by decide))

theorem dmix (o : ODmix) : Statement (.dmix o) := by
  obtain ⟨_, h1, h2, _, _, _, _, _⟩ := o.enc_fields 58 (by decide)
  refine of (ix := o.ix) 27 22 rfl h1 (by decide) h2 ?_
  show decodeF (bits (o.enc 58) 27 22) _ _ = _
  rw [h1]
  exact congrArg (Option.map Instr.dmix) (o.dec_enc 58 (by decide))

theorem dcnd (o : ODaff) : Statement (.dcnd o) := by
  obtain ⟨_, h1, h2, _, _, _, _, _⟩ := o.enc_fields 59 (by decide)
  refine of (ix := o.ix) 27 22 rfl h1 (by decide) h2 ?_
  show decodeF (bits (o.enc 59) 27 22) _ _ = _
  rw [h1]
  exact congrArg (Option.map Instr.dcnd) (o.dec_enc 59 (by decide))

theorem dmom (o : ODmom) : Statement (.dmom o) := by
  obtain ⟨_, h1, h2, _, _, _⟩ := o.enc_fields 60 (by decide)
  refine of (ix := none) 27 22 rfl h1 (by decide) h2 ?_
  show decodeF (bits (o.enc 60) 27 22) _ _ = _
  rw [h1]
  exact congrArg (Option.map Instr.dmom) (o.dec_enc 60 (by decide))

theorem dqnt (o : ODqnt) : Statement (.dqnt o) := by
  obtain ⟨_, h1, h2, _, _, _, _⟩ := o.enc_fields 61 (by decide)
  refine of (ix := o.ix) 27 22 rfl h1 (by decide) h2 ?_
  show decodeF (bits (o.enc 61) 27 22) _ _ = _
  rw [h1]
  exact congrArg (Option.map Instr.dqnt) (o.dec_enc 61 (by decide))

theorem dcdf (o : ODqnt) : Statement (.dcdf o) := by
  obtain ⟨_, h1, h2, _, _, _, _⟩ := o.enc_fields 62 (by decide)
  refine of (ix := o.ix) 27 22 rfl h1 (by decide) h2 ?_
  show decodeF (bits (o.enc 62) 27 22) _ _ = _
  rw [h1]
  exact congrArg (Option.map Instr.dcdf) (o.dec_enc 62 (by decide))

theorem dtag (o : ODtag) : Statement (.dtag o) := by
  obtain ⟨_, h1, h2, _, _⟩ := o.enc_fields 63 (by decide)
  refine of (ix := none) 27 22 rfl h1 (by decide) h2 ?_
  show decodeF (bits (o.enc 63) 27 22) _ _ = _
  rw [h1]
  exact congrArg (Option.map Instr.dtag) (o.dec_enc 63 (by decide))

theorem tld (o : OGS) : Statement (.tld o) := by
  obtain ⟨_, h1, h2, _, _⟩ := o.enc_fields 1 (by decide)
  refine of (ix := none) 26 20 rfl h1 (by decide) h2 ?_
  show decodeEt (bits (o.enc 1) 26 20) _ _ = _
  rw [h1]
  exact congrArg (Option.map Instr.tld) (o.dec_enc 1 (by decide))

theorem tst (o : OGS) : Statement (.tst o) := by
  obtain ⟨_, h1, h2, _, _⟩ := o.enc_fields 2 (by decide)
  refine of (ix := none) 26 20 rfl h1 (by decide) h2 ?_
  show decodeEt (bits (o.enc 2) 26 20) _ _ = _
  rw [h1]
  exact congrArg (Option.map Instr.tst) (o.dec_enc 2 (by decide))

theorem tgth (o : OGS) : Statement (.tgth o) := by
  obtain ⟨_, h1, h2, _, _⟩ := o.enc_fields 3 (by decide)
  refine of (ix := none) 26 20 rfl h1 (by decide) h2 ?_
  show decodeEt (bits (o.enc 3) 26 20) _ _ = _
  rw [h1]
  exact congrArg (Option.map Instr.tgth) (o.dec_enc 3 (by decide))

theorem tpick (o : ODep) : Statement (.tpick o) := by
  obtain ⟨_, h1, h2, _, _⟩ := o.enc_fields 4 (by decide)
  refine of (ix := none) 26 20 rfl h1 (by decide) h2 ?_
  show decodeEt (bits (o.enc 4) 26 20) _ _ = _
  rw [h1]
  exact congrArg (Option.map Instr.tpick) (o.dec_enc 4 (by decide))

theorem trot (o : ODep) : Statement (.trot o) := by
  obtain ⟨_, h1, h2, _, _⟩ := o.enc_fields 5 (by decide)
  refine of (ix := none) 26 20 rfl h1 (by decide) h2 ?_
  show decodeEt (bits (o.enc 5) 26 20) _ _ = _
  rw [h1]
  exact congrArg (Option.map Instr.trot) (o.dec_enc 5 (by decide))

theorem tdrop (o : ODep) : Statement (.tdrop o) := by
  obtain ⟨_, h1, h2, _, _⟩ := o.enc_fields 6 (by decide)
  refine of (ix := none) 26 20 rfl h1 (by decide) h2 ?_
  show decodeEt (bits (o.enc 6) 26 20) _ _ = _
  rw [h1]
  exact congrArg (Option.map Instr.tdrop) (o.dec_enc 6 (by decide))

theorem tmark (o : OMark) : Statement (.tmark o) := by
  obtain ⟨_, h1, h2, _, _⟩ := o.enc_fields 7 (by decide)
  refine of (ix := none) 26 20 rfl h1 (by decide) h2 ?_
  show decodeEt (bits (o.enc 7) 26 20) _ _ = _
  rw [h1]
  exact congrArg (Option.map Instr.tmark) (o.dec_enc 7 (by decide))

theorem tunwind (o : OMark) : Statement (.tunwind o) := by
  obtain ⟨_, h1, h2, _, _⟩ := o.enc_fields 8 (by decide)
  refine of (ix := none) 26 20 rfl h1 (by decide) h2 ?_
  show decodeEt (bits (o.enc 8) 26 20) _ _ = _
  rw [h1]
  exact congrArg (Option.map Instr.tunwind) (o.dec_enc 8 (by decide))

theorem tzero (o : OMake) : Statement (.tzero o) := by
  obtain ⟨_, h1, h2, _, _, _, _⟩ := o.enc_fields 9 (by decide)
  refine of (ix := none) 26 20 rfl h1 (by decide) h2 ?_
  show decodeEt (bits (o.enc 9) 26 20) _ _ = _
  rw [h1]
  exact congrArg (Option.map Instr.tzero) (o.dec_enc 9 (by decide))

theorem tfill (o : OMake) : Statement (.tfill o) := by
  obtain ⟨_, h1, h2, _, _, _, _⟩ := o.enc_fields 10 (by decide)
  refine of (ix := none) 26 20 rfl h1 (by decide) h2 ?_
  show decodeEt (bits (o.enc 10) 26 20) _ _ = _
  rw [h1]
  exact congrArg (Option.map Instr.tfill) (o.dec_enc 10 (by decide))

theorem tshape (o : OShape) : Statement (.tshape o) := by
  obtain ⟨_, h1, h2, _, _, _, _⟩ := o.enc_fields 11 (by decide)
  refine of (ix := none) 26 20 rfl h1 (by decide) h2 ?_
  show decodeEt (bits (o.enc 11) 26 20) _ _ = _
  rw [h1]
  exact congrArg (Option.map Instr.tshape) (o.dec_enc 11 (by decide))

theorem tjoin (o : OJoin) : Statement (.tjoin o) := by
  obtain ⟨_, h1, h2, _, _⟩ := o.enc_fields 12 (by decide)
  refine of (ix := none) 26 20 rfl h1 (by decide) h2 ?_
  show decodeEt (bits (o.enc 12) 26 20) _ _ = _
  rw [h1]
  exact congrArg (Option.map Instr.tjoin) (o.dec_enc 12 (by decide))

theorem tfromv (o : OFromv) : Statement (.tfromv o) := by
  obtain ⟨_, h1, h2, _, _, _, _⟩ := o.enc_fields 13 (by decide)
  refine of (ix := none) 26 20 rfl h1 (by decide) h2 ?_
  show decodeEt (bits (o.enc 13) 26 20) _ _ = _
  rw [h1]
  exact congrArg (Option.map Instr.tfromv) (o.dec_enc 13 (by decide))

theorem ttov (o : OTov) : Statement (.ttov o) := by
  obtain ⟨_, h1, h2, _, _, _, _⟩ := o.enc_fields 14 (by decide)
  refine of (ix := none) 26 20 rfl h1 (by decide) h2 ?_
  show decodeEt (bits (o.enc 14) 26 20) _ _ = _
  rw [h1]
  exact congrArg (Option.map Instr.ttov) (o.dec_enc 14 (by decide))

theorem mma (o : OG) : Statement (.mma o) := by
  obtain ⟨_, h1, h2, _⟩ := o.enc_fields 1 (by decide)
  refine of (ix := none) 26 20 rfl h1 (by decide) h2 ?_
  show decodeEm (bits (o.enc 1) 26 20) _ _ = _
  rw [h1]
  exact congrArg (Option.map Instr.mma) (o.dec_enc 1 (by decide))

theorem mmac (o : OG) : Statement (.mmac o) := by
  obtain ⟨_, h1, h2, _⟩ := o.enc_fields 2 (by decide)
  refine of (ix := none) 26 20 rfl h1 (by decide) h2 ?_
  show decodeEm (bits (o.enc 2) 26 20) _ _ = _
  rw [h1]
  exact congrArg (Option.map Instr.mmac) (o.dec_enc 2 (by decide))

theorem mmack (o : OG) : Statement (.mmack o) := by
  obtain ⟨_, h1, h2, _⟩ := o.enc_fields 3 (by decide)
  refine of (ix := none) 26 20 rfl h1 (by decide) h2 ?_
  show decodeEm (bits (o.enc 3) 26 20) _ _ = _
  rw [h1]
  exact congrArg (Option.map Instr.mmack) (o.dec_enc 3 (by decide))

theorem mmag (o : OGS) : Statement (.mmag o) := by
  obtain ⟨_, h1, h2, _, _⟩ := o.enc_fields 4 (by decide)
  refine of (ix := none) 26 20 rfl h1 (by decide) h2 ?_
  show decodeEm (bits (o.enc 4) 26 20) _ _ = _
  rw [h1]
  exact congrArg (Option.map Instr.mmag) (o.dec_enc 4 (by decide))

theorem mscl (o : OG) : Statement (.mscl o) := by
  obtain ⟨_, h1, h2, _⟩ := o.enc_fields 5 (by decide)
  refine of (ix := none) 26 20 rfl h1 (by decide) h2 ?_
  show decodeEm (bits (o.enc 5) 26 20) _ _ = _
  rw [h1]
  exact congrArg (Option.map Instr.mscl) (o.dec_enc 5 (by decide))

theorem tadd (o : OG) : Statement (.tadd o) := by
  obtain ⟨_, h1, h2, _⟩ := o.enc_fields 1 (by decide)
  refine of (ix := none) 26 20 rfl h1 (by decide) h2 ?_
  show decodeEv (bits (o.enc 1) 26 20) _ _ = _
  rw [h1]
  exact congrArg (Option.map Instr.tadd) (o.dec_enc 1 (by decide))

theorem tsub (o : OG) : Statement (.tsub o) := by
  obtain ⟨_, h1, h2, _⟩ := o.enc_fields 2 (by decide)
  refine of (ix := none) 26 20 rfl h1 (by decide) h2 ?_
  show decodeEv (bits (o.enc 2) 26 20) _ _ = _
  rw [h1]
  exact congrArg (Option.map Instr.tsub) (o.dec_enc 2 (by decide))

theorem tmul (o : OG) : Statement (.tmul o) := by
  obtain ⟨_, h1, h2, _⟩ := o.enc_fields 3 (by decide)
  refine of (ix := none) 26 20 rfl h1 (by decide) h2 ?_
  show decodeEv (bits (o.enc 3) 26 20) _ _ = _
  rw [h1]
  exact congrArg (Option.map Instr.tmul) (o.dec_enc 3 (by decide))

theorem tfma (o : OG) : Statement (.tfma o) := by
  obtain ⟨_, h1, h2, _⟩ := o.enc_fields 4 (by decide)
  refine of (ix := none) 26 20 rfl h1 (by decide) h2 ?_
  show decodeEv (bits (o.enc 4) 26 20) _ _ = _
  rw [h1]
  exact congrArg (Option.map Instr.tfma) (o.dec_enc 4 (by decide))

theorem tmaxe (o : OG) : Statement (.tmaxe o) := by
  obtain ⟨_, h1, h2, _⟩ := o.enc_fields 5 (by decide)
  refine of (ix := none) 26 20 rfl h1 (by decide) h2 ?_
  show decodeEv (bits (o.enc 5) 26 20) _ _ = _
  rw [h1]
  exact congrArg (Option.map Instr.tmaxe) (o.dec_enc 5 (by decide))

theorem tmine (o : OG) : Statement (.tmine o) := by
  obtain ⟨_, h1, h2, _⟩ := o.enc_fields 6 (by decide)
  refine of (ix := none) 26 20 rfl h1 (by decide) h2 ?_
  show decodeEv (bits (o.enc 6) 26 20) _ _ = _
  rw [h1]
  exact congrArg (Option.map Instr.tmine) (o.dec_enc 6 (by decide))

theorem texp2 (o : OG) : Statement (.texp2 o) := by
  obtain ⟨_, h1, h2, _⟩ := o.enc_fields 7 (by decide)
  refine of (ix := none) 26 20 rfl h1 (by decide) h2 ?_
  show decodeEv (bits (o.enc 7) 26 20) _ _ = _
  rw [h1]
  exact congrArg (Option.map Instr.texp2) (o.dec_enc 7 (by decide))

theorem trcp (o : OG) : Statement (.trcp o) := by
  obtain ⟨_, h1, h2, _⟩ := o.enc_fields 8 (by decide)
  refine of (ix := none) 26 20 rfl h1 (by decide) h2 ?_
  show decodeEv (bits (o.enc 8) 26 20) _ _ = _
  rw [h1]
  exact congrArg (Option.map Instr.trcp) (o.dec_enc 8 (by decide))

theorem trmax (o : OG) : Statement (.trmax o) := by
  obtain ⟨_, h1, h2, _⟩ := o.enc_fields 9 (by decide)
  refine of (ix := none) 26 20 rfl h1 (by decide) h2 ?_
  show decodeEv (bits (o.enc 9) 26 20) _ _ = _
  rw [h1]
  exact congrArg (Option.map Instr.trmax) (o.dec_enc 9 (by decide))

theorem trsum (o : OG) : Statement (.trsum o) := by
  obtain ⟨_, h1, h2, _⟩ := o.enc_fields 10 (by decide)
  refine of (ix := none) 26 20 rfl h1 (by decide) h2 ?_
  show decodeEv (bits (o.enc 10) 26 20) _ _ = _
  rw [h1]
  exact congrArg (Option.map Instr.trsum) (o.dec_enc 10 (by decide))

theorem tcsum (o : OG) : Statement (.tcsum o) := by
  obtain ⟨_, h1, h2, _⟩ := o.enc_fields 11 (by decide)
  refine of (ix := none) 26 20 rfl h1 (by decide) h2 ?_
  show decodeEv (bits (o.enc 11) 26 20) _ _ = _
  rw [h1]
  exact congrArg (Option.map Instr.tcsum) (o.dec_enc 11 (by decide))

theorem tscl (o : OG) : Statement (.tscl o) := by
  obtain ⟨_, h1, h2, _⟩ := o.enc_fields 12 (by decide)
  refine of (ix := none) 26 20 rfl h1 (by decide) h2 ?_
  show decodeEv (bits (o.enc 12) 26 20) _ _ = _
  rw [h1]
  exact congrArg (Option.map Instr.tscl) (o.dec_enc 12 (by decide))

theorem tbc (o : OShape) : Statement (.tbc o) := by
  obtain ⟨_, h1, h2, _, _, _, _⟩ := o.enc_fields 13 (by decide)
  refine of (ix := none) 26 20 rfl h1 (by decide) h2 ?_
  show decodeEv (bits (o.enc 13) 26 20) _ _ = _
  rw [h1]
  exact congrArg (Option.map Instr.tbc) (o.dec_enc 13 (by decide))

theorem tcvt (o : OTcvt) : Statement (.tcvt o) := by
  obtain ⟨_, h1, h2, _, _, _⟩ := o.enc_fields 14 (by decide)
  refine of (ix := none) 26 20 rfl h1 (by decide) h2 ?_
  show decodeEv (bits (o.enc 14) 26 20) _ _ = _
  rw [h1]
  exact congrArg (Option.map Instr.tcvt) (o.dec_enc 14 (by decide))

theorem ttrn (o : OG) : Statement (.ttrn o) := by
  obtain ⟨_, h1, h2, _⟩ := o.enc_fields 15 (by decide)
  refine of (ix := none) 26 20 rfl h1 (by decide) h2 ?_
  show decodeEv (bits (o.enc 15) 26 20) _ _ = _
  rw [h1]
  exact congrArg (Option.map Instr.ttrn) (o.dec_enc 15 (by decide))

theorem cpget (o : OGS) : Statement (.cpget o) := by
  obtain ⟨_, h1, h2, _, _⟩ := o.enc_fields 1 (by decide)
  refine of (ix := none) 26 20 rfl h1 (by decide) h2 ?_
  show decodeEc (bits (o.enc 1) 26 20) _ _ = _
  rw [h1]
  exact congrArg (Option.map Instr.cpget) (o.dec_enc 1 (by decide))

theorem cpput (o : OGS) : Statement (.cpput o) := by
  obtain ⟨_, h1, h2, _, _⟩ := o.enc_fields 2 (by decide)
  refine of (ix := none) 26 20 rfl h1 (by decide) h2 ?_
  show decodeEc (bits (o.enc 2) 26 20) _ _ = _
  rw [h1]
  exact congrArg (Option.map Instr.cpput) (o.dec_enc 2 (by decide))

theorem cpmc (o : OGS) : Statement (.cpmc o) := by
  obtain ⟨_, h1, h2, _, _⟩ := o.enc_fields 3 (by decide)
  refine of (ix := none) 26 20 rfl h1 (by decide) h2 ?_
  show decodeEc (bits (o.enc 3) 26 20) _ _ = _
  rw [h1]
  exact congrArg (Option.map Instr.cpmc) (o.dec_enc 3 (by decide))

theorem ldblk (o : OBlk) : Statement (.ldblk o) := by
  obtain ⟨_, h1, h2, _, _, _⟩ := o.enc_fields 4 (by decide)
  refine of (ix := none) 26 20 rfl h1 (by decide) h2 ?_
  show decodeEc (bits (o.enc 4) 26 20) _ _ = _
  rw [h1]
  dsimp only [decodeEc]
  exact first (o.dec_enc 4 (by decide))

theorem ldblkRel (o : OBlkRel) : Statement (.ldblkRel o) := by
  obtain ⟨h0, h1, h2, h3, h4, h5⟩ := o.enc_fields 4 (by decide)
  have hb : bits (o.enc 4) 15 4 ≠ 0 := by
    have := o.k.isLt
    have := o.g.isLt
    simp only [OBlkRel.enc, frameG, bits, boolCode_none]
    omega
  refine of (ix := none) 26 20 rfl h1 (by decide) h2 ?_
  show decodeEc (bits (o.enc 4) 26 20) _ _ = _
  rw [h1]
  dsimp only [decodeEc]
  exact second (by simp [OBlk.dec, hb]) (o.dec_enc 4 (by decide))

theorem cpsort (o : OSort) : Statement (.cpsort o) := by
  obtain ⟨_, h1, h2, _, _, _⟩ := o.enc_fields 5 (by decide)
  refine of (ix := none) 26 20 rfl h1 (by decide) h2 ?_
  show decodeEc (bits (o.enc 5) 26 20) _ _ = _
  rw [h1]
  exact congrArg (Option.map Instr.cpsort) (o.dec_enc 5 (by decide))

theorem cpfill (o : OGS) : Statement (.cpfill o) := by
  obtain ⟨_, h1, h2, _, _⟩ := o.enc_fields 6 (by decide)
  refine of (ix := none) 26 20 rfl h1 (by decide) h2 ?_
  show decodeEc (bits (o.enc 6) 26 20) _ _ = _
  rw [h1]
  exact congrArg (Option.map Instr.cpfill) (o.dec_enc 6 (by decide))

theorem kar (o : OKar) : Statement (.kar o) := by
  obtain ⟨_, h1, h2, _, _, _, _, _⟩ := o.enc_fields 1 (by decide)
  refine of (ix := none) 26 20 rfl h1 (by decide) h2 ?_
  show decodeEk (bits (o.enc 1) 26 20) _ _ = _
  rw [h1]
  exact congrArg (Option.map Instr.kar) (o.dec_enc 1 (by decide))

theorem kag (o : OKag) : Statement (.kag o) := by
  obtain ⟨_, h1, h2, _, _, _, _, _⟩ := o.enc_fields 2 (by decide)
  refine of (ix := none) 26 20 rfl h1 (by decide) h2 ?_
  show decodeEk (bits (o.enc 2) 26 20) _ _ = _
  rw [h1]
  exact congrArg (Option.map Instr.kag) (o.dec_enc 2 (by decide))

theorem krs (o : OKar) : Statement (.krs o) := by
  obtain ⟨_, h1, h2, _, _, _, _, _⟩ := o.enc_fields 3 (by decide)
  refine of (ix := none) 26 20 rfl h1 (by decide) h2 ?_
  show decodeEk (bits (o.enc 3) 26 20) _ _ = _
  rw [h1]
  exact congrArg (Option.map Instr.krs) (o.dec_enc 3 (by decide))

theorem kbc (o : OKag) : Statement (.kbc o) := by
  obtain ⟨_, h1, h2, _, _, _, _, _⟩ := o.enc_fields 4 (by decide)
  refine of (ix := none) 26 20 rfl h1 (by decide) h2 ?_
  show decodeEk (bits (o.enc 4) 26 20) _ _ = _
  rw [h1]
  exact congrArg (Option.map Instr.kbc) (o.dec_enc 4 (by decide))

theorem ksend (o : OGS) : Statement (.ksend o) := by
  obtain ⟨_, h1, h2, _, _⟩ := o.enc_fields 5 (by decide)
  refine of (ix := none) 26 20 rfl h1 (by decide) h2 ?_
  show decodeEk (bits (o.enc 5) 26 20) _ _ = _
  rw [h1]
  exact congrArg (Option.map Instr.ksend) (o.dec_enc 5 (by decide))

theorem krecv (o : OKrecv) : Statement (.krecv o) := by
  obtain ⟨_, h1, h2, _, _, _⟩ := o.enc_fields 6 (by decide)
  refine of (ix := none) 26 20 rfl h1 (by decide) h2 ?_
  show decodeEk (bits (o.enc 6) 26 20) _ _ = _
  rw [h1]
  exact congrArg (Option.map Instr.krecv) (o.dec_enc 6 (by decide))

theorem spawn (o : OKd) : Statement (.spawn o) := by
  obtain ⟨_, h1, h2, _, _, _⟩ := o.enc_fields 7 (by decide)
  refine of (ix := none) 26 20 rfl h1 (by decide) h2 ?_
  show decodeEk (bits (o.enc 7) 26 20) _ _ = _
  rw [h1]
  exact congrArg (Option.map Instr.spawn) (o.dec_enc 7 (by decide))

theorem token (o : OTok) : Statement (.token o) := by
  obtain ⟨_, h1, h2, _, _, _⟩ := o.enc_fields 8 (by decide)
  refine of (ix := none) 26 20 rfl h1 (by decide) h2 ?_
  show decodeEk (bits (o.enc 8) 26 20) _ _ = _
  rw [h1]
  exact congrArg (Option.map Instr.token) (o.dec_enc 8 (by decide))

theorem done (o : OG) : Statement (.done o) := by
  obtain ⟨_, h1, h2, _⟩ := o.enc_fields 9 (by decide)
  refine of (ix := none) 26 20 rfl h1 (by decide) h2 ?_
  show decodeEk (bits (o.enc 9) 26 20) _ _ = _
  rw [h1]
  exact congrArg (Option.map Instr.done) (o.dec_enc 9 (by decide))

theorem join (o : OJoinG) : Statement (.join o) := by
  obtain ⟨_, h1, h2, _, _⟩ := o.enc_fields 10 (by decide)
  refine of (ix := none) 26 20 rfl h1 (by decide) h2 ?_
  show decodeEk (bits (o.enc 10) 26 20) _ _ = _
  rw [h1]
  exact congrArg (Option.map Instr.join) (o.dec_enc 10 (by decide))

theorem leave (o : OG) : Statement (.leave o) := by
  obtain ⟨_, h1, h2, _⟩ := o.enc_fields 11 (by decide)
  refine of (ix := none) 26 20 rfl h1 (by decide) h2 ?_
  show decodeEk (bits (o.enc 11) 26 20) _ _ = _
  rw [h1]
  exact congrArg (Option.map Instr.leave) (o.dec_enc 11 (by decide))

theorem gbar (o : OG) : Statement (.gbar o) := by
  obtain ⟨_, h1, h2, _⟩ := o.enc_fields 12 (by decide)
  refine of (ix := none) 26 20 rfl h1 (by decide) h2 ?_
  show decodeEk (bits (o.enc 12) 26 20) _ _ = _
  rw [h1]
  exact congrArg (Option.map Instr.gbar) (o.dec_enc 12 (by decide))

theorem qres (o : OKd) : Statement (.qres o) := by
  obtain ⟨_, h1, h2, _, _, _⟩ := o.enc_fields 13 (by decide)
  refine of (ix := none) 26 20 rfl h1 (by decide) h2 ?_
  show decodeEk (bits (o.enc 13) 26 20) _ _ = _
  rw [h1]
  exact congrArg (Option.map Instr.qres) (o.dec_enc 13 (by decide))

theorem qpub (o : OG) : Statement (.qpub o) := by
  obtain ⟨_, h1, h2, _⟩ := o.enc_fields 14 (by decide)
  refine of (ix := none) 26 20 rfl h1 (by decide) h2 ?_
  show decodeEk (bits (o.enc 14) 26 20) _ _ = _
  rw [h1]
  exact congrArg (Option.map Instr.qpub) (o.dec_enc 14 (by decide))

theorem qtake (o : OKd) : Statement (.qtake o) := by
  obtain ⟨_, h1, h2, _, _, _⟩ := o.enc_fields 15 (by decide)
  refine of (ix := none) 26 20 rfl h1 (by decide) h2 ?_
  show decodeEk (bits (o.enc 15) 26 20) _ _ = _
  rw [h1]
  exact congrArg (Option.map Instr.qtake) (o.dec_enc 15 (by decide))

theorem qfree (o : OG) : Statement (.qfree o) := by
  obtain ⟨_, h1, h2, _⟩ := o.enc_fields 16 (by decide)
  refine of (ix := none) 26 20 rfl h1 (by decide) h2 ?_
  show decodeEk (bits (o.enc 16) 26 20) _ _ = _
  rw [h1]
  exact congrArg (Option.map Instr.qfree) (o.dec_enc 16 (by decide))

theorem mbeg (o : OG) : Statement (.mbeg o) := by
  obtain ⟨_, h1, h2, _⟩ := o.enc_fields 17 (by decide)
  refine of (ix := none) 26 20 rfl h1 (by decide) h2 ?_
  show decodeEk (bits (o.enc 17) 26 20) _ _ = _
  rw [h1]
  exact congrArg (Option.map Instr.mbeg) (o.dec_enc 17 (by decide))

theorem mend (o : OG) : Statement (.mend o) := by
  obtain ⟨_, h1, h2, _⟩ := o.enc_fields 18 (by decide)
  refine of (ix := none) 26 20 rfl h1 (by decide) h2 ?_
  show decodeEk (bits (o.enc 18) 26 20) _ _ = _
  rw [h1]
  exact congrArg (Option.map Instr.mend) (o.dec_enc 18 (by decide))

theorem mgrd (o : OMgrd) : Statement (.mgrd o) := by
  obtain ⟨_, h1, h2, _, _, _⟩ := o.enc_fields 19 (by decide)
  refine of (ix := none) 26 20 rfl h1 (by decide) h2 ?_
  show decodeEk (bits (o.enc 19) 26 20) _ _ = _
  rw [h1]
  exact congrArg (Option.map Instr.mgrd) (o.dec_enc 19 (by decide))

theorem tlbi (o : OTlbi) : Statement (.tlbi o) := by
  obtain ⟨_, h1, h2, _, _⟩ := o.enc_fields 20 (by decide)
  refine of (ix := none) 26 20 rfl h1 (by decide) h2 ?_
  show decodeEk (bits (o.enc 20) 26 20) _ _ = _
  rw [h1]
  exact congrArg (Option.map Instr.tlbi) (o.dec_enc 20 (by decide))

theorem flushctx (o : OG) : Statement (.flushctx o) := by
  obtain ⟨_, h1, h2, _⟩ := o.enc_fields 21 (by decide)
  refine of (ix := none) 26 20 rfl h1 (by decide) h2 ?_
  show decodeEk (bits (o.enc 21) 26 20) _ _ = _
  rw [h1]
  exact congrArg (Option.map Instr.flushctx) (o.dec_enc 21 (by decide))

theorem icinv (o : OGS) : Statement (.icinv o) := by
  obtain ⟨_, h1, h2, _, _⟩ := o.enc_fields 22 (by decide)
  refine of (ix := none) 26 20 rfl h1 (by decide) h2 ?_
  show decodeEk (bits (o.enc 22) 26 20) _ _ = _
  rw [h1]
  exact congrArg (Option.map Instr.icinv) (o.dec_enc 22 (by decide))

theorem illegalBundle : Statement (.illegalBundle) := event rfl
theorem trapDrainEnd (u : Nat) : Statement (.trapDrainEnd u) := event rfl
theorem eretDrainEnd (u : Nat) : Statement (.eretDrainEnd u) := event rfl
theorem demandFetch (u : Nat) : Statement (.demandFetch u) := event rfl
theorem icacheFill (u : Nat) : Statement (.icacheFill u) := event rfl
theorem instructionPrefetch (u : Nat) (va : VAddr) : Statement (.instructionPrefetch u va) := event rfl
theorem memoryReply (u : Nat) : Statement (.memoryReply u) := event rfl
theorem performAccess (u : Nat) : Statement (.performAccess u) := event rfl
theorem bulkElementAccess (u c e : Nat) : Statement (.bulkElementAccess u c e) := event rfl
theorem propagateWrite (w : Nat) : Statement (.propagateWrite w) := event rfl
theorem watchFire (u : Nat) : Statement (.watchFire u) := event rfl
theorem ringReserveStep (u c : Nat) : Statement (.ringReserveStep u c) := event rfl
theorem ringPublishStep (u c : Nat) : Statement (.ringPublishStep u c) := event rfl
theorem ringTakeStep (u c : Nat) : Statement (.ringTakeStep u c) := event rfl
theorem ringFreeStep (u c : Nat) : Statement (.ringFreeStep u c) := event rfl
theorem entryReady (u c : Nat) : Statement (.entryReady u c) := event rfl
theorem entryLatched (u c : Nat) : Statement (.entryLatched u c) := event rfl
theorem entrySink (u c : Nat) : Statement (.entrySink u c) := event rfl
theorem entryRise (u c : Nat) : Statement (.entryRise u c) := event rfl
theorem suspendedEntrySpill (u c : Nat) : Statement (.suspendedEntrySpill u c) := event rfl
theorem copyCommandComplete (u c : Nat) : Statement (.copyCommandComplete u c) := event rfl
theorem blockReady (u c : Nat) : Statement (.blockReady u c) := event rfl
theorem invalidationComplete (u c : Nat) : Statement (.invalidationComplete u c) := event rfl
theorem pageWalkComplete (u : Nat) : Statement (.pageWalkComplete u) := event rfl
theorem faultRecordPost (u : Nat) : Statement (.faultRecordPost u) := event rfl
theorem faultReply (u : Nat) : Statement (.faultReply u) := event rfl
theorem freezeWatchdogExpiry (u : Nat) : Statement (.freezeWatchdogExpiry u) := event rfl
theorem signatureMismatch (u : Nat) (x : W32) : Statement (.signatureMismatch u x) := event rfl
theorem containmentScrub : Statement (.containmentScrub) := event rfl
theorem patinaMeasurement (cl drift : Nat) : Statement (.patinaMeasurement cl drift) := event rfl
theorem powerClamp (on : Bool) : Statement (.powerClamp on) := event rfl
theorem dieOvertemp (die deg : Nat) : Statement (.dieOvertemp die deg) := event rfl
theorem moduleReset : Statement (.moduleReset) := event rfl
theorem hostLinkDown : Statement (.hostLinkDown) := event rfl
theorem functionLevelReset (fn : Fin 64) : Statement (.functionLevelReset fn) := event rfl
theorem hlnchWrite (fn : Fin 64) (v : W64) : Statement (.hlnchWrite fn v) := event rfl
theorem hstatNopartClear (fn : Fin 64) : Statement (.hstatNopartClear fn) := event rfl
theorem hostRegisterWrite (fn : Fin 64) (ofs : Nat) (v : W64) : Statement (.hostRegisterWrite fn ofs v) := event rfl
theorem kranumFlitReceive (link : Fin 16) (crc : Bool) : Statement (.kranumFlitReceive link crc) := event rfl
theorem linkRetryExpiry (link : Fin 16) : Statement (.linkRetryExpiry link) := event rfl
theorem fabricRequest (r : FabricReq) : Statement (.fabricRequest r) := event rfl
theorem deviceFaultSignal (dev : Nat) : Statement (.deviceFaultSignal dev) := event rfl
theorem collectiveInstanceStart (c : Nat) : Statement (.collectiveInstanceStart c) := event rfl
theorem collectiveStep (c r : Nat) : Statement (.collectiveStep c r) := event rfl
theorem collectiveStepTimeout (c r : Nat) : Statement (.collectiveStepTimeout c r) := event rfl
theorem collectiveEnd (c r : Nat) : Statement (.collectiveEnd c r) := event rfl
theorem mailboxDelivery (u c : Nat) : Statement (.mailboxDelivery u c) := event rfl
theorem tokenDelivery (u c : Nat) : Statement (.tokenDelivery u c) := event rfl
theorem nodeDoneComplete (u : Nat) : Statement (.nodeDoneComplete u) := event rfl
theorem spawnCheck (u c : Nat) : Statement (.spawnCheck u c) := event rfl
theorem barrierArrival (u c : Nat) : Statement (.barrierArrival u c) := event rfl
theorem lnchWrite (v : W64) : Statement (.lnchWrite v) := event rfl
theorem launchCheck (l : Nat) : Statement (.launchCheck l) := event rfl
theorem frameTick (p : Fin 16) : Statement (.frameTick p) := event rfl
theorem taskDispatch (core : Nat) (helper : Bool) : Statement (.taskDispatch core helper) := event rfl
theorem castIssueGroup (u : Nat) : Statement (.castIssueGroup u) := event rfl
theorem stealProbe (core : Nat) : Statement (.stealProbe core) := event rfl
theorem preemptionRequest (u : Nat) : Statement (.preemptionRequest u) := event rfl
theorem preemptionStop (u : Nat) : Statement (.preemptionStop u) := event rfl
theorem saveSlotTimeout (p : Fin 16) : Statement (.saveSlotTimeout p) := event rfl
theorem parkWake (u : Nat) : Statement (.parkWake u) := event rfl
theorem pctlApply (p : Fin 16) : Statement (.pctlApply p) := event rfl
theorem pctlRelease (p : Fin 16) : Statement (.pctlRelease p) := event rfl
theorem partitionOpComplete : Statement (.partitionOpComplete) := event rfl
theorem dbgctlHalt (n : W32) : Statement (.dbgctlHalt n) := event rfl
theorem dbgctlResume (n : W32) : Statement (.dbgctlResume n) := event rfl
theorem nkillWrite (n : W32) : Statement (.nkillWrite n) := event rfl
theorem finjWrite (v : W64) : Statement (.finjWrite v) := event rfl
theorem fseedWrite (v : W64) : Statement (.fseedWrite v) := event rfl
theorem devstLockSet : Statement (.devstLockSet) := event rfl
theorem keyInstall (asid : BitVec 8) : Statement (.keyInstall asid) := event rfl
theorem keyDestroy (asid : BitVec 8) : Statement (.keyDestroy asid) := event rfl
theorem getMeasurements : Statement (.getMeasurements) := event rfl
theorem firmwareUpdate (img : Nat) : Statement (.firmwareUpdate img) := event rfl
theorem bootStageVerify (stage hash : Nat) : Statement (.bootStageVerify stage hash) := event rfl
theorem hostLinkUp : Statement (.hostLinkUp) := event rfl
theorem kranumLinkReturn (link : Fin 16) : Statement (.kranumLinkReturn link) := event rfl
theorem powerOn : Statement (.powerOn) := event rfl

end Sys2Proof.Laws.RoundTrip
end

