-- ==== Sys2Proof/Safety.lean ====
section
/-! DEFINITION. The terms in which claims about the machine are stated: the state after one write has been issued, what an issued
syllable yields, the registers that the manual hard-wires, and the invariant of a safe run. -/

namespace Sys2Proof.Machine

/-! One more write in flight, and nothing else (R117). -/

/-- `s` with one more write in flight: to `d`, issued by the current bundle, landing `lat` bundles later. -/
def State.withWrite (s : State) (d : FDst) (lat : Nat) (v : FVal) (o : Origin) : State :=
  { s with t := { s.t with
      flights := s.t.flights ++ [{ id := s.t.seq, dst := d, iss := s.t.bidx, land := s.t.bidx + lat, val := v, org := o }]
      seq := s.t.seq + 1 } }

/-- The origin of a result of `a` under guard `g` (R299). -/
def State.org1 (s : State) (g : Fin 16) (a : Src) : Origin := (s.srcOrg a).join (s.t.porg.get g)

/-- The origin of a result of `a` and `b` under guard `g` (R299). -/
def State.org2 (s : State) (g : Fin 16) (a b : Src) : Origin := ((s.srcOrg a).join (s.srcOrg b)).join (s.t.porg.get g)

/-- An enabled two-source instruction of the register form issues one write of its destination with latency `lat`, changes
nothing else, and the value written is related to the two sources by `r`. -/
def Yields2 (i : OR3 → Instr) (lat : Nat) (r : W64 → W64 → W64 → Prop) : Prop :=
  ∀ (o : OR3) (s : State), s.on o.g = true →
    ∃ x : W64, exec (i o) s = .next (s.withWrite (Dst.flight o.d) lat (.w x) (s.org2 o.g o.a o.b)) ∧
      r (s.src o.ix o.a) (s.src o.ix o.b) x

/-- The same with one source and latency 1. -/
def Yields1 (i : OR2 → Instr) (r : W64 → W64 → Prop) : Prop :=
  ∀ (o : OR2) (s : State), s.on o.g = true →
    ∃ x : W64, exec (i o) s = .next (s.withWrite (Dst.flight o.d) 1 (.w x) (s.org1 o.g o.a)) ∧ r (s.src o.ix o.a) x

/-! How an issue attempt ends otherwise. -/

/-- The bundle being issued takes trap `code` with NEED `need`; the drain begins (R133, R134). -/
def State.takesTrap (s : State) (code need : Nat) : State :=
  { s with t := { s.t with
      run := .trapDrain { code := code, need := need, depth := s.t.stk.map.length, addr := s.t.latch.addr
                          ret := s.t.latch.addr, at_ := s.t.bidx } } }

/-- The bundle being issued does not issue, and nothing changes (R12). -/
def State.isHeld (s : State) : State := { s with t := { s.t with run := .held } }

/-- The core freezes (R235). -/
def State.freezes (s : State) (f : Freeze) : State := { s with t := { s.t with frz := some f } }

/-- A transfer to `target` is pending; it falls due after `delay` more bundles (R122). -/
def State.willGo (s : State) (delay : Nat) (target : VAddr) : State :=
  { s with t := { s.t with pend := s.t.pend ++ [{ due := s.t.bidx + delay, target := target }] } }

/-- A target that R141 admits. -/
abbrev goodTarget (x : W64) : Prop := x.toNat % 8 = 0 ∧ x.toNat < 2 ^ 57

/-- No pending transfer falls due after the same bundle (R122). -/
abbrev State.noCollision (s : State) (delay : Nat) : Prop := ∀ p ∈ s.t.pend, p.due ≠ s.t.bidx + delay

/-- `x` is the address of the bundle plus an offset in parcels, from IX where there is one (R140). -/
abbrev State.offsetTarget (s : State) {n : Nat} (ix : Option W32) (ofs : BitVec n) (x : W64) : Prop :=
  (x.toNat : Int) = (s.t.latch.addr.toNat + 8 * (match ix with | some y => y.toInt | none => ofs.toInt)) % 2 ^ 64

/-- The focus goes back from the task of an event, which `r` has in focus, to the task that had it. -/
def State.back (s r : State) : State := r.focus s.t.id.uid

/-! The syllables of a bundle (R9, R245). -/

/-- The syllables of `l` take effect one after the other, none of them stopping the bundle, and lead from `s` to `t`. -/
def runsTo : List Syl → State → State → Prop
  | [], s, t => t = s
  | x :: l, s, t => ∃ r : State,
      exec x.ins { s with t := { s.t with latch := { s.t.latch with facets := x.facets, ins := some x.ins } } } = .next r ∧
        r.stopRank = 0 ∧ runsTo l { r with fv := r.fv + 1 } t

/-! Accesses of the AM slot at their issue (R147, R163, R234, R245). -/

/-- `s` with one more program-ordered access, in its place after the earlier ones. It releases the fences that hold it and wait no
longer, whose t it takes over (R216); a tile transfer notes its pages in an open region (R302). -/
def State.withAccess (s : State) (op : AccOp) (write : Bool) (level : Level) (scope : Nat) (acq rel isLd isSt loc staged : Bool)
    (flight : Option Nat) (ps : List Piece) : State :=
  let cls : BitVec 6 := (if isLd then cLD else 0) ||| (if isSt then cST else 0)
  let t := s.t.release cls (ps.map fun p => (p.va, p.len)) loc
  { s with t := { t with
      acc := s.t.acc ++ [{ id := s.t.seq, iss := s.t.bidx, bundle := s.t.latch.addr, ins := s.t.latch.ins, note := s.t.notes op
                           root := s.t.dtroot, op := op, write := write, level := level
                           scope := scope, acq := acq, rel := rel, isLd := isLd, isSt := isSt, loc := loc
                           staged := staged, flight := flight, pieces := ps, got := [] }]
      seq := s.t.seq + 1 } }

/-- One more operation of a counter (R147). -/
def State.counts (s : State) (k : Cnt) : State := { s with t := { s.t with cnt := s.t.cnt.add k } }

/-- One translated piece. -/
def piece1 (a : W64) (size : Nat) (tr : Tr) (data : List Byte) : List Piece :=
  [{ key := 0, also := [], va := a.toNat, len := size, trs := [tr], data := data }]

/-- Nothing holds an access of `size` bytes at `a` (R147 to R149, R250). -/
abbrev State.unheld (s : State) (a : W64) (size : Nat) (cls : BitVec 6) (k : Cnt) (loc : Bool) : Prop :=
  s.t.cnt.get k < k.max ∧ s.memHeld cls [(a.toNat, size)] loc = false

/-- An address that R163 admits. -/
abbrev goodAddr (a : W64) (size : Nat) : Prop := a.toNat < 2 ^ 57 ∧ a.toNat % size = 0

/-- What an access does that does not issue: it is held, traps on its address, or freezes on its translation, in this order
(R163, R234, R235). -/
def Stops (i : Instr) (s : State) (a : W64) (size : Nat) (cls : BitVec 6) (k : Cnt) (write : Bool) (kind scope : Nat) : Prop :=
  let req : MemReq :=
    { root := s.t.dtroot, va := a.toNat, kind := kind, scope := scope, write := write, atIssue := true, bundle := s.t.latch.addr
      ins := s.t.latch.ins }
  (¬s.unheld a size cls k false → exec i s = .next s.isHeld) ∧
  (s.unheld a size cls k false → 2 ^ 57 ≤ a.toNat → exec i s = .next (s.takesTrap 0x31 0)) ∧
  (s.unheld a size cls k false → a.toNat < 2 ^ 57 → a.toNat % size ≠ 0 → exec i s = .next (s.takesTrap 0x30 0)) ∧
  (s.unheld a size cls k false → goodAddr a size → s.look a.toNat size write none = .miss →
    exec i s = .next (s.freezes (.walk req))) ∧
  (∀ c, s.unheld a size cls k false → goodAddr a size → s.look a.toNat size write none = .fault c →
    ∃ l e, exec i s = .next (s.freezes (.fault req c l e none)))

/-! Facet syllables (R180, R202, R203). -/

/-- The facets of the syllable act one after the other. -/
def State.eachFacet (s : State) (f : Fin 8 → State → State) : State := s.t.latch.facets.foldl (fun s k => f k s) s

/-- The task can issue: nothing stops it. -/
abbrev State.runs (s : State) : Prop := s.t.run = .running ∧ s.t.frz = none

/-- A facet result in the lanes of `m`, and the flags of the operation where it raises any; both land with latency `lat`. -/
def State.withLanes (s : State) (f : Fin 8) (d : VReg) (lat : Nat) (m : BitVec 16) (x : Lanes) (fl : Flags) : State :=
  let r := s.withWrite (.v f d) lat (.lanes m x) Origin.dat
  if fl = 0 then r else r.withWrite (.fsr f) lat (.w (fl.setWidth 64)) Origin.dat

/-- The flags of the lanes of `m`. -/
def flagsOf (m : BitVec 16) (fl : Fin 16 → Flags) : Flags :=
  (List.finRange 16).foldl (fun a l => if m.getLsbD l.val then a ||| fl l else a) 0

/-- The instruction `i` writes register `d` of every facet of its syllable, in the lanes of its guard mask `q`, with latency `lat`;
`r` relates facet, lane, result and flags. -/
def YieldsLanes (i : Instr) (s : State) (q : Fin 8) (d : VReg) (lat : Nat) (r : Fin 8 → Fin 16 → W32 → Flags → Prop) : Prop :=
  ∃ (x : Fin 8 → Lanes) (g : Fin 8 → Fin 16 → Flags),
    exec i s = .next (s.eachFacet fun k s' =>
      s'.withLanes k d lat (s.qreg k q 7) (x k) (flagsOf (s.qreg k q 7) (g k))) ∧
    ∀ k l, r k l ((x k).get l) (g k l)

/-- A two-source instruction on FP32 lanes. -/
def YieldsF2 (i : OV3 → Instr) (lat : Nat) (r : W32 → W32 → W32 → Flags → Prop) : Prop :=
  ∀ (o : OV3) (s : State), s.runs → YieldsLanes (i o) s o.q o.d lat fun k l x fl =>
    r ((s.fsrcF k o.ix 0 o.a).get l) ((s.fsrcF k o.ix 1 o.b).get l) x fl

/-- A one-source instruction on FP32 lanes. -/
def YieldsF1 (i : OV2 → Instr) (lat : Nat) (r : W32 → W32 → Flags → Prop) : Prop :=
  ∀ (o : OV2) (s : State), s.runs → YieldsLanes (i o) s o.q o.d lat fun k l x fl => r ((s.fsrcF k o.ix 0 o.a).get l) x fl

/-- A two-source instruction on INT32 lanes: latency 2, no flag. -/
def YieldsI2 (i : OV3 → Instr) (r : W32 → W32 → W32 → Prop) : Prop :=
  ∀ (o : OV3) (s : State), s.runs → YieldsLanes (i o) s o.q o.d 2 fun k l x fl =>
    fl = 0 ∧ r ((s.fsrcI k o.ix 0 o.a).get l) ((s.fsrcI k o.ix 1 o.b).get l) x

/-- A distribution result in the lanes of `m`, with its tag mask, its aligned bit and its flags (R342). -/
def State.withDist (s : State) (f d : Fin 8) (lat : Nat) (m : BitVec 16) (x : DReg) (fl : Flags) : State :=
  let r := s.withWrite (.d f d) lat (.dist m x) Origin.dat
  if fl = 0 then r else r.withWrite (.fsr f) lat (.w (fl.setWidth 64)) Origin.dat

/-- The tag generator of a facet steps (R336). -/
def State.stepTag (s : State) (f : Fin 8) : State :=
  { s with t := { s.t with fac := s.t.fac.set f { s.t.fac.get f with tag := (s.t.fac.get f).tag + 1 } } }

/-- The instruction `i` writes distribution register `d` of every facet, by the lanes that `r` relates to facet, lane and flags. -/
def YieldsDist (i : Instr) (s : State) (q d : Fin 8) (lat : Nat) (mask : Fin 8 → BitVec 16) (aligned : Fin 8 → Bool)
    (r : Fin 8 → Fin 16 → DLane → Flags → Prop) : Prop :=
  ∃ (x : Fin 8 → Vector DLane 16) (g : Fin 8 → Fin 16 → Flags),
    exec i s = .next (s.eachFacet fun k s' =>
      s'.withDist k d lat (s.qreg k q 7) { lanes := x k, mask := mask k, aligned := aligned k } (flagsOf (s.qreg k q 7) (g k))) ∧
    ∀ k l, r k l ((x k).get l) (g k l)

/-! Facet memory (R197 to R201). -/

/-- Nothing holds the requests of a facet syllable. -/
abbrev State.unheldLanes (s : State) (rs : List LaneReq) (cls : BitVec 6) (k : Cnt) : Prop :=
  s.t.cnt.get k < k.max ∧ s.memHeld cls (rs.map fun r => (r.va.toNat, r.len)) false = false

/-- Every address is in range and aligned, and the translations of the requests are `tr`. -/
abbrev State.goodLanes (s : State) (rs : List LaneReq) (size : Nat) (write : Bool) (need : Option Nat)
    (tr : List (LaneReq × List Tr)) : Prop :=
  (∀ r ∈ rs, goodAddr r.va size) ∧ s.lookLanes write need (sortBy (fun r => r.va.toNat) rs) = .ok tr

/-- The pages of the requests become the most recently used. -/
def State.touchLanes (s : State) (rs : List LaneReq) : State := rs.foldl (fun s r => s.touchRange r.va.toNat r.len s.t.dtroot) s

/-- What a facet access that does not issue does: it is held, or traps on the address of any enabled lane (R197). -/
def StopsLanes (i : Instr) (s : State) (rs : List LaneReq) (size : Nat) (cls : BitVec 6) (k : Cnt) : Prop :=
  (¬s.unheldLanes rs cls k → exec i s = .next s.isHeld) ∧
  (s.unheldLanes rs cls k → (∃ r ∈ rs, 2 ^ 57 ≤ r.va.toNat) → exec i s = .next (s.takesTrap 0x31 0)) ∧
  (s.unheldLanes rs cls k → (∀ r ∈ rs, r.va.toNat < 2 ^ 57) → (∃ r ∈ rs, r.va.toNat % size ≠ 0) →
    exec i s = .next (s.takesTrap 0x30 0))

/-! Engine commands at their issue (R40, R41, R50 to R56, R87). -/

/-- The stack and the counters let a syllable issue that pops `pops` entries and pushes `pushes`: no stack fault, a free bench latch
for each push, and the entries `es` that it reads are on the bench and not filling, those of its own bundle apart. -/
abbrev State.tileReady (s : State) (pops pushes : Nat) (es : List Entry) : Prop :=
  pops ≤ s.t.stk.map.length ∧
    s.t.stk.map.length - pops + pushes ≤ (if s.t.id.helper then 0 else s.t.stk.limit) ∧
    (pushes = 0 ∨ s.benchUsed + pushes ≤ 8) ∧
    ∀ e ∈ es, (e.state ≠ .filling ∨ e.iss = s.t.bidx) ∧ e.level = 0

/-- The same for a command of the engine `k`: fewer than four commands wait for that engine to latch what they read (R87). -/
abbrev State.engineReady (s : State) (k : Kind) (pops pushes : Nat) (es : List Entry) : Prop :=
  s.tileReady pops pushes es ∧
    (s.t.cmds.filter fun c => c.op.engine == k && (!c.latched && !c.reads.isEmpty)).length < 4

/-- `es` stand at depths 0, 1, … of the stack, in this order. -/
abbrev State.atTop (s : State) (es : List Entry) : Prop :=
  ∀ i : Nat, ∀ h : i < es.length, (s.t.stk.map[i]?).bind s.t.entry = some (es.get ⟨i, h⟩)

/-- The pairs of formats that a product admits (R80). -/
abbrev pairs80 (f g : Fmt) : Prop :=
  (f ∈ [Fmt.bf16, .fp16] ∧ g ∈ [Fmt.bf16, .fp16]) ∨ (f ∈ [Fmt.e4m3, .e5m2] ∧ g ∈ [Fmt.e4m3, .e5m2]) ∨
    (f ∈ [Fmt.e2m1b32, .e2m1b16] ∧ g ∈ [Fmt.e2m1b32, .e2m1b16]) ∨ (f = .int8 ∧ g = .int8)

/-- Formats of one kind, floating and not blocked, or integer (R105). -/
abbrev allFloat (fs : List Fmt) : Prop := ∀ f ∈ fs, f ∈ [Fmt.fp32, .bf16, .fp16, .e4m3, .e5m2]
abbrev allInt (fs : List Fmt) : Prop := ∀ f ∈ fs, f ∈ [Fmt.int8, .int32]

/-- A command issues that reads `es`, pops `pops` entries and pushes one. -/
def State.makes (s : State) (es : List Entry) (pops : Nat) (f : Fmt) (rows cols : Nat) (op : Nat → CmdOp) : State :=
  s.issueCmd { reads := es.map (·.id), pops := pops, push := [{ fmt := f, rows := rows, cols := cols }] } op

/-- A matrix command takes the armed inversion with it (R361). -/
def State.makesMatrix (s : State) (es : List Entry) (pops : Nat) (push : List Desc) (op : Nat → CmdOp) : State :=
  let r := s.issueCmd { reads := es.map (·.id), pops := pops, push := push, inj := s.t.armed } op
  { r with t := { r.t with finj := s.t.finj &&& ~~~BitVec.ofNat 64 (2 ^ 32) } }

/-! Commands of the EK slot at their issue (R255, R311, R317). -/

/-- A command that counts in kc takes its place; it ends staging, and releases the fences that hold an access of its own, in classes
`cls` and ranges `rs`, and wait no longer (R216). -/
def State.withEk (s : State) (op : EkOp) (level : Level) (scope : Nat) (deferred : Bool) (cls : BitVec 6 := 0)
    (rs : List (Nat × Nat) := []) : State :=
  let r := s.endStaging
  let t := r.t.release cls rs false
  { r with t := { t with
      eks := r.t.eks ++ [{ id := r.t.seq, bundle := r.t.latch.addr, ins := r.t.latch.ins, root := r.t.dtroot, grp := (s.scope .grp).1
                           op := op, level := level, scope := scope, deferred := deferred
                           status := none, waiting := false, done := [], got := [], p := t.pts, tmax := 0 }]
      cnt := { r.t.cnt with kc := r.t.cnt.kc + 1 }, seq := r.t.seq + 1 } }

/-- No fence in force holds an access of these classes. -/
abbrev State.unfenced (s : State) (cls : BitVec 6) : Prop :=
  ∀ f ∈ s.t.fences, f.done = false → f.iss < s.t.bidx → f.succ &&& cls = 0

/-- Memory at its plainest: canonical, every write visible device-wide with no narrower order kept, nothing encrypted or poisoned, no
containment copy in error, and neither containment nor the host lost. -/
abbrev State.plain (s : State) : Prop :=
  s.mem.wf = true ∧ s.mem.narrow = [] ∧ s.mem.past = [] ∧ s.mem.tags = [] ∧ s.mem.poison = [] ∧ s.ros.copies = [] ∧
    s.dev.cLost = false ∧ s.dev.hostLost = false

/-! Values of FP32 patterns (R65, R66, R72). -/

/-- The value of a finite number. -/
def Num.val (x : Num) : ℚ :=
  match x with
  | .fin neg m e => (if neg then -1 else 1) * m * 2 ^ e
  | _ => 0

def finite32 (x : W32) : Prop := ∃ neg m e, dec32 x = .fin neg m e

def val32 (x : W32) : ℚ := (dec32 x).val

/-- `x` is `z` rounded once to the nearest FP32 value, ties to even; NX says whether it is inexact, and a result too large is an
infinity with OF and NX (R72, R73). -/
def Nearest (z : ℚ) (x : W32) (fl : Flags) : Prop :=
  if |z| < 2 ^ 128 - 2 ^ 103 then
    finite32 x ∧ (∀ y, finite32 y → |val32 x - z| ≤ |val32 y - z|) ∧
      (∀ y, finite32 y → val32 y ≠ val32 x → |val32 y - z| = |val32 x - z| → x.getLsbD 0 = false) ∧
      (fl.getLsbD 0 = true ↔ val32 x ≠ z) ∧ fl.getLsbD 2 = false
  else dec32 x = .inf (decide (z < 0)) ∧ fl = fOF ||| fNX

/-! Nodes that are about to end. -/

/-- The task has sent no token: each that it holds still waits for its DONE. Only a task that has may end DONE after a kill of its
node (R273, R372). -/
def Task.unsent (t : Task) : Prop := t.told = false ∧ ∀ e ∈ t.eks, ∀ d k, e.op = .token d k → e.deferred = true

/-! What the manual hard-wires. -/

/-- s0 is 0, p0 is 1 and p1 is 0, and in every facet q0 is all ones and q1 is 0 (R18, R178). -/
def Task.hardwired (t : Task) : Prop :=
  t.s.get 0 = 0 ∧ t.p.getLsbD 0 = true ∧ t.p.getLsbD 1 = false ∧
    ∀ f : Fin 8, (t.fac.get f).q.get 0 = 0xFFFF ∧ (t.fac.get f).q.get 1 = 0

/-- The invariant of a safe run: memory is in canonical form, and every task holds the hard-wired registers. -/
def State.Ok (s : State) : Prop := s.mem.wf = true ∧ ∀ t ∈ s.tasks, t.hardwired

end Sys2Proof.Machine
end

