-- ==== Sys2Proof/Certificates/Slice0/Obligations.lean ====
section
/-! DEFINITION. The statements about the machine: what each instruction and each event does, the encoding, and the invariant of
a safe run. -/

open Sys2Proof Sys2Proof.Machine

/-- R153 with the latencies of R120. -/
def Obligations.ScalarArithmetic : Prop :=
  Yields2 .add 1 (fun a b x => x.toNat = (a.toNat + b.toNat) % 2 ^ 64) ∧
  Yields2 .sub 1 (fun a b x => (x.toNat + b.toNat) % 2 ^ 64 = a.toNat) ∧
  Yields2 .mul 3 (fun a b x => x.toNat = a.toNat * b.toNat % 2 ^ 64) ∧
  Yields2 .mulh 3 (fun a b x => x.toInt = a.toInt * b.toInt / 2 ^ 64) ∧
  Yields2 .mulhu 3 (fun a b x => x.toNat = a.toNat * b.toNat / 2 ^ 64) ∧
  Yields2 .and 1 (fun a b x => ∀ i, x.getLsbD i = (a.getLsbD i && b.getLsbD i)) ∧
  Yields2 .or 1 (fun a b x => ∀ i, x.getLsbD i = (a.getLsbD i || b.getLsbD i)) ∧
  Yields2 .xor 1 (fun a b x => ∀ i, x.getLsbD i = (a.getLsbD i != b.getLsbD i)) ∧
  Yields2 .andn 1 (fun a b x => ∀ i, x.getLsbD i = (a.getLsbD i && !b.getLsbD i)) ∧
  Yields2 .shl 1 (fun a b x => x.toNat = a.toNat * 2 ^ (b.toNat % 64) % 2 ^ 64) ∧
  Yields2 .shr 1 (fun a b x => x.toNat = a.toNat / 2 ^ (b.toNat % 64)) ∧
  Yields2 .sra 1 (fun a b x => x.toInt = a.toInt / 2 ^ (b.toNat % 64)) ∧
  Yields2 .rot 1 (fun a b x => ∀ i < 64, x.getLsbD ((i + b.toNat) % 64) = a.getLsbD i) ∧
  Yields2 .min 1 (fun a b x => x.toInt = min a.toInt b.toInt) ∧
  Yields2 .max 1 (fun a b x => x.toInt = max a.toInt b.toInt) ∧
  Yields2 .minu 1 (fun a b x => x.toNat = min a.toNat b.toNat) ∧
  Yields2 .maxu 1 (fun a b x => x.toNat = max a.toNat b.toNat)

/-- R154: division truncates toward zero, and its corners never trap. -/
def Obligations.ScalarDivision : Prop :=
  Yields2 .div 12 (fun a b x =>
    (b = 0 → x.toInt = -1) ∧ (a.toInt = -(2 ^ 63) ∧ b.toInt = -1 → x.toInt = -(2 ^ 63)) ∧
      (b ≠ 0 → ¬(a.toInt = -(2 ^ 63) ∧ b.toInt = -1) → x.toInt = a.toInt.tdiv b.toInt)) ∧
  Yields2 .divu 12 (fun a b x =>
    (b = 0 → x.toNat = 2 ^ 64 - 1) ∧ (b ≠ 0 → x.toNat = a.toNat / b.toNat)) ∧
  Yields2 .rem 12 (fun a b x =>
    (b = 0 → x = a) ∧ (a.toInt = -(2 ^ 63) ∧ b.toInt = -1 → x = 0) ∧ (b ≠ 0 → x.toInt = a.toInt.tmod b.toInt)) ∧
  Yields2 .remu 12 (fun a b x => (b = 0 → x = a) ∧ (b ≠ 0 → x.toNat = a.toNat % b.toNat))

/-- R155 to R159: counts, selection, copies, constants, staging registers, scaled addition and bit fields. -/
def Obligations.ScalarMovesAndFields : Prop :=
  (
    Yields1 .clz (fun a x => x.toNat ≤ 64 ∧ (∀ i < 64, 64 ≤ i + x.toNat → a.getLsbD i = false) ∧
      (x.toNat < 64 → a.getLsbD (63 - x.toNat) = true)) ∧
    Yields1 .ctz (fun a x => x.toNat ≤ 64 ∧ (∀ i < x.toNat, a.getLsbD i = false) ∧
      (x.toNat < 64 → a.getLsbD x.toNat = true)) ∧
    Yields1 .popc (fun a x => x.toNat = ((List.range 64).filter fun i => a.getLsbD i).length) ∧
    ∀ (o : OR3n) (s : State), s.on o.g = true →
      exec (.sel o) s = .next (s.withWrite (Dst.flight o.d) 1
        (.w (if s.on o.n then s.src o.ix o.a else s.src o.ix o.b))
        ((((s.srcOrg o.a).join (s.srcOrg o.b)).join (s.t.porg.get o.n)).join (s.t.porg.get o.g)))) ∧
  (
    Yields1 .mov (fun a x => x = a) ∧
    (∀ (o : OMovi) (s : State), s.on o.g = true →
      ∃ x : W64, exec (.movi o) s = .next (s.withWrite (Dst.flight o.d) 1 (.w x) (s.org1 o.g o.b)) ∧
        x.toNat = (s.src o.ix o.b).toNat % 2 ^ 32) ∧
    Yields2 .moviH 1 (fun a b x => x.toNat = b.toNat % 2 ^ 32 * 2 ^ 32 + a.toNat % 2 ^ 32) ∧
    (∀ (o : OStg) (s : State), s.on o.g = true →
      exec (.movStaging o) s = .next (s.withWrite (.stg o.d) 1 (.w (s.src o.ix o.a)) (s.org1 o.g o.a))) ∧
    (∀ (o : OPatch) (s : State), s.on o.g = true →
      exec (.movPatch o) s = .next (s.withWrite (.stg o.d) 1
        (.patch (s.src none o.a) o.k o.off (s.src none o.a == s.arg o.k + o.off.signExtend 64)) (s.org1 o.g o.a)))) ∧
  (
    (∀ (o : OR3n) (s : State), s.on o.g = true →
      ∃ x : W64, exec (.lea o) s = .next (s.withWrite (Dst.flight o.d) 1 (.w x) (s.org2 o.g o.a o.b)) ∧
        x.toNat = ((s.src o.ix o.a).toNat + (s.src o.ix o.b).toNat * 2 ^ o.n.val) % 2 ^ 64) ∧
    Yields2 .extZ 1 (fun a b x => ∀ i, x.getLsbD i = (decide (i < min (b.toNat % 128) 64) && a.getLsbD i)) ∧
    Yields2 .extS 1 (fun a b x => ∀ i < 64,
      x.getLsbD i = (decide (b.toNat % 128 ≠ 0) && a.getLsbD (min i (min (b.toNat % 128) 64 - 1)))) ∧
    (∀ (o : OBfx) (s : State), s.on o.g = true → 1 ≤ o.w.val →
      (∃ x : W64, exec (.bfx o) s = .next (s.withWrite (Dst.flight o.d) 1 (.w x) (s.org1 o.g o.a)) ∧
        ∀ i, x.getLsbD i = (decide (i < o.w.val) && (s.src none o.a).getLsbD (o.pos.val + i))) ∧
      (∃ x : W64, exec (.bfxS o) s = .next (s.withWrite (Dst.flight o.d) 1 (.w x) (s.org1 o.g o.a)) ∧
        ∀ i < 64, x.getLsbD i = (s.src none o.a).getLsbD (o.pos.val + min i (o.w.val - 1)))) ∧
    (∀ (o : OBfi) (s : State), s.on o.g = true →
      ∃ x : W64, exec (.bfi o) s = .next (s.withWrite (Dst.flight o.d) 1 (.w x) (s.org2 o.g o.a o.b)) ∧
        ∀ i < 64, x.getLsbD i =
          if o.pos.val ≤ i ∧ i < o.pos.val + o.w.val then (s.src none o.b).getLsbD (i - o.pos.val)
          else (s.src none o.a).getLsbD i))

/-- R160, R161 and R23: the even predicate takes the condition and the odd one its complement, in one write of the pair. -/
def Obligations.ScalarPredicates : Prop :=
  (∀ (o : OCmp) (s : State), s.on o.g = true →
    ∃ c : Bool, exec (.cmp o) s = .next (s.withWrite (.p o.pe) 1 (.pair 1 (if c then 1 else 0)) (s.org2 o.g o.a o.b)) ∧
      let a := s.src o.ix o.a
      let b := s.src o.ix o.b
      (c = true ↔ match o.c with
        | .eq => a = b
        | .ne => a ≠ b
        | .lt => a.toInt < b.toInt
        | .le => a.toInt ≤ b.toInt
        | .gt => a.toInt > b.toInt
        | .ge => a.toInt ≥ b.toInt
        | .ltu => a.toNat < b.toNat
        | .leu => a.toNat ≤ b.toNat
        | .gtu => a.toNat > b.toNat
        | .geu => a.toNat ≥ b.toNat
        | .tst => ∃ i, a.getLsbD i = true ∧ b.getLsbD i = true
        | .ntst => ∀ i, ¬(a.getLsbD i = true ∧ b.getLsbD i = true))) ∧
  (∀ (o : OPlog) (s : State), s.on o.g = true →
    ∃ c : Bool, exec (.plog o) s = .next (s.withWrite (.p o.pe) 1 (.pair 1 (if c then 1 else 0))
        (((s.t.porg.get o.pa).join (s.t.porg.get o.pb)).join (s.t.porg.get o.g))) ∧
      let a := s.on o.pa
      let b := s.on o.pb
      c = match o.op with
        | .and => a && b
        | .or => a || b
        | .xor => a != b
        | .andn => a && !b
        | .orn => a || !b
        | .nand => !(a && b)
        | .nor => !(a || b)
        | .xnor => a == b)

/-- Words written out from the encoding tables (R14, R140, R152, R162, R172, R181). -/
def Obligations.DecodeWords : Prop :=
    decodeSyl .br [0b01010000001000110110101010111100] = some (some (.brc { g := 5, ix := none, a := .byp 2, nz := true, ofs := 0x2ABC }), []) ∧
    decodeSyl .sa [0b01101010000010110100010110110000, 0x0000007F] = some (some (.bfi { g := 6, d := .s 45, a := .port 2, b := .imm 11, pos := 63, w := 1 }), []) ∧
    decodeSyl .am [0b01100000001111101100010110110011] = some (some (.ldW { g := 6, ix := none, d := .bs 3, a := .port 2, b := .imm 11, scope := .die }), []) ∧
    decodeSyl .am [0b01100010011110110100010001011001] = some (some (.casW { g := 6, ix := none, d := .s 45, a := .port 2, b := .byp 1, scope := .sys }), []) ∧
    decodeSyl .am [0b01100010101110110100001000101000] = some (some (.csrr { g := 6, d := .s 45, csr := 0x228 }), []) ∧
    decodeSyl .xs [0b01100000000110110110110001001101] = some (some (.xex { g := 6, d := .s 45, f := 5, va := .bf 2, lane := 13 }), []) ∧
    decodeSyl .xf [0b01100000001010101000100011101101] = some (some (.xin { g := 6, ix := none, f := 5, vd := .bf 2, a := .byp 3, lane := 13 }), []) ∧
    decodeSyl .f [0b01110000011000101001011110110000, 0x89ABCDEF] = some (some (.vadd { q := 3, ix := some 0x89ABCDEF, d := .bf 2, a := .ext, b := .imm 11 }), []) ∧
    decodeSyl .f [0b01101101001101010010000000000000] = some (some (.dadd { q := 3, d := 6, a := 5, b := 1 }), []) ∧
    decodeSyl .et [0b01100000000101110000000000000000] = some (some (.tld { g := 6, scope := .node }), []) ∧
    decodeSyl .em [0b10110000000100000000000000000000] = some (some (.mma { g := 11 }), []) ∧
    decodeSyl .ev [0b01100000111000000000000001000101] = some (some (.tcvt { g := 6, rm := .rs, f := .e5m2 }), []) ∧
    decodeSyl .ec [0b01100000010101110000000000000001] = some (some (.cpsort { g := 6, scope := .node, scat := true }), []) ∧
    decodeSyl .ek [0b01100000000101111011010011100100] = some (some (.kar { g := 6, scope := .node, d := 45, op := .and, e := .int32 }), [])

/-- Every well-formed instruction that has an encoding is read back from it, whatever words follow. -/
def Obligations.DecodeEncode : Prop := ∀ i : Instr, Laws.RoundTrip.Statement i

/-- The words that are read as an instruction are the words of that instruction, in the slot they stand in; SA and SB share
their encodings (R14). -/
def Obligations.EncodeDecode : Prop :=
  ∀ (k : Kind) (ws : List Nat) (i : Instr) (rest : List Nat), (∀ w ∈ ws, w < 2 ^ 32) →
    decodeSyl k ws = some (some i, rest) →
      ∃ k' pre, encode i = some (k', pre) ∧ ws = pre ++ rest ∧ (k' = k ∨ (k = .sb ∧ k' = .sa))

/-- A step at a bundle is `exec` of the instructions its words decode to, one after the other in the order of R245, on the
values its ports latch; then its writes take their places and the path goes on (R9, R122, R171). The bundle is fetched from the
pc of the task in focus, after the writes due have landed; no ICINV holds it (R146), none of its parcels comes from a poisoned line
(R378), and the device is not in recovery (R393). A bundle of one syllable that stops leaves nothing but its stop. What the step looked
up in the containment structures is then compared, and a waiting QTAKE whose slot is published takes it (R258, R379). -/
def Obligations.StepRunsDecoded : Prop :=
  ∀ (s : State) (u : Nat) (l : List Choice), s.turn = .issue u :: l → s.ros.recovery = false → s.hasTask u = true →
    let f := ({ s with turn := l } : State).focus u
    f.t.run = .running → f.coreFrozen = false → f.mustStop = false → f.t.cast = none → f.t.id.haltReq = false →
    (∀ x ∈ f.t.flights, x.val = .wait → f.t.bidx < x.land) →
    let r := f.landed
    r.t.ifenced = false →
    ∀ (hp : W64) (slots : List W64) (b : Bundle),
      r.fetchBundle r.t.pc.toNat = .ok hp slots →
      decodeBundle r.t.id.helper hp.toNat (slots.map (·.toNat)) = some b →
      r.badFetch = none →
      let c := (r.callReturn b).1
      let latch := c.latchFor b (r.callReturn b).2
      let used := (c.useLine c.t.pc.toNat).useLine ((latch.next.toNat + 2 ^ 57 - 8) % 2 ^ 57)
      let base := used.withT fun t => { t with latch := latch, ifence := [] }
      let syls := issueOrder b.syls
      let e := base.observe syls
      bundleFault e.t ((syls.filter fun x => Kind.stacked x.kind && base.on (sylGuard x.ins)).map (·.ins)) e.t.depth = none →
        (∀ t : State, runsTo syls e t →
          step s = .next (t.issued (syls.filter fun x => x.kind == .f || base.on (sylGuard x.ins))).settle) ∧
        (∀ (x : Syl) (t : State), syls = [x] →
          exec x.ins { e with t := { e.t with latch := { e.t.latch with facets := x.facets, ins := some x.ins } } } = .next t →
          t.stopRank ≠ 0 → step s =
            .next (base.stopped (syls.filter fun x => x.kind == .f || base.on (sylGuard x.ins)) { t with fv := t.fv + 1 }).settle)

/-- R36, R115: a bundle that is not legal takes trap 0x10 at its address, and none of its syllables issues; a fetch that traps does the
same with its code, 0x10 for a header that is illegal on its own. The event of an illegal bundle does so where the bundle at the pc is
one, and nothing where it is legal or where the task issues none (log entry 16). That no parcel comes from a poisoned line is assumed: such a bundle ends
its node (R378). -/
def Obligations.IllegalBundle : Prop :=
  (∀ (s : State), s.t.run = .running → s.coreFrozen = false → s.mustStop = false → s.t.cast = none → s.t.id.haltReq = false →
    (∀ x ∈ s.t.flights, x.val = .wait → s.t.bidx < x.land) →
    let r := s.landed
    r.t.ifenced = false → r.badFetch = none →
    let at_ : State := { r with t := { r.t with latch := { r.t.latch with addr := r.t.pc }, ran := [] } }
    (∀ (hp : W64) (slots : List W64), r.fetchBundle r.t.pc.toNat = .ok hp slots →
      (decodeBundle r.t.id.helper hp.toNat (slots.map (·.toNat)) = none →
        s.issue = .next (at_.takesTrap 0x10 0) ∧ exec .illegalBundle s = .next (at_.takesTrap 0x10 0)) ∧
      (∀ b, decodeBundle r.t.id.helper hp.toNat (slots.map (·.toNat)) = some b → exec .illegalBundle s = .next s)) ∧
    (∀ c, r.fetchBundle r.t.pc.toNat = .trap c → s.issue = .next (at_.takesTrap c 0))) ∧
  ∀ s : State, s.t.run ≠ .running → exec .illegalBundle s = .next s

/-- R42, R74: the machine right after reset. That memory lists nothing, so that each byte reads as 0, is this model's
choice (log entry 1), and so is a value that no rule gives (log entry 71). -/
def Obligations.ResetState : Prop :=
  let s := State.reset
  s.nodes = [] ∧ s.launches = [] ∧ (∀ p : Fin 16, (s.parts.get p).inUse = false) ∧ s.mem.cells = [] ∧
    (∀ i : Fin 56, s.t.s.get i = 0) ∧ s.t.p = 1 ∧ (∀ i : Fin 40, s.t.stg.get i = 0) ∧ s.t.stk.map = [] ∧ s.t.stk.res = 8 ∧
    s.t.cnt = { ld := 0, st := 0, cp := 0, tl := 0, kc := 0 } ∧ s.t.fp.fstat = 0 ∧ s.t.fp.fctl = 0 ∧
    (∀ f : Fin 8, (s.t.fac.get f).q.get 0 = 0xFFFF ∧ (s.t.fac.get f).fsr = 0 ∧ (s.t.fac.get f).fcr = false ∧
      ∀ i : Fin 8, ((s.t.fac.get f).d.get i).mask = 0) ∧
    (∀ g : Fin 256, (s.t.fp.gens.get g) =
      let x := (0 : W32) ^^^ BitVec.ofNat 32 ((g.val + 1) * 0x9E3779B9)
      if x = 0 then 1 else x)

/-- The state after reset meets the invariant. -/
def Obligations.ResetOk : Prop := State.Ok State.reset

/-- Every step keeps memory in canonical form and the hard-wired registers at their values. -/
def Obligations.StepKeepsOk : Prop := ∀ s s' : State, s.Ok → step s = .next s' → s'.Ok

/-- R118, R121 and R19: of the writes of a register that land by bundle `b`, the value of the latest scheduled landing stands, and of the same
landing that of the later bundle; a register that none lands in keeps its value, and so does s0. A bypass is readable in its landing
bundle and the next two, and reads zero after them. -/
def Obligations.Landing : Prop :=
  (
    (∀ (t : Task) (b : Nat) (i : Fin 56) (x : W64) (pre post : List Flight) (fl : Flight),
      t.flights = pre ++ fl :: post → fl.dst = .s i → i ≠ 0 → fl.val = .w x → fl.land ≤ b →
      (∀ g ∈ pre, g.dst = .s i → g.val ≠ .wait → g.land ≤ b → g.land ≤ fl.land) →
      (∀ g ∈ post, g.dst = .s i → g.val ≠ .wait → g.land ≤ b → g.land < fl.land) →
      (t.landTo b).s.get i = x) ∧
    (∀ (t : Task) (b : Nat) (i : Fin 56),
      (i = 0 ∨ ∀ g ∈ t.flights, g.dst = .s i → g.val = .wait ∨ b < g.land) → (t.landTo b).s.get i = t.s.get i) ∧
    (∀ (t : Task) (b : Nat) (fl : Flight), fl ∈ (t.landTo b).flights ↔ fl ∈ t.flights ∧ (b < fl.land ∨ fl.val = .wait))) ∧
  (
    ∀ (s : State) (i : Fin 4) (x : W64) (fl : Flight), s.t.flights = [fl] → fl.dst = .bs i → fl.val = .w x →
      ∀ b : Nat, fl.land ≤ b →
        (({ s with t := { s.t.landTo b with bidx := b } } : State).src none (.byp i) =
          if b < fl.land + 3 then x else 0) ∧
        ∀ j : Fin 4, j ≠ i → ((s.t.landTo b).bs.get j) = s.t.bs.get j)

/-- R22: a syllable whose guard is false has no effect, the facets' apart, whose guard is a mask. -/
def Obligations.GuardOff : Prop :=
  ∀ (i : Instr) (k : Kind) (ws : List Nat) (s : State), i.wf = true → encode i = some (k, ws) → k ≠ .f →
    s.on (sylGuard i) = false → exec i s = .next s

/-- R122, R124, R140 to R144: a transfer that is taken is pending until its delay bundles have issued, or traps on its target or a collision,
the target first (this order is the choice of the model, log entry 75); one that is not taken changes nothing. -/
def Obligations.TransferIssue : Prop :=
  (
    (∀ (o : OBr) (s : State) (x : W64), s.on o.g = true → s.offsetTarget o.ix o.ofs x → goodTarget x →
      (s.noCollision 2 → exec (.br o) s = .next (s.willGo 2 (x.setWidth 57))) ∧
      (s.noCollision 3 → exec (.call o) s = .next ((s.willGo 3 (x.setWidth 57)).withWrite (.s 54) 1
        (.w (s.t.latch.ret.setWidth 64)) (Origin.none.join (s.t.porg.get o.g))))) ∧
    (∀ (o : OBrc) (s : State) (x : W64), s.on o.g = true → s.offsetTarget o.ix o.ofs x →
      ((o.nz = true ↔ s.src o.ix o.a ≠ 0) → goodTarget x → s.noCollision 2 →
        exec (.brc o) s = .next (s.willGo 2 (x.setWidth 57))) ∧
      (¬(o.nz = true ↔ s.src o.ix o.a ≠ 0) → exec (.brc o) s = .next s)) ∧
    (∀ (o : OBrq) (s : State) (x : W64), s.on o.g = true → s.offsetTarget o.ix o.ofs x →
      let c := s.qreg o.f o.qc 0
      let e := s.qreg o.f o.qe 1
      ((∀ l, e.getLsbD l = true → c.getLsbD l = true) → goodTarget x → s.noCollision 2 →
        exec (.brq o) s = .next (s.willGo 2 (x.setWidth 57))) ∧
      ((∃ l, e.getLsbD l = true) → (∀ l, e.getLsbD l = true → c.getLsbD l = false) → exec (.brq o) s = .next s) ∧
      ((∃ l, e.getLsbD l = true ∧ c.getLsbD l = true) → (∃ l, e.getLsbD l = true ∧ c.getLsbD l = false) →
        exec (.brq o) s = .next (s.takesTrap 0x12 0))) ∧
    (∀ (o : OBrA) (s : State), s.on o.g = true → goodTarget (s.src none o.a) →
      (s.noCollision 2 → exec (.jmpi o) s = .next (s.willGo 2 ((s.src none o.a).setWidth 57))) ∧
      (s.noCollision 3 → exec (.ret o) s = .next (s.willGo 3 ((s.src none o.a).setWidth 57))) ∧
      (s.noCollision 3 → exec (.calli o) s = .next ((s.willGo 3 ((s.src none o.a).setWidth 57)).withWrite (.s 54) 1
        (.w (s.t.latch.ret.setWidth 64)) (Origin.none.join (s.t.porg.get o.g))))) ∧
    (∀ (o : OLoop) (s : State) (x n : W64), s.on o.g = true → o.c.val < 56 → s.offsetTarget o.ix o.ofs x →
      n.toNat = ((s.entryVal o.c.val).toNat + 2 ^ 64 - 1) % 2 ^ 64 →
      let counted (s : State) : State := s.withWrite (.s (Fin.ofNat 56 o.c.val)) 1 (.w n)
        ((s.entryOrg o.c.val).join (s.t.porg.get o.g))
      (n = 0 → exec (.loop o) s = .next (counted s)) ∧
      (n ≠ 0 → goodTarget x → s.noCollision 2 → exec (.loop o) s = .next (counted (s.willGo 2 (x.setWidth 57)))))) ∧
  (
    ∀ (s : State) (x : W64),
      (∀ (o : OBr), s.on o.g = true → s.offsetTarget o.ix o.ofs x →
        (¬goodTarget x → exec (.br o) s = .next (s.takesTrap 0x15 0) ∧ exec (.call o) s = .next (s.takesTrap 0x15 0)) ∧
        (goodTarget x → ¬s.noCollision 2 → exec (.br o) s = .next (s.takesTrap 0x11 0)) ∧
        (goodTarget x → ¬s.noCollision 3 → exec (.call o) s = .next (s.takesTrap 0x11 0))) ∧
      (∀ (o : OBrc), s.on o.g = true → s.offsetTarget o.ix o.ofs x → (o.nz = true ↔ s.src o.ix o.a ≠ 0) →
        (¬goodTarget x → exec (.brc o) s = .next (s.takesTrap 0x15 0)) ∧
        (goodTarget x → ¬s.noCollision 2 → exec (.brc o) s = .next (s.takesTrap 0x11 0))) ∧
      (∀ (o : OBrq), s.on o.g = true → s.offsetTarget o.ix o.ofs x →
        (∀ l, (s.qreg o.f o.qe 1).getLsbD l = true → (s.qreg o.f o.qc 0).getLsbD l = true) →
        (¬goodTarget x → exec (.brq o) s = .next (s.takesTrap 0x15 0)) ∧
        (goodTarget x → ¬s.noCollision 2 → exec (.brq o) s = .next (s.takesTrap 0x11 0))) ∧
      (∀ (o : OBrA), s.on o.g = true → s.src none o.a = x →
        (¬goodTarget x → ∀ i ∈ [Instr.jmpi o, .calli o, .ret o], exec i s = .next (s.takesTrap 0x15 0)) ∧
        (goodTarget x → ¬s.noCollision 2 → exec (.jmpi o) s = .next (s.takesTrap 0x11 0)) ∧
        (goodTarget x → ¬s.noCollision 3 → ∀ i ∈ [Instr.calli o, .ret o], exec i s = .next (s.takesTrap 0x11 0))) ∧
      (∀ (o : OLoop), s.on o.g = true → s.offsetTarget o.ix o.ofs x → s.entryVal o.c.val ≠ 1 →
        (¬goodTarget x → exec (.loop o) s = .next (s.takesTrap 0x15 0)) ∧
        (goodTarget x → ¬s.noCollision 2 → exec (.loop o) s = .next (s.takesTrap 0x11 0))))

/-- R133, R136, R145: TRAP and BRK issue in full before their trap drains; ERET drains inside a routine and traps outside one or beside a
pending transfer. At the end of its drain the bypasses and pending transfers of the record come back, INTRAP falls, and the task
resumes at trret. -/
def Obligations.TrapBrkEret : Prop :=
  (
    ∀ (o : OG) (s : State), s.on o.g = true →
      let after (code : Nat) : State := { s with t := { s.t with
        run := .trapDrain { code := code, need := 0, depth := s.t.stk.map.length, addr := s.t.latch.addr
                            ret := s.t.latch.next, at_ := s.t.bidx + 1 } } }
      exec (.trap o) s = .next (after 0x18) ∧
      (s.t.id.debug = false → exec (.brk o) s = .next (after 0x19)) ∧
      (s.t.id.debug = true → s.part.stall = false → exec (.brk o) s = .next { s with t := { s.t with run := .halted } }) ∧
      (s.t.trap.intrap = true → s.t.pend = [] → exec (.eret o) s = .next { s with t := { s.t with run := .eretDrain } }) ∧
      (s.t.trap.intrap = true → s.t.pend ≠ [] → exec (.eret o) s = .next (s.takesTrap 0x11 0)) ∧
      (s.t.trap.intrap = false → exec (.eret o) s = .next (s.takesTrap 0x13 0))) ∧
  (
    ∀ (s : State) (u : Nat), s.hasTask u = true →
      let f := s.focus u
      f.t.run = .eretDrain → f.t.acc = [] → f.t.cmds = [] → f.t.eks = [] → f.coreFrozen = false →
        ∃ t : Task, exec (.eretDrainEnd u) s = .next (({ f with t := t } : State).focus s.t.id.uid) ∧
          t.run = .running ∧ t.pc = f.t.trap.ret ∧ t.trap = { f.t.trap with intrap := false } ∧
          t.s = f.t.landAll.s ∧ t.p = f.t.landAll.p ∧ t.stk = f.t.landAll.stk ∧
          (∀ i : Fin 4, (t.bs.get i).val = f.t.trap.bs.get i ∧
            (t.bs.get i).born = t.bidx + f.t.trap.bl.toNat / 2 ^ (6 * i.val + 2) % 16 ∧
            (t.bs.get i).stop = (t.bs.get i).born + f.t.trap.bl.toNat / 2 ^ (6 * i.val) % 4) ∧
          (∀ x : W64, x ∈ f.t.trap.pt.toList → x.getLsbD 63 = true →
            { due := t.bidx + x.toNat / 2 ^ 60 % 4 - 1, target := x.setWidth 57 } ∈ t.pend))

/-- R133, R134, R136: the end of the drain of a trap. The record takes the cause, the depth count, the two addresses, the bypasses and the
pending transfers; those are cleared, and the task runs at its trap routine. A trap inside a trap routine, or of a task whose node
names none, ends its node TRAPPED; no routine is entered. Which of two overlapping windows of one bypass the record keeps is this model's
choice (log entry 22). -/
def Obligations.TrapTaken : Prop :=
  (
    ∀ (s : State) (u : Nat), s.hasTask u = true →
      let f := s.focus u
      ∀ r : TrapReq, f.t.run = .trapDrain r → f.t.acc = [] → f.t.cmds = [] → f.t.eks = [] → f.coreFrozen = false →
        f.t.trap.intrap = false → f.t.id.trapr ≠ 0 → f.t.cast = none → f.t.mrec.state = .off →
        r.code < 256 → r.need < 2 ^ 13 → r.depth < 2 ^ 13 →
        ∃ t : Task, exec (.trapDrainEnd u) s = .next (({ f with t := t, nodes := f.nodes.map fun n =>
            if n.key = f.t.id.node then { n with cause := t.trap.cause, depth := t.trap.depth, taddr := t.trap.addr } else n }
              : State).focus s.t.id.uid) ∧
          t.run = .running ∧ t.pc = f.t.id.trapr ∧ t.bidx = r.at_ ∧ t.pend = [] ∧ t.trap.intrap = true ∧ t.trap.nest = false ∧
          t.trap.cause.toNat = r.need * 256 + r.code ∧ t.trap.depth.toNat = r.depth ∧ t.trap.addr = r.addr ∧
          t.trap.ret = r.ret ∧ t.s = f.t.landAll.s ∧ t.p = f.t.landAll.p ∧ t.stk = f.t.landAll.stk ∧
          (∀ i : Fin 4, t.trap.bs.get i = (f.t.landAll.bs.get i).val ∧
            ∀ b : Nat, ((t.bs.get i).read b) = 0) ∧
          (∀ (k : Fin 8) (i : Fin 4), ∀ b : Nat, ((t.fac.get k).bf.get i).read b = Vector.replicate 16 0)) ∧
  (
    ∀ (s : State) (u : Nat), s.hasTask u = true →
      let f := s.focus u
      ∀ r : TrapReq, f.t.run = .trapDrain r → f.t.acc = [] → f.t.cmds = [] → f.t.eks = [] → f.coreFrozen = false →
        (f.t.trap.intrap = true ∨ f.t.id.trapr = 0) →
        ∃ s' : State, exec (.trapDrainEnd u) s = .next (s'.focus s.t.id.uid) ∧ s'.t.run = .ended ∧ s'.t.id.uid = u ∧
          s'.t.trap.nest = f.t.trap.intrap ∧ s'.t.trap.addr = r.addr ∧
          ∀ n ∈ s'.nodes, n.key = f.t.id.node → n.state = .trapped)

/-- R147 to R149, R151, R252, R264, R317: a WAIT issues once every counter it names is at most its count; else its bundle is held, or its task
parks where a command waits on another party. A fence issues at once. It waits for what the task has issued before it and has not
performed, in program order or as elements of the copy engine and of the port, is not done before, and holds the later accesses and commands
of its successor classes, in its range; an empty range orders nothing. -/
def Obligations.WaitAndFences : Prop :=
  (
    ∀ (o : OWait) (s : State), s.on o.g = true →
      let n := o.n.toNat
      let named := ∀ i c, (i, c) ∈ [(0, Cnt.ld), (1, .st), (2, .cp), (3, .tl), (4, .kc)] → o.cls.getLsbD i = true →
        s.t.cnt.get c ≤ n
      let starved := o.cls.getLsbD 4 = true ∧ n < (s.t.eks.filter fun e => e.deferred).length
      let parks := o.cls.getLsbD 4 = true ∧ ∃ e ∈ s.t.eks, s.ekParks e = true
      (¬starved → named → ∃ p : Nat, s.t.pts ≤ p ∧ exec (.wait o) s = .next { s with t := { s.t with pts := p } }) ∧
      (starved → exec (.wait o) s = .next (s.takesTrap 0x16 0)) ∧
      (¬starved → ¬named → ¬parks → exec (.wait o) s = .next s.isHeld) ∧
      (¬starved → ¬named → parks → s.t.pend = [] →
        exec (.wait o) s = .next { s with t := { s.t with run := .parked (.kc n) true } }) ∧
      (¬starved → ¬named → parks → s.t.pend ≠ [] → exec (.wait o) s = .next (s.takesTrap 0x11 0))) ∧
  (
    (∀ (o : OFence) (s : State), s.on o.g = true →
      ∃ f : Fence, exec (.fence o) s = .next { s with t := { s.t with fences := s.t.fences ++ [f] } } ∧
        f.iss = s.t.bidx ∧ f.done = false ∧ f.succ = o.succ ∧ f.range = none ∧ f.level = (s.scope o.scope).1 ∧
        (∀ a ∈ s.t.acc, a.cls &&& o.pred ≠ 0 → a.staged = false → s.t.accDone a = false → a.id ∈ f.accs) ∧
        (∀ d ∈ s.t.sent, d.cls &&& o.pred ≠ 0 → d.id ∈ f.accs) ∧
        (∀ c ∈ s.t.cmds, ∀ (i : Nat) (e : Elem), c.elem s.t i = some e → c.cls &&& o.pred ≠ 0 → e.skip = false → i ∉ c.done →
          e.ready = false ∨ e.cls &&& o.pred ≠ 0 → c.id ∈ f.cmds) ∧
        (∀ e ∈ s.t.eks, (e.cls &&& o.pred &&& cKR ≠ 0 ∧ 0 ∉ e.done) ∨ (e.cls &&& o.pred &&& cKW ≠ 0 ∧ 1 ∉ e.done) → e.id ∈ f.eks)) ∧
    (∀ (o : OFencer) (s : State), s.on o.g = true →
      let a := (s.src none o.a).toNat
      let n := (s.src none o.b).toNat
      (n = 0 ∨ 2 ^ 57 ≤ a → exec (.fencer o) s = .next s) ∧
      (n ≠ 0 → a < 2 ^ 57 → ∃ f : Fence, exec (.fencer o) s = .next { s with t := { s.t with fences := s.t.fences ++ [f] } } ∧
        f.iss = s.t.bidx ∧ f.done = false ∧ f.succ = o.succ ∧ f.range = some (a, min n (2 ^ 57 - a)) ∧ f.level = (s.scope o.scope).1 ∧
        (∀ x ∈ s.t.acc, x.cls &&& o.pred ≠ 0 → x.staged = false → x.loc = false →
          (∃ p ∈ x.pieces, a < p.va + p.len ∧ p.va < a + min n (2 ^ 57 - a)) → x.id ∈ f.accs) ∧
        (∀ c ∈ s.t.cmds, (∃ r ∈ c.ranges s.t, a < r.1 + r.2 ∧ r.1 < a + min n (2 ^ 57 - a)) →
          ∀ (i : Nat) (e : Elem), c.elem s.t i = some e → c.cls &&& o.pred ≠ 0 → e.skip = false → i ∉ c.done →
          e.ready = false ∨ e.cls &&& o.pred ≠ 0 → c.id ∈ f.cmds) ∧
        (∀ e ∈ s.t.eks, (∃ r ∈ e.ranges, a < r.1 + r.2 ∧ r.1 < a + min n (2 ^ 57 - a)) →
          (e.cls &&& o.pred &&& cKR ≠ 0 ∧ 0 ∉ e.done) ∨ (e.cls &&& o.pred &&& cKW ≠ 0 ∧ 1 ∉ e.done) → e.id ∈ f.eks))) ∧
    (∀ (s : State) (f : Fence),
      (∃ a ∈ s.t.acc, a.id ∈ f.accs ∧ s.t.accPending a f.range = true) ∨
        (∃ c ∈ s.t.cmds, c.id ∈ f.cmds ∧ c.pendingIn s.t f.pred f.range = true) ∨
        (∃ e ∈ s.t.eks, e.id ∈ f.eks ∧ e.pendingIn f.pred f.range = true) → s.fenceDone s.t f = false) ∧
    (∀ (s : State) (f : Fence) (cls : BitVec 6) (va len : Nat), f ∈ s.t.fences → f.done = false → f.iss < s.t.bidx → f.succ &&& cls ≠ 0 →
      (∀ r, f.range = some r → r.1 < va + len ∧ va < r.1 + r.2) → s.memHeld cls [(va, len)] false = true) ∧
    (∀ (s : State) (f : Fence) (cls : BitVec 6) (rs : List (Nat × Nat)), f ∈ s.t.fences → f.done = false → f.iss < s.t.bidx →
      f.succ &&& cls ≠ 0 → (∀ r, f.range = some r → ∃ x ∈ rs, r.1 < x.1 + x.2 ∧ x.1 < r.1 + r.2) → s.fenced cls rs false = true) ∧
    (∀ (s : State) (f : Fence), f ∈ s.t.fences → f.done = false → f.iss < s.t.bidx → f.range = none →
      (∀ o : OGS, s.on o.g = true →
        (f.succ &&& (cCR ||| cCW) ≠ 0 → exec (.cpmc o) s = .next s.isHeld) ∧
        (f.succ &&& cCW ≠ 0 → exec (.cpfill o) s = .next s.isHeld) ∧
        (f.succ &&& cCR ≠ 0 → s.tileReady 0 1 [] → exec (.cpget o) s = .next s.isHeld) ∧
        (f.succ &&& cKR ≠ 0 → exec (.ksend o) s = .next s.isHeld)) ∧
      (∀ o : OBlk, s.on o.g = true → f.succ &&& cCR ≠ 0 → exec (.ldblk o) s = .next s.isHeld) ∧
      (∀ o : OSort, s.on o.g = true → f.succ &&& (cCR ||| cCW) ≠ 0 → exec (.cpsort o) s = .next s.isHeld) ∧
      (∀ (o : OGS) (x : Entry), s.on o.g = true → f.succ &&& cCW ≠ 0 → s.atTop [x] → s.tileReady 1 0 [x] →
        exec (.cpput o) s = .next s.isHeld) ∧
      (∀ o : OKrecv, s.on o.g = true → f.succ &&& cKW ≠ 0 → exec (.krecv o) s = .next s.isHeld) ∧
      (∀ o : OKar, s.on o.g = true → f.succ &&& (cKR ||| cKW) ≠ 0 → ∀ i ∈ [Instr.kar o, .krs o], exec i s = .next s.isHeld) ∧
      (∀ o : OKag, s.on o.g = true → f.succ &&& (cKR ||| cKW) ≠ 0 → ∀ i ∈ [Instr.kag o, .kbc o], exec i s = .next s.isHeld)))

/-- R146, R150, R151: prefetch and IFENCE, the watch and the park on it. An IPF is stated where no copy of a containment structure has
failed, since its look-ups would compare such a copy (R379). That a WPARK which does not park ends staging is this model's choice (log
entry 35). -/
def Obligations.FetchAndWatch : Prop :=
  (∀ (o : OBr) (s : State) (x : W64), s.on o.g = true → s.offsetTarget o.ix o.ofs x → s.ros.copies = [] →
    (2 ^ 57 ≤ x.toNat → exec (.ipf o) s = .next s) ∧
    ∃ cs : List Core, exec (.ipf o) s = .next { s with cores := cs } ∧
      ∀ k, ∃ (ic : List ILine) (tl : List TlbEnt),
        ({ s with cores := cs } : State).core k = { s.core k with icache := ic, itlb := tl }) ∧
  (∀ (o : OG) (s : State), s.on o.g = true →
    ∃ ks : List Nat, exec (.ifence o) s = .next { s with t := { s.t with hdrs := [], ifence := ks } } ∧
      ∀ k, k ∈ ks ↔ ∃ e ∈ s.t.eks, e.id = k ∧ ∃ va, e.op = .icinv va) ∧
  (∀ (s : State), s.t.run = .running → s.coreFrozen = false → s.mustStop = false → s.t.cast = none → s.t.id.haltReq = false →
    (∀ x ∈ s.t.flights, x.val = .wait → s.t.bidx < x.land) →
    (∃ k ∈ s.landed.t.ifence, ∃ e ∈ s.landed.t.eks, e.id = k) → s.issue = .next s.landed) ∧
  (∀ (o : OLwatch) (s : State) (tr : Tr), s.on o.g = true →
    let a := (s.amAddr o.ix o.a o.b 1).toNat
    (a < 2 ^ 57 → s.look a 1 false none = .ok tr →
      exec (.lwatch o) s = .next ((s.touch a).withWrite (.csr 0xE2) 1
        (.watch { armed := true, fired := false, line := BitVec.ofNat 51 (a / 64), pline := s.phys tr.pa / 64
                  level := levelAt (s.phys tr.pa) (s.scope o.scope).1 }) Origin.none)) ∧
    (2 ^ 57 ≤ a → exec (.lwatch o) s = .next (s.takesTrap 0x31 0))) ∧
  (∀ (o : OG) (s : State), s.on o.g = true →
    let e := s.endStaging
    (s.t.pend ≠ [] → exec (.wpark o) s = .next (s.takesTrap 0x11 0)) ∧
    (s.t.pend = [] → s.t.watch.armed = false → exec (.wpark o) s = .next e) ∧
    (s.t.pend = [] → s.t.watch.armed = true → s.t.watch.fired = true →
      exec (.wpark o) s = .next (e.withWrite (.csr 0xE2) 1 (.watch { e.t.watch with armed := false, fired := false }) Origin.none)) ∧
    (s.t.pend = [] → s.t.watch.armed = true → s.t.watch.fired = false →
      exec (.wpark o) s = .next { e with t := { e.t with run := .parked .watch true } }))

/-- R163, R164: an enabled load that nothing stops takes its place in program order and counts in ld; its register waits for the
reply, with latency 4. -/
def Obligations.Loads : Prop :=
  ∀ x ∈ [(Instr.ldB, 1, false), (.ldH, 2, false), (.ldW, 4, false), (.ldD, 8, false),
      (.ldBAcq, 1, true), (.ldHAcq, 2, true), (.ldWAcq, 4, true), (.ldDAcq, 8, true)],
    ∀ (o : OLd) (s : State) (tr : Tr), s.on o.g = true →
      let a := s.amAddr o.ix o.a o.b x.2.1
      s.unheld a x.2.1 cLD .ld false → goodAddr a x.2.1 → s.look a.toNat x.2.1 false none = .ok tr →
      exec (x.1 o) s = .next ((((s.touch a.toNat).withWrite (Dst.flight o.d) 4 .wait Origin.dat).withAccess (.ldS o.d) false
        (s.scope o.scope).1 (s.scope o.scope).2 x.2.2 false true false false false (some s.t.seq) (piece1 a x.2.1 tr [])).counts .ld)

/-- R163, R164, R254, R255: an enabled store that nothing stops takes its place with its bytes, little-endian, and counts in st. In a
staging node it is staged, uncounted, where it is of scope .task and no release and its line fits; any other ends the staging
first. -/
def Obligations.Stores : Prop :=
  ∀ x ∈ [(Instr.stB, 1, false), (.stH, 2, false), (.stW, 4, false), (.stD, 8, false),
      (.stBRel, 1, true), (.stHRel, 2, true), (.stWRel, 4, true), (.stDRel, 8, true)],
    ∀ (o : OSt) (s : State) (tr : Tr), s.on o.g = true →
      let a := s.amAddr o.ix o.a o.b x.2.1
      let v := (List.range x.2.1).map fun k => BitVec.ofNat 8 ((s.src o.ix o.v).toNat / 2 ^ (8 * k))
      let put (s' : State) (staged : Bool) : State := s'.withAccess .stS true (s.scope o.scope).1 (s.scope o.scope).2 false x.2.2
        false true false staged none (piece1 a x.2.1 tr v)
      let stages := s.t.stage.mode = .staging ∧ x.2.2 = false ∧ (s.scope o.scope).2 = 0 ∧
        s.t.stageFull [(a.toNat, x.2.1)] = false
      s.unheld a x.2.1 cST .st false → goodAddr a x.2.1 → s.look a.toNat x.2.1 true none = .ok tr →
      (stages → exec (x.1 o) s = .next (put (s.touch a.toNat) true)) ∧
      (¬stages → exec (x.1 o) s = .next ((put (s.touch a.toNat).endStaging false).counts .st)) ∧
      (s.t.stage.mode ≠ .staging → (s.touch a.toNat).endStaging = s.touch a.toNat)

/-- R163, R166, R234: LDL and STL name offsets of the core's own local store and are not translated; a misaligned offset takes trap 0x30; beyond it, or in the tile-stack
reservation, whatever the high bits of the offset, the core freezes on a fault (that such a fault is precise is this model's choice, log entry 20, and so is that STL ends
staging, log entry 39). What loads, stores and atomics do where they do not issue: that 0x31 comes before 0x30, and a hold before both,
is this model's choice (log entries 36 and 37). -/
def Obligations.AccessStops : Prop :=
  (
    (∀ x ∈ [(Instr.ldlB, 1), (.ldlH, 2), (.ldlW, 4), (.ldlD, 8)], ∀ (o : OR3) (s : State), s.on o.g = true →
      let a := s.amAddr o.ix o.a o.b x.2
      (¬s.unheld a x.2 cLD .ld true → exec (x.1 o) s = .next s.isHeld) ∧
      (s.unheld a x.2 cLD .ld true → a.toNat % x.2 ≠ 0 → exec (x.1 o) s = .next (s.takesTrap 0x30 0)) ∧
      (s.unheld a x.2 cLD .ld true → a.toNat % x.2 = 0 → a.toNat + x.2 ≤ 0x100000 - s.reserved s.t.id.core →
        exec (x.1 o) s = .next (((s.withWrite (Dst.flight o.d) 3 .wait Origin.dat).withAccess (.ldS o.d) false 2 2 false false true
          false true false (some s.t.seq)
          (piece1 a x.2 (Tr.physical (windowPa s.t.id.core a.toNat)) [])).counts .ld)) ∧
      (s.unheld a x.2 cLD .ld true → a.toNat % x.2 = 0 → 0x100000 - s.reserved s.t.id.core < a.toNat + x.2 →
        ∃ r, exec (x.1 o) s = .next (s.freezes (.fault r 7 0 0 none)) ∧ r.va = a.toNat ∧ r.write = false)) ∧
    (∀ x ∈ [(Instr.stlB, 1), (.stlH, 2), (.stlW, 4), (.stlD, 8)], ∀ (o : OStl) (s : State), s.on o.g = true →
      let a := s.amAddr o.ix o.a o.b x.2
      let v := (List.range x.2).map fun k => BitVec.ofNat 8 ((s.src o.ix o.v).toNat / 2 ^ (8 * k))
      (¬s.unheld a x.2 cST .st true → exec (x.1 o) s = .next s.isHeld) ∧
      (s.unheld a x.2 cST .st true → a.toNat % x.2 ≠ 0 → exec (x.1 o) s = .next (s.takesTrap 0x30 0)) ∧
      (s.unheld a x.2 cST .st true → a.toNat % x.2 = 0 → a.toNat + x.2 ≤ 0x100000 - s.reserved s.t.id.core →
        exec (x.1 o) s = .next ((s.endStaging.withAccess .stS true 2 2 false false false true true false none
          (piece1 a x.2 (Tr.physical (windowPa s.t.id.core a.toNat)) v)).counts .st)) ∧
      (s.unheld a x.2 cST .st true → a.toNat % x.2 = 0 → 0x100000 - s.reserved s.t.id.core < a.toNat + x.2 →
        ∃ r, exec (x.1 o) s = .next (s.freezes (.fault r 7 0 0 none)) ∧ r.va = a.toNat ∧ r.write = true))) ∧
  (
    ∀ s : State,
      (∀ x ∈ [(Instr.ldB, 1), (.ldH, 2), (.ldW, 4), (.ldD, 8), (.ldBAcq, 1), (.ldHAcq, 2), (.ldWAcq, 4), (.ldDAcq, 8)],
        ∀ o : OLd, s.on o.g = true →
          Stops (x.1 o) s (s.amAddr o.ix o.a o.b x.2) x.2 cLD .ld false 0 (s.scope o.scope).2) ∧
      (∀ x ∈ [(Instr.stB, 1), (.stH, 2), (.stW, 4), (.stD, 8), (.stBRel, 1), (.stHRel, 2), (.stWRel, 4), (.stDRel, 8)],
        ∀ o : OSt, s.on o.g = true →
          Stops (x.1 o) s (s.amAddr o.ix o.a o.b x.2) x.2 cST .st true 1 (s.scope o.scope).2) ∧
      (∀ x ∈ [(Instr.amoaddW, 4), (.amoaddD, 8), (.amoandW, 4), (.amoandD, 8), (.amoorW, 4), (.amoorD, 8), (.amoxorW, 4),
          (.amoxorD, 8), (.amominW, 4), (.amominD, 8), (.amomaxW, 4), (.amomaxD, 8), (.amoswpW, 4), (.amoswpD, 8),
          (.casW, 4), (.casD, 8)],
        ∀ o : OLd, s.on o.g = true → Stops (x.1 o) s (s.src o.ix o.a) x.2 (cLD ||| cST) .ld true 2 (s.scope o.scope).2))

/-- R167 to R170: an enabled atomic that nothing stops takes its place as a load and a store with acquire and release; CAS carries the value
it expects, that of its destination register before. PFD changes no architected state. CBO takes its place as a store of the whole
line, whatever the address; zero alone counts, in st. -/
def Obligations.AtomicsAndLines : Prop :=
  (
    let puts (i : Instr) (n : Nat) (o : OLd) (op : AccOp) (s : State) : Prop :=
      ∀ tr : Tr, let a := s.src o.ix o.a
        s.unheld a n (cLD ||| cST) .ld false → goodAddr a n → s.look a.toNat n true none = .ok tr →
        exec i s = .next ((((s.touch a.toNat).withWrite (Dst.flight o.d) 4 .wait Origin.dat).endStaging.withAccess op true
          (s.scope o.scope).1 (s.scope o.scope).2 true true true true false false (some s.t.seq) (piece1 a n tr [])).counts .ld)
    (∀ x ∈ [(Instr.amoaddW, AmoOp.add, 4), (.amoaddD, .add, 8), (.amoandW, .and, 4), (.amoandD, .and, 8), (.amoorW, .or, 4),
        (.amoorD, .or, 8), (.amoxorW, .xor, 4), (.amoxorD, .xor, 8), (.amominW, .min, 4), (.amominD, .min, 8),
        (.amomaxW, .max, 4), (.amomaxD, .max, 8), (.amoswpW, .swp, 4), (.amoswpD, .swp, 8)],
      ∀ (o : OLd) (s : State), s.on o.g = true → puts (x.1 o) x.2.2 o (.amo x.2.1 o.d (s.src o.ix o.b)) s) ∧
    (∀ (o : OLd) (s : State) (r : Fin 56), s.on o.g = true → o.d = .s r →
      puts (.casW o) 4 o (.cas o.d (s.entryVal r.val) (s.src o.ix o.b)) s ∧
      puts (.casD o) 8 o (.cas o.d (s.entryVal r.val) (s.src o.ix o.b)) s)) ∧
  (
    (∀ (o : OPfd) (s : State), exec (.pfd o) s = .next s) ∧
    (∀ (o : OCbo) (s : State) (tr : Tr), s.on o.g = true →
      let a := s.amAddr o.ix o.a o.b 1
      let line : W64 := BitVec.ofNat 64 (a.toNat / 64 * 64)
      s.memHeld cST [(line.toNat, 64)] false = false → (o.kind = .zero → s.t.cnt.st < 32) →
      (2 ^ 57 ≤ a.toNat → exec (.cbo o) s = .next (s.takesTrap 0x31 0)) ∧
      (a.toNat < 2 ^ 57 → s.look a.toNat 1 true none = .ok tr →
        let r := (s.touch a.toNat).endStaging.withAccess (.cbo o.kind) true (s.scope o.scope).1 (s.scope o.scope).2 false false false
          true false false none (piece1 line 64 { tr with pa := tr.pa / 64 * 64 } [])
        exec (.cbo o) s = .next (if o.kind = .zero then r.counts .st else r))))

/-- R137, R171: CSRR reads a control register with latency 3. CSRW writes one, traps, or is ignored, as the map of the register says. That a
system register at task privilege takes 0x14 whatever the value, before 0x25, is this model's choice (log entry 36). -/
def Obligations.ControlRegisters : Prop :=
  (
    (∀ (o : OCsrr) (s : State), s.on o.g = true → (o.csr.toNat < 0x800 ∨ s.t.id.system = true) →
      exec (.csrr o) s = .next (s.withWrite (Dst.flight o.d) 3 (.w (s.csrRead o.csr.toNat)) (Origin.dat.join (s.t.porg.get o.g)))) ∧
    (∀ (o : OCsrr) (s : State), s.on o.g = true → 0x800 ≤ o.csr.toNat → s.t.id.system = false →
      exec (.csrr o) s = .next (s.takesTrap 0x14 0)) ∧
    ∀ s : State, (s.csrRead 0xC0).toNat = s.t.trap.cause.toNat ∧ (s.csrRead 0xC1).toNat = s.t.trap.depth.toNat ∧
      (s.csrRead 0xC2).toNat = s.t.trap.addr.toNat ∧ (s.csrRead 0xC3).toNat = s.t.trap.ret.toNat ∧
      (s.csrRead 0xC4).toNat = (if s.t.trap.nest then 2 else 0) + (if s.t.trap.intrap then 1 else 0) ∧
      (∀ i : Fin 4, s.csrRead (0xC6 + i.val) = s.t.trap.bs.get i) ∧ (∀ i : Fin 3, s.csrRead (0xCC + i.val) = s.t.trap.pt.get i) ∧
      (s.csrRead 0xD0).toNat = s.t.fp.fstat.toNat ∧ (s.csrRead 0xD1).toNat = s.t.fp.fctl.toNat ∧
      (s.csrRead 0xD4).toNat = s.t.fp.fufcnt.toNat ∧ (s.csrRead 0xE1).toNat = s.t.kstat.toNat ∧
      (∀ i : Fin 40, s.csrRead (0x100 + i.val) = s.t.stg.get i) ∧ s.csrRead 0xF0 = 0x0901 ∧
      (s.t.id.helper = true → ∀ n, (0xB0 ≤ n ∧ n ≤ 0xBF ∨ 0x200 ≤ n ∧ n ≤ 0x22F ∨ n = 0xF8) → s.csrRead n = 0) ∧
      (s.t.id.helper = false → s.t.stk.map.length < 2 ^ 64 → (s.csrRead 0xB3).toNat = s.t.stk.map.length ∧
        (∀ f : Fin 8, (s.csrRead (0x220 + f.val)).toNat = (s.t.fac.get f).fsr.toNat ∧
          ∀ a : Fin 4, (s.csrRead (0x200 + 4 * f.val + a.val)).toNat = ((s.t.fac.get f).ab.get a).toNat))) ∧
  (
    (∀ (o : OCsrw) (s : State), s.on o.g = true → s.csrTrap o.csr.toNat (s.src o.ix o.a) = none →
      exec (.csrw o) s = .next (s.withWrite (.csr o.csr) 1 (.w (s.src o.ix o.a)) Origin.none)) ∧
    (∀ (o : OCsrw) (s : State), s.on o.g = true → 0x800 ≤ o.csr.toNat → s.t.id.system = false →
      exec (.csrw o) s = .next (s.takesTrap 0x14 0)) ∧
    (∀ (o : OCsrw) (s : State), s.on o.g = true → s.csrTrap o.csr.toNat (s.src o.ix o.a) = some 0x25 →
      exec (.csrw o) s = .next (s.takesTrap 0x25 0)) ∧
    (∀ (o : OCsrw) (s : State), s.on o.g = true → s.csrTrap o.csr.toNat (s.src o.ix o.a) = some 0x23 →
      exec (.csrw o) s = .next (s.takesTrap 0x23 0)) ∧
    ∀ (s : State) (v : W64),
      let after (n : BitVec 12) : State := (s.withWrite (.csr n) 1 (.w v) Origin.none).applyCsr
      (∀ fl ∈ s.t.flights, ∀ n, fl.dst ≠ .csr n) →
      -- tsdepth, tsdesc, the counters, the watch, stepid and the task's own words; and in a helper context the stack, the facets and finj
      (∀ n ∈ [(0xB3 : BitVec 12), 0xB5, 0xE0, 0xE2, 0xF0, 0xF4, 0xF5, 0xF6, 0xF7], s.csrTrap n.toNat v = none ∧
        after n = { s with t := { s.t with seq := s.t.seq + 1 } }) ∧
      (s.t.id.helper = true → ∀ n : BitVec 12, (0xB0 ≤ n ∧ n ≤ 0xBF ∨ 0x200 ≤ n ∧ n ≤ 0x22F ∨ n = 0xF8) →
        s.csrTrap n.toNat v = none ∧ after n = { s with t := { s.t with seq := s.t.seq + 1 } }) ∧
      (v.toNat < 2 ^ 6 → s.csrTrap 0xD0 v = none ∧ (after 0xD0).t.fp.fstat = v.setWidth 6) ∧
      (2 ^ 6 ≤ v.toNat → s.csrTrap 0xD0 v = some 0x25) ∧
      (v.toNat < 8 → v.toNat % 4 ≠ 3 → s.csrTrap 0xD1 v = none ∧ (after 0xD1).t.fp.fctl = v.setWidth 3) ∧
      (v.toNat % 4 = 3 → s.csrTrap 0xD1 v = some 0x25) ∧
      (v.toNat < 2 ^ 32 → s.csrTrap 0xD2 v = none ∧ (after 0xD2).t.fp.fseed = v.setWidth 32 ∧
        ∀ g : Fin 256, (after 0xD2).t.fp.gens.get g =
          let x := v.setWidth 32 ^^^ BitVec.ofNat 32 ((g.val + 1) * 0x9E3779B9)
          if x = 0 then 1 else x) ∧
      (v.toNat < 2 ^ 57 → s.csrTrap 0xC3 v = none ∧ (after 0xC3).t.trap.ret = v.setWidth 57) ∧
      (s.t.id.helper = false → s.t.stk.map ≠ [] → v.toNat < 2 ^ 13 → s.csrTrap 0xB1 v = some 0x23) ∧
      (s.t.id.helper = false → s.t.stk.map = [] → v.toNat ≤ 4096 → s.csrTrap 0xB1 v = none ∧ (after 0xB1).t.stk.limit = v.toNat) ∧
      (after 0xD0).t.flights = s.t.flights ∧ (after 0xD0).mem = s.mem ∧ (after 0xD0).t.s = s.t.s)

/-- R172 to R174: XBC writes every lane of the register, in one facet or in all; XIN one lane; XEX reads one lane; XRED reduces the
16 lanes. What the last two read of a register with a write in flight is a free value (log entry 4). -/
def Obligations.FacetTransfers : Prop :=
  (∀ (o : OXbc) (s : State), s.on o.g = true →
    let x : Lanes := Vector.replicate 16 ((s.src o.ix o.a).setWidth 32)
    (o.all = false → exec (.xbc o) s = .next (s.withWrite (.v o.f o.vd) 2 (.lanes 0xFFFF x) Origin.none)) ∧
    (o.all = true → exec (.xbc o) s = .next ((List.finRange 8).foldl
      (fun s f => s.withWrite (.v f o.vd) 2 (.lanes 0xFFFF x) Origin.none) s))) ∧
  (∀ (o : OXin) (s : State), s.on o.g = true →
    exec (.xin o) s = .next (s.withWrite (.v o.f o.vd) 2
      (.lanes (BitVec.ofNat 16 (2 ^ o.lane.val)) (Vector.replicate 16 ((s.src o.ix o.a).setWidth 32))) Origin.none)) ∧
  (∀ (o : OXex) (s : State), s.on o.g = true →
    ∃ x : W64, exec (.xex o) s = .next (s.withWrite (Dst.flight o.d) 3 (.w x) (Origin.dat.join (s.t.porg.get o.g))) ∧
      x.toNat < 2 ^ 32 ∧ (s.vBusy o.f o.va = false → x.toNat = ((s.vreg o.f o.va 0).get o.lane).toNat)) ∧
  (∀ (o : OXred) (s : State), s.on o.g = true →
    let l := (s.vreg o.f o.va 0).toList
    ∃ x : W64, exec (.xred o) s = .next (s.withWrite (Dst.flight o.d) 3 (.w x) (Origin.dat.join (s.t.porg.get o.g))) ∧
      (s.vBusy o.f o.va = false → match o.op with
      | .add => x.toInt = (BitVec.ofInt 32 (l.map (·.toInt)).sum).toInt
      | .and => x.toNat < 2 ^ 32 ∧ ∀ i < 32, x.getLsbD i = true ↔ ∀ y ∈ l, y.getLsbD i = true
      | .or => ∀ i, x.getLsbD i = true ↔ ∃ y ∈ l, y.getLsbD i = true
      | .xor => ∀ i, x.getLsbD i = decide ((l.countP fun y => y.getLsbD i) % 2 = 1)
      | .max => (∃ y ∈ l, x.toInt = y.toInt) ∧ ∀ y ∈ l, y.toInt ≤ x.toInt
      | .min => (∃ y ∈ l, x.toInt = y.toInt) ∧ ∀ y ∈ l, x.toInt ≤ y.toInt
      | .any => x.toNat < 2 ^ 16 ∧ ∀ i : Fin 16, x.getLsbD i.val = true ↔ (s.vreg o.f o.va 0).get i ≠ 0
      | .mask => True)) ∧
  (∀ (o : OXred) (s : State) (i : Fin 8), s.on o.g = true → o.op = .mask → o.va = .v (Fin.castLE (by decide) i) →
    (∀ fl ∈ s.t.flights, fl.dst ≠ .q o.f (Fin.ofNat 4 (i.val / 2))) →
    exec (.xred o) s = .next (s.withWrite (Dst.flight o.d) 3 (.w ((s.qreg o.f i 0).setWidth 64))
      (Origin.dat.join (s.t.porg.get o.g))))

/-- R183 to R186: the floating-point instructions, each lane by itself; a NaN gives the canonical NaN. -/
def Obligations.FacetFloat : Prop :=
  YieldsF2 .vadd 4 (fun a b x fl => (x, fl) = numAdd (dec32 a) (dec32 b)) ∧
  YieldsF2 .vsub 4 (fun a b x fl => (x, fl) = numSub (dec32 a) (dec32 b)) ∧
  YieldsF2 .vmul 4 (fun a b x fl => (x, fl) = numMul (dec32 a) (dec32 b)) ∧
  YieldsF2 .vmin 4 (fun a b x fl => (x, fl) = numMin (dec32 a) (dec32 b)) ∧
  YieldsF2 .vmax 4 (fun a b x fl => (x, fl) = numMax (dec32 a) (dec32 b)) ∧
  (∀ (o : OV3) (s : State), s.runs → YieldsLanes (.vfma o) s o.q o.d 4 fun k l x fl =>
    s.vBusy k o.d = false → (x, fl) = numFma (dec32 ((s.fsrcF k o.ix 0 o.a).get l)) (dec32 ((s.fsrcF k o.ix 1 o.b).get l))
      (dec32 ((s.vreg k o.d 2).get l))) ∧
  (∀ (o : OV3) (s : State), s.runs → YieldsLanes (.vfms o) s o.q o.d 4 fun k l x fl =>
    s.vBusy k o.d = false → (x, fl) = numFms (dec32 ((s.fsrcF k o.ix 0 o.a).get l)) (dec32 ((s.fsrcF k o.ix 1 o.b).get l))
      (dec32 ((s.vreg k o.d 2).get l))) ∧
  YieldsF1 .vabs 4 (fun a x fl => fl = 0 ∧ (dec32 a = .nan → x = 0x7FC00000) ∧
    (dec32 a ≠ .nan → x.getLsbD 31 = false ∧ ∀ i < 31, x.getLsbD i = a.getLsbD i)) ∧
  YieldsF1 .vneg 4 (fun a x fl => fl = 0 ∧ (dec32 a = .nan → x = 0x7FC00000) ∧
    (dec32 a ≠ .nan → x.getLsbD 31 = !a.getLsbD 31 ∧ ∀ i < 31, x.getLsbD i = a.getLsbD i)) ∧
  YieldsF1 .vrcp 6 (fun a x fl => (a = 0 → x = 0x7F800000 ∧ fl = fDZ) ∧ (a = 0x80000000 → x = 0xFF800000 ∧ fl = fDZ) ∧
    (a = 0x7F800000 → x = 0 ∧ fl = 0) ∧ (a = 0xFF800000 → x = 0x80000000 ∧ fl = 0) ∧
    (dec32 a = .nan → x = 0x7FC00000 ∧ fl = 0) ∧ (finite32 a → val32 a ≠ 0 → (x, fl) = numRcp (dec32 a))) ∧
  YieldsF1 .vrsq 6 (fun a x fl => (a = 0 → x = 0x7F800000 ∧ fl = fDZ) ∧ (a = 0x80000000 → x = 0xFF800000 ∧ fl = fDZ) ∧
    (a = 0x7F800000 → x = 0 ∧ fl = 0) ∧ (a = 0xFF800000 ∨ (finite32 a ∧ val32 a < 0) → x = 0x7FC00000 ∧ fl = fNV) ∧
    (dec32 a = .nan → x = 0x7FC00000 ∧ fl = 0) ∧ (finite32 a → 0 < val32 a → (x, fl) = numRsqrt (dec32 a))) ∧
  YieldsF1 .vlog2 6 (fun a x fl => (a = 0 ∨ a = 0x80000000 → x = 0xFF800000 ∧ fl = fDZ) ∧
    (a = 0x7F800000 → x = 0x7F800000 ∧ fl = 0) ∧ (a = 0xFF800000 ∨ (finite32 a ∧ val32 a < 0) → x = 0x7FC00000 ∧ fl = fNV) ∧
    (dec32 a = .nan → x = 0x7FC00000 ∧ fl = 0) ∧ (∀ n : Int, finite32 a → val32 a = 2 ^ n → val32 x = n ∧ fl = 0)) ∧
  (∀ (o : OVexp) (s : State), s.runs → YieldsLanes (.vexp2 o) s o.q o.d 6 fun k l x fl =>
    let a := (s.fsrcF k none 0 o.a).get l
    let b := (s.fsrcF k none 1 o.b).get l
    (dec32 a = .nan ∨ dec32 b = .nan ∨ dec32 o.c = .nan → x = 0x7FC00000 ∧ fl = 0) ∧
    (finite32 a → finite32 b → finite32 o.c → (val32 a - val32 b) * val32 o.c = 0 → x = 0x3F800000 ∧ fl = 0))

/-- R66, R67, R72, R105, R183, R184: the arithmetic of FP32 lanes on special values, and the sign of a comparison. -/
def Obligations.FloatSpecials : Prop :=
  (∀ x y : Sys2Proof.Machine.Num, x = .nan ∨ y = .nan → numAdd x y = (0x7FC00000, 0) ∧ numSub x y = (0x7FC00000, 0) ∧
    numMul x y = (0x7FC00000, 0) ∧ numMin x y = (0x7FC00000, 0) ∧ numMax x y = (0x7FC00000, 0)) ∧
  (∀ p : Bool, numAdd (.inf p) (.inf !p) = (0x7FC00000, fNV) ∧ numSub (.inf p) (.inf p) = (0x7FC00000, fNV) ∧
    dec32 (numAdd (.inf p) (.inf p)).1 = .inf p ∧
    ∀ n m e, numMul (.inf p) (.fin n 0 e) = (0x7FC00000, fNV) ∧ numMul (.fin n 0 e) (.inf p) = (0x7FC00000, fNV) ∧
      (∀ w, (numFma (.inf p) (.fin n 0 e) w).2.getLsbD 4 = true) ∧ dec32 (numAdd (.inf p) (.fin n m e)).1 = .inf p ∧
      (m ≠ 0 → numMul (.inf p) (.fin n m e) = (BitVec.ofNat 32 (if p = n then 0x7F800000 else 0xFF800000), 0))) ∧
  (∀ n m e n' m' e', let c := (Sys2Proof.Machine.Num.fin n m e).cmp (.fin n' m' e')
    let z := (Sys2Proof.Machine.Num.fin n m e).val - (Sys2Proof.Machine.Num.fin n' m' e').val
    (0 < c ↔ 0 < z) ∧ (c < 0 ↔ z < 0) ∧ (c = 0 ↔ z = 0)) ∧
  (∀ a b : W32, finite32 a → finite32 b → val32 (numMax (dec32 a) (dec32 b)).1 = max (val32 a) (val32 b) ∧
    val32 (numMin (dec32 a) (dec32 b)).1 = min (val32 a) (val32 b) ∧ (numMax (dec32 a) (dec32 b)).2 = 0)

/-- R72, R183, R184, R186: each result is the exact mathematical value, rounded once to nearest, ties to even. -/
def Obligations.FloatNearest : Prop :=
  ∀ a b c : W32, finite32 a → finite32 b → finite32 c →
    Nearest (val32 a + val32 b) (numAdd (dec32 a) (dec32 b)).1 (numAdd (dec32 a) (dec32 b)).2 ∧
    Nearest (val32 a - val32 b) (numSub (dec32 a) (dec32 b)).1 (numSub (dec32 a) (dec32 b)).2 ∧
    Nearest (val32 a * val32 b) (numMul (dec32 a) (dec32 b)).1 (numMul (dec32 a) (dec32 b)).2 ∧
    Nearest (val32 a * val32 b + val32 c) (numFma (dec32 a) (dec32 b) (dec32 c)).1 (numFma (dec32 a) (dec32 b) (dec32 c)).2 ∧
    Nearest (val32 c - val32 a * val32 b) (numFms (dec32 a) (dec32 b) (dec32 c)).1 (numFms (dec32 a) (dec32 b) (dec32 c)).2

/-- R187: a conversion works on each lane; in the stochastic mode each enabled lane steps its generator. From INT32 the result
is the nearest value in the mode rn; to INT32 a value in range is truncated in the mode rz. -/
def Obligations.FacetConvert : Prop :=
  ∀ (o : OVcvt) (s : State), s.runs → s.t.latch.facets.Nodup →
    let mode := s.mode o.rm
    ∃ (x : Fin 8 → Lanes) (g : Fin 8 → Fin 16 → Flags),
      exec (.vcvt o) s = .next (s.eachFacet fun k s' =>
        (s'.stepLanes k (s.qreg k o.q 7) mode).withLanes k o.d 4 (s.qreg k o.q 7) (x k) (flagsOf (s.qreg k o.q 7) (g k))) ∧
      (mode ≠ 2 → ∀ k s', State.stepLanes s' k (s.qreg k o.q 7) mode = s') ∧
      ∀ k l,
        let a := (s.fsrcF k o.ix 0 o.a).get l
        let y := (x k).get l
        (o.kind = .i32f32 → mode = 1 → finite32 a → |val32 a| < 2 ^ 31 →
          y.toInt = (if val32 a < 0 then ⌈val32 a⌉ else ⌊val32 a⌋) ∧ ((g k l).getLsbD 0 = true ↔ (y.toInt : ℚ) ≠ val32 a)) ∧
        (o.kind = .i32f32 → dec32 a = .nan → y = 0 ∧ g k l = fNV) ∧
        (o.kind = .f32i32 → mode = 0 → Nearest ((s.fsrcI k o.ix 0 o.a).get l).toInt y (g k l)) ∧
        (o.kind = .f32bf16 → (bf16.decode (a.toNat % 65536) ≠ .nan →
          y.toNat = a.toNat % 65536 * 65536 ∧ g k l = 0) ∧ (bf16.decode (a.toNat % 65536) = .nan → y = 0x7FC00000)) ∧
        (o.kind = .bf16f32 ∨ o.kind = .f16f32 → y.toNat < 2 ^ 16) ∧ (o.kind = .e4m3f32 ∨ o.kind = .e5m2f32 → y.toNat < 2 ^ 8) ∧
        (o.kind = .i8f32 → -128 ≤ y.toInt ∧ y.toInt ≤ 127)

/-- R188, R192: integers, bits and copies, with latency 2 and no flag. -/
def Obligations.FacetInteger : Prop :=
  YieldsI2 .viadd (fun a b x => x.toNat = (a.toNat + b.toNat) % 2 ^ 32) ∧
  YieldsI2 .visub (fun a b x => (x.toNat + b.toNat) % 2 ^ 32 = a.toNat) ∧
  YieldsI2 .vimul (fun a b x => x.toNat = a.toNat * b.toNat % 2 ^ 32) ∧
  YieldsI2 .vand (fun a b x => ∀ i, x.getLsbD i = (a.getLsbD i && b.getLsbD i)) ∧
  YieldsI2 .vor (fun a b x => ∀ i, x.getLsbD i = (a.getLsbD i || b.getLsbD i)) ∧
  YieldsI2 .vxor (fun a b x => ∀ i, x.getLsbD i = (a.getLsbD i != b.getLsbD i)) ∧
  YieldsI2 .vshl (fun a b x => x.toNat = a.toNat * 2 ^ (b.toNat % 32) % 2 ^ 32) ∧
  YieldsI2 .vshr (fun a b x => x.toNat = a.toNat / 2 ^ (b.toNat % 32)) ∧
  YieldsI2 .vsra (fun a b x => x.toInt = a.toInt / 2 ^ (b.toNat % 32)) ∧
  YieldsI2 .vimin (fun a b x => x.toInt = min a.toInt b.toInt) ∧
  YieldsI2 .vimax (fun a b x => x.toInt = max a.toInt b.toInt) ∧
  (∀ (o : OVmov) (s : State), s.runs → YieldsLanes (.vmov o) s o.q o.d 2 fun k l x fl =>
    fl = 0 ∧ x = (s.fsrcI k none 0 o.a).get l) ∧
  (∀ (o : OV2) (s : State), s.runs → YieldsLanes (.vmovi o) s o.q o.d 2 fun k l x fl =>
    fl = 0 ∧ x = (s.fsrcI k o.ix 0 o.a).get l)

/-- R189 to R196 and R23: compares write a mask pair, the even register the condition and the odd one its complement; selects copy bits;
logical operations combine masks; shuffles, reductions, scans and dot products over the enabled lanes, and copies from another facet. -/
def Obligations.FacetMasksAndLanes : Prop :=
  (
    (∀ (o : OVcmp) (s : State), s.runs → ∃ c : Fin 8 → BitVec 16,
      exec (.vcmp o) s = .next (s.eachFacet fun k s' => s'.withWrite (.q k o.qe) 2 (.pair (s.qreg k o.q 7) (c k)) Origin.dat) ∧
      ∀ (k : Fin 8) (l : Fin 16),
        let a := (s.fsrcF k o.ix 0 o.a).get l
        let b := (s.fsrcF k o.ix 1 o.b).get l
        let i := (s.fsrcI k o.ix 0 o.a).get l
        let j := (s.fsrcI k o.ix 1 o.b).get l
        let ord := dec32 a ≠ .nan ∧ dec32 b ≠ .nan
        ((c k).getLsbD l.val = true ↔ match o.c with
          | .eq => ord ∧ (dec32 a).cmp (dec32 b) = 0
          | .ne => ¬(ord ∧ (dec32 a).cmp (dec32 b) = 0)
          | .lt => ord ∧ (dec32 a).cmp (dec32 b) < 0
          | .le => ord ∧ (dec32 a).cmp (dec32 b) ≤ 0
          | .gt => ord ∧ (dec32 a).cmp (dec32 b) > 0
          | .ge => ord ∧ (dec32 a).cmp (dec32 b) ≥ 0
          | .un => ¬ord
          | .ord => ord
          | .ieq => i = j
          | .ine => i ≠ j
          | .ilt => i.toInt < j.toInt
          | .ile => i.toInt ≤ j.toInt
          | .igt => i.toInt > j.toInt
          | .ige => i.toInt ≥ j.toInt
          | .iltu => i.toNat < j.toNat
          | .igeu => i.toNat ≥ j.toNat)) ∧
    (∀ (o : OVsel) (s : State), s.runs → YieldsLanes (.vsel o) s o.q o.d 2 fun k l x fl =>
      fl = 0 ∧ x = if (s.qreg k o.n 2).getLsbD l.val then (s.fsrcI k o.ix 0 o.a).get l else (s.fsrcI k o.ix 1 o.b).get l) ∧
    (∀ (o : OQlog) (s : State), s.runs → ∃ c : Fin 8 → BitVec 16,
      exec (.qlog o) s = .next (s.eachFacet fun k s' => s'.withWrite (.q k o.qe) 2 (.pair (s.qreg k o.q 7) (c k)) Origin.dat) ∧
      ∀ (k : Fin 8) (l : Fin 16),
        let a := (s.qreg k o.qa 0).getLsbD l.val
        let b := (s.qreg k o.qb 1).getLsbD l.val
        (c k).getLsbD l.val = match o.op with
          | .and => a && b
          | .or => a || b
          | .xor => a != b
          | .andn => a && !b
          | .orn => a || !b
          | .nand => !(a && b)
          | .nor => !(a || b)
          | .xnor => a == b)) ∧
  (
    (∀ (o : OV3) (s : State), s.runs → YieldsLanes (.vshf o) s o.q o.d 2 fun k l x fl =>
      fl = 0 ∧ x = (s.fsrcI k o.ix 0 o.a).get (Fin.ofNat 16 (((s.fsrcI k o.ix 1 o.b).get l).toNat % 16))) ∧
    (∀ (o : OVcopy) (s : State), s.runs → YieldsLanes (.vcopy o) s o.q o.d 4 fun k l x fl =>
      fl = 0 ∧ (s.vBusy o.srcf o.a = false → x = (s.vreg o.srcf o.a k.val).get l)) ∧
    (∀ (o : OVred) (s : State), s.runs → ∃ (x : Fin 8 → W32) (fl : Fin 8 → Flags),
      exec (.vred o) s = .next (s.eachFacet fun k s' =>
        s'.withLanes k o.d 5 (s.qreg k o.q 7) (Vector.replicate 16 (x k)) (fl k)) ∧
      ∀ k : Fin 8,
        let on := (List.finRange 16).filter fun l => (s.qreg k o.q 7).getLsbD l.val
        let a := on.map fun l => (s.fsrcI k none 0 o.a).get l
        match o.op with
        | .iadd => fl k = 0 ∧ (x k).toInt = (BitVec.ofInt 32 (a.map (·.toInt)).sum).toInt
        | .imax => fl k = 0 ∧ (∀ y ∈ a, y.toInt ≤ (x k).toInt) ∧ (a ≠ [] → x k ∈ a) ∧ (a = [] → (x k).toInt = -(2 ^ 31))
        | .imin => fl k = 0 ∧ (∀ y ∈ a, (x k).toInt ≤ y.toInt) ∧ (a ≠ [] → x k ∈ a) ∧ (a = [] → (x k).toInt = 2 ^ 31 - 1)
        | .and => fl k = 0 ∧ ∀ i < 32, (x k).getLsbD i = true ↔ ∀ y ∈ a, y.getLsbD i = true
        | .or => fl k = 0 ∧ ∀ i < 32, (x k).getLsbD i = true ↔ ∃ y ∈ a, y.getLsbD i = true
        | .xor => fl k = 0 ∧ ∀ i < 32, (x k).getLsbD i = decide ((a.countP fun y => y.getLsbD i) % 2 = 1)
        | op => (x k, fl k) = RedOp.tree op (s.redSrc k (s.qreg k o.q 7) op o.a)) ∧
    (∀ (o : OVred) (s : State), s.runs → ∃ (x : Fin 8 → Lanes) (fl : Fin 8 → Flags),
      exec (.vscan o) s = .next (s.eachFacet fun k s' => s'.withLanes k o.d 5 (s.qreg k o.q 7) (x k) (fl k)) ∧
      ∀ (k : Fin 8),
        let src := s.redSrc k (s.qreg k o.q 7) o.op o.a
        (x k).get 0 = src.getD 0 0 ∧
        (∀ l : Nat, ∀ h : l + 1 < 16,
          (x k).get ⟨l + 1, h⟩ = (RedOp.comb o.op ((x k).get ⟨l, Nat.lt_of_succ_lt h⟩) (src.getD (l + 1) 0)).1) ∧
        ∀ i, (fl k).getLsbD i = true ↔ ∃ l : Nat, ∃ h : l + 1 < 16,
          (RedOp.comb o.op ((x k).get ⟨l, Nat.lt_of_succ_lt h⟩) (src.getD (l + 1) 0)).2.getLsbD i = true) ∧
    (∀ (o : OVdot) (s : State), s.runs → ∃ (x : Fin 8 → W32) (fl : Fin 8 → Flags),
      exec (.vdot o) s = .next (s.eachFacet fun k s' =>
        s'.withLanes k o.d 5 (s.qreg k o.q 7) (Vector.replicate 16 (x k)) (fl k)) ∧
      ∀ k : Fin 8,
        let on := (List.finRange 16).filter fun l => (s.qreg k o.q 7).getLsbD l.val
        let a := on.map fun l => (s.fsrcI k o.ix 0 o.a).get l
        let b := on.map fun l => (s.fsrcI k o.ix 1 o.b).get l
        match o.kind with
        | .i32 => fl k = 0 ∧ x k = BitVec.ofInt 32 (List.zipWith (fun u v => u.toInt * v.toInt) a b).sum
        | .i8 => fl k = 0 ∧ x k = BitVec.ofInt 32 (List.zipWith (fun u v => ((List.range 4).map fun i =>
            (u.extractLsb' (8 * i) 8).toInt * (v.extractLsb' (8 * i) 8).toInt).sum) a b).sum
        | .f32 => (x k, fl k) = dotFloat (on.map fun l =>
            (dec32 ((s.fsrcF k o.ix 0 o.a).get l), dec32 ((s.fsrcF k o.ix 1 o.b).get l)))
        | .bf16 => (x k, fl k) = dotFloat (on.flatMap fun l =>
            List.zip (bf16Halves ((s.fsrcF k o.ix 0 o.a).get l)) (bf16Halves ((s.fsrcF k o.ix 1 o.b).get l)))))

/-- R180, R197 to R201, R348: a facet memory syllable acts facet by facet, each on the state that the ones before it leave, by the action
of the model that its instruction names: where none stops, their effects add up; where one stops and none after it stops more strongly,
the stop is that of the first. Which of the stops of several facets is taken, by the ranks of State.stopRank and of equals the first,
is this model's choice (log entry 37). -/
def Obligations.FacetSequence : Prop :=
  let act (i : Instr) (s : State) (f : Fin 8) : State :=
    match i with
    | .vld o => s.rawLoad f o.d false o.scope (VSize.bytes o.sz)
        (rowReqs (s.abAddr f o.ab o.ix o.ofs) (VSize.bytes o.sz) (s.qreg f o.q 7))
    | .vst o => s.rawStore (s.vreg f o.d 0) o.scope (VSize.bytes o.sz)
        (rowReqs (s.abAddr f o.ab o.ix o.ofs) (VSize.bytes o.sz) (s.qreg f o.q 7))
    | .vgth o => s.rawLoad f o.d true o.scope (VSize.bytes o.sz)
        (gatherReqs (s.abBase f o.ab) (s.fsrcI f none 0 o.a) (VSize.bytes o.sz) (s.qreg f o.q 7))
    | .vsct o => s.rawStore (s.vreg f o.d 1) o.scope (VSize.bytes o.sz)
        (gatherReqs (s.abBase f o.ab) (s.fsrcI f none 0 o.a) (VSize.bytes o.sz) (s.qreg f o.q 7))
    | .vldt o => s.vldt o f (s.qreg f o.q 7)
    | .vstt o => s.vstt o f (s.qreg f o.q 7)
    | .dld o => s.dld o f (s.qreg f o.q 7)
    | .dst o => s.dst o f (s.qreg f o.q 7)
    | _ => s
  ∀ (i : Instr) (s : State), ((∃ o, i = .vld o) ∨ (∃ o, i = .vst o) ∨ (∃ o, i = .vgth o) ∨ (∃ o, i = .vsct o) ∨ (∃ o, i = .vldt o) ∨
      (∃ o, i = .vstt o) ∨ (∃ o, i = .dld o) ∨ (∃ o, i = .dst o)) →
    let goes (l : List (Fin 8)) : Prop := ∀ n < l.length, ((l.take (n + 1)).foldl (act i) s).stopRank = 0
    (goes s.t.latch.facets → exec i s = .next (s.t.latch.facets.foldl (act i) s)) ∧
    (∀ (pre : List (Fin 8)) (f : Fin 8) (post : List (Fin 8)), s.t.latch.facets = pre ++ f :: post → goes pre →
      let c := pre.foldl (act i) s
      let w := act i c f
      w.stopRank ≠ 0 →
      (∀ (n : Nat) (g : Fin 8), post[n]? = some g →
        (act i ((post.take n).foldl (fun c g => if (act i c g).stopRank = 0 then act i c g else c) c) g).stopRank ≤ w.stopRank) →
      exec i s = .next w)

/-- R197 to R199, R201, R254, R348: the loads and stores of a facet. The enabled lanes name addresses, in the consecutive elements of layout M or
by the indices of layout G; the syllable takes its place as one access, a load counts in ld and its register waits, a store carries
the bytes of each enabled lane and counts in st or is staged. That a load with no lane enabled writes at latency 4 is this model's choice (log
entry 96). -/
def Obligations.FacetMemory : Prop :=
  (
    ∀ (s : State) (f : Fin 8), s.runs → s.t.latch.facets = [f] →
      let loads (i : Instr) (d : VReg) (sc : Scope) (n : Nat) (rs : List LaneReq) (gth : Bool) : Prop :=
        (rs = [] → exec i s = .next (s.withWrite (.v f d) 4 (.lanes 0 (Vector.replicate 16 0)) Origin.dat)) ∧
        (rs ≠ [] → ∀ tr, s.unheldLanes rs cLD .ld → s.goodLanes rs n false none tr →
          exec i s = .next ((((s.touchLanes rs).withWrite (.v f d) (if s.ownWindow tr then 3 else 4) .wait Origin.dat).withAccess
            (.ldV f d gth) false (s.scope sc).1 (s.scope sc).2 false false true false false false (some s.t.seq)
            (mergePieces (lanePieces tr fun _ => []))).counts .ld)) ∧
        (rs ≠ [] → StopsLanes i s rs n cLD .ld)
      (∀ o : OVmem, loads (.vld o) o.d o.scope (VSize.bytes o.sz)
        (((List.finRange 16).filter fun l => (s.qreg f o.q 7).getLsbD l.val).map fun l =>
          { lane := l.val, va := s.abAddr f o.ab o.ix o.ofs + BitVec.ofNat 64 (l.val * VSize.bytes o.sz), len := VSize.bytes o.sz })
        false) ∧
      (∀ o : OVgs, loads (.vgth o) o.d o.scope (VSize.bytes o.sz)
        (((List.finRange 16).filter fun l => (s.qreg f o.q 7).getLsbD l.val).map fun l =>
          { lane := l.val
            va := ((s.t.fac.get f).ab.get o.ab).setWidth 64 +
              ((s.fsrcI f none 0 o.a).get l).setWidth 64 * BitVec.ofNat 64 (VSize.bytes o.sz)
            len := VSize.bytes o.sz })
        true) ∧
      (∀ o : ODmem,
        let rs := ((List.finRange 16).filter fun l => (s.qreg f o.q 7).getLsbD l.val).map fun l =>
          ({ lane := l.val, va := s.abAddr f o.ab o.ix o.ofs + BitVec.ofNat 64 (l.val * 64), len := 64 } : LaneReq)
        (rs = [] → ∃ x : DReg, exec (.dld o) s = .next (s.withWrite (.d f o.d) 4 (.dist 0 x) Origin.dat) ∧
          x.mask = 0 ∧ x.aligned = false) ∧
        (rs ≠ [] → ∀ tr, s.unheldLanes rs cLD .ld → s.goodLanes rs 64 false none tr →
          exec (.dld o) s = .next ((((s.touchLanes rs).withWrite (.d f o.d) (if s.ownWindow tr then 3 else 4) .wait
            Origin.dat).withAccess (.ldD f o.d) false (s.scope o.scope).1 (s.scope o.scope).2 false false true false false false
            (some s.t.seq) (lanePieces tr fun _ => [])).counts .ld)) ∧
        (rs ≠ [] → StopsLanes (.dld o) s rs 64 cLD .ld))) ∧
  (
    ∀ (s : State) (f : Fin 8), s.runs → s.t.latch.facets = [f] →
      let stores (i : Instr) (sc : Scope) (n : Nat) (rs : List LaneReq) (data : Nat → List Byte) : Prop :=
        (rs = [] → exec i s = .next s) ∧
        (rs ≠ [] → ∀ tr, s.unheldLanes rs cST .st → s.goodLanes rs n true none tr →
          let put (s' : State) (staged : Bool) : State := s'.withAccess .stV true (s.scope sc).1 (s.scope sc).2 false false false
            true false staged none (lanePieces tr data)
          let stages := s.t.stage.mode = .staging ∧ (s.scope sc).2 = 0 ∧
            s.t.stageFull ((lanePieces tr data).map fun p => (p.va, p.len)) = false
          (stages → exec i s = .next (put (s.touchLanes rs) true)) ∧
          (¬stages → exec i s = .next ((put (s.touchLanes rs).endStaging false).counts .st))) ∧
        (rs ≠ [] → StopsLanes i s rs n cST .st)
      (∀ o : OVmem, stores (.vst o) o.scope (VSize.bytes o.sz)
        (((List.finRange 16).filter fun l => (s.qreg f o.q 7).getLsbD l.val).map fun l =>
          { lane := l.val, va := s.abAddr f o.ab o.ix o.ofs + BitVec.ofNat 64 (l.val * VSize.bytes o.sz), len := VSize.bytes o.sz })
        fun l => leBytes (VSize.bytes o.sz) ((s.vreg f o.d 0).get (Fin.ofNat 16 l)).toNat) ∧
      (∀ o : OVgs, stores (.vsct o) o.scope (VSize.bytes o.sz)
        (((List.finRange 16).filter fun l => (s.qreg f o.q 7).getLsbD l.val).map fun l =>
          { lane := l.val
            va := ((s.t.fac.get f).ab.get o.ab).setWidth 64 +
              ((s.fsrcI f none 0 o.a).get l).setWidth 64 * BitVec.ofNat 64 (VSize.bytes o.sz)
            len := VSize.bytes o.sz })
        fun l => leBytes (VSize.bytes o.sz) ((s.vreg f o.d 1).get (Fin.ofNat 16 l)).toNat) ∧
      (∀ o : ODmem, stores (.dst o) o.scope 64
        (((List.finRange 16).filter fun l => (s.qreg f o.q 7).getLsbD l.val).map fun l =>
          { lane := l.val, va := s.abAddr f o.ab o.ix o.ofs + BitVec.ofNat 64 (l.val * 64), len := 64 })
        fun l => imageOfLane ((s.dreg f o.d 0).lanes.get (Fin.ofNat 16 l))))

/-- R200: VLDT and VSTT read and write elements of the format of the page at their base, read at issue. A base beyond the address space
takes trap 0x31 and bad addresses of lanes theirs, and VSTT to an FP4 page freezes on a fault of cause 6. That a load with no lane
enabled writes at latency 4 (log entry 96), that a base beyond the address space traps whichever lanes are enabled (log entry 78), and
the order of stops (log entries 36 and 37) are this model's choices. -/
def Obligations.FacetFormats : Prop :=
  ∀ (s : State) (f : Fin 8), s.runs → s.t.latch.facets = [f] →
    (∀ (o : OVldt) (fmt : Fmt) (tr : List (LaneReq × List Tr)),
      let m := s.qreg f o.q 7
      let base := s.abAddr f o.ab o.ix o.ofs
      let rs := fmtReqs base fmt m
      (m = 0 → exec (.vldt o) s = .next (s.withWrite (.v f o.d) 4 (.lanes 0 (Vector.replicate 16 0)) Origin.dat)) ∧
      (m ≠ 0 → base.toNat < 2 ^ 57 → s.pageFmt base.toNat false = .ok fmt → s.unheldLanes rs cLD .ld →
        (o.hi = true → fmt ≠ .e2m1b32 → (∀ r ∈ rs, goodAddr r.va fmt.size) → exec (.vldt o) s = .next (s.takesTrap 0x28 0)) ∧
        (o.hi = false ∨ fmt = .e2m1b32 → s.goodLanes rs fmt.size false (some fmt.code) tr →
          let ps := lanePieces tr fun _ => []
          exec (.vldt o) s = .next ((((s.touchLanes rs).withWrite (.v f o.d) (if s.ownWindow tr then 3 else 4) .wait
            Origin.dat).withAccess (.ldT f o.d fmt o.hi) false (s.scope o.scope).1 (s.scope o.scope).2 false false true false
            false false (some s.t.seq)
            (if fmt.blocked then ps.map fun p => { p with also := ((enabled m).map (·.val)).tail } else ps)).counts .ld)))) ∧
    (∀ o : OVldt,
      let m := s.qreg f o.q 7
      let base := s.abAddr f o.ab o.ix o.ofs
      (m ≠ 0 → s.t.cnt.get .ld < Cnt.ld.max → 2 ^ 57 ≤ base.toNat → s.memHeld cLD [(base.toNat, 64)] false = false →
        exec (.vldt o) s = .next (s.takesTrap 0x31 0)) ∧
      (∀ fmt, m ≠ 0 → base.toNat < 2 ^ 57 → s.pageFmt base.toNat false = .ok fmt →
        StopsLanes (.vldt o) s (fmtReqs base fmt m) fmt.size cLD .ld)) ∧
    (∀ o : OVstt,
      let m := s.qreg f o.q 7
      let base := s.abAddr f o.ab o.ix o.ofs
      (m ≠ 0 → s.t.cnt.get .st < Cnt.st.max → 2 ^ 57 ≤ base.toNat → s.memHeld cST [(base.toNat, 64)] false = false →
        exec (.vstt o) s = .next (s.takesTrap 0x31 0)) ∧
      (∀ fmt, m ≠ 0 → base.toNat < 2 ^ 57 → s.pageFmt base.toNat true = .ok fmt →
        StopsLanes (.vstt o) s (fmtReqs base fmt m) fmt.size cST .st ∧
        (fmt = .e2m1b32 → s.unheldLanes (fmtReqs base fmt m) cST .st → (∀ r ∈ fmtReqs base fmt m, goodAddr r.va fmt.size) →
          ∃ r l e, exec (.vstt o) s = .next (s.freezes (.fault r 6 l e none)) ∧ r.va = base.toNat ∧ r.write = true))) ∧
    (∀ (o : OVstt) (fmt : Fmt) (tr : List (LaneReq × List Tr)),
      let m := s.qreg f o.q 7
      let base := s.abAddr f o.ab o.ix o.ofs
      let rs := fmtReqs base fmt m
      let mode := s.t.fp.fctl.toNat % 4
      (m = 0 → exec (.vstt o) s = .next s) ∧
      (m ≠ 0 → base.toNat < 2 ^ 57 → s.pageFmt base.toNat true = .ok fmt → fmt ≠ .e2m1b32 → s.unheldLanes rs cST .st →
        s.goodLanes rs fmt.size true (some fmt.code) tr →
        let c := s.vsttData f (s.vreg f o.d 0) fmt m mode
        let stages := s.t.stage.mode = .staging ∧ (s.scope o.scope).2 = 0 ∧
          s.t.stageFull ((lanePieces tr c.1).map fun p => (p.va, p.len)) = false
        let put (s' : State) (staged : Bool) : State := s'.withAccess .stV true (s.scope o.scope).1 (s.scope o.scope).2 false false
          false true false staged none (lanePieces tr c.1)
        let flags (r : State) : State :=
          let r := if c.2.1 = 0 then r else r.withWrite (.fsr f) 1 (.w (c.2.1.setWidth 64)) Origin.dat
          if c.2.2 = 0 then r else r.withWrite .ufcnt 1 (.w (BitVec.ofNat 64 c.2.2)) Origin.dat
        let e := (s.touchLanes rs).stepLanes f m mode
        (stages → exec (.vstt o) s = .next (flags (put e true))) ∧
        (¬stages → exec (.vstt o) s = .next (flags ((put e.endStaging false).counts .st)))))

/-- R336, R342, R345 to R347: point masses, sample distributions and fresh tags. -/
def Obligations.DistMakes : Prop :=
  (∀ (o : ODset) (s : State), s.runs → s.t.latch.facets.Nodup → ∃ x : Fin 8 → Vector DLane 16,
    exec (.dset o) s = .next (s.eachFacet fun k s' => (s'.stepTag k).withDist k o.d 4 (s.qreg k o.q 7)
      { lanes := x k, mask := BitVec.ofNat 16 (2 ^ (s.t.fac.get k).tag.toNat), aligned := true } 0) ∧
    ∀ k l, (((x k).get l).get 0).val = (s.fsrcF k o.ix 0 o.a).get l ∧ (((x k).get l).get 0).wt = 0x8000 ∧
      ∀ i : Fin 8, i ≠ 0 → (((x k).get l).get i).wt = 0) ∧
  (∀ (o : ODtag) (s : State), s.runs → s.t.latch.facets.Nodup → ∃ x : Fin 8 → Vector DLane 16,
    exec (.dtag o) s = .next (s.eachFacet fun k s' => (s'.stepTag k).withDist k o.d 2 0
      { lanes := x k, mask := BitVec.ofNat 16 (2 ^ (s.t.fac.get k).tag.toNat), aligned := true } 0)) ∧
  (∀ (o : ODsmp) (s : State), s.runs → YieldsDist (.dsmp o) s o.q o.d 8 (fun _ => 0) (fun _ => false) fun k l x fl =>
    let vs := (List.range 8).map fun n => (s.vreg k (.v (Fin.ofNat 32 (o.n.val + n))) n).get l
    fl = 0 ∧ ((ptsOf x).map (·.2)).sum = 0x8000 ∧ (ptsOf x).Pairwise (fun p q => ordKey p.1 ≤ ordKey q.1) ∧
      ∀ v w, (v, w) ∈ ptsOf x → v ∈ vs)

/-- R338, R339, R341, R349 to R351: the pairings. Their case is decided from the masks and aligned bits, and is
any of the three while a write to an operand is in flight; in the approximated case, where the guard enables a lane, DAF is raised, or trap 0x29 taken under fcr.DAFT. A condensed lane is void where no weight is left, else its
weights sum to 0x8000 exactly; where eight points are enough they stand in the total order, and their values are those condensed. -/
def Obligations.DistPairings : Prop :=
  (
    ∀ x ∈ [(Instr.dadd, PairOp.add), (.dsub, .sub), (.dmul, .mul), (.dmin, .min), (.dmax, .max)],
      ∀ (o : ODbin) (s : State) (f : Fin 8), s.runs → s.t.latch.facets = [f] →
        let a := s.dreg f o.a 0
        let b := if o.a = o.b then a else s.dreg f o.b 1
        let m := s.qreg f o.q 7
        ∃ c : PairCase, (s.dBusy f o.a = false → s.dBusy f o.b = false →
          c = if a.mask &&& b.mask = 0 then PairCase.independent
            else if a.mask = b.mask ∧ a.aligned = true ∧ b.aligned = true then .indexed else .approximated) ∧
        let approx := c = .approximated ∧ m ≠ 0
        let r := s.withDist f o.d 12 m
          { lanes := vecOf fun l => (pairLane x.2 c (a.lanes.get l) (b.lanes.get l)).1, mask := a.mask ||| b.mask, aligned := false }
          (flagsOf m fun l => (pairLane x.2 c (a.lanes.get l) (b.lanes.get l)).2)
        (approx → (s.t.fac.get f).fcr = true → exec (x.1 o) s = .next (s.takesTrap 0x29 0)) ∧
        (approx → (s.t.fac.get f).fcr = false → exec (x.1 o) s = .next (r.withWrite (.fsr f) 12 (.w 0x40) Origin.dat)) ∧
        (¬approx → exec (x.1 o) s = .next r)) ∧
  (
    ∀ p : List (W32 × Nat),
      ((∀ x ∈ p, x.2 = 0) → ptsOf (condense p).1 = []) ∧
      (∀ x ∈ p, x.2 ≠ 0 → (p.map (·.2)).sum ≤ 0x8000 → ((ptsOf (condense p).1).map (·.2)).sum = 0x8000) ∧
      (p.length ≤ 8 → (p.map (·.2)).sum ≤ 0x8000 → (condense p).2 = 0 ∧
        (ptsOf (condense p).1).Pairwise (fun x y => ordKey x.1 ≤ ordKey y.1) ∧
        ∀ v w, (v, w) ∈ ptsOf (condense p).1 → ∃ w', (v, w') ∈ p ∧ w' ≠ 0))

/-- R352 to R357: affine maps, mixtures and conditioning; moments, quantiles and cumulative weights. -/
def Obligations.DistMapsAndReads : Prop :=
  (
    (∀ (o : ODaff) (s : State), s.runs →
      YieldsDist (.daff o) s o.q o.d 4 (fun k => (s.dreg k o.a 0).mask) (fun k => (s.dreg k o.a 0).aligned) fun k l x fl =>
        let a := (s.dreg k o.a 0).lanes.get l
        let u := dec32 ((s.fsrcF k o.ix 0 o.va).get l)
        let v := dec32 ((s.fsrcF k o.ix 1 o.vb).get l)
        (u ≠ .nan → u.cmp (.fin false 0 0) < 0 → ptsOf x = [] ∧ fl = fNV) ∧
        (u = .nan ∨ 0 ≤ u.cmp (.fin false 0 0) →
          (∀ p ∈ ptsOf a, dec32 (numFma u (dec32 p.1) v).1 ≠ .nan) →
          ptsOf x = (ptsOf a).map fun p => ((numFma u (dec32 p.1) v).1, p.2))) ∧
    (∀ (o : ODmix) (s : State), s.runs →
      YieldsDist (.dmix o) s o.q o.d 12
        (fun k => (s.dreg k o.a 0).mask ||| (if o.a = o.b then s.dreg k o.a 0 else s.dreg k o.b 1).mask) (fun _ => false)
        fun k l x fl =>
          let a := (s.dreg k o.a 0).lanes.get l
          let b := (if o.a = o.b then s.dreg k o.a 0 else s.dreg k o.b 1).lanes.get l
          let w := ((s.fsrcI k o.ix 0 o.w).get l).toNat % 65536
          (0x8000 < w → ptsOf x = [] ∧ fl = fNV) ∧
          (w ≤ 0x8000 → (x, fl) = condense ((ptsOf a).map (fun p => (p.1, round15 (w * p.2))) ++
            (ptsOf b).map fun p => (p.1, round15 ((0x8000 - w) * p.2))))) ∧
    (∀ (o : ODaff) (s : State), s.runs →
      YieldsDist (.dcnd o) s o.q o.d 8 (fun k => (s.dreg k o.a 0).mask) (fun _ => false) fun k l x fl =>
        let a := (s.dreg k o.a 0).lanes.get l
        let lo := dec32 ((s.fsrcF k o.ix 0 o.va).get l)
        let hi := dec32 ((s.fsrcF k o.ix 1 o.vb).get l)
        let kept := (ptsOf a).filter fun p => dec32 p.1 != .nan && lo.cmp (dec32 p.1) ≤ 0 && (dec32 p.1).cmp hi ≤ 0
        (lo = .nan ∨ hi = .nan ∨ kept = [] → ptsOf x = [] ∧ fl = fNV) ∧
        (lo ≠ .nan → hi ≠ .nan → kept ≠ [] → fl = 0 ∧ ∀ v w, (v, w) ∈ ptsOf x → ∃ w', (v, w') ∈ kept))) ∧
  (
    (∀ (o : ODmom) (s : State), s.runs → ∃ (x : Fin 8 → Fin 4 → Lanes) (g : Fin 8 → Fin 16 → Flags),
      exec (.dmom o) s = .next (s.eachFacet fun k s' =>
        let m := s.qreg k o.q 7
        let r := (List.finRange 4).foldl (fun s' n =>
          s'.withWrite (.v k (.v (Fin.ofNat 32 (o.vd.val + n.val)))) 8 (.lanes m (x k n)) Origin.dat) s'
        if flagsOf m (g k) = 0 then r else r.withWrite (.fsr k) 8 (.w ((flagsOf m (g k)).setWidth 64)) Origin.dat) ∧
      ∀ k l, (ptsOf ((s.dreg k o.a 0).lanes.get l) = [] → (∀ n, (x k n).get l = 0x7FC00000) ∧ g k l = fNV) ∧
        (∀ v, ptsOf ((s.dreg k o.a 0).lanes.get l) = [(v, 0x8000)] → finite32 v → val32 ((x k 0).get l) = val32 v ∧
          ∀ n, n ≠ 0 → val32 ((x k n).get l) = 0)) ∧
    (∀ (o : ODqnt) (s : State), s.runs → YieldsLanes (.dqnt o) s o.q o.vd 5 fun k l x fl =>
      let a := ptsOf ((s.dreg k o.a 0).lanes.get l)
      let p := ((s.fsrcI k o.ix 0 o.b).get l).toNat % 65536
      (0x8000 < p ∨ a = [] → x = 0x7FC00000 ∧ fl = fNV) ∧
      (p ≤ 0x8000 → ∀ pre v w post, a = pre ++ (v, w) :: post → p ≤ (pre.map (·.2)).sum + w →
        (pre = [] ∨ (pre.map (·.2)).sum < p) → x = v ∧ fl = 0)) ∧
    (∀ (o : ODqnt) (s : State), s.runs → YieldsLanes (.dcdf o) s o.q o.vd 5 fun k l x fl =>
      let a := ptsOf ((s.dreg k o.a 0).lanes.get l)
      let n := dec32 ((s.fsrcF k o.ix 0 o.b).get l)
      (n = .nan ∨ a = [] → x = 0 ∧ fl = fNV) ∧
      (n ≠ .nan → a ≠ [] → (a.map (·.2)).sum < 2 ^ 32 → fl = 0 ∧
        x.toNat = ((a.filter fun p => dec32 p.1 != .nan && (dec32 p.1).cmp n ≤ 0).map (·.2)).sum)))

/-- R40, R54, R56, R87: what the issue of a command does to the stack. The popped entries leave the depth map, the pushed ones stand on
top, filling, and every entry that is neither read nor popped stays as it is. A fence that still waits stays in force, and a command of
the engines that reads and writes no memory by itself leaves pts and the fences alone (R216). -/
def Obligations.TileIssue : Prop :=
  ∀ (s : State) (r : CmdReq) (op : Nat → CmdOp), r.pops ≤ s.t.stk.map.length →
    ∃ (k : Stack) (c : Cmd) (p : Nat) (fs : List Fence), s.issueCmd r op = { s with t := { s.t with
        stk := k, cmds := s.t.cmds ++ [c], seq := s.t.seq + 1, pts := p, fences := fs
        cnt := match r.cnt with | some x => s.t.cnt.add x | none => s.t.cnt } } ∧
      s.t.pts ≤ p ∧ c.p = p ∧ (∀ f ∈ fs, f ∈ s.t.fences) ∧ (∀ f ∈ s.t.fences, f.done = false → f ∈ fs) ∧
      (c.cls = 0 → p = s.t.pts ∧ fs = s.t.fences) ∧ c.root = s.t.dtroot ∧ c.ins = s.t.latch.ins ∧
      c.id = s.t.seq ∧ c.bundle = s.t.latch.addr ∧ c.op = op s.t.stk.nextId ∧ c.reads = r.reads ∧ c.fctl = s.t.fp.fctl ∧
      c.done = [] ∧ c.inj = r.inj ∧
      k.map = (List.range r.push.length).reverse.map (s.t.stk.nextId + ·) ++ s.t.stk.map.drop r.pops ∧
      k.map.length = s.t.stk.map.length - r.pops + r.push.length ∧ k.marks = s.t.stk.marks ∧
      (∀ e ∈ s.t.stk.entries, e.id ∉ r.reads → e.id ∉ s.t.stk.map.take r.pops → e ∈ k.entries) ∧
      (∀ (n : Nat) (d : Desc), r.push[n]? = some d → ∃ e ∈ k.entries, e.id = s.t.stk.nextId + n ∧ e.fmt = d.fmt ∧
        e.rows = d.rows ∧ e.cols = d.cols ∧ e.state = .filling ∧ e.mapped = true ∧ e.level = 0 ∧ e.cmd = s.t.seq)

/-- R53, R90 to R92: the stack faults, and the tile transfers at issue. An underflow is 0x21 with NEED the entries popped, an overflow 0x22 with
NEED the entries pushed; a depth or a mark out of reach is 0x24. The transfers read their staging registers, translate their base,
and take their place among the program-ordered accesses, row by row. That TGTH demands no format of its base page (log entry 46), and that
it takes 0x28 whatever its columns, base and pitch (log entry 36), are this model's. -/
def Obligations.TileTransfers : Prop :=
  (
    ∀ s : State,
      let n := s.t.stk.map.length
      let limit := if s.t.id.helper then 0 else s.t.stk.limit
      let faults (i : Instr) (pops pushes : Nat) : Prop :=
        (n < pops → exec i s = .next (s.takesTrap 0x21 pops)) ∧
        (pops ≤ n → limit < n - pops + pushes → exec i s = .next (s.takesTrap 0x22 pushes))
      (∀ o : OG, s.on o.g = true →
        (∀ i ∈ [Instr.texp2 o, .mma o, .mscl o, .tadd o, .tsub o, .tmul o, .tmaxe o, .tmine o], faults i 2 1) ∧
        (∀ i ∈ [Instr.mmac o, .tfma o], faults i 3 1) ∧ faults (.mmack o) 3 2 ∧
        (∀ i ∈ [Instr.trcp o, .trmax o, .trsum o, .tcsum o, .tscl o, .ttrn o], faults i 1 1)) ∧
      (∀ o : OGS, s.on o.g = true → faults (.tld o) 0 1 ∧ faults (.cpget o) 0 1 ∧ faults (.tst o) 1 0 ∧ faults (.cpput o) 1 0 ∧
        faults (.tgth o) 1 1 ∧ faults (.mmag o) 2 1) ∧
      (∀ o : OMake, s.on o.g = true → faults (.tzero o) 0 1 ∧ faults (.tfill o) 0 1) ∧
      (∀ o : OShape, s.on o.g = true → faults (.tshape o) 1 1 ∧ faults (.tbc o) 1 1) ∧
      (∀ o : OJoin, s.on o.g = true → faults (.tjoin o) 2 1) ∧ (∀ o : OFromv, s.on o.g = true → faults (.tfromv o) 0 1) ∧
      (∀ o : OTov, s.on o.g = true → faults (.ttov o) 1 0) ∧ (∀ o : OTcvt, s.on o.g = true → faults (.tcvt o) 1 1) ∧
      (∀ o : ODep, s.on o.g = true → faults (.tdrop o) (o.d.toNat + 1) 0 ∧
        (n ≤ o.d.toNat → ∀ i ∈ [Instr.tpick o, .trot o], exec i s = .next (s.takesTrap 0x24 0)) ∧
        (o.d.toNat < n → limit < n + 1 → exec (.tpick o) s = .next (s.takesTrap 0x22 1))) ∧
      (∀ o : OMark, s.on o.g = true → n < (s.t.stk.marks.get o.k).toNat → exec (.tunwind o) s = .next (s.takesTrap 0x24 0))) ∧
  (
    ∀ (o : OGS) (s : State), s.on o.g = true → s.t.cnt.tl < 32 →
      let tl (k : Fin 8) : W64 := s.t.stg.get (Fin.ofNat 40 k.val)
      let base := (tl 0).toNat
      let pitch := (tl 1).toInt
      let l := (s.scope o.scope).1
      let sc := (s.scope o.scope).2
      (∀ (f : Fmt) (tr : Tr),
        let n := (tl 2).toNat
        let m := (tl 3).toNat
        let rows := (List.range n).map fun i => (rowAddr base pitch i, f.rowBytes m)
        s.engineReady .et 0 1 [] → s.pageAt base false = .ok f tr →
        s.memHeld cLD (if n ≤ 64 then rows else []) false = false →
        (1 ≤ n → n ≤ 64 → 1 ≤ m → m ≤ 64 → (f.blocked = true → m % f.blk = 0) → base % f.size = 0 → (tl 1).toNat % f.size = 0 →
          (∀ c, s.rowStop tr base (f.rowBytes m) false = some (.fault c) → ∃ l e, exec (.tld o) s = .next (s.freezes
            (.fault { root := s.t.dtroot, va := base, kind := 4, scope := sc, write := false, atIssue := true, bundle := s.t.latch.addr
                      ins := s.t.latch.ins } c l e none))) ∧
          (s.rowStop tr base (f.rowBytes m) false = none →
              exec (.tld o) s = .next (((s.touch base).issueCmd
                { reads := [], pops := 0, push := [{ fmt := f, rows := n, cols := m }], cnt := some .tl, level := l, scope := sc }
                fun e => .tld e base pitch).withAccess (.tld s.t.seq) false l sc false false true false false false none
                  (rowPieces base pitch n (f.rowBytes m) tr)))) ∧
        (n < 1 ∨ 64 < n ∨ m < 1 ∨ 64 < m ∨ (f.blocked = true ∧ m % f.blk ≠ 0) → exec (.tld o) s = .next (s.takesTrap 0x26 0))) ∧
      (∀ (f : Fmt) (tr : Tr) (x : Entry),
        s.atTop [x] → s.engineReady .et 1 0 [x] → s.pageAt base true = .ok f tr →
        s.memHeld cST ((List.range x.rows).map fun i => (rowAddr base pitch i, f.rowBytes x.cols)) false = false →
        (base % f.size = 0 → (tl 1).toNat % f.size = 0 → (f.blocked = true → x.cols % f.blk = 0) →
          (∀ c, s.rowStop tr base (f.rowBytes x.cols) true = some (.fault c) → ∃ l e, exec (.tst o) s = .next (s.freezes
            (.fault { root := s.t.dtroot, va := base, kind := 4, scope := sc, write := true, atIssue := true, bundle := s.t.latch.addr
                      ins := s.t.latch.ins } c l e none))) ∧
          (s.rowStop tr base (f.rowBytes x.cols) true = none →
          let g := s.t.claimGens (if stochastic x.fmt f (s.t.fp.fctl.toNat % 4) then x.rows * x.cols else 0)
          let r := (({ s with t := g.2 } : State).touch base).issueCmd
            { reads := [x.id], pops := 1, push := [], cnt := some .tl, level := l, scope := sc, gens := g.1 }
            fun _ => .tst x.id base pitch f.code
          let ps := rowPieces base pitch x.rows (f.rowBytes x.cols) tr
          let put (s' : State) (staged : Bool) : State :=
            s'.withAccess (.tst s.t.seq) true l sc false false false true false staged none ps
          let stages := s.t.stage.mode = .staging ∧ sc = 0 ∧ s.t.stageFull (ps.map fun p => (p.va, p.len)) = false
          (stages → exec (.tst o) s = .next (put r true)) ∧
          (¬stages → exec (.tst o) s = .next (put r.endStaging false)))) ∧
        (base % f.size ≠ 0 ∨ (tl 1).toNat % f.size ≠ 0 → exec (.tst o) s = .next (s.takesTrap 0x27 0))) ∧
      (∀ (f : Fmt) (tr : Tr) (i : Entry),
        let m := (tl 3).toNat
        let ps := i.gather (tl 0) (tl 1) (tl 5) (f.rowBytes m)
        s.atTop [i] → s.engineReady .et 1 1 [i] → (tl 2).toNat < 32 → Fmt.ofCode (tl 2).toNat = some f → s.gatherHeld ps = false →
        (i.fmt ≠ .int32 ∨ i.rows ≠ 1 → exec (.tgth o) s = .next (s.takesTrap 0x28 0)) ∧
        (i.fmt = .int32 → i.rows = 1 → 1 ≤ m → m ≤ 64 → (f.blocked = true → m % f.blk = 0) → base % f.size = 0 →
          (tl 1).toNat % f.size = 0 → s.look base 1 false none = .ok tr →
          exec (.tgth o) s = .next (((s.touch base).issueCmd
            { reads := [i.id], pops := 1, push := [{ fmt := f, rows := i.cols, cols := m }], cnt := some .tl, level := l, scope := sc }
            fun e => .tgth i.id e base pitch (tl 5)).withAccess (.tld s.t.seq) false l sc false false true false false false none
              (ps.getD [])))))

/-- R58, R94 to R99: copies, rotations, drops and marks; tiles made in place, reshaped, joined, and moved from and to the facets. -/
def Obligations.TileRenamesAndMakes : Prop :=
  (
    (∀ (o : ODep) (s : State) (x : Entry), s.on o.g = true → s.t.atDepth o.d.toNat = some x → s.engineReady .et 0 1 [x] →
      exec (.tpick o) s = .next (s.makes [x] 0 x.fmt x.rows x.cols fun e => .tpick x.id e)) ∧
    (∀ (o : ODep) (s : State), s.on o.g = true → o.d.toNat < s.t.stk.map.length →
      s.t.stk.map.length ≤ (if s.t.id.helper then 0 else s.t.stk.limit) →
      ∃ m : List Nat, exec (.trot o) s = .next { s with t := { s.t with stk := { s.t.stk with map := m } } } ∧
        m[0]? = s.t.stk.map[o.d.toNat]? ∧ (∀ i < o.d.toNat, m[i + 1]? = s.t.stk.map[i]?) ∧
        ∀ i, o.d.toNat < i → m[i]? = s.t.stk.map[i]?) ∧
    (∀ (o : ODep) (s : State), s.on o.g = true → s.tileReady (o.d.toNat + 1) 0 [] →
      ∃ k : Stack, exec (.tdrop o) s = .next { s with t := { s.t with stk := k } } ∧ k.map = s.t.stk.map.drop (o.d.toNat + 1) ∧
        k.marks = s.t.stk.marks ∧
        ∀ e ∈ s.t.stk.entries, e.id ∉ s.t.stk.map.take (o.d.toNat + 1) → e ∈ k.entries) ∧
    (∀ (o : OMark) (s : State), s.on o.g = true → s.t.stk.map.length < 2 ^ 13 →
      ∃ m : BitVec 13, exec (.tmark o) s =
        .next { s with t := { s.t with stk := { s.t.stk with marks := s.t.stk.marks.set o.k m } } } ∧
        m.toNat = s.t.stk.map.length) ∧
    (∀ (o : OMark) (s : State), s.on o.g = true →
      let n := s.t.stk.map.length - (s.t.stk.marks.get o.k).toNat
      (s.t.stk.marks.get o.k).toNat ≤ s.t.stk.map.length → s.tileReady n 0 [] →
      ∃ k : Stack, exec (.tunwind o) s = .next { s with t := { s.t with stk := k } } ∧ k.map = s.t.stk.map.drop n ∧
        k.map.length = (s.t.stk.marks.get o.k).toNat ∧ k.marks = s.t.stk.marks)) ∧
  (
    (∀ (o : OMake) (s : State), s.on o.g = true → s.engineReady .et 0 1 [] →
      exec (.tzero o) s = .next (s.makes [] 0 o.f (o.r.val + 1) (o.c.val + 1) fun e => .const e 0) ∧
      exec (.tfill o) s = .next (s.makes [] 0 o.f (o.r.val + 1) (o.c.val + 1) fun e => .const e ((s.t.stg.get 4).setWidth 32))) ∧
    (∀ (o : OShape) (s : State) (x : Entry), s.on o.g = true → s.atTop [x] → s.engineReady .et 1 1 [x] →
      let r := o.r.val + 1
      let c := o.c.val + 1
      let ok := r * c = x.rows * x.cols ∧ (x.fmt.blocked = true → c % x.fmt.blk = 0)
      (ok → exec (.tshape o) s = .next (s.makes [x] 1 x.fmt r c fun e => .shape x.id e)) ∧
      (¬ok → exec (.tshape o) s = .next (s.takesTrap 0x28 0))) ∧
    (∀ (o : OJoin) (s : State) (y x : Entry), s.on o.g = true → s.atTop [y, x] → s.engineReady .et 2 1 [y, x] →
      let ok := x.fmt = y.fmt ∧
        if o.h then x.rows = y.rows ∧ x.cols + y.cols ≤ 64 else x.cols = y.cols ∧ x.rows + y.rows ≤ 64
      (ok → exec (.tjoin o) s = .next (s.makes [y, x] 2 x.fmt (if o.h then x.rows else x.rows + y.rows)
        (if o.h then x.cols + y.cols else x.cols) fun e => .join x.id y.id e o.h)) ∧
      (¬ok → exec (.tjoin o) s = .next (s.takesTrap 0x28 0))) ∧
    (∀ (o : OFromv) (s : State), s.on o.g = true → s.engineReady .et 0 1 [] →
      ∃ rows : List Lanes, exec (.tfromv o) s = .next (s.makes [] 0 o.f (o.r.val + 1) 16 fun e => .fromv e rows) ∧
        rows.length = o.r.val + 1 ∧ ∀ i, i ≤ o.r.val →
          let r : VReg := .v (Fin.ofNat 32 (o.vb.val + i / 8))
          s.vBusy (Fin.ofNat 8 i) r = false → rows[i]? = some (s.vreg (Fin.ofNat 8 i) r (i / 8))) ∧
    (∀ (o : OTov) (s : State) (x : Entry), s.on o.g = true → s.atTop [x] → s.engineReady .et 1 0 [x] →
      let ok := x.state ≠ .filling ∧ (x.fmt = .fp32 ∨ x.fmt = .int32) ∧ x.rows = o.r.val + 1 ∧ x.cols ≤ 16
      (ok → exec (.ttov o) s = .next (x.data.zipIdx.foldl (fun s r => s.withWrite
          (.v (Fin.ofNat 8 r.2) (.v (Fin.ofNat 32 (o.vb.val + r.2 / 8)))) 6
          (.lanes 0xFFFF (vecOf fun l => BitVec.ofNat 32 (leNat ((r.1.drop (4 * l.val)).take 4)))) Origin.dat)
        (s.issueCmd { reads := [x.id], pops := 1, push := [] } fun _ => .ttov x.id))) ∧
      (¬ok → exec (.ttov o) s = .next (s.takesTrap 0x28 0))))

/-- R80, R100 to R103, R361: products. Operands that do not fit are refused with trap 0x28. That MMAG translates its base page and
demands no format of it is this model's reading (log entry 46). -/
def Obligations.MatrixIssue : Prop :=
  (∀ (o : OG) (s : State) (b a : Entry), s.on o.g = true → s.atTop [b, a] → s.engineReady .em 2 1 [b, a] →
    let ok := pairs80 a.fmt b.fmt ∧ a.cols = b.rows
    let acc := if a.fmt = .int8 then Fmt.int32 else .fp32
    (ok → exec (.mma o) s = .next (s.makesMatrix [b, a] 2 [{ fmt := acc, rows := a.rows, cols := b.cols }]
        fun e => .mma a.id b.id none e none) ∧
      exec (.mscl o) s = .next (s.makesMatrix [b, a] 2 [{ fmt := .fp32, rows := a.rows, cols := b.cols }]
        fun e => .mscl a.id b.id e ((s.t.stg.get 10).setWidth 32))) ∧
    (¬ok → exec (.mma o) s = .next (s.takesTrap 0x28 0) ∧ exec (.mscl o) s = .next (s.takesTrap 0x28 0))) ∧
  (∀ (o : OG) (s : State) (c b a : Entry), s.on o.g = true → s.atTop [c, b, a] →
    let ok := pairs80 a.fmt b.fmt ∧ a.cols = b.rows ∧ c.rows = a.rows ∧ c.cols = b.cols ∧
      (a.fmt = .int8 ↔ c.fmt ∈ [Fmt.int8, .int32])
    let acc := if a.fmt = .int8 then Fmt.int32 else .fp32
    (s.engineReady .em 3 1 [c, b, a] →
      (ok → exec (.mmac o) s = .next (s.makesMatrix [c, b, a] 3 [{ fmt := acc, rows := a.rows, cols := b.cols }]
        fun e => .mma a.id b.id (some c.id) e none)) ∧
      (¬ok → exec (.mmac o) s = .next (s.takesTrap 0x28 0))) ∧
    (s.engineReady .em 3 2 [c, b, a] →
      (ok → exec (.mmack o) s = .next (s.makesMatrix [c, b, a] 3 [{ fmt := acc, rows := a.rows, cols := b.cols },
          { fmt := acc, rows := 2, cols := max a.rows b.cols }] fun e => .mma a.id b.id (some c.id) e (some (e + 1)))) ∧
      (¬ok → exec (.mmack o) s = .next (s.takesTrap 0x28 0)))) ∧
  (∀ (o : OGS) (s : State) (b i : Entry) (f : Fmt) (tr : Tr), s.on o.g = true → s.t.cnt.tl < 32 → s.atTop [b, i] →
    s.engineReady .em 2 1 [b, i] →
    let base := (s.t.stg.get 8).toNat
    let pitch := s.t.stg.get 9
    let ps := i.gather (s.t.stg.get 8) pitch (s.t.stg.get 11) (f.rowBytes b.rows)
    (s.t.stg.get 10).toNat < 32 → Fmt.ofCode (s.t.stg.get 10).toNat = some f → s.gatherHeld ps = false →
    let ok := i.fmt = .int32 ∧ i.rows = 1 ∧ pairs80 f b.fmt ∧ (f.blocked = true → b.rows % f.blk = 0)
    (¬ok → exec (.mmag o) s = .next (s.takesTrap 0x28 0)) ∧
    (ok → base % f.size ≠ 0 ∨ pitch.toNat % f.size ≠ 0 → exec (.mmag o) s = .next (s.takesTrap 0x27 0)) ∧
    (ok → base % f.size = 0 → pitch.toNat % f.size = 0 → s.look base 1 false none = .ok tr → s.runs →
      let r := ((s.touch base).issueCmd
        { reads := [b.id, i.id], pops := 2, inj := s.t.armed, cnt := some .tl, level := (s.scope o.scope).1
          scope := (s.scope o.scope).2
          push := [{ fmt := if f = .int8 then .int32 else .fp32, rows := i.cols, cols := b.cols }] }
        fun e => .mmag b.id i.id e base pitch.toInt f b.rows (s.t.stg.get 11)).withAccess (.tld s.t.seq) false
          (s.scope o.scope).1 (s.scope o.scope).2 false false true false false false none (ps.getD [])
      exec (.mmag o) s = .next { r with t := { r.t with finj := s.t.finj &&& ~~~BitVec.ofNat 64 (2 ^ 32) } }))

/-- R105 to R111: elementwise commands, reductions, broadcasts, conversions and transposes. A mix of kinds, a blocked operand of an
elementwise command, or shapes that differ are refused with trap 0x28. -/
def Obligations.TileVector : Prop :=
  (∀ p ∈ [(Instr.tadd, (0 : Fin 6)), (.tsub, 1), (.tmul, 2), (.tmaxe, 3), (.tmine, 4)],
    ∀ (o : OG) (s : State) (y x : Entry), s.on o.g = true → s.atTop [y, x] → s.engineReady .ev 2 1 [y, x] →
      let same := x.rows = y.rows ∧ x.cols = y.cols
      (same → allFloat [x.fmt, y.fmt] →
        exec (p.1 o) s = .next (s.makes [y, x] 2 .fp32 x.rows x.cols fun e => .bin p.2 x.id y.id e)) ∧
      (same → allInt [x.fmt, y.fmt] →
        exec (p.1 o) s = .next (s.makes [y, x] 2 .int32 x.rows x.cols fun e => .bin p.2 x.id y.id e)) ∧
      (¬same ∨ ¬(allFloat [x.fmt, y.fmt] ∨ allInt [x.fmt, y.fmt]) → exec (p.1 o) s = .next (s.takesTrap 0x28 0))) ∧
  (∀ (o : OG) (s : State) (w y x : Entry), s.on o.g = true → s.atTop [w, y, x] → s.engineReady .ev 3 1 [w, y, x] →
    let same := x.rows = y.rows ∧ x.cols = y.cols ∧ x.rows = w.rows ∧ x.cols = w.cols
    (same → allFloat [x.fmt, y.fmt, w.fmt] →
      exec (.tfma o) s = .next (s.makes [w, y, x] 3 .fp32 x.rows x.cols fun e => .fma x.id y.id w.id e)) ∧
    (same → allInt [x.fmt, y.fmt, w.fmt] →
      exec (.tfma o) s = .next (s.makes [w, y, x] 3 .int32 x.rows x.cols fun e => .fma x.id y.id w.id e)) ∧
    (¬same ∨ ¬(allFloat [x.fmt, y.fmt, w.fmt] ∨ allInt [x.fmt, y.fmt, w.fmt]) → exec (.tfma o) s = .next (s.takesTrap 0x28 0))) ∧
  (∀ (o : OG) (s : State) (m x : Entry), s.on o.g = true → s.atTop [m, x] → s.engineReady .ev 2 1 [m, x] →
    let ok := allFloat [x.fmt, m.fmt] ∧ m.rows = x.rows ∧ m.cols = 1
    (ok → exec (.texp2 o) s = .next (s.makes [m, x] 2 .fp32 x.rows x.cols
      fun e => .texp2 x.id m.id e ((s.t.stg.get 12).setWidth 32))) ∧
    (¬ok → exec (.texp2 o) s = .next (s.takesTrap 0x28 0))) ∧
  (∀ (o : OG) (s : State) (x : Entry), s.on o.g = true → s.atTop [x] → s.engineReady .ev 1 1 [x] →
    (allFloat [x.fmt] → exec (.trcp o) s = .next (s.makes [x] 1 .fp32 x.rows x.cols fun e => .trcp x.id e)) ∧
    (¬allFloat [x.fmt] → exec (.trcp o) s = .next (s.takesTrap 0x28 0)) ∧
    (allFloat [x.fmt] ∨ allInt [x.fmt] →
      let f := if x.fmt ∈ [Fmt.int8, .int32] then Fmt.int32 else .fp32
      exec (.trmax o) s = .next (s.makes [x] 1 f x.rows 1 fun e => .red 0 x.id e) ∧
      exec (.trsum o) s = .next (s.makes [x] 1 f x.rows 1 fun e => .red 1 x.id e) ∧
      exec (.tcsum o) s = .next (s.makes [x] 1 f 1 x.cols fun e => .red 2 x.id e) ∧
      exec (.tscl o) s = .next (s.makes [x] 1 f x.rows x.cols fun e => .tscl x.id e ((s.t.stg.get 12).setWidth 32))) ∧
    (x.fmt.blocked = true → ∀ i ∈ [Instr.trmax o, .trsum o, .tcsum o, .tscl o, .ttrn o], exec i s = .next (s.takesTrap 0x28 0)) ∧
    (x.fmt.blocked = false → exec (.ttrn o) s = .next (s.makes [x] 1 x.fmt x.cols x.rows fun e => .ttrn x.id e))) ∧
  (∀ (o : OShape) (s : State) (v : Entry), s.on o.g = true → s.atTop [v] → s.engineReady .ev 1 1 [v] →
    let r := o.r.val + 1
    let c := o.c.val + 1
    let ok := (v.rows = 1 ∧ (v.cols = 1 ∨ v.cols = c) ∨ v.rows = r ∧ v.cols = 1) ∧
      (v.fmt.blocked = true → v.rows = 1 ∧ v.cols = c)
    (ok → exec (.tbc o) s = .next (s.makes [v] 1 v.fmt r c fun e => .tbc v.id e)) ∧
    (¬ok → exec (.tbc o) s = .next (s.takesTrap 0x28 0))) ∧
  (∀ (o : OTcvt) (s : State) (x : Entry), s.on o.g = true → s.atTop [x] → s.engineReady .ev 1 1 [x] →
    let ok := o.f.blocked = true → x.cols % o.f.blk = 0
    let m := match o.rm with | .rn => 0 | .rz => 1 | .rs => 2 | .dyn => s.t.fp.fctl.toNat % 4
    let g := s.t.claimGens (if stochastic x.fmt o.f m then x.rows * x.cols else 0)
    (ok → exec (.tcvt o) s = .next (({ s with t := g.2 } : State).issueCmd
      { reads := [x.id], pops := 1, push := [{ fmt := o.f, rows := x.rows, cols := x.cols }], gens := g.1 }
      fun e => .tcvt x.id e m)) ∧
    (¬ok → exec (.tcvt o) s = .next (s.takesTrap 0x28 0)))

/-- R215, R229, R259, R309 to R316: the copy engine's commands at issue. They count in cp and read their staging registers; a bad value
takes trap 0x26, an address out of range 0x31, a misaligned one 0x30 or, of a tile's rows, 0x27. The order of these causes of one command is
this model's choice (log entry 36). -/
def Obligations.CopyIssue : Prop :=
  ∀ (s : State), s.t.cnt.cp < 16 →
    let cp (k : Fin 16) : W64 := s.t.stg.get (Fin.ofNat 40 (16 + k.val))
    let base := (cp 0).toNat
    let pitch := (cp 1).toInt
    let plain (s : State) (sc : Scope) (op : CmdOp) : State :=
      s.endStaging.issueCmd { reads := [], pops := 0, push := [], cnt := some .cp, level := (s.scope sc).1, scope := (s.scope sc).2 }
        fun _ => op
    (∀ (o : OGS) (f : Fmt) (tr : Tr), s.on o.g = true → base < 2 ^ 57 →
      let n := (cp 2).toNat
      let m := (cp 3).toNat
      s.tileReady 0 1 [] → s.pageAt base false = .ok f tr →
      s.fenced cCR (if n ≤ 64 ∧ m ≤ 64 then (List.range n).map fun i => (rowAddr base pitch i, f.rowBytes m) else []) false = false →
      1 ≤ n → n ≤ 64 → 1 ≤ m → m ≤ 64 → (f.blocked = true → m % f.blk = 0) → base % f.size = 0 → (cp 1).toNat % f.size = 0 →
      s.rowStop tr base (f.rowBytes m) false = none →
      exec (.cpget o) s = .next ((s.touch base).issueCmd
        { reads := [], pops := 0, push := [{ fmt := f, rows := n, cols := m }], cnt := some .cp, level := (s.scope o.scope).1
          scope := (s.scope o.scope).2, first := some tr, fills := true } fun e => .cpget e base pitch)) ∧
    (∀ (o : OGS) (f : Fmt) (tr : Tr) (x : Entry), s.on o.g = true → base < 2 ^ 57 → s.atTop [x] → s.tileReady 1 0 [x] →
      s.pageAt base true = .ok f tr →
      s.fenced cCW ((List.range x.rows).map fun i => (rowAddr base pitch i, f.rowBytes x.cols)) false = false →
      (base % f.size = 0 → (cp 1).toNat % f.size = 0 → (f.blocked = true → x.cols % f.blk = 0) →
        s.rowStop tr base (f.rowBytes x.cols) true = none →
        let g := s.t.claimGens (if stochastic x.fmt f (s.t.fp.fctl.toNat % 4) then x.rows * x.cols else 0)
        exec (.cpput o) s = .next ((({ s with t := g.2 } : State).touch base).endStaging.issueCmd
          { reads := [x.id], pops := 1, push := [], cnt := some .cp, level := (s.scope o.scope).1, scope := (s.scope o.scope).2
            first := some tr, gens := g.1 } fun _ => .cpput x.id base pitch f.code)) ∧
      (base % f.size ≠ 0 ∨ (cp 1).toNat % f.size ≠ 0 → exec (.cpput o) s = .next (s.takesTrap 0x27 0))) ∧
    (∀ o : OGS, s.on o.g = true →
      let rows := (cp 4).toNat
      let n := (cp 5).toNat
      let bad := rows < 1 ∨ 64 < rows ∨ n < 1 ∨ 4096 < n ∨ (cp 6).toNat % 256 = 0 ∨ 256 ≤ (cp 6).toNat
      s.unfenced (cCR ||| cCW) →
      (bad → exec (.cpmc o) s = .next (s.takesTrap 0x26 0)) ∧
      (¬bad → 2 ^ 57 ≤ base → exec (.cpmc o) s = .next (s.takesTrap 0x31 0)) ∧
      (¬bad → base < 2 ^ 57 → exec (.cpmc o) s = .next (plain s o.scope
        (.cpmc (s.t.id.core / 8) base pitch (cp 2).toNat (cp 3).toInt rows n ((cp 6).setWidth 8))))) ∧
    (∀ o : OBlk, s.on o.g = true → (s.t.blocks.get o.k).flag = 0 → s.unfenced cCR →
      let n := (cp 1).toNat
      (n < 1 ∨ 64 < n → exec (.ldblk o) s = .next (s.takesTrap 0x26 0)) ∧
      (1 ≤ n → n ≤ 64 → base < 2 ^ 57 → base % 64 ≠ 0 → exec (.ldblk o) s = .next (s.takesTrap 0x30 0)) ∧
      (1 ≤ n → n ≤ 64 → base < 2 ^ 57 → base % 64 = 0 → blockTooMany (s.blocksHere o.k) (base / 64) n = false →
        exec (.ldblk o) s = .next ((s.setFlag s.t.id.uid o.k { flag := 1, vline := base / 64, count := n, lines := [], lease := 0
                                                               level := (s.scope o.scope).1, cmd := s.t.seq
                                                               asid := asidOf s.t.dtroot }).issueCmd
          { reads := [], pops := 0, push := [], cnt := some .cp, level := (s.scope o.scope).1, scope := (s.scope o.scope).2 }
          fun _ => .ldblk o.k base n false))) ∧
    (∀ o : OBlkRel, s.on o.g = true →
      ((s.t.blocks.get o.k).flag = 0 → exec (.ldblkRel o) s = .next s) ∧
      ((s.t.blocks.get o.k).flag ≠ 0 → exec (.ldblkRel o) s = .next (s.setFlag s.t.id.uid o.k Block.free))) ∧
    (∀ o : OSort, s.on o.g = true →
      let n := (cp 3).toNat
      let z := (cp 4).toNat
      let bad := z < 1 ∨ 4096 < z ∨ n < 1 ∨ 65536 < n
      let far := 2 ^ 57 ≤ base ∨ 2 ^ 57 ≤ (cp 1).toNat ∨ 2 ^ 57 ≤ (cp 2).toNat
      let odd := base % min z 8 ≠ 0 ∨ (cp 2).toNat % min z 8 ≠ 0 ∨ (cp 1).toNat % 4 ≠ 0
      s.unfenced (cCR ||| cCW) →
      (bad → exec (.cpsort o) s = .next (s.takesTrap 0x26 0)) ∧ (¬bad → far → exec (.cpsort o) s = .next (s.takesTrap 0x31 0)) ∧
      (¬bad → ¬far → odd → exec (.cpsort o) s = .next (s.takesTrap 0x30 0)) ∧
      (¬bad → ¬far → ¬odd → exec (.cpsort o) s = .next (plain s o.scope
        (.cpsort o.scat base (cp 1).toNat (cp 2).toNat n z (cp 5))))) ∧
    (∀ o : OGS, s.on o.g = true →
      let n := (cp 1).toNat
      s.unfenced cCW →
      (2 ^ 57 ≤ base → exec (.cpfill o) s = .next (s.takesTrap 0x31 0)) ∧
      (base < 2 ^ 57 → base % 8 ≠ 0 ∨ n % 8 ≠ 0 → exec (.cpfill o) s = .next (s.takesTrap 0x30 0)) ∧
      (base < 2 ^ 57 → base % 8 = 0 → n % 8 = 0 → n < 8 ∨ 2 ^ 32 < n → exec (.cpfill o) s = .next (s.takesTrap 0x26 0)) ∧
      (base < 2 ^ 57 → base % 8 = 0 → n % 8 = 0 → 8 ≤ n → n ≤ 2 ^ 32 →
        exec (.cpfill o) s = .next (plain s o.scope (.cpfill base n (cp 2)))))

/-- R287, R288, R317 to R320: TOKEN and SPAWN wait for DONE, so that one which finds kc full with nothing else in it takes trap 0x17; DONE ends
the issue of bundles. Groups and barriers: that JOIN and LEAVE change the group at their issue, or with the commit of a staging node, is this model's choice (log entry 15),
and so is that SPAWN takes 0x31 before 0x30 (log entry 36). -/
def Obligations.DeferredAndGroups : Prop :=
  (
    (∀ (o : OTok) (s : State), s.on o.g = true →
      let x := s.t.stg.get 34
      (x.toNat < 2 ^ 32 → s.t.cnt.kc < 16 →
        exec (.token o) s = .next (s.withEk (.token (x.setWidth 32) o.k) (s.scope o.scope).1 (s.scope o.scope).2 true)) ∧
      (2 ^ 32 ≤ x.toNat → s.t.cnt.kc < 16 → exec (.token o) s = .next (s.takesTrap 0x26 0)) ∧
      (x.toNat < 2 ^ 32 → 16 ≤ s.t.cnt.kc → (∀ e ∈ s.t.eks, e.deferred = true) → exec (.token o) s = .next (s.takesTrap 0x17 0)) ∧
      (16 ≤ s.t.cnt.kc → (∃ e ∈ s.t.eks, e.deferred = false) → exec (.token o) s = .next s.isHeld)) ∧
    (∀ (o : OKd) (s : State), s.on o.g = true →
      let a := s.t.stg.get 37
      (goodAddr a 128 → s.t.cnt.kc < 16 → exec (.spawn o) s = .next (s.withEk (.spawn o.d a.toNat) 4 4 true)) ∧
      (2 ^ 57 ≤ a.toNat → s.t.cnt.kc < 16 → exec (.spawn o) s = .next (s.takesTrap 0x31 0)) ∧
      (a.toNat < 2 ^ 57 → a.toNat % 128 ≠ 0 → s.t.cnt.kc < 16 → exec (.spawn o) s = .next (s.takesTrap 0x30 0)) ∧
      (goodAddr a 128 → 16 ≤ s.t.cnt.kc → (∀ e ∈ s.t.eks, e.deferred = true) → exec (.spawn o) s = .next (s.takesTrap 0x17 0))) ∧
    (∀ (o : OG) (s : State), s.on o.g = true →
      (s.t.pend = [] → exec (.done o) s = .next { s with t := { s.t with run := .doneWait } }) ∧
      (s.t.pend ≠ [] → exec (.done o) s = .next (s.takesTrap 0x11 0)))) ∧
  (
    (∀ (o : OJoinG) (s : State), s.on o.g = true → s.t.cnt.kc < 16 →
      let commit := s.t.stage.mode = .staging ∨ s.t.stage.mode = .committing
      ((∀ e ∈ s.t.eks, e.op ≠ .gbar) → ¬commit → ∃ t : State, exec (.join o) s = .next t ∧ t.t.s = s.t.s ∧ t.t.stk = s.t.stk ∧
        (s.t.id.group = some o.n → t = s) ∧
        (s.t.id.group ≠ some o.n → t.t.id.group = some o.n ∧
          ∃ y ∈ (t.parts.get s.t.id.part).groups, y.id = o.n ∧ s.t.id.uid ∈ y.members)) ∧
      ((∀ e ∈ s.t.eks, e.op ≠ .gbar) → commit → exec (.join o) s = .next (s.withEk (.join o.n) 4 4 false)) ∧
      ((∃ e ∈ s.t.eks, e.op = .gbar) → exec (.join o) s = .next s.isHeld)) ∧
    (∀ (o : OG) (s : State), s.on o.g = true → s.t.cnt.kc < 16 →
      let commit := s.t.stage.mode = .staging ∨ s.t.stage.mode = .committing
      ((∀ e ∈ s.t.eks, e.op ≠ .gbar) → ¬commit → ∃ t : State, exec (.leave o) s = .next t ∧ t.t.id.group = none ∧ t.t.s = s.t.s ∧
        t.t.stk = s.t.stk) ∧
      ((∀ e ∈ s.t.eks, e.op ≠ .gbar) → commit → exec (.leave o) s = .next (s.withEk .leave 4 4 false)) ∧
      ((∃ e ∈ s.t.eks, e.op = .gbar) → exec (.leave o) s = .next s.isHeld)) ∧
    (∀ (o : OG) (s : State), s.on o.g = true →
      let changes := ∃ e ∈ s.t.eks, e.op = .leave ∨ ∃ g, e.op = .join g
      (s.t.cnt.kc < 16 → s.t.id.group ≠ none ∨ changes → exec (.gbar o) s = .next (s.withEk .gbar 4 4 false)) ∧
      (s.t.cnt.kc < 16 → s.t.id.group = none → ¬changes → exec (.gbar o) s = .next s.endStaging) ∧
      (16 ≤ s.t.cnt.kc → exec (.gbar o) s = .next s.isHeld)))

/-- R263, R323 to R326: rings, messages and collectives at issue. A rank out of range, or a count that is zero, 2^32 or more, or no whole number
of elements, takes trap 0x26; an address out of range 0x31; a misaligned one 0x30. Rings take 0x30 before
0x31, and the others 0x26 before 0x31 before 0x30: this order is the model's choice (log entry 36). That a ring command translates its
descriptor at issue, as a write, and keeps the translation is its reading (log entry 47). -/
def Obligations.PortIssue : Prop :=
  (
    ∀ s : State, s.t.cnt.kc < 16 →
      let a := s.t.stg.get 32
      (∀ i ∈ [(fun o => Instr.qres o), .qtake], ∀ o : OKd, s.on o.g = true →
        (a.toNat % 64 ≠ 0 → exec (i o) s = .next (s.takesTrap 0x30 0)) ∧
        (a.toNat % 64 = 0 → 2 ^ 57 ≤ a.toNat → exec (i o) s = .next (s.takesTrap 0x31 0))) ∧
      (∀ tr : Tr, goodAddr a 64 → s.look a.toNat 64 true none = .ok tr →
        let r := s.touch a.toNat
        (∀ o : OKd, s.on o.g = true → exec (.qres o) s = .next (r.withEk (.qres o.d tr) 4 4 false) ∧
          exec (.qtake o) s = .next (r.withEk (.qtake o.d tr) 4 4 false)) ∧
        (∀ o : OG, s.on o.g = true → exec (.qpub o) s = .next (r.withEk (.qpub ((s.t.stg.get 33).setWidth 32) tr) 4 4 false) ∧
          exec (.qfree o) s = .next (r.withEk (.qfree tr) 4 4 false))) ∧
      (∀ o : OGS, s.on o.g = true → s.unfenced cKR →
        let n := a.toNat
        let dest := s.t.stg.get 34
        let src := s.t.stg.get 37
        (n < 1 ∨ 4096 < n ∨ 2 ^ 32 ≤ dest.toNat → exec (.ksend o) s = .next (s.takesTrap 0x26 0)) ∧
        (1 ≤ n → n ≤ 4096 → dest.toNat < 2 ^ 32 → 2 ^ 57 ≤ src.toNat → exec (.ksend o) s = .next (s.takesTrap 0x31 0)) ∧
        (1 ≤ n → n ≤ 4096 → dest.toNat < 2 ^ 32 → src.toNat < 2 ^ 57 → exec (.ksend o) s =
          .next (s.withEk (.ksend (dest.setWidth 32) src.toNat n) (s.scope o.scope).1 (s.scope o.scope).2 false cKR [(src.toNat, n)]))) ∧
      (∀ o : OKrecv, s.on o.g = true → s.unfenced cKW →
        let n := a.toNat
        let dst := s.t.stg.get 38
        (n < 1 ∨ 4096 < n → exec (.krecv o) s = .next (s.takesTrap 0x26 0)) ∧
        (1 ≤ n → n ≤ 4096 → 2 ^ 57 ≤ dst.toNat → exec (.krecv o) s = .next (s.takesTrap 0x31 0)) ∧
        (1 ≤ n → n ≤ 4096 → dst.toNat < 2 ^ 57 → exec (.krecv o) s =
          .next (s.withEk (.krecv o.d dst.toNat n) (s.scope o.scope).1 (s.scope o.scope).2 false cKW [(dst.toNat, n)])))) ∧
  (
    ∀ s : State, s.t.cnt.kc < 16 → s.unfenced (cKR ||| cKW) →
      let n := (s.t.stg.get 32).toNat
      let src := (s.t.stg.get 37).toNat
      let dst := (s.t.stg.get 38).toNat
      let c := (s.t.stg.get 39).toNat
      let comm := c % 2 ^ 32
      let rank := c / 2 ^ 32 % 2 ^ 16
      let size := c / 2 ^ 48 + 1
      let issues (i : Instr) (kind : Fin 4) (rop : Rop) (et : EType) (d : Fin 56) (sc : Scope) : Prop :=
        let e := match et with | .fp32 | .int32 => 4 | .bf16 | .fp16 => 2 | .int8 => 1
        let bad := size ≤ rank ∨ 2 ^ 32 ≤ n ∨ n < 1 ∨ n % e ≠ 0
        -- the bytes that the member reads and writes: N for all-reduce, SIZE times N for what is gathered or scattered
        let lens := match kind with | 0 => (n, n) | 1 => (n, size * n) | 2 => (size * n, n) | 3 => (if rank = 0 then n else 0, n)
        let far := 2 ^ 57 ≤ src ∨ 2 ^ 57 ≤ dst
        (bad → exec i s = .next (s.takesTrap 0x26 0)) ∧ (¬bad → far → exec i s = .next (s.takesTrap 0x31 0)) ∧
        (¬bad → ¬far → src % e ≠ 0 ∨ dst % e ≠ 0 → exec i s = .next (s.takesTrap 0x30 0)) ∧
        (¬bad → ¬far → src % e = 0 → dst % e = 0 → exec i s =
          .next ((s.withEk (.coll kind rop et d n src dst comm rank size) (s.scope sc).1 (s.scope sc).2 false (cKR ||| cKW)
            [(src, lens.1), (dst, lens.2)]).joinColl comm rank size (s.scope sc).2 { kind := kind, rop := rop, et := et, n := n }))
      (∀ o : OKar, s.on o.g = true → issues (.kar o) 0 o.op o.e o.d o.scope ∧ issues (.krs o) 2 o.op o.e o.d o.scope) ∧
      (∀ o : OKag, s.on o.g = true → issues (.kag o) 1 .add o.e o.d o.scope ∧ issues (.kbc o) 3 .add o.e o.d o.scope))

/-- R137, R330 to R333: TLBI and FLUSHCTX are for system tasks, and take trap 0x1A at task privilege; ICINV is for all. R297, R298, R300, R302: a
region of a mould. MBEG begins a recording unless another one records the mould; MGRD adds a guard that holds and aborts on one that
does not; MEND closes the region. That the record can be read is assumed of MBEG: no line of it is poisoned and no copy of a containment
structure has failed (R378, R379). The order 0x1A, 0x26, 0x31 in TLBI and FLUSHCTX is this model's choice (log entry 36). -/
def Obligations.SystemAndMouldCommands : Prop :=
  (
    ∀ s : State, s.t.cnt.kc < 16 →
      let va := s.t.stg.get 37
      let asid := s.t.stg.get 38
      (∀ o : OTlbi, s.on o.g = true →
        (s.t.id.system = false → exec (.tlbi o) s = .next (s.takesTrap 0x1A 0)) ∧
        (s.t.id.system = true → 256 ≤ asid.toNat → exec (.tlbi o) s = .next (s.takesTrap 0x26 0)) ∧
        (s.t.id.system = true → asid.toNat < 256 → o.k = .page → 2 ^ 57 ≤ va.toNat → exec (.tlbi o) s = .next (s.takesTrap 0x31 0)) ∧
        (s.t.id.system = true → asid.toNat < 256 → (o.k = .page → va.toNat < 2 ^ 57) →
          exec (.tlbi o) s = .next (s.withEk (.tlbi o.k (va.setWidth 57) (asid.setWidth 8)) 4 4 false))) ∧
      (∀ o : OG, s.on o.g = true →
        (s.t.id.system = false → exec (.flushctx o) s = .next (s.takesTrap 0x1A 0)) ∧
        (s.t.id.system = true → 256 ≤ asid.toNat → exec (.flushctx o) s = .next (s.takesTrap 0x26 0)) ∧
        (s.t.id.system = true → asid.toNat < 256 → exec (.flushctx o) s = .next (s.bumpAll.withEk (.flush (asid.setWidth 8)) 4 4 false))) ∧
      (∀ o : OGS, s.on o.g = true →
        (2 ^ 57 ≤ va.toNat → exec (.icinv o) s = .next (s.takesTrap 0x31 0)) ∧
        (va.toNat < 2 ^ 57 → exec (.icinv o) s =
          .next ((s.bumpEpoch s.t.id.part).withEk (.icinv (va.setWidth 57)) (s.scope o.scope).1 (s.scope o.scope).2 false)))) ∧
  (
    (∀ (o : OG) (s : State), s.on o.g = true →
      let x := s.t.stg.get 35
      let m : W32 := x.setWidth 32
      (x = 0 ∨ 2 ^ 32 ≤ x.toNat → exec (.mbeg o) s = .next (s.takesTrap 0x26 0)) ∧
      (x ≠ 0 → x.toNat < 2 ^ 32 → s.t.mrec.state = .off → s.mem.poison = [] → s.ros.copies = [] → s.dev.cLost = false →
        ∀ l, s.lookRange (m.toNat * 32768) 8 true none = .ok l →
        ∃ t : State, exec (.mbeg o) s = .next t ∧ t.t.s = s.t.s ∧
          (s.endStaging.mouldNow m ≠ 1 → s.t.mrec.impure = false → s.t.stk.map = [] →
            t.t.mrec.state = .recording ∧ t.t.mrec.mould = m ∧ t.t.mrec.maddr = s.t.latch.addr ∧ t.t.mrec.guards = [] ∧
            t.t.mrec.entries = []) ∧
          (s.endStaging.mouldNow m ≠ 1 → s.t.mrec.impure = true ∨ s.t.stk.map ≠ [] → t.t.mrec.state = .off) ∧
          (s.endStaging.mouldNow m = 1 → t.t.mrec.state = .off)) ∧
      (x ≠ 0 → x.toNat < 2 ^ 32 → s.t.mrec.state ≠ .off → ∃ t : State, exec (.mbeg o) s = .next t ∧ t.t.mrec.state = .off ∧
        t.t.s = s.t.s)) ∧
    (∀ (o : OMgrd) (s : State), s.on o.g = true →
      let v := s.t.stg.get 36
      let a := s.arg o.k
      let holds := match o.rel with
        | .eq => a = v
        | .ne => a ≠ v
        | .lt => a.toInt < v.toInt
        | .ge => a.toInt ≥ v.toInt
        | .ltu => a.toNat < v.toNat
        | .geu => a.toNat ≥ v.toNat
      let e := s.endStaging
      let more : Recording := { s.t.mrec with guards := s.t.mrec.guards ++ [(o.rel, o.k, v)] }
      let fits := s.t.mrec.guards.length < 8 ∧ more.bytes ≤ 32768
      (2 ^ 32 ≤ v.toNat → exec (.mgrd o) s = .next (s.takesTrap 0x26 0)) ∧
      (v.toNat < 2 ^ 32 → s.t.mrec.state ≠ .recording → exec (.mgrd o) s = .next e) ∧
      (v.toNat < 2 ^ 32 → s.t.mrec.state = .recording → holds → fits →
        exec (.mgrd o) s = .next { e with t := { e.t with mrec := more } }) ∧
      (v.toNat < 2 ^ 32 → s.t.mrec.state = .recording → ¬holds ∨ ¬fits →
        ∃ t : State, exec (.mgrd o) s = .next t ∧ t.t.mrec.state = .off)) ∧
    (∀ (o : OG) (s : State), s.on o.g = true →
      let e := s.endStaging
      (s.t.mrec.state = .recording →
        exec (.mend o) s = .next { e with t := { e.t with mrec := { s.t.mrec with state := .closed } } }) ∧
      (s.t.mrec.state ≠ .recording → exec (.mend o) s = .next e)))

/-- R114, R115, R132, R233: fetch and translation. A demand fetch freezes on a missing translation or line and traps on a forbidden
page once its bundle has reached issue; a fill makes the line present, and the freeze goes on while the bundle at the pc misses more;
a walk ends with the entry in the TLBs, or goes on as a fault of data or as trap 0x08. Fills and prefetches are stated where no copy of a
containment structure has failed, since their look-ups would compare such a copy (R379). -/
def Obligations.FetchEvents : Prop :=
  ∀ (s : State) (u : Nat), s.hasTask u = true →
    let f := s.focus u
    let r := f.landed
    let at_ (r : State) : State := { r with t := { r.t with latch := { r.t.latch with addr := r.t.pc }, ran := [] } }
    let thawed : State := { f with t := { f.t with frz := none } }
    -- the freeze ends, or goes on for what the bundle at the pc misses next
    let after (g : State) : State := match g.fetchBundle f.t.pc.toNat with | .stop x => g.freezes x | _ => g
    (f.t.run = .running → f.coreFrozen = false → f.t.cast = none →
      (∀ hp l, f.fetchBundle f.t.pc.toNat = .ok hp l → ∃ cs, exec (.demandFetch u) s = .next (s.back { f with cores := cs })) ∧
      (∀ x, f.fetchBundle f.t.pc.toNat = .stop x → exec (.demandFetch u) s = .next (s.back (f.freezes x))) ∧
      (∀ c, f.fetchBundle f.t.pc.toNat = .trap c → f.reachesIssue = true → r.badFetch = none →
        exec (.demandFetch u) s = .next (s.back ((at_ r).takesTrap c 0))) ∧
      (∀ c, f.fetchBundle f.t.pc.toNat = .trap c → f.reachesIssue = false → exec (.demandFetch u) s = .next (s.back f)) ∧
      (f.ilook f.t.pc.toNat = .miss → exec (.demandFetch u) s = .next (s.back (f.freezes (.iwalk f.t.pc)))) ∧
      (f.ilook f.t.pc.toNat = .system → f.reachesIssue = true →
        exec (.demandFetch u) s = .next (s.back ((at_ r).takesTrap 0x09 0)))) ∧
    (∀ va pa key, f.t.frz = some (.fetch va) → f.ilook va = .ok pa key → f.ros.copies = [] →
      (f.fetchGone va = false → ∃ cs, exec (.icacheFill u) s = .next (s.back (after { thawed with cores := cs })) ∧
        icacheFind (({ f with cores := cs } : State).core f.t.id.core).icache (asidOf f.t.dtroot) (pa / 128) =
          some (f.readLine key (asidOf f.t.dtroot) (pa / 128))) ∧
      (f.fetchGone va = true → exec (.icacheFill u) s = .next (s.back f))) ∧
    (∀ va pa key, f.t.id.resident = true → f.t.run ≠ .ended → f.coreFrozen = false → f.t.pc.toNat ≤ va.toNat →
      va.toNat < f.t.pc.toNat + 512 → f.ilook va.toNat = .ok pa key → f.ros.copies = [] → f.fetchGone va = false →
      ∃ cs, exec (.instructionPrefetch u va) s = .next (s.back { f with cores := cs }) ∧
        (icacheFind (({ f with cores := cs } : State).core f.t.id.core).icache (asidOf f.t.dtroot) (pa / 128)).isSome = true) ∧
    (∀ r, f.plain → f.t.frz = some (.walk r) →
      (∀ e, f.dwalk r.root r.va = .leaf e → e.hits (asidOf r.root) r.va = true →
        ∃ cs cl, exec (.pageWalkComplete u) s = .next (s.back { thawed with cores := cs, clusters := cl }) ∧
          tlbFind (({ f with cores := cs } : State).core f.t.id.core).dtlb (asidOf r.root) r.va = some e) ∧
      (∀ c l x, f.dwalk r.root r.va = .bad c l x → exec (.pageWalkComplete u) s = .next (s.back (f.freezes (.fault r c l x none))))) ∧
    (∀ va, f.plain → f.t.frz = some (.iwalk va) →
      (∀ e, f.iwalk va.toNat = .leaf e → e.hits (asidOf f.t.dtroot) va.toNat = true →
        ∃ cs, exec (.pageWalkComplete u) s = .next (s.back (after { thawed with cores := cs })) ∧
          tlbFind (({ f with cores := cs } : State).core f.t.id.core).itlb (asidOf f.t.dtroot) va.toNat = some e) ∧
      (∀ c l x, f.iwalk va.toNat = .bad c l x →
        exec (.pageWalkComplete u) s = .next (s.back ((at_ thawed).takesTrap 0x08 0))))

/-- R119, R150, R216, R243 to R245, R251: memory. The oldest access that is not performed takes its next piece. A load reads the
bytes that memory holds; a store changes the bytes that it names and no other; a reply ends a load; an element of a copy command
is performed once; a narrow write goes one level out. That an event which is not enabled does nothing is this model's choice (log entry
16). -/
def Obligations.MemoryEvents : Prop :=
  ∀ (s : State) (u : Nat), s.hasTask u = true →
    let f := s.focus u
    f.plain → f.enginesStop = false → f.t.stage = Stage.off → f.t.run = .running → f.t.eks = [] → f.t.cmds = [] →
    (∀ k : Fin 16, (f.t.blocks.get k).flag = 0) →
    (∀ (a : Acc) (l : List Acc) (p : Piece) (tr : Tr), f.t.acc = a :: l → (∀ x ∈ l, x.id ≠ a.id) → a.pieces = [p] →
      p.trs = [tr] → tr.e = false → 0 < p.len → tr.size = 0 ∨ p.va + p.len ≤ tr.base + tr.size → region tr.pa = .device → a.staged = false → a.note = false →
      (∀ d, a.op = .ldS d →
        ∃ r : State, exec (.performAccess u) s = .next (s.back r) ∧ r.mem.cells = f.mem.cells ∧ r.mem.narrow = [] ∧
          r.t.acc = { a with pieces := [], got := a.got ++ (p.key :: p.also).map fun k =>
            (k, (List.range p.len).map fun i => cellGet (tr.pa + i) f.mem.cells) } :: l ∧
          r.t.s = f.t.s ∧ r.t.p = f.t.p ∧ r.t.cnt = f.t.cnt ∧ r.t.pc = f.t.pc ∧ r.t.stk = f.t.stk ∧ f.t.pts ≤ r.t.pts) ∧
      (a.op = .stS → a.write = true → p.data.length = p.len → a.level = 4 →
        ∃ r : State, exec (.performAccess u) s = .next (s.back r) ∧ r.t.acc = l ∧ r.t.cnt = f.t.cnt.sub .st ∧
          (∀ x : Nat, cellGet x r.mem.cells =
            if tr.pa ≤ x ∧ x < tr.pa + p.len then p.data.getD (x - tr.pa) 0 else cellGet x f.mem.cells) ∧
          r.mem.narrow = [] ∧ r.t.s = f.t.s ∧ r.t.p = f.t.p ∧ r.t.pc = f.t.pc ∧ r.t.stk = f.t.stk ∧ f.t.pts ≤ r.t.pts) ∧
      (a.op = .stS → a.write = true → p.data.length = p.len → a.level < 4 →
        ∃ (r : State) (w : Wr), exec (.performAccess u) s = .next (s.back r) ∧ r.t.acc = l ∧ r.t.cnt = f.t.cnt.sub .st ∧
          r.mem.cells = f.mem.cells ∧ r.mem.narrow = [w] ∧ w.pa = tr.pa ∧ w.bytes = p.data ∧ w.task = u ∧ w.level = a.level ∧
          w.t = r.t.pts ∧ r.t.s = f.t.s ∧ r.t.p = f.t.p ∧ r.t.pc = f.t.pc ∧ r.t.stk = f.t.stk) ∧
    (∀ (a : Acc) (d : Dst) (k : Nat) (b : List Byte), f.t.acc = [a] → a.op = .ldS d → a.pieces = [] → a.got = [(k, b)] →
      ∀ fl : Flight, f.t.flights = [fl] → a.flight = some fl.id →
        f.coreFrozen = false ∨ f.t.frz = some (.reply a.id) →
        exec (.memoryReply u) s = .next (s.back { f with t := { f.t with
          acc := [], flights := [{ fl with val := .w (BitVec.ofNat 64 (leNat b)) }], frz := none
          cnt := { f.t.cnt with ld := f.t.cnt.ld - 1 } } })) ∧
    (exec (.watchFire u) s = .next (s.back (if f.t.watch.armed = true then
      { f with t := { f.t with watch := { f.t.watch with fired := true } } } else f))))

/-- R244, R251: an element of CPFILL writes the pattern at its place, and a write of scope DIE that goes one level out is visible
device-wide. -/
def Obligations.ElementsAndPropagation : Prop :=
  (∀ (s : State) (u : Nat), s.hasTask u = true →
    let f := s.focus u
    ∀ (c : Cmd) (base len i : Nat) (pat : W64) (tr : Tr), f.t.run = .running → f.enginesStop = false → f.t.stage = Stage.off →
      f.plain → f.t.acc = [] → f.t.eks = [] → f.t.cmds = [c] → c.op = .cpfill base len pat → c.first = none → c.level = 4 →
      i ∉ c.done → base + len ≤ 2 ^ 57 → base % 8 = 0 →
      let a := max base (base / 64 * 64 + 64 * i)
      let b := min (base + len) (base / 64 * 64 + 64 * i + 64)
      a < b → f.look a (b - a) true none c.root = .ok tr → tr.e = false → region tr.pa = .device →
        ∃ r : State, exec (.bulkElementAccess u c.id i) s = .next (s.back r) ∧
          (∃ x, r.t.cmds = [x] ∧ x.op = c.op ∧ x.done = c.done ++ [i]) ∧
          (∀ y : Nat, cellGet y r.mem.cells = if tr.pa ≤ y ∧ y < tr.pa + (b - a) then
            BitVec.ofNat 8 (pat.toNat / 256 ^ ((a + (y - tr.pa)) % 8)) else cellGet y f.mem.cells) ∧
          r.t.s = f.t.s ∧ f.t.pts ≤ r.t.pts ∧ r.t.stk = f.t.stk) ∧
  (∀ (s : State) (w : Wr), s.mem.wf = true → s.mem.narrow = [w] → s.mem.past = [] → s.mem.tags = [] → w.rel = false → w.key = none →
    (w.level = 3 → ∃ r : State, exec (.propagateWrite w.seq) s = .next r ∧ r.mem.narrow = [] ∧
      (∀ y : Nat, cellGet y r.mem.cells =
        if w.pa ≤ y ∧ y < w.pa + w.bytes.length then w.bytes.getD (y - w.pa) 0 else cellGet y s.mem.cells) ∧
      r.t.s = s.t.s ∧ r.nodes = s.nodes) ∧
    (w.level < 3 → ∃ (r : State) (x : Wr), exec (.propagateWrite w.seq) s = .next r ∧ r.mem.narrow = [x] ∧
      x.level = w.level + 1 ∧ x.bytes = w.bytes ∧ x.pa = w.pa ∧ w.t ≤ x.t ∧ r.mem.cells = s.mem.cells ∧ r.t.s = s.t.s))

/-- R258, R262, R263, R321: the steps of a ring, by the pointers PUB, RSV, FRE and TAK of its descriptor. That
pointers compare as signed distances is this model's inference (log entry 47); that a QPUB 64 slots or more past PUB changes nothing and
sets PUB of kstat is its choice (log entry 109). -/
def Obligations.RingSteps : Prop :=
  ∀ (s : State) (u : Nat), s.hasTask u = true →
    let f := s.focus u
    ∀ (e : Ek) (tr : Tr) (code n : Nat), f.t.eks = [e] → f.t.run = .running → f.coreFrozen = false → f.t.acc = [] →
      f.t.cmds = [] → f.plain → f.t.stage = Stage.off → tr.e = false → region tr.pa = .device → tr.pa % 64 = 0 →
      let word (k : Nat) : W32 := f.mem.hwWord (tr.pa + 4 * k)
      let pub := word 0
      let rsv := word 1
      let fre := word 2
      let tak := word 3
      let bm := f.mem.hwDword (tr.pa + 16)
      ringShape (f.mem.hwRead none tr.pa 64) = some (code, n) → code ∈ [4, 6, 7, 8, 9] →
      -- RSV − FRE and RSV − PUB modulo 2^32
      (∀ d : Fin 56, d ≠ 0 → e.op = .qres d tr →
        let room := (rsv - fre).toNat < n ∧ (rsv - pub).toNat < 64
        ∃ r : State, exec (.ringReserveStep u e.id) s = .next (s.back r) ∧ r.t.eks = [] ∧ r.t.cnt = f.t.cnt.sub .kc ∧
          (room → r.t.s.get d = rsv.setWidth 64 ∧ r.mem.hwWord (tr.pa + 4) = rsv + 1) ∧
          (¬room → r.t.s.get d = BitVec.allOnes 64 ∧ r.mem = f.mem) ∧
          ∀ k : Nat, k ∈ [0, 2, 3] → r.mem.hwWord (tr.pa + 4 * k) = word k) ∧
      (∀ slot : W32, e.op = .qpub slot tr →
        let i := (slot - pub).toNat
        let bad := (rsv - pub).toNat ≤ i ∨ 64 ≤ i ∨ bm.getLsbD i = true
        ∃ r : State, exec (.ringPublishStep u e.id) s = .next (s.back r) ∧ r.t.eks = [] ∧ r.t.cnt = f.t.cnt.sub .kc ∧
          (bad → r.t.kstat.getLsbD 1 = true ∧ r.mem = f.mem) ∧
          (¬bad → 0 < i → bm.getLsbD 0 = false → r.mem.hwWord tr.pa = pub ∧
            r.mem.hwDword (tr.pa + 16) = bm ||| (1 : W64) <<< i) ∧
          (¬bad → i = 0 → bm = 0 → r.mem.hwWord tr.pa = pub + 1 ∧ r.mem.hwDword (tr.pa + 16) = 0)) ∧
      (∀ d : Fin 56, d ≠ 0 → e.op = .qtake d tr →
        let some_ := 0 < (pub - tak).toInt
        (some_ → ∃ r : State, exec (.ringTakeStep u e.id) s = .next (s.back r) ∧ r.t.eks = [] ∧ r.t.cnt = f.t.cnt.sub .kc ∧
          r.t.s.get d = tak.setWidth 64 ∧ r.mem.hwWord (tr.pa + 12) = tak + 1 ∧ r.mem.hwWord tr.pa = pub) ∧
        (¬some_ → exec (.ringTakeStep u e.id) s =
          .next (s.back { f with t := { f.t with eks := [{ e with waiting := true }] } }))) ∧
      (e.op = .qfree tr →
        ∃ r : State, exec (.ringFreeStep u e.id) s = .next (s.back r) ∧ r.t.eks = [] ∧ r.t.cnt = f.t.cnt.sub .kc ∧
          (0 < (tak - fre).toInt → r.mem.hwWord (tr.pa + 8) = fre + 1) ∧ (¬0 < (tak - fre).toInt → r.mem = f.mem))

/-- R45 to R54, R61, R96, R230, R311, R314, R330 to R333: entries become ready with their rows, latches give entries back, entries sink and rise,
commands complete, and an entry of a suspended task goes to its spill region. Which entry sinks where latches are short (log entry 81), the
slot and the layout of the spill region (log entry 21), what TLBI waits for (log entry 91), and that an event which is not enabled does
nothing (log entry 16), are this model's. -/
def Obligations.EngineEvents : Prop :=
  (
    ∀ (s : State) (u : Nat), s.hasTask u = true →
      let f := s.focus u
      let rowsOf (e : Entry) (pat : W32) : List (List Byte) :=
        List.replicate e.rows (List.replicate e.cols (leBytes 4 pat.toNat)).flatten
      f.t.run = .running → f.coreFrozen = false →
      (∀ (c : Cmd) (e : Entry) (pat : W32), f.t.cmds = [c] → c.op = .const e.id pat → c.latched = true → c.inj = none →
        c.got = [] → f.t.stk.entries = [e] → e.level = 0 → e.mapped = true → e.readers = 0 → e.fmt = .fp32 ∨ e.fmt = .int32 →
        ∃ r : State, exec (.entryReady u c.id) s = .next (s.back r) ∧ r.t.cmds = [] ∧ r.t.stk.map = f.t.stk.map ∧
          r.t.stk.entries = [{ e with state := .ready, data := rowsOf e pat }] ∧ r.t.s = f.t.s ∧ r.mem = f.mem) ∧
      (∀ (c : Cmd) (x y : Entry), f.t.cmds = [c] → c.op = .ttrn x.id y.id → c.latched = false → c.reads = [x.id] →
        f.t.stk.entries = [x, y] → x.id ≠ y.id → x.level = 0 → x.state = .draining → x.readers = 1 → x.mapped = false →
        x.bad = none →
        ∃ (r : State) (d : Cmd), exec (.entryLatched u c.id) s = .next (s.back r) ∧ r.t.cmds = [d] ∧ d.latched = true ∧
          d.op = c.op ∧ r.t.stk.entries = [y] ∧ r.t.stk.map = f.t.stk.map ∧
          (x.fmt = .fp32 → ∀ i j, i < x.cols → j < x.rows → (∀ row ∈ x.data, row.length = 4 * x.cols) → x.data.length = x.rows →
            ∃ row, (i, row) ∈ d.got ∧ (row.drop (4 * j)).take 4 = ((x.data.getD j []).drop (4 * i)).take 4)) ∧
      (∀ c : Nat, (∀ e, f.sinkNext = some e → e.id ≠ c) → exec (.entrySink u c) s = .next (s.back f)) ∧
      (∀ e : Entry, f.sinkNext = some e →
        let a := f.lookAhead
        let room := f.benchUsed < 8 ∧ f.benchUsed + a.pushes ≤ 8
        e.level = 0 ∧ e.state = .ready ∧ (6 < f.benchUsed ∨ 8 < f.benchUsed + a.pushes) ∧
          (f.benchUsed < 8 → e.id ∉ a.now) ∧ (room → e.id ∉ a.soon) ∧
          (∀ x ∈ f.t.stk.entries, x.level = 0 → x.state = .ready → x.id ∉ a.now → (room → x.id ∉ a.soon) →
            f.t.stk.depthOf x.id ≤ f.t.stk.depthOf e.id) ∧
          (f.suspendedFirst e = none → f.levelUsed 1 + e.granules ≤ 512 →
            exec (.entrySink u e.id) s = .next (s.back { f with t := { f.t with stk := f.t.stk.setLevel e.id 1 } }))) ∧
      (∀ c : Nat, f.riseNext ≠ some c → exec (.entryRise u c) s = .next (s.back f)) ∧
      (∀ e : Entry, f.t.entry e.id = some e → f.riseNext = some e.id → f.benchUsed < 8 ∧ e.level ≠ 0 ∧
        (e.level ≠ 3 →
          exec (.entryRise u e.id) s = .next (s.back { f with t := { f.t with stk := f.t.stk.setLevel e.id 0 } }))) ∧
      (∀ (c : Cmd) (base len : Nat) (pat : W64), f.t.cmds = [c] → c.op = .cpfill base len pat → c.whole f.t = true → c.fl = 0 →
        ∃ r : State, exec (.copyCommandComplete u c.id) s = .next (s.back r) ∧ r.t.cmds = [] ∧ r.t.cnt = f.t.cnt.sub .cp ∧
          r.mem = f.mem ∧ r.t.s = f.t.s) ∧
      (∀ (c : Cmd) (k : Fin 16) (base n : Nat), f.t.cmds = [c] → c.op = .ldblk k base n false → c.whole f.t = true →
        (f.t.blocks.get k).cmd = c.id → (f.t.blocks.get k).flag = 1 →
        ∃ r : State, exec (.blockReady u c.id) s = .next (s.back r) ∧ r.t.cmds = [] ∧ r.t.cnt = f.t.cnt.sub .cp ∧
          (r.t.blocks.get k).flag = 2 ∧ r.t.s = f.t.s) ∧
      (∀ e : Ek, f.t.eks = [e] → f.t.acc = [] → f.t.cmds = [] → f.mem.narrow = [] →
        (∀ k va asid, e.op = .tlbi k va asid → ∃ r : State, exec (.invalidationComplete u e.id) s = .next (s.back r) ∧
          (∀ c ∈ r.cores, ∀ x ∈ c.dtlb ++ c.itlb,
            match k with | .page => x.hits asid va.toNat = false | .asid => x.asid ≠ asid | .all => False) ∧
          ((∀ x ∈ f.tasks, x.latchedTrs = []) → r.t.eks = [] ∧ r.t.cnt = f.t.cnt.sub .kc) ∧
          ((∃ x ∈ f.tasks, ∃ y ∈ x.latchedTrs, (tlbiHits k va asid).2 y.2 = true ∧ f.stale y.1 y.2 = true) → r.t.eks = [e])) ∧
        (∀ asid, e.op = .flush asid → ∃ r : State, exec (.invalidationComplete u e.id) s = .next (s.back r) ∧ r.t.eks = [] ∧
          r.t.cnt = f.t.cnt.sub .kc ∧ ∀ c ∈ r.cores, (∀ x ∈ c.dtlb ++ c.itlb, x.asid ≠ asid) ∧ ∀ x ∈ c.icache, x.asid ≠ asid) ∧
        (∀ va w, e.op = .icinv va → f.mem.poison = [] → f.ros.copies = [] → f.dev.cLost = false →
          f.iwalk va.toNat = .leaf w → w.leaf.getLsbD 3 = false ∨ f.t.id.system = true →
          let k : Level := if e.level = 0 then 1 else e.level
          ∃ r : State, exec (.invalidationComplete u e.id) s = .next (s.back r) ∧ r.t.eks = [] ∧ r.t.cnt = f.t.cnt.sub .kc ∧
            ∀ c ∈ r.cores, instOf k 0 c.num = instOf k 0 f.t.id.core → ∀ y ∈ c.icache, y.line ≠ (w.tr va.toNat).pa / 128))) ∧
  (
    ∀ (s : State) (u : Nat), s.hasTask u = true →
      let f := s.focus u
      f.t.run = .suspended → f.coreFrozen = false → f.plain →
      (∀ c : Nat, (∀ e, f.spillNext = some e → e.id ≠ c) → exec (.suspendedEntrySpill u c) s = .next (s.back f)) ∧
      ∀ (e : Entry) (i : Nat) (l m : List (Tr × Nat)), f.t.entry e.id = some e → f.spillNext = some e → e.void = false →
        f.t.stk.freeSlot = some i → f.lookRange (f.t.stk.slotVa i) e.size true none = .ok l →
        (f.touchRange (f.t.stk.slotVa i) e.size f.t.dtroot).lookRange (f.t.stk.descVa i) 64 true none = .ok m →
        ∃ r : State, exec (.suspendedEntrySpill u e.id) s = .next (s.back r) ∧
          r.t.entry e.id = some { e with level := 3, slot := i, data := [] } ∧ r.t.stk.map = f.t.stk.map ∧ r.t.run = .suspended)

/-- R133, R235 to R238: the fault service. A fault is posted as a record of the die's queue, once there is room; a reply of 1 ends the
freeze and drops the page from the TLBs, a reply of 2 denies the access; a freeze or a drain that lasts kills the node. -/
def Obligations.FaultService : Prop :=
  ∀ (s : State) (u : Nat), s.hasTask u = true →
    let f := s.focus u
    let base := (f.dev.fqbase.get (Fin.ofNat 4 (f.t.id.core / 96))).toNat / 4096 % 2 ^ 40 * 4096
    let tail := f.mem.hwWord base
    let head := f.mem.hwWord (base + 4)
    let a := base + 64 + 32 * (tail.toNat % 256)
    (∀ r c l e, f.t.frz = some (.fault r c l e none) → (∀ x ∈ f.tasks, posted x = false) → base ≠ 0 →
      base + 64 + 256 * 32 ≤ 2 ^ 39 → r.kind < 16 → r.scope < 16 → l < 8 → c < 16 →
      ((tail - head).toNat < 256 → f.mem.wf = true → f.mem.tags = [] →
        ∃ x : State, exec (.faultRecordPost u) s = .next (s.back x) ∧ x.t.frz = some (.fault r c l e (some a)) ∧
          x.mem.hwWord base = tail + 1 ∧ x.mem.hwWord (base + 4) = head ∧ x.mem.hwDword a = BitVec.ofNat 64 (r.va % 2 ^ 57) ∧
          (x.mem.hwDword (a + 8)).toNat / 2 ^ 42 % 2 ^ 4 = c ∧ x.mem.hwDword (a + 16) = e) ∧
      (256 ≤ (tail - head).toNat → exec (.faultRecordPost u) s = .next (s.back (f.meet (linesOf base 64))))) ∧
    (∀ r c l e b, f.t.frz = some (.fault r c l e (some b)) →
      let reply := (f.mem.hwDword (b + 24)).toNat % 4
      -- the line of a reply that ends the freeze is looked up in the containment structures (R379)
      let g := f.meet (linesOf (b + 24) 8)
      (reply = 0 → exec (.faultReply u) s = .next (s.back f)) ∧
      (reply = 1 → ∃ cs cl, exec (.faultReply u) s =
          .next (s.back { g with t := { f.t with frz := none }, cores := cs, clusters := cl }) ∧
        tlbFind (({ f with cores := cs } : State).core f.t.id.core).dtlb (asidOf r.root) r.va = none ∧
        tlbFind (({ f with clusters := cl } : State).ctlb (f.t.id.core / 8)) (asidOf r.root) r.va = none) ∧
      (reply = 2 → r.atIssue = true → exec (.faultReply u) s = .next (s.back (({ g with t := { f.t with
        frz := none, latch := { f.t.latch with addr := r.bundle } } } : State).takesTrap 0x33 0))) ∧
      (reply = 2 → r.atIssue = false → ∃ x : State, exec (.faultReply u) s = .next (s.back x) ∧ x.t.run = .ended ∧
        ∀ n ∈ x.nodes, n.key = f.t.id.node → n.state = .trapped)) ∧
    (∀ n : Node, f.t.run = .running → f.t.frz.isSome = true → f.awaitsHost = false →
      f.node f.t.id.node = some n → n.state = .running → f.t.stage = Stage.off → (∀ y ∈ f.tasks, y.unsent) →
      ∃ x : State, exec (.freezeWatchdogExpiry u) s = .next (s.back x) ∧ x.t.run = .ended ∧
        ∃ m, x.node n.key = some m ∧ m.kills = n.kills + 1 ∧
          m.state = if (f.parts.get n.part).kmax < n.kills + 1 then .killed else .fired)

/-- R364, R367, R369, R379, R380, R383, R396: checks. What a clamp and a cooling die do, that a node which
has sent a token of its DONE is not killed, and that an event which is not enabled does nothing, are this model's choices (log entries
58, 65, 118 and 16). -/
def Obligations.CheckEvents : Prop :=
  -- the residue that each operation predicts is that of its exact result, for operands of its width
  (∀ x : ResOp, x.bounded = true → x.predict = x.result % 7) ∧
  (∀ (s : State) (u : Nat) (x : W32) (t : Task) (a b c : VAddr), s.taskOf u = some t → t.past = [c, b, a] → t.run = .running →
    ((s.parts.get t.id.part).split = true → exec (.signatureMismatch u x) s = .next s) ∧
    ((s.parts.get t.id.part).split = false → x ≠ 0 → t.cast = none →
      ∃ (r : State) (d0 d2 d3 : W64), exec (.signatureMismatch u x) s = .next r ∧
        .machineCheck d0 (a.setWidth 64) d2 d3 ∈ r.ros.events ∧ d0.toNat / 2 ^ 60 = 9 ∧ d0.toNat % 2 ^ 16 = x.toNat % 2 ^ 16)) ∧
  (∀ s : State, (s.ros.copies = [] → exec .containmentScrub s = .next s) ∧
    ∀ e, s.ros.copies = [e] →
      -- what the copies of the entry read, those that fail their codes left out
      let l := s.copyReads e.table e.key
      let agree (v : Bool) : Prop := match e.table with | .remap => 2 ≤ l.count v | _ => l ≠ [] ∧ ∀ x ∈ l, x = v
      (∀ v, agree v → exec .containmentScrub s =
        .next { s with mem := s.mem.setEntry e.table e.key v, ros := { s.ros with copies := [] } }) ∧
      ((∀ v, ¬agree v) → s.dev.cLost = false → (s.nodes.map (·.key)).Nodup →
        ∃ r : State, exec .containmentScrub s = .next r ∧ r.dev.cLost = true ∧
          ((∀ t ∈ s.tasks, t.told = false) → ∀ n ∈ r.nodes, n.state.final = true) ∧
          -- a node that has sent a token of its DONE goes on to DONE
          ∀ n ∈ s.nodes, (∃ t ∈ s.tasks, t.id.node = n.key ∧ t.told = true) → n ∈ r.nodes)) ∧
  (∀ (s : State) (c : Fin 48) (drift : Nat), drift < 2 ^ 16 →
    let limit := s.dev.patcfg.toNat / 2 ^ 8 % 2 ^ 8 * 10
    let cap := (s.dev.patcap.get c).1
    (drift ≤ limit → exec (.patinaMeasurement c.val drift) s = .next { s with dev := { s.dev with
      patcap := s.dev.patcap.set c (cap, BitVec.ofNat 16 drift) } }) ∧
    (limit < drift → ∃ r : State, exec (.patinaMeasurement c.val drift) s = .next r ∧ r.nodes = s.nodes ∧
      (r.dev.patcap.get c).1.toNat = max (cap.toNat - 25) 1200 ∧ ∀ k : Fin 48, k ≠ c → r.dev.patcap.get k = s.dev.patcap.get k)) ∧
  (∀ (s : State) (on : Bool), exec (.powerClamp on) s =
    .next { s with ros := { s.ros with clamp := if on = true then s.ros.clamp + 1 else s.ros.clamp - 1 } }) ∧
  (∀ (s : State) (die : Fin 4) (deg : Nat),
    let n := s.ros.hot.get die
    let steps := if 105 < deg then n + 1 else n - 1
    (deg ≤ 115 → exec (.dieOvertemp die.val deg) s = .next { s with ros := { s.ros with hot := s.ros.hot.set die steps } }) ∧
    (115 < deg → ∃ r : State, exec (.dieOvertemp die.val deg) s = .next r ∧ r.nodes = [] ∧ r.others = [] ∧
      .trip die.val ∈ r.ros.events))

/-- R374, R386 to R392: resets, the host, the links and the fabric. What a reset keeps and clears beyond the words of its rule is this
model's reading (log entry 64, with entry 1 for memory and entry 66 for a fault of a device). -/
def Obligations.ResetAndHost : Prop :=
  (∀ s : State, s.mem.wf = true → ∃ r : State, exec .moduleReset s = .next r ∧ r.nodes = [] ∧ r.launches = [] ∧ r.others = [] ∧
    r.t = Task.fresh ∧ (∀ p : Fin 16, (r.parts.get p).inUse = false) ∧ r.dev.lock = false ∧ r.ros.keys = [] ∧
    (∀ a : Nat, a < 2 ^ 39 → cellGet a r.mem.cells = cellGet a s.mem.cells) ∧
    (∀ c o : Nat, c < 384 → o < 0x200000 → cellGet (windowPa c o) r.mem.cells = 0)) ∧
  (∀ s : State, ∃ r : State, exec .powerOn s = .next r ∧ r.nodes = [] ∧ r.launches = [] ∧ r.others = [] ∧ r.t = Task.fresh ∧
    r.mem.cells = [] ∧ r.ros.keys = [] ∧ r.ros.time = 0 ∧ r.ros.active = s.ros.active) ∧
  (∀ s : State,
    (s.host.linkUp = true → exec .hostLinkDown s = .next { s with host := { s.host with linkUp := false }
                                                                  dev := { s.dev with hostLost := true }
                                                                  ros := { s.ros with events := s.ros.events ++ [.hostLost] } }) ∧
    exec .hostLinkUp s = .next { s with host := { s.host with linkUp := true } }) ∧
  (∀ (s : State) (fn : Fin 64),
    let clear : BitVec 64 := ~~~((1 : BitVec 64) <<< fn.val)
    (fn ≠ 0 → s.boundTo fn = none → exec (.functionLevelReset fn) s = .next { s with host := { s.host with
      dmab := s.host.dmab.set fn 0, dmal := s.host.dmal.set fn 0, nopart := s.host.nopart &&& clear } }) ∧
    (fn = 0 → ∃ r : State, exec (.functionLevelReset fn) s = .next r ∧ r.launches = [] ∧ r.dev.cLost = false ∧
      (∀ p : Fin 16, (r.parts.get p).inUse = false) ∧ (∀ g : Fin 64, r.host.dmab.get g = 0 ∧ r.host.dmal.get g = 0) ∧
      r.dev.lock = s.dev.lock ∧ r.dev.devid = s.dev.devid ∧ r.dev.fwent = s.dev.fwent) ∧
    (∀ v : W64, (∀ p, s.boundTo fn = some p → (s.parts.get p).inUse = true →
        exec (.hlnchWrite fn v) s = .next (s.submit (v.toNat / 2 ^ 7 % 2 ^ 50 * 128) p)) ∧
      (s.boundTo fn = none ∨ (∃ p, s.boundTo fn = some p ∧ (s.parts.get p).inUse = false) → exec (.hlnchWrite fn v) s =
        .next { s with host := { s.host with nopart := s.host.nopart ||| (1 : BitVec 64) <<< fn.val } })) ∧
    exec (.hstatNopartClear fn) s = .next { s with host := { s.host with nopart := s.host.nopart &&& clear } } ∧
    (∀ v : W64, ∃ x : W64, x.toNat = v.toNat / 2 ^ 12 % 2 ^ 40 * 2 ^ 12 ∧
      exec (.hostRegisterWrite fn 0x2000 v) s = .next { s with host := { s.host with dmab := s.host.dmab.set fn x } } ∧
      exec (.hostRegisterWrite fn 0x2008 v) s = .next { s with host := { s.host with dmal := s.host.dmal.set fn x } })) ∧
  (∀ (s : State) (l : Fin 16),
    let out : Roskan := { s.ros with links := s.ros.links &&& ~~~((1 : BitVec 16) <<< l.val), resends := s.ros.resends.set l 0 }
    (s.ros.links.getLsbD l.val = true →
      (exec (.kranumFlitReceive l true) s = .next { s with ros := { s.ros with resends := s.ros.resends.set l 0 } }) ∧
      (exec (.kranumFlitReceive l false) s =
        .next { s with ros := { s.ros with resends := s.ros.resends.set l (s.ros.resends.get l + 1) } }) ∧
      (s.ros.resends.get l ≠ 0 → exec (.linkRetryExpiry l) s =
        .next { s with ros := { out with events := s.ros.events ++ [.linkOut l] } })) ∧
    (s.ros.links.getLsbD l.val = false → exec (.kranumLinkReturn l) s = .next { s with ros := { s.ros with
      links := s.ros.links ||| (1 : BitVec 16) <<< l.val, events := s.ros.events ++ [.linkBack l] } })) ∧
  (∀ (s : State) (r : FabricReq),
    -- a request meets the containment structures first
    let g := s.lookupCopies [(r.ofs.toNat, r.data.length)]
    (g.dev.cLost = true ∨ g.fabricRefused r = true → exec (.fabricRequest r) s = .next g) ∧
    (s.ros.copies = [] → g = s) ∧
    (r.dev.val ≠ g.dev.devid.toNat → (g.dev.fwent.get r.dev).getLsbD 1 = false → exec (.fabricRequest r) s = .next g) ∧
    (r.dev.val ≠ g.dev.devid.toNat → (g.dev.fwent.get r.dev).getLsbD 0 = false → r.op ≠ .read →
      exec (.fabricRequest r) s = .next g) ∧
    (g.dev.cLost = false → g.fabricRefused r = false → r.op = .read → ∃ x : State, exec (.fabricRequest r) s = .next x ∧
      x.mem.cells = g.mem.cells ∧ x.nodes = g.nodes) ∧
    (s.ros.copies = [] → s.dev.cLost = false → s.fabricRefused r = false → r.e = false → s.mem.wf = true → s.mem.narrow = [] → s.mem.past = [] → s.mem.tags = [] →
      let n := r.data.length
      let old := (List.range n).map fun i => cellGet (r.ofs.toNat + i) s.mem.cells
      (∀ b, FabricReq.writes r old = some b → ∃ x : State, exec (.fabricRequest r) s = .next x ∧ x.nodes = s.nodes ∧
        ∀ y : Nat, cellGet y x.mem.cells =
          if r.ofs.toNat ≤ y ∧ y < r.ofs.toNat + b.length then b.getD (y - r.ofs.toNat) 0 else cellGet y s.mem.cells) ∧
      (r.op = .write → FabricReq.writes r old = some r.data) ∧
      (r.op = .swp → FabricReq.writes r old = some r.data) ∧
      (r.op = .add → FabricReq.writes r old = some (leBytes n ((leNat old + leNat r.data) % 2 ^ (8 * n)))) ∧
      (∀ c, r.op = .cas c → FabricReq.writes r old = if old = c then some r.data else none))) ∧
  (∀ (s : State) (d : Nat), ∃ r : State, exec (.deviceFaultSignal d) s = .next r ∧ .peerFault d ∈ r.ros.events ∧
    r.nodes = s.nodes ∧
    (∀ c ∈ s.colls, c.size ≤ c.members.length → (∀ m ∈ c.members, ∀ v, m.dev = some v → v.val ≠ d) →
      (∃ m ∈ c.members, m.dev = none ∧ m.ended = false) → c ∈ r.colls) ∧
    (∀ c ∈ s.colls, c.status = 0 → (∃ m ∈ c.members, ∃ v, m.dev = some v ∧ v.val = d) →
      (∃ m ∈ c.members, m.dev = none ∧ m.ended = false) →
      ∃ x ∈ r.colls, x.key = c.key ∧ x.started = true ∧ (x.status = 1 ∨ x.status = 3)))

/-- R325 to R328: collectives. An instance starts with its last member, and ends with status 2 where the members disagree and with 4
where a scope does not contain every member; each step takes the bytes of one source; steps are retried kretry times; every member
ends with its result and its status. That status 2 is decided before 4, that a step takes a whole source range, that parts combine in the
order of their steps, and that an event which is not enabled does nothing, are this model's choices (log entries 55, 43, 24 and 16). -/
def Obligations.CollectiveEvents : Prop :=
  (∀ (s : State) (x : Coll), s.colls = [x] → x.started = false →
    let ms := x.members
    let agree := (ms.map (·.rank)).Nodup ∧ ∀ y ∈ ms, ∀ z ∈ ms, y.shape = z.shape
    (ms.length < x.size → exec (.collectiveInstanceStart x.key) s = .next s) ∧
    (x.size ≤ ms.length → ∃ st : Nat,
      exec (.collectiveInstanceStart x.key) s = .next { s with colls := [{ x with started := true, status := st }] } ∧
      (¬agree → st = 2) ∧
      (agree → (∀ y ∈ ms, y.dev = none ∧ y.scope = 4) → st = 0) ∧
      (agree → (∃ y ∈ ms, ∃ z ∈ ms, y.dev = none ∧ z.dev = none ∧ y.scope = 0 ∧ y.task ≠ z.task ∧ s.hasTask y.task = true ∧
        s.hasTask z.task = true) → st = 4))) ∧
  (∀ (s : State) (x : Coll) (m : Member), s.colls = [x] → x.started = true → x.status = 0 → x.members = [m] → m.ended = false →
    let f := s.focus m.task
    (m.got = none → m.retries < s.dev.kretry.toNat % 16 → exec (.collectiveStepTimeout x.key m.rank) s =
      .next { s with colls := [{ x with members := [{ m with retries := m.retries + 1 }] }] }) ∧
    (m.got = none → s.dev.kretry.toNat % 16 ≤ m.retries → exec (.collectiveStepTimeout x.key m.rank) s =
      .next { s with colls := [{ x with status := 1 }] }) ∧
    (∀ (e : Ek) (d : Fin 56) (n src dst comm : Nat) (et : EType) (tr : Tr), s.hasTask m.task = true → m.dev = none → f.t.eks = [e] →
      e.id = m.ek → e.op = .coll 3 .add et d n src dst comm 0 1 → f.t.run = .running → f.coreFrozen = false → f.t.acc = [] →
      f.t.stage = Stage.off → f.plain → (∀ k : Fin 16, (f.t.blocks.get k).flag = 0) → tr.e = false → region tr.pa = .device → 0 < n →
      (m.got = none → m.rank = 0 → src % 65536 + n ≤ 65536 → f.look src n false none e.root = .ok tr →
        ∃ r : State, exec (.collectiveStep x.key 0) s = .next (s.back r) ∧ r.mem.cells = f.mem.cells ∧ r.t.s = f.t.s ∧
          r.colls = [{ x with order := x.order ++ [0], members := [{ m with
            got := some ((List.range n).map fun i => cellGet (tr.pa + i) f.mem.cells) }] }]) ∧
      (∀ b, m.got = some b → m.rank = 0 → d ≠ 0 → b.length = n → dst % 65536 + n ≤ 65536 → (src + n ≤ dst ∨ dst + n ≤ src) →
        f.look dst n true none e.root = .ok tr → e.level = 4 → x.size = 1 →
        ∃ r : State, exec (.collectiveEnd x.key 0) s = .next (s.back r) ∧ r.t.eks = [] ∧ r.t.s.get d = 0 ∧ r.colls = [] ∧
          r.t.cnt = f.t.cnt.sub .kc ∧ ∀ y : Nat, cellGet y r.mem.cells =
            if tr.pa ≤ y ∧ y < tr.pa + n then b.getD (y - tr.pa) 0 else cellGet y f.mem.cells))) ∧
  -- KAR, KAG and KRS of two members, whose bytes are taken in the order of their ranks: the result at rank 0
  (∀ (s : State) (x : Coll) (m y : Member) (e : Ek) (d : Fin 56) (k : Fin 4) (rop : Rop) (et : EType) (n src dst comm : Nat)
      (b c : List Byte) (tr : Tr),
    s.colls = [x] → x.started = true → x.status = 0 → x.size = 2 → x.order = [0, 1] → x.members = [m, y] → m.rank = 0 → y.rank = 1 →
    m.dev = none → m.ended = false → y.ended = false → y.dev = none → y.task ≠ m.task → m.got = some b → y.got = some c →
    s.hasTask m.task = true →
    let f := s.focus m.task
    let w := EType.bytes et
    let taken := if k = 2 then 2 * n else n
    let given := if k = 1 then 2 * n else n
    f.t.eks = [e] → e.id = m.ek → e.op = .coll k rop et d n src dst comm 0 2 → e.level = 4 → k ≠ 3 → d ≠ 0 → f.t.run = .running →
    f.coreFrozen = false → f.t.acc = [] → f.t.stage = Stage.off → f.plain → (∀ k : Fin 16, (f.t.blocks.get k).flag = 0) →
    tr.e = false → region tr.pa = .device → 0 < n → n % w = 0 → b.length = taken → c.length = taken →
    dst % 65536 + given ≤ 65536 → (src + taken ≤ dst ∨ dst + given ≤ src) → f.look dst given true none e.root = .ok tr →
      ∃ (r : State) (res : List Byte), exec (.collectiveEnd x.key 0) s = .next (s.back r) ∧ r.t.eks = [] ∧ r.t.s.get d = 0 ∧
        r.t.cnt = f.t.cnt.sub .kc ∧ res.length = given ∧ (∀ z : Nat, cellGet z r.mem.cells =
          if tr.pa ≤ z ∧ z < tr.pa + given then res.getD (z - tr.pa) 0 else cellGet z f.mem.cells) ∧
        (k = 1 → res = b ++ c) ∧
        (k ≠ 1 → ∀ i : Nat, i * w + w ≤ n →
          let el (l : List Byte) : Nat := leNat ((l.drop (i * w)).take w)
          el res = (combine et rop (canonEl et (el b)) (canonEl et (el c))).1)) ∧
  -- what two elements combine to
  (∀ (et : EType) (a b : Nat), et = .int8 ∨ et = .int32 →
    let w := 2 ^ (8 * EType.bytes et)
    let i (a : Nat) : Int := if a < w / 2 then a else (a : Int) - w
    canonEl et a = a ∧ combine et .add a b = ((a + b) % w, 0) ∧ combine et .and a b = (a &&& b, 0) ∧ combine et .or a b = (a ||| b, 0) ∧
      combine et .xor a b = (a ^^^ b, 0) ∧
      (a < w → b < w → combine et .max a b = (if i a < i b then b else a, 0) ∧ combine et .min a b = (if i b < i a then b else a, 0))) ∧
  (∀ a b : W32, finite32 a → finite32 b → canonEl .fp32 a.toNat = a.toNat ∧
    let z := combine .fp32 .add a.toNat b.toNat
    z.1 < 2 ^ 32 ∧ Nearest (val32 a + val32 b) (BitVec.ofNat 32 z.1) z.2) ∧
  (∀ (s : State) (x : Coll) (m : Member) (e : Ek) (d : Fin 56) (k : Fin 4) (rop : Rop) (et : EType) (n src dst comm rank size : Nat),
    s.colls = [x] → x.started = true → x.status = 2 ∨ x.status = 4 → x.members = [m] → m.ended = false → m.dev = none →
    s.hasTask m.task = true →
    let f := s.focus m.task
    f.t.run = .running → f.t.eks = [e] → e.id = m.ek → e.op = .coll k rop et d n src dst comm rank size → d ≠ 0 →
      ∃ r : State, exec (.collectiveEnd x.key m.rank) s = .next (s.back r) ∧ r.t.eks = [] ∧
        r.t.s.get d = BitVec.ofNat 64 x.status ∧ r.t.cnt = f.t.cnt.sub .kc ∧ r.mem = f.mem)

/-- R256, R258 to R260, R273, R288, R317 to R320, R323, R324: messages, tokens, SPAWNs, barriers and the end of a node.
That a SPAWN record which cannot be read gives status 3, that a SPAWN counts in kc after its check, and that a message is one element
are this model's readings (log entries 53, 45 and 43). -/
def Obligations.TaskEvents : Prop :=
  ∀ (s : State) (u : Nat), s.hasTask u = true →
    let f := s.focus u
    let me := f.t.id.node
    f.t.acc = [] → f.t.cmds = [] → f.mem.narrow = [] → f.t.stage = Stage.off → f.t.mrec = Recording.off → f.coreFrozen = false →
    (∀ (e : Ek) (dest : W32) (src n : Nat) (b : List Byte), f.t.run = .running → f.t.eks = [e] → e.op = .ksend dest src n →
      e.done = [0] → e.got = [(0, b)] →
      let box := (f.running f.t.id.part).find? fun n => n.id == dest && !n.state.final
      (box = none → ∃ r : State, exec (.mailboxDelivery u e.id) s = .next (s.back r) ∧ r.t.eks = [] ∧ r.nodes = f.nodes ∧
        r.t.kstat.getLsbD 3 = true ∧ r.t.cnt = f.t.cnt.sub .kc) ∧
      (∀ x, box = some x → x.mbox.length < 16 → ∃ (r : State) (y : Node) (t : Nat),
        exec (.mailboxDelivery u e.id) s = .next (s.back r) ∧ r.t.eks = [] ∧ r.t.cnt = f.t.cnt.sub .kc ∧ y ∈ r.nodes ∧
          y.key = x.key ∧ y.mbox = x.mbox ++ [{ sender := f.t.id.nodeId, bytes := b, t := t }]) ∧
      (∀ x, box = some x → 16 ≤ x.mbox.length → exec (.mailboxDelivery u e.id) s = .next (s.back f))) ∧
    (∀ (e : Ek) (dest : W32) (k : Fin 8) (x : Node), f.t.run = .doneWait → f.t.eks = [e] → e.op = .token dest k →
      e.deferred = false → (f.running f.t.id.part).find? (fun n => n.id == dest) = some x → x.key ≠ me → x.state = .ready →
      k.val < x.inputs → x.tok.getLsbD k.val = false → f.mustWait x f.t.id.core = false →
      let tok : Byte := x.tok ||| (1 : Byte) <<< k.val
      ∃ (r : State) (y : Node), exec (.tokenDelivery u e.id) s = .next (s.back r) ∧ r.t.run = .ended ∧
        (∀ z ∈ r.nodes, z.key = me → z.state = .done) ∧ y ∈ r.nodes ∧ y.key = x.key ∧ y.tok = tok ∧
        ((∀ i, i < x.inputs → tok.getLsbD i = true) → y.state = .fired) ∧
        ((∃ i, i < x.inputs ∧ tok.getLsbD i = false) → y.state = .ready)) ∧
    -- a second token of an input changes nothing at its node (R275)
    (∀ (e : Ek) (dest : W32) (k : Fin 8) (x : Node), f.t.run = .doneWait → f.t.eks = [e] → e.op = .token dest k →
      e.deferred = false → (f.running f.t.id.part).find? (fun n => n.id == dest) = some x → x.key ≠ me → x.state = .ready →
      k.val < x.inputs → x.tok.getLsbD k.val = true →
      ∃ r : State, exec (.tokenDelivery u e.id) s = .next (s.back r) ∧ r.t.run = .ended ∧ x ∈ r.nodes) ∧
    (f.t.run = .doneWait →
      (f.t.eks = [] → ∃ r : State, exec (.nodeDoneComplete u) s = .next (s.back r) ∧ r.t.run = .ended ∧
        ∀ z ∈ r.nodes, z.key = me → z.state = .done) ∧
      (∀ e : Ek, f.t.eks = [e] → e.deferred = true → (∃ dest k, e.op = .token dest k) → exec (.nodeDoneComplete u) s =
        .next (s.back { f with t := { f.t with eks := [{ e with deferred := false }] } }))) ∧
    (∀ (e : Ek) (d : Fin 56) (a : Nat), f.t.run = .doneWait → f.t.eks = [e] → e.op = .spawn d a → e.status = none → d ≠ 0 →
      -- no copy of a containment structure differs, and no line is poisoned (R378, R379)
      f.ros.copies = [] → f.mem.poison = [] → f.dev.cLost = false →
      ∃ (r : State) (st : Nat) (y : Ek), exec (.spawnCheck u e.id) s = .next (s.back r) ∧ r.t.s.get d = BitVec.ofNat 64 st ∧
        r.t.eks = [y] ∧ y.status = some st ∧ r.t.cnt = f.t.cnt ∧ (f.tenantRead f.t.id.part a 112 = none → st = 3) ∧
        (∀ b, f.tenantRead f.t.id.part a 112 = some b → recBad (f.parts.get f.t.id.part) (recOf b) = true → st = 3)) ∧
    (∀ (e : Ek) (g : Group) (w : Nat), f.t.run = .running → f.t.eks = [e] → e.op = .gbar → e.waiting = false →
      f.t.id.group = some g.id → (f.parts.get f.t.id.part).groups = [g] → g.arrived = [] → g.next = [] → w ≠ u →
      (g.members = [u] → g.round = [u] → ∃ r : State, exec (.barrierArrival u e.id) s = .next (s.back r) ∧ r.t.eks = [] ∧
        r.t.cnt.kc = f.t.cnt.kc - 1) ∧
      (g.members = [u, w] → g.round = [u, w] → ∃ r : State, exec (.barrierArrival u e.id) s = .next (s.back r) ∧
        (∃ t : Nat, r.t.eks = [{ e with waiting := true, tmax := t }]) ∧ r.t.cnt = f.t.cnt ∧
        (r.parts.get f.t.id.part).groups = [{ g with arrived := [u] }]))

/-- R265 to R267, R279 to R281: launches and frames. That a launch whose partition was released is discarded, and that one is read under
the tenant of the moment, are this model's choices (log entry 108), and so is that an event which is not enabled does nothing (log entry
16). -/
def Obligations.LaunchAndFrame : Prop :=
  (∀ (s : State) (v : W64),
    let p : Fin 16 := Fin.ofNat 16 (v.toNat % 16)
    let good := v.toNat < 2 ^ 57 ∧ v.toNat / 2 ^ 4 % 2 ^ 3 = 0 ∧ (s.parts.get p).inUse = true
    (good → exec (.lnchWrite v) s = .next { s with
      launches := s.launches ++ [{ key := s.nextKey, addr := v.toNat / 2 ^ 7 * 128, part := p, asid := (s.parts.get p).asid
                                   root := (s.parts.get p).dtroot, system := false, checked := false
                                   status := 0, count := 0, ended := 0 }]
      nextKey := s.nextKey + 1 }) ∧
    (¬good → exec (.lnchWrite v) s = .next s)) ∧
  (∀ (s : State) (l : Launch), s.launches = [l] → l.checked = false → s.dev.cLost = false →
    let st := (s.launchStatus l).1
    let rs := (s.launchStatus l).2
    ((s.parts.get l.part).inUse = false → exec (.launchCheck l.key) s = .next { s with launches := [] }) ∧
    ((s.parts.get l.part).inUse = true → (s.tenantTr l.part (l.addr + 24) 8 true).isSome = true → s.ros.copies = [] →
      (st ≠ 1 → ∃ r : State, exec (.launchCheck l.key) s = .next r ∧ r.nodes = s.nodes ∧
        -- vector 0 of the function that serves the partition (R386)
        r.host.msix = s.host.msix ++ (match s.fnOf l.part with | some fn => [(fn, 0)] | none => []) ∧
        r.launches = [{ l with asid := (s.parts.get l.part).asid, root := (s.parts.get l.part).dtroot, checked := true, status := st
                               count := 0 }]) ∧
      (st = 1 → ∃ r : State, exec (.launchCheck l.key) s = .next r ∧ r.nodes.length = s.nodes.length + rs.length) ∧
      (s.tenantRead l.part l.addr 64 = none → st = 3))) ∧
  (∀ (s : State) (pi : Fin 16),
    let p := s.parts.get pi
    let stops := ∃ n ∈ s.nodes, n.part = pi ∧ p.stoppedBy n = true
    (p.inUse = false → exec (.frameTick pi) s = .next s) ∧
    (p.inUse = true → ¬stops → p.tick < p.flen →
      exec (.frameTick pi) s = .next { s with parts := s.parts.set pi { p with tick := p.tick + 1 } }) ∧
    (p.inUse = true → ¬stops → p.flen ≤ p.tick →
      exec (.frameTick pi) s = .next { s with parts := s.parts.set pi { p with tick := 0, frame := p.frame + 1 } }) ∧
    (p.inUse = true → stops → ∃ r : State, exec (.frameTick pi) s = .next r ∧ r.parts.get pi = { p with stall := true } ∧
      ∀ n ∈ s.nodes, n.part = pi → p.stoppedBy n = true → ∃ m ∈ r.nodes, m.key = n.key ∧ m.late = n.late + 1))

/-- R303, R306, R307: a cast issues its groups, and DONE after the last; a debug halt falls between groups, and an entry that names no
syllable of a record takes trap 0x10. That trap, and groups that wait for no INTERVAL, are this model's choices (log entry 49). -/
def Obligations.CastGroups : Prop :=
  ∀ (s : State) (u : Nat) (c : Cast), s.hasTask u = true →
    let f := s.focus u
    f.t.cast = some c → f.t.run = .running → f.coreFrozen = false → f.t.fences = [] →
    (f.t.id.haltReq = true → f.t.id.debug = true → f.part.stall = false →
      exec (.castIssueGroup u) s = .next (s.back { f with t := { f.t.landAll with run := .halted } })) ∧
    (f.t.id.haltReq = false → c.left = [] →
      exec (.castIssueGroup u) s = .next (s.back { f with t := { f.t with run := .doneWait } })) ∧
    (∀ e : MouldEntry, f.t.id.haltReq = false → c.left = [e] → e.pairs = [] → e.decode = none →
      exec (.castIssueGroup u) s = .next (s.back (f.takesTrap 0x10 0))) ∧
    (∀ (e : MouldEntry) (x : Syl) (t : State), f.t.id.haltReq = false → c.left = [e] → e.pairs = [] → e.decode = some x →
      bundleFault f.t (if Kind.stacked x.kind then [x.ins] else []) f.t.stk.map.length = none →
      castStep x.ins { f with t := { f.t with latch := { f.t.latch with facets := x.facets, ins := some x.ins } } } = .next t → t.stopRank = 0 →
      ∃ r : State, exec (.castIssueGroup u) s = .next (s.back r) ∧ r.t.bidx = t.t.bidx + 1 ∧
        r.t.cast = some { c with left := [] } ∧ r.t.stk = t.t.stk ∧ r.t.cmds = t.t.cmds ∧ r.t.s = t.t.s ∧ r.mem = t.mem)

/-- R60, R268, R283 to R285, R289 to R293: dispatch, stealing, pre-emption and parking. The record used where it cannot be read again, and the
wake of a task in place, are this model's readings (log entries 62 and 82); that an event which is not enabled does nothing is its choice
(log entry 16). -/
def Obligations.Scheduling : Prop :=
  (∀ (s : State) (core k : Nat) (pi : Fin 16) (n : Node), s.partOf core = some pi → s.placing pi = true →
    s.retired core = false → s.idle core false = true → s.timetable pi core false = [] → (s.core core).deque = [k] →
    s.takes pi core k = true → s.node k = some n →
    -- no other reference waits for the deque
    (∀ m ∈ s.nodes, m.key ≠ k → m.state ≠ .fired) →
    (s.suspendedOf k = none → s.ros.copies = [] → s.mem.poison = [] →
      let d := s.rereadRec n
      (d.get 4).getLsbD 25 = false →
      ∃ (r : State) (t : Task), exec (.taskDispatch core false) s = .next r ∧ t ∈ r.others ∧ t.id.node = k ∧
        t.id.core = core ∧ t.id.helper = false ∧ t.id.resident = true ∧ t.run = .running ∧ t.pc = (d.get 0).setWidth 57 ∧
        t.id.trapr = (d.get 1).setWidth 57 ∧ t.p = 1 ∧ t.stk.map = [] ∧ t.stg = Vector.replicate 40 0 ∧
        (∀ i : Fin 56, t.s.get i = if 48 ≤ i.val ∧ i.val ≤ 53 then d.get (Fin.ofNat 14 (i.val - 40)) else 0) ∧
        (r.core core).deque = [] ∧ ∀ m ∈ r.nodes, m.key = k → m.state = .running) ∧
    (∀ x, s.suspendedOf k = some x → x.movable core = true → x.run = .suspended → (∀ b : Fin 16, (x.blocks.get b).flag = 0) →
      x.id.haltReq = false → (s.tasks.map (·.id.uid)).Nodup → ∃ (r : State) (t : Task), exec (.taskDispatch core false) s = .next r ∧ t ∈ r.tasks ∧
        t.id.uid = x.id.uid ∧ t.run = .running ∧ t.id.core = core ∧ t.id.resident = true ∧ t.pc = x.pc ∧ t.s = x.s ∧
        t.stk = x.stk)) ∧
  (∀ (s : State) (core : Nat) (pi : Fin 16), s.partOf core = some pi → s.placing pi = true → s.retired core = false →
    s.idle core false = true → s.timetable pi core false = [] → (s.core core).deque = [] →
    let g := (s.core core).gen
    let g1 := g ^^^ (g <<< 13)
    let g2 := g1 ^^^ (g1 >>> 17)
    let x := g2 ^^^ (g2 <<< 5)
    let others := (s.parts.get pi).others core
    let d := (s.core (others.getD (x.toNat % others.length) core)).deque
    (others = [] → exec (.stealProbe core) s = .next s) ∧
    ((∀ k ∈ d, s.takes pi core k = true ∧ ∀ n, s.node k = some n → n.place ≠ 1) → others ≠ [] →
    ∃ r : State, exec (.stealProbe core) s = .next r ∧ (r.core core).gen = x ∧
      (r.core core).deque = d.drop (d.length - (d.length + 1) / 2) ∧ r.nodes = s.nodes ∧ r.t = s.t)) ∧
  (∀ (s : State) (u : Nat),
    (s.demanded u = true → exec (.preemptionRequest u) s =
      .next (s.updTask u fun x => { x with id := { x.id with preempt := true } })) ∧
    ((∀ pi n, n ∈ s.nodes → s.eligible pi n = false) → exec (.preemptionRequest u) s = .next s)) ∧
  (∀ (s : State) (u : Nat), s.hasTask u = true →
    let f := s.focus u
    f.coreFrozen = false → f.t.cast = none →
    (f.t.run = .running → f.t.id.preempt = true → f.listed = none → exec (.preemptionStop u) s = .next (s.back f)) ∧
    (∀ (e : PmEntry) (n : Node) (i : Nat), f.t.run = .running → f.mustStop = true → f.listed = some e → f.t.settled = true →
      f.t.deadReady e.live = true → f.slotFor = some i → f.t.mrec = Recording.off →
      (∀ b : Fin 16, (f.t.blocks.get b).flag = 0) → f.node f.t.id.node = some n → n.timetabled = false →
      ∃ r : State, exec (.preemptionStop u) s = .next (s.back r) ∧ r.t.run = .suspended ∧ r.t.id.resident = false ∧
        r.t.pc = f.t.pc ∧ r.t.slot = some i ∧
        (∀ i : Fin 56, r.t.s.get i =
          if e.smask.getLsbD i.val = true ∨ f.t.kept.getLsbD i.val = true then f.t.landAll.s.get i else 0) ∧
        ∀ m ∈ r.nodes, m.key = n.key → m.state = .fired) ∧
    -- a parked task wakes once its parking has ended and its condition holds
    (∀ why here, f.t.run = .parked why here → f.nodeParked = false ∨ f.parkOver = false → exec (.parkWake u) s = .next (s.back f)) ∧
    (∀ here, f.t.run = .parked .watch here → f.parkOver = f.t.watch.fired) ∧
    (∀ k here, f.t.run = .parked (.kc k) here → f.t.cnt.kc ≤ k → f.parkOver = true) ∧
    (∀ why (n : Node), f.t.run = .parked why true → f.nodeParked = true → f.parkOver = true → f.node f.t.id.node = some n →
      f.t.id.haltReq = false → ∃ r : State, exec (.parkWake u) s = .next (s.back r) ∧ r.t.run = .running ∧ r.t.pc = f.t.pc ∧
        (why = .watch → r.t.watch.armed = false ∧ r.t.watch.fired = false) ∧ ∀ m ∈ r.nodes, m.key = n.key → m.state = .running) ∧
    (∀ why (n : Node), f.t.run = .parked why false → f.nodeParked = true → f.parkOver = true → f.node f.t.id.node = some n →
      ∃ r : State, exec (.parkWake u) s = .next (s.back r) ∧ r.t.run = .parked why false ∧ r.t.s = f.t.s ∧
        ∀ m ∈ r.nodes, m.key = n.key → m.state = .fired)) ∧
  (∀ (s : State) (pi : Fin 16) (x : Task) (n : Node),
    let p := s.parts.get pi
    (p.op = .none → exec (.saveSlotTimeout pi) s = .next s) ∧
    (p.op = .releasing → p.saven ≤ (s.slotsHeld pi p.asid).length →
      (s.tasks.filter fun y => y.id.part == pi && y.id.resident && y.live && y.id.preempt) = [x] → s.node x.id.node = some n →
      n.state = .running → (∀ y ∈ s.tasks, y.stage = Stage.off ∧ y.told = false) →
      ∃ (r : State) (m : Node), exec (.saveSlotTimeout pi) s = .next r ∧ r.node n.key = some m ∧ m.kills = n.kills ∧ m.state = .fired))

/-- R277, R278, R294, R295, R360, R370, R391 to R394: operations on partitions, debug control, kills and the Roskan controller.
That an identifier names nodes of every partition (log entry 31), that an apply leaves out lost clusters and a release clears V (log
entry 90), and the clauses of keys and firmware (log entries 68 and 6) are this model's readings; that a node which has sent a token of its
DONE is not killed, and that an event which is not enabled does nothing, are its choices (log entries 118 and 16). -/
def Obligations.SystemEvents : Prop :=
  (∀ (s : State) (pi : Fin 16),
    let p := s.parts.get pi
    let base := s.dev.pttbase.toNat / 2 ^ 12 % 2 ^ 40 * 4096 + 64 * pi.val
    let d (i : Nat) : Nat := (s.mem.hwDword (base + 8 * i)).toNat
    (p.op ≠ .apply → exec (.pctlApply pi) s = .next s) ∧
    (p.op = .apply → d 0 < 2 ^ 63 → s.dev.pctl.toNat % 16 = pi.val → exec (.pctlApply pi) s = .next { s.meet (linesOf base 64) with
      parts := s.parts.set pi { p with op := .none }
      dev := { s.dev with pctl := BitVec.ofNat 64 (s.dev.pctl.toNat % 256 + 2 ^ 62) } }) ∧
    (p.op = .apply → s.applyRefused pi d = false → p.inUse = false → ∃ r : State, exec (.pctlApply pi) s = .next r ∧
      let q := r.parts.get pi
      q.inUse = true ∧ q.clusters = BitVec.ofNat 48 (d 0) &&& ~~~s.dev.lost ∧ q.asid.toNat = d 1 / 2 ^ 56 ∧ q.flen = d 3 / 2 ^ 32 % 2 ^ 16 ∧
        q.kmax = d 3 % 16 ∧ q.frame = 0 ∧ q.tick = 0 ∧ q.mepoch = p.mepoch + 1 ∧ r.nodes = s.nodes ∧ r.t = s.t) ∧
    (p.op = .release → ∃ r : State, exec (.pctlRelease pi) s = .next r ∧ r.parts.get pi = { p with op := .releasing } ∧
      r.nodes = s.nodes ∧ ∀ t ∈ r.tasks, t.id.part = pi → t.id.resident = true → t.id.preempt = true) ∧
    (p.op = .releasing → (∀ t ∈ s.tasks, t.id.part = pi → t.id.resident = true → t.run = .ended) →
      s.dev.pctl.toNat % 16 = pi.val → ∃ r : State, exec .partitionOpComplete s = .next r ∧ (r.parts.get pi).inUse = false ∧
        (r.parts.get pi).clusters = 0 ∧ (r.parts.get pi).op = .none ∧ r.dev.pctl.getLsbD 63 = false)) ∧
  (∀ (s : State) (i : W32),
    (∃ r : State, exec (.dbgctlHalt i) s = .next r ∧ ∀ t ∈ s.tasks, ∀ n ∈ s.nodes, n.key = t.id.node → n.id = i → n.dbg = true →
      n.state = .running → ∃ x ∈ r.tasks, x = { t with id := { t.id with haltReq := true } }) ∧
    (∃ r : State, exec (.dbgctlResume i) s = .next r ∧ ∀ t ∈ s.tasks, ∀ n ∈ s.nodes, n.key = t.id.node → n.id = i →
      n.dbg = true → n.state = .running → t.run = .halted →
      ∃ x ∈ r.tasks, x = { ({ t with id := { t.id with haltReq := false } } : Task).landAll with run := .running }) ∧
    ((s.nodes.map (·.key)).Nodup → ∃ r : State, exec (.nkillWrite i) s = .next r ∧
      ((∀ n ∈ s.nodes, n.id = i → ∀ t ∈ s.tasks, t.id.node = n.key → t.told = false) →
        ∀ n ∈ r.nodes, n.id = i → n.state.final = true ∨ n.state = .ready) ∧
      -- a node that has sent a token of its DONE goes on to DONE
      ∀ n ∈ s.nodes, (∃ t ∈ s.tasks, t.id.node = n.key ∧ t.told = true) → n ∈ r.nodes)) ∧
  (∀ (s : State) (v : W64),
    let open_ := ∀ b, (33 ≤ b ∧ b ≤ 62) ∨ (5 ≤ b ∧ b ≤ 17) → v.getLsbD b = false
    -- a recording aborts with status 5, and a later one of the task is impure
    let r := s.abortMould 5
    let m : Recording := { r.t.mrec with impure := true }
    (s.t.mrec.state = .off → r = s) ∧ (s.t.mrec.state ≠ .off → r.t.mrec = { Recording.off with impure := true }) ∧
    (s.t.id.helper = false → s.t.cast = none → open_ → exec (.finjWrite v) s = .next { r with t := { r.t with finj := v, mrec := m } }) ∧
    (¬open_ ∨ s.t.cast ≠ none → exec (.finjWrite v) s = .next s) ∧
    (s.t.cast ≠ none → exec (.fseedWrite v) s = .next s) ∧
    (s.t.cast = none → v.toNat < 2 ^ 32 → ∃ g : Vector W32 256, exec (.fseedWrite v) s = .next { r with t := { r.t with
        fp := { r.t.fp with fseed := v.setWidth 32, gens := g }, mrec := m } } ∧
      ∀ k : Fin 256, g.get k = let x := v.setWidth 32 ^^^ BitVec.ofNat 32 ((k.val + 1) * 0x9E3779B9)
        if x = 0 then 1 else x)) ∧
  -- LOCK rises once, and measurement 4 with it
  (∀ s : State,
    (s.dev.lock = true → exec .devstLockSet s = .next s) ∧
    (s.dev.lock = false → ∃ m : Vector Nat 4,
      exec .devstLockSet s = .next { s with dev := { s.dev with lock := true }, ros := { s.ros with meas := m } } ∧
        ∀ j : Fin 4, m.get j = if j.val = 3 then Config.extendMeasure (s.ros.meas.get j) (Config.tableHash s.dev.fwent.toList s.dev.devid)
          else s.ros.meas.get j)) ∧
  (∀ (s : State) (k : Byte) (img stage h : Nat),
    (s.ros.recovery = false → k ∉ s.ros.keys →
      exec (.keyInstall k) s = .next { s with ros := { s.ros with keys := k :: s.ros.keys } }) ∧
    (k ∈ s.ros.keys → exec (.keyInstall k) s = .next s) ∧
    (s.ros.recovery = false → k ∈ s.ros.keys → k ∉ s.ros.keyDying →
      exec (.keyDestroy k) s = .next { s with ros := { s.ros with keyDying := k :: s.ros.keyDying } }) ∧
    (s.ros.recovery = false → exec .getMeasurements s =
      .next { s with ros := { s.ros with events := s.ros.events ++ [.measured s.ros.meas.toList] } }) ∧
    (∃ a : Option Nat, exec (.firmwareUpdate img) s = .next { s with ros := { s.ros with staged := some img, active := a } }) ∧
    (s.ros.recovery = false → stage = s.ros.bootStage + 1 → stage < 4 →
      (Config.signatureGood stage h = false →
        exec (.bootStageVerify stage h) s = .next { s with ros := { s.ros with recovery := true } }) ∧
      (Config.signatureGood stage h = true → ∃ m : Vector Nat 4, exec (.bootStageVerify stage h) s =
          .next { s with ros := { s.ros with bootStage := stage, meas := m } } ∧
        ∀ j : Fin 4, m.get j = if j.val + 1 = stage then Config.extendMeasure (s.ros.meas.get j) h else s.ros.meas.get j)) ∧
    (s.ros.recovery = false → s.ros.bootStage = 3 → s.dev.lock = false →
      let hash := Config.tableHash s.dev.fwent.toList s.dev.devid
      (Config.signatureGood 4 hash = false → exec (.bootStageVerify 4 h) s = .next { s with ros := { s.ros with recovery := true } }) ∧
      (Config.signatureGood 4 hash = true → ∃ r : State, exec (.bootStageVerify 4 h) s = .next r ∧ r.ros.bootStage = 4 ∧
        r.dev = { s.dev with lock := true } ∧
        ∀ j : Fin 4, r.ros.meas.get j = if j.val = 3 then Config.extendMeasure (s.ros.meas.get j) hash else s.ros.meas.get j)))
end

