-- ==== Sys2Proof/Laws/Canonical.lean ====
section
/-! SUPPORT. The other direction of Sys2Proof/Laws/Encoding.lean: a word that the decoder reads is the word that the encoder
makes of what was read, so no two words of a slot kind mean the same instruction. -/

set_option linter.unusedSimpArgs false

namespace Sys2Proof

/-! Codes of the operand kinds. -/

theorem Src.code_ofCode {n : Nat} {a : Src} (h : Src.ofCode n = some a) : a.code = n := by
  unfold Src.ofCode at h
  repeat' split at h
  all_goals first | (cases h; done) | (injection h with h; subst h; simp [Src.code]; try omega)

theorem Dst.code_ofCode {n : Nat} {a : Dst} (h : Dst.ofCode n = some a) : a.code = n := by
  unfold Dst.ofCode at h
  repeat' split at h
  all_goals first | (cases h; done) | (injection h with h; subst h; simp [Dst.code]; try omega)

theorem VReg.code_ofCode {n : Nat} {a : VReg} (h : VReg.ofCode n = some a) : a.code = n := by
  unfold VReg.ofCode at h
  repeat' split at h
  all_goals first | (cases h; done) | (injection h with h; subst h; simp [VReg.code]; try omega)

theorem FSrc.code_ofCode {n : Nat} {a : FSrc} (h : FSrc.ofCode n = some a) : a.code = n := by
  unfold FSrc.ofCode at h
  split at h
  · obtain ⟨r, hr, rfl⟩ := Option.map_eq_some_iff.mp h
    simpa [FSrc.code] using VReg.code_ofCode hr
  · repeat' split at h
    all_goals first | (cases h; done) | (injection h with h; subst h; simp [FSrc.code]; try omega)

theorem Scope.code_ofCode {n : Nat} {a : Scope} (h : Scope.ofCode n = some a) : a.code = n := by
  unfold Scope.ofCode at h
  split at h <;> first | (cases h; done) | (cases h; rfl)

theorem Fmt.code_ofCode {n : Nat} {a : Fmt} (h : Fmt.ofCode n = some a) : a.code = n := by
  unfold Fmt.ofCode at h
  split at h <;> first | (cases h; done) | (cases h; rfl)

theorem Cond.code_ofCode {n : Nat} {a : Cond} (h : Cond.ofCode n = some a) : a.code = n := by
  unfold Cond.ofCode at h
  split at h <;> first | (cases h; done) | (cases h; rfl)

theorem Lop.code_ofCode {n : Nat} {a : Lop} (h : Lop.ofCode n = some a) : a.code = n := by
  unfold Lop.ofCode at h
  split at h <;> first | (cases h; done) | (cases h; rfl)

theorem CboKind.code_ofCode {n : Nat} {a : CboKind} (h : CboKind.ofCode n = some a) : a.code = n := by
  unfold CboKind.ofCode at h
  split at h <;> first | (cases h; done) | (cases h; rfl)

theorem XredOp.code_ofCode {n : Nat} {a : XredOp} (h : XredOp.ofCode n = some a) : a.code = n := by
  unfold XredOp.ofCode at h
  split at h <;> first | (cases h; done) | (cases h; rfl)

theorem CvtKind.code_ofCode {n : Nat} {a : CvtKind} (h : CvtKind.ofCode n = some a) : a.code = n := by
  unfold CvtKind.ofCode at h
  split at h <;> first | (cases h; done) | (cases h; rfl)

theorem RMode.code_ofCode {n : Nat} {a : RMode} (h : RMode.ofCode n = some a) : a.code = n := by
  unfold RMode.ofCode at h
  split at h <;> first | (cases h; done) | (cases h; rfl)

theorem VCond.code_ofCode {n : Nat} {a : VCond} (h : VCond.ofCode n = some a) : a.code = n := by
  unfold VCond.ofCode at h
  split at h <;> first | (cases h; done) | (cases h; rfl)

theorem RedOp.code_ofCode {n : Nat} {a : RedOp} (h : RedOp.ofCode n = some a) : a.code = n := by
  unfold RedOp.ofCode at h
  split at h <;> first | (cases h; done) | (cases h; rfl)

theorem DotKind.code_ofCode {n : Nat} {a : DotKind} (h : DotKind.ofCode n = some a) : a.code = n := by
  unfold DotKind.ofCode at h
  split at h <;> first | (cases h; done) | (cases h; rfl)

theorem VSize.code_ofCode {n : Nat} {a : VSize} (h : VSize.ofCode n = some a) : a.code = n := by
  unfold VSize.ofCode at h
  split at h <;> first | (cases h; done) | (cases h; rfl)

theorem Rop.code_ofCode {n : Nat} {a : Rop} (h : Rop.ofCode n = some a) : a.code = n := by
  unfold Rop.ofCode at h
  split at h <;> first | (cases h; done) | (cases h; rfl)

theorem EType.code_ofCode {n : Nat} {a : EType} (h : EType.ofCode n = some a) : a.code = n := by
  unfold EType.ofCode at h
  split at h <;> first | (cases h; done) | (cases h; rfl)

theorem Rel.code_ofCode {n : Nat} {a : Rel} (h : Rel.ofCode n = some a) : a.code = n := by
  unfold Rel.ofCode at h
  split at h <;> first | (cases h; done) | (cases h; rfl)

theorem TlbiKind.code_ofCode {n : Nat} {a : TlbiKind} (h : TlbiKind.ofCode n = some a) : a.code = n := by
  unfold TlbiKind.ofCode at h
  split at h <;> first | (cases h; done) | (cases h; rfl)

theorem code_boolOf {n : Nat} {b : Bool} (h : boolOf n = some b) : boolCode b = n := by
  unfold boolOf at h
  repeat' split at h
  all_goals first | (cases h; done) | (cases h; simp [boolCode, *])

theorem val_finOf {m n : Nat} [NeZero m] {i : Fin m} (h : finOf m n = some i) : i.val = n := by
  unfold finOf at h
  split at h
  · cases h
    simp [Nat.mod_eq_of_lt ‹n < m›]
  · cases h

theorem val_pairOf {m n : Nat} [NeZero m] {i : Fin m} (h : pairOf m n = some i) : 2 * i.val = n := by
  unfold pairOf at h
  split at h
  · have := val_finOf h
    omega
  · cases h

/-! Words from their fields. -/

/-- The low `n` bits of a word. -/
def low (w n : Nat) : Nat := w % 2 ^ n

theorem low_top {w : Nat} (h : w < 2 ^ 32) : low w 32 = w := Nat.mod_eq_of_lt h

theorem low_zero (w : Nat) : low w 0 = 0 := by simp [low, Nat.mod_one]

/-- A field and what stands below it. -/
theorem low_split (w hi lo : Nat) (h : lo ≤ hi + 1) : low w (hi + 1) = bits w hi lo * 2 ^ lo + low w lo := by
  obtain ⟨k, hk⟩ := Nat.le.dest h
  have e : hi + 1 - lo = k := by omega
  unfold low bits
  rw [e, ← hk, Nat.pow_add, Nat.mod_mul, Nat.add_comm, Nat.mul_comm]

theorem bits_lt (w hi lo : Nat) : bits w hi lo < 2 ^ (hi + 1 - lo) := Nat.mod_lt _ (Nat.two_pow_pos _)

theorem gOf_val (w : Nat) : (gOf w).val = bits w 31 28 := by simp [gOf, bits]

theorem qOf_val (w : Nat) : (qOf w).val = bits w 31 29 := by simp [qOf, bits]

/-! Operand structures. -/

theorem OBr.enc_dec {w op : Nat} {ix : Option W32} {o : OBr} (hw : w < 2 ^ 32)
    (hop : bits w 26 20 = op) (hix : bits w 27 27 = boolCode ix.isSome) (h : OBr.dec w ix = some o) :
    o.enc op = w ∧ ix = o.ix := by
  simp only [OBr.dec, Option.bind_eq_bind, Option.ite_none_right_eq_some, Option.bind_eq_some_iff] at h
  injection h with h
  subst h
  refine ⟨?_, ?_⟩
  · have s0 := low_split w 31 28 (by decide)
    have l0 := bits_lt w 31 28
    have s1 := low_split w 27 27 (by decide)
    have l1 := bits_lt w 27 27
    have s2 := low_split w 26 20 (by decide)
    have l2 := bits_lt w 26 20
    have s3 := low_split w 19 0 (by decide)
    have l3 := bits_lt w 19 0
    rw [low_top hw] at s0
    rw [low_zero] at s3
    have e1 := gOf_val w
    simp only [OBr.enc, frameG, Fin.val_ofNat, BitVec.toNat_ofNat, boolCode_none, boolCode_some] at *
    simp only [Nat.reducePow, Nat.reduceAdd, Nat.reduceSub] at *
    omega
  · rfl

theorem OBrc.enc_dec {w op : Nat} {ix : Option W32} {o : OBrc} (hw : w < 2 ^ 32)
    (hop : bits w 26 20 = op) (hix : bits w 27 27 = boolCode ix.isSome) (h : OBrc.dec w ix = some o) :
    o.enc op = w ∧ ix = o.ix := by
  simp only [OBrc.dec, Option.bind_eq_bind, Option.ite_none_right_eq_some, Option.bind_eq_some_iff] at h
  obtain ⟨v0, b0, v1, b1, h⟩ := h
  injection h with h
  subst h
  refine ⟨?_, ?_⟩
  · have s0 := low_split w 31 28 (by decide)
    have l0 := bits_lt w 31 28
    have s1 := low_split w 27 27 (by decide)
    have l1 := bits_lt w 27 27
    have s2 := low_split w 26 20 (by decide)
    have l2 := bits_lt w 26 20
    have s3 := low_split w 19 15 (by decide)
    have l3 := bits_lt w 19 15
    have s4 := low_split w 14 14 (by decide)
    have l4 := bits_lt w 14 14
    have s5 := low_split w 13 0 (by decide)
    have l5 := bits_lt w 13 0
    rw [low_top hw] at s0
    rw [low_zero] at s5
    have e1 := gOf_val w
    have r0 := Src.code_ofCode b0
    have r1 := code_boolOf b1
    simp only [OBrc.enc, frameG, Fin.val_ofNat, BitVec.toNat_ofNat, boolCode_none, boolCode_some] at *
    simp only [Nat.reducePow, Nat.reduceAdd, Nat.reduceSub] at *
    omega
  · rfl

theorem OBrq.enc_dec {w op : Nat} {ix : Option W32} {o : OBrq} (hw : w < 2 ^ 32)
    (hop : bits w 26 20 = op) (hix : bits w 27 27 = boolCode ix.isSome) (h : OBrq.dec w ix = some o) :
    o.enc op = w ∧ ix = o.ix := by
  simp only [OBrq.dec, Option.bind_eq_bind, Option.ite_none_right_eq_some, Option.bind_eq_some_iff] at h
  injection h with h
  subst h
  refine ⟨?_, ?_⟩
  · have s0 := low_split w 31 28 (by decide)
    have l0 := bits_lt w 31 28
    have s1 := low_split w 27 27 (by decide)
    have l1 := bits_lt w 27 27
    have s2 := low_split w 26 20 (by decide)
    have l2 := bits_lt w 26 20
    have s3 := low_split w 19 17 (by decide)
    have l3 := bits_lt w 19 17
    have s4 := low_split w 16 14 (by decide)
    have l4 := bits_lt w 16 14
    have s5 := low_split w 13 11 (by decide)
    have l5 := bits_lt w 13 11
    have s6 := low_split w 10 0 (by decide)
    have l6 := bits_lt w 10 0
    rw [low_top hw] at s0
    rw [low_zero] at s6
    have e1 := gOf_val w
    simp only [OBrq.enc, frameG, Fin.val_ofNat, BitVec.toNat_ofNat, boolCode_none, boolCode_some] at *
    simp only [Nat.reducePow, Nat.reduceAdd, Nat.reduceSub] at *
    omega
  · rfl

theorem OBrA.enc_dec {w op : Nat} {ix : Option W32} {o : OBrA} (hw : w < 2 ^ 32)
    (hop : bits w 26 20 = op) (hix : bits w 27 27 = boolCode ix.isSome) (h : OBrA.dec w ix = some o) :
    o.enc op = w ∧ ix = none := by
  simp only [OBrA.dec, Option.bind_eq_bind, Option.ite_none_right_eq_some, Option.bind_eq_some_iff] at h
  obtain ⟨⟨c0, c1⟩, v0, b0, h⟩ := h
  injection h with h
  subst h
  subst c1
  refine ⟨?_, ?_⟩
  · have s0 := low_split w 31 28 (by decide)
    have l0 := bits_lt w 31 28
    have s1 := low_split w 27 27 (by decide)
    have l1 := bits_lt w 27 27
    have s2 := low_split w 26 20 (by decide)
    have l2 := bits_lt w 26 20
    have s3 := low_split w 19 15 (by decide)
    have l3 := bits_lt w 19 15
    have s4 := low_split w 14 0 (by decide)
    have l4 := bits_lt w 14 0
    rw [low_top hw] at s0
    rw [low_zero] at s4
    have e1 := gOf_val w
    have r0 := Src.code_ofCode b0
    simp only [OBrA.enc, frameG, Fin.val_ofNat, BitVec.toNat_ofNat, boolCode_none, boolCode_some] at *
    simp only [Nat.reducePow, Nat.reduceAdd, Nat.reduceSub] at *
    omega
  · rfl

theorem OLoop.enc_dec {w op : Nat} {ix : Option W32} {o : OLoop} (hw : w < 2 ^ 32)
    (hop : bits w 26 20 = op) (hix : bits w 27 27 = boolCode ix.isSome) (h : OLoop.dec w ix = some o) :
    o.enc op = w ∧ ix = o.ix := by
  simp only [OLoop.dec, Option.bind_eq_bind, Option.ite_none_right_eq_some, Option.bind_eq_some_iff] at h
  injection h with h
  subst h
  refine ⟨?_, ?_⟩
  · have s0 := low_split w 31 28 (by decide)
    have l0 := bits_lt w 31 28
    have s1 := low_split w 27 27 (by decide)
    have l1 := bits_lt w 27 27
    have s2 := low_split w 26 20 (by decide)
    have l2 := bits_lt w 26 20
    have s3 := low_split w 19 14 (by decide)
    have l3 := bits_lt w 19 14
    have s4 := low_split w 13 0 (by decide)
    have l4 := bits_lt w 13 0
    rw [low_top hw] at s0
    rw [low_zero] at s4
    have e1 := gOf_val w
    simp only [OLoop.enc, frameG, Fin.val_ofNat, BitVec.toNat_ofNat, boolCode_none, boolCode_some] at *
    simp only [Nat.reducePow, Nat.reduceAdd, Nat.reduceSub] at *
    omega
  · rfl

theorem OG.enc_dec {w op : Nat} {ix : Option W32} {o : OG} (hw : w < 2 ^ 32)
    (hop : bits w 26 20 = op) (hix : bits w 27 27 = boolCode ix.isSome) (h : OG.dec w ix = some o) :
    o.enc op = w ∧ ix = none := by
  simp only [OG.dec, Option.bind_eq_bind, Option.ite_none_right_eq_some, Option.bind_eq_some_iff] at h
  obtain ⟨⟨c0, c1⟩, h⟩ := h
  injection h with h
  subst h
  subst c1
  refine ⟨?_, ?_⟩
  · have s0 := low_split w 31 28 (by decide)
    have l0 := bits_lt w 31 28
    have s1 := low_split w 27 27 (by decide)
    have l1 := bits_lt w 27 27
    have s2 := low_split w 26 20 (by decide)
    have l2 := bits_lt w 26 20
    have s3 := low_split w 19 0 (by decide)
    have l3 := bits_lt w 19 0
    rw [low_top hw] at s0
    rw [low_zero] at s3
    have e1 := gOf_val w
    simp only [OG.enc, frameG, Fin.val_ofNat, BitVec.toNat_ofNat, boolCode_none, boolCode_some] at *
    simp only [Nat.reducePow, Nat.reduceAdd, Nat.reduceSub] at *
    omega
  · rfl

theorem OWait.enc_dec {w op : Nat} {ix : Option W32} {o : OWait} (hw : w < 2 ^ 32)
    (hop : bits w 26 20 = op) (hix : bits w 27 27 = boolCode ix.isSome) (h : OWait.dec w ix = some o) :
    o.enc op = w ∧ ix = none := by
  simp only [OWait.dec, Option.bind_eq_bind, Option.ite_none_right_eq_some, Option.bind_eq_some_iff] at h
  obtain ⟨⟨c0, c1⟩, h⟩ := h
  injection h with h
  subst h
  subst c1
  refine ⟨?_, ?_⟩
  · have s0 := low_split w 31 28 (by decide)
    have l0 := bits_lt w 31 28
    have s1 := low_split w 27 27 (by decide)
    have l1 := bits_lt w 27 27
    have s2 := low_split w 26 20 (by decide)
    have l2 := bits_lt w 26 20
    have s3 := low_split w 19 15 (by decide)
    have l3 := bits_lt w 19 15
    have s4 := low_split w 14 8 (by decide)
    have l4 := bits_lt w 14 8
    have s5 := low_split w 7 0 (by decide)
    have l5 := bits_lt w 7 0
    rw [low_top hw] at s0
    rw [low_zero] at s5
    have e1 := gOf_val w
    simp only [OWait.enc, frameG, Fin.val_ofNat, BitVec.toNat_ofNat, boolCode_none, boolCode_some] at *
    simp only [Nat.reducePow, Nat.reduceAdd, Nat.reduceSub] at *
    omega
  · rfl

theorem OFence.enc_dec {w op : Nat} {ix : Option W32} {o : OFence} (hw : w < 2 ^ 32)
    (hop : bits w 26 20 = op) (hix : bits w 27 27 = boolCode ix.isSome) (h : OFence.dec w ix = some o) :
    o.enc op = w ∧ ix = none := by
  simp only [OFence.dec, Option.bind_eq_bind, Option.ite_none_right_eq_some, Option.bind_eq_some_iff] at h
  obtain ⟨⟨c0, c1⟩, v0, b0, h⟩ := h
  injection h with h
  subst h
  subst c1
  refine ⟨?_, ?_⟩
  · have s0 := low_split w 31 28 (by decide)
    have l0 := bits_lt w 31 28
    have s1 := low_split w 27 27 (by decide)
    have l1 := bits_lt w 27 27
    have s2 := low_split w 26 20 (by decide)
    have l2 := bits_lt w 26 20
    have s3 := low_split w 19 14 (by decide)
    have l3 := bits_lt w 19 14
    have s4 := low_split w 13 8 (by decide)
    have l4 := bits_lt w 13 8
    have s5 := low_split w 7 4 (by decide)
    have l5 := bits_lt w 7 4
    have s6 := low_split w 3 0 (by decide)
    have l6 := bits_lt w 3 0
    rw [low_top hw] at s0
    rw [low_zero] at s6
    have e1 := gOf_val w
    have r0 := Scope.code_ofCode b0
    simp only [OFence.enc, frameG, Fin.val_ofNat, BitVec.toNat_ofNat, boolCode_none, boolCode_some] at *
    simp only [Nat.reducePow, Nat.reduceAdd, Nat.reduceSub] at *
    omega
  · rfl

theorem OLwatch.enc_dec {w op : Nat} {ix : Option W32} {o : OLwatch} (hw : w < 2 ^ 32)
    (hop : bits w 26 20 = op) (hix : bits w 27 27 = boolCode ix.isSome) (h : OLwatch.dec w ix = some o) :
    o.enc op = w ∧ ix = o.ix := by
  simp only [OLwatch.dec, Option.bind_eq_bind, Option.ite_none_right_eq_some, Option.bind_eq_some_iff] at h
  obtain ⟨c0, v0, b0, v1, b1, v2, b2, h⟩ := h
  injection h with h
  subst h
  refine ⟨?_, ?_⟩
  · have s0 := low_split w 31 28 (by decide)
    have l0 := bits_lt w 31 28
    have s1 := low_split w 27 27 (by decide)
    have l1 := bits_lt w 27 27
    have s2 := low_split w 26 20 (by decide)
    have l2 := bits_lt w 26 20
    have s3 := low_split w 19 15 (by decide)
    have l3 := bits_lt w 19 15
    have s4 := low_split w 14 10 (by decide)
    have l4 := bits_lt w 14 10
    have s5 := low_split w 9 4 (by decide)
    have l5 := bits_lt w 9 4
    have s6 := low_split w 3 0 (by decide)
    have l6 := bits_lt w 3 0
    rw [low_top hw] at s0
    rw [low_zero] at s6
    have e1 := gOf_val w
    have r0 := Src.code_ofCode b0
    have r1 := Src.code_ofCode b1
    have r2 := Scope.code_ofCode b2
    simp only [OLwatch.enc, frameG, Fin.val_ofNat, BitVec.toNat_ofNat, boolCode_none, boolCode_some] at *
    simp only [Nat.reducePow, Nat.reduceAdd, Nat.reduceSub] at *
    omega
  · rfl

theorem OR3.enc_dec {w op fn : Nat} {ix : Option W32} {o : OR3} (hw : w < 2 ^ 32)
    (hop : bits w 26 20 = op) (hix : bits w 27 27 = boolCode ix.isSome) (h : OR3.dec w ix fn = some o) :
    o.enc op fn = w ∧ ix = o.ix := by
  simp only [OR3.dec, Option.bind_eq_bind, Option.ite_none_right_eq_some, Option.bind_eq_some_iff] at h
  obtain ⟨c0, v0, b0, v1, b1, v2, b2, h⟩ := h
  injection h with h
  subst h
  refine ⟨?_, ?_⟩
  · have s0 := low_split w 31 28 (by decide)
    have l0 := bits_lt w 31 28
    have s1 := low_split w 27 27 (by decide)
    have l1 := bits_lt w 27 27
    have s2 := low_split w 26 20 (by decide)
    have l2 := bits_lt w 26 20
    have s3 := low_split w 19 14 (by decide)
    have l3 := bits_lt w 19 14
    have s4 := low_split w 13 9 (by decide)
    have l4 := bits_lt w 13 9
    have s5 := low_split w 8 4 (by decide)
    have l5 := bits_lt w 8 4
    have s6 := low_split w 3 0 (by decide)
    have l6 := bits_lt w 3 0
    rw [low_top hw] at s0
    rw [low_zero] at s6
    have e1 := gOf_val w
    have r0 := Dst.code_ofCode b0
    have r1 := Src.code_ofCode b1
    have r2 := Src.code_ofCode b2
    simp only [OR3.enc, frameG, Fin.val_ofNat, BitVec.toNat_ofNat, boolCode_none, boolCode_some] at *
    simp only [Nat.reducePow, Nat.reduceAdd, Nat.reduceSub] at *
    omega
  · rfl

theorem OR2.enc_dec {w op : Nat} {ix : Option W32} {o : OR2} (hw : w < 2 ^ 32)
    (hop : bits w 26 20 = op) (hix : bits w 27 27 = boolCode ix.isSome) (h : OR2.dec w ix = some o) :
    o.enc op = w ∧ ix = o.ix := by
  simp only [OR2.dec, Option.bind_eq_bind, Option.ite_none_right_eq_some, Option.bind_eq_some_iff] at h
  obtain ⟨c0, v0, b0, v1, b1, h⟩ := h
  injection h with h
  subst h
  refine ⟨?_, ?_⟩
  · have s0 := low_split w 31 28 (by decide)
    have l0 := bits_lt w 31 28
    have s1 := low_split w 27 27 (by decide)
    have l1 := bits_lt w 27 27
    have s2 := low_split w 26 20 (by decide)
    have l2 := bits_lt w 26 20
    have s3 := low_split w 19 14 (by decide)
    have l3 := bits_lt w 19 14
    have s4 := low_split w 13 9 (by decide)
    have l4 := bits_lt w 13 9
    have s5 := low_split w 8 0 (by decide)
    have l5 := bits_lt w 8 0
    rw [low_top hw] at s0
    rw [low_zero] at s5
    have e1 := gOf_val w
    have r0 := Dst.code_ofCode b0
    have r1 := Src.code_ofCode b1
    simp only [OR2.enc, frameG, Fin.val_ofNat, BitVec.toNat_ofNat, boolCode_none, boolCode_some] at *
    simp only [Nat.reducePow, Nat.reduceAdd, Nat.reduceSub] at *
    omega
  · rfl

theorem OR3n.enc_dec {w op : Nat} {ix : Option W32} {o : OR3n} (hw : w < 2 ^ 32)
    (hop : bits w 26 20 = op) (hix : bits w 27 27 = boolCode ix.isSome) (h : OR3n.dec w ix = some o) :
    o.enc op = w ∧ ix = o.ix := by
  simp only [OR3n.dec, Option.bind_eq_bind, Option.ite_none_right_eq_some, Option.bind_eq_some_iff] at h
  obtain ⟨v0, b0, v1, b1, v2, b2, h⟩ := h
  injection h with h
  subst h
  refine ⟨?_, ?_⟩
  · have s0 := low_split w 31 28 (by decide)
    have l0 := bits_lt w 31 28
    have s1 := low_split w 27 27 (by decide)
    have l1 := bits_lt w 27 27
    have s2 := low_split w 26 20 (by decide)
    have l2 := bits_lt w 26 20
    have s3 := low_split w 19 14 (by decide)
    have l3 := bits_lt w 19 14
    have s4 := low_split w 13 9 (by decide)
    have l4 := bits_lt w 13 9
    have s5 := low_split w 8 4 (by decide)
    have l5 := bits_lt w 8 4
    have s6 := low_split w 3 0 (by decide)
    have l6 := bits_lt w 3 0
    rw [low_top hw] at s0
    rw [low_zero] at s6
    have e1 := gOf_val w
    have r0 := Dst.code_ofCode b0
    have r1 := Src.code_ofCode b1
    have r2 := Src.code_ofCode b2
    simp only [OR3n.enc, frameG, Fin.val_ofNat, BitVec.toNat_ofNat, boolCode_none, boolCode_some] at *
    simp only [Nat.reducePow, Nat.reduceAdd, Nat.reduceSub] at *
    omega
  · rfl

theorem OStg.enc_dec {w op : Nat} {ix : Option W32} {o : OStg} (hw : w < 2 ^ 32)
    (hop : bits w 26 20 = op) (hix : bits w 27 27 = boolCode ix.isSome) (h : OStg.dec w ix = some o) :
    o.enc op = w ∧ ix = o.ix := by
  simp only [OStg.dec, Option.bind_eq_bind, Option.ite_none_right_eq_some, Option.bind_eq_some_iff] at h
  obtain ⟨c0, v0, b0, v1, b1, h⟩ := h
  injection h with h
  subst h
  refine ⟨?_, ?_⟩
  · have s0 := low_split w 31 28 (by decide)
    have l0 := bits_lt w 31 28
    have s1 := low_split w 27 27 (by decide)
    have l1 := bits_lt w 27 27
    have s2 := low_split w 26 20 (by decide)
    have l2 := bits_lt w 26 20
    have s3 := low_split w 19 14 (by decide)
    have l3 := bits_lt w 19 14
    have s4 := low_split w 13 9 (by decide)
    have l4 := bits_lt w 13 9
    have s5 := low_split w 8 0 (by decide)
    have l5 := bits_lt w 8 0
    rw [low_top hw] at s0
    rw [low_zero] at s5
    have e1 := gOf_val w
    have r0 := val_finOf b0
    have r1 := Src.code_ofCode b1
    simp only [OStg.enc, frameG, Fin.val_ofNat, BitVec.toNat_ofNat, boolCode_none, boolCode_some] at *
    simp only [Nat.reducePow, Nat.reduceAdd, Nat.reduceSub] at *
    omega
  · rfl

theorem OMovi.enc_dec {w op : Nat} {ix : Option W32} {o : OMovi} (hw : w < 2 ^ 32)
    (hop : bits w 26 20 = op) (hix : bits w 27 27 = boolCode ix.isSome) (h : OMovi.dec w ix = some o) :
    o.enc op = w ∧ ix = o.ix := by
  simp only [OMovi.dec, Option.bind_eq_bind, Option.ite_none_right_eq_some, Option.bind_eq_some_iff, Bool.and_eq_true, decide_eq_true_eq] at h
  obtain ⟨⟨c0, c1⟩, v0, b0, v1, b1, h⟩ := h
  injection h with h
  subst h
  refine ⟨?_, ?_⟩
  · have s0 := low_split w 31 28 (by decide)
    have l0 := bits_lt w 31 28
    have s1 := low_split w 27 27 (by decide)
    have l1 := bits_lt w 27 27
    have s2 := low_split w 26 20 (by decide)
    have l2 := bits_lt w 26 20
    have s3 := low_split w 19 14 (by decide)
    have l3 := bits_lt w 19 14
    have s4 := low_split w 13 9 (by decide)
    have l4 := bits_lt w 13 9
    have s5 := low_split w 8 4 (by decide)
    have l5 := bits_lt w 8 4
    have s6 := low_split w 3 0 (by decide)
    have l6 := bits_lt w 3 0
    rw [low_top hw] at s0
    rw [low_zero] at s6
    have e1 := gOf_val w
    have r0 := Dst.code_ofCode b0
    have r1 := Src.code_ofCode b1
    simp only [OMovi.enc, frameG, Fin.val_ofNat, BitVec.toNat_ofNat, boolCode_none, boolCode_some] at *
    simp only [Nat.reducePow, Nat.reduceAdd, Nat.reduceSub] at *
    omega
  · rfl

theorem OCmp.enc_dec {w op : Nat} {ix : Option W32} {o : OCmp} (hw : w < 2 ^ 32)
    (hop : bits w 26 20 = op) (hix : bits w 27 27 = boolCode ix.isSome) (h : OCmp.dec w ix = some o) :
    o.enc op = w ∧ ix = o.ix := by
  simp only [OCmp.dec, Option.bind_eq_bind, Option.ite_none_right_eq_some, Option.bind_eq_some_iff] at h
  obtain ⟨v0, b0, v1, b1, v2, b2, v3, b3, h⟩ := h
  injection h with h
  subst h
  refine ⟨?_, ?_⟩
  · have s0 := low_split w 31 28 (by decide)
    have l0 := bits_lt w 31 28
    have s1 := low_split w 27 27 (by decide)
    have l1 := bits_lt w 27 27
    have s2 := low_split w 26 20 (by decide)
    have l2 := bits_lt w 26 20
    have s3 := low_split w 19 14 (by decide)
    have l3 := bits_lt w 19 14
    have s4 := low_split w 13 9 (by decide)
    have l4 := bits_lt w 13 9
    have s5 := low_split w 8 4 (by decide)
    have l5 := bits_lt w 8 4
    have s6 := low_split w 3 0 (by decide)
    have l6 := bits_lt w 3 0
    rw [low_top hw] at s0
    rw [low_zero] at s6
    have e1 := gOf_val w
    have r0 := val_pairOf b0
    have r1 := Src.code_ofCode b1
    have r2 := Src.code_ofCode b2
    have r3 := Cond.code_ofCode b3
    simp only [OCmp.enc, frameG, Fin.val_ofNat, BitVec.toNat_ofNat, boolCode_none, boolCode_some] at *
    simp only [Nat.reducePow, Nat.reduceAdd, Nat.reduceSub] at *
    omega
  · rfl

theorem OPlog.enc_dec {w op : Nat} {ix : Option W32} {o : OPlog} (hw : w < 2 ^ 32)
    (hop : bits w 26 20 = op) (hix : bits w 27 27 = boolCode ix.isSome) (h : OPlog.dec w ix = some o) :
    o.enc op = w ∧ ix = none := by
  simp only [OPlog.dec, Option.bind_eq_bind, Option.ite_none_right_eq_some, Option.bind_eq_some_iff] at h
  obtain ⟨c0, v0, b0, v1, b1, v2, b2, v3, b3, h⟩ := h
  injection h with h
  subst h
  subst c0
  refine ⟨?_, ?_⟩
  · have s0 := low_split w 31 28 (by decide)
    have l0 := bits_lt w 31 28
    have s1 := low_split w 27 27 (by decide)
    have l1 := bits_lt w 27 27
    have s2 := low_split w 26 20 (by decide)
    have l2 := bits_lt w 26 20
    have s3 := low_split w 19 14 (by decide)
    have l3 := bits_lt w 19 14
    have s4 := low_split w 13 9 (by decide)
    have l4 := bits_lt w 13 9
    have s5 := low_split w 8 4 (by decide)
    have l5 := bits_lt w 8 4
    have s6 := low_split w 3 0 (by decide)
    have l6 := bits_lt w 3 0
    rw [low_top hw] at s0
    rw [low_zero] at s6
    have e1 := gOf_val w
    have r0 := val_pairOf b0
    have r1 := val_finOf b1
    have r2 := val_finOf b2
    have r3 := Lop.code_ofCode b3
    simp only [OPlog.enc, frameG, Fin.val_ofNat, BitVec.toNat_ofNat, boolCode_none, boolCode_some] at *
    simp only [Nat.reducePow, Nat.reduceAdd, Nat.reduceSub] at *
    omega
  · rfl

theorem OLd.enc_dec {w op : Nat} {ix : Option W32} {o : OLd} (hw : w < 2 ^ 32)
    (hop : bits w 26 20 = op) (hix : bits w 27 27 = boolCode ix.isSome) (h : OLd.dec w ix = some o) :
    o.enc op = w ∧ ix = o.ix := by
  simp only [OLd.dec, Option.bind_eq_bind, Option.ite_none_right_eq_some, Option.bind_eq_some_iff] at h
  obtain ⟨v0, b0, v1, b1, v2, b2, v3, b3, h⟩ := h
  injection h with h
  subst h
  refine ⟨?_, ?_⟩
  · have s0 := low_split w 31 28 (by decide)
    have l0 := bits_lt w 31 28
    have s1 := low_split w 27 27 (by decide)
    have l1 := bits_lt w 27 27
    have s2 := low_split w 26 20 (by decide)
    have l2 := bits_lt w 26 20
    have s3 := low_split w 19 14 (by decide)
    have l3 := bits_lt w 19 14
    have s4 := low_split w 13 9 (by decide)
    have l4 := bits_lt w 13 9
    have s5 := low_split w 8 4 (by decide)
    have l5 := bits_lt w 8 4
    have s6 := low_split w 3 0 (by decide)
    have l6 := bits_lt w 3 0
    rw [low_top hw] at s0
    rw [low_zero] at s6
    have e1 := gOf_val w
    have r0 := Dst.code_ofCode b0
    have r1 := Src.code_ofCode b1
    have r2 := Src.code_ofCode b2
    have r3 := Scope.code_ofCode b3
    simp only [OLd.enc, frameG, Fin.val_ofNat, BitVec.toNat_ofNat, boolCode_none, boolCode_some] at *
    simp only [Nat.reducePow, Nat.reduceAdd, Nat.reduceSub] at *
    omega
  · rfl

theorem OSt.enc_dec {w op : Nat} {ix : Option W32} {o : OSt} (hw : w < 2 ^ 32)
    (hop : bits w 26 20 = op) (hix : bits w 27 27 = boolCode ix.isSome) (h : OSt.dec w ix = some o) :
    o.enc op = w ∧ ix = o.ix := by
  simp only [OSt.dec, Option.bind_eq_bind, Option.ite_none_right_eq_some, Option.bind_eq_some_iff] at h
  obtain ⟨c0, v0, b0, v1, b1, v2, b2, v3, b3, h⟩ := h
  injection h with h
  subst h
  refine ⟨?_, ?_⟩
  · have s0 := low_split w 31 28 (by decide)
    have l0 := bits_lt w 31 28
    have s1 := low_split w 27 27 (by decide)
    have l1 := bits_lt w 27 27
    have s2 := low_split w 26 20 (by decide)
    have l2 := bits_lt w 26 20
    have s3 := low_split w 19 15 (by decide)
    have l3 := bits_lt w 19 15
    have s4 := low_split w 14 14 (by decide)
    have l4 := bits_lt w 14 14
    have s5 := low_split w 13 9 (by decide)
    have l5 := bits_lt w 13 9
    have s6 := low_split w 8 4 (by decide)
    have l6 := bits_lt w 8 4
    have s7 := low_split w 3 0 (by decide)
    have l7 := bits_lt w 3 0
    rw [low_top hw] at s0
    rw [low_zero] at s7
    have e1 := gOf_val w
    have r0 := Src.code_ofCode b0
    have r1 := Src.code_ofCode b1
    have r2 := Src.code_ofCode b2
    have r3 := Scope.code_ofCode b3
    simp only [OSt.enc, frameG, Fin.val_ofNat, BitVec.toNat_ofNat, boolCode_none, boolCode_some] at *
    simp only [Nat.reducePow, Nat.reduceAdd, Nat.reduceSub] at *
    omega
  · rfl

theorem OStl.enc_dec {w op : Nat} {ix : Option W32} {o : OStl} (hw : w < 2 ^ 32)
    (hop : bits w 26 20 = op) (hix : bits w 27 27 = boolCode ix.isSome) (h : OStl.dec w ix = some o) :
    o.enc op = w ∧ ix = o.ix := by
  simp only [OStl.dec, Option.bind_eq_bind, Option.ite_none_right_eq_some, Option.bind_eq_some_iff] at h
  obtain ⟨⟨c0, c1⟩, v0, b0, v1, b1, v2, b2, h⟩ := h
  injection h with h
  subst h
  refine ⟨?_, ?_⟩
  · have s0 := low_split w 31 28 (by decide)
    have l0 := bits_lt w 31 28
    have s1 := low_split w 27 27 (by decide)
    have l1 := bits_lt w 27 27
    have s2 := low_split w 26 20 (by decide)
    have l2 := bits_lt w 26 20
    have s3 := low_split w 19 15 (by decide)
    have l3 := bits_lt w 19 15
    have s4 := low_split w 14 14 (by decide)
    have l4 := bits_lt w 14 14
    have s5 := low_split w 13 9 (by decide)
    have l5 := bits_lt w 13 9
    have s6 := low_split w 8 4 (by decide)
    have l6 := bits_lt w 8 4
    have s7 := low_split w 3 0 (by decide)
    have l7 := bits_lt w 3 0
    rw [low_top hw] at s0
    rw [low_zero] at s7
    have e1 := gOf_val w
    have r0 := Src.code_ofCode b0
    have r1 := Src.code_ofCode b1
    have r2 := Src.code_ofCode b2
    simp only [OStl.enc, frameG, Fin.val_ofNat, BitVec.toNat_ofNat, boolCode_none, boolCode_some] at *
    simp only [Nat.reducePow, Nat.reduceAdd, Nat.reduceSub] at *
    omega
  · rfl

theorem OPfd.enc_dec {w op : Nat} {ix : Option W32} {o : OPfd} (hw : w < 2 ^ 32)
    (hop : bits w 26 20 = op) (hix : bits w 27 27 = boolCode ix.isSome) (h : OPfd.dec w ix = some o) :
    o.enc op = w ∧ ix = o.ix := by
  simp only [OPfd.dec, Option.bind_eq_bind, Option.ite_none_right_eq_some, Option.bind_eq_some_iff] at h
  obtain ⟨⟨c0, c1⟩, v0, b0, v1, b1, v2, b2, h⟩ := h
  injection h with h
  subst h
  refine ⟨?_, ?_⟩
  · have s0 := low_split w 31 28 (by decide)
    have l0 := bits_lt w 31 28
    have s1 := low_split w 27 27 (by decide)
    have l1 := bits_lt w 27 27
    have s2 := low_split w 26 20 (by decide)
    have l2 := bits_lt w 26 20
    have s3 := low_split w 19 18 (by decide)
    have l3 := bits_lt w 19 18
    have s4 := low_split w 17 14 (by decide)
    have l4 := bits_lt w 17 14
    have s5 := low_split w 13 9 (by decide)
    have l5 := bits_lt w 13 9
    have s6 := low_split w 8 4 (by decide)
    have l6 := bits_lt w 8 4
    have s7 := low_split w 3 0 (by decide)
    have l7 := bits_lt w 3 0
    rw [low_top hw] at s0
    rw [low_zero] at s7
    have e1 := gOf_val w
    have r0 := code_boolOf b0
    have r1 := Src.code_ofCode b1
    have r2 := Src.code_ofCode b2
    simp only [OPfd.enc, frameG, Fin.val_ofNat, BitVec.toNat_ofNat, boolCode_none, boolCode_some] at *
    simp only [Nat.reducePow, Nat.reduceAdd, Nat.reduceSub] at *
    omega
  · rfl

theorem OCbo.enc_dec {w op : Nat} {ix : Option W32} {o : OCbo} (hw : w < 2 ^ 32)
    (hop : bits w 26 20 = op) (hix : bits w 27 27 = boolCode ix.isSome) (h : OCbo.dec w ix = some o) :
    o.enc op = w ∧ ix = o.ix := by
  simp only [OCbo.dec, Option.bind_eq_bind, Option.ite_none_right_eq_some, Option.bind_eq_some_iff] at h
  obtain ⟨c0, v0, b0, v1, b1, v2, b2, v3, b3, h⟩ := h
  injection h with h
  subst h
  refine ⟨?_, ?_⟩
  · have s0 := low_split w 31 28 (by decide)
    have l0 := bits_lt w 31 28
    have s1 := low_split w 27 27 (by decide)
    have l1 := bits_lt w 27 27
    have s2 := low_split w 26 20 (by decide)
    have l2 := bits_lt w 26 20
    have s3 := low_split w 19 18 (by decide)
    have l3 := bits_lt w 19 18
    have s4 := low_split w 17 14 (by decide)
    have l4 := bits_lt w 17 14
    have s5 := low_split w 13 9 (by decide)
    have l5 := bits_lt w 13 9
    have s6 := low_split w 8 4 (by decide)
    have l6 := bits_lt w 8 4
    have s7 := low_split w 3 0 (by decide)
    have l7 := bits_lt w 3 0
    rw [low_top hw] at s0
    rw [low_zero] at s7
    have e1 := gOf_val w
    have r0 := CboKind.code_ofCode b0
    have r1 := Src.code_ofCode b1
    have r2 := Src.code_ofCode b2
    have r3 := Scope.code_ofCode b3
    simp only [OCbo.enc, frameG, Fin.val_ofNat, BitVec.toNat_ofNat, boolCode_none, boolCode_some] at *
    simp only [Nat.reducePow, Nat.reduceAdd, Nat.reduceSub] at *
    omega
  · rfl

theorem OCsrr.enc_dec {w op : Nat} {ix : Option W32} {o : OCsrr} (hw : w < 2 ^ 32)
    (hop : bits w 26 20 = op) (hix : bits w 27 27 = boolCode ix.isSome) (h : OCsrr.dec w ix = some o) :
    o.enc op = w ∧ ix = none := by
  simp only [OCsrr.dec, Option.bind_eq_bind, Option.ite_none_right_eq_some, Option.bind_eq_some_iff] at h
  obtain ⟨⟨c0, c1⟩, v0, b0, h⟩ := h
  injection h with h
  subst h
  subst c1
  refine ⟨?_, ?_⟩
  · have s0 := low_split w 31 28 (by decide)
    have l0 := bits_lt w 31 28
    have s1 := low_split w 27 27 (by decide)
    have l1 := bits_lt w 27 27
    have s2 := low_split w 26 20 (by decide)
    have l2 := bits_lt w 26 20
    have s3 := low_split w 19 14 (by decide)
    have l3 := bits_lt w 19 14
    have s4 := low_split w 13 12 (by decide)
    have l4 := bits_lt w 13 12
    have s5 := low_split w 11 0 (by decide)
    have l5 := bits_lt w 11 0
    rw [low_top hw] at s0
    rw [low_zero] at s5
    have e1 := gOf_val w
    have r0 := Dst.code_ofCode b0
    simp only [OCsrr.enc, frameG, Fin.val_ofNat, BitVec.toNat_ofNat, boolCode_none, boolCode_some] at *
    simp only [Nat.reducePow, Nat.reduceAdd, Nat.reduceSub] at *
    omega
  · rfl

theorem OCsrw.enc_dec {w op : Nat} {ix : Option W32} {o : OCsrw} (hw : w < 2 ^ 32)
    (hop : bits w 26 20 = op) (hix : bits w 27 27 = boolCode ix.isSome) (h : OCsrw.dec w ix = some o) :
    o.enc op = w ∧ ix = o.ix := by
  simp only [OCsrw.dec, Option.bind_eq_bind, Option.ite_none_right_eq_some, Option.bind_eq_some_iff] at h
  obtain ⟨c0, v0, b0, h⟩ := h
  injection h with h
  subst h
  refine ⟨?_, ?_⟩
  · have s0 := low_split w 31 28 (by decide)
    have l0 := bits_lt w 31 28
    have s1 := low_split w 27 27 (by decide)
    have l1 := bits_lt w 27 27
    have s2 := low_split w 26 20 (by decide)
    have l2 := bits_lt w 26 20
    have s3 := low_split w 19 15 (by decide)
    have l3 := bits_lt w 19 15
    have s4 := low_split w 14 12 (by decide)
    have l4 := bits_lt w 14 12
    have s5 := low_split w 11 0 (by decide)
    have l5 := bits_lt w 11 0
    rw [low_top hw] at s0
    rw [low_zero] at s5
    have e1 := gOf_val w
    have r0 := Src.code_ofCode b0
    simp only [OCsrw.enc, frameG, Fin.val_ofNat, BitVec.toNat_ofNat, boolCode_none, boolCode_some] at *
    simp only [Nat.reducePow, Nat.reduceAdd, Nat.reduceSub] at *
    omega
  · rfl

theorem OXbc.enc_dec {w op : Nat} {ix : Option W32} {o : OXbc} (hw : w < 2 ^ 32)
    (hop : bits w 26 20 = op) (hix : bits w 27 27 = boolCode ix.isSome) (h : OXbc.dec w ix = some o) :
    o.enc op = w ∧ ix = o.ix := by
  simp only [OXbc.dec, Option.bind_eq_bind, Option.ite_none_right_eq_some, Option.bind_eq_some_iff] at h
  obtain ⟨c0, v0, b0, v1, b1, v2, b2, h⟩ := h
  injection h with h
  subst h
  refine ⟨?_, ?_⟩
  · have s0 := low_split w 31 28 (by decide)
    have l0 := bits_lt w 31 28
    have s1 := low_split w 27 27 (by decide)
    have l1 := bits_lt w 27 27
    have s2 := low_split w 26 20 (by decide)
    have l2 := bits_lt w 26 20
    have s3 := low_split w 19 17 (by decide)
    have l3 := bits_lt w 19 17
    have s4 := low_split w 16 16 (by decide)
    have l4 := bits_lt w 16 16
    have s5 := low_split w 15 10 (by decide)
    have l5 := bits_lt w 15 10
    have s6 := low_split w 9 5 (by decide)
    have l6 := bits_lt w 9 5
    have s7 := low_split w 4 0 (by decide)
    have l7 := bits_lt w 4 0
    rw [low_top hw] at s0
    rw [low_zero] at s7
    have e1 := gOf_val w
    have r0 := code_boolOf b0
    have r1 := VReg.code_ofCode b1
    have r2 := Src.code_ofCode b2
    simp only [OXbc.enc, frameG, Fin.val_ofNat, BitVec.toNat_ofNat, boolCode_none, boolCode_some] at *
    simp only [Nat.reducePow, Nat.reduceAdd, Nat.reduceSub] at *
    omega
  · rfl

theorem OXin.enc_dec {w op : Nat} {ix : Option W32} {o : OXin} (hw : w < 2 ^ 32)
    (hop : bits w 26 20 = op) (hix : bits w 27 27 = boolCode ix.isSome) (h : OXin.dec w ix = some o) :
    o.enc op = w ∧ ix = o.ix := by
  simp only [OXin.dec, Option.bind_eq_bind, Option.ite_none_right_eq_some, Option.bind_eq_some_iff] at h
  obtain ⟨⟨c0, c1⟩, v0, b0, v1, b1, h⟩ := h
  injection h with h
  subst h
  refine ⟨?_, ?_⟩
  · have s0 := low_split w 31 28 (by decide)
    have l0 := bits_lt w 31 28
    have s1 := low_split w 27 27 (by decide)
    have l1 := bits_lt w 27 27
    have s2 := low_split w 26 20 (by decide)
    have l2 := bits_lt w 26 20
    have s3 := low_split w 19 17 (by decide)
    have l3 := bits_lt w 19 17
    have s4 := low_split w 16 16 (by decide)
    have l4 := bits_lt w 16 16
    have s5 := low_split w 15 10 (by decide)
    have l5 := bits_lt w 15 10
    have s6 := low_split w 9 5 (by decide)
    have l6 := bits_lt w 9 5
    have s7 := low_split w 4 4 (by decide)
    have l7 := bits_lt w 4 4
    have s8 := low_split w 3 0 (by decide)
    have l8 := bits_lt w 3 0
    rw [low_top hw] at s0
    rw [low_zero] at s8
    have e1 := gOf_val w
    have r0 := VReg.code_ofCode b0
    have r1 := Src.code_ofCode b1
    simp only [OXin.enc, frameG, Fin.val_ofNat, BitVec.toNat_ofNat, boolCode_none, boolCode_some] at *
    simp only [Nat.reducePow, Nat.reduceAdd, Nat.reduceSub] at *
    omega
  · rfl

theorem OXex.enc_dec {w op : Nat} {ix : Option W32} {o : OXex} (hw : w < 2 ^ 32)
    (hop : bits w 26 20 = op) (hix : bits w 27 27 = boolCode ix.isSome) (h : OXex.dec w ix = some o) :
    o.enc op = w ∧ ix = none := by
  simp only [OXex.dec, Option.bind_eq_bind, Option.ite_none_right_eq_some, Option.bind_eq_some_iff] at h
  obtain ⟨⟨c0, c1⟩, v0, b0, v1, b1, h⟩ := h
  injection h with h
  subst h
  subst c1
  refine ⟨?_, ?_⟩
  · have s0 := low_split w 31 28 (by decide)
    have l0 := bits_lt w 31 28
    have s1 := low_split w 27 27 (by decide)
    have l1 := bits_lt w 27 27
    have s2 := low_split w 26 20 (by decide)
    have l2 := bits_lt w 26 20
    have s3 := low_split w 19 14 (by decide)
    have l3 := bits_lt w 19 14
    have s4 := low_split w 13 11 (by decide)
    have l4 := bits_lt w 13 11
    have s5 := low_split w 10 5 (by decide)
    have l5 := bits_lt w 10 5
    have s6 := low_split w 4 4 (by decide)
    have l6 := bits_lt w 4 4
    have s7 := low_split w 3 0 (by decide)
    have l7 := bits_lt w 3 0
    rw [low_top hw] at s0
    rw [low_zero] at s7
    have e1 := gOf_val w
    have r0 := Dst.code_ofCode b0
    have r1 := VReg.code_ofCode b1
    simp only [OXex.enc, frameG, Fin.val_ofNat, BitVec.toNat_ofNat, boolCode_none, boolCode_some] at *
    simp only [Nat.reducePow, Nat.reduceAdd, Nat.reduceSub] at *
    omega
  · rfl

theorem OXred.enc_dec {w op : Nat} {ix : Option W32} {o : OXred} (hw : w < 2 ^ 32)
    (hop : bits w 26 20 = op) (hix : bits w 27 27 = boolCode ix.isSome) (h : OXred.dec w ix = some o) :
    o.enc op = w ∧ ix = none := by
  simp only [OXred.dec, Option.bind_eq_bind, Option.ite_none_right_eq_some, Option.bind_eq_some_iff] at h
  obtain ⟨⟨c0, c1⟩, v0, b0, v1, b1, v2, b2, h⟩ := h
  injection h with h
  subst h
  subst c1
  refine ⟨?_, ?_⟩
  · have s0 := low_split w 31 28 (by decide)
    have l0 := bits_lt w 31 28
    have s1 := low_split w 27 27 (by decide)
    have l1 := bits_lt w 27 27
    have s2 := low_split w 26 20 (by decide)
    have l2 := bits_lt w 26 20
    have s3 := low_split w 19 14 (by decide)
    have l3 := bits_lt w 19 14
    have s4 := low_split w 13 11 (by decide)
    have l4 := bits_lt w 13 11
    have s5 := low_split w 10 5 (by decide)
    have l5 := bits_lt w 10 5
    have s6 := low_split w 4 4 (by decide)
    have l6 := bits_lt w 4 4
    have s7 := low_split w 3 0 (by decide)
    have l7 := bits_lt w 3 0
    rw [low_top hw] at s0
    rw [low_zero] at s7
    have e1 := gOf_val w
    have r0 := Dst.code_ofCode b0
    have r1 := VReg.code_ofCode b1
    have r2 := XredOp.code_ofCode b2
    simp only [OXred.enc, frameG, Fin.val_ofNat, BitVec.toNat_ofNat, boolCode_none, boolCode_some] at *
    simp only [Nat.reducePow, Nat.reduceAdd, Nat.reduceSub] at *
    omega
  · rfl

theorem OV3.enc_dec {w op : Nat} {ix : Option W32} {o : OV3} (hw : w < 2 ^ 32)
    (hop : bits w 27 22 = op) (hix : bits w 28 28 = boolCode ix.isSome) (h : OV3.dec w ix = some o) :
    o.enc op = w ∧ ix = o.ix := by
  simp only [OV3.dec, Option.bind_eq_bind, Option.ite_none_right_eq_some, Option.bind_eq_some_iff] at h
  obtain ⟨c0, v0, b0, v1, b1, v2, b2, h⟩ := h
  injection h with h
  subst h
  refine ⟨?_, ?_⟩
  · have s0 := low_split w 31 29 (by decide)
    have l0 := bits_lt w 31 29
    have s1 := low_split w 28 28 (by decide)
    have l1 := bits_lt w 28 28
    have s2 := low_split w 27 22 (by decide)
    have l2 := bits_lt w 27 22
    have s3 := low_split w 21 16 (by decide)
    have l3 := bits_lt w 21 16
    have s4 := low_split w 15 10 (by decide)
    have l4 := bits_lt w 15 10
    have s5 := low_split w 9 4 (by decide)
    have l5 := bits_lt w 9 4
    have s6 := low_split w 3 0 (by decide)
    have l6 := bits_lt w 3 0
    rw [low_top hw] at s0
    rw [low_zero] at s6
    have e1 := qOf_val w
    have r0 := VReg.code_ofCode b0
    have r1 := FSrc.code_ofCode b1
    have r2 := FSrc.code_ofCode b2
    simp only [OV3.enc, frameQ, Fin.val_ofNat, BitVec.toNat_ofNat, boolCode_none, boolCode_some] at *
    simp only [Nat.reducePow, Nat.reduceAdd, Nat.reduceSub] at *
    omega
  · rfl

theorem OV2.enc_dec {w op : Nat} {ix : Option W32} {o : OV2} (hw : w < 2 ^ 32)
    (hop : bits w 27 22 = op) (hix : bits w 28 28 = boolCode ix.isSome) (h : OV2.dec w ix = some o) :
    o.enc op = w ∧ ix = o.ix := by
  simp only [OV2.dec, Option.bind_eq_bind, Option.ite_none_right_eq_some, Option.bind_eq_some_iff] at h
  obtain ⟨c0, v0, b0, v1, b1, h⟩ := h
  injection h with h
  subst h
  refine ⟨?_, ?_⟩
  · have s0 := low_split w 31 29 (by decide)
    have l0 := bits_lt w 31 29
    have s1 := low_split w 28 28 (by decide)
    have l1 := bits_lt w 28 28
    have s2 := low_split w 27 22 (by decide)
    have l2 := bits_lt w 27 22
    have s3 := low_split w 21 16 (by decide)
    have l3 := bits_lt w 21 16
    have s4 := low_split w 15 10 (by decide)
    have l4 := bits_lt w 15 10
    have s5 := low_split w 9 0 (by decide)
    have l5 := bits_lt w 9 0
    rw [low_top hw] at s0
    rw [low_zero] at s5
    have e1 := qOf_val w
    have r0 := VReg.code_ofCode b0
    have r1 := FSrc.code_ofCode b1
    simp only [OV2.enc, frameQ, Fin.val_ofNat, BitVec.toNat_ofNat, boolCode_none, boolCode_some] at *
    simp only [Nat.reducePow, Nat.reduceAdd, Nat.reduceSub] at *
    omega
  · rfl

theorem OVcvt.enc_dec {w op : Nat} {ix : Option W32} {o : OVcvt} (hw : w < 2 ^ 32)
    (hop : bits w 27 22 = op) (hix : bits w 28 28 = boolCode ix.isSome) (h : OVcvt.dec w ix = some o) :
    o.enc op = w ∧ ix = o.ix := by
  simp only [OVcvt.dec, Option.bind_eq_bind, Option.ite_none_right_eq_some, Option.bind_eq_some_iff] at h
  obtain ⟨c0, v0, b0, v1, b1, v2, b2, v3, b3, h⟩ := h
  injection h with h
  subst h
  refine ⟨?_, ?_⟩
  · have s0 := low_split w 31 29 (by decide)
    have l0 := bits_lt w 31 29
    have s1 := low_split w 28 28 (by decide)
    have l1 := bits_lt w 28 28
    have s2 := low_split w 27 22 (by decide)
    have l2 := bits_lt w 27 22
    have s3 := low_split w 21 16 (by decide)
    have l3 := bits_lt w 21 16
    have s4 := low_split w 15 10 (by decide)
    have l4 := bits_lt w 15 10
    have s5 := low_split w 9 6 (by decide)
    have l5 := bits_lt w 9 6
    have s6 := low_split w 5 4 (by decide)
    have l6 := bits_lt w 5 4
    have s7 := low_split w 3 0 (by decide)
    have l7 := bits_lt w 3 0
    rw [low_top hw] at s0
    rw [low_zero] at s7
    have e1 := qOf_val w
    have r0 := VReg.code_ofCode b0
    have r1 := FSrc.code_ofCode b1
    have r2 := CvtKind.code_ofCode b2
    have r3 := RMode.code_ofCode b3
    simp only [OVcvt.enc, frameQ, Fin.val_ofNat, BitVec.toNat_ofNat, boolCode_none, boolCode_some] at *
    simp only [Nat.reducePow, Nat.reduceAdd, Nat.reduceSub] at *
    omega
  · rfl

theorem OVcmp.enc_dec {w op : Nat} {ix : Option W32} {o : OVcmp} (hw : w < 2 ^ 32)
    (hop : bits w 27 22 = op) (hix : bits w 28 28 = boolCode ix.isSome) (h : OVcmp.dec w ix = some o) :
    o.enc op = w ∧ ix = o.ix := by
  simp only [OVcmp.dec, Option.bind_eq_bind, Option.ite_none_right_eq_some, Option.bind_eq_some_iff] at h
  obtain ⟨v0, b0, v1, b1, v2, b2, v3, b3, h⟩ := h
  injection h with h
  subst h
  refine ⟨?_, ?_⟩
  · have s0 := low_split w 31 29 (by decide)
    have l0 := bits_lt w 31 29
    have s1 := low_split w 28 28 (by decide)
    have l1 := bits_lt w 28 28
    have s2 := low_split w 27 22 (by decide)
    have l2 := bits_lt w 27 22
    have s3 := low_split w 21 16 (by decide)
    have l3 := bits_lt w 21 16
    have s4 := low_split w 15 10 (by decide)
    have l4 := bits_lt w 15 10
    have s5 := low_split w 9 4 (by decide)
    have l5 := bits_lt w 9 4
    have s6 := low_split w 3 0 (by decide)
    have l6 := bits_lt w 3 0
    rw [low_top hw] at s0
    rw [low_zero] at s6
    have e1 := qOf_val w
    have r0 := val_pairOf b0
    have r1 := FSrc.code_ofCode b1
    have r2 := FSrc.code_ofCode b2
    have r3 := VCond.code_ofCode b3
    simp only [OVcmp.enc, frameQ, Fin.val_ofNat, BitVec.toNat_ofNat, boolCode_none, boolCode_some] at *
    simp only [Nat.reducePow, Nat.reduceAdd, Nat.reduceSub] at *
    omega
  · rfl

theorem OVsel.enc_dec {w op : Nat} {ix : Option W32} {o : OVsel} (hw : w < 2 ^ 32)
    (hop : bits w 27 22 = op) (hix : bits w 28 28 = boolCode ix.isSome) (h : OVsel.dec w ix = some o) :
    o.enc op = w ∧ ix = o.ix := by
  simp only [OVsel.dec, Option.bind_eq_bind, Option.ite_none_right_eq_some, Option.bind_eq_some_iff] at h
  obtain ⟨c0, v0, b0, v1, b1, v2, b2, h⟩ := h
  injection h with h
  subst h
  refine ⟨?_, ?_⟩
  · have s0 := low_split w 31 29 (by decide)
    have l0 := bits_lt w 31 29
    have s1 := low_split w 28 28 (by decide)
    have l1 := bits_lt w 28 28
    have s2 := low_split w 27 22 (by decide)
    have l2 := bits_lt w 27 22
    have s3 := low_split w 21 16 (by decide)
    have l3 := bits_lt w 21 16
    have s4 := low_split w 15 10 (by decide)
    have l4 := bits_lt w 15 10
    have s5 := low_split w 9 4 (by decide)
    have l5 := bits_lt w 9 4
    have s6 := low_split w 3 3 (by decide)
    have l6 := bits_lt w 3 3
    have s7 := low_split w 2 0 (by decide)
    have l7 := bits_lt w 2 0
    rw [low_top hw] at s0
    rw [low_zero] at s7
    have e1 := qOf_val w
    have r0 := VReg.code_ofCode b0
    have r1 := FSrc.code_ofCode b1
    have r2 := FSrc.code_ofCode b2
    simp only [OVsel.enc, frameQ, Fin.val_ofNat, BitVec.toNat_ofNat, boolCode_none, boolCode_some] at *
    simp only [Nat.reducePow, Nat.reduceAdd, Nat.reduceSub] at *
    omega
  · rfl

theorem OVmov.enc_dec {w op : Nat} {ix : Option W32} {o : OVmov} (hw : w < 2 ^ 32)
    (hop : bits w 27 22 = op) (hix : bits w 28 28 = boolCode ix.isSome) (h : OVmov.dec w ix = some o) :
    o.enc op = w ∧ ix = none := by
  simp only [OVmov.dec, Option.bind_eq_bind, Option.ite_none_right_eq_some, Option.bind_eq_some_iff] at h
  obtain ⟨⟨c0, c1⟩, v0, b0, v1, b1, h⟩ := h
  injection h with h
  subst h
  subst c1
  refine ⟨?_, ?_⟩
  · have s0 := low_split w 31 29 (by decide)
    have l0 := bits_lt w 31 29
    have s1 := low_split w 28 28 (by decide)
    have l1 := bits_lt w 28 28
    have s2 := low_split w 27 22 (by decide)
    have l2 := bits_lt w 27 22
    have s3 := low_split w 21 16 (by decide)
    have l3 := bits_lt w 21 16
    have s4 := low_split w 15 10 (by decide)
    have l4 := bits_lt w 15 10
    have s5 := low_split w 9 0 (by decide)
    have l5 := bits_lt w 9 0
    rw [low_top hw] at s0
    rw [low_zero] at s5
    have e1 := qOf_val w
    have r0 := VReg.code_ofCode b0
    have r1 := FSrc.code_ofCode b1
    simp only [OVmov.enc, frameQ, Fin.val_ofNat, BitVec.toNat_ofNat, boolCode_none, boolCode_some] at *
    simp only [Nat.reducePow, Nat.reduceAdd, Nat.reduceSub] at *
    omega
  · rfl

theorem OVred.enc_dec {w op : Nat} {ix : Option W32} {o : OVred} (hw : w < 2 ^ 32)
    (hop : bits w 27 22 = op) (hix : bits w 28 28 = boolCode ix.isSome) (h : OVred.dec w ix = some o) :
    o.enc op = w ∧ ix = none := by
  simp only [OVred.dec, Option.bind_eq_bind, Option.ite_none_right_eq_some, Option.bind_eq_some_iff] at h
  obtain ⟨⟨c0, c1⟩, v0, b0, v1, b1, v2, b2, h⟩ := h
  injection h with h
  subst h
  subst c1
  refine ⟨?_, ?_⟩
  · have s0 := low_split w 31 29 (by decide)
    have l0 := bits_lt w 31 29
    have s1 := low_split w 28 28 (by decide)
    have l1 := bits_lt w 28 28
    have s2 := low_split w 27 22 (by decide)
    have l2 := bits_lt w 27 22
    have s3 := low_split w 21 16 (by decide)
    have l3 := bits_lt w 21 16
    have s4 := low_split w 15 10 (by decide)
    have l4 := bits_lt w 15 10
    have s5 := low_split w 9 4 (by decide)
    have l5 := bits_lt w 9 4
    have s6 := low_split w 3 0 (by decide)
    have l6 := bits_lt w 3 0
    rw [low_top hw] at s0
    rw [low_zero] at s6
    have e1 := qOf_val w
    have r0 := VReg.code_ofCode b0
    have r1 := FSrc.code_ofCode b1
    have r2 := RedOp.code_ofCode b2
    simp only [OVred.enc, frameQ, Fin.val_ofNat, BitVec.toNat_ofNat, boolCode_none, boolCode_some] at *
    simp only [Nat.reducePow, Nat.reduceAdd, Nat.reduceSub] at *
    omega
  · rfl

theorem OVdot.enc_dec {w op : Nat} {ix : Option W32} {o : OVdot} (hw : w < 2 ^ 32)
    (hop : bits w 27 22 = op) (hix : bits w 28 28 = boolCode ix.isSome) (h : OVdot.dec w ix = some o) :
    o.enc op = w ∧ ix = o.ix := by
  simp only [OVdot.dec, Option.bind_eq_bind, Option.ite_none_right_eq_some, Option.bind_eq_some_iff] at h
  obtain ⟨v0, b0, v1, b1, v2, b2, v3, b3, h⟩ := h
  injection h with h
  subst h
  refine ⟨?_, ?_⟩
  · have s0 := low_split w 31 29 (by decide)
    have l0 := bits_lt w 31 29
    have s1 := low_split w 28 28 (by decide)
    have l1 := bits_lt w 28 28
    have s2 := low_split w 27 22 (by decide)
    have l2 := bits_lt w 27 22
    have s3 := low_split w 21 16 (by decide)
    have l3 := bits_lt w 21 16
    have s4 := low_split w 15 10 (by decide)
    have l4 := bits_lt w 15 10
    have s5 := low_split w 9 4 (by decide)
    have l5 := bits_lt w 9 4
    have s6 := low_split w 3 0 (by decide)
    have l6 := bits_lt w 3 0
    rw [low_top hw] at s0
    rw [low_zero] at s6
    have e1 := qOf_val w
    have r0 := VReg.code_ofCode b0
    have r1 := FSrc.code_ofCode b1
    have r2 := FSrc.code_ofCode b2
    have r3 := DotKind.code_ofCode b3
    simp only [OVdot.enc, frameQ, Fin.val_ofNat, BitVec.toNat_ofNat, boolCode_none, boolCode_some] at *
    simp only [Nat.reducePow, Nat.reduceAdd, Nat.reduceSub] at *
    omega
  · rfl

theorem OVcopy.enc_dec {w op : Nat} {ix : Option W32} {o : OVcopy} (hw : w < 2 ^ 32)
    (hop : bits w 27 22 = op) (hix : bits w 28 28 = boolCode ix.isSome) (h : OVcopy.dec w ix = some o) :
    o.enc op = w ∧ ix = none := by
  simp only [OVcopy.dec, Option.bind_eq_bind, Option.ite_none_right_eq_some, Option.bind_eq_some_iff] at h
  obtain ⟨⟨c0, c1⟩, v0, b0, v1, b1, h⟩ := h
  injection h with h
  subst h
  subst c1
  refine ⟨?_, ?_⟩
  · have s0 := low_split w 31 29 (by decide)
    have l0 := bits_lt w 31 29
    have s1 := low_split w 28 28 (by decide)
    have l1 := bits_lt w 28 28
    have s2 := low_split w 27 22 (by decide)
    have l2 := bits_lt w 27 22
    have s3 := low_split w 21 16 (by decide)
    have l3 := bits_lt w 21 16
    have s4 := low_split w 15 10 (by decide)
    have l4 := bits_lt w 15 10
    have s5 := low_split w 9 7 (by decide)
    have l5 := bits_lt w 9 7
    have s6 := low_split w 6 0 (by decide)
    have l6 := bits_lt w 6 0
    rw [low_top hw] at s0
    rw [low_zero] at s6
    have e1 := qOf_val w
    have r0 := VReg.code_ofCode b0
    have r1 := VReg.code_ofCode b1
    simp only [OVcopy.enc, frameQ, Fin.val_ofNat, BitVec.toNat_ofNat, boolCode_none, boolCode_some] at *
    simp only [Nat.reducePow, Nat.reduceAdd, Nat.reduceSub] at *
    omega
  · rfl

theorem OVmem.enc_dec {w op : Nat} {ix : Option W32} {o : OVmem} (hw : w < 2 ^ 32)
    (hop : bits w 27 22 = op) (hix : bits w 28 28 = boolCode ix.isSome) (h : OVmem.dec w ix = some o) :
    o.enc op = w ∧ ix = o.ix := by
  simp only [OVmem.dec, Option.bind_eq_bind, Option.ite_none_right_eq_some, Option.bind_eq_some_iff] at h
  obtain ⟨v0, b0, v1, b1, v2, b2, h⟩ := h
  injection h with h
  subst h
  refine ⟨?_, ?_⟩
  · have s0 := low_split w 31 29 (by decide)
    have l0 := bits_lt w 31 29
    have s1 := low_split w 28 28 (by decide)
    have l1 := bits_lt w 28 28
    have s2 := low_split w 27 22 (by decide)
    have l2 := bits_lt w 27 22
    have s3 := low_split w 21 16 (by decide)
    have l3 := bits_lt w 21 16
    have s4 := low_split w 15 14 (by decide)
    have l4 := bits_lt w 15 14
    have s5 := low_split w 13 12 (by decide)
    have l5 := bits_lt w 13 12
    have s6 := low_split w 11 8 (by decide)
    have l6 := bits_lt w 11 8
    have s7 := low_split w 7 0 (by decide)
    have l7 := bits_lt w 7 0
    rw [low_top hw] at s0
    rw [low_zero] at s7
    have e1 := qOf_val w
    have r0 := VReg.code_ofCode b0
    have r1 := VSize.code_ofCode b1
    have r2 := Scope.code_ofCode b2
    simp only [OVmem.enc, frameQ, Fin.val_ofNat, BitVec.toNat_ofNat, boolCode_none, boolCode_some] at *
    simp only [Nat.reducePow, Nat.reduceAdd, Nat.reduceSub] at *
    omega
  · rfl

theorem OVgs.enc_dec {w op : Nat} {ix : Option W32} {o : OVgs} (hw : w < 2 ^ 32)
    (hop : bits w 27 22 = op) (hix : bits w 28 28 = boolCode ix.isSome) (h : OVgs.dec w ix = some o) :
    o.enc op = w ∧ ix = none := by
  simp only [OVgs.dec, Option.bind_eq_bind, Option.ite_none_right_eq_some, Option.bind_eq_some_iff] at h
  obtain ⟨⟨c0, c1⟩, v0, b0, v1, b1, v2, b2, v3, b3, h⟩ := h
  injection h with h
  subst h
  subst c1
  refine ⟨?_, ?_⟩
  · have s0 := low_split w 31 29 (by decide)
    have l0 := bits_lt w 31 29
    have s1 := low_split w 28 28 (by decide)
    have l1 := bits_lt w 28 28
    have s2 := low_split w 27 22 (by decide)
    have l2 := bits_lt w 27 22
    have s3 := low_split w 21 16 (by decide)
    have l3 := bits_lt w 21 16
    have s4 := low_split w 15 10 (by decide)
    have l4 := bits_lt w 15 10
    have s5 := low_split w 9 8 (by decide)
    have l5 := bits_lt w 9 8
    have s6 := low_split w 7 6 (by decide)
    have l6 := bits_lt w 7 6
    have s7 := low_split w 5 4 (by decide)
    have l7 := bits_lt w 5 4
    have s8 := low_split w 3 0 (by decide)
    have l8 := bits_lt w 3 0
    rw [low_top hw] at s0
    rw [low_zero] at s8
    have e1 := qOf_val w
    have r0 := VReg.code_ofCode b0
    have r1 := FSrc.code_ofCode b1
    have r2 := VSize.code_ofCode b2
    have r3 := Scope.code_ofCode b3
    simp only [OVgs.enc, frameQ, Fin.val_ofNat, BitVec.toNat_ofNat, boolCode_none, boolCode_some] at *
    simp only [Nat.reducePow, Nat.reduceAdd, Nat.reduceSub] at *
    omega
  · rfl

theorem OVldt.enc_dec {w op : Nat} {ix : Option W32} {o : OVldt} (hw : w < 2 ^ 32)
    (hop : bits w 27 22 = op) (hix : bits w 28 28 = boolCode ix.isSome) (h : OVldt.dec w ix = some o) :
    o.enc op = w ∧ ix = o.ix := by
  simp only [OVldt.dec, Option.bind_eq_bind, Option.ite_none_right_eq_some, Option.bind_eq_some_iff] at h
  obtain ⟨c0, v0, b0, v1, b1, v2, b2, h⟩ := h
  injection h with h
  subst h
  refine ⟨?_, ?_⟩
  · have s0 := low_split w 31 29 (by decide)
    have l0 := bits_lt w 31 29
    have s1 := low_split w 28 28 (by decide)
    have l1 := bits_lt w 28 28
    have s2 := low_split w 27 22 (by decide)
    have l2 := bits_lt w 27 22
    have s3 := low_split w 21 16 (by decide)
    have l3 := bits_lt w 21 16
    have s4 := low_split w 15 14 (by decide)
    have l4 := bits_lt w 15 14
    have s5 := low_split w 13 13 (by decide)
    have l5 := bits_lt w 13 13
    have s6 := low_split w 12 12 (by decide)
    have l6 := bits_lt w 12 12
    have s7 := low_split w 11 8 (by decide)
    have l7 := bits_lt w 11 8
    have s8 := low_split w 7 0 (by decide)
    have l8 := bits_lt w 7 0
    rw [low_top hw] at s0
    rw [low_zero] at s8
    have e1 := qOf_val w
    have r0 := VReg.code_ofCode b0
    have r1 := code_boolOf b1
    have r2 := Scope.code_ofCode b2
    simp only [OVldt.enc, frameQ, Fin.val_ofNat, BitVec.toNat_ofNat, boolCode_none, boolCode_some] at *
    simp only [Nat.reducePow, Nat.reduceAdd, Nat.reduceSub] at *
    omega
  · rfl

theorem OVstt.enc_dec {w op : Nat} {ix : Option W32} {o : OVstt} (hw : w < 2 ^ 32)
    (hop : bits w 27 22 = op) (hix : bits w 28 28 = boolCode ix.isSome) (h : OVstt.dec w ix = some o) :
    o.enc op = w ∧ ix = o.ix := by
  simp only [OVstt.dec, Option.bind_eq_bind, Option.ite_none_right_eq_some, Option.bind_eq_some_iff] at h
  obtain ⟨c0, v0, b0, v1, b1, h⟩ := h
  injection h with h
  subst h
  refine ⟨?_, ?_⟩
  · have s0 := low_split w 31 29 (by decide)
    have l0 := bits_lt w 31 29
    have s1 := low_split w 28 28 (by decide)
    have l1 := bits_lt w 28 28
    have s2 := low_split w 27 22 (by decide)
    have l2 := bits_lt w 27 22
    have s3 := low_split w 21 16 (by decide)
    have l3 := bits_lt w 21 16
    have s4 := low_split w 15 14 (by decide)
    have l4 := bits_lt w 15 14
    have s5 := low_split w 13 12 (by decide)
    have l5 := bits_lt w 13 12
    have s6 := low_split w 11 8 (by decide)
    have l6 := bits_lt w 11 8
    have s7 := low_split w 7 0 (by decide)
    have l7 := bits_lt w 7 0
    rw [low_top hw] at s0
    rw [low_zero] at s7
    have e1 := qOf_val w
    have r0 := VReg.code_ofCode b0
    have r1 := Scope.code_ofCode b1
    simp only [OVstt.enc, frameQ, Fin.val_ofNat, BitVec.toNat_ofNat, boolCode_none, boolCode_some] at *
    simp only [Nat.reducePow, Nat.reduceAdd, Nat.reduceSub] at *
    omega
  · rfl

theorem OQlog.enc_dec {w op : Nat} {ix : Option W32} {o : OQlog} (hw : w < 2 ^ 32)
    (hop : bits w 27 22 = op) (hix : bits w 28 28 = boolCode ix.isSome) (h : OQlog.dec w ix = some o) :
    o.enc op = w ∧ ix = none := by
  simp only [OQlog.dec, Option.bind_eq_bind, Option.ite_none_right_eq_some, Option.bind_eq_some_iff] at h
  obtain ⟨c0, v0, b0, v1, b1, v2, b2, v3, b3, h⟩ := h
  injection h with h
  subst h
  subst c0
  refine ⟨?_, ?_⟩
  · have s0 := low_split w 31 29 (by decide)
    have l0 := bits_lt w 31 29
    have s1 := low_split w 28 28 (by decide)
    have l1 := bits_lt w 28 28
    have s2 := low_split w 27 22 (by decide)
    have l2 := bits_lt w 27 22
    have s3 := low_split w 21 16 (by decide)
    have l3 := bits_lt w 21 16
    have s4 := low_split w 15 10 (by decide)
    have l4 := bits_lt w 15 10
    have s5 := low_split w 9 4 (by decide)
    have l5 := bits_lt w 9 4
    have s6 := low_split w 3 0 (by decide)
    have l6 := bits_lt w 3 0
    rw [low_top hw] at s0
    rw [low_zero] at s6
    have e1 := qOf_val w
    have r0 := val_pairOf b0
    have r1 := val_finOf b1
    have r2 := val_finOf b2
    have r3 := Lop.code_ofCode b3
    simp only [OQlog.enc, frameQ, Fin.val_ofNat, BitVec.toNat_ofNat, boolCode_none, boolCode_some] at *
    simp only [Nat.reducePow, Nat.reduceAdd, Nat.reduceSub] at *
    omega
  · rfl

theorem ODset.enc_dec {w op : Nat} {ix : Option W32} {o : ODset} (hw : w < 2 ^ 32)
    (hop : bits w 27 22 = op) (hix : bits w 28 28 = boolCode ix.isSome) (h : ODset.dec w ix = some o) :
    o.enc op = w ∧ ix = o.ix := by
  simp only [ODset.dec, Option.bind_eq_bind, Option.ite_none_right_eq_some, Option.bind_eq_some_iff] at h
  obtain ⟨⟨c0, c1⟩, v0, b0, h⟩ := h
  injection h with h
  subst h
  refine ⟨?_, ?_⟩
  · have s0 := low_split w 31 29 (by decide)
    have l0 := bits_lt w 31 29
    have s1 := low_split w 28 28 (by decide)
    have l1 := bits_lt w 28 28
    have s2 := low_split w 27 22 (by decide)
    have l2 := bits_lt w 27 22
    have s3 := low_split w 21 19 (by decide)
    have l3 := bits_lt w 21 19
    have s4 := low_split w 18 16 (by decide)
    have l4 := bits_lt w 18 16
    have s5 := low_split w 15 10 (by decide)
    have l5 := bits_lt w 15 10
    have s6 := low_split w 9 0 (by decide)
    have l6 := bits_lt w 9 0
    rw [low_top hw] at s0
    rw [low_zero] at s6
    have e1 := qOf_val w
    have r0 := FSrc.code_ofCode b0
    simp only [ODset.enc, frameQ, Fin.val_ofNat, BitVec.toNat_ofNat, boolCode_none, boolCode_some] at *
    simp only [Nat.reducePow, Nat.reduceAdd, Nat.reduceSub] at *
    omega
  · rfl

theorem ODsmp.enc_dec {w op : Nat} {ix : Option W32} {o : ODsmp} (hw : w < 2 ^ 32)
    (hop : bits w 27 22 = op) (hix : bits w 28 28 = boolCode ix.isSome) (h : ODsmp.dec w ix = some o) :
    o.enc op = w ∧ ix = none := by
  simp only [ODsmp.dec, Option.bind_eq_bind, Option.ite_none_right_eq_some, Option.bind_eq_some_iff] at h
  obtain ⟨⟨c0, c1, c2⟩, v0, b0, h⟩ := h
  injection h with h
  subst h
  subst c2
  refine ⟨?_, ?_⟩
  · have s0 := low_split w 31 29 (by decide)
    have l0 := bits_lt w 31 29
    have s1 := low_split w 28 28 (by decide)
    have l1 := bits_lt w 28 28
    have s2 := low_split w 27 22 (by decide)
    have l2 := bits_lt w 27 22
    have s3 := low_split w 21 19 (by decide)
    have l3 := bits_lt w 21 19
    have s4 := low_split w 18 16 (by decide)
    have l4 := bits_lt w 18 16
    have s5 := low_split w 15 10 (by decide)
    have l5 := bits_lt w 15 10
    have s6 := low_split w 9 0 (by decide)
    have l6 := bits_lt w 9 0
    rw [low_top hw] at s0
    rw [low_zero] at s6
    have e1 := qOf_val w
    have r0 := val_finOf b0
    simp only [ODsmp.enc, frameQ, Fin.val_ofNat, BitVec.toNat_ofNat, boolCode_none, boolCode_some] at *
    simp only [Nat.reducePow, Nat.reduceAdd, Nat.reduceSub] at *
    omega
  · rfl

theorem ODmem.enc_dec {w op : Nat} {ix : Option W32} {o : ODmem} (hw : w < 2 ^ 32)
    (hop : bits w 27 22 = op) (hix : bits w 28 28 = boolCode ix.isSome) (h : ODmem.dec w ix = some o) :
    o.enc op = w ∧ ix = o.ix := by
  simp only [ODmem.dec, Option.bind_eq_bind, Option.ite_none_right_eq_some, Option.bind_eq_some_iff] at h
  obtain ⟨⟨c0, c1⟩, v0, b0, h⟩ := h
  injection h with h
  subst h
  refine ⟨?_, ?_⟩
  · have s0 := low_split w 31 29 (by decide)
    have l0 := bits_lt w 31 29
    have s1 := low_split w 28 28 (by decide)
    have l1 := bits_lt w 28 28
    have s2 := low_split w 27 22 (by decide)
    have l2 := bits_lt w 27 22
    have s3 := low_split w 21 19 (by decide)
    have l3 := bits_lt w 21 19
    have s4 := low_split w 18 16 (by decide)
    have l4 := bits_lt w 18 16
    have s5 := low_split w 15 14 (by decide)
    have l5 := bits_lt w 15 14
    have s6 := low_split w 13 12 (by decide)
    have l6 := bits_lt w 13 12
    have s7 := low_split w 11 8 (by decide)
    have l7 := bits_lt w 11 8
    have s8 := low_split w 7 0 (by decide)
    have l8 := bits_lt w 7 0
    rw [low_top hw] at s0
    rw [low_zero] at s8
    have e1 := qOf_val w
    have r0 := Scope.code_ofCode b0
    simp only [ODmem.enc, frameQ, Fin.val_ofNat, BitVec.toNat_ofNat, boolCode_none, boolCode_some] at *
    simp only [Nat.reducePow, Nat.reduceAdd, Nat.reduceSub] at *
    omega
  · rfl

theorem ODbin.enc_dec {w op : Nat} {ix : Option W32} {o : ODbin} (hw : w < 2 ^ 32)
    (hop : bits w 27 22 = op) (hix : bits w 28 28 = boolCode ix.isSome) (h : ODbin.dec w ix = some o) :
    o.enc op = w ∧ ix = none := by
  simp only [ODbin.dec, Option.bind_eq_bind, Option.ite_none_right_eq_some, Option.bind_eq_some_iff] at h
  obtain ⟨⟨c0, c1⟩, h⟩ := h
  injection h with h
  subst h
  subst c1
  refine ⟨?_, ?_⟩
  · have s0 := low_split w 31 29 (by decide)
    have l0 := bits_lt w 31 29
    have s1 := low_split w 28 28 (by decide)
    have l1 := bits_lt w 28 28
    have s2 := low_split w 27 22 (by decide)
    have l2 := bits_lt w 27 22
    have s3 := low_split w 21 19 (by decide)
    have l3 := bits_lt w 21 19
    have s4 := low_split w 18 16 (by decide)
    have l4 := bits_lt w 18 16
    have s5 := low_split w 15 13 (by decide)
    have l5 := bits_lt w 15 13
    have s6 := low_split w 12 0 (by decide)
    have l6 := bits_lt w 12 0
    rw [low_top hw] at s0
    rw [low_zero] at s6
    have e1 := qOf_val w
    simp only [ODbin.enc, frameQ, Fin.val_ofNat, BitVec.toNat_ofNat, boolCode_none, boolCode_some] at *
    simp only [Nat.reducePow, Nat.reduceAdd, Nat.reduceSub] at *
    omega
  · rfl

theorem ODaff.enc_dec {w op : Nat} {ix : Option W32} {o : ODaff} (hw : w < 2 ^ 32)
    (hop : bits w 27 22 = op) (hix : bits w 28 28 = boolCode ix.isSome) (h : ODaff.dec w ix = some o) :
    o.enc op = w ∧ ix = o.ix := by
  simp only [ODaff.dec, Option.bind_eq_bind, Option.ite_none_right_eq_some, Option.bind_eq_some_iff] at h
  obtain ⟨c0, v0, b0, v1, b1, h⟩ := h
  injection h with h
  subst h
  refine ⟨?_, ?_⟩
  · have s0 := low_split w 31 29 (by decide)
    have l0 := bits_lt w 31 29
    have s1 := low_split w 28 28 (by decide)
    have l1 := bits_lt w 28 28
    have s2 := low_split w 27 22 (by decide)
    have l2 := bits_lt w 27 22
    have s3 := low_split w 21 19 (by decide)
    have l3 := bits_lt w 21 19
    have s4 := low_split w 18 16 (by decide)
    have l4 := bits_lt w 18 16
    have s5 := low_split w 15 10 (by decide)
    have l5 := bits_lt w 15 10
    have s6 := low_split w 9 4 (by decide)
    have l6 := bits_lt w 9 4
    have s7 := low_split w 3 0 (by decide)
    have l7 := bits_lt w 3 0
    rw [low_top hw] at s0
    rw [low_zero] at s7
    have e1 := qOf_val w
    have r0 := FSrc.code_ofCode b0
    have r1 := FSrc.code_ofCode b1
    simp only [ODaff.enc, frameQ, Fin.val_ofNat, BitVec.toNat_ofNat, boolCode_none, boolCode_some] at *
    simp only [Nat.reducePow, Nat.reduceAdd, Nat.reduceSub] at *
    omega
  · rfl

theorem ODmix.enc_dec {w op : Nat} {ix : Option W32} {o : ODmix} (hw : w < 2 ^ 32)
    (hop : bits w 27 22 = op) (hix : bits w 28 28 = boolCode ix.isSome) (h : ODmix.dec w ix = some o) :
    o.enc op = w ∧ ix = o.ix := by
  simp only [ODmix.dec, Option.bind_eq_bind, Option.ite_none_right_eq_some, Option.bind_eq_some_iff] at h
  obtain ⟨c0, v0, b0, h⟩ := h
  injection h with h
  subst h
  refine ⟨?_, ?_⟩
  · have s0 := low_split w 31 29 (by decide)
    have l0 := bits_lt w 31 29
    have s1 := low_split w 28 28 (by decide)
    have l1 := bits_lt w 28 28
    have s2 := low_split w 27 22 (by decide)
    have l2 := bits_lt w 27 22
    have s3 := low_split w 21 19 (by decide)
    have l3 := bits_lt w 21 19
    have s4 := low_split w 18 16 (by decide)
    have l4 := bits_lt w 18 16
    have s5 := low_split w 15 13 (by decide)
    have l5 := bits_lt w 15 13
    have s6 := low_split w 12 7 (by decide)
    have l6 := bits_lt w 12 7
    have s7 := low_split w 6 0 (by decide)
    have l7 := bits_lt w 6 0
    rw [low_top hw] at s0
    rw [low_zero] at s7
    have e1 := qOf_val w
    have r0 := FSrc.code_ofCode b0
    simp only [ODmix.enc, frameQ, Fin.val_ofNat, BitVec.toNat_ofNat, boolCode_none, boolCode_some] at *
    simp only [Nat.reducePow, Nat.reduceAdd, Nat.reduceSub] at *
    omega
  · rfl

theorem ODmom.enc_dec {w op : Nat} {ix : Option W32} {o : ODmom} (hw : w < 2 ^ 32)
    (hop : bits w 27 22 = op) (hix : bits w 28 28 = boolCode ix.isSome) (h : ODmom.dec w ix = some o) :
    o.enc op = w ∧ ix = none := by
  simp only [ODmom.dec, Option.bind_eq_bind, Option.ite_none_right_eq_some, Option.bind_eq_some_iff] at h
  obtain ⟨⟨c0, c1⟩, v0, b0, h⟩ := h
  injection h with h
  subst h
  subst c1
  refine ⟨?_, ?_⟩
  · have s0 := low_split w 31 29 (by decide)
    have l0 := bits_lt w 31 29
    have s1 := low_split w 28 28 (by decide)
    have l1 := bits_lt w 28 28
    have s2 := low_split w 27 22 (by decide)
    have l2 := bits_lt w 27 22
    have s3 := low_split w 21 16 (by decide)
    have l3 := bits_lt w 21 16
    have s4 := low_split w 15 13 (by decide)
    have l4 := bits_lt w 15 13
    have s5 := low_split w 12 0 (by decide)
    have l5 := bits_lt w 12 0
    rw [low_top hw] at s0
    rw [low_zero] at s5
    have e1 := qOf_val w
    have r0 := val_finOf b0
    simp only [ODmom.enc, frameQ, Fin.val_ofNat, BitVec.toNat_ofNat, boolCode_none, boolCode_some] at *
    simp only [Nat.reducePow, Nat.reduceAdd, Nat.reduceSub] at *
    omega
  · rfl

theorem ODqnt.enc_dec {w op : Nat} {ix : Option W32} {o : ODqnt} (hw : w < 2 ^ 32)
    (hop : bits w 27 22 = op) (hix : bits w 28 28 = boolCode ix.isSome) (h : ODqnt.dec w ix = some o) :
    o.enc op = w ∧ ix = o.ix := by
  simp only [ODqnt.dec, Option.bind_eq_bind, Option.ite_none_right_eq_some, Option.bind_eq_some_iff] at h
  obtain ⟨c0, v0, b0, v1, b1, h⟩ := h
  injection h with h
  subst h
  refine ⟨?_, ?_⟩
  · have s0 := low_split w 31 29 (by decide)
    have l0 := bits_lt w 31 29
    have s1 := low_split w 28 28 (by decide)
    have l1 := bits_lt w 28 28
    have s2 := low_split w 27 22 (by decide)
    have l2 := bits_lt w 27 22
    have s3 := low_split w 21 16 (by decide)
    have l3 := bits_lt w 21 16
    have s4 := low_split w 15 13 (by decide)
    have l4 := bits_lt w 15 13
    have s5 := low_split w 12 7 (by decide)
    have l5 := bits_lt w 12 7
    have s6 := low_split w 6 0 (by decide)
    have l6 := bits_lt w 6 0
    rw [low_top hw] at s0
    rw [low_zero] at s6
    have e1 := qOf_val w
    have r0 := VReg.code_ofCode b0
    have r1 := FSrc.code_ofCode b1
    simp only [ODqnt.enc, frameQ, Fin.val_ofNat, BitVec.toNat_ofNat, boolCode_none, boolCode_some] at *
    simp only [Nat.reducePow, Nat.reduceAdd, Nat.reduceSub] at *
    omega
  · rfl

theorem ODtag.enc_dec {w op : Nat} {ix : Option W32} {o : ODtag} (hw : w < 2 ^ 32)
    (hop : bits w 27 22 = op) (hix : bits w 28 28 = boolCode ix.isSome) (h : ODtag.dec w ix = some o) :
    o.enc op = w ∧ ix = none := by
  simp only [ODtag.dec, Option.bind_eq_bind, Option.ite_none_right_eq_some, Option.bind_eq_some_iff] at h
  obtain ⟨⟨c0, c1⟩, h⟩ := h
  injection h with h
  subst h
  subst c1
  refine ⟨?_, ?_⟩
  · have s0 := low_split w 31 29 (by decide)
    have l0 := bits_lt w 31 29
    have s1 := low_split w 28 28 (by decide)
    have l1 := bits_lt w 28 28
    have s2 := low_split w 27 22 (by decide)
    have l2 := bits_lt w 27 22
    have s3 := low_split w 21 19 (by decide)
    have l3 := bits_lt w 21 19
    have s4 := low_split w 18 0 (by decide)
    have l4 := bits_lt w 18 0
    rw [low_top hw] at s0
    rw [low_zero] at s4
    have e1 := qOf_val w
    simp only [ODtag.enc, frameQ, Fin.val_ofNat, BitVec.toNat_ofNat, boolCode_none, boolCode_some] at *
    simp only [Nat.reducePow, Nat.reduceAdd, Nat.reduceSub] at *
    omega
  · rfl

theorem OGS.enc_dec {w op : Nat} {ix : Option W32} {o : OGS} (hw : w < 2 ^ 32)
    (hop : bits w 26 20 = op) (hix : bits w 27 27 = boolCode ix.isSome) (h : OGS.dec w ix = some o) :
    o.enc op = w ∧ ix = none := by
  simp only [OGS.dec, Option.bind_eq_bind, Option.ite_none_right_eq_some, Option.bind_eq_some_iff] at h
  obtain ⟨⟨c0, c1⟩, v0, b0, h⟩ := h
  injection h with h
  subst h
  subst c1
  refine ⟨?_, ?_⟩
  · have s0 := low_split w 31 28 (by decide)
    have l0 := bits_lt w 31 28
    have s1 := low_split w 27 27 (by decide)
    have l1 := bits_lt w 27 27
    have s2 := low_split w 26 20 (by decide)
    have l2 := bits_lt w 26 20
    have s3 := low_split w 19 16 (by decide)
    have l3 := bits_lt w 19 16
    have s4 := low_split w 15 0 (by decide)
    have l4 := bits_lt w 15 0
    rw [low_top hw] at s0
    rw [low_zero] at s4
    have e1 := gOf_val w
    have r0 := Scope.code_ofCode b0
    simp only [OGS.enc, frameG, Fin.val_ofNat, BitVec.toNat_ofNat, boolCode_none, boolCode_some] at *
    simp only [Nat.reducePow, Nat.reduceAdd, Nat.reduceSub] at *
    omega
  · rfl

theorem ODep.enc_dec {w op : Nat} {ix : Option W32} {o : ODep} (hw : w < 2 ^ 32)
    (hop : bits w 26 20 = op) (hix : bits w 27 27 = boolCode ix.isSome) (h : ODep.dec w ix = some o) :
    o.enc op = w ∧ ix = none := by
  simp only [ODep.dec, Option.bind_eq_bind, Option.ite_none_right_eq_some, Option.bind_eq_some_iff] at h
  obtain ⟨⟨c0, c1⟩, h⟩ := h
  injection h with h
  subst h
  subst c1
  refine ⟨?_, ?_⟩
  · have s0 := low_split w 31 28 (by decide)
    have l0 := bits_lt w 31 28
    have s1 := low_split w 27 27 (by decide)
    have l1 := bits_lt w 27 27
    have s2 := low_split w 26 20 (by decide)
    have l2 := bits_lt w 26 20
    have s3 := low_split w 19 12 (by decide)
    have l3 := bits_lt w 19 12
    have s4 := low_split w 11 0 (by decide)
    have l4 := bits_lt w 11 0
    rw [low_top hw] at s0
    rw [low_zero] at s4
    have e1 := gOf_val w
    simp only [ODep.enc, frameG, Fin.val_ofNat, BitVec.toNat_ofNat, boolCode_none, boolCode_some] at *
    simp only [Nat.reducePow, Nat.reduceAdd, Nat.reduceSub] at *
    omega
  · rfl

theorem OMark.enc_dec {w op : Nat} {ix : Option W32} {o : OMark} (hw : w < 2 ^ 32)
    (hop : bits w 26 20 = op) (hix : bits w 27 27 = boolCode ix.isSome) (h : OMark.dec w ix = some o) :
    o.enc op = w ∧ ix = none := by
  simp only [OMark.dec, Option.bind_eq_bind, Option.ite_none_right_eq_some, Option.bind_eq_some_iff] at h
  obtain ⟨⟨c0, c1⟩, h⟩ := h
  injection h with h
  subst h
  subst c1
  refine ⟨?_, ?_⟩
  · have s0 := low_split w 31 28 (by decide)
    have l0 := bits_lt w 31 28
    have s1 := low_split w 27 27 (by decide)
    have l1 := bits_lt w 27 27
    have s2 := low_split w 26 20 (by decide)
    have l2 := bits_lt w 26 20
    have s3 := low_split w 19 3 (by decide)
    have l3 := bits_lt w 19 3
    have s4 := low_split w 2 0 (by decide)
    have l4 := bits_lt w 2 0
    rw [low_top hw] at s0
    rw [low_zero] at s4
    have e1 := gOf_val w
    simp only [OMark.enc, frameG, Fin.val_ofNat, BitVec.toNat_ofNat, boolCode_none, boolCode_some] at *
    simp only [Nat.reducePow, Nat.reduceAdd, Nat.reduceSub] at *
    omega
  · rfl

theorem OMake.enc_dec {w op : Nat} {ix : Option W32} {o : OMake} (hw : w < 2 ^ 32)
    (hop : bits w 26 20 = op) (hix : bits w 27 27 = boolCode ix.isSome) (h : OMake.dec w ix = some o) :
    o.enc op = w ∧ ix = none := by
  simp only [OMake.dec, Option.bind_eq_bind, Option.ite_none_right_eq_some, Option.bind_eq_some_iff] at h
  obtain ⟨⟨c0, c1⟩, v0, b0, h⟩ := h
  injection h with h
  subst h
  subst c1
  refine ⟨?_, ?_⟩
  · have s0 := low_split w 31 28 (by decide)
    have l0 := bits_lt w 31 28
    have s1 := low_split w 27 27 (by decide)
    have l1 := bits_lt w 27 27
    have s2 := low_split w 26 20 (by decide)
    have l2 := bits_lt w 26 20
    have s3 := low_split w 19 17 (by decide)
    have l3 := bits_lt w 19 17
    have s4 := low_split w 16 11 (by decide)
    have l4 := bits_lt w 16 11
    have s5 := low_split w 10 5 (by decide)
    have l5 := bits_lt w 10 5
    have s6 := low_split w 4 0 (by decide)
    have l6 := bits_lt w 4 0
    rw [low_top hw] at s0
    rw [low_zero] at s6
    have e1 := gOf_val w
    have r0 := Fmt.code_ofCode b0
    simp only [OMake.enc, frameG, Fin.val_ofNat, BitVec.toNat_ofNat, boolCode_none, boolCode_some] at *
    simp only [Nat.reducePow, Nat.reduceAdd, Nat.reduceSub] at *
    omega
  · rfl

theorem OShape.enc_dec {w op : Nat} {ix : Option W32} {o : OShape} (hw : w < 2 ^ 32)
    (hop : bits w 26 20 = op) (hix : bits w 27 27 = boolCode ix.isSome) (h : OShape.dec w ix = some o) :
    o.enc op = w ∧ ix = none := by
  simp only [OShape.dec, Option.bind_eq_bind, Option.ite_none_right_eq_some, Option.bind_eq_some_iff] at h
  obtain ⟨⟨c0, c1, c2⟩, h⟩ := h
  injection h with h
  subst h
  subst c2
  refine ⟨?_, ?_⟩
  · have s0 := low_split w 31 28 (by decide)
    have l0 := bits_lt w 31 28
    have s1 := low_split w 27 27 (by decide)
    have l1 := bits_lt w 27 27
    have s2 := low_split w 26 20 (by decide)
    have l2 := bits_lt w 26 20
    have s3 := low_split w 19 17 (by decide)
    have l3 := bits_lt w 19 17
    have s4 := low_split w 16 11 (by decide)
    have l4 := bits_lt w 16 11
    have s5 := low_split w 10 5 (by decide)
    have l5 := bits_lt w 10 5
    have s6 := low_split w 4 0 (by decide)
    have l6 := bits_lt w 4 0
    rw [low_top hw] at s0
    rw [low_zero] at s6
    have e1 := gOf_val w
    simp only [OShape.enc, frameG, Fin.val_ofNat, BitVec.toNat_ofNat, boolCode_none, boolCode_some] at *
    simp only [Nat.reducePow, Nat.reduceAdd, Nat.reduceSub] at *
    omega
  · rfl

theorem OJoin.enc_dec {w op : Nat} {ix : Option W32} {o : OJoin} (hw : w < 2 ^ 32)
    (hop : bits w 26 20 = op) (hix : bits w 27 27 = boolCode ix.isSome) (h : OJoin.dec w ix = some o) :
    o.enc op = w ∧ ix = none := by
  simp only [OJoin.dec, Option.bind_eq_bind, Option.ite_none_right_eq_some, Option.bind_eq_some_iff] at h
  obtain ⟨⟨c0, c1⟩, v0, b0, h⟩ := h
  injection h with h
  subst h
  subst c1
  refine ⟨?_, ?_⟩
  · have s0 := low_split w 31 28 (by decide)
    have l0 := bits_lt w 31 28
    have s1 := low_split w 27 27 (by decide)
    have l1 := bits_lt w 27 27
    have s2 := low_split w 26 20 (by decide)
    have l2 := bits_lt w 26 20
    have s3 := low_split w 19 1 (by decide)
    have l3 := bits_lt w 19 1
    have s4 := low_split w 0 0 (by decide)
    have l4 := bits_lt w 0 0
    rw [low_top hw] at s0
    rw [low_zero] at s4
    have e1 := gOf_val w
    have r0 := code_boolOf b0
    simp only [OJoin.enc, frameG, Fin.val_ofNat, BitVec.toNat_ofNat, boolCode_none, boolCode_some] at *
    simp only [Nat.reducePow, Nat.reduceAdd, Nat.reduceSub] at *
    omega
  · rfl

theorem OFromv.enc_dec {w op : Nat} {ix : Option W32} {o : OFromv} (hw : w < 2 ^ 32)
    (hop : bits w 26 20 = op) (hix : bits w 27 27 = boolCode ix.isSome) (h : OFromv.dec w ix = some o) :
    o.enc op = w ∧ ix = none := by
  simp only [OFromv.dec, Option.bind_eq_bind, Option.ite_none_right_eq_some, Option.bind_eq_some_iff] at h
  obtain ⟨⟨c0, c1⟩, v0, b0, h⟩ := h
  injection h with h
  subst h
  subst c1
  refine ⟨?_, ?_⟩
  · have s0 := low_split w 31 28 (by decide)
    have l0 := bits_lt w 31 28
    have s1 := low_split w 27 27 (by decide)
    have l1 := bits_lt w 27 27
    have s2 := low_split w 26 20 (by decide)
    have l2 := bits_lt w 26 20
    have s3 := low_split w 19 16 (by decide)
    have l3 := bits_lt w 19 16
    have s4 := low_split w 15 11 (by decide)
    have l4 := bits_lt w 15 11
    have s5 := low_split w 10 5 (by decide)
    have l5 := bits_lt w 10 5
    have s6 := low_split w 4 0 (by decide)
    have l6 := bits_lt w 4 0
    rw [low_top hw] at s0
    rw [low_zero] at s6
    have e1 := gOf_val w
    have r0 := Fmt.code_ofCode b0
    simp only [OFromv.enc, frameG, Fin.val_ofNat, BitVec.toNat_ofNat, boolCode_none, boolCode_some] at *
    simp only [Nat.reducePow, Nat.reduceAdd, Nat.reduceSub] at *
    omega
  · rfl

theorem OTov.enc_dec {w op : Nat} {ix : Option W32} {o : OTov} (hw : w < 2 ^ 32)
    (hop : bits w 26 20 = op) (hix : bits w 27 27 = boolCode ix.isSome) (h : OTov.dec w ix = some o) :
    o.enc op = w ∧ ix = none := by
  simp only [OTov.dec, Option.bind_eq_bind, Option.ite_none_right_eq_some, Option.bind_eq_some_iff] at h
  obtain ⟨⟨c0, c1, c2⟩, h⟩ := h
  injection h with h
  subst h
  subst c2
  refine ⟨?_, ?_⟩
  · have s0 := low_split w 31 28 (by decide)
    have l0 := bits_lt w 31 28
    have s1 := low_split w 27 27 (by decide)
    have l1 := bits_lt w 27 27
    have s2 := low_split w 26 20 (by decide)
    have l2 := bits_lt w 26 20
    have s3 := low_split w 19 16 (by decide)
    have l3 := bits_lt w 19 16
    have s4 := low_split w 15 11 (by decide)
    have l4 := bits_lt w 15 11
    have s5 := low_split w 10 5 (by decide)
    have l5 := bits_lt w 10 5
    have s6 := low_split w 4 0 (by decide)
    have l6 := bits_lt w 4 0
    rw [low_top hw] at s0
    rw [low_zero] at s6
    have e1 := gOf_val w
    simp only [OTov.enc, frameG, Fin.val_ofNat, BitVec.toNat_ofNat, boolCode_none, boolCode_some] at *
    simp only [Nat.reducePow, Nat.reduceAdd, Nat.reduceSub] at *
    omega
  · rfl

theorem OTcvt.enc_dec {w op : Nat} {ix : Option W32} {o : OTcvt} (hw : w < 2 ^ 32)
    (hop : bits w 26 20 = op) (hix : bits w 27 27 = boolCode ix.isSome) (h : OTcvt.dec w ix = some o) :
    o.enc op = w ∧ ix = none := by
  simp only [OTcvt.dec, Option.bind_eq_bind, Option.ite_none_right_eq_some, Option.bind_eq_some_iff] at h
  obtain ⟨⟨c0, c1⟩, v0, b0, v1, b1, h⟩ := h
  injection h with h
  subst h
  subst c1
  refine ⟨?_, ?_⟩
  · have s0 := low_split w 31 28 (by decide)
    have l0 := bits_lt w 31 28
    have s1 := low_split w 27 27 (by decide)
    have l1 := bits_lt w 27 27
    have s2 := low_split w 26 20 (by decide)
    have l2 := bits_lt w 26 20
    have s3 := low_split w 19 7 (by decide)
    have l3 := bits_lt w 19 7
    have s4 := low_split w 6 5 (by decide)
    have l4 := bits_lt w 6 5
    have s5 := low_split w 4 0 (by decide)
    have l5 := bits_lt w 4 0
    rw [low_top hw] at s0
    rw [low_zero] at s5
    have e1 := gOf_val w
    have r0 := RMode.code_ofCode b0
    have r1 := Fmt.code_ofCode b1
    simp only [OTcvt.enc, frameG, Fin.val_ofNat, BitVec.toNat_ofNat, boolCode_none, boolCode_some] at *
    simp only [Nat.reducePow, Nat.reduceAdd, Nat.reduceSub] at *
    omega
  · rfl

theorem OBlk.enc_dec {w op : Nat} {ix : Option W32} {o : OBlk} (hw : w < 2 ^ 32)
    (hop : bits w 26 20 = op) (hix : bits w 27 27 = boolCode ix.isSome) (h : OBlk.dec w ix = some o) :
    o.enc op = w ∧ ix = none := by
  simp only [OBlk.dec, Option.bind_eq_bind, Option.ite_none_right_eq_some, Option.bind_eq_some_iff] at h
  obtain ⟨⟨c0, c1⟩, v0, b0, h⟩ := h
  injection h with h
  subst h
  subst c1
  refine ⟨?_, ?_⟩
  · have s0 := low_split w 31 28 (by decide)
    have l0 := bits_lt w 31 28
    have s1 := low_split w 27 27 (by decide)
    have l1 := bits_lt w 27 27
    have s2 := low_split w 26 20 (by decide)
    have l2 := bits_lt w 26 20
    have s3 := low_split w 19 16 (by decide)
    have l3 := bits_lt w 19 16
    have s4 := low_split w 15 4 (by decide)
    have l4 := bits_lt w 15 4
    have s5 := low_split w 3 0 (by decide)
    have l5 := bits_lt w 3 0
    rw [low_top hw] at s0
    rw [low_zero] at s5
    have e1 := gOf_val w
    have r0 := Scope.code_ofCode b0
    simp only [OBlk.enc, frameG, Fin.val_ofNat, BitVec.toNat_ofNat, boolCode_none, boolCode_some] at *
    simp only [Nat.reducePow, Nat.reduceAdd, Nat.reduceSub] at *
    omega
  · rfl

theorem OBlkRel.enc_dec {w op : Nat} {ix : Option W32} {o : OBlkRel} (hw : w < 2 ^ 32)
    (hop : bits w 26 20 = op) (hix : bits w 27 27 = boolCode ix.isSome) (h : OBlkRel.dec w ix = some o) :
    o.enc op = w ∧ ix = none := by
  simp only [OBlkRel.dec, Option.bind_eq_bind, Option.ite_none_right_eq_some, Option.bind_eq_some_iff] at h
  obtain ⟨⟨c0, c1, c2⟩, h⟩ := h
  injection h with h
  subst h
  subst c2
  refine ⟨?_, ?_⟩
  · have s0 := low_split w 31 28 (by decide)
    have l0 := bits_lt w 31 28
    have s1 := low_split w 27 27 (by decide)
    have l1 := bits_lt w 27 27
    have s2 := low_split w 26 20 (by decide)
    have l2 := bits_lt w 26 20
    have s3 := low_split w 19 5 (by decide)
    have l3 := bits_lt w 19 5
    have s4 := low_split w 4 4 (by decide)
    have l4 := bits_lt w 4 4
    have s5 := low_split w 3 0 (by decide)
    have l5 := bits_lt w 3 0
    rw [low_top hw] at s0
    rw [low_zero] at s5
    have e1 := gOf_val w
    simp only [OBlkRel.enc, frameG, Fin.val_ofNat, BitVec.toNat_ofNat, boolCode_none, boolCode_some] at *
    simp only [Nat.reducePow, Nat.reduceAdd, Nat.reduceSub] at *
    omega
  · rfl

theorem OSort.enc_dec {w op : Nat} {ix : Option W32} {o : OSort} (hw : w < 2 ^ 32)
    (hop : bits w 26 20 = op) (hix : bits w 27 27 = boolCode ix.isSome) (h : OSort.dec w ix = some o) :
    o.enc op = w ∧ ix = none := by
  simp only [OSort.dec, Option.bind_eq_bind, Option.ite_none_right_eq_some, Option.bind_eq_some_iff] at h
  obtain ⟨⟨c0, c1⟩, v0, b0, v1, b1, h⟩ := h
  injection h with h
  subst h
  subst c1
  refine ⟨?_, ?_⟩
  · have s0 := low_split w 31 28 (by decide)
    have l0 := bits_lt w 31 28
    have s1 := low_split w 27 27 (by decide)
    have l1 := bits_lt w 27 27
    have s2 := low_split w 26 20 (by decide)
    have l2 := bits_lt w 26 20
    have s3 := low_split w 19 16 (by decide)
    have l3 := bits_lt w 19 16
    have s4 := low_split w 15 1 (by decide)
    have l4 := bits_lt w 15 1
    have s5 := low_split w 0 0 (by decide)
    have l5 := bits_lt w 0 0
    rw [low_top hw] at s0
    rw [low_zero] at s5
    have e1 := gOf_val w
    have r0 := Scope.code_ofCode b0
    have r1 := code_boolOf b1
    simp only [OSort.enc, frameG, Fin.val_ofNat, BitVec.toNat_ofNat, boolCode_none, boolCode_some] at *
    simp only [Nat.reducePow, Nat.reduceAdd, Nat.reduceSub] at *
    omega
  · rfl

theorem OKar.enc_dec {w op : Nat} {ix : Option W32} {o : OKar} (hw : w < 2 ^ 32)
    (hop : bits w 26 20 = op) (hix : bits w 27 27 = boolCode ix.isSome) (h : OKar.dec w ix = some o) :
    o.enc op = w ∧ ix = none := by
  simp only [OKar.dec, Option.bind_eq_bind, Option.ite_none_right_eq_some, Option.bind_eq_some_iff] at h
  obtain ⟨⟨c0, c1⟩, v0, b0, v1, b1, v2, b2, v3, b3, h⟩ := h
  injection h with h
  subst h
  subst c1
  refine ⟨?_, ?_⟩
  · have s0 := low_split w 31 28 (by decide)
    have l0 := bits_lt w 31 28
    have s1 := low_split w 27 27 (by decide)
    have l1 := bits_lt w 27 27
    have s2 := low_split w 26 20 (by decide)
    have l2 := bits_lt w 26 20
    have s3 := low_split w 19 16 (by decide)
    have l3 := bits_lt w 19 16
    have s4 := low_split w 15 10 (by decide)
    have l4 := bits_lt w 15 10
    have s5 := low_split w 9 6 (by decide)
    have l5 := bits_lt w 9 6
    have s6 := low_split w 5 2 (by decide)
    have l6 := bits_lt w 5 2
    have s7 := low_split w 1 0 (by decide)
    have l7 := bits_lt w 1 0
    rw [low_top hw] at s0
    rw [low_zero] at s7
    have e1 := gOf_val w
    have r0 := Scope.code_ofCode b0
    have r1 := val_finOf b1
    have r2 := Rop.code_ofCode b2
    have r3 := EType.code_ofCode b3
    simp only [OKar.enc, frameG, Fin.val_ofNat, BitVec.toNat_ofNat, boolCode_none, boolCode_some] at *
    simp only [Nat.reducePow, Nat.reduceAdd, Nat.reduceSub] at *
    omega
  · rfl

theorem OKag.enc_dec {w op : Nat} {ix : Option W32} {o : OKag} (hw : w < 2 ^ 32)
    (hop : bits w 26 20 = op) (hix : bits w 27 27 = boolCode ix.isSome) (h : OKag.dec w ix = some o) :
    o.enc op = w ∧ ix = none := by
  simp only [OKag.dec, Option.bind_eq_bind, Option.ite_none_right_eq_some, Option.bind_eq_some_iff] at h
  obtain ⟨⟨c0, c1, c2⟩, v0, b0, v1, b1, v2, b2, h⟩ := h
  injection h with h
  subst h
  subst c2
  refine ⟨?_, ?_⟩
  · have s0 := low_split w 31 28 (by decide)
    have l0 := bits_lt w 31 28
    have s1 := low_split w 27 27 (by decide)
    have l1 := bits_lt w 27 27
    have s2 := low_split w 26 20 (by decide)
    have l2 := bits_lt w 26 20
    have s3 := low_split w 19 16 (by decide)
    have l3 := bits_lt w 19 16
    have s4 := low_split w 15 10 (by decide)
    have l4 := bits_lt w 15 10
    have s5 := low_split w 9 6 (by decide)
    have l5 := bits_lt w 9 6
    have s6 := low_split w 5 2 (by decide)
    have l6 := bits_lt w 5 2
    have s7 := low_split w 1 0 (by decide)
    have l7 := bits_lt w 1 0
    rw [low_top hw] at s0
    rw [low_zero] at s7
    have e1 := gOf_val w
    have r0 := Scope.code_ofCode b0
    have r1 := val_finOf b1
    have r2 := EType.code_ofCode b2
    simp only [OKag.enc, frameG, Fin.val_ofNat, BitVec.toNat_ofNat, boolCode_none, boolCode_some] at *
    simp only [Nat.reducePow, Nat.reduceAdd, Nat.reduceSub] at *
    omega
  · rfl

theorem OKrecv.enc_dec {w op : Nat} {ix : Option W32} {o : OKrecv} (hw : w < 2 ^ 32)
    (hop : bits w 26 20 = op) (hix : bits w 27 27 = boolCode ix.isSome) (h : OKrecv.dec w ix = some o) :
    o.enc op = w ∧ ix = none := by
  simp only [OKrecv.dec, Option.bind_eq_bind, Option.ite_none_right_eq_some, Option.bind_eq_some_iff] at h
  obtain ⟨⟨c0, c1⟩, v0, b0, v1, b1, h⟩ := h
  injection h with h
  subst h
  subst c1
  refine ⟨?_, ?_⟩
  · have s0 := low_split w 31 28 (by decide)
    have l0 := bits_lt w 31 28
    have s1 := low_split w 27 27 (by decide)
    have l1 := bits_lt w 27 27
    have s2 := low_split w 26 20 (by decide)
    have l2 := bits_lt w 26 20
    have s3 := low_split w 19 16 (by decide)
    have l3 := bits_lt w 19 16
    have s4 := low_split w 15 10 (by decide)
    have l4 := bits_lt w 15 10
    have s5 := low_split w 9 0 (by decide)
    have l5 := bits_lt w 9 0
    rw [low_top hw] at s0
    rw [low_zero] at s5
    have e1 := gOf_val w
    have r0 := Scope.code_ofCode b0
    have r1 := val_finOf b1
    simp only [OKrecv.enc, frameG, Fin.val_ofNat, BitVec.toNat_ofNat, boolCode_none, boolCode_some] at *
    simp only [Nat.reducePow, Nat.reduceAdd, Nat.reduceSub] at *
    omega
  · rfl

theorem OKd.enc_dec {w op : Nat} {ix : Option W32} {o : OKd} (hw : w < 2 ^ 32)
    (hop : bits w 26 20 = op) (hix : bits w 27 27 = boolCode ix.isSome) (h : OKd.dec w ix = some o) :
    o.enc op = w ∧ ix = none := by
  simp only [OKd.dec, Option.bind_eq_bind, Option.ite_none_right_eq_some, Option.bind_eq_some_iff] at h
  obtain ⟨⟨c0, c1, c2⟩, v0, b0, h⟩ := h
  injection h with h
  subst h
  subst c2
  refine ⟨?_, ?_⟩
  · have s0 := low_split w 31 28 (by decide)
    have l0 := bits_lt w 31 28
    have s1 := low_split w 27 27 (by decide)
    have l1 := bits_lt w 27 27
    have s2 := low_split w 26 20 (by decide)
    have l2 := bits_lt w 26 20
    have s3 := low_split w 19 16 (by decide)
    have l3 := bits_lt w 19 16
    have s4 := low_split w 15 10 (by decide)
    have l4 := bits_lt w 15 10
    have s5 := low_split w 9 0 (by decide)
    have l5 := bits_lt w 9 0
    rw [low_top hw] at s0
    rw [low_zero] at s5
    have e1 := gOf_val w
    have r0 := val_finOf b0
    simp only [OKd.enc, frameG, Fin.val_ofNat, BitVec.toNat_ofNat, boolCode_none, boolCode_some] at *
    simp only [Nat.reducePow, Nat.reduceAdd, Nat.reduceSub] at *
    omega
  · rfl

theorem OTok.enc_dec {w op : Nat} {ix : Option W32} {o : OTok} (hw : w < 2 ^ 32)
    (hop : bits w 26 20 = op) (hix : bits w 27 27 = boolCode ix.isSome) (h : OTok.dec w ix = some o) :
    o.enc op = w ∧ ix = none := by
  simp only [OTok.dec, Option.bind_eq_bind, Option.ite_none_right_eq_some, Option.bind_eq_some_iff] at h
  obtain ⟨⟨c0, c1⟩, v0, b0, h⟩ := h
  injection h with h
  subst h
  subst c1
  refine ⟨?_, ?_⟩
  · have s0 := low_split w 31 28 (by decide)
    have l0 := bits_lt w 31 28
    have s1 := low_split w 27 27 (by decide)
    have l1 := bits_lt w 27 27
    have s2 := low_split w 26 20 (by decide)
    have l2 := bits_lt w 26 20
    have s3 := low_split w 19 16 (by decide)
    have l3 := bits_lt w 19 16
    have s4 := low_split w 15 3 (by decide)
    have l4 := bits_lt w 15 3
    have s5 := low_split w 2 0 (by decide)
    have l5 := bits_lt w 2 0
    rw [low_top hw] at s0
    rw [low_zero] at s5
    have e1 := gOf_val w
    have r0 := Scope.code_ofCode b0
    simp only [OTok.enc, frameG, Fin.val_ofNat, BitVec.toNat_ofNat, boolCode_none, boolCode_some] at *
    simp only [Nat.reducePow, Nat.reduceAdd, Nat.reduceSub] at *
    omega
  · rfl

theorem OJoinG.enc_dec {w op : Nat} {ix : Option W32} {o : OJoinG} (hw : w < 2 ^ 32)
    (hop : bits w 26 20 = op) (hix : bits w 27 27 = boolCode ix.isSome) (h : OJoinG.dec w ix = some o) :
    o.enc op = w ∧ ix = none := by
  simp only [OJoinG.dec, Option.bind_eq_bind, Option.ite_none_right_eq_some, Option.bind_eq_some_iff] at h
  obtain ⟨⟨c0, c1⟩, h⟩ := h
  injection h with h
  subst h
  subst c1
  refine ⟨?_, ?_⟩
  · have s0 := low_split w 31 28 (by decide)
    have l0 := bits_lt w 31 28
    have s1 := low_split w 27 27 (by decide)
    have l1 := bits_lt w 27 27
    have s2 := low_split w 26 20 (by decide)
    have l2 := bits_lt w 26 20
    have s3 := low_split w 19 8 (by decide)
    have l3 := bits_lt w 19 8
    have s4 := low_split w 7 0 (by decide)
    have l4 := bits_lt w 7 0
    rw [low_top hw] at s0
    rw [low_zero] at s4
    have e1 := gOf_val w
    simp only [OJoinG.enc, frameG, Fin.val_ofNat, BitVec.toNat_ofNat, boolCode_none, boolCode_some] at *
    simp only [Nat.reducePow, Nat.reduceAdd, Nat.reduceSub] at *
    omega
  · rfl

theorem OMgrd.enc_dec {w op : Nat} {ix : Option W32} {o : OMgrd} (hw : w < 2 ^ 32)
    (hop : bits w 26 20 = op) (hix : bits w 27 27 = boolCode ix.isSome) (h : OMgrd.dec w ix = some o) :
    o.enc op = w ∧ ix = none := by
  simp only [OMgrd.dec, Option.bind_eq_bind, Option.ite_none_right_eq_some, Option.bind_eq_some_iff] at h
  obtain ⟨⟨c0, c1⟩, v0, b0, v1, b1, h⟩ := h
  injection h with h
  subst h
  subst c1
  refine ⟨?_, ?_⟩
  · have s0 := low_split w 31 28 (by decide)
    have l0 := bits_lt w 31 28
    have s1 := low_split w 27 27 (by decide)
    have l1 := bits_lt w 27 27
    have s2 := low_split w 26 20 (by decide)
    have l2 := bits_lt w 26 20
    have s3 := low_split w 19 6 (by decide)
    have l3 := bits_lt w 19 6
    have s4 := low_split w 5 3 (by decide)
    have l4 := bits_lt w 5 3
    have s5 := low_split w 2 0 (by decide)
    have l5 := bits_lt w 2 0
    rw [low_top hw] at s0
    rw [low_zero] at s5
    have e1 := gOf_val w
    have r0 := Rel.code_ofCode b0
    have r1 := val_finOf b1
    simp only [OMgrd.enc, frameG, Fin.val_ofNat, BitVec.toNat_ofNat, boolCode_none, boolCode_some] at *
    simp only [Nat.reducePow, Nat.reduceAdd, Nat.reduceSub] at *
    omega
  · rfl

theorem OTlbi.enc_dec {w op : Nat} {ix : Option W32} {o : OTlbi} (hw : w < 2 ^ 32)
    (hop : bits w 26 20 = op) (hix : bits w 27 27 = boolCode ix.isSome) (h : OTlbi.dec w ix = some o) :
    o.enc op = w ∧ ix = none := by
  simp only [OTlbi.dec, Option.bind_eq_bind, Option.ite_none_right_eq_some, Option.bind_eq_some_iff] at h
  obtain ⟨⟨c0, c1⟩, v0, b0, h⟩ := h
  injection h with h
  subst h
  subst c1
  refine ⟨?_, ?_⟩
  · have s0 := low_split w 31 28 (by decide)
    have l0 := bits_lt w 31 28
    have s1 := low_split w 27 27 (by decide)
    have l1 := bits_lt w 27 27
    have s2 := low_split w 26 20 (by decide)
    have l2 := bits_lt w 26 20
    have s3 := low_split w 19 2 (by decide)
    have l3 := bits_lt w 19 2
    have s4 := low_split w 1 0 (by decide)
    have l4 := bits_lt w 1 0
    rw [low_top hw] at s0
    rw [low_zero] at s4
    have e1 := gOf_val w
    have r0 := TlbiKind.code_ofCode b0
    simp only [OTlbi.enc, frameG, Fin.val_ofNat, BitVec.toNat_ofNat, boolCode_none, boolCode_some] at *
    simp only [Nat.reducePow, Nat.reduceAdd, Nat.reduceSub] at *
    omega
  · rfl

theorem OFencer.enc_dec {w op : Nat} {ix : Option W32} {o : OFencer} (hw : w < 2 ^ 32)
    (hop : bits w 26 20 = op) (hix : bits w 27 27 = boolCode ix.isSome) (h : OFencer.dec w ix = some o) :
    o.enc op = w ∧ ix = some (BitVec.ofNat 32 o.ix) := by
  cases ix with
  | none => cases h
  | some x =>
    simp only [OFencer.dec, Option.bind_eq_bind, Option.ite_none_right_eq_some, Option.bind_eq_some_iff] at h
    obtain ⟨⟨c0, c1⟩, v0, b0, v1, b1, v2, b2, h⟩ := h
    injection h with h
    subst h
    have hx := x.isLt
    refine ⟨?_, ?_⟩
    · have s0 := low_split w 31 28 (by decide)
      have l0 := bits_lt w 31 28
      have s1 := low_split w 27 27 (by decide)
      have l1 := bits_lt w 27 27
      have s2 := low_split w 26 20 (by decide)
      have l2 := bits_lt w 26 20
      have s3 := low_split w 19 15 (by decide)
      have l3 := bits_lt w 19 15
      have s4 := low_split w 14 10 (by decide)
      have l4 := bits_lt w 14 10
      have s5 := low_split w 9 0 (by decide)
      have l5 := bits_lt w 9 0
      rw [low_top hw] at s0
      rw [low_zero] at s5
      have e1 := gOf_val w
      have r0 := Src.code_ofCode b0
      have r1 := Src.code_ofCode b1
      have r2 := Scope.code_ofCode b2
      simp only [OFencer.enc, frameG, Fin.val_ofNat, BitVec.toNat_ofNat, boolCode_none, boolCode_some] at *
      simp only [Nat.reducePow, Nat.reduceAdd, Nat.reduceSub] at *
      omega
    · have s0 := low_split x.toNat 31 16 (by decide)
      have l0 := bits_lt x.toNat 31 16
      have s1 := low_split x.toNat 15 12 (by decide)
      have l1 := bits_lt x.toNat 15 12
      have s2 := low_split x.toNat 11 6 (by decide)
      have l2 := bits_lt x.toNat 11 6
      have s3 := low_split x.toNat 5 0 (by decide)
      have l3 := bits_lt x.toNat 5 0
      rw [low_top hx] at s0
      rw [low_zero] at s3
      have r0 := Src.code_ofCode b0
      have r1 := Src.code_ofCode b1
      have r2 := Scope.code_ofCode b2
      refine congrArg some (BitVec.eq_of_toNat_eq ?_)
      simp only [OFencer.ix, Fin.val_ofNat, BitVec.toNat_ofNat] at *
      simp only [Nat.reducePow, Nat.reduceAdd, Nat.reduceSub] at *
      omega

theorem OPatch.enc_dec {w op : Nat} {ix : Option W32} {o : OPatch} (hw : w < 2 ^ 32)
    (hop : bits w 26 20 = op) (hix : bits w 27 27 = boolCode ix.isSome) (h : OPatch.dec w ix = some o) :
    o.enc op = w ∧ ix = some (BitVec.ofNat 32 o.ix) := by
  cases ix with
  | none => cases h
  | some x =>
    simp only [OPatch.dec, Option.bind_eq_bind, Option.ite_none_right_eq_some, Option.bind_eq_some_iff] at h
    obtain ⟨c0, v0, b0, v1, b1, v2, b2, h⟩ := h
    injection h with h
    subst h
    have hx := x.isLt
    refine ⟨?_, ?_⟩
    · have s0 := low_split w 31 28 (by decide)
      have l0 := bits_lt w 31 28
      have s1 := low_split w 27 27 (by decide)
      have l1 := bits_lt w 27 27
      have s2 := low_split w 26 20 (by decide)
      have l2 := bits_lt w 26 20
      have s3 := low_split w 19 14 (by decide)
      have l3 := bits_lt w 19 14
      have s4 := low_split w 13 9 (by decide)
      have l4 := bits_lt w 13 9
      have s5 := low_split w 8 0 (by decide)
      have l5 := bits_lt w 8 0
      rw [low_top hw] at s0
      rw [low_zero] at s5
      have e1 := gOf_val w
      have r0 := val_finOf b0
      have r1 := Src.code_ofCode b1
      have r2 := val_finOf b2
      simp only [OPatch.enc, frameG, Fin.val_ofNat, BitVec.toNat_ofNat, boolCode_none, boolCode_some] at *
      simp only [Nat.reducePow, Nat.reduceAdd, Nat.reduceSub] at *
      omega
    · have s0 := low_split x.toNat 31 3 (by decide)
      have l0 := bits_lt x.toNat 31 3
      have s1 := low_split x.toNat 2 0 (by decide)
      have l1 := bits_lt x.toNat 2 0
      rw [low_top hx] at s0
      rw [low_zero] at s1
      have r0 := val_finOf b0
      have r1 := Src.code_ofCode b1
      have r2 := val_finOf b2
      refine congrArg some (BitVec.eq_of_toNat_eq ?_)
      simp only [OPatch.ix, Fin.val_ofNat, BitVec.toNat_ofNat] at *
      simp only [Nat.reducePow, Nat.reduceAdd, Nat.reduceSub] at *
      omega

theorem OBfx.enc_dec {w op fn : Nat} {ix : Option W32} {o : OBfx} (hw : w < 2 ^ 32)
    (hop : bits w 26 20 = op) (hix : bits w 27 27 = boolCode ix.isSome) (h : OBfx.dec w ix fn = some o) :
    o.enc op fn = w ∧ ix = some (BitVec.ofNat 32 o.ix) := by
  cases ix with
  | none => cases h
  | some x =>
    simp only [OBfx.dec, Option.bind_eq_bind, Option.ite_none_right_eq_some, Option.bind_eq_some_iff] at h
    obtain ⟨⟨c0, c1⟩, v0, b0, v1, b1, v2, b2, h⟩ := h
    injection h with h
    subst h
    have hx := x.isLt
    refine ⟨?_, ?_⟩
    · have s0 := low_split w 31 28 (by decide)
      have l0 := bits_lt w 31 28
      have s1 := low_split w 27 27 (by decide)
      have l1 := bits_lt w 27 27
      have s2 := low_split w 26 20 (by decide)
      have l2 := bits_lt w 26 20
      have s3 := low_split w 19 14 (by decide)
      have l3 := bits_lt w 19 14
      have s4 := low_split w 13 9 (by decide)
      have l4 := bits_lt w 13 9
      have s5 := low_split w 8 0 (by decide)
      have l5 := bits_lt w 8 0
      rw [low_top hw] at s0
      rw [low_zero] at s5
      have e1 := gOf_val w
      have r0 := Dst.code_ofCode b0
      have r1 := Src.code_ofCode b1
      have r2 := val_finOf b2
      simp only [OBfx.enc, frameG, Fin.val_ofNat, BitVec.toNat_ofNat, boolCode_none, boolCode_some] at *
      simp only [Nat.reducePow, Nat.reduceAdd, Nat.reduceSub] at *
      omega
    · have s0 := low_split x.toNat 31 13 (by decide)
      have l0 := bits_lt x.toNat 31 13
      have s1 := low_split x.toNat 12 6 (by decide)
      have l1 := bits_lt x.toNat 12 6
      have s2 := low_split x.toNat 5 0 (by decide)
      have l2 := bits_lt x.toNat 5 0
      rw [low_top hx] at s0
      rw [low_zero] at s2
      have r0 := Dst.code_ofCode b0
      have r1 := Src.code_ofCode b1
      have r2 := val_finOf b2
      refine congrArg some (BitVec.eq_of_toNat_eq ?_)
      simp only [OBfx.ix, Fin.val_ofNat, BitVec.toNat_ofNat] at *
      simp only [Nat.reducePow, Nat.reduceAdd, Nat.reduceSub] at *
      omega

theorem OBfi.enc_dec {w op : Nat} {ix : Option W32} {o : OBfi} (hw : w < 2 ^ 32)
    (hop : bits w 26 20 = op) (hix : bits w 27 27 = boolCode ix.isSome) (h : OBfi.dec w ix = some o) :
    o.enc op = w ∧ ix = some (BitVec.ofNat 32 o.ix) := by
  cases ix with
  | none => cases h
  | some x =>
    simp only [OBfi.dec, Option.bind_eq_bind, Option.ite_none_right_eq_some, Option.bind_eq_some_iff] at h
    obtain ⟨⟨c0, c1⟩, v0, b0, v1, b1, v2, b2, v3, b3, h⟩ := h
    injection h with h
    subst h
    have hx := x.isLt
    refine ⟨?_, ?_⟩
    · have s0 := low_split w 31 28 (by decide)
      have l0 := bits_lt w 31 28
      have s1 := low_split w 27 27 (by decide)
      have l1 := bits_lt w 27 27
      have s2 := low_split w 26 20 (by decide)
      have l2 := bits_lt w 26 20
      have s3 := low_split w 19 14 (by decide)
      have l3 := bits_lt w 19 14
      have s4 := low_split w 13 9 (by decide)
      have l4 := bits_lt w 13 9
      have s5 := low_split w 8 4 (by decide)
      have l5 := bits_lt w 8 4
      have s6 := low_split w 3 0 (by decide)
      have l6 := bits_lt w 3 0
      rw [low_top hw] at s0
      rw [low_zero] at s6
      have e1 := gOf_val w
      have r0 := Dst.code_ofCode b0
      have r1 := Src.code_ofCode b1
      have r2 := Src.code_ofCode b2
      have r3 := val_finOf b3
      simp only [OBfi.enc, frameG, Fin.val_ofNat, BitVec.toNat_ofNat, boolCode_none, boolCode_some] at *
      simp only [Nat.reducePow, Nat.reduceAdd, Nat.reduceSub] at *
      omega
    · have s0 := low_split x.toNat 31 13 (by decide)
      have l0 := bits_lt x.toNat 31 13
      have s1 := low_split x.toNat 12 6 (by decide)
      have l1 := bits_lt x.toNat 12 6
      have s2 := low_split x.toNat 5 0 (by decide)
      have l2 := bits_lt x.toNat 5 0
      rw [low_top hx] at s0
      rw [low_zero] at s2
      have r0 := Dst.code_ofCode b0
      have r1 := Src.code_ofCode b1
      have r2 := Src.code_ofCode b2
      have r3 := val_finOf b3
      refine congrArg some (BitVec.eq_of_toNat_eq ?_)
      simp only [OBfi.ix, Fin.val_ofNat, BitVec.toNat_ofNat] at *
      simp only [Nat.reducePow, Nat.reduceAdd, Nat.reduceSub] at *
      omega

theorem OVexp.enc_dec {w op : Nat} {ix : Option W32} {o : OVexp} (hw : w < 2 ^ 32)
    (hop : bits w 27 22 = op) (hix : bits w 28 28 = boolCode ix.isSome) (h : OVexp.dec w ix = some o) :
    o.enc op = w ∧ ix = some o.c := by
  cases ix with
  | none => cases h
  | some x =>
    simp only [OVexp.dec, Option.bind_eq_bind, Option.ite_none_right_eq_some, Option.bind_eq_some_iff] at h
    obtain ⟨c0, v0, b0, v1, b1, v2, b2, h⟩ := h
    injection h with h
    subst h
    have hx := x.isLt
    refine ⟨?_, ?_⟩
    · have s0 := low_split w 31 29 (by decide)
      have l0 := bits_lt w 31 29
      have s1 := low_split w 28 28 (by decide)
      have l1 := bits_lt w 28 28
      have s2 := low_split w 27 22 (by decide)
      have l2 := bits_lt w 27 22
      have s3 := low_split w 21 16 (by decide)
      have l3 := bits_lt w 21 16
      have s4 := low_split w 15 10 (by decide)
      have l4 := bits_lt w 15 10
      have s5 := low_split w 9 4 (by decide)
      have l5 := bits_lt w 9 4
      have s6 := low_split w 3 0 (by decide)
      have l6 := bits_lt w 3 0
      rw [low_top hw] at s0
      rw [low_zero] at s6
      have e1 := qOf_val w
      have r0 := VReg.code_ofCode b0
      have r1 := FSrc.code_ofCode b1
      have r2 := FSrc.code_ofCode b2
      simp only [OVexp.enc, frameQ, Fin.val_ofNat, BitVec.toNat_ofNat, boolCode_none, boolCode_some] at *
      simp only [Nat.reducePow, Nat.reduceAdd, Nat.reduceSub] at *
      omega
    · rfl

/-! The opcode maps. -/

theorem orElse_cases {α : Type} {a b : Option α} {x : α} (h : (a <|> b) = some x) : a = some x ∨ b = some x := by
  cases a with
  | none => exact .inr h
  | some y => exact .inl h

theorem OFencer.ix_lt (o : OFencer) : o.ix < 2 ^ 32 := by
  have := o.pred.isLt
  have := o.succ.isLt
  have := o.scope.code_lt
  simp only [OFencer.ix]
  omega

theorem OPatch.ix_lt (o : OPatch) : o.ix < 2 ^ 32 := by
  have := o.k.isLt
  have := o.off.isLt
  simp only [OPatch.ix]
  omega

theorem OBfx.ix_lt (o : OBfx) : o.ix < 2 ^ 32 := by
  have := o.pos.isLt
  have := o.w.isLt
  simp only [OBfx.ix]
  omega

theorem OBfi.ix_lt (o : OBfi) : o.ix < 2 ^ 32 := by
  have := o.pos.isLt
  have := o.w.isLt
  simp only [OBfi.ix]
  omega

theorem ixWords_ofNat {n : Nat} (h : n < 2 ^ 32) : ixWords (some (BitVec.ofNat 32 n)) = [n] := by
  simp only [ixWords, Option.map_some, Option.toList_some, BitVec.toNat_ofNat, Nat.mod_eq_of_lt h]

theorem decodeBr_encode {op w : Nat} {ix : Option W32} {i : Instr} (hw : w < 2 ^ 32) (hop : bits w 26 20 = op)
    (hix : bits w 27 27 = boolCode ix.isSome) (h : decodeBr op w ix = some i) :
    encode i = some (.br, w :: ixWords ix) := by
  unfold decodeBr at h
  split at h
  · obtain ⟨o, ho, rfl⟩ := Option.map_eq_some_iff.mp h
    obtain ⟨e1, rfl⟩ := OBr.enc_dec hw hop hix ho
    show some (Kind.br, o.enc 1 :: ixWords o.ix) = _
    rw [e1]
  · obtain ⟨o, ho, rfl⟩ := Option.map_eq_some_iff.mp h
    obtain ⟨e1, rfl⟩ := OBrc.enc_dec hw hop hix ho
    show some (Kind.br, o.enc 2 :: ixWords o.ix) = _
    rw [e1]
  · obtain ⟨o, ho, rfl⟩ := Option.map_eq_some_iff.mp h
    obtain ⟨e1, rfl⟩ := OBrq.enc_dec hw hop hix ho
    show some (Kind.br, o.enc 3 :: ixWords o.ix) = _
    rw [e1]
  · obtain ⟨o, ho, rfl⟩ := Option.map_eq_some_iff.mp h
    obtain ⟨e1, rfl⟩ := OBrA.enc_dec hw hop hix ho
    show some (Kind.br, o.enc 4 :: []) = _
    rw [e1]
    rfl
  · obtain ⟨o, ho, rfl⟩ := Option.map_eq_some_iff.mp h
    obtain ⟨e1, rfl⟩ := OBr.enc_dec hw hop hix ho
    show some (Kind.br, o.enc 5 :: ixWords o.ix) = _
    rw [e1]
  · obtain ⟨o, ho, rfl⟩ := Option.map_eq_some_iff.mp h
    obtain ⟨e1, rfl⟩ := OBrA.enc_dec hw hop hix ho
    show some (Kind.br, o.enc 6 :: []) = _
    rw [e1]
    rfl
  · obtain ⟨o, ho, rfl⟩ := Option.map_eq_some_iff.mp h
    obtain ⟨e1, rfl⟩ := OBrA.enc_dec hw hop hix ho
    show some (Kind.br, o.enc 7 :: []) = _
    rw [e1]
    rfl
  · obtain ⟨o, ho, rfl⟩ := Option.map_eq_some_iff.mp h
    obtain ⟨e1, rfl⟩ := OLoop.enc_dec hw hop hix ho
    show some (Kind.br, o.enc 8 :: ixWords o.ix) = _
    rw [e1]
  · obtain ⟨o, ho, rfl⟩ := Option.map_eq_some_iff.mp h
    obtain ⟨e1, rfl⟩ := OG.enc_dec hw hop hix ho
    show some (Kind.br, o.enc 9 :: []) = _
    rw [e1]
    rfl
  · obtain ⟨o, ho, rfl⟩ := Option.map_eq_some_iff.mp h
    obtain ⟨e1, rfl⟩ := OG.enc_dec hw hop hix ho
    show some (Kind.br, o.enc 10 :: []) = _
    rw [e1]
    rfl
  · obtain ⟨o, ho, rfl⟩ := Option.map_eq_some_iff.mp h
    obtain ⟨e1, rfl⟩ := OG.enc_dec hw hop hix ho
    show some (Kind.br, o.enc 11 :: []) = _
    rw [e1]
    rfl
  · obtain ⟨o, ho, rfl⟩ := Option.map_eq_some_iff.mp h
    obtain ⟨e1, rfl⟩ := OBr.enc_dec hw hop hix ho
    show some (Kind.br, o.enc 12 :: ixWords o.ix) = _
    rw [e1]
  · obtain ⟨o, ho, rfl⟩ := Option.map_eq_some_iff.mp h
    obtain ⟨e1, rfl⟩ := OG.enc_dec hw hop hix ho
    show some (Kind.br, o.enc 13 :: []) = _
    rw [e1]
    rfl
  · obtain ⟨o, ho, rfl⟩ := Option.map_eq_some_iff.mp h
    obtain ⟨e1, rfl⟩ := OWait.enc_dec hw hop hix ho
    show some (Kind.br, o.enc 14 :: []) = _
    rw [e1]
    rfl
  · obtain ⟨o, ho, rfl⟩ := Option.map_eq_some_iff.mp h
    obtain ⟨e1, rfl⟩ := OFence.enc_dec hw hop hix ho
    show some (Kind.br, o.enc 15 :: []) = _
    rw [e1]
    rfl
  · obtain ⟨o, ho, rfl⟩ := Option.map_eq_some_iff.mp h
    obtain ⟨e1, rfl⟩ := OFencer.enc_dec hw hop hix ho
    show some (Kind.br, o.enc 16 :: [o.ix]) = _
    rw [e1, ixWords_ofNat o.ix_lt]
  · obtain ⟨o, ho, rfl⟩ := Option.map_eq_some_iff.mp h
    obtain ⟨e1, rfl⟩ := OLwatch.enc_dec hw hop hix ho
    show some (Kind.br, o.enc 17 :: ixWords o.ix) = _
    rw [e1]
  · obtain ⟨o, ho, rfl⟩ := Option.map_eq_some_iff.mp h
    obtain ⟨e1, rfl⟩ := OG.enc_dec hw hop hix ho
    show some (Kind.br, o.enc 18 :: []) = _
    rw [e1]
    rfl
  · cases h

theorem decodeSa_encode {op w : Nat} {ix : Option W32} {i : Instr} (hw : w < 2 ^ 32) (hop : bits w 26 20 = op)
    (hix : bits w 27 27 = boolCode ix.isSome) (h : decodeSa op w ix = some i) :
    encode i = some (.sa, w :: ixWords ix) := by
  unfold decodeSa at h
  split at h
  · obtain ⟨o, ho, rfl⟩ := Option.map_eq_some_iff.mp h
    obtain ⟨e1, rfl⟩ := OR3.enc_dec hw hop hix ho
    show some (Kind.sa, o.enc 1 0 :: ixWords o.ix) = _
    rw [e1]
  · obtain ⟨o, ho, rfl⟩ := Option.map_eq_some_iff.mp h
    obtain ⟨e1, rfl⟩ := OR3.enc_dec hw hop hix ho
    show some (Kind.sa, o.enc 2 0 :: ixWords o.ix) = _
    rw [e1]
  · obtain ⟨o, ho, rfl⟩ := Option.map_eq_some_iff.mp h
    obtain ⟨e1, rfl⟩ := OR3.enc_dec hw hop hix ho
    show some (Kind.sa, o.enc 3 0 :: ixWords o.ix) = _
    rw [e1]
  · obtain ⟨o, ho, rfl⟩ := Option.map_eq_some_iff.mp h
    obtain ⟨e1, rfl⟩ := OR3.enc_dec hw hop hix ho
    show some (Kind.sa, o.enc 4 0 :: ixWords o.ix) = _
    rw [e1]
  · obtain ⟨o, ho, rfl⟩ := Option.map_eq_some_iff.mp h
    obtain ⟨e1, rfl⟩ := OR3.enc_dec hw hop hix ho
    show some (Kind.sa, o.enc 5 0 :: ixWords o.ix) = _
    rw [e1]
  · obtain ⟨o, ho, rfl⟩ := Option.map_eq_some_iff.mp h
    obtain ⟨e1, rfl⟩ := OR3.enc_dec hw hop hix ho
    show some (Kind.sa, o.enc 6 0 :: ixWords o.ix) = _
    rw [e1]
  · obtain ⟨o, ho, rfl⟩ := Option.map_eq_some_iff.mp h
    obtain ⟨e1, rfl⟩ := OR3.enc_dec hw hop hix ho
    show some (Kind.sa, o.enc 7 0 :: ixWords o.ix) = _
    rw [e1]
  · obtain ⟨o, ho, rfl⟩ := Option.map_eq_some_iff.mp h
    obtain ⟨e1, rfl⟩ := OR3.enc_dec hw hop hix ho
    show some (Kind.sa, o.enc 8 0 :: ixWords o.ix) = _
    rw [e1]
  · obtain ⟨o, ho, rfl⟩ := Option.map_eq_some_iff.mp h
    obtain ⟨e1, rfl⟩ := OR3.enc_dec hw hop hix ho
    show some (Kind.sa, o.enc 9 0 :: ixWords o.ix) = _
    rw [e1]
  · obtain ⟨o, ho, rfl⟩ := Option.map_eq_some_iff.mp h
    obtain ⟨e1, rfl⟩ := OR3.enc_dec hw hop hix ho
    show some (Kind.sa, o.enc 10 0 :: ixWords o.ix) = _
    rw [e1]
  · obtain ⟨o, ho, rfl⟩ := Option.map_eq_some_iff.mp h
    obtain ⟨e1, rfl⟩ := OR3.enc_dec hw hop hix ho
    show some (Kind.sa, o.enc 11 0 :: ixWords o.ix) = _
    rw [e1]
  · obtain ⟨o, ho, rfl⟩ := Option.map_eq_some_iff.mp h
    obtain ⟨e1, rfl⟩ := OR3.enc_dec hw hop hix ho
    show some (Kind.sa, o.enc 12 0 :: ixWords o.ix) = _
    rw [e1]
  · obtain ⟨o, ho, rfl⟩ := Option.map_eq_some_iff.mp h
    obtain ⟨e1, rfl⟩ := OR3.enc_dec hw hop hix ho
    show some (Kind.sa, o.enc 13 0 :: ixWords o.ix) = _
    rw [e1]
  · obtain ⟨o, ho, rfl⟩ := Option.map_eq_some_iff.mp h
    obtain ⟨e1, rfl⟩ := OR3.enc_dec hw hop hix ho
    show some (Kind.sa, o.enc 14 0 :: ixWords o.ix) = _
    rw [e1]
  · obtain ⟨o, ho, rfl⟩ := Option.map_eq_some_iff.mp h
    obtain ⟨e1, rfl⟩ := OR3.enc_dec hw hop hix ho
    show some (Kind.sa, o.enc 15 0 :: ixWords o.ix) = _
    rw [e1]
  · obtain ⟨o, ho, rfl⟩ := Option.map_eq_some_iff.mp h
    obtain ⟨e1, rfl⟩ := OR3.enc_dec hw hop hix ho
    show some (Kind.sa, o.enc 16 0 :: ixWords o.ix) = _
    rw [e1]
  · obtain ⟨o, ho, rfl⟩ := Option.map_eq_some_iff.mp h
    obtain ⟨e1, rfl⟩ := OR3.enc_dec hw hop hix ho
    show some (Kind.sa, o.enc 17 0 :: ixWords o.ix) = _
    rw [e1]
  · obtain ⟨o, ho, rfl⟩ := Option.map_eq_some_iff.mp h
    obtain ⟨e1, rfl⟩ := OR3.enc_dec hw hop hix ho
    show some (Kind.sa, o.enc 18 0 :: ixWords o.ix) = _
    rw [e1]
  · obtain ⟨o, ho, rfl⟩ := Option.map_eq_some_iff.mp h
    obtain ⟨e1, rfl⟩ := OR3.enc_dec hw hop hix ho
    show some (Kind.sa, o.enc 19 0 :: ixWords o.ix) = _
    rw [e1]
  · obtain ⟨o, ho, rfl⟩ := Option.map_eq_some_iff.mp h
    obtain ⟨e1, rfl⟩ := OR3.enc_dec hw hop hix ho
    show some (Kind.sa, o.enc 20 0 :: ixWords o.ix) = _
    rw [e1]
  · obtain ⟨o, ho, rfl⟩ := Option.map_eq_some_iff.mp h
    obtain ⟨e1, rfl⟩ := OR3.enc_dec hw hop hix ho
    show some (Kind.sa, o.enc 21 0 :: ixWords o.ix) = _
    rw [e1]
  · obtain ⟨o, ho, rfl⟩ := Option.map_eq_some_iff.mp h
    obtain ⟨e1, rfl⟩ := OR2.enc_dec hw hop hix ho
    show some (Kind.sa, o.enc 22 :: ixWords o.ix) = _
    rw [e1]
  · obtain ⟨o, ho, rfl⟩ := Option.map_eq_some_iff.mp h
    obtain ⟨e1, rfl⟩ := OR2.enc_dec hw hop hix ho
    show some (Kind.sa, o.enc 23 :: ixWords o.ix) = _
    rw [e1]
  · obtain ⟨o, ho, rfl⟩ := Option.map_eq_some_iff.mp h
    obtain ⟨e1, rfl⟩ := OR2.enc_dec hw hop hix ho
    show some (Kind.sa, o.enc 24 :: ixWords o.ix) = _
    rw [e1]
  · obtain ⟨o, ho, rfl⟩ := Option.map_eq_some_iff.mp h
    obtain ⟨e1, rfl⟩ := OR3n.enc_dec hw hop hix ho
    show some (Kind.sa, o.enc 25 :: ixWords o.ix) = _
    rw [e1]
  · obtain ⟨o, ho, rfl⟩ := Option.map_eq_some_iff.mp h
    obtain ⟨e1, rfl⟩ := OR2.enc_dec hw hop hix ho
    show some (Kind.sa, o.enc 26 :: ixWords o.ix) = _
    rw [e1]
  · rcases orElse_cases h with h | h
    · obtain ⟨o, ho, rfl⟩ := Option.map_eq_some_iff.mp h
      obtain ⟨e1, rfl⟩ := OStg.enc_dec hw hop hix ho
      show some (Kind.sa, o.enc 27 :: ixWords o.ix) = _
      rw [e1]
    · obtain ⟨o, ho, rfl⟩ := Option.map_eq_some_iff.mp h
      obtain ⟨e1, rfl⟩ := OPatch.enc_dec hw hop hix ho
      show some (Kind.sa, o.enc 27 :: [o.ix]) = _
      rw [e1, ixWords_ofNat o.ix_lt]
  · rcases orElse_cases h with h | h
    · obtain ⟨o, ho, rfl⟩ := Option.map_eq_some_iff.mp h
      obtain ⟨e1, rfl⟩ := OMovi.enc_dec hw hop hix ho
      show some (Kind.sa, o.enc 28 :: ixWords o.ix) = _
      rw [e1]
    · obtain ⟨o, ho, rfl⟩ := Option.map_eq_some_iff.mp h
      obtain ⟨e1, rfl⟩ := OR3.enc_dec hw hop hix ho
      show some (Kind.sa, o.enc 28 1 :: ixWords o.ix) = _
      rw [e1]
  · obtain ⟨o, ho, rfl⟩ := Option.map_eq_some_iff.mp h
    obtain ⟨e1, rfl⟩ := OR3n.enc_dec hw hop hix ho
    show some (Kind.sa, o.enc 29 :: ixWords o.ix) = _
    rw [e1]
  · rcases orElse_cases h with h | h
    · obtain ⟨o, ho, rfl⟩ := Option.map_eq_some_iff.mp h
      obtain ⟨e1, rfl⟩ := OR3.enc_dec hw hop hix ho
      show some (Kind.sa, o.enc 30 0 :: ixWords o.ix) = _
      rw [e1]
    · obtain ⟨o, ho, rfl⟩ := Option.map_eq_some_iff.mp h
      obtain ⟨e1, rfl⟩ := OR3.enc_dec hw hop hix ho
      show some (Kind.sa, o.enc 30 1 :: ixWords o.ix) = _
      rw [e1]
  · rcases orElse_cases h with h | h
    · obtain ⟨o, ho, rfl⟩ := Option.map_eq_some_iff.mp h
      obtain ⟨e1, rfl⟩ := OBfx.enc_dec hw hop hix ho
      show some (Kind.sa, o.enc 31 0 :: [o.ix]) = _
      rw [e1, ixWords_ofNat o.ix_lt]
    · obtain ⟨o, ho, rfl⟩ := Option.map_eq_some_iff.mp h
      obtain ⟨e1, rfl⟩ := OBfx.enc_dec hw hop hix ho
      show some (Kind.sa, o.enc 31 1 :: [o.ix]) = _
      rw [e1, ixWords_ofNat o.ix_lt]
  · obtain ⟨o, ho, rfl⟩ := Option.map_eq_some_iff.mp h
    obtain ⟨e1, rfl⟩ := OBfi.enc_dec hw hop hix ho
    show some (Kind.sa, o.enc 32 :: [o.ix]) = _
    rw [e1, ixWords_ofNat o.ix_lt]
  · obtain ⟨o, ho, rfl⟩ := Option.map_eq_some_iff.mp h
    obtain ⟨e1, rfl⟩ := OCmp.enc_dec hw hop hix ho
    show some (Kind.sa, o.enc 33 :: ixWords o.ix) = _
    rw [e1]
  · obtain ⟨o, ho, rfl⟩ := Option.map_eq_some_iff.mp h
    obtain ⟨e1, rfl⟩ := OPlog.enc_dec hw hop hix ho
    show some (Kind.sa, o.enc 34 :: []) = _
    rw [e1]
    rfl
  · cases h

theorem decodeAm_encode {op w : Nat} {ix : Option W32} {i : Instr} (hw : w < 2 ^ 32) (hop : bits w 26 20 = op)
    (hix : bits w 27 27 = boolCode ix.isSome) (h : decodeAm op w ix = some i) :
    encode i = some (.am, w :: ixWords ix) := by
  unfold decodeAm at h
  split at h
  · obtain ⟨o, ho, rfl⟩ := Option.map_eq_some_iff.mp h
    obtain ⟨e1, rfl⟩ := OLd.enc_dec hw hop hix ho
    show some (Kind.am, o.enc 1 :: ixWords o.ix) = _
    rw [e1]
  · obtain ⟨o, ho, rfl⟩ := Option.map_eq_some_iff.mp h
    obtain ⟨e1, rfl⟩ := OLd.enc_dec hw hop hix ho
    show some (Kind.am, o.enc 2 :: ixWords o.ix) = _
    rw [e1]
  · obtain ⟨o, ho, rfl⟩ := Option.map_eq_some_iff.mp h
    obtain ⟨e1, rfl⟩ := OLd.enc_dec hw hop hix ho
    show some (Kind.am, o.enc 3 :: ixWords o.ix) = _
    rw [e1]
  · obtain ⟨o, ho, rfl⟩ := Option.map_eq_some_iff.mp h
    obtain ⟨e1, rfl⟩ := OLd.enc_dec hw hop hix ho
    show some (Kind.am, o.enc 4 :: ixWords o.ix) = _
    rw [e1]
  · obtain ⟨o, ho, rfl⟩ := Option.map_eq_some_iff.mp h
    obtain ⟨e1, rfl⟩ := OLd.enc_dec hw hop hix ho
    show some (Kind.am, o.enc 5 :: ixWords o.ix) = _
    rw [e1]
  · obtain ⟨o, ho, rfl⟩ := Option.map_eq_some_iff.mp h
    obtain ⟨e1, rfl⟩ := OLd.enc_dec hw hop hix ho
    show some (Kind.am, o.enc 6 :: ixWords o.ix) = _
    rw [e1]
  · obtain ⟨o, ho, rfl⟩ := Option.map_eq_some_iff.mp h
    obtain ⟨e1, rfl⟩ := OLd.enc_dec hw hop hix ho
    show some (Kind.am, o.enc 7 :: ixWords o.ix) = _
    rw [e1]
  · obtain ⟨o, ho, rfl⟩ := Option.map_eq_some_iff.mp h
    obtain ⟨e1, rfl⟩ := OLd.enc_dec hw hop hix ho
    show some (Kind.am, o.enc 8 :: ixWords o.ix) = _
    rw [e1]
  · obtain ⟨o, ho, rfl⟩ := Option.map_eq_some_iff.mp h
    obtain ⟨e1, rfl⟩ := OSt.enc_dec hw hop hix ho
    show some (Kind.am, o.enc 9 :: ixWords o.ix) = _
    rw [e1]
  · obtain ⟨o, ho, rfl⟩ := Option.map_eq_some_iff.mp h
    obtain ⟨e1, rfl⟩ := OSt.enc_dec hw hop hix ho
    show some (Kind.am, o.enc 10 :: ixWords o.ix) = _
    rw [e1]
  · obtain ⟨o, ho, rfl⟩ := Option.map_eq_some_iff.mp h
    obtain ⟨e1, rfl⟩ := OSt.enc_dec hw hop hix ho
    show some (Kind.am, o.enc 11 :: ixWords o.ix) = _
    rw [e1]
  · obtain ⟨o, ho, rfl⟩ := Option.map_eq_some_iff.mp h
    obtain ⟨e1, rfl⟩ := OSt.enc_dec hw hop hix ho
    show some (Kind.am, o.enc 12 :: ixWords o.ix) = _
    rw [e1]
  · obtain ⟨o, ho, rfl⟩ := Option.map_eq_some_iff.mp h
    obtain ⟨e1, rfl⟩ := OSt.enc_dec hw hop hix ho
    show some (Kind.am, o.enc 13 :: ixWords o.ix) = _
    rw [e1]
  · obtain ⟨o, ho, rfl⟩ := Option.map_eq_some_iff.mp h
    obtain ⟨e1, rfl⟩ := OSt.enc_dec hw hop hix ho
    show some (Kind.am, o.enc 14 :: ixWords o.ix) = _
    rw [e1]
  · obtain ⟨o, ho, rfl⟩ := Option.map_eq_some_iff.mp h
    obtain ⟨e1, rfl⟩ := OSt.enc_dec hw hop hix ho
    show some (Kind.am, o.enc 15 :: ixWords o.ix) = _
    rw [e1]
  · obtain ⟨o, ho, rfl⟩ := Option.map_eq_some_iff.mp h
    obtain ⟨e1, rfl⟩ := OSt.enc_dec hw hop hix ho
    show some (Kind.am, o.enc 16 :: ixWords o.ix) = _
    rw [e1]
  · obtain ⟨o, ho, rfl⟩ := Option.map_eq_some_iff.mp h
    obtain ⟨e1, rfl⟩ := OR3.enc_dec hw hop hix ho
    show some (Kind.am, o.enc 17 0 :: ixWords o.ix) = _
    rw [e1]
  · obtain ⟨o, ho, rfl⟩ := Option.map_eq_some_iff.mp h
    obtain ⟨e1, rfl⟩ := OR3.enc_dec hw hop hix ho
    show some (Kind.am, o.enc 18 0 :: ixWords o.ix) = _
    rw [e1]
  · obtain ⟨o, ho, rfl⟩ := Option.map_eq_some_iff.mp h
    obtain ⟨e1, rfl⟩ := OR3.enc_dec hw hop hix ho
    show some (Kind.am, o.enc 19 0 :: ixWords o.ix) = _
    rw [e1]
  · obtain ⟨o, ho, rfl⟩ := Option.map_eq_some_iff.mp h
    obtain ⟨e1, rfl⟩ := OR3.enc_dec hw hop hix ho
    show some (Kind.am, o.enc 20 0 :: ixWords o.ix) = _
    rw [e1]
  · obtain ⟨o, ho, rfl⟩ := Option.map_eq_some_iff.mp h
    obtain ⟨e1, rfl⟩ := OStl.enc_dec hw hop hix ho
    show some (Kind.am, o.enc 21 :: ixWords o.ix) = _
    rw [e1]
  · obtain ⟨o, ho, rfl⟩ := Option.map_eq_some_iff.mp h
    obtain ⟨e1, rfl⟩ := OStl.enc_dec hw hop hix ho
    show some (Kind.am, o.enc 22 :: ixWords o.ix) = _
    rw [e1]
  · obtain ⟨o, ho, rfl⟩ := Option.map_eq_some_iff.mp h
    obtain ⟨e1, rfl⟩ := OStl.enc_dec hw hop hix ho
    show some (Kind.am, o.enc 23 :: ixWords o.ix) = _
    rw [e1]
  · obtain ⟨o, ho, rfl⟩ := Option.map_eq_some_iff.mp h
    obtain ⟨e1, rfl⟩ := OStl.enc_dec hw hop hix ho
    show some (Kind.am, o.enc 24 :: ixWords o.ix) = _
    rw [e1]
  · obtain ⟨o, ho, rfl⟩ := Option.map_eq_some_iff.mp h
    obtain ⟨e1, rfl⟩ := OLd.enc_dec hw hop hix ho
    show some (Kind.am, o.enc 25 :: ixWords o.ix) = _
    rw [e1]
  · obtain ⟨o, ho, rfl⟩ := Option.map_eq_some_iff.mp h
    obtain ⟨e1, rfl⟩ := OLd.enc_dec hw hop hix ho
    show some (Kind.am, o.enc 26 :: ixWords o.ix) = _
    rw [e1]
  · obtain ⟨o, ho, rfl⟩ := Option.map_eq_some_iff.mp h
    obtain ⟨e1, rfl⟩ := OLd.enc_dec hw hop hix ho
    show some (Kind.am, o.enc 27 :: ixWords o.ix) = _
    rw [e1]
  · obtain ⟨o, ho, rfl⟩ := Option.map_eq_some_iff.mp h
    obtain ⟨e1, rfl⟩ := OLd.enc_dec hw hop hix ho
    show some (Kind.am, o.enc 28 :: ixWords o.ix) = _
    rw [e1]
  · obtain ⟨o, ho, rfl⟩ := Option.map_eq_some_iff.mp h
    obtain ⟨e1, rfl⟩ := OLd.enc_dec hw hop hix ho
    show some (Kind.am, o.enc 29 :: ixWords o.ix) = _
    rw [e1]
  · obtain ⟨o, ho, rfl⟩ := Option.map_eq_some_iff.mp h
    obtain ⟨e1, rfl⟩ := OLd.enc_dec hw hop hix ho
    show some (Kind.am, o.enc 30 :: ixWords o.ix) = _
    rw [e1]
  · obtain ⟨o, ho, rfl⟩ := Option.map_eq_some_iff.mp h
    obtain ⟨e1, rfl⟩ := OLd.enc_dec hw hop hix ho
    show some (Kind.am, o.enc 31 :: ixWords o.ix) = _
    rw [e1]
  · obtain ⟨o, ho, rfl⟩ := Option.map_eq_some_iff.mp h
    obtain ⟨e1, rfl⟩ := OLd.enc_dec hw hop hix ho
    show some (Kind.am, o.enc 32 :: ixWords o.ix) = _
    rw [e1]
  · obtain ⟨o, ho, rfl⟩ := Option.map_eq_some_iff.mp h
    obtain ⟨e1, rfl⟩ := OLd.enc_dec hw hop hix ho
    show some (Kind.am, o.enc 33 :: ixWords o.ix) = _
    rw [e1]
  · obtain ⟨o, ho, rfl⟩ := Option.map_eq_some_iff.mp h
    obtain ⟨e1, rfl⟩ := OLd.enc_dec hw hop hix ho
    show some (Kind.am, o.enc 34 :: ixWords o.ix) = _
    rw [e1]
  · obtain ⟨o, ho, rfl⟩ := Option.map_eq_some_iff.mp h
    obtain ⟨e1, rfl⟩ := OLd.enc_dec hw hop hix ho
    show some (Kind.am, o.enc 35 :: ixWords o.ix) = _
    rw [e1]
  · obtain ⟨o, ho, rfl⟩ := Option.map_eq_some_iff.mp h
    obtain ⟨e1, rfl⟩ := OLd.enc_dec hw hop hix ho
    show some (Kind.am, o.enc 36 :: ixWords o.ix) = _
    rw [e1]
  · obtain ⟨o, ho, rfl⟩ := Option.map_eq_some_iff.mp h
    obtain ⟨e1, rfl⟩ := OLd.enc_dec hw hop hix ho
    show some (Kind.am, o.enc 37 :: ixWords o.ix) = _
    rw [e1]
  · obtain ⟨o, ho, rfl⟩ := Option.map_eq_some_iff.mp h
    obtain ⟨e1, rfl⟩ := OLd.enc_dec hw hop hix ho
    show some (Kind.am, o.enc 38 :: ixWords o.ix) = _
    rw [e1]
  · obtain ⟨o, ho, rfl⟩ := Option.map_eq_some_iff.mp h
    obtain ⟨e1, rfl⟩ := OLd.enc_dec hw hop hix ho
    show some (Kind.am, o.enc 39 :: ixWords o.ix) = _
    rw [e1]
  · obtain ⟨o, ho, rfl⟩ := Option.map_eq_some_iff.mp h
    obtain ⟨e1, rfl⟩ := OLd.enc_dec hw hop hix ho
    show some (Kind.am, o.enc 40 :: ixWords o.ix) = _
    rw [e1]
  · obtain ⟨o, ho, rfl⟩ := Option.map_eq_some_iff.mp h
    obtain ⟨e1, rfl⟩ := OPfd.enc_dec hw hop hix ho
    show some (Kind.am, o.enc 41 :: ixWords o.ix) = _
    rw [e1]
  · obtain ⟨o, ho, rfl⟩ := Option.map_eq_some_iff.mp h
    obtain ⟨e1, rfl⟩ := OCbo.enc_dec hw hop hix ho
    show some (Kind.am, o.enc 42 :: ixWords o.ix) = _
    rw [e1]
  · obtain ⟨o, ho, rfl⟩ := Option.map_eq_some_iff.mp h
    obtain ⟨e1, rfl⟩ := OCsrr.enc_dec hw hop hix ho
    show some (Kind.am, o.enc 43 :: []) = _
    rw [e1]
    rfl
  · obtain ⟨o, ho, rfl⟩ := Option.map_eq_some_iff.mp h
    obtain ⟨e1, rfl⟩ := OCsrw.enc_dec hw hop hix ho
    show some (Kind.am, o.enc 44 :: ixWords o.ix) = _
    rw [e1]
  · cases h

theorem decodeXf_encode {op w : Nat} {ix : Option W32} {i : Instr} (hw : w < 2 ^ 32) (hop : bits w 26 20 = op)
    (hix : bits w 27 27 = boolCode ix.isSome) (h : decodeXf op w ix = some i) :
    encode i = some (.xf, w :: ixWords ix) := by
  unfold decodeXf at h
  split at h
  · obtain ⟨o, ho, rfl⟩ := Option.map_eq_some_iff.mp h
    obtain ⟨e1, rfl⟩ := OXbc.enc_dec hw hop hix ho
    show some (Kind.xf, o.enc 1 :: ixWords o.ix) = _
    rw [e1]
  · obtain ⟨o, ho, rfl⟩ := Option.map_eq_some_iff.mp h
    obtain ⟨e1, rfl⟩ := OXin.enc_dec hw hop hix ho
    show some (Kind.xf, o.enc 2 :: ixWords o.ix) = _
    rw [e1]
  · cases h

theorem decodeXs_encode {op w : Nat} {ix : Option W32} {i : Instr} (hw : w < 2 ^ 32) (hop : bits w 26 20 = op)
    (hix : bits w 27 27 = boolCode ix.isSome) (h : decodeXs op w ix = some i) :
    encode i = some (.xs, w :: ixWords ix) := by
  unfold decodeXs at h
  split at h
  · obtain ⟨o, ho, rfl⟩ := Option.map_eq_some_iff.mp h
    obtain ⟨e1, rfl⟩ := OXex.enc_dec hw hop hix ho
    show some (Kind.xs, o.enc 1 :: []) = _
    rw [e1]
    rfl
  · obtain ⟨o, ho, rfl⟩ := Option.map_eq_some_iff.mp h
    obtain ⟨e1, rfl⟩ := OXred.enc_dec hw hop hix ho
    show some (Kind.xs, o.enc 2 :: []) = _
    rw [e1]
    rfl
  · cases h

theorem decodeF_encode {op w : Nat} {ix : Option W32} {i : Instr} (hw : w < 2 ^ 32) (hop : bits w 27 22 = op)
    (hix : bits w 28 28 = boolCode ix.isSome) (h : decodeF op w ix = some i) :
    encode i = some (.f, w :: ixWords ix) := by
  unfold decodeF at h
  split at h
  · obtain ⟨o, ho, rfl⟩ := Option.map_eq_some_iff.mp h
    obtain ⟨e1, rfl⟩ := OV3.enc_dec hw hop hix ho
    show some (Kind.f, o.enc 1 :: ixWords o.ix) = _
    rw [e1]
  · obtain ⟨o, ho, rfl⟩ := Option.map_eq_some_iff.mp h
    obtain ⟨e1, rfl⟩ := OV3.enc_dec hw hop hix ho
    show some (Kind.f, o.enc 2 :: ixWords o.ix) = _
    rw [e1]
  · obtain ⟨o, ho, rfl⟩ := Option.map_eq_some_iff.mp h
    obtain ⟨e1, rfl⟩ := OV3.enc_dec hw hop hix ho
    show some (Kind.f, o.enc 3 :: ixWords o.ix) = _
    rw [e1]
  · obtain ⟨o, ho, rfl⟩ := Option.map_eq_some_iff.mp h
    obtain ⟨e1, rfl⟩ := OV3.enc_dec hw hop hix ho
    show some (Kind.f, o.enc 4 :: ixWords o.ix) = _
    rw [e1]
  · obtain ⟨o, ho, rfl⟩ := Option.map_eq_some_iff.mp h
    obtain ⟨e1, rfl⟩ := OV3.enc_dec hw hop hix ho
    show some (Kind.f, o.enc 5 :: ixWords o.ix) = _
    rw [e1]
  · obtain ⟨o, ho, rfl⟩ := Option.map_eq_some_iff.mp h
    obtain ⟨e1, rfl⟩ := OV3.enc_dec hw hop hix ho
    show some (Kind.f, o.enc 6 :: ixWords o.ix) = _
    rw [e1]
  · obtain ⟨o, ho, rfl⟩ := Option.map_eq_some_iff.mp h
    obtain ⟨e1, rfl⟩ := OV3.enc_dec hw hop hix ho
    show some (Kind.f, o.enc 7 :: ixWords o.ix) = _
    rw [e1]
  · obtain ⟨o, ho, rfl⟩ := Option.map_eq_some_iff.mp h
    obtain ⟨e1, rfl⟩ := OV2.enc_dec hw hop hix ho
    show some (Kind.f, o.enc 8 :: ixWords o.ix) = _
    rw [e1]
  · obtain ⟨o, ho, rfl⟩ := Option.map_eq_some_iff.mp h
    obtain ⟨e1, rfl⟩ := OV2.enc_dec hw hop hix ho
    show some (Kind.f, o.enc 9 :: ixWords o.ix) = _
    rw [e1]
  · obtain ⟨o, ho, rfl⟩ := Option.map_eq_some_iff.mp h
    obtain ⟨e1, rfl⟩ := OV2.enc_dec hw hop hix ho
    show some (Kind.f, o.enc 10 :: ixWords o.ix) = _
    rw [e1]
  · obtain ⟨o, ho, rfl⟩ := Option.map_eq_some_iff.mp h
    obtain ⟨e1, rfl⟩ := OV2.enc_dec hw hop hix ho
    show some (Kind.f, o.enc 11 :: ixWords o.ix) = _
    rw [e1]
  · obtain ⟨o, ho, rfl⟩ := Option.map_eq_some_iff.mp h
    obtain ⟨e1, rfl⟩ := OV2.enc_dec hw hop hix ho
    show some (Kind.f, o.enc 12 :: ixWords o.ix) = _
    rw [e1]
  · obtain ⟨o, ho, rfl⟩ := Option.map_eq_some_iff.mp h
    obtain ⟨e1, rfl⟩ := OVexp.enc_dec hw hop hix ho
    show some (Kind.f, o.enc 13 :: [o.c.toNat]) = _
    rw [e1]
    rfl
  · obtain ⟨o, ho, rfl⟩ := Option.map_eq_some_iff.mp h
    obtain ⟨e1, rfl⟩ := OVcvt.enc_dec hw hop hix ho
    show some (Kind.f, o.enc 14 :: ixWords o.ix) = _
    rw [e1]
  · obtain ⟨o, ho, rfl⟩ := Option.map_eq_some_iff.mp h
    obtain ⟨e1, rfl⟩ := OVcmp.enc_dec hw hop hix ho
    show some (Kind.f, o.enc 15 :: ixWords o.ix) = _
    rw [e1]
  · obtain ⟨o, ho, rfl⟩ := Option.map_eq_some_iff.mp h
    obtain ⟨e1, rfl⟩ := OVsel.enc_dec hw hop hix ho
    show some (Kind.f, o.enc 16 :: ixWords o.ix) = _
    rw [e1]
  · obtain ⟨o, ho, rfl⟩ := Option.map_eq_some_iff.mp h
    obtain ⟨e1, rfl⟩ := OV3.enc_dec hw hop hix ho
    show some (Kind.f, o.enc 17 :: ixWords o.ix) = _
    rw [e1]
  · obtain ⟨o, ho, rfl⟩ := Option.map_eq_some_iff.mp h
    obtain ⟨e1, rfl⟩ := OV3.enc_dec hw hop hix ho
    show some (Kind.f, o.enc 18 :: ixWords o.ix) = _
    rw [e1]
  · obtain ⟨o, ho, rfl⟩ := Option.map_eq_some_iff.mp h
    obtain ⟨e1, rfl⟩ := OV3.enc_dec hw hop hix ho
    show some (Kind.f, o.enc 19 :: ixWords o.ix) = _
    rw [e1]
  · obtain ⟨o, ho, rfl⟩ := Option.map_eq_some_iff.mp h
    obtain ⟨e1, rfl⟩ := OV3.enc_dec hw hop hix ho
    show some (Kind.f, o.enc 20 :: ixWords o.ix) = _
    rw [e1]
  · obtain ⟨o, ho, rfl⟩ := Option.map_eq_some_iff.mp h
    obtain ⟨e1, rfl⟩ := OV3.enc_dec hw hop hix ho
    show some (Kind.f, o.enc 21 :: ixWords o.ix) = _
    rw [e1]
  · obtain ⟨o, ho, rfl⟩ := Option.map_eq_some_iff.mp h
    obtain ⟨e1, rfl⟩ := OV3.enc_dec hw hop hix ho
    show some (Kind.f, o.enc 22 :: ixWords o.ix) = _
    rw [e1]
  · obtain ⟨o, ho, rfl⟩ := Option.map_eq_some_iff.mp h
    obtain ⟨e1, rfl⟩ := OV3.enc_dec hw hop hix ho
    show some (Kind.f, o.enc 23 :: ixWords o.ix) = _
    rw [e1]
  · obtain ⟨o, ho, rfl⟩ := Option.map_eq_some_iff.mp h
    obtain ⟨e1, rfl⟩ := OV3.enc_dec hw hop hix ho
    show some (Kind.f, o.enc 24 :: ixWords o.ix) = _
    rw [e1]
  · obtain ⟨o, ho, rfl⟩ := Option.map_eq_some_iff.mp h
    obtain ⟨e1, rfl⟩ := OV3.enc_dec hw hop hix ho
    show some (Kind.f, o.enc 25 :: ixWords o.ix) = _
    rw [e1]
  · obtain ⟨o, ho, rfl⟩ := Option.map_eq_some_iff.mp h
    obtain ⟨e1, rfl⟩ := OV3.enc_dec hw hop hix ho
    show some (Kind.f, o.enc 26 :: ixWords o.ix) = _
    rw [e1]
  · obtain ⟨o, ho, rfl⟩ := Option.map_eq_some_iff.mp h
    obtain ⟨e1, rfl⟩ := OV3.enc_dec hw hop hix ho
    show some (Kind.f, o.enc 27 :: ixWords o.ix) = _
    rw [e1]
  · obtain ⟨o, ho, rfl⟩ := Option.map_eq_some_iff.mp h
    obtain ⟨e1, rfl⟩ := OVmov.enc_dec hw hop hix ho
    show some (Kind.f, o.enc 28 :: []) = _
    rw [e1]
    rfl
  · obtain ⟨o, ho, rfl⟩ := Option.map_eq_some_iff.mp h
    obtain ⟨e1, rfl⟩ := OV2.enc_dec hw hop hix ho
    show some (Kind.f, o.enc 29 :: ixWords o.ix) = _
    rw [e1]
  · obtain ⟨o, ho, rfl⟩ := Option.map_eq_some_iff.mp h
    obtain ⟨e1, rfl⟩ := OV3.enc_dec hw hop hix ho
    show some (Kind.f, o.enc 30 :: ixWords o.ix) = _
    rw [e1]
  · obtain ⟨o, ho, rfl⟩ := Option.map_eq_some_iff.mp h
    obtain ⟨e1, rfl⟩ := OVred.enc_dec hw hop hix ho
    show some (Kind.f, o.enc 31 :: []) = _
    rw [e1]
    rfl
  · obtain ⟨o, ho, rfl⟩ := Option.map_eq_some_iff.mp h
    obtain ⟨e1, rfl⟩ := OVred.enc_dec hw hop hix ho
    show some (Kind.f, o.enc 32 :: []) = _
    rw [e1]
    rfl
  · obtain ⟨o, ho, rfl⟩ := Option.map_eq_some_iff.mp h
    obtain ⟨e1, rfl⟩ := OVdot.enc_dec hw hop hix ho
    show some (Kind.f, o.enc 33 :: ixWords o.ix) = _
    rw [e1]
  · obtain ⟨o, ho, rfl⟩ := Option.map_eq_some_iff.mp h
    obtain ⟨e1, rfl⟩ := OVcopy.enc_dec hw hop hix ho
    show some (Kind.f, o.enc 34 :: []) = _
    rw [e1]
    rfl
  · obtain ⟨o, ho, rfl⟩ := Option.map_eq_some_iff.mp h
    obtain ⟨e1, rfl⟩ := OVmem.enc_dec hw hop hix ho
    show some (Kind.f, o.enc 35 :: ixWords o.ix) = _
    rw [e1]
  · obtain ⟨o, ho, rfl⟩ := Option.map_eq_some_iff.mp h
    obtain ⟨e1, rfl⟩ := OVmem.enc_dec hw hop hix ho
    show some (Kind.f, o.enc 36 :: ixWords o.ix) = _
    rw [e1]
  · obtain ⟨o, ho, rfl⟩ := Option.map_eq_some_iff.mp h
    obtain ⟨e1, rfl⟩ := OVgs.enc_dec hw hop hix ho
    show some (Kind.f, o.enc 37 :: []) = _
    rw [e1]
    rfl
  · obtain ⟨o, ho, rfl⟩ := Option.map_eq_some_iff.mp h
    obtain ⟨e1, rfl⟩ := OVgs.enc_dec hw hop hix ho
    show some (Kind.f, o.enc 38 :: []) = _
    rw [e1]
    rfl
  · obtain ⟨o, ho, rfl⟩ := Option.map_eq_some_iff.mp h
    obtain ⟨e1, rfl⟩ := OVldt.enc_dec hw hop hix ho
    show some (Kind.f, o.enc 39 :: ixWords o.ix) = _
    rw [e1]
  · obtain ⟨o, ho, rfl⟩ := Option.map_eq_some_iff.mp h
    obtain ⟨e1, rfl⟩ := OVstt.enc_dec hw hop hix ho
    show some (Kind.f, o.enc 40 :: ixWords o.ix) = _
    rw [e1]
  · obtain ⟨o, ho, rfl⟩ := Option.map_eq_some_iff.mp h
    obtain ⟨e1, rfl⟩ := OQlog.enc_dec hw hop hix ho
    show some (Kind.f, o.enc 41 :: []) = _
    rw [e1]
    rfl
  · obtain ⟨o, ho, rfl⟩ := Option.map_eq_some_iff.mp h
    obtain ⟨e1, rfl⟩ := ODset.enc_dec hw hop hix ho
    show some (Kind.f, o.enc 48 :: ixWords o.ix) = _
    rw [e1]
  · obtain ⟨o, ho, rfl⟩ := Option.map_eq_some_iff.mp h
    obtain ⟨e1, rfl⟩ := ODsmp.enc_dec hw hop hix ho
    show some (Kind.f, o.enc 49 :: []) = _
    rw [e1]
    rfl
  · obtain ⟨o, ho, rfl⟩ := Option.map_eq_some_iff.mp h
    obtain ⟨e1, rfl⟩ := ODmem.enc_dec hw hop hix ho
    show some (Kind.f, o.enc 50 :: ixWords o.ix) = _
    rw [e1]
  · obtain ⟨o, ho, rfl⟩ := Option.map_eq_some_iff.mp h
    obtain ⟨e1, rfl⟩ := ODmem.enc_dec hw hop hix ho
    show some (Kind.f, o.enc 51 :: ixWords o.ix) = _
    rw [e1]
  · obtain ⟨o, ho, rfl⟩ := Option.map_eq_some_iff.mp h
    obtain ⟨e1, rfl⟩ := ODbin.enc_dec hw hop hix ho
    show some (Kind.f, o.enc 52 :: []) = _
    rw [e1]
    rfl
  · obtain ⟨o, ho, rfl⟩ := Option.map_eq_some_iff.mp h
    obtain ⟨e1, rfl⟩ := ODbin.enc_dec hw hop hix ho
    show some (Kind.f, o.enc 53 :: []) = _
    rw [e1]
    rfl
  · obtain ⟨o, ho, rfl⟩ := Option.map_eq_some_iff.mp h
    obtain ⟨e1, rfl⟩ := ODbin.enc_dec hw hop hix ho
    show some (Kind.f, o.enc 54 :: []) = _
    rw [e1]
    rfl
  · obtain ⟨o, ho, rfl⟩ := Option.map_eq_some_iff.mp h
    obtain ⟨e1, rfl⟩ := ODbin.enc_dec hw hop hix ho
    show some (Kind.f, o.enc 55 :: []) = _
    rw [e1]
    rfl
  · obtain ⟨o, ho, rfl⟩ := Option.map_eq_some_iff.mp h
    obtain ⟨e1, rfl⟩ := ODbin.enc_dec hw hop hix ho
    show some (Kind.f, o.enc 56 :: []) = _
    rw [e1]
    rfl
  · obtain ⟨o, ho, rfl⟩ := Option.map_eq_some_iff.mp h
    obtain ⟨e1, rfl⟩ := ODaff.enc_dec hw hop hix ho
    show some (Kind.f, o.enc 57 :: ixWords o.ix) = _
    rw [e1]
  · obtain ⟨o, ho, rfl⟩ := Option.map_eq_some_iff.mp h
    obtain ⟨e1, rfl⟩ := ODmix.enc_dec hw hop hix ho
    show some (Kind.f, o.enc 58 :: ixWords o.ix) = _
    rw [e1]
  · obtain ⟨o, ho, rfl⟩ := Option.map_eq_some_iff.mp h
    obtain ⟨e1, rfl⟩ := ODaff.enc_dec hw hop hix ho
    show some (Kind.f, o.enc 59 :: ixWords o.ix) = _
    rw [e1]
  · obtain ⟨o, ho, rfl⟩ := Option.map_eq_some_iff.mp h
    obtain ⟨e1, rfl⟩ := ODmom.enc_dec hw hop hix ho
    show some (Kind.f, o.enc 60 :: []) = _
    rw [e1]
    rfl
  · obtain ⟨o, ho, rfl⟩ := Option.map_eq_some_iff.mp h
    obtain ⟨e1, rfl⟩ := ODqnt.enc_dec hw hop hix ho
    show some (Kind.f, o.enc 61 :: ixWords o.ix) = _
    rw [e1]
  · obtain ⟨o, ho, rfl⟩ := Option.map_eq_some_iff.mp h
    obtain ⟨e1, rfl⟩ := ODqnt.enc_dec hw hop hix ho
    show some (Kind.f, o.enc 62 :: ixWords o.ix) = _
    rw [e1]
  · obtain ⟨o, ho, rfl⟩ := Option.map_eq_some_iff.mp h
    obtain ⟨e1, rfl⟩ := ODtag.enc_dec hw hop hix ho
    show some (Kind.f, o.enc 63 :: []) = _
    rw [e1]
    rfl
  · cases h

theorem decodeEt_encode {op w : Nat} {ix : Option W32} {i : Instr} (hw : w < 2 ^ 32) (hop : bits w 26 20 = op)
    (hix : bits w 27 27 = boolCode ix.isSome) (h : decodeEt op w ix = some i) :
    encode i = some (.et, w :: ixWords ix) := by
  unfold decodeEt at h
  split at h
  · obtain ⟨o, ho, rfl⟩ := Option.map_eq_some_iff.mp h
    obtain ⟨e1, rfl⟩ := OGS.enc_dec hw hop hix ho
    show some (Kind.et, o.enc 1 :: []) = _
    rw [e1]
    rfl
  · obtain ⟨o, ho, rfl⟩ := Option.map_eq_some_iff.mp h
    obtain ⟨e1, rfl⟩ := OGS.enc_dec hw hop hix ho
    show some (Kind.et, o.enc 2 :: []) = _
    rw [e1]
    rfl
  · obtain ⟨o, ho, rfl⟩ := Option.map_eq_some_iff.mp h
    obtain ⟨e1, rfl⟩ := OGS.enc_dec hw hop hix ho
    show some (Kind.et, o.enc 3 :: []) = _
    rw [e1]
    rfl
  · obtain ⟨o, ho, rfl⟩ := Option.map_eq_some_iff.mp h
    obtain ⟨e1, rfl⟩ := ODep.enc_dec hw hop hix ho
    show some (Kind.et, o.enc 4 :: []) = _
    rw [e1]
    rfl
  · obtain ⟨o, ho, rfl⟩ := Option.map_eq_some_iff.mp h
    obtain ⟨e1, rfl⟩ := ODep.enc_dec hw hop hix ho
    show some (Kind.et, o.enc 5 :: []) = _
    rw [e1]
    rfl
  · obtain ⟨o, ho, rfl⟩ := Option.map_eq_some_iff.mp h
    obtain ⟨e1, rfl⟩ := ODep.enc_dec hw hop hix ho
    show some (Kind.et, o.enc 6 :: []) = _
    rw [e1]
    rfl
  · obtain ⟨o, ho, rfl⟩ := Option.map_eq_some_iff.mp h
    obtain ⟨e1, rfl⟩ := OMark.enc_dec hw hop hix ho
    show some (Kind.et, o.enc 7 :: []) = _
    rw [e1]
    rfl
  · obtain ⟨o, ho, rfl⟩ := Option.map_eq_some_iff.mp h
    obtain ⟨e1, rfl⟩ := OMark.enc_dec hw hop hix ho
    show some (Kind.et, o.enc 8 :: []) = _
    rw [e1]
    rfl
  · obtain ⟨o, ho, rfl⟩ := Option.map_eq_some_iff.mp h
    obtain ⟨e1, rfl⟩ := OMake.enc_dec hw hop hix ho
    show some (Kind.et, o.enc 9 :: []) = _
    rw [e1]
    rfl
  · obtain ⟨o, ho, rfl⟩ := Option.map_eq_some_iff.mp h
    obtain ⟨e1, rfl⟩ := OMake.enc_dec hw hop hix ho
    show some (Kind.et, o.enc 10 :: []) = _
    rw [e1]
    rfl
  · obtain ⟨o, ho, rfl⟩ := Option.map_eq_some_iff.mp h
    obtain ⟨e1, rfl⟩ := OShape.enc_dec hw hop hix ho
    show some (Kind.et, o.enc 11 :: []) = _
    rw [e1]
    rfl
  · obtain ⟨o, ho, rfl⟩ := Option.map_eq_some_iff.mp h
    obtain ⟨e1, rfl⟩ := OJoin.enc_dec hw hop hix ho
    show some (Kind.et, o.enc 12 :: []) = _
    rw [e1]
    rfl
  · obtain ⟨o, ho, rfl⟩ := Option.map_eq_some_iff.mp h
    obtain ⟨e1, rfl⟩ := OFromv.enc_dec hw hop hix ho
    show some (Kind.et, o.enc 13 :: []) = _
    rw [e1]
    rfl
  · obtain ⟨o, ho, rfl⟩ := Option.map_eq_some_iff.mp h
    obtain ⟨e1, rfl⟩ := OTov.enc_dec hw hop hix ho
    show some (Kind.et, o.enc 14 :: []) = _
    rw [e1]
    rfl
  · cases h

theorem decodeEm_encode {op w : Nat} {ix : Option W32} {i : Instr} (hw : w < 2 ^ 32) (hop : bits w 26 20 = op)
    (hix : bits w 27 27 = boolCode ix.isSome) (h : decodeEm op w ix = some i) :
    encode i = some (.em, w :: ixWords ix) := by
  unfold decodeEm at h
  split at h
  · obtain ⟨o, ho, rfl⟩ := Option.map_eq_some_iff.mp h
    obtain ⟨e1, rfl⟩ := OG.enc_dec hw hop hix ho
    show some (Kind.em, o.enc 1 :: []) = _
    rw [e1]
    rfl
  · obtain ⟨o, ho, rfl⟩ := Option.map_eq_some_iff.mp h
    obtain ⟨e1, rfl⟩ := OG.enc_dec hw hop hix ho
    show some (Kind.em, o.enc 2 :: []) = _
    rw [e1]
    rfl
  · obtain ⟨o, ho, rfl⟩ := Option.map_eq_some_iff.mp h
    obtain ⟨e1, rfl⟩ := OG.enc_dec hw hop hix ho
    show some (Kind.em, o.enc 3 :: []) = _
    rw [e1]
    rfl
  · obtain ⟨o, ho, rfl⟩ := Option.map_eq_some_iff.mp h
    obtain ⟨e1, rfl⟩ := OGS.enc_dec hw hop hix ho
    show some (Kind.em, o.enc 4 :: []) = _
    rw [e1]
    rfl
  · obtain ⟨o, ho, rfl⟩ := Option.map_eq_some_iff.mp h
    obtain ⟨e1, rfl⟩ := OG.enc_dec hw hop hix ho
    show some (Kind.em, o.enc 5 :: []) = _
    rw [e1]
    rfl
  · cases h

theorem decodeEv_encode {op w : Nat} {ix : Option W32} {i : Instr} (hw : w < 2 ^ 32) (hop : bits w 26 20 = op)
    (hix : bits w 27 27 = boolCode ix.isSome) (h : decodeEv op w ix = some i) :
    encode i = some (.ev, w :: ixWords ix) := by
  unfold decodeEv at h
  split at h
  · obtain ⟨o, ho, rfl⟩ := Option.map_eq_some_iff.mp h
    obtain ⟨e1, rfl⟩ := OG.enc_dec hw hop hix ho
    show some (Kind.ev, o.enc 1 :: []) = _
    rw [e1]
    rfl
  · obtain ⟨o, ho, rfl⟩ := Option.map_eq_some_iff.mp h
    obtain ⟨e1, rfl⟩ := OG.enc_dec hw hop hix ho
    show some (Kind.ev, o.enc 2 :: []) = _
    rw [e1]
    rfl
  · obtain ⟨o, ho, rfl⟩ := Option.map_eq_some_iff.mp h
    obtain ⟨e1, rfl⟩ := OG.enc_dec hw hop hix ho
    show some (Kind.ev, o.enc 3 :: []) = _
    rw [e1]
    rfl
  · obtain ⟨o, ho, rfl⟩ := Option.map_eq_some_iff.mp h
    obtain ⟨e1, rfl⟩ := OG.enc_dec hw hop hix ho
    show some (Kind.ev, o.enc 4 :: []) = _
    rw [e1]
    rfl
  · obtain ⟨o, ho, rfl⟩ := Option.map_eq_some_iff.mp h
    obtain ⟨e1, rfl⟩ := OG.enc_dec hw hop hix ho
    show some (Kind.ev, o.enc 5 :: []) = _
    rw [e1]
    rfl
  · obtain ⟨o, ho, rfl⟩ := Option.map_eq_some_iff.mp h
    obtain ⟨e1, rfl⟩ := OG.enc_dec hw hop hix ho
    show some (Kind.ev, o.enc 6 :: []) = _
    rw [e1]
    rfl
  · obtain ⟨o, ho, rfl⟩ := Option.map_eq_some_iff.mp h
    obtain ⟨e1, rfl⟩ := OG.enc_dec hw hop hix ho
    show some (Kind.ev, o.enc 7 :: []) = _
    rw [e1]
    rfl
  · obtain ⟨o, ho, rfl⟩ := Option.map_eq_some_iff.mp h
    obtain ⟨e1, rfl⟩ := OG.enc_dec hw hop hix ho
    show some (Kind.ev, o.enc 8 :: []) = _
    rw [e1]
    rfl
  · obtain ⟨o, ho, rfl⟩ := Option.map_eq_some_iff.mp h
    obtain ⟨e1, rfl⟩ := OG.enc_dec hw hop hix ho
    show some (Kind.ev, o.enc 9 :: []) = _
    rw [e1]
    rfl
  · obtain ⟨o, ho, rfl⟩ := Option.map_eq_some_iff.mp h
    obtain ⟨e1, rfl⟩ := OG.enc_dec hw hop hix ho
    show some (Kind.ev, o.enc 10 :: []) = _
    rw [e1]
    rfl
  · obtain ⟨o, ho, rfl⟩ := Option.map_eq_some_iff.mp h
    obtain ⟨e1, rfl⟩ := OG.enc_dec hw hop hix ho
    show some (Kind.ev, o.enc 11 :: []) = _
    rw [e1]
    rfl
  · obtain ⟨o, ho, rfl⟩ := Option.map_eq_some_iff.mp h
    obtain ⟨e1, rfl⟩ := OG.enc_dec hw hop hix ho
    show some (Kind.ev, o.enc 12 :: []) = _
    rw [e1]
    rfl
  · obtain ⟨o, ho, rfl⟩ := Option.map_eq_some_iff.mp h
    obtain ⟨e1, rfl⟩ := OShape.enc_dec hw hop hix ho
    show some (Kind.ev, o.enc 13 :: []) = _
    rw [e1]
    rfl
  · obtain ⟨o, ho, rfl⟩ := Option.map_eq_some_iff.mp h
    obtain ⟨e1, rfl⟩ := OTcvt.enc_dec hw hop hix ho
    show some (Kind.ev, o.enc 14 :: []) = _
    rw [e1]
    rfl
  · obtain ⟨o, ho, rfl⟩ := Option.map_eq_some_iff.mp h
    obtain ⟨e1, rfl⟩ := OG.enc_dec hw hop hix ho
    show some (Kind.ev, o.enc 15 :: []) = _
    rw [e1]
    rfl
  · cases h

theorem decodeEc_encode {op w : Nat} {ix : Option W32} {i : Instr} (hw : w < 2 ^ 32) (hop : bits w 26 20 = op)
    (hix : bits w 27 27 = boolCode ix.isSome) (h : decodeEc op w ix = some i) :
    encode i = some (.ec, w :: ixWords ix) := by
  unfold decodeEc at h
  split at h
  · obtain ⟨o, ho, rfl⟩ := Option.map_eq_some_iff.mp h
    obtain ⟨e1, rfl⟩ := OGS.enc_dec hw hop hix ho
    show some (Kind.ec, o.enc 1 :: []) = _
    rw [e1]
    rfl
  · obtain ⟨o, ho, rfl⟩ := Option.map_eq_some_iff.mp h
    obtain ⟨e1, rfl⟩ := OGS.enc_dec hw hop hix ho
    show some (Kind.ec, o.enc 2 :: []) = _
    rw [e1]
    rfl
  · obtain ⟨o, ho, rfl⟩ := Option.map_eq_some_iff.mp h
    obtain ⟨e1, rfl⟩ := OGS.enc_dec hw hop hix ho
    show some (Kind.ec, o.enc 3 :: []) = _
    rw [e1]
    rfl
  · rcases orElse_cases h with h | h
    · obtain ⟨o, ho, rfl⟩ := Option.map_eq_some_iff.mp h
      obtain ⟨e1, rfl⟩ := OBlk.enc_dec hw hop hix ho
      show some (Kind.ec, o.enc 4 :: []) = _
      rw [e1]
      rfl
    · obtain ⟨o, ho, rfl⟩ := Option.map_eq_some_iff.mp h
      obtain ⟨e1, rfl⟩ := OBlkRel.enc_dec hw hop hix ho
      show some (Kind.ec, o.enc 4 :: []) = _
      rw [e1]
      rfl
  · obtain ⟨o, ho, rfl⟩ := Option.map_eq_some_iff.mp h
    obtain ⟨e1, rfl⟩ := OSort.enc_dec hw hop hix ho
    show some (Kind.ec, o.enc 5 :: []) = _
    rw [e1]
    rfl
  · obtain ⟨o, ho, rfl⟩ := Option.map_eq_some_iff.mp h
    obtain ⟨e1, rfl⟩ := OGS.enc_dec hw hop hix ho
    show some (Kind.ec, o.enc 6 :: []) = _
    rw [e1]
    rfl
  · cases h

theorem decodeEk_encode {op w : Nat} {ix : Option W32} {i : Instr} (hw : w < 2 ^ 32) (hop : bits w 26 20 = op)
    (hix : bits w 27 27 = boolCode ix.isSome) (h : decodeEk op w ix = some i) :
    encode i = some (.ek, w :: ixWords ix) := by
  unfold decodeEk at h
  split at h
  · obtain ⟨o, ho, rfl⟩ := Option.map_eq_some_iff.mp h
    obtain ⟨e1, rfl⟩ := OKar.enc_dec hw hop hix ho
    show some (Kind.ek, o.enc 1 :: []) = _
    rw [e1]
    rfl
  · obtain ⟨o, ho, rfl⟩ := Option.map_eq_some_iff.mp h
    obtain ⟨e1, rfl⟩ := OKag.enc_dec hw hop hix ho
    show some (Kind.ek, o.enc 2 :: []) = _
    rw [e1]
    rfl
  · obtain ⟨o, ho, rfl⟩ := Option.map_eq_some_iff.mp h
    obtain ⟨e1, rfl⟩ := OKar.enc_dec hw hop hix ho
    show some (Kind.ek, o.enc 3 :: []) = _
    rw [e1]
    rfl
  · obtain ⟨o, ho, rfl⟩ := Option.map_eq_some_iff.mp h
    obtain ⟨e1, rfl⟩ := OKag.enc_dec hw hop hix ho
    show some (Kind.ek, o.enc 4 :: []) = _
    rw [e1]
    rfl
  · obtain ⟨o, ho, rfl⟩ := Option.map_eq_some_iff.mp h
    obtain ⟨e1, rfl⟩ := OGS.enc_dec hw hop hix ho
    show some (Kind.ek, o.enc 5 :: []) = _
    rw [e1]
    rfl
  · obtain ⟨o, ho, rfl⟩ := Option.map_eq_some_iff.mp h
    obtain ⟨e1, rfl⟩ := OKrecv.enc_dec hw hop hix ho
    show some (Kind.ek, o.enc 6 :: []) = _
    rw [e1]
    rfl
  · obtain ⟨o, ho, rfl⟩ := Option.map_eq_some_iff.mp h
    obtain ⟨e1, rfl⟩ := OKd.enc_dec hw hop hix ho
    show some (Kind.ek, o.enc 7 :: []) = _
    rw [e1]
    rfl
  · obtain ⟨o, ho, rfl⟩ := Option.map_eq_some_iff.mp h
    obtain ⟨e1, rfl⟩ := OTok.enc_dec hw hop hix ho
    show some (Kind.ek, o.enc 8 :: []) = _
    rw [e1]
    rfl
  · obtain ⟨o, ho, rfl⟩ := Option.map_eq_some_iff.mp h
    obtain ⟨e1, rfl⟩ := OG.enc_dec hw hop hix ho
    show some (Kind.ek, o.enc 9 :: []) = _
    rw [e1]
    rfl
  · obtain ⟨o, ho, rfl⟩ := Option.map_eq_some_iff.mp h
    obtain ⟨e1, rfl⟩ := OJoinG.enc_dec hw hop hix ho
    show some (Kind.ek, o.enc 10 :: []) = _
    rw [e1]
    rfl
  · obtain ⟨o, ho, rfl⟩ := Option.map_eq_some_iff.mp h
    obtain ⟨e1, rfl⟩ := OG.enc_dec hw hop hix ho
    show some (Kind.ek, o.enc 11 :: []) = _
    rw [e1]
    rfl
  · obtain ⟨o, ho, rfl⟩ := Option.map_eq_some_iff.mp h
    obtain ⟨e1, rfl⟩ := OG.enc_dec hw hop hix ho
    show some (Kind.ek, o.enc 12 :: []) = _
    rw [e1]
    rfl
  · obtain ⟨o, ho, rfl⟩ := Option.map_eq_some_iff.mp h
    obtain ⟨e1, rfl⟩ := OKd.enc_dec hw hop hix ho
    show some (Kind.ek, o.enc 13 :: []) = _
    rw [e1]
    rfl
  · obtain ⟨o, ho, rfl⟩ := Option.map_eq_some_iff.mp h
    obtain ⟨e1, rfl⟩ := OG.enc_dec hw hop hix ho
    show some (Kind.ek, o.enc 14 :: []) = _
    rw [e1]
    rfl
  · obtain ⟨o, ho, rfl⟩ := Option.map_eq_some_iff.mp h
    obtain ⟨e1, rfl⟩ := OKd.enc_dec hw hop hix ho
    show some (Kind.ek, o.enc 15 :: []) = _
    rw [e1]
    rfl
  · obtain ⟨o, ho, rfl⟩ := Option.map_eq_some_iff.mp h
    obtain ⟨e1, rfl⟩ := OG.enc_dec hw hop hix ho
    show some (Kind.ek, o.enc 16 :: []) = _
    rw [e1]
    rfl
  · obtain ⟨o, ho, rfl⟩ := Option.map_eq_some_iff.mp h
    obtain ⟨e1, rfl⟩ := OG.enc_dec hw hop hix ho
    show some (Kind.ek, o.enc 17 :: []) = _
    rw [e1]
    rfl
  · obtain ⟨o, ho, rfl⟩ := Option.map_eq_some_iff.mp h
    obtain ⟨e1, rfl⟩ := OG.enc_dec hw hop hix ho
    show some (Kind.ek, o.enc 18 :: []) = _
    rw [e1]
    rfl
  · obtain ⟨o, ho, rfl⟩ := Option.map_eq_some_iff.mp h
    obtain ⟨e1, rfl⟩ := OMgrd.enc_dec hw hop hix ho
    show some (Kind.ek, o.enc 19 :: []) = _
    rw [e1]
    rfl
  · obtain ⟨o, ho, rfl⟩ := Option.map_eq_some_iff.mp h
    obtain ⟨e1, rfl⟩ := OTlbi.enc_dec hw hop hix ho
    show some (Kind.ek, o.enc 20 :: []) = _
    rw [e1]
    rfl
  · obtain ⟨o, ho, rfl⟩ := Option.map_eq_some_iff.mp h
    obtain ⟨e1, rfl⟩ := OG.enc_dec hw hop hix ho
    show some (Kind.ek, o.enc 21 :: []) = _
    rw [e1]
    rfl
  · obtain ⟨o, ho, rfl⟩ := Option.map_eq_some_iff.mp h
    obtain ⟨e1, rfl⟩ := OGS.enc_dec hw hop hix ho
    show some (Kind.ek, o.enc 22 :: []) = _
    rw [e1]
    rfl
  · cases h

end Sys2Proof
end

