-- ==== Sys2Proof/Laws/Memory.lean ====
section
/-! SUPPORT. Memory: a read after a write, the canonical form, and that every operation on memory keeps it. -/

namespace Sys2Proof.Machine

theorem cellsWf_weaken (l : List Host.Cell) (y : Option Nat) (h : cellsWf y l = true) : cellsWf none l = true := by
  cases l with
  | nil => rfl
  | cons c l => cases y <;> simp_all [cellsWf]

theorem cellsWf_cons (x : Nat) (b : Byte) (l : List Host.Cell) (lo : Option Nat) :
    cellsWf lo ((x, b) :: l) = true ↔ (∀ y, lo = some y → y < x) ∧ b ≠ unlisted ∧ cellsWf (some x) l = true := by
  cases lo <;> simp [cellsWf, and_assoc]

theorem cellsWf_mono (l : List Host.Cell) (x y : Nat) (hxy : y ≤ x) (h : cellsWf (some x) l = true) : cellsWf (some y) l = true := by
  cases l with
  | nil => rfl
  | cons c l =>
    rw [show c = (c.1, c.2) from rfl, cellsWf_cons] at h ⊢
    refine ⟨?_, h.2⟩
    intro z hz; cases hz; have := h.1 x rfl; omega

/-- A byte below the bound of a canonical list reads as unlisted. -/
theorem cellGet_below (l : List Host.Cell) (x a : Nat) (h : cellsWf (some x) l = true) (ha : a ≤ x) : cellGet a l = unlisted := by
  cases l with
  | nil => rfl
  | cons c l =>
    rw [show c = (c.1, c.2) from rfl, cellsWf_cons] at h
    have := h.1 x rfl
    simp only [cellGet]
    rw [if_neg (by omega), if_pos (by omega)]

theorem cellSet_wf (l : List Host.Cell) (a : Nat) (b : Byte) (lo : Option Nat) (h : cellsWf lo l = true)
    (ha : ∀ y, lo = some y → y < a) : cellsWf lo (cellSet a b l) = true := by
  induction l generalizing lo with
  | nil =>
    simp only [cellSet]
    split
    · rfl
    · rename_i hb; rw [cellsWf_cons]; exact ⟨ha, hb, rfl⟩
  | cons c l ih =>
    obtain ⟨x, v⟩ := c
    rw [cellsWf_cons] at h
    simp only [cellSet]
    split
    · rename_i hax
      split
      · rw [cellsWf_cons]; exact h
      · rename_i hb
        rw [cellsWf_cons, cellsWf_cons]
        exact ⟨ha, hb, fun y hy => by cases hy; exact hax, h.2⟩
    · split
      · rename_i hax hx
        subst hx
        split
        · cases lo with
          | none => exact cellsWf_weaken _ _ h.2.2
          | some y => exact cellsWf_mono _ _ _ (Nat.le_of_lt (ha y rfl)) h.2.2
        · rename_i hb; rw [cellsWf_cons]; exact ⟨ha, hb, h.2.2⟩
      · rename_i hax hx
        rw [cellsWf_cons]
        refine ⟨h.1, h.2.1, ih _ h.2.2 ?_⟩
        intro y hy; cases hy; omega

theorem cellGet_cellSet (l : List Host.Cell) (a x : Nat) (b : Byte) (lo : Option Nat) (h : cellsWf lo l = true) :
    cellGet x (cellSet a b l) = if x = a then b else cellGet x l := by
  induction l generalizing lo with
  | nil =>
    simp only [cellSet, cellGet]
    split
    · rename_i hb; simp [cellGet, hb]
    · simp only [cellGet]
      by_cases hx : x = a
      · simp [hx]
      · rw [if_neg (Ne.symm hx), if_neg hx]; split <;> rfl
  | cons c l ih =>
    obtain ⟨y, v⟩ := c
    rw [cellsWf_cons] at h
    have hbelow : ∀ z, z ≤ y → cellGet z l = unlisted := fun z hz => cellGet_below _ _ _ h.2.2 hz
    simp only [cellSet]
    by_cases h1 : a < y
    · rw [if_pos h1]
      by_cases hb : b = unlisted
      · rw [if_pos hb]
        by_cases hx : x = a
        · subst hx; rw [if_pos rfl, hb]; simp only [cellGet]; rw [if_neg (by omega), if_pos h1]
        · rw [if_neg hx]
      · rw [if_neg hb]
        simp only [cellGet]
        by_cases hx : x = a
        · subst hx; simp
        · rw [if_neg (Ne.symm hx), if_neg hx]
          by_cases hxa : x < a
          · rw [if_pos hxa, if_neg (by omega), if_pos (by omega)]
          · rw [if_neg hxa]
    · rw [if_neg h1]
      by_cases h2 : a = y
      · subst h2
        rw [if_pos rfl]
        by_cases hb : b = unlisted
        · rw [if_pos hb]
          by_cases hx : x = a
          · subst hx; rw [if_pos rfl, hbelow _ (Nat.le_refl _), hb]
          · rw [if_neg hx]; simp only [cellGet]; rw [if_neg (Ne.symm hx)]
            by_cases hxa : x < a
            · rw [if_pos hxa, hbelow _ (by omega)]
            · rw [if_neg hxa]
        · rw [if_neg hb]; simp only [cellGet]
          by_cases hx : x = a
          · subst hx; simp
          · rw [if_neg (Ne.symm hx), if_neg hx, if_neg (Ne.symm hx)]
      · rw [if_neg h2]; simp only [cellGet]
        rw [ih _ h.2.2]
        by_cases hx : x = a
        · subst hx; rw [if_neg (by omega), if_neg (by omega), if_pos rfl]; simp
        · simp only [if_neg hx]

/-- Bytes written one after the other from `a`. -/
theorem cellSetAll_wf (bs : List Byte) (a k : Nat) (l : List Host.Cell) (h : cellsWf none l = true) :
    cellsWf none ((bs.zipIdx k).foldl (fun c b => cellSet (a + b.2) b.1 c) l) = true := by
  induction bs generalizing k l with
  | nil => exact h
  | cons b bs ih => exact ih _ _ (cellSet_wf _ _ _ _ h (by simp))

theorem cellGet_cellSetAll (bs : List Byte) (a k x : Nat) (l : List Host.Cell) (h : cellsWf none l = true) :
    cellGet x ((bs.zipIdx k).foldl (fun c b => cellSet (a + b.2) b.1 c) l) =
      if a + k ≤ x ∧ x < a + k + bs.length then bs.getD (x - a - k) 0 else cellGet x l := by
  induction bs generalizing k l with
  | nil => rw [if_neg (by simp only [List.length_nil]; omega)]; rfl
  | cons b bs ih =>
    simp only [List.zipIdx_cons, List.foldl_cons]
    rw [ih _ _ (cellSet_wf _ _ _ _ h (by simp)), cellGet_cellSet _ _ _ _ _ h]
    simp only [List.length_cons]
    by_cases h1 : a + (k + 1) ≤ x ∧ x < a + (k + 1) + bs.length
    · rw [if_pos h1, if_pos (by omega)]
      obtain ⟨i, hi⟩ : ∃ i, x - a - k = i + 1 := ⟨x - a - k - 1, by omega⟩
      have : x - a - (k + 1) = i := by omega
      rw [this, hi]; rfl
    · rw [if_neg h1]
      by_cases h2 : x = a + k
      · subst h2; rw [if_pos rfl, if_pos (by omega)]
        have : a + k - a - k = 0 := by omega
        rw [this]; rfl
      · rw [if_neg h2, if_neg (by omega)]

theorem retag_wf (m : Mem) (l : Nat) (k : Option Byte) (h : m.wf = true) : (m.retag l k).wf = true := by
  unfold Mem.retag
  simp only []
  split
  · exact h
  · show cellsWf none _ = true
    generalize List.range 64 = r
    have h' : cellsWf none m.cells = true := h
    revert h'
    generalize m.cells = c
    induction r generalizing c with
    | nil => exact id
    | cons i r ih => intro hc; exact ih _ (cellSet_wf _ _ _ _ hc (by simp))

theorem retag_none (m : Mem) (l : Nat) (h : m.tags = []) : m.retag l none = m := by
  simp [Mem.retag, tagOf, h]

theorem retagAll_wf (ls : List Nat) (m : Mem) (k : Option Byte) (h : m.wf = true) :
    (ls.foldl (fun m l => m.retag l k) m).wf = true := by
  induction ls generalizing m with
  | nil => exact h
  | cons l ls ih => exact ih _ (retag_wf _ _ _ h)

theorem retagAll_none (ls : List Nat) (m : Mem) (h : m.tags = []) : ls.foldl (fun m l => m.retag l none) m = m := by
  induction ls with
  | nil => rfl
  | cons l ls ih => rw [List.foldl_cons, retag_none _ _ h, ih]

theorem putDev_wf (m : Mem) (k : Option Byte) (pa : Nat) (bs : List Byte) (t : Nat) (h : m.wf = true) :
    (m.putDev k pa bs t).wf = true :=
  cellSetAll_wf bs pa 0 _ (retagAll_wf _ _ _ h)

/-- Unencrypted bytes made visible device-wide are what memory holds there, and every other byte is as before. -/
theorem putDev_get (m : Mem) (pa x : Nat) (bs : List Byte) (t : Nat) (h : m.wf = true) (ht : m.tags = []) :
    cellGet x (m.putDev none pa bs t).cells =
      if pa ≤ x ∧ x < pa + bs.length then bs.getD (x - pa) 0 else cellGet x m.cells := by
  have := cellGet_cellSetAll bs pa 0 x m.cells h
  unfold Mem.putDev
  simp only [retagAll_none _ _ ht]
  simpa using this

theorem setLine_cells (m : Mem) (l : Level) (i x w r : Nat) (u : Option (Nat × Nat)) : (m.setLine l i x w r u).cells = m.cells := rfl

theorem enter_frame (m : Mem) (l : Level) (i pa n t : Nat) (u : Option (Nat × Nat)) :
    ∃ ls, m.enter l i pa n t u = { m with lines := ls } := by
  unfold Mem.enter
  generalize linesOf pa n = xs
  induction xs generalizing m with
  | nil => exact ⟨_, rfl⟩
  | cons x xs ih =>
    obtain ⟨ls, h⟩ := ih (m.setLine l i x t t u)
    exact ⟨ls, by rw [List.foldl_cons, h]; rfl⟩

theorem lease_frame (m : Mem) (l : Level) (i pa n t : Nat) (u : Option (Nat × Nat)) :
    ∃ ls, m.lease l i pa n t u = { m with lines := ls } := by
  unfold Mem.lease
  generalize linesOf pa n = xs
  induction xs generalizing m with
  | nil => exact ⟨_, rfl⟩
  | cons x xs ih =>
    obtain ⟨ls, h⟩ := ih (m.setLine l i x (m.wts l i x) (max (m.rts l i x) (t + Config.lease)) u)
    exact ⟨ls, by rw [List.foldl_cons, h]; rfl⟩

theorem enter_wf (m : Mem) (l : Level) (i pa n t : Nat) (u : Option (Nat × Nat)) (h : m.wf = true) : (m.enter l i pa n t u).wf = true := by
  obtain ⟨ls, e⟩ := enter_frame m l i pa n t u; rw [e]; exact h

theorem lease_wf (m : Mem) (l : Level) (i pa n t : Nat) (u : Option (Nat × Nat)) (h : m.wf = true) : (m.lease l i pa n t u).wf = true := by
  obtain ⟨ls, e⟩ := lease_frame m l i pa n t u; rw [e]; exact h

theorem write_wf (m : Mem) (l : Level) (task core : Nat) (k : Option Byte) (asid : Byte) (w : WrAs) (pa : Nat) (bs : List Byte)
    (h : m.wf = true) : (m.write l task core k asid w pa bs).wf = true := by
  unfold Mem.write
  simp only []
  split
  · exact putDev_wf _ _ _ _ _ (enter_wf _ _ _ _ _ _ _ h)
  · exact enter_wf _ _ _ _ _ _ _ h

theorem enterDev_wf (m : Mem) (w : Wr) (t : Nat) (h : m.wf = true) : (m.enterDev w t).wf = true :=
  putDev_wf m w.key w.pa w.bytes t h

/-- A narrower write that becomes visible device-wide gives memory its bytes, and no other byte changes. -/
theorem enterDev_get (m : Mem) (w : Wr) (x t : Nat) (h : m.wf = true) (ht : m.tags = []) (hk : w.key = none) :
    cellGet x (m.enterDev w t).cells =
      if w.pa ≤ x ∧ x < w.pa + w.bytes.length then w.bytes.getD (x - w.pa) 0 else cellGet x m.cells := by
  have := putDev_get m w.pa x w.bytes t h ht
  rw [← hk] at this
  exact this

theorem hwWrite_wf (m : Mem) (k : Option Byte) (pa : Nat) (bs : List Byte) (h : m.wf = true) : (m.hwWrite k pa bs).wf = true :=
  putDev_wf _ _ _ _ _ (enter_wf _ _ _ _ _ _ _ h)

/-- A hardware write without encryption: its bytes are read back, and no other byte changes. -/
theorem hwWrite_get (m : Mem) (pa x : Nat) (bs : List Byte) (h : m.wf = true) (ht : m.tags = []) :
    cellGet x (m.hwWrite none pa bs).cells =
      if pa ≤ x ∧ x < pa + bs.length then bs.getD (x - pa) 0 else cellGet x m.cells := by
  unfold Mem.hwWrite
  obtain ⟨ls, e⟩ := enter_frame m 4 0 pa bs.length (m.rtsRange 4 0 pa bs.length + 1) none
  simp only [e]
  exact putDev_get _ _ _ _ _ h ht

/-- A device-wide write without encryption: its bytes are what memory holds, and no other byte changes. -/
theorem write_get (m : Mem) (task core : Nat) (asid : Byte) (w : WrAs) (pa x : Nat) (bs : List Byte)
    (h : m.wf = true) (ht : m.tags = []) :
    cellGet x (m.write 4 task core none asid w pa bs).cells =
      if pa ≤ x ∧ x < pa + bs.length then bs.getD (x - pa) 0 else cellGet x m.cells := by
  unfold Mem.write
  obtain ⟨ls, e⟩ := enter_frame m 4 (instOf 4 task core) pa bs.length w.t (some (task, core))
  simp only [e]
  rw [if_pos trivial]
  exact putDev_get _ _ _ _ _ h ht

/-- A narrower write changes no byte of memory. -/
theorem write_narrow (m : Mem) (l : Level) (task core : Nat) (k : Option Byte) (asid : Byte) (w : WrAs) (pa : Nat) (bs : List Byte)
    (h : l ≠ 4) : (m.write l task core k asid w pa bs).cells = m.cells := by
  unfold Mem.write
  obtain ⟨ls, e⟩ := enter_frame m l (instOf l task core) pa bs.length w.t (some (task, core))
  simp only [e]
  rw [if_neg h]

theorem filter_wf (f : Host.Cell → Bool) (l : List Host.Cell) (lo : Option Nat) (h : cellsWf lo l = true) :
    cellsWf lo (l.filter f) = true := by
  induction l generalizing lo with
  | nil => rfl
  | cons c l ih =>
    obtain ⟨x, v⟩ := c
    rw [cellsWf_cons] at h
    simp only [List.filter]
    split
    · rw [cellsWf_cons]; exact ⟨h.1, h.2.1, ih _ h.2.2⟩
    · cases lo with
      | none => exact cellsWf_weaken _ _ (ih _ h.2.2)
      | some y => exact ih _ (cellsWf_mono _ _ _ (Nat.le_of_lt (h.1 y rfl)) h.2.2)

theorem filter_get (f : Nat → Bool) (l : List Host.Cell) (lo : Option Nat) (a : Nat) (h : cellsWf lo l = true) :
    cellGet a (l.filter fun x => f x.1) = if f a then cellGet a l else unlisted := by
  induction l generalizing lo with
  | nil => simp [cellGet]
  | cons c l ih =>
    obtain ⟨x, v⟩ := c
    rw [cellsWf_cons] at h
    have ih := ih _ h.2.2
    by_cases hx : f x = true
    · rw [List.filter_cons_of_pos (by exact hx)]; simp only [cellGet]
      by_cases h1 : x = a
      · subst h1; simp [hx]
      · rw [if_neg h1, if_neg h1]
        by_cases h2 : a < x
        · rw [if_pos h2, if_pos h2]; simp
        · rw [if_neg h2, if_neg h2]; exact ih
    · rw [List.filter_cons_of_neg (by exact hx), ih]; simp only [cellGet]
      by_cases h1 : x = a
      · subst h1; simp [hx]
      · rw [if_neg h1]
        by_cases h2 : a < x
        · rw [if_pos h2, cellGet_below _ _ _ h.2.2 (Nat.le_of_lt h2)]
        · rw [if_neg h2]

end Sys2Proof.Machine
end

