-- ==== Sys2Proof/Laws/State.lean ====
section
/-! SUPPORT. One lemma for each field of State and each update: what the update leaves in the field. -/

namespace Sys2Proof.Machine

@[simp] theorem State.withT_t (s : State) (f : Task → Task) : (s.withT f).t = f s.t := rfl
@[simp] theorem State.withT_others (s : State) (f : Task → Task) : (s.withT f).others = s.others := rfl
@[simp] theorem State.withT_nodes (s : State) (f : Task → Task) : (s.withT f).nodes = s.nodes := rfl
@[simp] theorem State.withT_launches (s : State) (f : Task → Task) : (s.withT f).launches = s.launches := rfl
@[simp] theorem State.withT_parts (s : State) (f : Task → Task) : (s.withT f).parts = s.parts := rfl
@[simp] theorem State.withT_cores (s : State) (f : Task → Task) : (s.withT f).cores = s.cores := rfl
@[simp] theorem State.withT_clusters (s : State) (f : Task → Task) : (s.withT f).clusters = s.clusters := rfl
@[simp] theorem State.withT_mem (s : State) (f : Task → Task) : (s.withT f).mem = s.mem := rfl
@[simp] theorem State.withT_colls (s : State) (f : Task → Task) : (s.withT f).colls = s.colls := rfl
@[simp] theorem State.withT_pmap (s : State) (f : Task → Task) : (s.withT f).pmap = s.pmap := rfl
@[simp] theorem State.withT_dev (s : State) (f : Task → Task) : (s.withT f).dev = s.dev := rfl
@[simp] theorem State.withT_host (s : State) (f : Task → Task) : (s.withT f).host = s.host := rfl
@[simp] theorem State.withT_ros (s : State) (f : Task → Task) : (s.withT f).ros = s.ros := rfl
@[simp] theorem State.withT_turn (s : State) (f : Task → Task) : (s.withT f).turn = s.turn := rfl
@[simp] theorem State.withT_fv (s : State) (f : Task → Task) : (s.withT f).fv = s.fv := rfl
@[simp] theorem State.withT_nextKey (s : State) (f : Task → Task) : (s.withT f).nextKey = s.nextKey := rfl

@[simp] theorem State.setT_t (s : State) (x : Task) : (s.setT x).t = x := rfl
@[simp] theorem State.setT_others (s : State) (x : Task) : (s.setT x).others = s.others := rfl
@[simp] theorem State.setT_nodes (s : State) (x : Task) : (s.setT x).nodes = s.nodes := rfl
@[simp] theorem State.setT_launches (s : State) (x : Task) : (s.setT x).launches = s.launches := rfl
@[simp] theorem State.setT_parts (s : State) (x : Task) : (s.setT x).parts = s.parts := rfl
@[simp] theorem State.setT_cores (s : State) (x : Task) : (s.setT x).cores = s.cores := rfl
@[simp] theorem State.setT_clusters (s : State) (x : Task) : (s.setT x).clusters = s.clusters := rfl
@[simp] theorem State.setT_mem (s : State) (x : Task) : (s.setT x).mem = s.mem := rfl
@[simp] theorem State.setT_colls (s : State) (x : Task) : (s.setT x).colls = s.colls := rfl
@[simp] theorem State.setT_pmap (s : State) (x : Task) : (s.setT x).pmap = s.pmap := rfl
@[simp] theorem State.setT_dev (s : State) (x : Task) : (s.setT x).dev = s.dev := rfl
@[simp] theorem State.setT_host (s : State) (x : Task) : (s.setT x).host = s.host := rfl
@[simp] theorem State.setT_ros (s : State) (x : Task) : (s.setT x).ros = s.ros := rfl
@[simp] theorem State.setT_turn (s : State) (x : Task) : (s.setT x).turn = s.turn := rfl
@[simp] theorem State.setT_fv (s : State) (x : Task) : (s.setT x).fv = s.fv := rfl
@[simp] theorem State.setT_nextKey (s : State) (x : Task) : (s.setT x).nextKey = s.nextKey := rfl

@[simp] theorem State.setRun_t (s : State) (r : Run) : (s.setRun r).t = { s.t with run := r } := rfl
@[simp] theorem State.setRun_others (s : State) (r : Run) : (s.setRun r).others = s.others := rfl
@[simp] theorem State.setRun_nodes (s : State) (r : Run) : (s.setRun r).nodes = s.nodes := rfl
@[simp] theorem State.setRun_launches (s : State) (r : Run) : (s.setRun r).launches = s.launches := rfl
@[simp] theorem State.setRun_parts (s : State) (r : Run) : (s.setRun r).parts = s.parts := rfl
@[simp] theorem State.setRun_cores (s : State) (r : Run) : (s.setRun r).cores = s.cores := rfl
@[simp] theorem State.setRun_clusters (s : State) (r : Run) : (s.setRun r).clusters = s.clusters := rfl
@[simp] theorem State.setRun_mem (s : State) (r : Run) : (s.setRun r).mem = s.mem := rfl
@[simp] theorem State.setRun_colls (s : State) (r : Run) : (s.setRun r).colls = s.colls := rfl
@[simp] theorem State.setRun_pmap (s : State) (r : Run) : (s.setRun r).pmap = s.pmap := rfl
@[simp] theorem State.setRun_dev (s : State) (r : Run) : (s.setRun r).dev = s.dev := rfl
@[simp] theorem State.setRun_host (s : State) (r : Run) : (s.setRun r).host = s.host := rfl
@[simp] theorem State.setRun_ros (s : State) (r : Run) : (s.setRun r).ros = s.ros := rfl
@[simp] theorem State.setRun_turn (s : State) (r : Run) : (s.setRun r).turn = s.turn := rfl
@[simp] theorem State.setRun_fv (s : State) (r : Run) : (s.setRun r).fv = s.fv := rfl
@[simp] theorem State.setRun_nextKey (s : State) (r : Run) : (s.setRun r).nextKey = s.nextKey := rfl

@[simp] theorem State.hold_t (s : State) : (s.hold).t = { s.t with run := .held } := rfl
@[simp] theorem State.hold_others (s : State) : (s.hold).others = s.others := rfl
@[simp] theorem State.hold_nodes (s : State) : (s.hold).nodes = s.nodes := rfl
@[simp] theorem State.hold_launches (s : State) : (s.hold).launches = s.launches := rfl
@[simp] theorem State.hold_parts (s : State) : (s.hold).parts = s.parts := rfl
@[simp] theorem State.hold_cores (s : State) : (s.hold).cores = s.cores := rfl
@[simp] theorem State.hold_clusters (s : State) : (s.hold).clusters = s.clusters := rfl
@[simp] theorem State.hold_mem (s : State) : (s.hold).mem = s.mem := rfl
@[simp] theorem State.hold_colls (s : State) : (s.hold).colls = s.colls := rfl
@[simp] theorem State.hold_pmap (s : State) : (s.hold).pmap = s.pmap := rfl
@[simp] theorem State.hold_dev (s : State) : (s.hold).dev = s.dev := rfl
@[simp] theorem State.hold_host (s : State) : (s.hold).host = s.host := rfl
@[simp] theorem State.hold_ros (s : State) : (s.hold).ros = s.ros := rfl
@[simp] theorem State.hold_turn (s : State) : (s.hold).turn = s.turn := rfl
@[simp] theorem State.hold_fv (s : State) : (s.hold).fv = s.fv := rfl
@[simp] theorem State.hold_nextKey (s : State) : (s.hold).nextKey = s.nextKey := rfl

@[simp] theorem State.freeze_t (s : State) (f : Freeze) : (s.freeze f).t = { s.t with frz := some f } := rfl
@[simp] theorem State.freeze_others (s : State) (f : Freeze) : (s.freeze f).others = s.others := rfl
@[simp] theorem State.freeze_nodes (s : State) (f : Freeze) : (s.freeze f).nodes = s.nodes := rfl
@[simp] theorem State.freeze_launches (s : State) (f : Freeze) : (s.freeze f).launches = s.launches := rfl
@[simp] theorem State.freeze_parts (s : State) (f : Freeze) : (s.freeze f).parts = s.parts := rfl
@[simp] theorem State.freeze_cores (s : State) (f : Freeze) : (s.freeze f).cores = s.cores := rfl
@[simp] theorem State.freeze_clusters (s : State) (f : Freeze) : (s.freeze f).clusters = s.clusters := rfl
@[simp] theorem State.freeze_mem (s : State) (f : Freeze) : (s.freeze f).mem = s.mem := rfl
@[simp] theorem State.freeze_colls (s : State) (f : Freeze) : (s.freeze f).colls = s.colls := rfl
@[simp] theorem State.freeze_pmap (s : State) (f : Freeze) : (s.freeze f).pmap = s.pmap := rfl
@[simp] theorem State.freeze_dev (s : State) (f : Freeze) : (s.freeze f).dev = s.dev := rfl
@[simp] theorem State.freeze_host (s : State) (f : Freeze) : (s.freeze f).host = s.host := rfl
@[simp] theorem State.freeze_ros (s : State) (f : Freeze) : (s.freeze f).ros = s.ros := rfl
@[simp] theorem State.freeze_turn (s : State) (f : Freeze) : (s.freeze f).turn = s.turn := rfl
@[simp] theorem State.freeze_fv (s : State) (f : Freeze) : (s.freeze f).fv = s.fv := rfl
@[simp] theorem State.freeze_nextKey (s : State) (f : Freeze) : (s.freeze f).nextKey = s.nextKey := rfl

@[simp] theorem State.fly_t (s : State) (d : FDst) (lat : Nat) (v : FVal) (o : Origin) :
    (s.fly d lat v o).t = { s.t with
      flights := s.t.flights ++ [{ id := s.t.seq, dst := d, iss := s.t.bidx, land := s.t.bidx + lat, val := v, org := o }]
      seq := s.t.seq + 1 } := rfl
@[simp] theorem State.fly_others (s : State) (d : FDst) (lat : Nat) (v : FVal) (o : Origin) :
    (s.fly d lat v o).others = s.others := rfl
@[simp] theorem State.fly_nodes (s : State) (d : FDst) (lat : Nat) (v : FVal) (o : Origin) :
    (s.fly d lat v o).nodes = s.nodes := rfl
@[simp] theorem State.fly_launches (s : State) (d : FDst) (lat : Nat) (v : FVal) (o : Origin) :
    (s.fly d lat v o).launches = s.launches := rfl
@[simp] theorem State.fly_parts (s : State) (d : FDst) (lat : Nat) (v : FVal) (o : Origin) :
    (s.fly d lat v o).parts = s.parts := rfl
@[simp] theorem State.fly_cores (s : State) (d : FDst) (lat : Nat) (v : FVal) (o : Origin) :
    (s.fly d lat v o).cores = s.cores := rfl
@[simp] theorem State.fly_clusters (s : State) (d : FDst) (lat : Nat) (v : FVal) (o : Origin) :
    (s.fly d lat v o).clusters = s.clusters := rfl
@[simp] theorem State.fly_mem (s : State) (d : FDst) (lat : Nat) (v : FVal) (o : Origin) :
    (s.fly d lat v o).mem = s.mem := rfl
@[simp] theorem State.fly_colls (s : State) (d : FDst) (lat : Nat) (v : FVal) (o : Origin) :
    (s.fly d lat v o).colls = s.colls := rfl
@[simp] theorem State.fly_pmap (s : State) (d : FDst) (lat : Nat) (v : FVal) (o : Origin) :
    (s.fly d lat v o).pmap = s.pmap := rfl
@[simp] theorem State.fly_dev (s : State) (d : FDst) (lat : Nat) (v : FVal) (o : Origin) :
    (s.fly d lat v o).dev = s.dev := rfl
@[simp] theorem State.fly_host (s : State) (d : FDst) (lat : Nat) (v : FVal) (o : Origin) :
    (s.fly d lat v o).host = s.host := rfl
@[simp] theorem State.fly_ros (s : State) (d : FDst) (lat : Nat) (v : FVal) (o : Origin) :
    (s.fly d lat v o).ros = s.ros := rfl
@[simp] theorem State.fly_turn (s : State) (d : FDst) (lat : Nat) (v : FVal) (o : Origin) :
    (s.fly d lat v o).turn = s.turn := rfl
@[simp] theorem State.fly_fv (s : State) (d : FDst) (lat : Nat) (v : FVal) (o : Origin) :
    (s.fly d lat v o).fv = s.fv := rfl
@[simp] theorem State.fly_nextKey (s : State) (d : FDst) (lat : Nat) (v : FVal) (o : Origin) :
    (s.fly d lat v o).nextKey = s.nextKey := rfl

@[simp] theorem State.count_t (s : State) (k : Cnt) : (s.count k).t = { s.t with cnt := s.t.cnt.add k } := rfl
@[simp] theorem State.count_others (s : State) (k : Cnt) : (s.count k).others = s.others := rfl
@[simp] theorem State.count_nodes (s : State) (k : Cnt) : (s.count k).nodes = s.nodes := rfl
@[simp] theorem State.count_launches (s : State) (k : Cnt) : (s.count k).launches = s.launches := rfl
@[simp] theorem State.count_parts (s : State) (k : Cnt) : (s.count k).parts = s.parts := rfl
@[simp] theorem State.count_cores (s : State) (k : Cnt) : (s.count k).cores = s.cores := rfl
@[simp] theorem State.count_clusters (s : State) (k : Cnt) : (s.count k).clusters = s.clusters := rfl
@[simp] theorem State.count_mem (s : State) (k : Cnt) : (s.count k).mem = s.mem := rfl
@[simp] theorem State.count_colls (s : State) (k : Cnt) : (s.count k).colls = s.colls := rfl
@[simp] theorem State.count_pmap (s : State) (k : Cnt) : (s.count k).pmap = s.pmap := rfl
@[simp] theorem State.count_dev (s : State) (k : Cnt) : (s.count k).dev = s.dev := rfl
@[simp] theorem State.count_host (s : State) (k : Cnt) : (s.count k).host = s.host := rfl
@[simp] theorem State.count_ros (s : State) (k : Cnt) : (s.count k).ros = s.ros := rfl
@[simp] theorem State.count_turn (s : State) (k : Cnt) : (s.count k).turn = s.turn := rfl
@[simp] theorem State.count_fv (s : State) (k : Cnt) : (s.count k).fv = s.fv := rfl
@[simp] theorem State.count_nextKey (s : State) (k : Cnt) : (s.count k).nextKey = s.nextKey := rfl

@[simp] theorem State.uncount_t (s : State) (k : Cnt) : (s.uncount k).t = { s.t with cnt := s.t.cnt.sub k } := rfl
@[simp] theorem State.uncount_others (s : State) (k : Cnt) : (s.uncount k).others = s.others := rfl
@[simp] theorem State.uncount_nodes (s : State) (k : Cnt) : (s.uncount k).nodes = s.nodes := rfl
@[simp] theorem State.uncount_launches (s : State) (k : Cnt) : (s.uncount k).launches = s.launches := rfl
@[simp] theorem State.uncount_parts (s : State) (k : Cnt) : (s.uncount k).parts = s.parts := rfl
@[simp] theorem State.uncount_cores (s : State) (k : Cnt) : (s.uncount k).cores = s.cores := rfl
@[simp] theorem State.uncount_clusters (s : State) (k : Cnt) : (s.uncount k).clusters = s.clusters := rfl
@[simp] theorem State.uncount_mem (s : State) (k : Cnt) : (s.uncount k).mem = s.mem := rfl
@[simp] theorem State.uncount_colls (s : State) (k : Cnt) : (s.uncount k).colls = s.colls := rfl
@[simp] theorem State.uncount_pmap (s : State) (k : Cnt) : (s.uncount k).pmap = s.pmap := rfl
@[simp] theorem State.uncount_dev (s : State) (k : Cnt) : (s.uncount k).dev = s.dev := rfl
@[simp] theorem State.uncount_host (s : State) (k : Cnt) : (s.uncount k).host = s.host := rfl
@[simp] theorem State.uncount_ros (s : State) (k : Cnt) : (s.uncount k).ros = s.ros := rfl
@[simp] theorem State.uncount_turn (s : State) (k : Cnt) : (s.uncount k).turn = s.turn := rfl
@[simp] theorem State.uncount_fv (s : State) (k : Cnt) : (s.uncount k).fv = s.fv := rfl
@[simp] theorem State.uncount_nextKey (s : State) (k : Cnt) : (s.uncount k).nextKey = s.nextKey := rfl

@[simp] theorem State.takesTrap_t (s : State) (code need : Nat) :
    (s.takesTrap code need).t = { s.t with
      run := .trapDrain { code := code, need := need, depth := s.t.stk.map.length, addr := s.t.latch.addr
                          ret := s.t.latch.addr, at_ := s.t.bidx } } := rfl
@[simp] theorem State.takesTrap_others (s : State) (code need : Nat) : (s.takesTrap code need).others = s.others := rfl
@[simp] theorem State.takesTrap_nodes (s : State) (code need : Nat) : (s.takesTrap code need).nodes = s.nodes := rfl
@[simp] theorem State.takesTrap_launches (s : State) (code need : Nat) : (s.takesTrap code need).launches = s.launches := rfl
@[simp] theorem State.takesTrap_parts (s : State) (code need : Nat) : (s.takesTrap code need).parts = s.parts := rfl
@[simp] theorem State.takesTrap_cores (s : State) (code need : Nat) : (s.takesTrap code need).cores = s.cores := rfl
@[simp] theorem State.takesTrap_clusters (s : State) (code need : Nat) : (s.takesTrap code need).clusters = s.clusters := rfl
@[simp] theorem State.takesTrap_mem (s : State) (code need : Nat) : (s.takesTrap code need).mem = s.mem := rfl
@[simp] theorem State.takesTrap_colls (s : State) (code need : Nat) : (s.takesTrap code need).colls = s.colls := rfl
@[simp] theorem State.takesTrap_pmap (s : State) (code need : Nat) : (s.takesTrap code need).pmap = s.pmap := rfl
@[simp] theorem State.takesTrap_dev (s : State) (code need : Nat) : (s.takesTrap code need).dev = s.dev := rfl
@[simp] theorem State.takesTrap_host (s : State) (code need : Nat) : (s.takesTrap code need).host = s.host := rfl
@[simp] theorem State.takesTrap_ros (s : State) (code need : Nat) : (s.takesTrap code need).ros = s.ros := rfl
@[simp] theorem State.takesTrap_turn (s : State) (code need : Nat) : (s.takesTrap code need).turn = s.turn := rfl
@[simp] theorem State.takesTrap_fv (s : State) (code need : Nat) : (s.takesTrap code need).fv = s.fv := rfl
@[simp] theorem State.takesTrap_nextKey (s : State) (code need : Nat) : (s.takesTrap code need).nextKey = s.nextKey := rfl

@[simp] theorem State.isHeld_t (s : State) : (s.isHeld).t = { s.t with run := .held } := rfl
@[simp] theorem State.isHeld_others (s : State) : (s.isHeld).others = s.others := rfl
@[simp] theorem State.isHeld_nodes (s : State) : (s.isHeld).nodes = s.nodes := rfl
@[simp] theorem State.isHeld_launches (s : State) : (s.isHeld).launches = s.launches := rfl
@[simp] theorem State.isHeld_parts (s : State) : (s.isHeld).parts = s.parts := rfl
@[simp] theorem State.isHeld_cores (s : State) : (s.isHeld).cores = s.cores := rfl
@[simp] theorem State.isHeld_clusters (s : State) : (s.isHeld).clusters = s.clusters := rfl
@[simp] theorem State.isHeld_mem (s : State) : (s.isHeld).mem = s.mem := rfl
@[simp] theorem State.isHeld_colls (s : State) : (s.isHeld).colls = s.colls := rfl
@[simp] theorem State.isHeld_pmap (s : State) : (s.isHeld).pmap = s.pmap := rfl
@[simp] theorem State.isHeld_dev (s : State) : (s.isHeld).dev = s.dev := rfl
@[simp] theorem State.isHeld_host (s : State) : (s.isHeld).host = s.host := rfl
@[simp] theorem State.isHeld_ros (s : State) : (s.isHeld).ros = s.ros := rfl
@[simp] theorem State.isHeld_turn (s : State) : (s.isHeld).turn = s.turn := rfl
@[simp] theorem State.isHeld_fv (s : State) : (s.isHeld).fv = s.fv := rfl
@[simp] theorem State.isHeld_nextKey (s : State) : (s.isHeld).nextKey = s.nextKey := rfl

@[simp] theorem State.freezes_t (s : State) (f : Freeze) : (s.freezes f).t = { s.t with frz := some f } := rfl
@[simp] theorem State.freezes_others (s : State) (f : Freeze) : (s.freezes f).others = s.others := rfl
@[simp] theorem State.freezes_nodes (s : State) (f : Freeze) : (s.freezes f).nodes = s.nodes := rfl
@[simp] theorem State.freezes_launches (s : State) (f : Freeze) : (s.freezes f).launches = s.launches := rfl
@[simp] theorem State.freezes_parts (s : State) (f : Freeze) : (s.freezes f).parts = s.parts := rfl
@[simp] theorem State.freezes_cores (s : State) (f : Freeze) : (s.freezes f).cores = s.cores := rfl
@[simp] theorem State.freezes_clusters (s : State) (f : Freeze) : (s.freezes f).clusters = s.clusters := rfl
@[simp] theorem State.freezes_mem (s : State) (f : Freeze) : (s.freezes f).mem = s.mem := rfl
@[simp] theorem State.freezes_colls (s : State) (f : Freeze) : (s.freezes f).colls = s.colls := rfl
@[simp] theorem State.freezes_pmap (s : State) (f : Freeze) : (s.freezes f).pmap = s.pmap := rfl
@[simp] theorem State.freezes_dev (s : State) (f : Freeze) : (s.freezes f).dev = s.dev := rfl
@[simp] theorem State.freezes_host (s : State) (f : Freeze) : (s.freezes f).host = s.host := rfl
@[simp] theorem State.freezes_ros (s : State) (f : Freeze) : (s.freezes f).ros = s.ros := rfl
@[simp] theorem State.freezes_turn (s : State) (f : Freeze) : (s.freezes f).turn = s.turn := rfl
@[simp] theorem State.freezes_fv (s : State) (f : Freeze) : (s.freezes f).fv = s.fv := rfl
@[simp] theorem State.freezes_nextKey (s : State) (f : Freeze) : (s.freezes f).nextKey = s.nextKey := rfl

@[simp] theorem State.willGo_t (s : State) (n : Nat) (x : VAddr) :
    (s.willGo n x).t = { s.t with pend := s.t.pend ++ [{ due := s.t.bidx + n, target := x }] } := rfl
@[simp] theorem State.willGo_others (s : State) (n : Nat) (x : VAddr) : (s.willGo n x).others = s.others := rfl
@[simp] theorem State.willGo_nodes (s : State) (n : Nat) (x : VAddr) : (s.willGo n x).nodes = s.nodes := rfl
@[simp] theorem State.willGo_launches (s : State) (n : Nat) (x : VAddr) : (s.willGo n x).launches = s.launches := rfl
@[simp] theorem State.willGo_parts (s : State) (n : Nat) (x : VAddr) : (s.willGo n x).parts = s.parts := rfl
@[simp] theorem State.willGo_cores (s : State) (n : Nat) (x : VAddr) : (s.willGo n x).cores = s.cores := rfl
@[simp] theorem State.willGo_clusters (s : State) (n : Nat) (x : VAddr) : (s.willGo n x).clusters = s.clusters := rfl
@[simp] theorem State.willGo_mem (s : State) (n : Nat) (x : VAddr) : (s.willGo n x).mem = s.mem := rfl
@[simp] theorem State.willGo_colls (s : State) (n : Nat) (x : VAddr) : (s.willGo n x).colls = s.colls := rfl
@[simp] theorem State.willGo_pmap (s : State) (n : Nat) (x : VAddr) : (s.willGo n x).pmap = s.pmap := rfl
@[simp] theorem State.willGo_dev (s : State) (n : Nat) (x : VAddr) : (s.willGo n x).dev = s.dev := rfl
@[simp] theorem State.willGo_host (s : State) (n : Nat) (x : VAddr) : (s.willGo n x).host = s.host := rfl
@[simp] theorem State.willGo_ros (s : State) (n : Nat) (x : VAddr) : (s.willGo n x).ros = s.ros := rfl
@[simp] theorem State.willGo_turn (s : State) (n : Nat) (x : VAddr) : (s.willGo n x).turn = s.turn := rfl
@[simp] theorem State.willGo_fv (s : State) (n : Nat) (x : VAddr) : (s.willGo n x).fv = s.fv := rfl
@[simp] theorem State.willGo_nextKey (s : State) (n : Nat) (x : VAddr) : (s.willGo n x).nextKey = s.nextKey := rfl

@[simp] theorem State.withWrite_t (s : State) (d : FDst) (lat : Nat) (v : FVal) (o : Origin) :
    (s.withWrite d lat v o).t = { s.t with
      flights := s.t.flights ++ [{ id := s.t.seq, dst := d, iss := s.t.bidx, land := s.t.bidx + lat, val := v, org := o }]
      seq := s.t.seq + 1 } := rfl
@[simp] theorem State.withWrite_others (s : State) (d : FDst) (lat : Nat) (v : FVal) (o : Origin) :
    (s.withWrite d lat v o).others = s.others := rfl
@[simp] theorem State.withWrite_nodes (s : State) (d : FDst) (lat : Nat) (v : FVal) (o : Origin) :
    (s.withWrite d lat v o).nodes = s.nodes := rfl
@[simp] theorem State.withWrite_launches (s : State) (d : FDst) (lat : Nat) (v : FVal) (o : Origin) :
    (s.withWrite d lat v o).launches = s.launches := rfl
@[simp] theorem State.withWrite_parts (s : State) (d : FDst) (lat : Nat) (v : FVal) (o : Origin) :
    (s.withWrite d lat v o).parts = s.parts := rfl
@[simp] theorem State.withWrite_cores (s : State) (d : FDst) (lat : Nat) (v : FVal) (o : Origin) :
    (s.withWrite d lat v o).cores = s.cores := rfl
@[simp] theorem State.withWrite_clusters (s : State) (d : FDst) (lat : Nat) (v : FVal) (o : Origin) :
    (s.withWrite d lat v o).clusters = s.clusters := rfl
@[simp] theorem State.withWrite_mem (s : State) (d : FDst) (lat : Nat) (v : FVal) (o : Origin) :
    (s.withWrite d lat v o).mem = s.mem := rfl
@[simp] theorem State.withWrite_colls (s : State) (d : FDst) (lat : Nat) (v : FVal) (o : Origin) :
    (s.withWrite d lat v o).colls = s.colls := rfl
@[simp] theorem State.withWrite_pmap (s : State) (d : FDst) (lat : Nat) (v : FVal) (o : Origin) :
    (s.withWrite d lat v o).pmap = s.pmap := rfl
@[simp] theorem State.withWrite_dev (s : State) (d : FDst) (lat : Nat) (v : FVal) (o : Origin) :
    (s.withWrite d lat v o).dev = s.dev := rfl
@[simp] theorem State.withWrite_host (s : State) (d : FDst) (lat : Nat) (v : FVal) (o : Origin) :
    (s.withWrite d lat v o).host = s.host := rfl
@[simp] theorem State.withWrite_ros (s : State) (d : FDst) (lat : Nat) (v : FVal) (o : Origin) :
    (s.withWrite d lat v o).ros = s.ros := rfl
@[simp] theorem State.withWrite_turn (s : State) (d : FDst) (lat : Nat) (v : FVal) (o : Origin) :
    (s.withWrite d lat v o).turn = s.turn := rfl
@[simp] theorem State.withWrite_fv (s : State) (d : FDst) (lat : Nat) (v : FVal) (o : Origin) :
    (s.withWrite d lat v o).fv = s.fv := rfl
@[simp] theorem State.withWrite_nextKey (s : State) (d : FDst) (lat : Nat) (v : FVal) (o : Origin) :
    (s.withWrite d lat v o).nextKey = s.nextKey := rfl

@[simp] theorem State.withAccess_t (s : State) (op : AccOp) (write : Bool) (level : Level) (scope : Nat) (acq rel isLd isSt loc staged : Bool)
    (flight : Option Nat) (ps : List Piece) :
    (s.withAccess op write level scope acq rel isLd isSt loc staged flight ps).t = { s.t.release ((if isLd then cLD else 0) ||| (if isSt then cST else 0)) (ps.map fun p => (p.va, p.len)) loc with
      acc := s.t.acc ++ [{ id := s.t.seq, iss := s.t.bidx, bundle := s.t.latch.addr, ins := s.t.latch.ins, note := s.t.notes op
                           root := s.t.dtroot, op := op, write := write, level := level
                           scope := scope, acq := acq, rel := rel, isLd := isLd, isSt := isSt, loc := loc
                           staged := staged, flight := flight, pieces := ps, got := [] }]
      seq := s.t.seq + 1 } := rfl
@[simp] theorem State.withAccess_others (s : State) (op : AccOp) (write : Bool) (level : Level) (scope : Nat) (acq rel isLd isSt loc staged : Bool)
    (flight : Option Nat) (ps : List Piece) :
    (s.withAccess op write level scope acq rel isLd isSt loc staged flight ps).others = s.others := rfl
@[simp] theorem State.withAccess_nodes (s : State) (op : AccOp) (write : Bool) (level : Level) (scope : Nat) (acq rel isLd isSt loc staged : Bool)
    (flight : Option Nat) (ps : List Piece) :
    (s.withAccess op write level scope acq rel isLd isSt loc staged flight ps).nodes = s.nodes := rfl
@[simp] theorem State.withAccess_launches (s : State) (op : AccOp) (write : Bool) (level : Level) (scope : Nat) (acq rel isLd isSt loc staged : Bool)
    (flight : Option Nat) (ps : List Piece) :
    (s.withAccess op write level scope acq rel isLd isSt loc staged flight ps).launches = s.launches := rfl
@[simp] theorem State.withAccess_parts (s : State) (op : AccOp) (write : Bool) (level : Level) (scope : Nat) (acq rel isLd isSt loc staged : Bool)
    (flight : Option Nat) (ps : List Piece) :
    (s.withAccess op write level scope acq rel isLd isSt loc staged flight ps).parts = s.parts := rfl
@[simp] theorem State.withAccess_cores (s : State) (op : AccOp) (write : Bool) (level : Level) (scope : Nat) (acq rel isLd isSt loc staged : Bool)
    (flight : Option Nat) (ps : List Piece) :
    (s.withAccess op write level scope acq rel isLd isSt loc staged flight ps).cores = s.cores := rfl
@[simp] theorem State.withAccess_clusters (s : State) (op : AccOp) (write : Bool) (level : Level) (scope : Nat) (acq rel isLd isSt loc staged : Bool)
    (flight : Option Nat) (ps : List Piece) :
    (s.withAccess op write level scope acq rel isLd isSt loc staged flight ps).clusters = s.clusters := rfl
@[simp] theorem State.withAccess_mem (s : State) (op : AccOp) (write : Bool) (level : Level) (scope : Nat) (acq rel isLd isSt loc staged : Bool)
    (flight : Option Nat) (ps : List Piece) :
    (s.withAccess op write level scope acq rel isLd isSt loc staged flight ps).mem = s.mem := rfl
@[simp] theorem State.withAccess_colls (s : State) (op : AccOp) (write : Bool) (level : Level) (scope : Nat) (acq rel isLd isSt loc staged : Bool)
    (flight : Option Nat) (ps : List Piece) :
    (s.withAccess op write level scope acq rel isLd isSt loc staged flight ps).colls = s.colls := rfl
@[simp] theorem State.withAccess_pmap (s : State) (op : AccOp) (write : Bool) (level : Level) (scope : Nat) (acq rel isLd isSt loc staged : Bool)
    (flight : Option Nat) (ps : List Piece) :
    (s.withAccess op write level scope acq rel isLd isSt loc staged flight ps).pmap = s.pmap := rfl
@[simp] theorem State.withAccess_dev (s : State) (op : AccOp) (write : Bool) (level : Level) (scope : Nat) (acq rel isLd isSt loc staged : Bool)
    (flight : Option Nat) (ps : List Piece) :
    (s.withAccess op write level scope acq rel isLd isSt loc staged flight ps).dev = s.dev := rfl
@[simp] theorem State.withAccess_host (s : State) (op : AccOp) (write : Bool) (level : Level) (scope : Nat) (acq rel isLd isSt loc staged : Bool)
    (flight : Option Nat) (ps : List Piece) :
    (s.withAccess op write level scope acq rel isLd isSt loc staged flight ps).host = s.host := rfl
@[simp] theorem State.withAccess_ros (s : State) (op : AccOp) (write : Bool) (level : Level) (scope : Nat) (acq rel isLd isSt loc staged : Bool)
    (flight : Option Nat) (ps : List Piece) :
    (s.withAccess op write level scope acq rel isLd isSt loc staged flight ps).ros = s.ros := rfl
@[simp] theorem State.withAccess_turn (s : State) (op : AccOp) (write : Bool) (level : Level) (scope : Nat) (acq rel isLd isSt loc staged : Bool)
    (flight : Option Nat) (ps : List Piece) :
    (s.withAccess op write level scope acq rel isLd isSt loc staged flight ps).turn = s.turn := rfl
@[simp] theorem State.withAccess_fv (s : State) (op : AccOp) (write : Bool) (level : Level) (scope : Nat) (acq rel isLd isSt loc staged : Bool)
    (flight : Option Nat) (ps : List Piece) :
    (s.withAccess op write level scope acq rel isLd isSt loc staged flight ps).fv = s.fv := rfl
@[simp] theorem State.withAccess_nextKey (s : State) (op : AccOp) (write : Bool) (level : Level) (scope : Nat) (acq rel isLd isSt loc staged : Bool)
    (flight : Option Nat) (ps : List Piece) :
    (s.withAccess op write level scope acq rel isLd isSt loc staged flight ps).nextKey = s.nextKey := rfl

@[simp] theorem State.counts_t (s : State) (k : Cnt) : (s.counts k).t = { s.t with cnt := s.t.cnt.add k } := rfl
@[simp] theorem State.counts_others (s : State) (k : Cnt) : (s.counts k).others = s.others := rfl
@[simp] theorem State.counts_nodes (s : State) (k : Cnt) : (s.counts k).nodes = s.nodes := rfl
@[simp] theorem State.counts_launches (s : State) (k : Cnt) : (s.counts k).launches = s.launches := rfl
@[simp] theorem State.counts_parts (s : State) (k : Cnt) : (s.counts k).parts = s.parts := rfl
@[simp] theorem State.counts_cores (s : State) (k : Cnt) : (s.counts k).cores = s.cores := rfl
@[simp] theorem State.counts_clusters (s : State) (k : Cnt) : (s.counts k).clusters = s.clusters := rfl
@[simp] theorem State.counts_mem (s : State) (k : Cnt) : (s.counts k).mem = s.mem := rfl
@[simp] theorem State.counts_colls (s : State) (k : Cnt) : (s.counts k).colls = s.colls := rfl
@[simp] theorem State.counts_pmap (s : State) (k : Cnt) : (s.counts k).pmap = s.pmap := rfl
@[simp] theorem State.counts_dev (s : State) (k : Cnt) : (s.counts k).dev = s.dev := rfl
@[simp] theorem State.counts_host (s : State) (k : Cnt) : (s.counts k).host = s.host := rfl
@[simp] theorem State.counts_ros (s : State) (k : Cnt) : (s.counts k).ros = s.ros := rfl
@[simp] theorem State.counts_turn (s : State) (k : Cnt) : (s.counts k).turn = s.turn := rfl
@[simp] theorem State.counts_fv (s : State) (k : Cnt) : (s.counts k).fv = s.fv := rfl
@[simp] theorem State.counts_nextKey (s : State) (k : Cnt) : (s.counts k).nextKey = s.nextKey := rfl

@[simp] theorem State.stepTag_t (s : State) (f : Fin 8) :
    (s.stepTag f).t = { s.t with fac := s.t.fac.set f { s.t.fac.get f with tag := (s.t.fac.get f).tag + 1 } } := rfl
@[simp] theorem State.stepTag_others (s : State) (f : Fin 8) : (s.stepTag f).others = s.others := rfl
@[simp] theorem State.stepTag_nodes (s : State) (f : Fin 8) : (s.stepTag f).nodes = s.nodes := rfl
@[simp] theorem State.stepTag_launches (s : State) (f : Fin 8) : (s.stepTag f).launches = s.launches := rfl
@[simp] theorem State.stepTag_parts (s : State) (f : Fin 8) : (s.stepTag f).parts = s.parts := rfl
@[simp] theorem State.stepTag_cores (s : State) (f : Fin 8) : (s.stepTag f).cores = s.cores := rfl
@[simp] theorem State.stepTag_clusters (s : State) (f : Fin 8) : (s.stepTag f).clusters = s.clusters := rfl
@[simp] theorem State.stepTag_mem (s : State) (f : Fin 8) : (s.stepTag f).mem = s.mem := rfl
@[simp] theorem State.stepTag_colls (s : State) (f : Fin 8) : (s.stepTag f).colls = s.colls := rfl
@[simp] theorem State.stepTag_pmap (s : State) (f : Fin 8) : (s.stepTag f).pmap = s.pmap := rfl
@[simp] theorem State.stepTag_dev (s : State) (f : Fin 8) : (s.stepTag f).dev = s.dev := rfl
@[simp] theorem State.stepTag_host (s : State) (f : Fin 8) : (s.stepTag f).host = s.host := rfl
@[simp] theorem State.stepTag_ros (s : State) (f : Fin 8) : (s.stepTag f).ros = s.ros := rfl
@[simp] theorem State.stepTag_turn (s : State) (f : Fin 8) : (s.stepTag f).turn = s.turn := rfl
@[simp] theorem State.stepTag_fv (s : State) (f : Fin 8) : (s.stepTag f).fv = s.fv := rfl
@[simp] theorem State.stepTag_nextKey (s : State) (f : Fin 8) : (s.stepTag f).nextKey = s.nextKey := rfl

@[simp] theorem State.updAcc_t (s : State) (id : Nat) (f : Acc → Acc) :
    (s.updAcc id f).t = { s.t with acc := s.t.acc.map fun a => if a.id = id then f a else a } := rfl
@[simp] theorem State.updAcc_others (s : State) (id : Nat) (f : Acc → Acc) : (s.updAcc id f).others = s.others := rfl
@[simp] theorem State.updAcc_nodes (s : State) (id : Nat) (f : Acc → Acc) : (s.updAcc id f).nodes = s.nodes := rfl
@[simp] theorem State.updAcc_launches (s : State) (id : Nat) (f : Acc → Acc) : (s.updAcc id f).launches = s.launches := rfl
@[simp] theorem State.updAcc_parts (s : State) (id : Nat) (f : Acc → Acc) : (s.updAcc id f).parts = s.parts := rfl
@[simp] theorem State.updAcc_cores (s : State) (id : Nat) (f : Acc → Acc) : (s.updAcc id f).cores = s.cores := rfl
@[simp] theorem State.updAcc_clusters (s : State) (id : Nat) (f : Acc → Acc) : (s.updAcc id f).clusters = s.clusters := rfl
@[simp] theorem State.updAcc_mem (s : State) (id : Nat) (f : Acc → Acc) : (s.updAcc id f).mem = s.mem := rfl
@[simp] theorem State.updAcc_colls (s : State) (id : Nat) (f : Acc → Acc) : (s.updAcc id f).colls = s.colls := rfl
@[simp] theorem State.updAcc_pmap (s : State) (id : Nat) (f : Acc → Acc) : (s.updAcc id f).pmap = s.pmap := rfl
@[simp] theorem State.updAcc_dev (s : State) (id : Nat) (f : Acc → Acc) : (s.updAcc id f).dev = s.dev := rfl
@[simp] theorem State.updAcc_host (s : State) (id : Nat) (f : Acc → Acc) : (s.updAcc id f).host = s.host := rfl
@[simp] theorem State.updAcc_ros (s : State) (id : Nat) (f : Acc → Acc) : (s.updAcc id f).ros = s.ros := rfl
@[simp] theorem State.updAcc_turn (s : State) (id : Nat) (f : Acc → Acc) : (s.updAcc id f).turn = s.turn := rfl
@[simp] theorem State.updAcc_fv (s : State) (id : Nat) (f : Acc → Acc) : (s.updAcc id f).fv = s.fv := rfl
@[simp] theorem State.updAcc_nextKey (s : State) (id : Nat) (f : Acc → Acc) : (s.updAcc id f).nextKey = s.nextKey := rfl

@[simp] theorem State.dropAcc_t (s : State) (id : Nat) : (s.dropAcc id).t = { s.t with acc := s.t.acc.filter fun a => a.id != id } := rfl
@[simp] theorem State.dropAcc_others (s : State) (id : Nat) : (s.dropAcc id).others = s.others := rfl
@[simp] theorem State.dropAcc_nodes (s : State) (id : Nat) : (s.dropAcc id).nodes = s.nodes := rfl
@[simp] theorem State.dropAcc_launches (s : State) (id : Nat) : (s.dropAcc id).launches = s.launches := rfl
@[simp] theorem State.dropAcc_parts (s : State) (id : Nat) : (s.dropAcc id).parts = s.parts := rfl
@[simp] theorem State.dropAcc_cores (s : State) (id : Nat) : (s.dropAcc id).cores = s.cores := rfl
@[simp] theorem State.dropAcc_clusters (s : State) (id : Nat) : (s.dropAcc id).clusters = s.clusters := rfl
@[simp] theorem State.dropAcc_mem (s : State) (id : Nat) : (s.dropAcc id).mem = s.mem := rfl
@[simp] theorem State.dropAcc_colls (s : State) (id : Nat) : (s.dropAcc id).colls = s.colls := rfl
@[simp] theorem State.dropAcc_pmap (s : State) (id : Nat) : (s.dropAcc id).pmap = s.pmap := rfl
@[simp] theorem State.dropAcc_dev (s : State) (id : Nat) : (s.dropAcc id).dev = s.dev := rfl
@[simp] theorem State.dropAcc_host (s : State) (id : Nat) : (s.dropAcc id).host = s.host := rfl
@[simp] theorem State.dropAcc_ros (s : State) (id : Nat) : (s.dropAcc id).ros = s.ros := rfl
@[simp] theorem State.dropAcc_turn (s : State) (id : Nat) : (s.dropAcc id).turn = s.turn := rfl
@[simp] theorem State.dropAcc_fv (s : State) (id : Nat) : (s.dropAcc id).fv = s.fv := rfl
@[simp] theorem State.dropAcc_nextKey (s : State) (id : Nat) : (s.dropAcc id).nextKey = s.nextKey := rfl

@[simp] theorem State.updCmd_t (s : State) (id : Nat) (f : Cmd → Cmd) :
    (s.updCmd id f).t = { s.t with cmds := s.t.cmds.map fun c => if c.id = id then f c else c } := rfl
@[simp] theorem State.updCmd_others (s : State) (id : Nat) (f : Cmd → Cmd) : (s.updCmd id f).others = s.others := rfl
@[simp] theorem State.updCmd_nodes (s : State) (id : Nat) (f : Cmd → Cmd) : (s.updCmd id f).nodes = s.nodes := rfl
@[simp] theorem State.updCmd_launches (s : State) (id : Nat) (f : Cmd → Cmd) : (s.updCmd id f).launches = s.launches := rfl
@[simp] theorem State.updCmd_parts (s : State) (id : Nat) (f : Cmd → Cmd) : (s.updCmd id f).parts = s.parts := rfl
@[simp] theorem State.updCmd_cores (s : State) (id : Nat) (f : Cmd → Cmd) : (s.updCmd id f).cores = s.cores := rfl
@[simp] theorem State.updCmd_clusters (s : State) (id : Nat) (f : Cmd → Cmd) : (s.updCmd id f).clusters = s.clusters := rfl
@[simp] theorem State.updCmd_mem (s : State) (id : Nat) (f : Cmd → Cmd) : (s.updCmd id f).mem = s.mem := rfl
@[simp] theorem State.updCmd_colls (s : State) (id : Nat) (f : Cmd → Cmd) : (s.updCmd id f).colls = s.colls := rfl
@[simp] theorem State.updCmd_pmap (s : State) (id : Nat) (f : Cmd → Cmd) : (s.updCmd id f).pmap = s.pmap := rfl
@[simp] theorem State.updCmd_dev (s : State) (id : Nat) (f : Cmd → Cmd) : (s.updCmd id f).dev = s.dev := rfl
@[simp] theorem State.updCmd_host (s : State) (id : Nat) (f : Cmd → Cmd) : (s.updCmd id f).host = s.host := rfl
@[simp] theorem State.updCmd_ros (s : State) (id : Nat) (f : Cmd → Cmd) : (s.updCmd id f).ros = s.ros := rfl
@[simp] theorem State.updCmd_turn (s : State) (id : Nat) (f : Cmd → Cmd) : (s.updCmd id f).turn = s.turn := rfl
@[simp] theorem State.updCmd_fv (s : State) (id : Nat) (f : Cmd → Cmd) : (s.updCmd id f).fv = s.fv := rfl
@[simp] theorem State.updCmd_nextKey (s : State) (id : Nat) (f : Cmd → Cmd) : (s.updCmd id f).nextKey = s.nextKey := rfl

@[simp] theorem State.dropCmd_t (s : State) (id : Nat) : (s.dropCmd id).t = { s.t with cmds := s.t.cmds.filter fun c => c.id != id } := rfl
@[simp] theorem State.dropCmd_others (s : State) (id : Nat) : (s.dropCmd id).others = s.others := rfl
@[simp] theorem State.dropCmd_nodes (s : State) (id : Nat) : (s.dropCmd id).nodes = s.nodes := rfl
@[simp] theorem State.dropCmd_launches (s : State) (id : Nat) : (s.dropCmd id).launches = s.launches := rfl
@[simp] theorem State.dropCmd_parts (s : State) (id : Nat) : (s.dropCmd id).parts = s.parts := rfl
@[simp] theorem State.dropCmd_cores (s : State) (id : Nat) : (s.dropCmd id).cores = s.cores := rfl
@[simp] theorem State.dropCmd_clusters (s : State) (id : Nat) : (s.dropCmd id).clusters = s.clusters := rfl
@[simp] theorem State.dropCmd_mem (s : State) (id : Nat) : (s.dropCmd id).mem = s.mem := rfl
@[simp] theorem State.dropCmd_colls (s : State) (id : Nat) : (s.dropCmd id).colls = s.colls := rfl
@[simp] theorem State.dropCmd_pmap (s : State) (id : Nat) : (s.dropCmd id).pmap = s.pmap := rfl
@[simp] theorem State.dropCmd_dev (s : State) (id : Nat) : (s.dropCmd id).dev = s.dev := rfl
@[simp] theorem State.dropCmd_host (s : State) (id : Nat) : (s.dropCmd id).host = s.host := rfl
@[simp] theorem State.dropCmd_ros (s : State) (id : Nat) : (s.dropCmd id).ros = s.ros := rfl
@[simp] theorem State.dropCmd_turn (s : State) (id : Nat) : (s.dropCmd id).turn = s.turn := rfl
@[simp] theorem State.dropCmd_fv (s : State) (id : Nat) : (s.dropCmd id).fv = s.fv := rfl
@[simp] theorem State.dropCmd_nextKey (s : State) (id : Nat) : (s.dropCmd id).nextKey = s.nextKey := rfl

@[simp] theorem State.updEk_t (s : State) (id : Nat) (f : Ek → Ek) :
    (s.updEk id f).t = { s.t with eks := s.t.eks.map fun e => if e.id = id then f e else e } := rfl
@[simp] theorem State.updEk_others (s : State) (id : Nat) (f : Ek → Ek) : (s.updEk id f).others = s.others := rfl
@[simp] theorem State.updEk_nodes (s : State) (id : Nat) (f : Ek → Ek) : (s.updEk id f).nodes = s.nodes := rfl
@[simp] theorem State.updEk_launches (s : State) (id : Nat) (f : Ek → Ek) : (s.updEk id f).launches = s.launches := rfl
@[simp] theorem State.updEk_parts (s : State) (id : Nat) (f : Ek → Ek) : (s.updEk id f).parts = s.parts := rfl
@[simp] theorem State.updEk_cores (s : State) (id : Nat) (f : Ek → Ek) : (s.updEk id f).cores = s.cores := rfl
@[simp] theorem State.updEk_clusters (s : State) (id : Nat) (f : Ek → Ek) : (s.updEk id f).clusters = s.clusters := rfl
@[simp] theorem State.updEk_mem (s : State) (id : Nat) (f : Ek → Ek) : (s.updEk id f).mem = s.mem := rfl
@[simp] theorem State.updEk_colls (s : State) (id : Nat) (f : Ek → Ek) : (s.updEk id f).colls = s.colls := rfl
@[simp] theorem State.updEk_pmap (s : State) (id : Nat) (f : Ek → Ek) : (s.updEk id f).pmap = s.pmap := rfl
@[simp] theorem State.updEk_dev (s : State) (id : Nat) (f : Ek → Ek) : (s.updEk id f).dev = s.dev := rfl
@[simp] theorem State.updEk_host (s : State) (id : Nat) (f : Ek → Ek) : (s.updEk id f).host = s.host := rfl
@[simp] theorem State.updEk_ros (s : State) (id : Nat) (f : Ek → Ek) : (s.updEk id f).ros = s.ros := rfl
@[simp] theorem State.updEk_turn (s : State) (id : Nat) (f : Ek → Ek) : (s.updEk id f).turn = s.turn := rfl
@[simp] theorem State.updEk_fv (s : State) (id : Nat) (f : Ek → Ek) : (s.updEk id f).fv = s.fv := rfl
@[simp] theorem State.updEk_nextKey (s : State) (id : Nat) (f : Ek → Ek) : (s.updEk id f).nextKey = s.nextKey := rfl

@[simp] theorem State.setCore_t (s : State) (c : Core) : (s.setCore c).t = s.t := rfl
@[simp] theorem State.setCore_others (s : State) (c : Core) : (s.setCore c).others = s.others := rfl
@[simp] theorem State.setCore_nodes (s : State) (c : Core) : (s.setCore c).nodes = s.nodes := rfl
@[simp] theorem State.setCore_launches (s : State) (c : Core) : (s.setCore c).launches = s.launches := rfl
@[simp] theorem State.setCore_parts (s : State) (c : Core) : (s.setCore c).parts = s.parts := rfl
@[simp] theorem State.setCore_cores (s : State) (c : Core) : (s.setCore c).cores = c :: s.cores.filter fun x => x.num != c.num := rfl
@[simp] theorem State.setCore_clusters (s : State) (c : Core) : (s.setCore c).clusters = s.clusters := rfl
@[simp] theorem State.setCore_mem (s : State) (c : Core) : (s.setCore c).mem = s.mem := rfl
@[simp] theorem State.setCore_colls (s : State) (c : Core) : (s.setCore c).colls = s.colls := rfl
@[simp] theorem State.setCore_pmap (s : State) (c : Core) : (s.setCore c).pmap = s.pmap := rfl
@[simp] theorem State.setCore_dev (s : State) (c : Core) : (s.setCore c).dev = s.dev := rfl
@[simp] theorem State.setCore_host (s : State) (c : Core) : (s.setCore c).host = s.host := rfl
@[simp] theorem State.setCore_ros (s : State) (c : Core) : (s.setCore c).ros = s.ros := rfl
@[simp] theorem State.setCore_turn (s : State) (c : Core) : (s.setCore c).turn = s.turn := rfl
@[simp] theorem State.setCore_fv (s : State) (c : Core) : (s.setCore c).fv = s.fv := rfl
@[simp] theorem State.setCore_nextKey (s : State) (c : Core) : (s.setCore c).nextKey = s.nextKey := rfl

@[simp] theorem State.setCtlb_t (s : State) (n : Nat) (l : List TlbEnt) : (s.setCtlb n l).t = s.t := rfl
@[simp] theorem State.setCtlb_others (s : State) (n : Nat) (l : List TlbEnt) : (s.setCtlb n l).others = s.others := rfl
@[simp] theorem State.setCtlb_nodes (s : State) (n : Nat) (l : List TlbEnt) : (s.setCtlb n l).nodes = s.nodes := rfl
@[simp] theorem State.setCtlb_launches (s : State) (n : Nat) (l : List TlbEnt) : (s.setCtlb n l).launches = s.launches := rfl
@[simp] theorem State.setCtlb_parts (s : State) (n : Nat) (l : List TlbEnt) : (s.setCtlb n l).parts = s.parts := rfl
@[simp] theorem State.setCtlb_cores (s : State) (n : Nat) (l : List TlbEnt) : (s.setCtlb n l).cores = s.cores := rfl
@[simp] theorem State.setCtlb_clusters (s : State) (n : Nat) (l : List TlbEnt) :
    (s.setCtlb n l).clusters = { num := n, ents := l } :: s.clusters.filter fun x => x.num != n := rfl
@[simp] theorem State.setCtlb_mem (s : State) (n : Nat) (l : List TlbEnt) : (s.setCtlb n l).mem = s.mem := rfl
@[simp] theorem State.setCtlb_colls (s : State) (n : Nat) (l : List TlbEnt) : (s.setCtlb n l).colls = s.colls := rfl
@[simp] theorem State.setCtlb_pmap (s : State) (n : Nat) (l : List TlbEnt) : (s.setCtlb n l).pmap = s.pmap := rfl
@[simp] theorem State.setCtlb_dev (s : State) (n : Nat) (l : List TlbEnt) : (s.setCtlb n l).dev = s.dev := rfl
@[simp] theorem State.setCtlb_host (s : State) (n : Nat) (l : List TlbEnt) : (s.setCtlb n l).host = s.host := rfl
@[simp] theorem State.setCtlb_ros (s : State) (n : Nat) (l : List TlbEnt) : (s.setCtlb n l).ros = s.ros := rfl
@[simp] theorem State.setCtlb_turn (s : State) (n : Nat) (l : List TlbEnt) : (s.setCtlb n l).turn = s.turn := rfl
@[simp] theorem State.setCtlb_fv (s : State) (n : Nat) (l : List TlbEnt) : (s.setCtlb n l).fv = s.fv := rfl
@[simp] theorem State.setCtlb_nextKey (s : State) (n : Nat) (l : List TlbEnt) : (s.setCtlb n l).nextKey = s.nextKey := rfl

@[simp] theorem State.updNode_t (s : State) (k : Nat) (f : Node → Node) : (s.updNode k f).t = s.t := rfl
@[simp] theorem State.updNode_others (s : State) (k : Nat) (f : Node → Node) : (s.updNode k f).others = s.others := rfl
@[simp] theorem State.updNode_nodes (s : State) (k : Nat) (f : Node → Node) : (s.updNode k f).nodes = s.nodes.map fun n => if n.key = k then f n else n := rfl
@[simp] theorem State.updNode_launches (s : State) (k : Nat) (f : Node → Node) : (s.updNode k f).launches = s.launches := rfl
@[simp] theorem State.updNode_parts (s : State) (k : Nat) (f : Node → Node) : (s.updNode k f).parts = s.parts := rfl
@[simp] theorem State.updNode_cores (s : State) (k : Nat) (f : Node → Node) : (s.updNode k f).cores = s.cores := rfl
@[simp] theorem State.updNode_clusters (s : State) (k : Nat) (f : Node → Node) : (s.updNode k f).clusters = s.clusters := rfl
@[simp] theorem State.updNode_mem (s : State) (k : Nat) (f : Node → Node) : (s.updNode k f).mem = s.mem := rfl
@[simp] theorem State.updNode_colls (s : State) (k : Nat) (f : Node → Node) : (s.updNode k f).colls = s.colls := rfl
@[simp] theorem State.updNode_pmap (s : State) (k : Nat) (f : Node → Node) : (s.updNode k f).pmap = s.pmap := rfl
@[simp] theorem State.updNode_dev (s : State) (k : Nat) (f : Node → Node) : (s.updNode k f).dev = s.dev := rfl
@[simp] theorem State.updNode_host (s : State) (k : Nat) (f : Node → Node) : (s.updNode k f).host = s.host := rfl
@[simp] theorem State.updNode_ros (s : State) (k : Nat) (f : Node → Node) : (s.updNode k f).ros = s.ros := rfl
@[simp] theorem State.updNode_turn (s : State) (k : Nat) (f : Node → Node) : (s.updNode k f).turn = s.turn := rfl
@[simp] theorem State.updNode_fv (s : State) (k : Nat) (f : Node → Node) : (s.updNode k f).fv = s.fv := rfl
@[simp] theorem State.updNode_nextKey (s : State) (k : Nat) (f : Node → Node) : (s.updNode k f).nextKey = s.nextKey := rfl

@[simp] theorem State.updPart_t (s : State) (p : Fin 16) (f : Part → Part) :
    (s.updPart p f).t = s.t := rfl
@[simp] theorem State.updPart_others (s : State) (p : Fin 16) (f : Part → Part) :
    (s.updPart p f).others = s.others := rfl
@[simp] theorem State.updPart_nodes (s : State) (p : Fin 16) (f : Part → Part) :
    (s.updPart p f).nodes = s.nodes := rfl
@[simp] theorem State.updPart_launches (s : State) (p : Fin 16) (f : Part → Part) :
    (s.updPart p f).launches = s.launches := rfl
@[simp] theorem State.updPart_parts (s : State) (p : Fin 16) (f : Part → Part) :
    (s.updPart p f).parts = s.parts.set p (f (s.parts.get p)) := rfl
@[simp] theorem State.updPart_cores (s : State) (p : Fin 16) (f : Part → Part) :
    (s.updPart p f).cores = s.cores := rfl
@[simp] theorem State.updPart_clusters (s : State) (p : Fin 16) (f : Part → Part) :
    (s.updPart p f).clusters = s.clusters := rfl
@[simp] theorem State.updPart_mem (s : State) (p : Fin 16) (f : Part → Part) :
    (s.updPart p f).mem = s.mem := rfl
@[simp] theorem State.updPart_colls (s : State) (p : Fin 16) (f : Part → Part) :
    (s.updPart p f).colls = s.colls := rfl
@[simp] theorem State.updPart_pmap (s : State) (p : Fin 16) (f : Part → Part) :
    (s.updPart p f).pmap = s.pmap := rfl
@[simp] theorem State.updPart_dev (s : State) (p : Fin 16) (f : Part → Part) :
    (s.updPart p f).dev = s.dev := rfl
@[simp] theorem State.updPart_host (s : State) (p : Fin 16) (f : Part → Part) :
    (s.updPart p f).host = s.host := rfl
@[simp] theorem State.updPart_ros (s : State) (p : Fin 16) (f : Part → Part) :
    (s.updPart p f).ros = s.ros := rfl
@[simp] theorem State.updPart_turn (s : State) (p : Fin 16) (f : Part → Part) :
    (s.updPart p f).turn = s.turn := rfl
@[simp] theorem State.updPart_fv (s : State) (p : Fin 16) (f : Part → Part) :
    (s.updPart p f).fv = s.fv := rfl
@[simp] theorem State.updPart_nextKey (s : State) (p : Fin 16) (f : Part → Part) :
    (s.updPart p f).nextKey = s.nextKey := rfl

@[simp] theorem State.updDev_t (s : State) (f : DevRegs → DevRegs) : (s.updDev f).t = s.t := rfl
@[simp] theorem State.updDev_others (s : State) (f : DevRegs → DevRegs) : (s.updDev f).others = s.others := rfl
@[simp] theorem State.updDev_nodes (s : State) (f : DevRegs → DevRegs) : (s.updDev f).nodes = s.nodes := rfl
@[simp] theorem State.updDev_launches (s : State) (f : DevRegs → DevRegs) : (s.updDev f).launches = s.launches := rfl
@[simp] theorem State.updDev_parts (s : State) (f : DevRegs → DevRegs) : (s.updDev f).parts = s.parts := rfl
@[simp] theorem State.updDev_cores (s : State) (f : DevRegs → DevRegs) : (s.updDev f).cores = s.cores := rfl
@[simp] theorem State.updDev_clusters (s : State) (f : DevRegs → DevRegs) : (s.updDev f).clusters = s.clusters := rfl
@[simp] theorem State.updDev_mem (s : State) (f : DevRegs → DevRegs) : (s.updDev f).mem = s.mem := rfl
@[simp] theorem State.updDev_colls (s : State) (f : DevRegs → DevRegs) : (s.updDev f).colls = s.colls := rfl
@[simp] theorem State.updDev_pmap (s : State) (f : DevRegs → DevRegs) : (s.updDev f).pmap = s.pmap := rfl
@[simp] theorem State.updDev_dev (s : State) (f : DevRegs → DevRegs) : (s.updDev f).dev = f s.dev := rfl
@[simp] theorem State.updDev_host (s : State) (f : DevRegs → DevRegs) : (s.updDev f).host = s.host := rfl
@[simp] theorem State.updDev_ros (s : State) (f : DevRegs → DevRegs) : (s.updDev f).ros = s.ros := rfl
@[simp] theorem State.updDev_turn (s : State) (f : DevRegs → DevRegs) : (s.updDev f).turn = s.turn := rfl
@[simp] theorem State.updDev_fv (s : State) (f : DevRegs → DevRegs) : (s.updDev f).fv = s.fv := rfl
@[simp] theorem State.updDev_nextKey (s : State) (f : DevRegs → DevRegs) : (s.updDev f).nextKey = s.nextKey := rfl

@[simp] theorem State.report_t (s : State) (e : RosEvent) : (s.report e).t = s.t := rfl
@[simp] theorem State.report_others (s : State) (e : RosEvent) : (s.report e).others = s.others := rfl
@[simp] theorem State.report_nodes (s : State) (e : RosEvent) : (s.report e).nodes = s.nodes := rfl
@[simp] theorem State.report_launches (s : State) (e : RosEvent) : (s.report e).launches = s.launches := rfl
@[simp] theorem State.report_parts (s : State) (e : RosEvent) : (s.report e).parts = s.parts := rfl
@[simp] theorem State.report_cores (s : State) (e : RosEvent) : (s.report e).cores = s.cores := rfl
@[simp] theorem State.report_clusters (s : State) (e : RosEvent) : (s.report e).clusters = s.clusters := rfl
@[simp] theorem State.report_mem (s : State) (e : RosEvent) : (s.report e).mem = s.mem := rfl
@[simp] theorem State.report_colls (s : State) (e : RosEvent) : (s.report e).colls = s.colls := rfl
@[simp] theorem State.report_pmap (s : State) (e : RosEvent) : (s.report e).pmap = s.pmap := rfl
@[simp] theorem State.report_dev (s : State) (e : RosEvent) : (s.report e).dev = s.dev := rfl
@[simp] theorem State.report_host (s : State) (e : RosEvent) : (s.report e).host = s.host := rfl
@[simp] theorem State.report_ros (s : State) (e : RosEvent) : (s.report e).ros = { s.ros with events := s.ros.events ++ [e] } := rfl
@[simp] theorem State.report_turn (s : State) (e : RosEvent) : (s.report e).turn = s.turn := rfl
@[simp] theorem State.report_fv (s : State) (e : RosEvent) : (s.report e).fv = s.fv := rfl
@[simp] theorem State.report_nextKey (s : State) (e : RosEvent) : (s.report e).nextKey = s.nextKey := rfl

@[simp] theorem State.mapTasks_t (s : State) (f : Task → Task) : (s.mapTasks f).t = f s.t := rfl
@[simp] theorem State.mapTasks_others (s : State) (f : Task → Task) : (s.mapTasks f).others = s.others.map f := rfl
@[simp] theorem State.mapTasks_nodes (s : State) (f : Task → Task) : (s.mapTasks f).nodes = s.nodes := rfl
@[simp] theorem State.mapTasks_launches (s : State) (f : Task → Task) : (s.mapTasks f).launches = s.launches := rfl
@[simp] theorem State.mapTasks_parts (s : State) (f : Task → Task) : (s.mapTasks f).parts = s.parts := rfl
@[simp] theorem State.mapTasks_cores (s : State) (f : Task → Task) : (s.mapTasks f).cores = s.cores := rfl
@[simp] theorem State.mapTasks_clusters (s : State) (f : Task → Task) : (s.mapTasks f).clusters = s.clusters := rfl
@[simp] theorem State.mapTasks_mem (s : State) (f : Task → Task) : (s.mapTasks f).mem = s.mem := rfl
@[simp] theorem State.mapTasks_colls (s : State) (f : Task → Task) : (s.mapTasks f).colls = s.colls := rfl
@[simp] theorem State.mapTasks_pmap (s : State) (f : Task → Task) : (s.mapTasks f).pmap = s.pmap := rfl
@[simp] theorem State.mapTasks_dev (s : State) (f : Task → Task) : (s.mapTasks f).dev = s.dev := rfl
@[simp] theorem State.mapTasks_host (s : State) (f : Task → Task) : (s.mapTasks f).host = s.host := rfl
@[simp] theorem State.mapTasks_ros (s : State) (f : Task → Task) : (s.mapTasks f).ros = s.ros := rfl
@[simp] theorem State.mapTasks_turn (s : State) (f : Task → Task) : (s.mapTasks f).turn = s.turn := rfl
@[simp] theorem State.mapTasks_fv (s : State) (f : Task → Task) : (s.mapTasks f).fv = s.fv := rfl
@[simp] theorem State.mapTasks_nextKey (s : State) (f : Task → Task) : (s.mapTasks f).nextKey = s.nextKey := rfl

/-! Fields of a task after an update of one of its parts. -/

@[simp] theorem Task.release_id (t : Task) (cls : BitVec 6) (rs : List (Nat × Nat)) (loc : Bool) : (t.release cls rs loc).id = t.id := rfl
@[simp] theorem Task.release_run (t : Task) (cls : BitVec 6) (rs : List (Nat × Nat)) (loc : Bool) : (t.release cls rs loc).run = t.run := rfl
@[simp] theorem Task.release_frz (t : Task) (cls : BitVec 6) (rs : List (Nat × Nat)) (loc : Bool) : (t.release cls rs loc).frz = t.frz := rfl
@[simp] theorem Task.release_s (t : Task) (cls : BitVec 6) (rs : List (Nat × Nat)) (loc : Bool) : (t.release cls rs loc).s = t.s := rfl
@[simp] theorem Task.release_p (t : Task) (cls : BitVec 6) (rs : List (Nat × Nat)) (loc : Bool) : (t.release cls rs loc).p = t.p := rfl
@[simp] theorem Task.release_bs (t : Task) (cls : BitVec 6) (rs : List (Nat × Nat)) (loc : Bool) : (t.release cls rs loc).bs = t.bs := rfl
@[simp] theorem Task.release_stg (t : Task) (cls : BitVec 6) (rs : List (Nat × Nat)) (loc : Bool) : (t.release cls rs loc).stg = t.stg := rfl
@[simp] theorem Task.release_pc (t : Task) (cls : BitVec 6) (rs : List (Nat × Nat)) (loc : Bool) : (t.release cls rs loc).pc = t.pc := rfl
@[simp] theorem Task.release_bidx (t : Task) (cls : BitVec 6) (rs : List (Nat × Nat)) (loc : Bool) : (t.release cls rs loc).bidx = t.bidx := rfl
@[simp] theorem Task.release_seq (t : Task) (cls : BitVec 6) (rs : List (Nat × Nat)) (loc : Bool) : (t.release cls rs loc).seq = t.seq := rfl
@[simp] theorem Task.release_flights (t : Task) (cls : BitVec 6) (rs : List (Nat × Nat)) (loc : Bool) : (t.release cls rs loc).flights = t.flights := rfl
@[simp] theorem Task.release_pend (t : Task) (cls : BitVec 6) (rs : List (Nat × Nat)) (loc : Bool) : (t.release cls rs loc).pend = t.pend := rfl
@[simp] theorem Task.release_past (t : Task) (cls : BitVec 6) (rs : List (Nat × Nat)) (loc : Bool) : (t.release cls rs loc).past = t.past := rfl
@[simp] theorem Task.release_latch (t : Task) (cls : BitVec 6) (rs : List (Nat × Nat)) (loc : Bool) : (t.release cls rs loc).latch = t.latch := rfl
@[simp] theorem Task.release_trap (t : Task) (cls : BitVec 6) (rs : List (Nat × Nat)) (loc : Bool) : (t.release cls rs loc).trap = t.trap := rfl
@[simp] theorem Task.release_stk (t : Task) (cls : BitVec 6) (rs : List (Nat × Nat)) (loc : Bool) : (t.release cls rs loc).stk = t.stk := rfl
@[simp] theorem Task.release_fp (t : Task) (cls : BitVec 6) (rs : List (Nat × Nat)) (loc : Bool) : (t.release cls rs loc).fp = t.fp := rfl
@[simp] theorem Task.release_finj (t : Task) (cls : BitVec 6) (rs : List (Nat × Nat)) (loc : Bool) : (t.release cls rs loc).finj = t.finj := rfl
@[simp] theorem Task.release_fac (t : Task) (cls : BitVec 6) (rs : List (Nat × Nat)) (loc : Bool) : (t.release cls rs loc).fac = t.fac := rfl
@[simp] theorem Task.release_cnt (t : Task) (cls : BitVec 6) (rs : List (Nat × Nat)) (loc : Bool) : (t.release cls rs loc).cnt = t.cnt := rfl
@[simp] theorem Task.release_kstat (t : Task) (cls : BitVec 6) (rs : List (Nat × Nat)) (loc : Bool) : (t.release cls rs loc).kstat = t.kstat := rfl
@[simp] theorem Task.release_watch (t : Task) (cls : BitVec 6) (rs : List (Nat × Nat)) (loc : Bool) : (t.release cls rs loc).watch = t.watch := rfl
@[simp] theorem Task.release_dtroot (t : Task) (cls : BitVec 6) (rs : List (Nat × Nat)) (loc : Bool) : (t.release cls rs loc).dtroot = t.dtroot := rfl
@[simp] theorem Task.release_itroot (t : Task) (cls : BitVec 6) (rs : List (Nat × Nat)) (loc : Bool) : (t.release cls rs loc).itroot = t.itroot := rfl
@[simp] theorem Task.release_blocks (t : Task) (cls : BitVec 6) (rs : List (Nat × Nat)) (loc : Bool) : (t.release cls rs loc).blocks = t.blocks := rfl
@[simp] theorem Task.release_tcp (t : Task) (cls : BitVec 6) (rs : List (Nat × Nat)) (loc : Bool) : (t.release cls rs loc).tcp = t.tcp := rfl
@[simp] theorem Task.release_tkc (t : Task) (cls : BitVec 6) (rs : List (Nat × Nat)) (loc : Bool) : (t.release cls rs loc).tkc = t.tkc := rfl
@[simp] theorem Task.release_acc (t : Task) (cls : BitVec 6) (rs : List (Nat × Nat)) (loc : Bool) : (t.release cls rs loc).acc = t.acc := rfl
@[simp] theorem Task.release_sent (t : Task) (cls : BitVec 6) (rs : List (Nat × Nat)) (loc : Bool) : (t.release cls rs loc).sent = t.sent := rfl
@[simp] theorem Task.release_cmds (t : Task) (cls : BitVec 6) (rs : List (Nat × Nat)) (loc : Bool) : (t.release cls rs loc).cmds = t.cmds := rfl
@[simp] theorem Task.release_eks (t : Task) (cls : BitVec 6) (rs : List (Nat × Nat)) (loc : Bool) : (t.release cls rs loc).eks = t.eks := rfl
@[simp] theorem Task.release_acqs (t : Task) (cls : BitVec 6) (rs : List (Nat × Nat)) (loc : Bool) : (t.release cls rs loc).acqs = t.acqs := rfl
@[simp] theorem Task.release_stage (t : Task) (cls : BitVec 6) (rs : List (Nat × Nat)) (loc : Bool) : (t.release cls rs loc).stage = t.stage := rfl
@[simp] theorem Task.release_sorg (t : Task) (cls : BitVec 6) (rs : List (Nat × Nat)) (loc : Bool) : (t.release cls rs loc).sorg = t.sorg := rfl
@[simp] theorem Task.release_porg (t : Task) (cls : BitVec 6) (rs : List (Nat × Nat)) (loc : Bool) : (t.release cls rs loc).porg = t.porg := rfl
@[simp] theorem Task.release_storg (t : Task) (cls : BitVec 6) (rs : List (Nat × Nat)) (loc : Bool) : (t.release cls rs loc).storg = t.storg := rfl
@[simp] theorem Task.release_mrec (t : Task) (cls : BitVec 6) (rs : List (Nat × Nat)) (loc : Bool) : (t.release cls rs loc).mrec = t.mrec := rfl
@[simp] theorem Task.release_cast (t : Task) (cls : BitVec 6) (rs : List (Nat × Nat)) (loc : Bool) : (t.release cls rs loc).cast = t.cast := rfl
@[simp] theorem Task.release_ran (t : Task) (cls : BitVec 6) (rs : List (Nat × Nat)) (loc : Bool) : (t.release cls rs loc).ran = t.ran := rfl
@[simp] theorem Task.release_hdrs (t : Task) (cls : BitVec 6) (rs : List (Nat × Nat)) (loc : Bool) : (t.release cls rs loc).hdrs = t.hdrs := rfl
@[simp] theorem Task.release_ifence (t : Task) (cls : BitVec 6) (rs : List (Nat × Nat)) (loc : Bool) : (t.release cls rs loc).ifence = t.ifence := rfl
@[simp] theorem Task.release_late (t : Task) (cls : BitVec 6) (rs : List (Nat × Nat)) (loc : Bool) : (t.release cls rs loc).late = t.late := rfl
@[simp] theorem Task.release_wdone (t : Task) (cls : BitVec 6) (rs : List (Nat × Nat)) (loc : Bool) : (t.release cls rs loc).wdone = t.wdone := rfl
@[simp] theorem Task.release_wup (t : Task) (cls : BitVec 6) (rs : List (Nat × Nat)) (loc : Bool) : (t.release cls rs loc).wup = t.wup := rfl
@[simp] theorem Task.release_slot (t : Task) (cls : BitVec 6) (rs : List (Nat × Nat)) (loc : Bool) : (t.release cls rs loc).slot = t.slot := rfl
@[simp] theorem Task.release_kept (t : Task) (cls : BitVec 6) (rs : List (Nat × Nat)) (loc : Bool) : (t.release cls rs loc).kept = t.kept := rfl

@[simp] theorem Task.updFacet_id (t : Task) (f : Fin 8) (g : Facet → Facet) : (t.updFacet f g).id = t.id := rfl
@[simp] theorem Task.updFacet_run (t : Task) (f : Fin 8) (g : Facet → Facet) : (t.updFacet f g).run = t.run := rfl
@[simp] theorem Task.updFacet_frz (t : Task) (f : Fin 8) (g : Facet → Facet) : (t.updFacet f g).frz = t.frz := rfl
@[simp] theorem Task.updFacet_s (t : Task) (f : Fin 8) (g : Facet → Facet) : (t.updFacet f g).s = t.s := rfl
@[simp] theorem Task.updFacet_p (t : Task) (f : Fin 8) (g : Facet → Facet) : (t.updFacet f g).p = t.p := rfl
@[simp] theorem Task.updFacet_bs (t : Task) (f : Fin 8) (g : Facet → Facet) : (t.updFacet f g).bs = t.bs := rfl
@[simp] theorem Task.updFacet_stg (t : Task) (f : Fin 8) (g : Facet → Facet) : (t.updFacet f g).stg = t.stg := rfl
@[simp] theorem Task.updFacet_pc (t : Task) (f : Fin 8) (g : Facet → Facet) : (t.updFacet f g).pc = t.pc := rfl
@[simp] theorem Task.updFacet_bidx (t : Task) (f : Fin 8) (g : Facet → Facet) : (t.updFacet f g).bidx = t.bidx := rfl
@[simp] theorem Task.updFacet_seq (t : Task) (f : Fin 8) (g : Facet → Facet) : (t.updFacet f g).seq = t.seq := rfl
@[simp] theorem Task.updFacet_flights (t : Task) (f : Fin 8) (g : Facet → Facet) : (t.updFacet f g).flights = t.flights := rfl
@[simp] theorem Task.updFacet_pend (t : Task) (f : Fin 8) (g : Facet → Facet) : (t.updFacet f g).pend = t.pend := rfl
@[simp] theorem Task.updFacet_past (t : Task) (f : Fin 8) (g : Facet → Facet) : (t.updFacet f g).past = t.past := rfl
@[simp] theorem Task.updFacet_latch (t : Task) (f : Fin 8) (g : Facet → Facet) : (t.updFacet f g).latch = t.latch := rfl
@[simp] theorem Task.updFacet_trap (t : Task) (f : Fin 8) (g : Facet → Facet) : (t.updFacet f g).trap = t.trap := rfl
@[simp] theorem Task.updFacet_stk (t : Task) (f : Fin 8) (g : Facet → Facet) : (t.updFacet f g).stk = t.stk := rfl
@[simp] theorem Task.updFacet_fp (t : Task) (f : Fin 8) (g : Facet → Facet) : (t.updFacet f g).fp = t.fp := rfl
@[simp] theorem Task.updFacet_finj (t : Task) (f : Fin 8) (g : Facet → Facet) : (t.updFacet f g).finj = t.finj := rfl
@[simp] theorem Task.updFacet_fac (t : Task) (f : Fin 8) (g : Facet → Facet) : (t.updFacet f g).fac = t.fac.set f (g (t.fac.get f)) := rfl
@[simp] theorem Task.updFacet_cnt (t : Task) (f : Fin 8) (g : Facet → Facet) : (t.updFacet f g).cnt = t.cnt := rfl
@[simp] theorem Task.updFacet_kstat (t : Task) (f : Fin 8) (g : Facet → Facet) : (t.updFacet f g).kstat = t.kstat := rfl
@[simp] theorem Task.updFacet_watch (t : Task) (f : Fin 8) (g : Facet → Facet) : (t.updFacet f g).watch = t.watch := rfl
@[simp] theorem Task.updFacet_dtroot (t : Task) (f : Fin 8) (g : Facet → Facet) : (t.updFacet f g).dtroot = t.dtroot := rfl
@[simp] theorem Task.updFacet_itroot (t : Task) (f : Fin 8) (g : Facet → Facet) : (t.updFacet f g).itroot = t.itroot := rfl
@[simp] theorem Task.updFacet_blocks (t : Task) (f : Fin 8) (g : Facet → Facet) : (t.updFacet f g).blocks = t.blocks := rfl
@[simp] theorem Task.updFacet_tcp (t : Task) (f : Fin 8) (g : Facet → Facet) : (t.updFacet f g).tcp = t.tcp := rfl
@[simp] theorem Task.updFacet_tkc (t : Task) (f : Fin 8) (g : Facet → Facet) : (t.updFacet f g).tkc = t.tkc := rfl
@[simp] theorem Task.updFacet_pts (t : Task) (f : Fin 8) (g : Facet → Facet) : (t.updFacet f g).pts = t.pts := rfl
@[simp] theorem Task.updFacet_acc (t : Task) (f : Fin 8) (g : Facet → Facet) : (t.updFacet f g).acc = t.acc := rfl
@[simp] theorem Task.updFacet_sent (t : Task) (f : Fin 8) (g : Facet → Facet) : (t.updFacet f g).sent = t.sent := rfl
@[simp] theorem Task.updFacet_cmds (t : Task) (f : Fin 8) (g : Facet → Facet) : (t.updFacet f g).cmds = t.cmds := rfl
@[simp] theorem Task.updFacet_eks (t : Task) (f : Fin 8) (g : Facet → Facet) : (t.updFacet f g).eks = t.eks := rfl
@[simp] theorem Task.updFacet_fences (t : Task) (f : Fin 8) (g : Facet → Facet) : (t.updFacet f g).fences = t.fences := rfl
@[simp] theorem Task.updFacet_acqs (t : Task) (f : Fin 8) (g : Facet → Facet) : (t.updFacet f g).acqs = t.acqs := rfl
@[simp] theorem Task.updFacet_stage (t : Task) (f : Fin 8) (g : Facet → Facet) : (t.updFacet f g).stage = t.stage := rfl
@[simp] theorem Task.updFacet_sorg (t : Task) (f : Fin 8) (g : Facet → Facet) : (t.updFacet f g).sorg = t.sorg := rfl
@[simp] theorem Task.updFacet_porg (t : Task) (f : Fin 8) (g : Facet → Facet) : (t.updFacet f g).porg = t.porg := rfl
@[simp] theorem Task.updFacet_storg (t : Task) (f : Fin 8) (g : Facet → Facet) : (t.updFacet f g).storg = t.storg := rfl
@[simp] theorem Task.updFacet_mrec (t : Task) (f : Fin 8) (g : Facet → Facet) : (t.updFacet f g).mrec = t.mrec := rfl
@[simp] theorem Task.updFacet_cast (t : Task) (f : Fin 8) (g : Facet → Facet) : (t.updFacet f g).cast = t.cast := rfl
@[simp] theorem Task.updFacet_ran (t : Task) (f : Fin 8) (g : Facet → Facet) : (t.updFacet f g).ran = t.ran := rfl
@[simp] theorem Task.updFacet_hdrs (t : Task) (f : Fin 8) (g : Facet → Facet) : (t.updFacet f g).hdrs = t.hdrs := rfl
@[simp] theorem Task.updFacet_ifence (t : Task) (f : Fin 8) (g : Facet → Facet) : (t.updFacet f g).ifence = t.ifence := rfl
@[simp] theorem Task.updFacet_late (t : Task) (f : Fin 8) (g : Facet → Facet) : (t.updFacet f g).late = t.late := rfl
@[simp] theorem Task.updFacet_wdone (t : Task) (f : Fin 8) (g : Facet → Facet) : (t.updFacet f g).wdone = t.wdone := rfl
@[simp] theorem Task.updFacet_wup (t : Task) (f : Fin 8) (g : Facet → Facet) : (t.updFacet f g).wup = t.wup := rfl
@[simp] theorem Task.updFacet_slot (t : Task) (f : Fin 8) (g : Facet → Facet) : (t.updFacet f g).slot = t.slot := rfl
@[simp] theorem Task.updFacet_kept (t : Task) (f : Fin 8) (g : Facet → Facet) : (t.updFacet f g).kept = t.kept := rfl

@[simp] theorem Task.ekEnd_id (t : Task) (id : Nat) : (t.ekEnd id).id = t.id := rfl
@[simp] theorem Task.ekEnd_run (t : Task) (id : Nat) : (t.ekEnd id).run = t.run := rfl
@[simp] theorem Task.ekEnd_frz (t : Task) (id : Nat) : (t.ekEnd id).frz = t.frz := rfl
@[simp] theorem Task.ekEnd_s (t : Task) (id : Nat) : (t.ekEnd id).s = t.s := rfl
@[simp] theorem Task.ekEnd_p (t : Task) (id : Nat) : (t.ekEnd id).p = t.p := rfl
@[simp] theorem Task.ekEnd_bs (t : Task) (id : Nat) : (t.ekEnd id).bs = t.bs := rfl
@[simp] theorem Task.ekEnd_stg (t : Task) (id : Nat) : (t.ekEnd id).stg = t.stg := rfl
@[simp] theorem Task.ekEnd_pc (t : Task) (id : Nat) : (t.ekEnd id).pc = t.pc := rfl
@[simp] theorem Task.ekEnd_bidx (t : Task) (id : Nat) : (t.ekEnd id).bidx = t.bidx := rfl
@[simp] theorem Task.ekEnd_seq (t : Task) (id : Nat) : (t.ekEnd id).seq = t.seq := rfl
@[simp] theorem Task.ekEnd_flights (t : Task) (id : Nat) : (t.ekEnd id).flights = t.flights := rfl
@[simp] theorem Task.ekEnd_pend (t : Task) (id : Nat) : (t.ekEnd id).pend = t.pend := rfl
@[simp] theorem Task.ekEnd_past (t : Task) (id : Nat) : (t.ekEnd id).past = t.past := rfl
@[simp] theorem Task.ekEnd_latch (t : Task) (id : Nat) : (t.ekEnd id).latch = t.latch := rfl
@[simp] theorem Task.ekEnd_trap (t : Task) (id : Nat) : (t.ekEnd id).trap = t.trap := rfl
@[simp] theorem Task.ekEnd_stk (t : Task) (id : Nat) : (t.ekEnd id).stk = t.stk := rfl
@[simp] theorem Task.ekEnd_fp (t : Task) (id : Nat) : (t.ekEnd id).fp = t.fp := rfl
@[simp] theorem Task.ekEnd_finj (t : Task) (id : Nat) : (t.ekEnd id).finj = t.finj := rfl
@[simp] theorem Task.ekEnd_fac (t : Task) (id : Nat) : (t.ekEnd id).fac = t.fac := rfl
@[simp] theorem Task.ekEnd_cnt (t : Task) (id : Nat) : (t.ekEnd id).cnt = t.cnt.sub .kc := rfl
@[simp] theorem Task.ekEnd_kstat (t : Task) (id : Nat) : (t.ekEnd id).kstat = t.kstat := rfl
@[simp] theorem Task.ekEnd_watch (t : Task) (id : Nat) : (t.ekEnd id).watch = t.watch := rfl
@[simp] theorem Task.ekEnd_dtroot (t : Task) (id : Nat) : (t.ekEnd id).dtroot = t.dtroot := rfl
@[simp] theorem Task.ekEnd_itroot (t : Task) (id : Nat) : (t.ekEnd id).itroot = t.itroot := rfl
@[simp] theorem Task.ekEnd_blocks (t : Task) (id : Nat) : (t.ekEnd id).blocks = t.blocks := rfl
@[simp] theorem Task.ekEnd_tcp (t : Task) (id : Nat) : (t.ekEnd id).tcp = t.tcp := rfl
@[simp] theorem Task.ekEnd_pts (t : Task) (id : Nat) : (t.ekEnd id).pts = t.pts := rfl
@[simp] theorem Task.ekEnd_acc (t : Task) (id : Nat) : (t.ekEnd id).acc = t.acc := rfl
@[simp] theorem Task.ekEnd_sent (t : Task) (id : Nat) : (t.ekEnd id).sent = t.sent := rfl
@[simp] theorem Task.ekEnd_cmds (t : Task) (id : Nat) : (t.ekEnd id).cmds = t.cmds := rfl
@[simp] theorem Task.ekEnd_eks (t : Task) (id : Nat) : (t.ekEnd id).eks = t.eks.filter fun e => e.id != id := rfl
@[simp] theorem Task.ekEnd_fences (t : Task) (id : Nat) : (t.ekEnd id).fences = t.fences := rfl
@[simp] theorem Task.ekEnd_acqs (t : Task) (id : Nat) : (t.ekEnd id).acqs = t.acqs := rfl
@[simp] theorem Task.ekEnd_stage (t : Task) (id : Nat) : (t.ekEnd id).stage = t.stage := rfl
@[simp] theorem Task.ekEnd_sorg (t : Task) (id : Nat) : (t.ekEnd id).sorg = t.sorg := rfl
@[simp] theorem Task.ekEnd_porg (t : Task) (id : Nat) : (t.ekEnd id).porg = t.porg := rfl
@[simp] theorem Task.ekEnd_storg (t : Task) (id : Nat) : (t.ekEnd id).storg = t.storg := rfl
@[simp] theorem Task.ekEnd_mrec (t : Task) (id : Nat) : (t.ekEnd id).mrec = t.mrec := rfl
@[simp] theorem Task.ekEnd_cast (t : Task) (id : Nat) : (t.ekEnd id).cast = t.cast := rfl
@[simp] theorem Task.ekEnd_ran (t : Task) (id : Nat) : (t.ekEnd id).ran = t.ran := rfl
@[simp] theorem Task.ekEnd_hdrs (t : Task) (id : Nat) : (t.ekEnd id).hdrs = t.hdrs := rfl
@[simp] theorem Task.ekEnd_ifence (t : Task) (id : Nat) : (t.ekEnd id).ifence = t.ifence := rfl
@[simp] theorem Task.ekEnd_late (t : Task) (id : Nat) : (t.ekEnd id).late = t.late := rfl
@[simp] theorem Task.ekEnd_wdone (t : Task) (id : Nat) : (t.ekEnd id).wdone = t.wdone := rfl
@[simp] theorem Task.ekEnd_wup (t : Task) (id : Nat) : (t.ekEnd id).wup = t.wup := rfl
@[simp] theorem Task.ekEnd_slot (t : Task) (id : Nat) : (t.ekEnd id).slot = t.slot := rfl
@[simp] theorem Task.ekEnd_kept (t : Task) (id : Nat) : (t.ekEnd id).kept = t.kept := rfl

end Sys2Proof.Machine
end

