-- ==== Sys2Proof/Laws/Ops.lean ====
section
/-! SUPPORT. What the shared operations can do, once each: guards, writes in flight, transfers, accesses at their issue, translated
ranges, fills of the instruction cache, and steps about a task. -/

namespace Sys2Proof.Machine

/-! Sorting. -/

theorem insertBy_mem {α : Type} (key : α → Nat) (x y : α) (l : List α) : y ∈ insertBy key x l ↔ y = x ∨ y ∈ l := by
  induction l with
  | nil => simp [insertBy]
  | cons z l ih => simp only [insertBy]; split <;> simp only [List.mem_cons, ih]; tauto

theorem sortBy_mem {α : Type} (key : α → Nat) (l : List α) (y : α) : y ∈ sortBy key l ↔ y ∈ l := by
  have : ∀ acc : List α, y ∈ l.foldl (fun acc x => insertBy key x acc) acc ↔ y ∈ acc ∨ y ∈ l := by
    induction l with
    | nil => simp
    | cons x l ih => intro acc; simp only [List.foldl_cons, ih, insertBy_mem, List.mem_cons]; tauto
  simpa [sortBy] using this []

/-! Guards and writes in flight. -/

theorem guarded_on {s : State} {g : Fin 16} (f : State → State) (h : s.on g = true) : guarded g f s = .next (f s) := by
  simp [guarded, h]

theorem guarded_off {s : State} {g : Fin 16} (f : State → State) (h : s.on g = false) : guarded g f s = .next s := by
  simp [guarded, h]

theorem fly_eq (s : State) (d : FDst) (lat : Nat) (v : FVal) (o : Origin) : s.fly d lat v o = s.withWrite d lat v o := rfl

theorem wr_eq (s : State) (g : Fin 16) (d : Dst) (lat : Nat) (x : W64) (o : Origin) :
    s.wr g d lat x o = s.withWrite (Dst.flight d) lat (.w x) (o.join (s.t.porg.get g)) := rfl

theorem count_eq (s : State) (k : Cnt) : s.count k = s.counts k := rfl

theorem trap_eq (s : State) (code need : Nat) : s.trap code need = s.takesTrap code need := rfl

theorem hold_eq (s : State) : s.hold = s.isHeld := rfl

theorem freeze_eq (s : State) (f : Freeze) : s.freeze f = s.freezes f := rfl

/-- A two-source operation of the scalar slots, by the function of its values. -/
theorem yields2 {i : OR3 → Instr} {lat : Nat} (f : W64 → W64 → W64) {r : W64 → W64 → W64 → Prop}
    (h : ∀ o s, exec (i o) s = alu2 lat f o s) (hr : ∀ a b, r a b (f a b)) : Yields2 i lat r := by
  intro o s hg
  exact ⟨_, by rw [h, alu2, guarded_on _ hg]; rfl, hr _ _⟩

theorem yields1 {i : OR2 → Instr} (f : W64 → W64) {r : W64 → W64 → Prop} (h : ∀ o s, exec (i o) s = alu1 f o s)
    (hr : ∀ a, r a (f a)) : Yields1 i r := by
  intro o s hg
  exact ⟨_, by rw [h, alu1, guarded_on _ hg]; rfl, hr _⟩

/-! Transfers (R122, R141). -/

theorem transfer_ok (s : State) (x : W64) (d : Nat) (f : State → State) (h : goodTarget x) (hc : s.noCollision d) :
    s.transfer x d f = f (s.willGo d (x.setWidth 57)) := by
  unfold State.transfer
  have h1 : ¬(x.toNat % 8 ≠ 0 || 2 ^ 57 ≤ x.toNat) = true := by simp [goodTarget] at h ⊢; omega
  have h2 : ¬(s.t.pend.any fun p => p.due == s.t.bidx + d) = true := by
    simp only [List.any_eq_true, beq_iff_eq, not_exists, not_and]; exact hc
  rw [if_neg h1, if_neg h2]; rfl

theorem transfer_bad (s : State) (x : W64) (d : Nat) (f : State → State) (h : ¬goodTarget x) :
    s.transfer x d f = s.takesTrap 0x15 0 := by
  unfold State.transfer
  have h1 : (x.toNat % 8 ≠ 0 || 2 ^ 57 ≤ x.toNat) = true := by simp [goodTarget] at h ⊢; omega
  rw [if_pos h1]; rfl

theorem transfer_collision (s : State) (x : W64) (d : Nat) (f : State → State) (h : goodTarget x) (hc : ¬s.noCollision d) :
    s.transfer x d f = s.takesTrap 0x11 0 := by
  unfold State.transfer
  have h1 : ¬(x.toNat % 8 ≠ 0 || 2 ^ 57 ≤ x.toNat) = true := by simp [goodTarget] at h ⊢; omega
  have h2 : (s.t.pend.any fun p => p.due == s.t.bidx + d) = true := by
    simp only [List.any_eq_true, beq_iff_eq]
    simpa [State.noCollision] using hc
  rw [if_neg h1, if_pos h2]; rfl

/-! Accesses at their issue (R163, R234, R245). -/

theorem touch_t (s : State) (a : Nat) : (s.touch a).t = s.t := by
  unfold State.touch; simp only; split <;> rfl

theorem addrTrap_ok {a : W64} {n : Nat} (h : goodAddr a n) : addrTrap a n = none := by
  unfold addrTrap; rw [if_neg (by have := h.1; omega), if_neg (by simp; exact h.2)]

theorem addrTrap_range {a : W64} {n : Nat} (h : 2 ^ 57 ≤ a.toNat) : addrTrap a n = some 0x31 := by
  unfold addrTrap; rw [if_pos h]

theorem addrTrap_misaligned {a : W64} {n : Nat} (h : a.toNat < 2 ^ 57) (hn : a.toNat % n ≠ 0) : addrTrap a n = some 0x30 := by
  unfold addrTrap; rw [if_neg (by omega), if_pos hn]

/-- An access that nothing holds goes on to its address. -/
theorem unheld_go {s : State} {a : W64} {n : Nat} {cls : BitVec 6} {k : Cnt} {loc : Bool} (h : s.unheld a n cls k loc) :
    (s.cntFull (some k) || s.memHeld cls [(a.toNat, n)] loc) = false := by
  simp only [State.cntFull, State.full, h.2, Bool.or_false, decide_eq_false_iff_not, not_le]
  exact h.1

theorem held_stop {s : State} {a : W64} {n : Nat} {cls : BitVec 6} {k : Cnt} {loc : Bool} (h : ¬s.unheld a n cls k loc) :
    (s.cntFull (some k) || s.memHeld cls [(a.toNat, n)] loc) = true := by
  simp only [State.unheld, not_and_or, not_lt, Bool.not_eq_false] at h
  simpa [State.cntFull, State.full] using h

theorem am_ok (s : State) (r : AmReq) (k : Cnt) (f : Tr → State → State) (tr : Tr) (hk : r.cnt = some k)
    (h : s.unheld r.addr r.size r.cls k false) (hg : goodAddr r.addr r.size)
    (hl : s.look r.addr.toNat r.size r.write none = .ok tr) : s.am r f = f tr (s.touch r.addr.toNat) := by
  unfold State.am
  rw [hk]
  simp only [unheld_go h, addrTrap_ok hg, hl]
  rfl

theorem am_held (s : State) (r : AmReq) (k : Cnt) (f : Tr → State → State) (hk : r.cnt = some k)
    (h : ¬s.unheld r.addr r.size r.cls k false) : s.am r f = s.isHeld := by
  unfold State.am
  rw [hk]
  simp only [held_stop h]
  rfl

theorem am_trap (s : State) (r : AmReq) (k : Cnt) (f : Tr → State → State) (c : Nat) (hk : r.cnt = some k)
    (h : s.unheld r.addr r.size r.cls k false) (ht : addrTrap r.addr r.size = some c) : s.am r f = s.takesTrap c 0 := by
  unfold State.am
  rw [hk]
  simp only [unheld_go h, ht]
  rfl

theorem am_miss (s : State) (r : AmReq) (k : Cnt) (f : Tr → State → State) (hk : r.cnt = some k)
    (h : s.unheld r.addr r.size r.cls k false) (hg : goodAddr r.addr r.size)
    (hl : s.look r.addr.toNat r.size r.write none = .miss) :
    s.am r f = s.freezes (.walk (s.req r.addr.toNat r.kind r.scope r.write)) := by
  unfold State.am
  rw [hk]
  simp only [unheld_go h, addrTrap_ok hg, hl]
  rfl

theorem am_fault (s : State) (r : AmReq) (k : Cnt) (f : Tr → State → State) (c : Nat) (hk : r.cnt = some k)
    (h : s.unheld r.addr r.size r.cls k false) (hg : goodAddr r.addr r.size)
    (hl : s.look r.addr.toNat r.size r.write none = .fault c) :
    ∃ l e, s.am r f = s.freezes (.fault (s.req r.addr.toNat r.kind r.scope r.write) c l e none) := by
  unfold State.am
  rw [hk]
  simp only [unheld_go h, addrTrap_ok hg, hl]
  exact ⟨_, _, rfl⟩

/-- What an access of the AM slot does where it does not issue. -/
theorem am_stops {i : Instr} {s : State} (r : AmReq) (k : Cnt) (f : Tr → State → State) (hk : r.cnt = some k)
    (he : exec i s = .next (s.am r f)) : Stops i s r.addr r.size r.cls k r.write r.kind r.scope := by
  refine ⟨fun h => ?_, fun h h1 => ?_, fun h h1 h2 => ?_, fun h hg hl => ?_, fun c h hg hl => ?_⟩
  · rw [he, am_held _ _ _ _ hk h]
  · rw [he, am_trap _ _ _ _ _ hk h (addrTrap_range h1)]
  · rw [he, am_trap _ _ _ _ _ hk h (addrTrap_misaligned h1 h2)]
  · rw [he, am_miss _ _ _ _ hk h hg hl]; rfl
  · obtain ⟨l, e, hx⟩ := am_fault _ _ _ f _ hk h hg hl
    exact ⟨l, e, by rw [he, hx]; rfl⟩

/-! Whether a class holds loads and stores. -/

theorem cLD_ld : (cLD &&& cLD != 0) = true := by decide
theorem cST_ld : (cST &&& cLD != 0) = false := by decide
theorem cAtomic_ld : ((cLD ||| cST) &&& cLD != 0) = true := by decide
theorem cLD_st : cLD &&& cST = 0 := by decide
theorem cST_st : cST &&& cST ≠ 0 := by decide
theorem cAtomic_st : (cLD ||| cST) &&& cST ≠ 0 := by decide

/-- What an access does that takes its place: one that stores ends staging first, unless staging takes it in. -/
theorem addAcc_eq (s : State) (r : AccReq) (ld st : Bool) (hc : r.cls = (if ld then cLD else 0) ||| (if st then cST else 0)) :
    s.addAcc r =
      (if st && !r.stages s then s.endStaging else s).withAccess r.op r.write r.level r.scope r.acq r.rel ld st r.loc (r.stages s)
        r.flight r.pieces := by
  have h1 : (r.cls &&& cLD != 0) = ld := by rw [hc]; cases ld <;> cases st <;> decide
  have h2 : (r.cls &&& cST != 0) = st := by rw [hc]; cases ld <;> cases st <;> decide
  simp only [State.addAcc, h1, h2]
  rw [hc]
  rfl

/-- A load takes its place in program order. -/
theorem addAcc_load (s : State) (r : AccReq) (h : r.cls = cLD) :
    s.addAcc r = s.withAccess r.op r.write r.level r.scope r.acq r.rel true false r.loc false r.flight r.pieces := by
  have h2 : r.stages s = false := by simp [AccReq.stages, h, cLD, cST]
  rw [addAcc_eq s r true false (by rw [h]; rfl), h2]
  rfl

theorem addAcc_staged (s : State) (r : AccReq) (ld : Bool) (hc : r.cls = (if ld then cLD else 0) ||| cST) (hs : r.stages s = true) :
    s.addAcc r = s.withAccess r.op r.write r.level r.scope r.acq r.rel ld true r.loc true r.flight r.pieces := by
  rw [addAcc_eq s r ld true hc, hs]
  rfl

theorem addAcc_store (s : State) (r : AccReq) (ld : Bool) (hc : r.cls = (if ld then cLD else 0) ||| cST) (hs : r.stages s = false) :
    s.addAcc r =
      s.endStaging.withAccess r.op r.write r.level r.scope r.acq r.rel ld true r.loc false r.flight r.pieces := by
  rw [addAcc_eq s r ld true hc, hs]
  rfl

theorem endStaging_off (s : State) (h : s.t.stage.mode ≠ .staging) : s.endStaging = s := by
  unfold State.endStaging; rw [if_neg h]

theorem countStore_withAccess (s : State) (op : AccOp) (write : Bool) (level : Level) (scope : Nat) (acq rel isLd isSt loc st : Bool)
    (fl : Option Nat) (ps : List Piece) :
    (s.withAccess op write level scope acq rel isLd isSt loc st fl ps).countStore =
      if st = true then s.withAccess op write level scope acq rel isLd isSt loc st fl ps
      else (s.withAccess op write level scope acq rel isLd isSt loc st fl ps).counts .st := by
  unfold State.countStore
  simp only [State.withAccess_t, List.getLast?_append, List.getLast?_singleton, Option.some_or]
  rfl

/-! Little-endian bytes. -/

theorem leBytes_range (n x : Nat) : leBytes n x = (List.range n).map fun k => BitVec.ofNat 8 (x / 2 ^ (8 * k)) := by
  induction n generalizing x with
  | zero => rfl
  | succ n ih =>
    rw [List.range_succ_eq_map, List.map_cons, leBytes, ih, List.map_map]
    congr 1
    · simp
    · apply List.map_congr_left
      intro k _
      simp only [Function.comp_apply, Nat.div_div_eq_div_mul]
      congr 2
      rw [show 8 * (k + 1) = 8 + 8 * k by omega, pow_add]; rfl

theorem leBytes_length (n x : Nat) : (leBytes n x).length = n := by rw [leBytes_range]; simp

end Sys2Proof.Machine
end

