-- ==== Sys2Proof/Laws/Steps.lean ====
section
/-! SUPPORT. A step about one task, the shared operations over a memory that holds nothing narrow, and the issue of a bundle. -/

namespace Sys2Proof.Machine

/-- A step about a task that exists brings it into focus, acts, and puts the old focus back. -/
theorem onTask_eq (s : State) (u : Nat) (h : s.hasTask u = true) (g : State → State) :
    s.onTask u g = s.back (g (s.focus u)) := by
  simp [State.onTask, h, State.back]

theorem core_num (s : State) (n : Nat) : (s.core n).num = n := by
  unfold State.core; split
  · rename_i c h; have := List.find?_some h; simpa using this
  · rfl

theorem core_setCore (s : State) (c : Core) : (s.setCore c).core c.num = c := by
  simp [State.setCore, State.core]

/-- With no failed copy a look-up compares nothing. -/
theorem lookupCopies_nil (s : State) (pas : List (Nat × Nat)) (h : s.ros.copies = []) : s.lookupCopies pas = s := by
  unfold State.lookupCopies; rw [h]; rfl

/-- A line just filled is found. -/
theorem icacheFillLine_find (f : State) (key : Option Byte) (line : Nat) (hl : f.ros.copies = []) :
  icacheFind ((f.icacheFillLine key line).core f.t.id.core).icache (asidOf f.t.dtroot) line =
          some (f.readLine key (asidOf f.t.dtroot) line) := by
  unfold State.icacheFillLine
  simp only [lookupCopies_nil _ _ hl]
  generalize hc : f.core f.t.id.core = c
  have hn : c.num = f.t.id.core := by rw [← hc, core_num]
  have := core_setCore f { c with icache := icacheAdd (f.readLine key (asidOf f.t.dtroot) line) c.icache }
  rw [← hn]
  simp only [] at this
  rw [this]
  simp [icacheAdd, icacheFind, State.readLine]

/-- With nothing narrow in memory no write is raised. -/
theorem raiseTo_nil (s : State) (out : Wr → Level) (h : s.mem.narrow = []) : s.raiseTo out = s := by
  unfold State.raiseTo
  have : ∀ r : List Nat, r.foldl (fun (s : State) k =>
    (sortBy (·.seq) (s.mem.narrow.filter fun w => k < (out w).val && w.level.val == k)).foldl (fun s w => s.raise1 w.seq) s) s = s := by
    intro r
    induction r with
    | nil => rfl
    | cons x r ih => rw [List.foldl_cons, h]; simp only [List.filter_nil]; exact ih
  exact this _

theorem closure_nil (m : Mem) (core : Nat) (l : Level) (sel : Wr → Bool) (h : m.narrow = []) : m.closure core l sel = [] := by
  unfold Mem.closure; rw [h]; rfl

theorem carry_nil (s : State) (sel : Wr → Bool) (l : Level) (h : s.mem.narrow = []) : s.carry sel l = some s := by
  unfold State.carry
  simp only [closure_nil _ _ _ _ h, List.all_nil, if_true, raiseTo_nil _ _ h]

theorem join_nil (s : State) (l : Level) (parts : List (Tr × Nat)) (h : s.mem.narrow = []) : s.join l parts = some s := by
  unfold State.join
  induction parts with
  | nil => rfl
  | cons x r ih =>
    rw [List.foldl_cons]
    simp only [Option.bind_some, carry_nil _ _ _ h]
    exact ih

/-- A range inside one 64 KiB page is one piece. -/
theorem splitPages_one (va n : Nat) (h0 : 0 < n) (h : va % 65536 + n ≤ 65536) : splitPages va n = [(va, n)] := by
  unfold splitPages
  have : n / 65536 + 2 = (n / 65536 + 1) + 1 := rfl
  rw [this, splitGo, if_neg (by omega)]
  have : min n (65536 - va % 65536) = n := by omega
  simp only [this, Nat.sub_self]
  rw [splitGo, if_pos rfl]

theorem phys_device (s : State) (pa) (h : region pa = .device) : s.phys pa = pa := by
  unfold State.phys physOf; rw [h]

theorem levelAt_device (pa l) (h : region pa = .device) : levelAt pa l = l := by
  unfold levelAt; rw [h]

/-- With nothing in a narrower order, the byte that stands last is the device-wide one. -/
theorem raw_plain (m : Mem) (l t c pa) (h : m.narrow = []) (hp : m.past = []) :
    m.raw l t c pa = { val := cellGet pa m.cells, key := tagOf m (pa / 64), at_ := stampGet pa m.stamps } := by
  unfold Mem.raw; simp [h, hp]

theorem readByte_plain (m : Mem) (l t c pa) (h : m.narrow = []) (hp : m.past = []) (ht : m.tags = []) :
    (m.readByte l t c none pa).1 = cellGet pa m.cells := by
  unfold Mem.readByte Raw.through
  simp [raw_plain _ _ _ _ _ h hp, tagOf, ht]

theorem readBytes_plain (m : Mem) (l t c pa n) (h : m.narrow = []) (hp : m.past = []) (ht : m.tags = []) :
    (m.readBytes l t c none pa n).1 = (List.range n).map fun i => cellGet (pa + i) m.cells := by
  unfold Mem.readBytes
  simp only [List.map_map]
  apply List.map_congr_left
  intro i _
  exact readByte_plain _ _ _ _ _ h hp ht

theorem overlay_nil (t : Task) (pa b) (h : t.stage.bytes = []) : t.overlay pa b = b := by
  unfold Task.overlay
  rw [h]
  simp only [List.find?_nil]
  exact List.zipIdx_map_fst 0 b

theorem readParts_one (s : State) (l : Level) (tr : Tr) (n : Nat) (h : s.mem.narrow = []) (hp : s.mem.past = [])
    (ht : s.mem.tags = []) (he : tr.e = false)
    (hr : region tr.pa = .device) (hs : s.t.stage.bytes = []) :
   (s.readParts l [(tr, n)]).1 = (List.range n).map fun i => cellGet (tr.pa + i) s.mem.cells := by
  unfold State.readParts
  simp only [List.foldl_cons, List.foldl_nil, phys_device _ _ hr, levelAt_device _ _ hr]
  have : tr.key = none := by simp [Tr.key, he]
  rw [this]
  have e := readBytes_plain s.mem l s.t.id.uid s.t.id.core tr.pa n h hp ht
  rw [overlay_nil _ _ _ hs, List.nil_append]
  exact e

/-- A scalar load or store waits for engine work only. -/
theorem accReady_plain (s : State) (a : Acc) (he : s.t.eks = []) (hc : s.t.cmds = [])
    (h : a.op = .stS ∨ ∃ d, a.op = .ldS d) : s.accReady a = true := by
  unfold State.accReady
  simp only [Task.takeBefore, Task.clearBefore, he, hc]
  rcases h with h | ⟨d, h⟩ <;> rw [h] <;> simp

theorem poisonIn_nil (s : State) (l : Level) (parts : List (Tr × Nat)) (h : s.mem.poison = []) : s.poisonIn l parts = none := by
  unfold State.poisonIn
  have hb : ∀ l u c pa n, s.badIn l u c pa n = none := by
    intro l u c pa n; unfold State.badIn State.badLine; rw [h]; simp
  induction parts with
  | nil => rfl
  | cons x r ih => simp only [hb, List.findSome?_cons] at ih ⊢; exact ih

theorem focus_uid (s : State) (u : Nat) (h : s.hasTask u = true) : (s.focus u).t.id.uid = u := by
  unfold State.focus
  split
  · assumption
  · rename_i h1
    split
    · rename_i x hx; have := List.find?_some hx; simpa using this
    · rename_i hx
      rw [List.find?_eq_none] at hx
      simp [State.hasTask, State.tasks, h1] at h
      obtain ⟨x, h2, h3⟩ := h
      have := hx x h2; simp_all

/-- With no ready block a read refills nothing. -/
theorem refill_none (s : State) (parts : List (Tr × Nat)) (t : Nat) (h : ∀ k : Fin 16, (s.t.blocks.get k).flag ≠ 2) :
    s.refill parts t = s := by
  unfold State.refill
  generalize List.finRange 16 = r
  induction r with
  | nil => rfl
  | cons x r ih => rw [List.foldl_cons]; simp only [h, decide_false, Bool.and_false, Bool.false_and, if_neg Bool.false_ne_true]; exact ih

/-- A piece within one page that was translated at its issue keeps that translation. -/
theorem lookFirst_one (s : State) (tr : Tr) (va n : Nat) (root : W64) (w : Bool) (need : Option Nat) (h0 : 0 < n)
    (h1 : tr.room va n = n) (hh : s.hostGone tr = false) : s.lookFirst [tr] va n root w need = .ok [(tr, n)] := by
  have h2 : n ≠ 0 := by omega
  simp [State.lookFirst, restPages, keptParts, partsLen, h1, h2, hh, splitPages, splitGo, State.lookPieces]

theorem lookupParts_nil (s : State) (parts : List (Tr × Nat)) (h : s.ros.copies = []) : s.lookupParts parts = s := by
  unfold State.lookupParts; exact lookupCopies_nil _ _ h

theorem updAcc_head (s : State) (a : Acc) (l : List Acc) (f) (h : s.t.acc = a :: l) (hl : ∀ x ∈ l, x.id ≠ a.id) :
    s.updAcc a.id f = { s with t := { s.t with acc := f a :: l } } := by
  show ({ s with t := { s.t with acc := List.map (fun b => if b.id = a.id then f b else b) s.t.acc } } : State) = _
  rw [h]
  have : List.map (fun b => if b.id = a.id then f b else b) (a :: l) = f a :: l := by
    simp only [List.map_cons, if_true]
    congr 1
    conv_rhs => rw [← List.map_id l]
    apply List.map_congr_left
    intro x hx; rw [if_neg (hl x hx)]; rfl
  rw [this]

theorem dropAcc_head (s : State) (a b : Acc) (l : List Acc) (h : s.t.acc = b :: l) (hb : b.id = a.id) (hl : ∀ x ∈ l, x.id ≠ a.id) :
    s.dropAcc a.id = { s with t := { s.t with acc := l } } := by
  show ({ s with t := { s.t with acc := List.filter (fun c => c.id != a.id) s.t.acc } } : State) = _
  rw [h]
  have : List.filter (fun c => c.id != a.id) (b :: l) = l := by
    rw [List.filter_cons_of_neg (by simp [hb])]
    rw [List.filter_eq_self]; intro x hx; simpa using hl x hx
  rw [this]

/-- Syllables that all take effect leave no stop. -/
theorem issuing_run_runsTo (l : List Syl) : ∀ (s t : State), runsTo l s t →
    Issuing.run exec l { cur := s, worst := none, ahead := none } = .next { cur := t, worst := none, ahead := none } := by
  induction l with
  | nil => intro s t h; cases h; rfl
  | cons x l ih =>
    intro s t h
    obtain ⟨r, hx, h0, hr⟩ := h
    have h1 : ({ r with fv := r.fv + 1 } : State).stopRank = 0 := h0
    have : Issuing.step { cur := s, worst := none, ahead := none } x (exec x.ins) =
        .next { cur := { r with fv := r.fv + 1 }, worst := none, ahead := none } := by
      simp only [Issuing.step, ite_self, Option.getD_none, State.withT]
      rw [hx]
      simp only [joinStop, h1]
      simp
    simp only [Issuing.run, this]
    exact ih _ _ hr

/-- The target of a branch is the address that its offset names. -/
theorem ofsTarget_eq (s : State) {n : Nat} (ix : Option W32) (ofs : BitVec n) (hn : n ≤ 64) (x : W64)
    (h : s.offsetTarget ix ofs x) :
    s.ofsTarget ix ofs = x := by
  unfold State.offsetTarget at h
  unfold State.ofsTarget
  apply BitVec.eq_of_toNat_eq
  have key : ∀ (y : W64) (k : Int), y.toInt = k → (x.toNat : Int) = (s.t.latch.addr.toNat + 8 * k) % 2 ^ 64 →
      (s.t.latch.addr.setWidth 64 + y * 8).toNat = x.toNat := by
    intro y k hy hx
    have h2 := BitVec.toInt_eq_toNat_bmod y
    rw [hy, Int.bmod_def] at h2
    have h4 := s.t.latch.addr.isLt
    have h5 := y.isLt
    have : (8 : W64).toNat = 8 := rfl
    simp only [BitVec.toNat_add, BitVec.toNat_mul, BitVec.toNat_setWidth, this]
    clear hn h ofs
    norm_num at h2 hx ⊢
    split at h2 <;> omega
  cases ix with
  | none => exact key _ _ (BitVec.toInt_signExtend_of_le hn) h
  | some y => exact key _ _ (BitVec.toInt_signExtend_of_le (by decide)) h

/-- Where no QTAKE waits, none takes a slot. -/
theorem takeAll_none (s : State) (h : ∀ t ∈ s.tasks, t.waitingTakes = []) : s.takeAll = s := by
  unfold State.takeAll
  have : ∀ l : List Task, (∀ t ∈ l, t.waitingTakes = []) → l.flatMap Task.waitingTakes = [] := by
    intro l hl; rw [List.flatMap_eq_nil_iff]; exact hl
  simp only [this _ (fun t ht => h t ((sortBy_mem _ _ _).mp ht)), List.foldl_nil]

/-- Where no QTAKE waits and nothing was looked up, nothing follows a move. -/
theorem settle_none (s : State) (hm : s.ros.met = []) (h : ∀ t ∈ s.tasks, t.waitingTakes = []) : s.settle = s := by
  unfold State.settle
  simp only [hm, List.isEmpty_nil, if_true]
  exact takeAll_none s h

/-- A turn that names a running task issues its next bundle. -/
theorem step_issue (s : State) (u : Nat) (l : List Choice) (ht : s.turn = .issue u :: l) (hu : s.hasTask u = true)
   (f : State) (hf : f = ({ s with turn := l } : State).focus u) (h1 : f.t.run = .running) (h2 : f.coreFrozen = false)
   (h3 : f.mustStop = false) (h4 : f.t.cast = none) (h5 : f.t.id.haltReq = false) (hr : s.ros.recovery = false) :
   step s = match f.issueBundle with | .next r => .next r.settle | x => x := by
  have h6 : f.issue = f.issueBundle := by unfold State.issue; rw [h1]; simp only [h2, h3, h4, h5]; simp
  have h7 : ({ s with turn := l } : State).hasTask u = true := hu
  unfold step; rw [ht]
  simp only [State.choose, State.chosen, State.issueTask, h7, if_true, ← hf, h6]
  rw [hr]; cases f.issueBundle <;> rfl

end Sys2Proof.Machine
end

