-- ==== Sys2Proof/Laws/Nodes.lean ====
section
/-! SUPPORT. What the queue controller's operations do to the nodes and the tasks: a write of a status, an end of a task, and the
kill of a node. -/

namespace Sys2Proof.Machine

/-! Writes of memory leave the nodes. -/

@[simp] theorem fire_nodes (s : State) (pa n : Nat) (l : Level) (task core : Nat) (old : Option Level) (t : Nat) :
    (s.fire pa n l task core old t).nodes = s.nodes := rfl

@[simp] theorem meet_nodes (s : State) (l : List Nat) : (s.meet l).nodes = s.nodes := by unfold State.meet; split <;> rfl

/-- Where the copies of the containment structures agree, a look-up does nothing. -/
theorem meet_nil (s : State) (l : List Nat) (h : s.ros.copies = []) : s.meet l = s := by simp [State.meet, h]

@[simp] theorem devWrite_nodes (s : State) (key : Option Byte) (pa : Nat) (b : List Byte) : (s.devWrite key pa b).nodes = s.nodes := by
  simp [State.devWrite]

@[simp] theorem tenantMet_nodes (s : State) (pi : Fin 16) (root : W64) (asid : Byte) (va n : Nat) :
    (s.tenantMet pi root asid va n).nodes = s.nodes := meet_nodes _ _

@[simp] theorem tenantWriteOf_nodes (s : State) (pi : Fin 16) (root : W64) (asid : Byte) (va : Nat) (b : List Byte) :
    (s.tenantWriteOf pi root asid va b).nodes = s.nodes := by
  unfold State.tenantWriteOf; dsimp only; split <;> simp

@[simp] theorem tenantWrite_nodes (s : State) (pi : Fin 16) (va : Nat) (b : List Byte) : (s.tenantWrite pi va b).nodes = s.nodes := by
  simp [State.tenantWrite]

@[simp] theorem writeStatus_nodes (s : State) (k : Nat) : (s.writeStatus k).nodes = s.nodes := by
  unfold State.writeStatus; split <;> simp

@[simp] theorem signal_nodes (s : State) (fn : Fin 64) (v : Fin 4) : (s.signal fn v).nodes = s.nodes := rfl

@[simp] theorem updLaunch_nodes (s : State) (k : Nat) (f : Launch → Launch) : (s.updLaunch k f).nodes = s.nodes := rfl

@[simp] theorem writeLaunch_nodes (s : State) (k : Nat) : (s.writeLaunch k).nodes = s.nodes := by
  unfold State.writeLaunch; split
  · dsimp only; split <;> simp
  · rfl

@[simp] theorem checkLaunch_nodes (s : State) (k : Nat) : (s.checkLaunch k).nodes = s.nodes := by
  unfold State.checkLaunch; split
  · dsimp only; split <;> simp
  · rfl

@[simp] theorem slip_nodes (s : State) (n : Node) : (s.slip n).nodes = s.nodes := by
  unfold State.slip; dsimp only; split
  · rfl
  · split
    · simp
    · split <;> simp

/-- A node enters a state: its nodes, up to the mailbox that a final state empties. -/
theorem nodeTo_nodes (s : State) (k : Nat) (st : NState) (h : (s.node k).isSome = true) :
    (s.nodeTo k st).nodes = s.nodes.map fun n =>
      if n.key = k then (if st.final then { n with state := st, mbox := [] } else { n with state := st }) else n := by
  obtain ⟨x, hx⟩ := Option.isSome_iff_exists.mp h
  have hk : ((s.updNode k fun n => { n with state := st }).writeStatus k).node k = some { x with state := st } := by
    have hxk : x.key = k := by have := List.find?_some hx; simpa using this
    simp only [State.node, writeStatus_nodes, State.updNode_nodes, List.find?_map]
    simp only [State.node] at hx
    have : (fun n : Node => n.key == k) ∘ (fun n : Node => if n.key = k then { n with state := st } else n) = fun n => n.key == k := by
      funext n; simp only [Function.comp]; split <;> simp_all
    rw [this, hx]; simp [hxk]
  unfold State.nodeTo
  dsimp only
  rw [hk]
  by_cases hf : st.final = true
  · simp only [hf, if_true]
    have key : ∀ s' : State, ((if s'.nodes.length = 0 then s' else s')).nodes = s'.nodes := by intro s'; split <;> rfl
    split
    · split <;> simp [List.map_map, Function.comp_def] <;> (intro n _; split <;> simp_all)
    · split <;> simp [List.map_map, Function.comp_def] <;> (intro n _; split <;> simp_all)
  · simp [hf]

/-! Deques (R283). -/

@[simp] theorem pushTo_nodes (s : State) (c : Nat) (h : Bool) (k : Nat) : (s.pushTo c h k).nodes = s.nodes := rfl

theorem foldl_keeps {α β γ : Type} (f : β → α → β) (g : β → γ) (h : ∀ b a, g (f b a) = g b) (l : List α) (b : β) :
    g (l.foldl f b) = g b := by
  induction l generalizing b with
  | nil => rfl
  | cons a l ih => rw [List.foldl_cons, ih, h]

@[simp] theorem letIn_nodes (s : State) (c : Nat) (h : Bool) : (s.letIn c h).nodes = s.nodes := by
  unfold State.letIn
  apply foldl_keeps (g := State.nodes)
  intro s _; split <;> simp

/-- Entries that deques let in leave the nodes. -/
@[simp] theorem letInAt_nodes (s : State) (l : List (Nat × Bool)) : (s.letInAt l).nodes = s.nodes := by
  unfold State.letInAt
  exact foldl_keeps (fun (s : State) (c : Nat × Bool) => s.letIn c.1 c.2) State.nodes (fun s c => letIn_nodes s c.1 c.2) l s

/-! Groups. -/

@[simp] theorem groupRound_nodes (s : State) (pi : Fin 16) (g : Fin 256) : (s.groupRound pi g).nodes = s.nodes := by
  unfold State.groupRound; split
  · rfl
  · split
    · rfl
    · split <;> rfl

@[simp] theorem updTask_nodes (s : State) (u : Nat) (f : Task → Task) : (s.updTask u f).nodes = s.nodes := rfl

@[simp] theorem leaveGroup_nodes (s : State) (u : Nat) : (s.leaveGroup u).nodes = s.nodes := by
  unfold State.leaveGroup; split
  · rfl
  · split
    · rfl
    · simp

@[simp] theorem setFlag_nodes (s : State) (u : Nat) (k : Fin 16) (b : Block) : (s.setFlag u k b).nodes = s.nodes := by
  unfold State.setFlag; split <;> rfl

@[simp] theorem freeBlocks_nodes (s : State) (u : Nat) : (s.freeBlocks u).nodes = s.nodes := by
  unfold State.freeBlocks
  apply foldl_keeps (g := State.nodes)
  intro s k; dsimp only; split
  · split
    · rfl
    · split <;> simp
  · rfl

@[simp] theorem dropTask_nodes (s : State) (u : Nat) : (s.dropTask u).nodes = s.nodes := by
  simp [State.dropTask]

@[simp] theorem endColls_nodes (s : State) (u : Nat) : (s.endColls u).nodes = s.nodes := rfl

@[simp] theorem mouldState_nodes (s : State) (pi : Fin 16) (m : W32) (st : Nat) : (s.mouldState pi m st).nodes = s.nodes := by
  unfold State.mouldState; split <;> simp

/-! Tasks whose tokens are held back. -/

theorem Task.unsent.incomplete {t : Task} (h : t.unsent) : t.complete = false := by
  unfold Task.complete
  cases he : t.eks with
  | nil => simp
  | cons e l =>
    by_contra hc
    simp only [Bool.not_eq_false, Bool.and_eq_true, List.all_eq_true] at hc
    have := hc.2 e (by simp)
    cases ho : e.op <;> simp [ho] at this
    have hd := h.2 e (by simp [he]) _ _ ho
    simp [hd] at this

theorem foldl_all {α β : Type} (P : β → Prop) (f : β → α → β) (h : ∀ b a, P b → P (f b a)) (l : List α) (b : β) (hb : P b) :
    P (l.foldl f b) := by
  induction l generalizing b with
  | nil => exact hb
  | cons a l ih => exact ih _ (h b a hb)

/-! Kills (R371). -/

/-- A kill that ends its node. -/
def KillWhy.ends : KillWhy → Bool
  | .hostLost | .nkill | .cLost => true
  | .check | .saveSlot => false

theorem stopTask_nodes (s : State) (x : Task) : (s.stopTask x).nodes = s.nodes := by
  unfold State.stopTask; simp only [dropTask_nodes, endColls_nodes]; split <;> simp

theorem updNode_node (s : State) (k : Nat) (g : Node → Node) (hg : ∀ n, (g n).key = n.key) :
    (s.updNode k g).node k = (s.node k).map g := by
  simp only [State.node, State.updNode_nodes, List.find?_map]
  have : (fun n : Node => n.key == k) ∘ (fun n : Node => if n.key = k then g n else n) = fun n => n.key == k := by
    funext n; simp only [Function.comp]; split <;> simp [hg]
  rw [this]
  cases h : s.nodes.find? fun n => n.key == k with
  | none => rfl
  | some n => have : n.key = k := by simpa using List.find?_some h
              simp [this]

/-- A node that has entered a state; its key, its kills and its name are as before. -/
theorem nodeTo_node (s : State) (k : Nat) (st : NState) :
    ∃ f : Node → Node, (s.nodeTo k st).node k = (s.node k).map f ∧
      ∀ n, (f n).state = st ∧ (f n).key = n.key ∧ (f n).kills = n.kills := by
  cases h : s.node k with
  | none =>
    refine ⟨fun n => { n with state := st }, ?_, fun n => ⟨rfl, rfl, rfl⟩⟩
    have h1 : ((s.updNode k fun n => { n with state := st }).writeStatus k).node k = none := by
      simp only [State.node, writeStatus_nodes]
      have := updNode_node s k (fun n => { n with state := st }) (fun _ => rfl)
      rw [h] at this; exact this
    unfold State.nodeTo
    simp only [h1, ite_self, Option.map_none]
  | some x =>
    have h1 := nodeTo_nodes s k st (by rw [h]; rfl)
    refine ⟨fun n => if st.final then { n with state := st, mbox := [] } else { n with state := st }, ?_, fun n => by split <;> simp⟩
    have h2 := updNode_node s k (fun n => if st.final then { n with state := st, mbox := [] } else { n with state := st })
      (fun n => by split <;> rfl)
    rw [h] at h2
    rw [← h2]
    simp only [State.node, h1, State.updNode_nodes]

/-! Tokens that a DONE has sent (R273; log entry 118). -/

/-- The tasks as those lemmas see them: the node of each, and whether it has sent a token. -/
def State.tolds (s : State) : List (Nat × Bool) := s.tasks.map fun x => (x.id.node, x.told)

/-- No task of a node has sent a token. -/
def State.untold (s : State) (k : Nat) : Prop := ∀ b, (k, b) ∈ s.tolds → b = false

theorem spared_untold {t : Task} {why : KillWhy} (hw : why.ends = true) (h : t.told = false) : t.spared why = false := by
  cases why <;> simp [KillWhy.ends] at hw <;> simp [Task.spared, h]

theorem untold_any {s : State} {k : Nat} (why : KillWhy) (hw : why.ends = true) (h : s.untold k) :
    s.tasks.any (fun x => x.id.node == k && x.spared why) = false := by
  rw [List.any_eq_false]
  intro x hx
  by_cases hk : x.id.node = k
  · simp [spared_untold hw (h x.told (List.mem_map.mpr ⟨x, hx, by rw [hk]⟩))]
  · simp [hk]

theorem mapTasks_tolds (s : State) (f : Task → Task) (h : ∀ x, (f x).id.node = x.id.node ∧ (f x).told = x.told) :
    (s.mapTasks f).tolds = s.tolds := by
  simp [State.tolds, State.tasks, State.mapTasks, h]

theorem updTask_tolds (s : State) (u : Nat) (f : Task → Task) (h : ∀ x, (f x).id.node = x.id.node ∧ (f x).told = x.told) :
    (s.updTask u f).tolds = s.tolds :=
  mapTasks_tolds _ _ fun x => by split <;> simp [h]

theorem withMem_tolds (s : State) (m : Mem) : State.tolds { s with mem := m } = s.tolds := rfl

@[simp] theorem fire_tolds (s : State) (pa n : Nat) (l : Level) (task core : Nat) (old : Option Level) (t : Nat) :
    (s.fire pa n l task core old t).tolds = s.tolds :=
  mapTasks_tolds _ _ fun x => by unfold fireWatch; dsimp only; exact ⟨by split_ifs <;> rfl, by split_ifs <;> rfl⟩

@[simp] theorem meet_tolds (s : State) (l : List Nat) : (s.meet l).tolds = s.tolds := by unfold State.meet; split <;> rfl

@[simp] theorem pushTo_tolds (s : State) (c : Nat) (h : Bool) (k : Nat) : (s.pushTo c h k).tolds = s.tolds := rfl

@[simp] theorem updNode_tolds (s : State) (k : Nat) (f : Node → Node) : (s.updNode k f).tolds = s.tolds := rfl

@[simp] theorem updPart_tolds (s : State) (p : Fin 16) (f : Part → Part) : (s.updPart p f).tolds = s.tolds := rfl

@[simp] theorem updLaunch_tolds (s : State) (k : Nat) (f : Launch → Launch) : (s.updLaunch k f).tolds = s.tolds := rfl

@[simp] theorem signal_tolds (s : State) (fn : Fin 64) (v : Fin 4) : (s.signal fn v).tolds = s.tolds := rfl

@[simp] theorem devWrite_tolds (s : State) (key : Option Byte) (pa : Nat) (b : List Byte) : (s.devWrite key pa b).tolds = s.tolds := by
  unfold State.devWrite; dsimp only; rw [fire_tolds]; exact meet_tolds _ _

@[simp] theorem tenantMet_tolds (s : State) (pi : Fin 16) (root : W64) (asid : Byte) (va n : Nat) :
    (s.tenantMet pi root asid va n).tolds = s.tolds := meet_tolds _ _

@[simp] theorem tenantWriteOf_tolds (s : State) (pi : Fin 16) (root : W64) (asid : Byte) (va : Nat) (b : List Byte) :
    (s.tenantWriteOf pi root asid va b).tolds = s.tolds := by
  unfold State.tenantWriteOf; dsimp only; split <;> simp

@[simp] theorem tenantWrite_tolds (s : State) (pi : Fin 16) (va : Nat) (b : List Byte) : (s.tenantWrite pi va b).tolds = s.tolds := by
  simp [State.tenantWrite]

@[simp] theorem writeStatus_tolds (s : State) (k : Nat) : (s.writeStatus k).tolds = s.tolds := by
  unfold State.writeStatus; split <;> simp

@[simp] theorem writeLaunch_tolds (s : State) (k : Nat) : (s.writeLaunch k).tolds = s.tolds := by
  unfold State.writeLaunch; split
  · dsimp only; split <;> simp
  · rfl

@[simp] theorem checkLaunch_tolds (s : State) (k : Nat) : (s.checkLaunch k).tolds = s.tolds := by
  unfold State.checkLaunch; split
  · dsimp only; split <;> simp
  · rfl

@[simp] theorem slip_tolds (s : State) (n : Node) : (s.slip n).tolds = s.tolds := by
  unfold State.slip; dsimp only; split
  · rfl
  · split
    · simp
    · split <;> simp

@[simp] theorem nodeTo_tolds (s : State) (k : Nat) (st : NState) : (s.nodeTo k st).tolds = s.tolds := by
  unfold State.nodeTo; dsimp only; split
  · split
    · simp
    · split <;> split <;> simp
  · simp

@[simp] theorem groupRound_tolds (s : State) (pi : Fin 16) (g : Fin 256) : (s.groupRound pi g).tolds = s.tolds := by
  unfold State.groupRound; split
  · rfl
  · split
    · rfl
    · split
      · dsimp only; rw [updPart_tolds]
        exact mapTasks_tolds _ _ fun x => by unfold releaseGbar; dsimp only; split <;> exact ⟨rfl, rfl⟩
      · rfl

@[simp] theorem leaveGroup_tolds (s : State) (u : Nat) : (s.leaveGroup u).tolds = s.tolds := by
  unfold State.leaveGroup; split
  · rfl
  · split
    · rfl
    · simp only [groupRound_tolds, updPart_tolds]; exact updTask_tolds _ _ _ fun _ => ⟨rfl, rfl⟩

@[simp] theorem setFlag_tolds (s : State) (u : Nat) (k : Fin 16) (b : Block) : (s.setFlag u k b).tolds = s.tolds := by
  unfold State.setFlag; split
  · rfl
  · dsimp only
    rw [fire_tolds, withMem_tolds]
    exact updTask_tolds s u (fun x => { x with blocks := x.blocks.set k b }) fun _ => ⟨rfl, rfl⟩

@[simp] theorem freeBlocks_tolds (s : State) (u : Nat) : (s.freeBlocks u).tolds = s.tolds := by
  unfold State.freeBlocks
  apply foldl_keeps (g := State.tolds)
  intro s k; dsimp only; split
  · split
    · rfl
    · split
      · simp
      · exact updTask_tolds _ _ _ fun _ => ⟨rfl, rfl⟩
  · rfl

@[simp] theorem dropTask_tolds (s : State) (u : Nat) : (s.dropTask u).tolds = s.tolds := by
  unfold State.dropTask; dsimp only
  rw [updTask_tolds, withMem_tolds]
  · simp
  · intro x; exact ⟨rfl, rfl⟩

theorem stopTask_tolds (s : State) (x : Task) : (s.stopTask x).tolds = s.tolds := by
  unfold State.stopTask; rw [dropTask_tolds]
  have h (r : State) : (r.endColls x.id.uid).tolds = r.tolds := rfl
  rw [h]; split
  · rfl
  · unfold State.mouldState; split <;> simp

@[simp] theorem letInAt_tolds (s : State) (l : List (Nat × Bool)) : (s.letInAt l).tolds = s.tolds := by
  unfold State.letInAt
  refine foldl_keeps (fun (s : State) (c : Nat × Bool) => s.letIn c.1 c.2) State.tolds (fun s c => ?_) l s
  unfold State.letIn
  apply foldl_keeps (g := State.tolds)
  intro s _; split <;> simp

/-- A kill that ends its node leaves what its tasks have sent. -/
theorem kill_tolds (s : State) (k : Nat) (why : KillWhy) (hw : why.ends = true) : (s.kill k why).tolds = s.tolds := by
  unfold State.kill
  rw [letInAt_tolds]
  unfold State.killNode
  split
  · rfl
  · dsimp only
    split
    · rfl
    · generalize s.tasks.find? _ = task
      have h : ∀ g, ((task.elim s s.stopTask).updNode k g).tolds = s.tolds := by
        intro g; rw [updNode_tolds]
        cases task with
        | none => rfl
        | some x => exact stopTask_tolds s x
      have he : ∀ g r, (((task.elim s s.stopTask).updNode k g).endKilled k r).tolds = s.tolds := by
        intro g r; unfold State.endKilled; rw [nodeTo_tolds, updNode_tolds]; exact h g
      cases why
      case check => simp [KillWhy.ends] at hw
      case saveSlot => simp [KillWhy.ends] at hw
      all_goals exact he _ _

/-- A kill that ends its node leaves every other node as it was. Its own node is final, also where it was already. -/
theorem kill_nodes (s : State) (k : Nat) (why : KillWhy) (hw : why.ends = true) (ht : s.untold k) :
      ∃ f : Node → Node, (s.kill k why).nodes = s.nodes.map (fun n => if n.key = k then f n else n) ∧
        (∀ n, (f n).key = n.key ∧ (f n).id = n.id) ∧
        ((s.nodes.map (·.key)).Nodup → ∀ n ∈ s.nodes, n.key = k → (f n).state.final = true) := by
  have hid : s.nodes = s.nodes.map (fun n => if n.key = k then id n else n) := by
    have : (fun n : Node => if n.key = k then id n else n) = id := by funext n; simp
    rw [this, List.map_id]
  unfold State.kill
  simp only [letInAt_nodes]
  unfold State.killNode
  cases hn : s.node k with
  | none =>
    refine ⟨id, hid, fun _ => ⟨rfl, rfl⟩, fun _ n hm hk => ?_⟩
    have := List.find?_eq_none.mp hn n hm
    simp [hk] at this
  | some n =>
    dsimp only
    rw [untold_any why hw ht, Bool.or_false]
    by_cases hf : n.state.final = true
    · rw [if_pos hf]
      refine ⟨id, hid, fun _ => ⟨rfl, rfl⟩, fun hd m hm hk => ?_⟩
      have h1 : n ∈ s.nodes := List.mem_of_find?_eq_some hn
      have h2 : n.key = k := by have := List.find?_some hn; simpa using this
      have : m = n := List.inj_on_of_nodup_map hd hm h1 (hk.trans h2.symm)
      rw [this]; exact hf
    · rw [if_neg hf]
      generalize s.tasks.find? (fun x => x.id.node == k && x.run != Run.ended) = task
      generalize hs1 : task.elim s s.stopTask = s1
      have hnd : s1.nodes = s.nodes := by subst hs1; cases task; exacts [rfl, stopTask_nodes _ _]
      have fin (g : Node → Node) (hg : ∀ n, (g n).key = n.key ∧ (g n).id = n.id) (r : BitVec 4) :
            ∃ f : Node → Node, ((s1.updNode k g).endKilled k r).nodes = s.nodes.map (fun n => if n.key = k then f n else n) ∧
              (∀ n, (f n).key = n.key ∧ (f n).id = n.id) ∧
              ((s.nodes.map (·.key)).Nodup → ∀ n ∈ s.nodes, n.key = k → (f n).state.final = true) := by
        refine ⟨fun n => { g n with reason := r, state := .killed, mbox := [] }, ?_, hg, fun _ _ _ _ => rfl⟩
        have hs : (((s1.updNode k g).updNode k fun n => { n with reason := r }).node k).isSome = true := by
          have h1 := updNode_node (s1.updNode k g) k (fun n => { n with reason := r }) (fun _ => rfl)
          have h2 := updNode_node s1 k g (fun n => (hg n).1)
          have h3 : s1.node k = some n := by simp only [State.node, hnd]; exact hn
          rw [h1, h2, h3]; rfl
        unfold State.endKilled
        rw [nodeTo_nodes _ _ _ hs]
        simp only [State.updNode_nodes, hnd, List.map_map, NState.final, if_true]
        apply List.map_congr_left
        intro n _
        simp only [Function.comp]
        by_cases hk : n.key = k <;> simp [hk, hg]
      have fin' := fin (fun m => { m with kills := n.kills, mbox := [] }) (fun _ => ⟨rfl, rfl⟩)
      clear fin
      cases why
      case check => simp [KillWhy.ends] at hw
      case saveSlot => simp [KillWhy.ends] at hw
      case hostLost => exact fin' 2
      case nkill => exact fin' 3
      case cLost => exact fin' 4

/-- The kills of several nodes, each of which ends its node: those nodes are final. -/
theorem killAll_nodes (why : KillWhy) (hw : why.ends = true) (l : List Node) : ∀ s : State,
    (s.nodes.map (·.key)).Nodup → (∀ m ∈ l, s.untold m.key) →
      ∃ f : Node → Node, (l.foldl (fun s n => s.kill n.key why) s).nodes = s.nodes.map f ∧
        (∀ n, (f n).key = n.key ∧ (f n).id = n.id) ∧
        (∀ n ∈ s.nodes, (∀ m ∈ l, m.key ≠ n.key) → f n = n) ∧
        (∀ n ∈ s.nodes, (∃ m ∈ l, m.key = n.key) → (f n).state.final = true) := by
  induction l with
  | nil => intro s _ _; exact ⟨id, by simp, fun _ => ⟨rfl, rfl⟩, fun _ _ _ => rfl, fun _ _ ⟨_, hm, _⟩ => absurd hm (List.not_mem_nil)⟩
  | cons x l ih =>
    intro s hd ht
    obtain ⟨f, hf, hk, hfin⟩ := kill_nodes s x.key why hw (ht x (by simp))
    have hd1 : ((s.kill x.key why).nodes.map (·.key)).Nodup := by
      rw [hf, List.map_map]
      have : ((fun n : Node => n.key) ∘ fun n : Node => if n.key = x.key then f n else n) = fun n => n.key := by
        funext n; simp only [Function.comp]; split <;> simp [hk]
      rw [this]; exact hd
    obtain ⟨g, hg, hgk, hg0, hg1⟩ := ih _ hd1 (fun m hm => by
      unfold State.untold; rw [kill_tolds _ _ _ hw]; exact ht m (by simp [hm]))
    rw [List.foldl_cons]
    refine ⟨fun n => g (if n.key = x.key then f n else n), ?_, ?_, ?_, ?_⟩
    · rw [hg, hf, List.map_map]; rfl
    · intro n; constructor
      · rw [(hgk _).1]; split <;> simp [hk]
      · rw [(hgk _).2]; split <;> simp [hk]
    · intro n hn hm
      have hx : ¬n.key = x.key := fun e => hm x (by simp) e.symm
      simp only [if_neg hx]
      apply hg0 n
      · rw [hf]; exact List.mem_map.mpr ⟨n, hn, by simp [hx]⟩
      · intro m hm'; exact hm m (by simp [hm'])
    · intro n hn ⟨m, hm, e⟩
      have hmem : (if n.key = x.key then f n else n) ∈ (s.kill x.key why).nodes := by
        rw [hf]; exact List.mem_map.mpr ⟨n, hn, rfl⟩
      by_cases hl : ∃ m ∈ l, m.key = (if n.key = x.key then f n else n).key
      · exact hg1 _ hmem hl
      · have : g (if n.key = x.key then f n else n) = (if n.key = x.key then f n else n) :=
          hg0 _ hmem (fun m hm' e' => hl ⟨m, hm', e'⟩)
        show NState.final (g _).state = true
        rw [this]
        rcases List.mem_cons.mp hm with rfl | hm
        · rw [if_pos e.symm]; exact hfin hd n hn e.symm
        · exfalso; apply hl; refine ⟨m, hm, ?_⟩; split <;> simp [hk, e]

end Sys2Proof.Machine
end

