-- ==== Sys2Proof/Machine/Maquette.lean ====
section
/-! DEFINITION. Maquettes (10): what the loader accepts (R204, R206 to R209, R211) and what an accepted maquette means
(R207, R210, R212). The machine runs the native bundles that Ulurid makes of a maquette; no step reads a container, so these
definitions stand beside the step and say what those bundles compute (log entry 26). -/

namespace Sys2Proof.Machine

/-- The loader refuses a binary with a native section of another stepping (R204). -/
def loaderAccepts (sections : List (BitVec 16)) : Bool := sections.all fun x => x == BitVec.ofNat 16 Config.stepid

/-! The container (R206). -/

inductive MqDir where
  | inp | out | inout | final
  deriving DecidableEq, Repr

/-- A stream specification; the dimensions as stride and count, innermost first. -/
structure MqStream where
  arg : Fin 6
  dir : MqDir
  fmt : Fmt
  offset : Int
  dims : List (Int × Nat)
  deriving DecidableEq, Repr

/-- An operand code (R208). -/
inductive MqOperand where
  | vs (n : Fin 1024)
  | ve (n : Fin 1024)
  | vq (n : Fin 1024)
  | sm (k : Fin 16)
  | imm
  | none
  deriving DecidableEq, Repr

/-- An operation: its native instruction on fixed registers, whether it is a facet operation, its operands, and the entry that
follows it. -/
structure MqOp where
  native : Instr
  facet : Bool
  assoc : Bool
  d : MqOperand
  a : MqOperand
  b : MqOperand
  c : MqOperand
  ext : W64
  deriving DecidableEq, Repr

structure Maquette where
  streams : List MqStream
  ops : List MqOp
  deriving DecidableEq, Repr

/-- The number of elements of a stream: the product of its counts (R207). -/
def MqStream.size (x : MqStream) : Nat := x.dims.foldl (fun n d => n * d.2) 1

def Maquette.count (m : Maquette) : Nat := match m.streams with | x :: _ => x.size | [] => 0

/-- Indices 16 to 0x3FD of class 3 name nothing. -/
def MqOperand.ofCode (c : Nat) : Option MqOperand :=
  let n : Fin 1024 := Fin.ofNat 1024 (c % 1024)
  match c / 1024 with
  | 0 => some (.vs n)
  | 1 => some (.ve n)
  | 2 => some (.vq n)
  | _ =>
    if n.val = 0x3FE then some .none
    else if n.val = 0x3FF then some .imm
    else if n.val < 16 then some (.sm (Fin.ofNat 16 n.val))
    else Option.none

def mqDir : Nat → MqDir
  | 0 => .inp
  | 1 => .out
  | 2 => .inout
  | _ => .final

def mqFmt (n : Nat) : Option Fmt := (Fmt.ofCode n).bind fun f => if f.blocked then none else some f

/-- The six dwords of a stream specification. -/
def mqStream (d : Nat → Nat) : Option MqStream := do
  let arg ← finOf 6 (bits (d 0) 63 61)
  let fmt ← mqFmt (bits (d 0) 58 54)
  let n := bits (d 0) 53 52 + 1
  let dim (k : Nat) : Int × Nat := (toSigned 32 (bits (d (2 + k)) 63 32), bits (d (2 + k)) 31 0)
  if bits (d 0) 51 0 = 0 && ((List.range n).all fun k => (dim k).2 != 0) &&
      ((List.range 4).all fun k => k < n || d (2 + k) == 0) then
    some { arg := arg, dir := mqDir (bits (d 0) 60 59), fmt := fmt, offset := toSigned 64 (d 1), dims := (List.range n).map dim }
  else none

/-! Operation entries (R208, R209). Native operands stand in ports, vector registers, predicates or masks 2, 3 and 6, and the
result in register 4. A facet operation runs under mask q7, which enables lane 0 alone: it works on one element (R210). -/

/-- Operations whose native form requires an IX syllable: BFX, BFI and VEXP2. -/
def mqTakesIx (kind op : Nat) : Bool := if kind = 1 then op == 0x1F || op == 0x20 else op == 0x0D

/-- The native instruction of an entry, when R152 or R181 and the description give it one. `x` and `y` are the native fields of
A and B. R209 refuses an illegal FN, and no entry for what its native form makes illegal otherwise: a VMOVI whose A is a register or a
stream, and a BFX or BFI of width 0, are accepted and run (DESIGN CHOICE, log entry 123). -/
def mqNative (kind op fn x y : Nat) (ext : W64) : Option Instr :=
  let ix : Option (Option W32) :=
    if mqTakesIx kind op then (if ext.toNat < 2 ^ 32 then some (some (ext.setWidth 32)) else none) else some none
  ix.bind fun ix =>
    if kind = 1 then
      if op = 0x1B then none
      else if op = 0x19 then (if fn = 0 then decodeSa op (4 * 2 ^ 14 + x * 2 ^ 9 + y * 2 ^ 4 + 6) ix else none)
      else decodeSa op (4 * 2 ^ 14 + x * 2 ^ 9 + y * 2 ^ 4 + fn) ix
    else if kind = 2 then
      if (0x1E ≤ op && op ≤ 0x28) || 0x2A ≤ op then none
      else if op = 0x0E then (if y = 0 then decodeF op (7 * 2 ^ 29 + 4 * 2 ^ 16 + x * 2 ^ 10 + fn * 2 ^ 6 + 3 * 2 ^ 4) ix else none)
      else if op = 0x10 then (if fn = 0 then decodeF op (7 * 2 ^ 29 + 4 * 2 ^ 16 + x * 2 ^ 10 + y * 2 ^ 4 + 6) ix else none)
      else decodeF op (7 * 2 ^ 29 + 4 * 2 ^ 16 + x * 2 ^ 10 + y * 2 ^ 4 + fn) ix
    else none

/-- A code that may give a number to an operation. -/
def mqNumSrc (st : List MqStream) (ix : Bool) : MqOperand → Bool
  | .vs _ | .ve _ => true
  | .vq _ | .none => false
  | .imm => !ix
  | .sm k => (match st[k.val]? with | some x => x.dir == .inp || x.dir == .inout | none => false)

def mqBitSrc : MqOperand → Bool
  | .vq _ => true
  | _ => false

/-- A code that may take a number. -/
def mqNumDst (st : List MqStream) (facet : Bool) : MqOperand → Bool
  | .vs _ => !facet
  | .ve _ => true
  | .sm k => (match st[k.val]? with | some x => x.dir != .inp | none => false)
  | _ => false

def mqBitDst : MqOperand → Bool
  | .vq n => n.val % 2 == 0
  | _ => false

/-- R211: where ASSOC may stand. The carried register is one that no earlier operation of the list writes. -/
def mqAssocOk (kind op : Nat) (d a : MqOperand) (before : List MqOp) : Bool :=
  kind == 2 && [0x01, 0x03, 0x06, 0x07, 0x11, 0x14, 0x15, 0x16, 0x1A, 0x1B].contains op && d == a &&
    (match d with | .ve _ => true | _ => false) && before.all fun o => o.d != d

/-- Whether the entry that follows belongs to this one. -/
def mqExtended (e : Nat) : Bool :=
  [bits e 35 24, bits e 23 12, bits e 11 0].contains 0xFFF || mqTakesIx (bits e 63 60) (bits e 59 53)

def mqOp (st : List MqStream) (before : List MqOp) (e : Nat) (ext : W64) : Option MqOp := do
  let kind := bits e 63 60
  let op := bits e 59 53
  let fn := bits e 52 49
  let assoc := bits e 48 48 == 1
  let d ← MqOperand.ofCode (bits e 47 36)
  let a ← MqOperand.ofCode (bits e 35 24)
  let b ← MqOperand.ofCode (bits e 23 12)
  let c ← MqOperand.ofCode (bits e 11 0)
  let x := if a = .none then 0 else 2
  let y := if b = .none then 0 else 3
  let i ← mqNative kind op fn x y ext
  -- an absent operand is one that the native form reserves
  let absent := (a != .none || (mqNative kind op fn 2 y ext).isNone) && (b != .none || (mqNative kind op fn x 3 ext).isNone)
  let facet := kind == 2
  let logic := if facet then op == 0x29 else op == 0x22
  let cmp := logic || (if facet then op == 0x0F else op == 0x21)
  let src (o : MqOperand) : Bool := o == .none || (if logic then mqBitSrc o else mqNumSrc st (mqTakesIx kind op) o)
  let third :=
    if facet && (op == 0x04 || op == 0x05) then mqNumSrc st false c
    else if (if facet then op == 0x10 else op == 0x19) then mqBitSrc c
    else c == .none
  if absent && src a && src b && third && (if cmp then mqBitDst d else mqNumDst st facet d) &&
      (!assoc || mqAssocOk kind op d a before) then
    some { native := i, facet := facet, assoc := assoc, d := d, a := a, b := b, c := c, ext := ext }
  else none

/-- The operation list; `before` holds what precedes. -/
def mqOps (st : List MqStream) : List MqOp → List Nat → Option (List MqOp)
  | before, [] => some before
  | before, [e] => if mqExtended e then none else (mqOp st before e 0).map fun o => before ++ [o]
  | before, e :: x :: l =>
    if mqExtended e then (mqOp st before e (BitVec.ofNat 64 x)).bind fun o => mqOps st (before ++ [o]) l
    else (mqOp st before e 0).bind fun o => mqOps st (before ++ [o]) (x :: l)

/-- A container, or none where the loader refuses it (R206 to R209, R211). -/
def Maquette.load (b : List Byte) : Option Maquette := do
  let ds := (chunksOf 8 b.length b).map leNat
  let h := ds.getD 0 0
  let ns := bits h 47 44 + 1
  let nops := bits h 43 32
  if bits h 63 48 = 1 && bits h 31 0 = 0 && nops != 0 && b.length == 8 + 48 * ns + 8 * nops then
    let st ← (List.range ns).mapM fun k => mqStream fun j => ds.getD (1 + 6 * k + j) 0
    let n := (st.map (·.size)).headD 0
    if st.all fun x => x.size == (if x.dir = .final then 1 else n) then
      let ops ← mqOps st [] (ds.drop (1 + 6 * ns))
      some { streams := st, ops := ops }
    else none
  else none

/-! The sequential meaning (R210), with the choices that R211 and R212 leave to Ulurid as free values. -/

/-- Why a maquette stops: a trap (R207), a miss, a fault or a lost host of an access (R221, R235, R236), or a poisoned line (R378). -/
inductive MqStop where
  | trap (code : Nat)
  | stuck (va : Nat) (write : Bool) (why : Look)
  | poison (line : Nat)
  deriving DecidableEq, Repr

/-- The partial results of an ASSOC operation: its place in the list, the value of its carried register when they were last
combined, the flags of that combination, and each partial with its number (R211). -/
structure MqPartial where
  op : Nat
  whole : W32
  flags : Flags
  parts : List (Nat × W32)
  deriving DecidableEq, Repr

/-- The access of element `i` of stream `k`: its address, and the bytes that it writes or has read. -/
structure MqAcc where
  write : Bool
  k : Fin 16
  i : Nat
  va : Nat
  bytes : List Byte
  deriving DecidableEq, Repr

/-- The state of a run: the registers, the last value of each final stream, the flags, the generators with what stochastic
conversions drew, the partial results, the accesses in the order of the sequential meaning, and the machine, with what all but the
routine still does before its end. A run is `bold` where its accesses are not made yet: each read returns bytes on trust, and
`Maquette.play` makes the accesses (R212). -/
structure MqRun where
  vs : Vector W64 1024
  ve : Vector W32 1024
  vq : Vector Bool 1024
  finals : List (Fin 16 × List Byte)
  flags : Flags
  gens : Vector W32 256
  partials : List MqPartial
  made : List MqAcc
  bold : Bool
  now : State
  rest : List (State → State)
  fv : Nat

def MqRun.start (s : State) (bold : Bool) (fv : Nat) (rest : List (State → State)) : MqRun :=
  { vs := Vector.replicate 1024 0, ve := Vector.replicate 1024 0, vq := Vector.replicate 1024 false, finals := [], flags := 0
    gens := s.t.fp.gens, partials := [], made := [], bold := bold, now := s, rest := rest, fv := fv }

/-- Σ idx_d × STRIDE_d of element `i`, dimension 0 innermost (R207). -/
def mqOffset : List (Int × Nat) → Nat → Int
  | [], _ => 0
  | (stride, count) :: l, i => (i % count : Nat) * stride + mqOffset l (i / count)

/-- The address of element `i` of a stream. -/
def MqStream.addr (x : MqStream) (s : State) (i : Nat) : Nat :=
  (s.arg x.arg + BitVec.ofInt 64 (x.offset + mqOffset x.dims i)).toNat

/-- The traps of the address of an element (R207). -/
def mqTrap (va n : Nat) : Option Nat := if 2 ^ 57 ≤ va then some 0x31 else if va % n ≠ 0 then some 0x30 else none

/-- The translation of an element by the tables of the moment (R221, R235, R236; log entry 26). -/
def State.mqLook (s : State) (va n : Nat) (write : Bool) : Look :=
  match s.walk false (rootOf s.t.dtroot) (asidOf s.t.dtroot) va with
  | .bad c _ _ => .fault c
  | .leaf e =>
    match s.cause s.t e.leaf (e.tr va) write n none with
    | some c => .fault c
    | none => if s.hostGone (e.tr va) then .hostLost else .ok (e.tr va)

/-- An access of an element meets no write of its line that cannot enter its level yet (R247). -/
def State.mqReady (s : State) (a : MqAcc) : Bool :=
  match s.mqLook a.va a.bytes.length a.write with
  | .ok tr => (s.join 4 [(tr, a.bytes.length)]).isSome
  | _ => true

/-- An element access performed at scope .dev, as one of a bulk transfer (R212, R216): the bytes read, and the machine after it. -/
def State.mqPerform (s : State) (a : MqAcc) : Except MqStop (List Byte × State) :=
  let n := a.bytes.length
  match s.mqLook a.va n a.write with
  | .ok tr =>
    let parts := [(tr, n)]
    match if a.write then none else s.poisonIn 4 parts with
    | some line => .error (.poison line)
    | none =>
      let s := (s.meet (s.partLines parts)).join 4 parts |>.getD s
      if a.write then
        let t := max s.t.pts (s.rtsParts 4 parts + 1)
        let s := s.writeParts 4 { rel := false, bulk := true, t := t, id := 0, cls := cST, va := some a.va } parts a.bytes
        .ok (a.bytes, (s.noteSent 0 cST [(a.va, n)] false t).withT fun x => x.noteBulk 0 cST [(a.va, n)] t)
      else
        let (b, w) := s.readParts 4 parts
        let t := max s.t.pts w
        .ok (b, (s.leaseParts 4 parts t).withT fun x => x.noteBulk 0 cLD [(a.va, n)] t)
  | why => .error (.stuck a.va a.write why)

/-- What the rest of the machine does before an access: `n` of its moments, and more while the access is not ready. -/
def mqAwait (a : MqAcc) : Nat → List (State → State) → State → State × List (State → State)
  | _, [], s => (s, [])
  | n, f :: l, s => if n = 0 && s.mqReady a then (s, f :: l) else mqAwait a (n - 1) l (f s)

/-- An access of the run, made at once at a free moment unless the run is bold. -/
def MqRun.access (r : MqRun) (a : MqAcc) : Except MqStop (List Byte × MqRun) :=
  match mqTrap a.va a.bytes.length with
  | some c => .error (.trap c)
  | none =>
    if r.bold then .ok (a.bytes, { r with made := r.made ++ [a], fv := r.fv + 1 })
    else
      let (s, rest) := mqAwait a ((Config.freeWord r.fv 40960).toNat % (r.rest.length + 1)) r.rest r.now
      (s.mqPerform a).map fun x =>
        (x.1, { r with made := r.made ++ [{ a with bytes := x.1 }], now := x.2, rest := rest, fv := r.fv + 1 })

/-- An element decoded to FP32 or INT32. -/
def mqDecode (f : Fmt) (b : List Byte) : W32 :=
  match f.ff with
  | some g => (rnd32 (g.decode (leNat b))).1
  | none => BitVec.ofInt 32 (toSigned f.width (leNat b))

/-- A read of element `i` of stream `k`: the element, and the run after it. -/
def Maquette.read (m : Maquette) (s : State) (r : MqRun) (k : Fin 16) (i : Nat) : Except MqStop (W32 × MqRun) :=
  match m.streams[k.val]? with
  | none => .ok (0, r)
  | some x =>
    let trust := (List.range (x.fmt.width / 8)).map fun j => (Config.freeWord r.fv (65536 * (k.val + 1) + j) : W64).setWidth 8
    (r.access { write := false, k := k, i := i, va := x.addr s i, bytes := trust }).map fun y => (mqDecode x.fmt y.1, y.2)

/-- A free generator of the facets makes the step of a stochastic conversion: its number. Generators 0 to 127 are those of tile
entries (R74). -/
def MqRun.pick (r : MqRun) (place : Nat) : Fin 256 := Fin.ofNat 256 (128 + (Config.freeWord r.fv (4096 + place)).toNat % 128)

/-- A write of element `i` of stream `k`, converted in fctl.RM (R77, R78). A stochastic conversion takes the step of a
generator that Ulurid chooses (R211). An element of an FP32 or INT32 stream, which is converted to its own format, steps none
(DESIGN CHOICE, log entry 104). -/
def Maquette.write (m : Maquette) (s : State) (r : MqRun) (k : Fin 16) (i : Nat) (v : W32) : Except MqStop MqRun :=
  match m.streams[k.val]? with
  | none => .ok r
  | some x =>
    let n := x.fmt.width / 8
    let mode := s.mode .dyn
    let moves := mode == 2 && x.fmt != .fp32 && x.fmt != .int32
    let g := r.pick k.val
    let draw := genStep (r.gens.get g)
    let (b, fl) := convert1 x.fmt.isInt x.fmt (rmOf mode draw) s.e4nan (if x.fmt.isInt then ofInt v.toInt else dec32 v)
    let r := { r with flags := r.flags ||| fl, gens := if moves then r.gens.set g draw else r.gens, fv := r.fv + 1 }
    if x.dir = .final then .ok { r with finals := (k, leBytes n b) :: r.finals.filter fun w => w.1 != k }
    else (r.access { write := true, k := k, i := i, va := x.addr s i, bytes := leBytes n b }).map (·.2)

/-- An operand as a number, and the run after its read. No rule gives the upper half of an element that a scalar operation
reads: it is free. -/
def Maquette.number (m : Maquette) (s : State) (r : MqRun) (i : Nat) (o : MqOp) (place : Nat) (x : MqOperand) :
    Except MqStop (W64 × MqRun) :=
  let wide (v : W32) : W64 := if o.facet then v.setWidth 64 else v.setWidth 64 ||| Config.freeWord r.fv place <<< 32
  match x with
  | .vs n => .ok (r.vs.get n, r)
  | .ve n => .ok (wide (r.ve.get n), r)
  | .sm k => (m.read s r k i).map fun y => (wide y.1, y.2)
  | .imm => .ok (o.ext, r)
  | .vq _ | .none => .ok (0, r)

/-- An operand as a condition. -/
def MqRun.bit (r : MqRun) : MqOperand → Bool
  | .vq n => r.vq.get n
  | _ => false

/-- A task that holds the operands of one operation where its native instruction reads them. Generator 128, which lane 0 of
facet 0 steps, stands for generator `g`. -/
def mqTask (s : State) (r : MqRun) (g : Fin 256) (a b c : W64) (pa pb pc : Bool) : Task :=
  let one (x : Bool) : BitVec 16 := if x then 1 else 0
  let all (x : Bool) : BitVec 16 := if x then 0xFFFF else 0
  let low (x : W64) : Lanes := splat (x.setWidth 32)
  let f := Task.fresh
  let c0 := f.fac.get 0
  { f with
    run := .running, p := 1 ||| one pa <<< 2 ||| one pb <<< 3 ||| one pc <<< 6
    latch := { f.latch with vals := ((f.latch.vals.set 2 a).set 3 b), facets := [0] }
    fac := f.fac.set 0 { c0 with
      v := ((c0.v.set 2 (low a)).set 3 (low b)).set 4 (low c)
      q := (((c0.q.set 2 (all pa)).set 3 (all pb)).set 6 (all pc)).set 7 1 }
    fp := { s.t.fp with gens := r.gens.set (laneGen 0 0) (r.gens.get g) } }

/-- The sum or product of two partials (R183). -/
def mqJoin (mul : Bool) (x y : W32) : W32 × Flags := onNum (if mul then numMul else numAdd) x y

/-- Partials combined two at a time, in an order and a grouping of Ulurid's choosing (R211). -/
def mqCombine (mul : Bool) (fv : Nat) : Nat → List W32 → W32 × Flags
  | 0, l => (l.headD 0, 0)
  | n + 1, l =>
    let free (k : Nat) : Nat := (Config.freeWord fv (8192 + 2 * n + k)).toNat
    let i := free 0 % l.length
    let rest := l.eraseIdx i
    let j := free 1 % rest.length
    match l[i]?, rest[j]? with
    | some x, some y =>
      let (z, f) := mqJoin mul x y
      let (w, g) := mqCombine mul fv n (z :: rest.eraseIdx j)
      (w, f ||| g)
    | _, _ => (l.headD 0, 0)

/-- One accumulation of an ASSOC VADD or VMUL: the operand joins the partial that Ulurid gives it. The value that the carried
register had when the partials were begun is one of them. -/
def MqRun.accumulate (r : MqRun) (p : Nat) (mul : Bool) (d b : W32) : W32 × MqRun :=
  let fresh : MqPartial := { op := p, whole := d, flags := 0, parts := [(0, d)] }
  let (old, left) : MqPartial × Flags := match r.partials.find? fun x => x.op == p with
    | some x => if x.whole = d then (x, 0) else (fresh, x.flags)
    | none => (fresh, 0)
  let k := (Config.freeWord r.fv (2048 + p)).toNat % 4096
  let (v, f) : W32 × Flags := match old.parts.lookup k with
    | some x => mqJoin mul x b
    | none => (b, 0)
  let parts := (k, v) :: old.parts.filter fun x => x.1 != k
  let (whole, g) := mqCombine mul r.fv (parts.length - 1) (parts.map (·.2))
  (whole, { r with
    partials := { op := p, whole := whole, flags := g, parts := parts } :: r.partials.filter fun x => x.op != p
    flags := r.flags ||| f ||| left, fv := r.fv + 1 })

/-- Whether an ASSOC operation is one whose bits may differ. -/
def MqOp.loose (o : MqOp) : Option Bool :=
  if !o.assoc then none
  else match o.native with
    | .vadd _ => some false
    | .vmul _ => some true
    | _ => none

/-- A result in its destination. -/
def Maquette.deliver (m : Maquette) (s : State) (i : Nat) (r : MqRun) (d : MqOperand) (x : W64) (bit : Bool) : Except MqStop MqRun :=
  match d with
  | .vs n => .ok { r with vs := r.vs.set n x }
  | .ve n => .ok { r with ve := r.ve.set n (x.setWidth 32) }
  | .vq n =>
    let next : Fin 1024 := Fin.ofNat 1024 (n.val + 1)
    .ok { r with vq := (r.vq.set n bit).set next (!bit) }
  | .sm k => m.write s r k i (x.setWidth 32)
  | .imm | .none => .ok r

/-- The operation at place `p` of the list, in iteration `i`: its native instruction on one element, and its result in the
destination. A stop keeps the run as it stood. -/
def Maquette.op (m : Maquette) (s : State) (i : Nat) (r : MqRun) (o : MqOp) (p : Nat) : Except (MqStop × MqRun) MqRun := do
  let at_ {α : Type} (x : Except MqStop α) : Except (MqStop × MqRun) α := x.mapError fun e => (e, r)
  let (a, r1) ← at_ (m.number s r i o 0 o.a)
  let (b, r2) ← at_ (m.number s r1 i o 1 o.b)
  let (c, r) ← at_ (m.number s r2 i o 2 o.c)
  match o.loose with
  | some mul =>
    let (x, r) := r.accumulate p mul (a.setWidth 32) (b.setWidth 32)
    at_ (m.deliver s i r o.d (x.setWidth 64) false)
  | none =>
    let g := r.pick 0
    match exec o.native { s with t := mqTask s r g a b c (r.bit o.a) (r.bit o.b) (r.bit o.c), fv := r.fv } with
    | .next s' =>
      let t := s'.t.landAll
      let f := t.fac.get 0
      let x : W64 := if o.facet then ((f.v.get 4).get 0).setWidth 64 else t.s.get 4
      let bit : Bool := if o.facet then (f.q.get 4).getLsbD 0 else t.p.getLsbD 4
      let new := t.fp.gens.get (laneGen 0 0)
      let r := { r with flags := r.flags ||| f.fsr.setWidth 6, gens := r.gens.set g new, fv := r.fv + 1 }
      at_ (m.deliver s i r o.d x bit)
    | _ => pure r

def Maquette.iteration (m : Maquette) (s : State) (r : MqRun) (i : Nat) : Except (MqStop × MqRun) MqRun :=
  m.ops.zipIdx.foldlM (fun r o => m.op s i r o.1 o.2) r

/-- The flags of the last combination of each accumulation. -/
def MqRun.close (r : MqRun) : MqRun := { r with flags := r.flags ||| orFlags (r.partials.map (·.flags)) }

/-- The iterations, then the values of the final streams (R210). Of several addresses that trap, the first in the order of the
sequential meaning is taken (DESIGN CHOICE, log entry 105). -/
def Maquette.runAs (m : Maquette) (s : State) (r : MqRun) : Except (MqStop × MqRun) MqRun := do
  let r ← (List.range m.count).foldlM (m.iteration s) r
  let r ← r.finals.reverse.foldlM (fun (r : MqRun) w =>
    match m.streams[w.1.val]? with
    | none => .ok r
    | some x =>
      ((r.access { write := true, k := w.1, i := 0, va := x.addr s 0, bytes := w.2 }).map (·.2)).mapError fun e => (e, r)) r
  pure r.close

/-- A free place in time of each access of a bold run: its moment, then its turn at that moment. The accesses are unordered among
themselves (R212), but for those of one element, which keep their order, so that it ends with the value of the sequential
meaning (R211). -/
def mqPlaces (fv moments : Nat) : Nat → List (Nat × Nat × MqAcc) → List MqAcc → List (Nat × Nat × MqAcc)
  | _, placed, [] => placed
  | j, placed, a :: l =>
    let mine := placed.filter fun x => x.2.2.k == a.k && x.2.2.i == a.i
    let free (k : Nat) : Nat := (Config.freeWord fv (49152 + 4 * j + k)).toNat
    let place := (mine.foldl (fun n x => max n x.1) (free 0 % moments), mine.foldl (fun n x => max n x.2.1) (free 1), a)
    mqPlaces fv moments (j + 1) (placed ++ [place]) l

/-- How the accesses of a bold run come out. -/
inductive MqPlay where
  | done (s : State)
  | stop (e : MqStop) (s : State)
  | otherwise

/-- The accesses of one moment; `otherwise` where a read returns other bytes than the run took on trust, or where an access has to
wait. -/
def mqTurns (s : State) : List MqAcc → MqPlay
  | [] => .done s
  | a :: l =>
    if !s.mqReady a then .otherwise
    else
      match s.mqPerform a with
      | .error e => .stop e s
      | .ok (b, s) => if b = a.bytes then mqTurns s l else .otherwise

/-- What the rest of the machine does from moment `n` on, with the accesses that fall at each moment. -/
def mqPlay (l : List (Nat × Nat × MqAcc)) : Nat → List (State → State) → State → MqPlay
  | n, rest, s =>
    match mqTurns s ((sortBy (·.2.1) (l.filter fun x => x.1 == n)).map (·.2.2)), rest with
    | .done s, f :: rest => mqPlay l (n + 1) rest (f s)
    | x, _ => x

/-- The accesses of a bold run performed between the moments of the rest of the machine. A run that a trap stops has performed some
of its writes. -/
def MqRun.play (r : MqRun) (all : Bool) : MqPlay :=
  let l := r.made.zipIdx.filter fun x => all || !x.1.write || Config.freePick r.fv x.2
  mqPlay (mqPlaces r.fv (r.rest.length + 1) 0 [] (l.map (·.1))) 0 r.rest r.now

/-- A trap is taken, and a miss or a fault freezes the core, at the bundle that Ulurid emitted for the access: its address is free
(log entry 26). -/
def MqRun.stop (r : MqRun) (e : MqStop) (s : State) : State :=
  let at_ : VAddr := (Config.freeWord r.fv 32768).setWidth 57
  let s : State := { s with fv := max s.fv (r.fv + 1), t := { s.t with fp := { s.t.fp with gens := r.gens } } }
  let s := s.withT fun t => { t with latch := { t.latch with addr := at_ } }
  match e with
  | .trap c => s.trap c
  | .stuck va w why => s.stopAt (s.req va (if w then 1 else 0) 4 w) why
  | .poison line => s.consumePoison none line at_

/-- What a routine leaves that has run to its end: its flags and its generators (R211). -/
def MqRun.leave (r : MqRun) (s : State) : State :=
  let t := s.t.raise r.flags 0
  { s with fv := max s.fv (r.fv + 1), t := { t with fp := { t.fp with gens := r.gens } } }

/-- The run in the order of the sequential meaning, each access at a free moment. -/
def Maquette.plain (m : Maquette) (s : State) (rest : List (State → State)) (fv : Nat) : State :=
  match m.runAs s (MqRun.start s false fv rest) with
  | .ok r => r.leave (r.rest.foldl (fun s f => f s) r.now)
  | .error (e, r) => r.stop e r.now

/-- What a routine that runs a maquette leaves when it ends or stops (R207, R210 to R212): `s` is the state at its first bundle, and
`rest` what all else in the machine does from one moment to the next until it ends. Each of its accesses is performed at scope .dev
at one of these moments. The accesses are unordered among themselves, so a read may return bytes that a later iteration writes:
the bold run takes its reads on trust, and stands where its accesses, made at free moments, return those bytes. -/
def State.afterMaquette (s : State) (m : Maquette) (rest : List (State → State)) : State :=
  match m.runAs s (MqRun.start s true s.fv rest) with
  | .ok r =>
    match r.play true with
    | .done s => r.leave s
    | .stop e s => r.stop e s
    | .otherwise => m.plain s rest (r.fv + 1)
  | .error (e, r) =>
    match r.play false with
    | .done s => r.stop e s
    | .stop e s => r.stop e s
    | .otherwise => m.plain s rest (r.fv + 1)

end Sys2Proof.Machine
end

