-- ==== Sys2Proof/Tests/Slice0.lean ====
section
/-! SUPPORT. Tests: words written out from the encodings, well-formed and ill-formed terms, one-step results from the manual's
worked examples, and for every statement states and operands that meet its hypotheses, at the bounds of each clause. -/

namespace Sys2Proof.Tests

open Sys2Proof Sys2Proof.Machine

set_option Elab.async false

/-- Words of the BR map (R140), field by field. -/
theorem test_decode_br : ∀ x ∈ ([
    ([0b01010000000111111110110111001011], .br { g := 5, ix := none, ofs := 0xFEDCB }),
    ([0b01010000001000110110101010111100], .brc { g := 5, ix := none, a := .byp 2, nz := true, ofs := 0x2ABC }),
    ([0b01010000001111001110110110100011], .brq { g := 5, ix := none, f := 6, qc := 3, qe := 5, ofs := 0x5A3 }),
    ([0b10100000010000011000000000000000], .jmpi { g := 10, a := .port 3 }),
    ([0b01010000010111111110110111001011], .call { g := 5, ix := none, ofs := 0xFEDCB }),
    ([0b10100000011000011000000000000000], .calli { g := 10, a := .port 3 }),
    ([0b10100000011100011000000000000000], .ret { g := 10, a := .port 3 }),
    ([0b01010000100010110110101010111100], .loop { g := 5, ix := none, c := 45, ofs := 0x2ABC }),
    ([0b10110000100100000000000000000000], .trap { g := 11 }),
    ([0b10110000101000000000000000000000], .eret { g := 11 }),
    ([0b10110000101100000000000000000000], .brk { g := 11 }),
    ([0b01010000110011111110110111001011], .ipf { g := 5, ix := none, ofs := 0xFEDCB }),
    ([0b10110000110100000000000000000000], .ifence { g := 11 }),
    ([0b01010000111010110000000010100111], .wait { g := 5, cls := 0x16, n := 0xA7 }),
    ([0b01010000111110101101110001110000], .fence { g := 5, pred := 0x2B, succ := 0x1C, scope := .node }),
    ([0b01101001000000010001110000000000, 0x0000872B], .fencer { g := 6, a := .port 2, b := .byp 3, pred := 0x2B, succ := 0x1C, scope := .dom }),
    ([0b01010001000100110110110000001000], .lwatch { g := 5, ix := none, a := .byp 2, b := .imm 11, scope := .dom }),
    ([0b10110001001000000000000000000000], .wpark { g := 11 })] : List (List Nat × Instr)), decodeSyl .br x.1 = some (some x.2, []) := by decide +kernel

/-- Words of the SA map (R152), field by field. -/
theorem test_decode_sa : ∀ x ∈ ([
    ([0b01100000000110110100010110110000], .add { g := 6, ix := none, d := .s 45, a := .port 2, b := .imm 11 }),
    ([0b01100000001010110100010110110000], .sub { g := 6, ix := none, d := .s 45, a := .port 2, b := .imm 11 }),
    ([0b01100000001110110100010110110000], .mul { g := 6, ix := none, d := .s 45, a := .port 2, b := .imm 11 }),
    ([0b01100000010010110100010110110000], .mulh { g := 6, ix := none, d := .s 45, a := .port 2, b := .imm 11 }),
    ([0b01100000010110110100010110110000], .mulhu { g := 6, ix := none, d := .s 45, a := .port 2, b := .imm 11 }),
    ([0b01100000011010110100010110110000], .div { g := 6, ix := none, d := .s 45, a := .port 2, b := .imm 11 }),
    ([0b01100000011110110100010110110000], .divu { g := 6, ix := none, d := .s 45, a := .port 2, b := .imm 11 }),
    ([0b01100000100010110100010110110000], .rem { g := 6, ix := none, d := .s 45, a := .port 2, b := .imm 11 }),
    ([0b01100000100110110100010110110000], .remu { g := 6, ix := none, d := .s 45, a := .port 2, b := .imm 11 }),
    ([0b01100000101010110100010110110000], .and { g := 6, ix := none, d := .s 45, a := .port 2, b := .imm 11 }),
    ([0b01100000101110110100010110110000], .or { g := 6, ix := none, d := .s 45, a := .port 2, b := .imm 11 }),
    ([0b01100000110010110100010110110000], .xor { g := 6, ix := none, d := .s 45, a := .port 2, b := .imm 11 }),
    ([0b01100000110110110100010110110000], .andn { g := 6, ix := none, d := .s 45, a := .port 2, b := .imm 11 }),
    ([0b01100000111010110100010110110000], .shl { g := 6, ix := none, d := .s 45, a := .port 2, b := .imm 11 }),
    ([0b01100000111110110100010110110000], .shr { g := 6, ix := none, d := .s 45, a := .port 2, b := .imm 11 }),
    ([0b01100001000010110100010110110000], .sra { g := 6, ix := none, d := .s 45, a := .port 2, b := .imm 11 }),
    ([0b01100001000110110100010110110000], .rot { g := 6, ix := none, d := .s 45, a := .port 2, b := .imm 11 }),
    ([0b01100001001010110100010110110000], .min { g := 6, ix := none, d := .s 45, a := .port 2, b := .imm 11 }),
    ([0b01100001001110110100010110110000], .max { g := 6, ix := none, d := .s 45, a := .port 2, b := .imm 11 }),
    ([0b01100001010010110100010110110000], .minu { g := 6, ix := none, d := .s 45, a := .port 2, b := .imm 11 }),
    ([0b01100001010110110100010110110000], .maxu { g := 6, ix := none, d := .s 45, a := .port 2, b := .imm 11 }),
    ([0b01100001011011101000111000000000], .clz { g := 6, ix := none, d := .bs 2, a := .byp 3 }),
    ([0b01100001011111101000111000000000], .ctz { g := 6, ix := none, d := .bs 2, a := .byp 3 }),
    ([0b01100001100011101000111000000000], .popc { g := 6, ix := none, d := .bs 2, a := .byp 3 }),
    ([0b01100001100110110100010110111101], .sel { g := 6, ix := none, d := .s 45, a := .port 2, b := .imm 11, n := 13 }),
    ([0b01100001101011101000111000000000], .mov { g := 6, ix := none, d := .bs 2, a := .byp 3 }),
    ([0b01100001101110010100111000000000], .movStaging { g := 6, ix := none, d := 37, a := .byp 3 }),
    ([0b01101001101110010100010000000001, 0x0F8055E4], .movPatch { g := 6, d := 37, a := .port 2, k := 4, off := 0x1F00ABC }),
    ([0b01100001110010110100000110110000], .movi { g := 6, ix := none, d := .s 45, b := .imm 11 }),
    ([0b01100001110010110100010110110001], .moviH { g := 6, ix := none, d := .s 45, a := .port 2, b := .imm 11 }),
    ([0b01100001110110110100010110111101], .lea { g := 6, ix := none, d := .s 45, a := .port 2, b := .imm 11, n := 13 }),
    ([0b01100001111010110100010110110000], .extZ { g := 6, ix := none, d := .s 45, a := .port 2, b := .imm 11 }),
    ([0b01100001111010110100010110110001], .extS { g := 6, ix := none, d := .s 45, a := .port 2, b := .imm 11 }),
    ([0b01101001111110110100010000000000, 0x00000AD5], .bfx { g := 6, d := .s 45, a := .port 2, pos := 21, w := 43 }),
    ([0b01101001111110110100010000000001, 0x00001015], .bfxS { g := 6, d := .s 45, a := .port 2, pos := 21, w := 64 }),
    ([0b01101010000010110100010110110000, 0x0000007F], .bfi { g := 6, d := .s 45, a := .port 2, b := .imm 11, pos := 63, w := 1 }),
    ([0b01100010000100101000010110111011], .cmp { g := 6, ix := none, pe := 5, a := .port 2, b := .imm 11, c := .ntst }),
    ([0b01100010001000101000011011010100], .plog { g := 6, pe := 5, pa := 3, pb := 13, op := .orn })] : List (List Nat × Instr)), decodeSyl .sa x.1 = some (some x.2, []) := by decide +kernel

/-- Words of the AM map (R162), field by field. -/
theorem test_decode_am : ∀ x ∈ ([
    ([0b01100000000111101100010110110011], .ldB { g := 6, ix := none, d := .bs 3, a := .port 2, b := .imm 11, scope := .die }),
    ([0b01100000001011101100010110110011], .ldH { g := 6, ix := none, d := .bs 3, a := .port 2, b := .imm 11, scope := .die }),
    ([0b01100000001111101100010110110011], .ldW { g := 6, ix := none, d := .bs 3, a := .port 2, b := .imm 11, scope := .die }),
    ([0b01100000010011101100010110110011], .ldD { g := 6, ix := none, d := .bs 3, a := .port 2, b := .imm 11, scope := .die }),
    ([0b01100000010111101100010110110011], .ldBAcq { g := 6, ix := none, d := .bs 3, a := .port 2, b := .imm 11, scope := .die }),
    ([0b01100000011011101100010110110011], .ldHAcq { g := 6, ix := none, d := .bs 3, a := .port 2, b := .imm 11, scope := .die }),
    ([0b01100000011111101100010110110011], .ldWAcq { g := 6, ix := none, d := .bs 3, a := .port 2, b := .imm 11, scope := .die }),
    ([0b01100000100011101100010110110011], .ldDAcq { g := 6, ix := none, d := .bs 3, a := .port 2, b := .imm 11, scope := .die }),
    ([0b01100000100100001000010110110110], .stB { g := 6, ix := none, v := .port 1, a := .port 2, b := .imm 11, scope := .host }),
    ([0b01100000101000001000010110110110], .stH { g := 6, ix := none, v := .port 1, a := .port 2, b := .imm 11, scope := .host }),
    ([0b01100000101100001000010110110110], .stW { g := 6, ix := none, v := .port 1, a := .port 2, b := .imm 11, scope := .host }),
    ([0b01100000110000001000010110110110], .stD { g := 6, ix := none, v := .port 1, a := .port 2, b := .imm 11, scope := .host }),
    ([0b01100000110100001000010110110110], .stBRel { g := 6, ix := none, v := .port 1, a := .port 2, b := .imm 11, scope := .host }),
    ([0b01100000111000001000010110110110], .stHRel { g := 6, ix := none, v := .port 1, a := .port 2, b := .imm 11, scope := .host }),
    ([0b01100000111100001000010110110110], .stWRel { g := 6, ix := none, v := .port 1, a := .port 2, b := .imm 11, scope := .host }),
    ([0b01100001000000001000010110110110], .stDRel { g := 6, ix := none, v := .port 1, a := .port 2, b := .imm 11, scope := .host }),
    ([0b01100001000110110100010110110000], .ldlB { g := 6, ix := none, d := .s 45, a := .port 2, b := .imm 11 }),
    ([0b01100001001010110100010110110000], .ldlH { g := 6, ix := none, d := .s 45, a := .port 2, b := .imm 11 }),
    ([0b01100001001110110100010110110000], .ldlW { g := 6, ix := none, d := .s 45, a := .port 2, b := .imm 11 }),
    ([0b01100001010010110100010110110000], .ldlD { g := 6, ix := none, d := .s 45, a := .port 2, b := .imm 11 }),
    ([0b01100001010100001000010110110000], .stlB { g := 6, ix := none, v := .port 1, a := .port 2, b := .imm 11 }),
    ([0b01100001011000001000010110110000], .stlH { g := 6, ix := none, v := .port 1, a := .port 2, b := .imm 11 }),
    ([0b01100001011100001000010110110000], .stlW { g := 6, ix := none, v := .port 1, a := .port 2, b := .imm 11 }),
    ([0b01100001100000001000010110110000], .stlD { g := 6, ix := none, v := .port 1, a := .port 2, b := .imm 11 })] : List (List Nat × Instr)), decodeSyl .am x.1 = some (some x.2, []) := by decide +kernel

/-- Words of the AM map (R162), field by field. -/
theorem test_decode_am2 : ∀ x ∈ ([
    ([0b01100001100110110100010001011001], .amoaddW { g := 6, ix := none, d := .s 45, a := .port 2, b := .byp 1, scope := .sys }),
    ([0b01100001101010110100010001011001], .amoaddD { g := 6, ix := none, d := .s 45, a := .port 2, b := .byp 1, scope := .sys }),
    ([0b01100001101110110100010001011001], .amoandW { g := 6, ix := none, d := .s 45, a := .port 2, b := .byp 1, scope := .sys }),
    ([0b01100001110010110100010001011001], .amoandD { g := 6, ix := none, d := .s 45, a := .port 2, b := .byp 1, scope := .sys }),
    ([0b01100001110110110100010001011001], .amoorW { g := 6, ix := none, d := .s 45, a := .port 2, b := .byp 1, scope := .sys }),
    ([0b01100001111010110100010001011001], .amoorD { g := 6, ix := none, d := .s 45, a := .port 2, b := .byp 1, scope := .sys }),
    ([0b01100001111110110100010001011001], .amoxorW { g := 6, ix := none, d := .s 45, a := .port 2, b := .byp 1, scope := .sys }),
    ([0b01100010000010110100010001011001], .amoxorD { g := 6, ix := none, d := .s 45, a := .port 2, b := .byp 1, scope := .sys }),
    ([0b01100010000110110100010001011001], .amominW { g := 6, ix := none, d := .s 45, a := .port 2, b := .byp 1, scope := .sys }),
    ([0b01100010001010110100010001011001], .amominD { g := 6, ix := none, d := .s 45, a := .port 2, b := .byp 1, scope := .sys }),
    ([0b01100010001110110100010001011001], .amomaxW { g := 6, ix := none, d := .s 45, a := .port 2, b := .byp 1, scope := .sys }),
    ([0b01100010010010110100010001011001], .amomaxD { g := 6, ix := none, d := .s 45, a := .port 2, b := .byp 1, scope := .sys }),
    ([0b01100010010110110100010001011001], .amoswpW { g := 6, ix := none, d := .s 45, a := .port 2, b := .byp 1, scope := .sys }),
    ([0b01100010011010110100010001011001], .amoswpD { g := 6, ix := none, d := .s 45, a := .port 2, b := .byp 1, scope := .sys }),
    ([0b01100010011110110100010001011001], .casW { g := 6, ix := none, d := .s 45, a := .port 2, b := .byp 1, scope := .sys }),
    ([0b01100010100010110100010001011001], .casD { g := 6, ix := none, d := .s 45, a := .port 2, b := .byp 1, scope := .sys }),
    ([0b01100010100101000000010110110000], .pfd { g := 6, ix := none, die := true, a := .port 2, b := .imm 11 }),
    ([0b01100010101010000000010110110110], .cbo { g := 6, ix := none, kind := .zero, a := .port 2, b := .imm 11, scope := .host }),
    ([0b01100010101110110100001000101000], .csrr { g := 6, d := .s 45, csr := 0x228 }),
    ([0b01100010110000101000000011000110], .csrw { g := 6, ix := none, a := .byp 1, csr := 0xC6 })] : List (List Nat × Instr)), decodeSyl .am x.1 = some (some x.2, []) := by decide +kernel

/-- Words of the XF map (R172), field by field. -/
theorem test_decode_xf : ∀ x ∈ ([
    ([0b01100000000110101000100011100000], .xbc { g := 6, ix := none, f := 5, all := false, vd := .bf 2, a := .byp 3 }),
    ([0b01100000001010101000100011101101], .xin { g := 6, ix := none, f := 5, vd := .bf 2, a := .byp 3, lane := 13 })] : List (List Nat × Instr)), decodeSyl .xf x.1 = some (some x.2, []) := by decide +kernel

/-- Words of the XS map (R172), field by field. -/
theorem test_decode_xs : ∀ x ∈ ([
    ([0b01100000000110110110101101101101], .xex { g := 6, d := .s 45, f := 5, va := .v 27, lane := 13 }),
    ([0b01100000001010110110100011000111], .xred { g := 6, d := .s 45, f := 5, va := .v 6, op := .mask })] : List (List Nat × Instr)), decodeSyl .xs x.1 = some (some x.2, []) := by decide +kernel

/-- Words of the F map (R181, R343), field by field. -/
theorem test_decode_f : ∀ x ∈ ([
    ([0b01100000011000100101011110110000], .vadd { q := 3, ix := none, d := .bf 2, a := .r (.v 21), b := .imm 11 }),
    ([0b01100000101000100101011110110000], .vsub { q := 3, ix := none, d := .bf 2, a := .r (.v 21), b := .imm 11 }),
    ([0b01100000111000100101011110110000], .vmul { q := 3, ix := none, d := .bf 2, a := .r (.v 21), b := .imm 11 }),
    ([0b01100001000110101000111001000000], .vfma { q := 3, ix := none, d := .v 26, a := .r (.bf 3), b := .zero }),
    ([0b01100001010110101000111001000000], .vfms { q := 3, ix := none, d := .v 26, a := .r (.bf 3), b := .zero }),
    ([0b01100001101000100101011110110000], .vmin { q := 3, ix := none, d := .bf 2, a := .r (.v 21), b := .imm 11 }),
    ([0b01100001111000100101011110110000], .vmax { q := 3, ix := none, d := .bf 2, a := .r (.v 21), b := .imm 11 }),
    ([0b11000010000110101101010000000000], .vabs { q := 6, ix := none, d := .v 26, a := .imm 5 }),
    ([0b11000010010110101101010000000000], .vneg { q := 6, ix := none, d := .v 26, a := .imm 5 }),
    ([0b11000010100110101101010000000000], .vrcp { q := 6, ix := none, d := .v 26, a := .imm 5 }),
    ([0b11000010110110101101010000000000], .vrsq { q := 6, ix := none, d := .v 26, a := .imm 5 }),
    ([0b11000011000110101101010000000000], .vlog2 { q := 6, ix := none, d := .v 26, a := .imm 5 }),
    ([0b01110011010110100011011001000000, 0x3FB8AA3B], .vexp2 { q := 3, d := .v 26, a := .r (.v 13), b := .zero, c := 0x3FB8AA3B }),
    ([0b01100011100110100011011010100000], .vcvt { q := 3, ix := none, d := .v 26, a := .r (.v 13), kind := .i8f32, rm := .rs }),
    ([0b01100011110001100011011001001101], .vcmp { q := 3, ix := none, qe := 3, a := .r (.v 13), b := .zero, c := .ige }),
    ([0b01100100000110100011011001000101], .vsel { q := 3, ix := none, d := .v 26, a := .r (.v 13), b := .zero, n := 5 }),
    ([0b01100100011000100101011110110000], .viadd { q := 3, ix := none, d := .bf 2, a := .r (.v 21), b := .imm 11 }),
    ([0b01100100101000100101011110110000], .visub { q := 3, ix := none, d := .bf 2, a := .r (.v 21), b := .imm 11 }),
    ([0b01100100111000100101011110110000], .vimul { q := 3, ix := none, d := .bf 2, a := .r (.v 21), b := .imm 11 }),
    ([0b01100101001000100101011110110000], .vand { q := 3, ix := none, d := .bf 2, a := .r (.v 21), b := .imm 11 }),
    ([0b01100101011000100101011110110000], .vor { q := 3, ix := none, d := .bf 2, a := .r (.v 21), b := .imm 11 }),
    ([0b01100101101000100101011110110000], .vxor { q := 3, ix := none, d := .bf 2, a := .r (.v 21), b := .imm 11 }),
    ([0b01100101111000100101011110110000], .vshl { q := 3, ix := none, d := .bf 2, a := .r (.v 21), b := .imm 11 }),
    ([0b01100110001000100101011110110000], .vshr { q := 3, ix := none, d := .bf 2, a := .r (.v 21), b := .imm 11 }),
    ([0b01100110011000100101011110110000], .vsra { q := 3, ix := none, d := .bf 2, a := .r (.v 21), b := .imm 11 }),
    ([0b01100110101000100101011110110000], .vimin { q := 3, ix := none, d := .bf 2, a := .r (.v 21), b := .imm 11 }),
    ([0b01100110111000100101011110110000], .vimax { q := 3, ix := none, d := .bf 2, a := .r (.v 21), b := .imm 11 }),
    ([0b01100111000110100011010000000000], .vmov { q := 3, d := .v 26, a := .r (.v 13) }),
    ([0b11000111010110101101010000000000], .vmovi { q := 6, ix := none, d := .v 26, a := .imm 5 }),
    ([0b01100111101000100101011110110000], .vshf { q := 3, ix := none, d := .bf 2, a := .r (.v 21), b := .imm 11 }),
    ([0b01100111110110100011010000000101], .vred { q := 3, d := .v 26, a := .r (.v 13), op := .imin }),
    ([0b01101000000110100011010000000101], .vscan { q := 3, d := .v 26, a := .r (.v 13), op := .imin }),
    ([0b01101000010110100011011001000010], .vdot { q := 3, ix := none, d := .v 26, a := .r (.v 13), b := .zero, kind := .i8 }),
    ([0b01101000100110101000011010000000], .vcopy { q := 3, d := .v 26, a := .bf 1, srcf := 5 }),
    ([0b01101000110110101001100010100111], .vld { q := 3, ix := none, d := .v 26, ab := 2, sz := .h, scope := .dom, ofs := 0xA7 }),
    ([0b01101001000110101001100010100111], .vst { q := 3, ix := none, d := .v 26, ab := 2, sz := .h, scope := .dom, ofs := 0xA7 }),
    ([0b01101001010110101000011001001000], .vgth { q := 3, d := .v 26, a := .r (.bf 1), ab := 2, sz := .h, scope := .dom }),
    ([0b01101001100110101000011001001000], .vsct { q := 3, d := .v 26, a := .r (.bf 1), ab := 2, sz := .h, scope := .dom }),
    ([0b01101001110110101010100010100111], .vldt { q := 3, ix := none, d := .v 26, ab := 2, hi := true, scope := .dom, ofs := 0xA7 }),
    ([0b01101010000110101000100010100111], .vstt { q := 3, ix := none, d := .v 26, ab := 2, scope := .dom, ofs := 0xA7 }),
    ([0b01101010010001100001010000100100], .qlog { q := 3, qe := 3, qa := 5, qb := 2, op := .orn })] : List (List Nat × Instr)), decodeSyl .f x.1 = some (some x.2, []) := by decide +kernel

/-- Words of the F map (R181, R343), field by field. -/
theorem test_decode_f2 : ∀ x ∈ ([
    ([0b01101100001100001101010000000000], .dset { q := 3, ix := none, d := 6, a := .imm 5 }),
    ([0b01101100011100000101010000000000], .dsmp { q := 3, d := 6, n := 21 }),
    ([0b01101100101100001000100010100111], .dld { q := 3, ix := none, d := 6, ab := 2, scope := .dom, ofs := 0xA7 }),
    ([0b01101100111100001000100010100111], .dst { q := 3, ix := none, d := 6, ab := 2, scope := .dom, ofs := 0xA7 }),
    ([0b01101101001101010010000000000000], .dadd { q := 3, d := 6, a := 5, b := 1 }),
    ([0b01101101011101010010000000000000], .dsub { q := 3, d := 6, a := 5, b := 1 }),
    ([0b01101101101101010010000000000000], .dmul { q := 3, d := 6, a := 5, b := 1 }),
    ([0b01101101111101010010000000000000], .dmin { q := 3, d := 6, a := 5, b := 1 }),
    ([0b01101110001101010010000000000000], .dmax { q := 3, d := 6, a := 5, b := 1 }),
    ([0b01101110011101010011011001000000], .daff { q := 3, ix := none, d := 6, a := 5, va := .r (.v 13), vb := .zero }),
    ([0b01101110101101010011101010000000], .dmix { q := 3, ix := none, d := 6, a := 5, b := 1, w := .imm 5 }),
    ([0b01101110111101010011011001000000], .dcnd { q := 3, ix := none, d := 6, a := 5, va := .r (.v 13), vb := .zero }),
    ([0b01101111000110111010000000000000], .dmom { q := 3, vd := 27, a := 5 }),
    ([0b01101111011000101011101010000000], .dqnt { q := 3, ix := none, vd := .bf 2, a := 5, b := .imm 5 }),
    ([0b01101111101000101011101010000000], .dcdf { q := 3, ix := none, vd := .bf 2, a := 5, b := .imm 5 }),
    ([0b01101111111100000000000000000000], .dtag { q := 3, d := 6 })] : List (List Nat × Instr)), decodeSyl .f x.1 = some (some x.2, []) := by decide +kernel

/-- Words of the ET map (R84), field by field. -/
theorem test_decode_et : ∀ x ∈ ([
    ([0b01100000000101110000000000000000], .tld { g := 6, scope := .node }),
    ([0b01100000001001110000000000000000], .tst { g := 6, scope := .node }),
    ([0b01100000001101110000000000000000], .tgth { g := 6, scope := .node }),
    ([0b01100000010000000000101101011100], .tpick { g := 6, d := 0xB5C }),
    ([0b01100000010100000000101101011100], .trot { g := 6, d := 0xB5C }),
    ([0b01100000011000000000101101011100], .tdrop { g := 6, d := 0xB5C }),
    ([0b01100000011100000000000000000101], .tmark { g := 6, k := 5 }),
    ([0b01100000100000000000000000000101], .tunwind { g := 6, k := 5 }),
    ([0b01100000100100010110101101100101], .tzero { g := 6, c := 45, r := 27, f := .e5m2 }),
    ([0b01100000101000010110101101100101], .tfill { g := 6, c := 45, r := 27, f := .e5m2 }),
    ([0b01100000101100010110101101100000], .tshape { g := 6, c := 45, r := 27 }),
    ([0b01100000110000000000000000000001], .tjoin { g := 6, h := true }),
    ([0b01100000110100001010101101101001], .tfromv { g := 6, vb := 21, r := 27, f := .int32 }),
    ([0b01100000111000001010101101100000], .ttov { g := 6, vb := 21, r := 27 })] : List (List Nat × Instr)), decodeSyl .et x.1 = some (some x.2, []) := by decide +kernel

/-- Words of the EM map (R84), field by field. -/
theorem test_decode_em : ∀ x ∈ ([
    ([0b10110000000100000000000000000000], .mma { g := 11 }),
    ([0b10110000001000000000000000000000], .mmac { g := 11 }),
    ([0b10110000001100000000000000000000], .mmack { g := 11 }),
    ([0b01100000010001110000000000000000], .mmag { g := 6, scope := .node }),
    ([0b10110000010100000000000000000000], .mscl { g := 11 })] : List (List Nat × Instr)), decodeSyl .em x.1 = some (some x.2, []) := by decide +kernel

/-- Words of the EV map (R84), field by field. -/
theorem test_decode_ev : ∀ x ∈ ([
    ([0b10110000000100000000000000000000], .tadd { g := 11 }),
    ([0b10110000001000000000000000000000], .tsub { g := 11 }),
    ([0b10110000001100000000000000000000], .tmul { g := 11 }),
    ([0b10110000010000000000000000000000], .tfma { g := 11 }),
    ([0b10110000010100000000000000000000], .tmaxe { g := 11 }),
    ([0b10110000011000000000000000000000], .tmine { g := 11 }),
    ([0b10110000011100000000000000000000], .texp2 { g := 11 }),
    ([0b10110000100000000000000000000000], .trcp { g := 11 }),
    ([0b10110000100100000000000000000000], .trmax { g := 11 }),
    ([0b10110000101000000000000000000000], .trsum { g := 11 }),
    ([0b10110000101100000000000000000000], .tcsum { g := 11 }),
    ([0b10110000110000000000000000000000], .tscl { g := 11 }),
    ([0b01100000110100010110101101100000], .tbc { g := 6, c := 45, r := 27 }),
    ([0b01100000111000000000000001000101], .tcvt { g := 6, rm := .rs, f := .e5m2 }),
    ([0b10110000111100000000000000000000], .ttrn { g := 11 })] : List (List Nat × Instr)), decodeSyl .ev x.1 = some (some x.2, []) := by decide +kernel

/-- Words of the EC map (R309), field by field. -/
theorem test_decode_ec : ∀ x ∈ ([
    ([0b01100000000101110000000000000000], .cpget { g := 6, scope := .node }),
    ([0b01100000001001110000000000000000], .cpput { g := 6, scope := .node }),
    ([0b01100000001101110000000000000000], .cpmc { g := 6, scope := .node }),
    ([0b01100000010001110000000000001101], .ldblk { g := 6, scope := .node, k := 13 }),
    ([0b01100000010000000000000000011101], .ldblkRel { g := 6, k := 13 }),
    ([0b01100000010101110000000000000001], .cpsort { g := 6, scope := .node, scat := true }),
    ([0b01100000011001110000000000000000], .cpfill { g := 6, scope := .node })] : List (List Nat × Instr)), decodeSyl .ec x.1 = some (some x.2, []) := by decide +kernel

/-- Words of the EK map (R309), field by field. -/
theorem test_decode_ek : ∀ x ∈ ([
    ([0b01100000000101111011010011100100], .kar { g := 6, scope := .node, d := 45, op := .and, e := .int32 }),
    ([0b01100000001001111011010000001100], .kag { g := 6, scope := .node, d := 45, e := .fp16 }),
    ([0b01100000001101111011010011100100], .krs { g := 6, scope := .node, d := 45, op := .and, e := .int32 }),
    ([0b01100000010001111011010000001100], .kbc { g := 6, scope := .node, d := 45, e := .fp16 }),
    ([0b01100000010101110000000000000000], .ksend { g := 6, scope := .node }),
    ([0b01100000011001111011010000000000], .krecv { g := 6, scope := .node, d := 45 }),
    ([0b01100000011100001011010000000000], .spawn { g := 6, d := 45 }),
    ([0b01100000100001110000000000000101], .token { g := 6, scope := .node, k := 5 }),
    ([0b10110000100100000000000000000000], .done { g := 11 }),
    ([0b01100000101000000000000010110101], .join { g := 6, n := 0xB5 }),
    ([0b10110000101100000000000000000000], .leave { g := 11 }),
    ([0b10110000110000000000000000000000], .gbar { g := 11 }),
    ([0b01100000110100001011010000000000], .qres { g := 6, d := 45 }),
    ([0b10110000111000000000000000000000], .qpub { g := 11 }),
    ([0b01100000111100001011010000000000], .qtake { g := 6, d := 45 }),
    ([0b10110001000000000000000000000000], .qfree { g := 11 }),
    ([0b10110001000100000000000000000000], .mbeg { g := 11 }),
    ([0b10110001001000000000000000000000], .mend { g := 11 }),
    ([0b01100001001100000000000000100101], .mgrd { g := 6, rel := .ltu, k := 5 }),
    ([0b01100001010000000000000000000001], .tlbi { g := 6, k := .asid }),
    ([0b10110001010100000000000000000000], .flushctx { g := 11 }),
    ([0b01100001011001110000000000000000], .icinv { g := 6, scope := .node })] : List (List Nat × Instr)), decodeSyl .ek x.1 = some (some x.2, []) := by decide +kernel

/-- With IXE the next word is the IX syllable (R21). -/
theorem test_decode_ix_br : ∀ x ∈ ([
    ([0b01011000000100000000000000000000, 0x89ABCDEF], .br { g := 5, ix := some 0x89ABCDEF, ofs := 0x0 }),
    ([0b01011000100010110100000000000000, 0x89ABCDEF], .loop { g := 5, ix := some 0x89ABCDEF, c := 45, ofs := 0x0 })] : List (List Nat × Instr)), decodeSyl .br x.1 = some (some x.2, []) := by decide +kernel

/-- Code 9 names the IX syllable; SB has the encodings of SA (R14, R19). -/
theorem test_decode_ix_sa : ∀ x ∈ ([
    ([0b01101000000110110101001110110000, 0x89ABCDEF], .add { g := 6, ix := some 0x89ABCDEF, d := .s 45, a := .ext, b := .imm 11 }),
    ([0b01101001110010110100000010010000, 0x89ABCDEF], .movi { g := 6, ix := some 0x89ABCDEF, d := .s 45, b := .ext })] : List (List Nat × Instr)), decodeSyl .sb x.1 = some (some x.2, []) := by decide +kernel

/-- Code 37 names the IX syllable; it replaces the offset of VLD (R20, R197). -/
theorem test_decode_ix_f : ∀ x ∈ ([
    ([0b01110000011000101001011110110000, 0x89ABCDEF], .vadd { q := 3, ix := some 0x89ABCDEF, d := .bf 2, a := .ext, b := .imm 11 }),
    ([0b01111000110110101001100000000000, 0x89ABCDEF], .vld { q := 3, ix := some 0x89ABCDEF, d := .v 26, ab := 2, sz := .h, scope := .dom, ofs := 0x0 }),
    ([0b01111100001100001001010000000000, 0x89ABCDEF], .dset { q := 3, ix := some 0x89ABCDEF, d := 6, a := .ext })] : List (List Nat × Instr)), decodeSyl .f x.1 = some (some x.2, []) := by decide +kernel

/-! Well-formed and ill-formed terms (R35, items 8 and 9): one ill-formed term for each check. -/

def illFormed : List Instr := [
  .br { g := 0, ix := some 0, ofs := 1 }, .brc { g := 0, ix := none, a := .imm 0, nz := true, ofs := 0 },
  .brc { g := 0, ix := some 0, a := .zero, nz := true, ofs := 1 }, .brc { g := 0, ix := none, a := .ext, nz := true, ofs := 0 },
  .brq { g := 0, ix := some 0, f := 0, qc := 0, qe := 0, ofs := 1 }, .jmpi { g := 0, a := .imm 8 }, .ret { g := 0, a := .ext },
  .loop { g := 0, ix := none, c := 0, ofs := 0 }, .loop { g := 0, ix := none, c := 56, ofs := 0 },
  .loop { g := 0, ix := some 0, c := 1, ofs := 1 }, .wait { g := 0, cls := 0, n := 0 }, .fence { g := 0, pred := 0, succ := 1, scope := .dev },
  .fence { g := 0, pred := 1, succ := 0, scope := .dev }, .fencer { g := 0, a := .imm 0, b := .zero, pred := 1, succ := 1, scope := .dev },
  .fencer { g := 0, a := .zero, b := .imm 0, pred := 1, succ := 1, scope := .dev },
  .fencer { g := 0, a := .zero, b := .zero, pred := 0, succ := 1, scope := .dev }, .lwatch { g := 0, ix := none, a := .imm 0, b := .zero, scope := .dev },
  .lwatch { g := 0, ix := none, a := .zero, b := .ext, scope := .dev }, .add { g := 0, ix := none, d := .s 1, a := .ext, b := .zero },
  .add { g := 0, ix := none, d := .s 1, a := .zero, b := .ext }, .mov { g := 0, ix := none, d := .s 1, a := .ext },
  .sel { g := 0, ix := none, d := .s 1, a := .ext, b := .zero, n := 0 }, .movStaging { g := 0, ix := none, d := 0, a := .ext },
  .movPatch { g := 0, d := 0, a := .ext, k := 0, off := 0 }, .movi { g := 0, ix := none, d := .s 1, b := .ext },
  .bfx { g := 0, d := .s 1, a := .ext, pos := 0, w := 1 }, .bfx { g := 0, d := .s 1, a := .zero, pos := 0, w := 0 },
  .bfi { g := 0, d := .s 1, a := .zero, b := .ext, pos := 0, w := 1 }, .bfi { g := 0, d := .s 1, a := .zero, b := .zero, pos := 0, w := 0 },
  .cmp { g := 0, ix := none, pe := 0, a := .zero, b := .zero, c := .eq }, .plog { g := 0, pe := 0, pa := 0, pb := 0, op := .and }]

def illFormedMemory : List Instr := [
  .ldD { g := 0, ix := none, d := .s 1, a := .ext, b := .zero, scope := .dev },
  .amoaddW { g := 0, ix := none, d := .s 1, a := .zero, b := .imm 1, scope := .dev },
  .casD { g := 0, ix := none, d := .s 0, a := .zero, b := .zero, scope := .dev },
  .casD { g := 0, ix := none, d := .bs 0, a := .zero, b := .zero, scope := .dev },
  .casW { g := 0, ix := none, d := .s 1, a := .zero, b := .ext, scope := .dev },
  .stD { g := 0, ix := none, v := .ext, a := .zero, b := .zero, scope := .dev },
  .stlD { g := 0, ix := none, v := .zero, a := .ext, b := .zero }, .pfd { g := 0, ix := none, die := false, a := .zero, b := .ext },
  .cbo { g := 0, ix := none, kind := .zero, a := .ext, b := .zero, scope := .dev }, .csrr { g := 0, d := .s 1, csr := 0xB6 },
  .csrw { g := 0, ix := none, a := .zero, csr := 0x860 }, .csrw { g := 0, ix := none, a := .ext, csr := 0xB0 }]

def illFormedFacet : List Instr := [
  .xbc { g := 0, ix := none, f := 1, all := true, vd := .v 0, a := .zero }, .xbc { g := 0, ix := none, f := 1, all := false, vd := .v 0, a := .ext },
  .xin { g := 0, ix := none, f := 0, vd := .v 0, a := .ext, lane := 0 }, .xred { g := 0, d := .s 1, f := 0, va := .v 8, op := .mask },
  .xred { g := 0, d := .s 1, f := 0, va := .bf 0, op := .mask }, .vadd { q := 0, ix := none, d := .v 0, a := .ext, b := .zero },
  .vfma { q := 0, ix := none, d := .bf 0, a := .zero, b := .zero }, .vabs { q := 0, ix := none, d := .v 0, a := .ext },
  .vmovi { q := 0, ix := none, d := .v 0, a := .zero }, .vexp2 { q := 0, d := .v 0, a := .ext, b := .zero, c := 0 },
  .vcvt { q := 0, ix := none, d := .v 0, a := .ext, kind := .i32f32, rm := .rn },
  .vcmp { q := 0, ix := none, qe := 0, a := .zero, b := .zero, c := .eq }, .vsel { q := 0, ix := none, d := .v 0, a := .zero, b := .ext, n := 0 },
  .vmov { q := 0, d := .v 0, a := .ext }, .vred { q := 0, d := .v 0, a := .ext, op := .add },
  .vdot { q := 0, ix := none, d := .v 0, a := .ext, b := .zero, kind := .f32 },
  .vld { q := 0, ix := some 0, d := .v 0, ab := 0, sz := .w, scope := .dev, ofs := 1 },
  .vgth { q := 0, d := .v 0, a := .ext, ab := 0, sz := .w, scope := .dev },
  .vldt { q := 0, ix := some 0, d := .v 0, ab := 0, hi := false, scope := .dev, ofs := 1 },
  .vstt { q := 0, ix := some 0, d := .v 0, ab := 0, scope := .dev, ofs := 1 }, .qlog { q := 0, qe := 0, qa := 0, qb := 0, op := .and },
  .dset { q := 0, ix := none, d := 0, a := .ext }, .dld { q := 0, ix := some 0, d := 0, ab := 0, scope := .dev, ofs := 1 },
  .daff { q := 0, ix := none, d := 0, a := 0, va := .zero, vb := .ext }, .dmix { q := 0, ix := none, d := 0, a := 0, b := 0, w := .ext },
  .dqnt { q := 0, ix := none, vd := .v 0, a := 0, b := .ext }, .tzero { g := 0, c := 62, r := 0, f := .e2m1b32 },
  .tfill { g := 0, c := 63, r := 0, f := .e2m1b16 }, .tfromv { g := 0, vb := 31, r := 8, f := .fp32 }, .tfromv { g := 0, vb := 0, r := 0, f := .bf16 },
  .ttov { g := 0, vb := 25, r := 63 }, .kar { g := 0, scope := .dev, d := 1, op := .and, e := .bf16 }]

theorem test_wf_refuses : (∀ i ∈ illFormed, i.wf = false) := by decide
theorem test_wf_refuses_memory : (∀ i ∈ illFormedMemory, i.wf = false) := by decide
theorem test_wf_refuses_facet : (∀ i ∈ illFormedFacet, i.wf = false) := by decide

/-- An event has no encoding. -/
theorem test_wf_refuses_event : (Instr.frameTick 0).wf = false := by decide

theorem test_wf_admits : (∀ i ∈ ([
    .br { g := 0, ix := some 1, ofs := 0 }, .loop { g := 0, ix := none, c := 55, ofs := 1 },
    .add { g := 0, ix := some 0, d := .s 0, a := .ext, b := .imm 15 }, .csrr { g := 0, d := .s 1, csr := 0x85F },
    .xred { g := 0, d := .s 1, f := 0, va := .v 7, op := .mask }, .vmovi { q := 0, ix := some 0, d := .v 0, a := .ext },
    .tzero { g := 0, c := 63, r := 0, f := .e2m1b32 }, .tfromv { g := 0, vb := 24, r := 63, f := .int32 },
    .casW { g := 0, ix := none, d := .s 55, a := .zero, b := .port 3, scope := .dev },
    .kar { g := 0, scope := .dev, d := 0, op := .xor, e := .int8 }] : List Instr), i.wf = true) := by decide

/-! Small states. -/

/-- A task of node 5 that runs on core 0, with nothing else in the machine. -/
def run0 : State := { State.reset with t := { Task.fresh with
  run := .running, id := { TaskId.none with uid := 7, node := 5, resident := true } } }

/-- A TLB entry for the 64 KiB page at `va`, writable, of a format, mapped at the same physical address. -/
def page (va fmt : Nat) : TlbEnt :=
  { asid := 0, base := va, size := 0x10000, leaf := BitVec.ofNat 64 (va + fmt * 2048 + 7) }

/-- `run0` with an INT8 page at 0x10000 and an FP32 page at 0x20000. -/
def mapped : State := run0.setCore { Core.fresh 0 with dtlb := [page 0x10000 8, page 0x20000 1] }

/-- `s` with staging register `k` set. -/
def stg (s : State) (k : Fin 40) (x : W64) : State := s.withT fun t => { t with stg := t.stg.set k x }

/-- `s` with register values in the ports of its bundle. -/
def ports (s : State) (a b : W64) : State :=
  s.withT fun t => { t with latch := { t.latch with vals := #v[a, b, 0, 0] } }

/-- A ready tile of `r` rows and `c` columns of a format, zero. -/
def tile (id : Nat) (f : Fmt) (r c : Nat) : Entry :=
  { id := id, fmt := f, rows := r, cols := c, state := .ready, readers := 0, mapped := true, level := 0, slot := 0, cmd := 0
    iss := 0, bundle := 0, data := List.replicate r (List.replicate (c * f.size) 0), void := false, bad := none }

/-- `s` with tiles on its stack, the first at depth 0, and room for more. -/
def stacked (s : State) (l : List Entry) : State :=
  s.withT fun t => { t with stk := { t.stk with limit := 8, map := l.map (·.id), entries := l, nextId := 100 } }

/-- A write in flight. -/
def flight (id : Nat) (d : FDst) (iss land : Nat) (v : FVal) : Flight :=
  { id := id, dst := d, iss := iss, land := land, val := v, org := Origin.none }

def withFlights (s : State) (l : List Flight) : State := s.withT fun t => { t with flights := l }

/-- The next state of an outcome. -/
def isNext (o : Out) : Bool :=
  match o with
  | .next _ => true
  | .fault _ | .refused _ => false

def Out.get (o : Out) (s : State) : State :=
  match o with
  | .next r => r
  | .fault _ | .refused _ => s

/-! Witnesses: states and operands that meet the hypotheses of a statement. -/

theorem witness_ScalarArithmetic : run0.on 0 = true := by decide +kernel

theorem witness_ScalarDivision : run0.on 0 = true ∧ (0x8000000000000000 : W64).toInt = -(2 ^ 63) ∧ (BitVec.allOnes 64).toInt = -1 ∧
    (1 : W64) ≠ 0 := by decide +kernel

theorem witness_ScalarMovesAndFields : run0.on 0 = true ∧ 1 ≤ (1 : Fin 65).val ∧ 1 ≤ (64 : Fin 65).val := by decide +kernel

theorem witness_ScalarPredicates : run0.on 0 = true := by decide +kernel

theorem witness_DecodeEncode : (Instr.bfi { g := 15, d := .s 55, a := .port 3, b := .imm 15, pos := 63, w := 64 }).wf = true := by
  decide +kernel

theorem witness_EncodeDecode : decodeSyl .sb [0b01100000000110110100010110110000, 7] =
    some (some (.add { g := 6, ix := none, d := .s 45, a := .port 2, b := .imm 11 }), [7]) := by decide +kernel

/-- `ADD s1, s0, s1` placed at the pc, about to issue. -/
def placed : State := State.reset.withFetchWord 32 0b00000000000100000100000000010000

def placedF : State := ({ placed with turn := [] } : State).focus 0

def placedR : State := placedF.landed

def placedHp : W64 := match placedR.fetchBundle 0 with | .ok hp _ => hp | _ => 0
def placedSlots : List W64 := match placedR.fetchBundle 0 with | .ok _ l => l | _ => []
def placedB : Bundle :=
  (decodeBundle false placedHp.toNat (placedSlots.map (·.toNat))).getD { hdr := { npar := 0, tmpl := 0, fmask := 0, fbc := false, ports := #v[0, 0, 0, 0] }, syls := [] }

def placedL : Latch := (placedR.callReturn placedB).1.latchFor placedB (placedR.callReturn placedB).2

/-- What the statement names: the state in which the syllables of the placed bundle issue. -/
def placedBase : State :=
  ((placedR.useLine placedR.t.pc.toNat).useLine ((placedL.next.toNat + 2 ^ 57 - 8) % 2 ^ 57)).withT fun t =>
    { t with latch := placedL, ifence := [] }
def placedE : State := placedBase.observe (issueOrder placedB.syls)
def placedSyl : Syl :=
  { kind := .sa, ins := .add { g := 0, ix := none, d := .s 1, a := .port 0, b := .port 1 }, facets := [] }

theorem witness_StepRunsDecoded : placed.turn = [.issue 0] ∧ placed.ros.recovery = false ∧ ({ placed with turn := [] } : State).hasTask 0 = true ∧
    placedF.t.run = .running ∧ placedF.coreFrozen = false ∧ placedF.mustStop = false ∧ placedF.t.cast = none ∧
    placedF.t.id.haltReq = false ∧ placedF.t.flights = [] ∧ placedR.t.ifenced = false ∧ placedR.badFetch = none ∧
    placedR.fetchBundle placedR.t.pc.toNat = .ok placedHp placedSlots ∧
    decodeBundle placedR.t.id.helper placedHp.toNat (placedSlots.map (·.toNat)) = some placedB ∧
    issueOrder placedB.syls = [placedSyl] ∧
    bundleFault placedE.t (((issueOrder placedB.syls).filter fun x => Kind.stacked x.kind && placedBase.on (sylGuard x.ins)).map (·.ins))
      placedE.t.depth = none := by decide +kernel

theorem witness_StepRunsDecoded_runs : ∃ t : State, runsTo [placedSyl] placedE t := by
  refine ⟨_, _, rfl, ?_, rfl⟩
  decide +kernel

/-- A BR syllable of ones, and a place with nothing in memory: illegal bundles. -/
def placedBad : State := ({ State.reset.withFetchWord 32 0xFFFFFFFF with turn := [] } : State).focus 0
def badR : State := placedBad.landed
def badHp : W64 := match badR.fetchBundle 0 with | .ok hp _ => hp | _ => 0
def badSlots : List W64 := match badR.fetchBundle 0 with | .ok _ l => l | _ => []
def placedZero : State := { placedF with mem := Mem.reset, cores := [{ placedF.core 0 with
  icache := (placedF.core 0).icache.map fun l => { l with parcels := List.replicate 16 0 } }] }

theorem witness_IllegalBundle : placedBad.t.run = .running ∧ placedBad.coreFrozen = false ∧ placedBad.mustStop = false ∧
    placedBad.t.cast = none ∧ placedBad.t.id.haltReq = false ∧ placedBad.t.flights = [] ∧
    badR.fetchBundle badR.t.pc.toNat = .ok badHp badSlots ∧
    decodeBundle badR.t.id.helper badHp.toNat (badSlots.map (·.toNat)) = none ∧ badR.t.ifenced = false ∧ badR.badFetch = none ∧
    placedZero.t.run = .running ∧ placedZero.landed.fetchBundle placedZero.landed.t.pc.toNat = .trap 0x10 ∧
    Task.fresh.run ≠ .running := by decide +kernel

theorem witness_StepKeepsOk : State.reset.mem.wf = true ∧ isNext (step State.reset) = true := by decide +kernel

/-- Two writes of s55 that land together, and one of s1 that does not land. -/
def landing : Task := { Task.fresh with flights := [flight 0 (.s 55) 0 3 (.w 5), flight 1 (.s 55) 2 3 (.w 6), flight 2 (.s 1) 0 4 .wait] }

theorem witness_Landing : landing.flights = [flight 0 (.s 55) 0 3 (.w 5)] ++ flight 1 (.s 55) 2 3 (.w 6) :: [flight 2 (.s 1) 0 4 .wait] ∧
    (∀ g ∈ [flight 0 (.s 55) 0 3 (.w 5)], g.dst = .s 55 → g.val ≠ .wait → g.land ≤ 3 → g.land ≤ 3) ∧
    (∀ g ∈ [flight 2 (.s 1) 0 4 .wait], g.dst = .s 55 → g.val ≠ .wait → g.land ≤ 3 → g.land < 3) ∧
    (∀ g ∈ landing.flights, g.dst = .s 1 → g.val = .wait ∨ 3 < g.land) := by decide +kernel

theorem witness_Landing_bypass : (withFlights run0 [flight 0 (.bs 3) 0 1 (.w 9)]).t.flights = [flight 0 (.bs 3) 0 1 (.w 9)] ∧
    (1 : Nat) ≤ 1 ∧ 1 < 1 + 3 ∧ ¬4 < 1 + 3 := by decide +kernel

theorem witness_GuardOff : (Instr.trap { g := 1 }).wf = true ∧ (encode (.trap { g := 1 })).isSome = true ∧
    run0.on (sylGuard (.trap { g := 1 })) = false := by decide +kernel

/-- `run0` with a transfer that falls due after bundle 2. -/
def pending : State := run0.withT fun t => { t with pend := [{ due := 2, target := 0x100 }] }

theorem witness_TransferIssue : run0.on 0 = true ∧ run0.offsetTarget none (1 : BitVec 20) 8 ∧
    run0.offsetTarget (some 0xFFFFFFFF) (0 : BitVec 20) 0xFFFFFFFFFFFFFFF8 ∧ goodTarget 8 ∧ goodTarget (2 ^ 57 - 8) ∧
    ¬goodTarget 4 ∧ ¬goodTarget (2 ^ 57) ∧ run0.noCollision 2 ∧ run0.noCollision 3 ∧ ¬pending.noCollision 2 ∧
    pending.noCollision 3 ∧ ¬(run0.withT fun t => { t with pend := [{ due := 3, target := 0 }] }).noCollision 3 := by decide +kernel

/-- The condition mask of BRQ is q2 and the guard that enables it q0 or q1 of facet 0, which read all ones and zeros. -/
theorem witness_TransferIssue_conditions : (true = true ↔ (ports run0 1 0).src none (.port 0) ≠ 0) ∧
    ¬(true = true ↔ (ports run0 0 0).src none (.port 0) ≠ 0) ∧
    run0.qreg 0 0 1 = 0xFFFF ∧ run0.qreg 0 2 0 = 0 ∧ (0xFFFF : BitVec 16).getLsbD 0 = true ∧
    (run0.withT fun t => t.updFacet 0 fun f => { f with q := f.q.set 2 1 }).qreg 0 2 0 = 1 ∧ (1 : BitVec 16).getLsbD 0 = true ∧
    (1 : BitVec 16).getLsbD 1 = false ∧ (run0.withT fun t => { t with s := t.s.set 55 1 }).entryVal 55 = 0 ∧
    goodTarget ((ports run0 8 0).src none (.port 0)) ∧ ¬goodTarget ((ports run0 4 0).src none (.port 0)) := by decide +kernel

def inTrap : State := run0.withT fun t => { t with trap := { t.trap with intrap := true } }

theorem witness_TrapBrkEret : run0.on 0 = true ∧ run0.t.id.debug = false ∧
    (run0.withT fun t => { t with id := { t.id with debug := true } }).part.stall = false ∧ inTrap.t.pend = [] ∧
    inTrap.t.trap.intrap = true ∧ (inTrap.withT fun t => { t with pend := [{ due := 0, target := 0 }] }).t.pend ≠ [] ∧
    run0.t.trap.intrap = false := by decide +kernel

theorem witness_TrapBrkEret_drain : (inTrap.setRun .eretDrain).hasTask 7 = true ∧ (inTrap.setRun .eretDrain).coreFrozen = false ∧
    (let f := (inTrap.setRun .eretDrain).focus 7
    f.t.run = .eretDrain ∧ f.t.acc = [] ∧ f.t.cmds = [] ∧ f.t.eks = []) := by decide +kernel

def trapReq : TrapReq := { code := 255, need := 8191, depth := 8191, addr := 8, ret := 8, at_ := 1 }

/-- A drain of a task whose node names a trap routine. -/
def draining : State := run0.withT fun t => { t with run := .trapDrain trapReq, id := { t.id with trapr := 0x100 } }

theorem witness_TrapTaken : draining.hasTask 7 = true ∧
    (let f := draining.focus 7
    f.t.run = .trapDrain trapReq ∧ f.t.acc = [] ∧ f.t.cmds = [] ∧ f.t.eks = [] ∧ f.coreFrozen = false ∧
      f.t.trap.intrap = false ∧ f.t.id.trapr ≠ 0 ∧ f.t.cast = none ∧ f.t.mrec.state = .off ∧
      trapReq.code < 256 ∧ trapReq.need < 2 ^ 13 ∧ trapReq.depth < 2 ^ 13) ∧
    (let f := (run0.setRun (.trapDrain trapReq)).focus 7
    f.t.run = .trapDrain trapReq ∧ f.coreFrozen = false ∧ f.t.id.trapr = 0) ∧
    ((inTrap.setRun (.trapDrain trapReq)).focus 7).t.trap.intrap = true := by decide +kernel

/-- A command of the port that waits on another party. -/
def ek (id : Nat) (op : EkOp) : Ek :=
  { id := id, bundle := 0, ins := none, root := 0, grp := 4, op := op, level := 4, scope := 4, deferred := false, status := none, waiting := false, done := [], got := []
    p := 0, tmax := 0 }

def withEks (s : State) (l : List Ek) : State := s.withT fun t => { t with eks := l, cnt := { t.cnt with kc := l.length } }

def cmd (op : CmdOp) : Cmd :=
  { id := 3, bundle := 0, ins := none, root := 0, first := none, op := op, level := 4, scope := 4, fctl := 0, fscsel := 0, gens := [], inj := none, reads := [], latched := false
    done := [], wrote := [], got := [], p := 0, tmax := 0, fl := 0, uf := 0 }

def withCmds (s : State) (l : List Cmd) : State :=
  s.withT fun t => { t with cmds := l, cnt := { t.cnt with cp := l.length, tl := l.length } }

/-- A GBAR that waits for its group, and 16 deferred TOKENs. -/
def atBarrier : State := withEks run0 [{ ek 1 .gbar with waiting := true }]
def tokens16 : State := withEks run0 ((List.range 16).map fun k => { ek k (.token 0 0) with deferred := true })

theorem witness_WaitAndFences : run0.on 0 = true ∧ (∀ c ∈ [Cnt.ld, .st, .cp, .tl, .kc], run0.t.cnt.get c ≤ 0) ∧
    (run0.t.eks.filter fun e => e.deferred).length = 0 ∧ 15 < (tokens16.t.eks.filter fun e => e.deferred).length ∧
    ¬atBarrier.t.cnt.get .kc ≤ 0 ∧ atBarrier.t.eks.all (fun e => !e.deferred) = true ∧
    (∃ e ∈ atBarrier.t.eks, atBarrier.ekParks e = true) ∧ atBarrier.t.pend = [] ∧
    (atBarrier.withT fun t => { t with pend := [{ due := 0, target := 0 }] }).t.pend ≠ [] ∧
    ¬(run0.withT fun t => { t with cnt := { t.cnt with ld := 1 } }).t.cnt.get .ld ≤ 0 := by decide +kernel

/-- A fence of the bundle before that orders everything, with a CPFILL and a message that it waits for. -/
def fenceAll (r : Option (Nat × Nat)) : Fence :=
  { iss := 0, done := false, pred := 63, succ := 63, range := r, level := 4, accs := [], cmds := [3], eks := [1], tmax := 0 }
def fencedState : State := (stacked mapped [tile 1 .fp32 1 1]).withT fun t => { t with bidx := 1, fences := [fenceAll none] }

theorem witness_WaitAndFences_engines : (let c := { cmd (.cpfill 0x1FFB8 72 0) with done := [0] }
    let s := withCmds run0 [c]
    (∃ e, c.elem s.t 1 = some e ∧ e.skip = false ∧ e.cls &&& (63 : BitVec 6) ≠ 0) ∧ c.cls &&& (63 : BitVec 6) ≠ 0 ∧ 1 ∉ c.done ∧
      (∃ r ∈ c.ranges s.t, 0x1FFFF < r.1 + r.2 ∧ r.1 < 0x1FFFF + 1) ∧ c.pendingIn s.t 63 none = true) ∧
    (∀ op ∈ [EkOp.ksend 0 0x10000 4, .coll 0 .add .fp32 1 4 0x10000 0x1FFFC 1 0 1], (ek 1 op).cls &&& (63 : BitVec 6) &&& cKR ≠ 0 ∧
      0 ∉ (ek 1 op).done ∧ (∃ r ∈ (ek 1 op).ranges, 0x10003 < r.1 + r.2 ∧ r.1 < 0x10003 + 1) ∧ (ek 1 op).pendingIn 63 none = true) ∧
    (ek 1 (.krecv 1 0x10000 4)).cls &&& (63 : BitVec 6) &&& cKW ≠ 0 ∧ 1 ∉ (ek 1 (.krecv 1 0x10000 4)).done := by
  refine ⟨⟨⟨_, rfl, ?_, ?_⟩, ?_⟩, ?_⟩ <;> decide +kernel

theorem witness_WaitAndFences_held : fenceAll none ∈ fencedState.t.fences ∧ (fenceAll none).iss < fencedState.t.bidx ∧
    (fenceAll none).succ &&& (cCR ||| cCW) ≠ 0 ∧ (fenceAll none).succ &&& (cKR ||| cKW) ≠ 0 ∧ fencedState.tileReady 0 1 [] ∧
    fencedState.atTop [tile 1 .fp32 1 1] ∧ fencedState.tileReady 1 0 [tile 1 .fp32 1 1] ∧ fencedState.on 0 = true ∧
    (∃ x ∈ [((64 : Nat), (1 : Nat))], 64 < x.1 + x.2 ∧ x.1 < 64 + 1) := by decide +kernel

/-- A range that ends at the top of the address space, an empty one, and a fence of an earlier bundle that covers its line. -/
theorem witness_WaitAndFences_ranges : ((ports run0 (2 ^ 57 - 1) 2).src none (.port 0)).toNat < 2 ^ 57 ∧
    ((ports run0 (2 ^ 57) 2).src none (.port 0)).toNat = 2 ^ 57 ∧ ((ports run0 0 0).src none (.port 1)).toNat = 0 ∧
    (let f : Fence := { iss := 0, done := false, pred := 63, succ := 1, range := some (64, 1), level := 4, accs := [], cmds := [], eks := [], tmax := 0 }
    f.iss < 1 ∧ f.succ &&& cLD ≠ 0 ∧ 64 < 64 + 1 ∧ 64 < 64 + 1) := by decide +kernel

theorem witness_FetchAndWatch : run0.on 0 = true ∧ run0.offsetTarget none (0 : BitVec 20) 0 ∧ run0.ros.copies = [] ∧
    run0.offsetTarget (some 0xFFFFFFFF) (0 : BitVec 20) 0xFFFFFFFFFFFFFFF8 ∧ 2 ^ 57 ≤ (0xFFFFFFFFFFFFFFF8 : W64).toNat ∧ run0.coreFrozen = false ∧ run0.mustStop = false ∧
    (∃ e ∈ (withEks run0 [ek 1 (.icinv 0)]).t.eks, e.op = .icinv 0) ∧ run0.t.eks = [] ∧ run0.t.pend = [] ∧
    pending.t.pend ≠ [] ∧ run0.t.watch.armed = false ∧
    (let a := (ports mapped 0x1FFFF 0).amAddr none (.port 0) (.port 1) 1
    a.toNat < 2 ^ 57 ∧ (ports mapped 0x1FFFF 0).look a.toNat 1 false none = .ok ((page 0x10000 8).tr a.toNat)) ∧
    2 ^ 57 ≤ ((ports mapped (2 ^ 57) 0).amAddr none (.port 0) (.port 1) 1).toNat := by decide +kernel

/-- A line that is watched. -/
def watching (fired : Bool) : State := run0.withT fun t => { t with watch := { t.watch with armed := true, fired := fired } }

theorem witness_FetchAndWatch_armed : (watching true).t.watch.armed = true ∧ (watching true).t.watch.fired = true ∧
    (watching false).t.watch.fired = false ∧ (watching false).t.pend = [] := by decide +kernel

/-- The last bytes of a page; the counter one below its bound. -/
theorem witness_Loads : mapped.on 0 = true ∧ ∀ n ∈ [1, 2, 4, 8],
    let s := (ports mapped (BitVec.ofNat 64 (0x20000 - n)) 0).withT fun t => { t with cnt := { t.cnt with ld := 15 } }
    let a := s.amAddr none (.port 0) (.port 1) n
    s.unheld a n cLD .ld false ∧ goodAddr a n ∧ s.look a.toNat n false none = .ok ((page 0x10000 8).tr a.toNat) := by decide +kernel

/-- A task that stages, with an empty buffer. -/
def staging : State := mapped.withT fun t => { t with stage := { t.stage with mode := .staging } }

theorem witness_Stores : mapped.on 0 = true ∧ mapped.t.stage.mode ≠ .staging ∧ staging.t.stage.mode = .staging ∧
    (staging.scope .task).2 = 0 ∧ (mapped.scope .dev).2 ≠ 0 ∧ ∀ n ∈ [1, 2, 4, 8],
      let s := (ports staging (BitVec.ofNat 64 (0x20000 - n)) 0).withT fun t => { t with cnt := { t.cnt with st := 31 } }
      let a := s.amAddr none (.port 0) (.port 1) n
      s.unheld a n cST .st false ∧ goodAddr a n ∧ s.look a.toNat n true none = .ok ((page 0x10000 8).tr a.toNat) ∧
        s.t.stageFull [(a.toNat, n)] = false := by decide +kernel

/-- The last bytes before the tile-stack reservation of 512 KiB, and the first ones beyond. -/
theorem witness_AccessStops_local : mapped.on 0 = true ∧ ∀ n ∈ [1, 2, 4, 8],
    let s := ports mapped (BitVec.ofNat 64 (0x100000 - mapped.reserved 0 - n)) 0
    let a := s.amAddr none (.port 0) (.port 1) n
    let b := (ports mapped (BitVec.ofNat 64 (0x100000 - mapped.reserved 0)) 0).amAddr none (.port 0) (.port 1) n
    let far := (ports mapped (2 ^ 63) 0).amAddr none (.port 0) (.port 1) n
    s.unheld a n cLD .ld true ∧ s.unheld a n cST .st true ∧ a.toNat % n = 0 ∧ a.toNat + n ≤ 0x100000 - s.reserved s.t.id.core ∧
      s.unheld b n cLD .ld true ∧ b.toNat % n = 0 ∧ 0x100000 - s.reserved s.t.id.core < b.toNat + n ∧
      s.unheld far n cST .st true ∧ far.toNat % n = 0 ∧ 2 ^ 57 ≤ far.toNat ∧ 0x100000 - s.reserved s.t.id.core < far.toNat + n ∧
      (n ≠ 1 → s.unheld 1 n cLD .ld true ∧ (1 : W64).toNat % n ≠ 0) := by decide +kernel

/-- `s` with every counter full. -/
def full (s : State) : State := s.withT fun t => { t with cnt := { ld := 16, st := 32, cp := 16, tl := 32, kc := 16 } }

/-- A page without a W bit, at 0x30000. -/
def readOnly : State := run0.setCore { Core.fresh 0 with
  dtlb := [{ asid := 0, base := 0x30000, size := 0x10000, leaf := 0x34003 }] }

theorem witness_AccessStops : ¬(full mapped).unheld 0x10000 8 cLD .ld false ∧ ¬(full mapped).unheld 0x10000 8 cST .st false ∧
    mapped.unheld (2 ^ 57) 8 cLD .ld false ∧ ¬(2 ^ 57 : W64).toNat < 2 ^ 57 ∧ mapped.unheld 0x10001 2 cST .st false ∧
    (0x10001 : W64).toNat % 2 ≠ 0 ∧ goodAddr 0x40000 8 ∧ mapped.unheld 0x40000 8 (cLD ||| cST) .ld false ∧
    mapped.look 0x40000 8 true none = .miss ∧ goodAddr 0x30000 8 ∧ readOnly.unheld 0x30000 8 cST .st false ∧
    readOnly.look 0x30000 8 true none = .fault 4 := by decide +kernel

theorem witness_AtomicsAndLines : mapped.on 0 = true ∧ ∀ n ∈ [4, 8],
    let s := ports mapped (BitVec.ofNat 64 (0x20000 - n)) 1
    let a := s.src none (.port 0)
    s.unheld a n (cLD ||| cST) .ld false ∧ goodAddr a n ∧
      s.look a.toNat n true none = .ok ((page 0x10000 8).tr a.toNat) := by decide +kernel

theorem witness_AtomicsAndLines_line :
    (let s := (ports mapped 0x1FFFF 0).withT fun t => { t with cnt := { t.cnt with st := 31 } }
    let a := s.amAddr none (.port 0) (.port 1) 1
    s.memHeld cST [(0x1FFC0, 64)] false = false ∧ s.t.cnt.st < 32 ∧ a.toNat < 2 ^ 57 ∧
      s.look a.toNat 1 true none = .ok ((page 0x10000 8).tr a.toNat)) ∧
    (let s := ports mapped (2 ^ 57) 0
    2 ^ 57 ≤ (s.amAddr none (.port 0) (.port 1) 1).toNat ∧ s.memHeld cST [(2 ^ 57, 64)] false = false) := by decide +kernel

def systemTask : State := run0.withT fun t => { t with id := { t.id with system := true } }
def helperTask : State := run0.withT fun t => { t with id := { t.id with helper := true } }

theorem witness_ControlRegisters : run0.on 0 = true ∧ systemTask.t.id.system = true ∧ run0.t.id.system = false ∧
    helperTask.t.id.helper = true ∧ run0.t.id.helper = false ∧ run0.t.stk.map.length < 2 ^ 64 ∧ run0.t.flights = [] ∧
    run0.csrTrap 0xD0 0x3F = none ∧ run0.csrTrap 0xD0 0x40 = some 0x25 ∧ run0.csrTrap 0xD1 6 = none ∧
    run0.csrTrap 0xD1 7 = some 0x25 ∧ run0.csrTrap 0xD2 0xFFFFFFFF = none ∧ run0.csrTrap 0xC3 (2 ^ 57 - 1) = none ∧
    (stacked run0 [tile 1 .fp32 1 1]).t.stk.map ≠ [] ∧ run0.t.stk.map = [] ∧ run0.csrTrap 0xB1 4096 = none ∧
    (stacked run0 [tile 1 .fp32 1 1]).csrTrap 0xB1 4096 = some 0x23 ∧ run0.csrTrap 0xBF 4097 = some 0x23 ∧
    (0xBF : BitVec 12) ≤ 0xBF ∧ (0x200 : BitVec 12) ≤ 0x22F ∧ (0x22F : BitVec 12) ≤ 0x22F := by decide +kernel

theorem witness_FacetTransfers : run0.on 0 = true ∧ run0.vBusy 7 (.bf 3) = false ∧ run0.t.flights = [] ∧
    (VReg.v 7 : VReg) = .v (Fin.castLE (by decide) (7 : Fin 8)) := by decide +kernel

/-- A facet syllable on the facets of a list. -/
def onFacets (s : State) (l : List (Fin 8)) : State := s.withT fun t => { t with latch := { t.latch with facets := l } }

/-- The inputs of the special results. -/
theorem witness_FacetFloat : run0.runs ∧ run0.vBusy 0 (.v 31) = false ∧ dec32 0x7F800001 = .nan ∧ dec32 0xFFFFFFFF = .nan ∧
    dec32 0x7F7FFFFF ≠ .nan ∧ dec32 0x80000001 = .fin true 1 (-149) ∧ dec32 0x7F800000 = .inf false ∧
    dec32 0x40000000 = .fin false 8388608 (-22) := by decide +kernel

theorem witness_FacetFloat_finite : finite32 0x3F800000 ∧ val32 0x3F800000 ≠ 0 ∧ finite32 0x80000001 ∧ val32 0x80000001 < 0 ∧
    0 < val32 0x00000001 ∧ val32 0x40000000 = 2 ^ (1 : Int) ∧ (val32 0x40000000 - val32 0x40000000) * val32 0x3F800000 = 0 := by
  have h1 : dec32 0x3F800000 = .fin false 8388608 (-23) := by decide +kernel
  have h2 : dec32 0x80000001 = .fin true 1 (-149) := by decide +kernel
  have h3 : dec32 0x00000001 = .fin false 1 (-149) := by decide +kernel
  have h4 : dec32 0x40000000 = .fin false 8388608 (-22) := by decide +kernel
  refine ⟨⟨_, _, _, h1⟩, ?_, ⟨_, _, _, h2⟩, ?_, ?_, ?_, ?_⟩ <;> simp only [val32, h1, h2, h3, h4, Num.val] <;> norm_num

theorem witness_FloatSpecials : (Sys2Proof.Machine.Num.nan = .nan) ∧ (1 : Nat) ≠ 0 ∧ finite32 0 ∧ finite32 0x7F7FFFFF := by
  refine ⟨rfl, by decide, ⟨false, 0, _, rfl⟩, ⟨false, 0xFFFFFF, _, rfl⟩⟩

theorem witness_FloatNearest : finite32 0x00000001 ∧ finite32 0xFF7FFFFF ∧ finite32 0x80000000 := by
  refine ⟨⟨false, 1, _, rfl⟩, ⟨true, 0xFFFFFF, _, rfl⟩, ⟨true, 0, _, rfl⟩⟩

theorem witness_FacetConvert : run0.runs ∧ (onFacets run0 [0, 7]).t.latch.facets.Nodup ∧ run0.mode .rn = 0 ∧ run0.mode .rz = 1 ∧
    run0.mode .rs = 2 ∧ bf16.decode 0x3F80 ≠ .nan ∧ bf16.decode 0x7FC1 = .nan := by decide +kernel

theorem witness_FacetConvert_range : finite32 0xCEFFFFFF ∧ |val32 0xCEFFFFFF| < 2 ^ 31 := by
  have h : dec32 0xCEFFFFFF = .fin true 16777215 7 := by decide +kernel
  refine ⟨⟨_, _, _, h⟩, ?_⟩
  simp only [val32, h, Num.val]
  norm_num

theorem witness_FacetInteger : run0.runs := by decide +kernel

theorem witness_FacetMasksAndLanes : run0.runs ∧ run0.vBusy 7 (.v 0) = false ∧
    ((List.finRange 16).filter fun l => (run0.qreg 0 0 7).getLsbD l.val).length = 16 ∧
    ((List.finRange 16).filter fun l => (run0.qreg 0 1 7).getLsbD l.val).length = 0 ∧ 14 + 1 < 16 := by decide +kernel

/-- Facet 0 with AB0 at an address and mask q2 of lane 15 alone. -/
def lane15 (s : State) (a : VAddr) : State := (onFacets s [0]).withT fun t =>
  t.updFacet 0 fun f => { f with q := f.q.set 2 0x8000, ab := f.ab.set 0 a }

/-- The requests of lane 15 at offset 15 elements of `n` bytes. -/
def req15 (a n : Nat) : List LaneReq := [{ lane := 15, va := BitVec.ofNat 64 (a + 15 * n), len := n }]

/-- VLD.h on facet 0 of the last 32 bytes of a page, whose lane 15 alone is enabled, and on facets 0 and 1 at an odd address, where the
first stops and the second, with no lane enabled, does not. -/
theorem witness_FacetSequence : (let o : OVmem := { q := 2, ix := none, d := .v 3, ab := 0, sz := .h, scope := .dev, ofs := 0 }
    let act (s : State) (f : Fin 8) : State := s.rawLoad f o.d false o.scope (VSize.bytes o.sz)
      (rowReqs (s.abAddr f o.ab o.ix o.ofs) (VSize.bytes o.sz) (s.qreg f o.q 7))
    let s := lane15 mapped 0x1FFE0
    let b := onFacets (lane15 mapped 0x10001) [0, 1]
    s.t.latch.facets = [0] ∧ (act s 0).stopRank = 0 ∧ (Out.get (exec (.vld o) s) s).t.acc = (act s 0).t.acc ∧ (act s 0).t.acc ≠ [] ∧
      b.t.latch.facets = [] ++ 0 :: [1] ∧ (act b 0).stopRank ≠ 0 ∧ (act b 1).stopRank ≤ (act b 0).stopRank ∧
      (Out.get (exec (.vld o) b) b).t.run = (act b 0).t.run) := by decide +kernel

theorem witness_FacetMemory : (∀ n ∈ [1, 2, 4, 64],
    let s := lane15 mapped (BitVec.ofNat 57 (0x20000 - 16 * n))
    let rs := ((List.finRange 16).filter fun l => (s.qreg 0 2 7).getLsbD l.val).map fun l =>
      ({ lane := l.val, va := s.abAddr 0 0 none 0 + BitVec.ofNat 64 (l.val * n), len := n } : LaneReq)
    s.runs ∧ s.t.latch.facets = [0] ∧ rs = req15 (0x20000 - 16 * n) n ∧ s.unheldLanes rs cLD .ld ∧ s.unheldLanes rs cST .st ∧
      s.goodLanes rs n true none (rs.map fun r => (r, [(page 0x10000 8).tr r.va.toNat])) ∧
      s.goodLanes rs n false none (rs.map fun r => (r, [(page 0x10000 8).tr r.va.toNat]))) ∧
    (enabled (run0.qreg 0 1 7) = []) ∧ ¬(full mapped).unheldLanes (req15 0x10000 4) cLD .ld ∧
    mapped.unheldLanes (req15 (2 ^ 57) 4) cLD .ld ∧ (∃ r ∈ req15 (2 ^ 57) 4, 2 ^ 57 ≤ r.va.toNat) ∧
    mapped.unheldLanes (req15 0x10001 2) cST .st ∧ (∃ r ∈ req15 0x10001 2, r.va.toNat % 2 ≠ 0) ∧
    staging.t.stage.mode = .staging ∧ (staging.scope .task).2 = 0 := by decide +kernel

/-- A page of each kind of format: FP32 at 0x20000 and FP4 in blocks of 32 at 0x40000. -/
def fmtPages : State := run0.setCore { Core.fresh 0 with dtlb := [page 0x20000 1,
  { asid := 0, base := 0x40000, size := 0x10000, leaf := BitVec.ofNat 64 (0x40000 + 6 * 2048 + 2 * 256 + 7) }] }

theorem witness_FacetFormats :
    (let s := lane15 fmtPages 0x20000
    let rs := fmtReqs (s.abAddr 0 0 none 0) .fp32 (s.qreg 0 2 7)
    s.runs ∧ s.t.latch.facets = [0] ∧ s.qreg 0 2 7 ≠ 0 ∧ s.qreg 0 1 7 = 0 ∧ (s.abAddr 0 0 none 0).toNat < 2 ^ 57 ∧
      s.pageFmt 0x20000 false = .ok .fp32 ∧ s.pageFmt 0x20000 true = .ok .fp32 ∧ s.unheldLanes rs cLD .ld ∧ s.unheldLanes rs cST .st ∧
      (∀ r ∈ rs, goodAddr r.va 4) ∧
      s.goodLanes rs 4 true (some 1) (rs.map fun r => (r, [(page 0x20000 1).tr r.va.toNat])) ∧
      s.goodLanes rs 4 false (some 1) (rs.map fun r => (r, [(page 0x20000 1).tr r.va.toNat]))) ∧
    (let s := lane15 fmtPages 0x40000
    s.pageFmt 0x40000 false = .ok .e2m1b32 ∧ s.unheldLanes (fmtReqs (s.abAddr 0 0 none 0) .e2m1b32 (s.qreg 0 2 7)) cLD .ld ∧
      s.pageFmt 0x40000 true = .ok .e2m1b32 ∧ s.unheldLanes (fmtReqs (s.abAddr 0 0 none 0) .e2m1b32 (s.qreg 0 2 7)) cST .st ∧
      (∀ r ∈ fmtReqs (s.abAddr 0 0 none 0) .e2m1b32 (s.qreg 0 2 7), goodAddr r.va Fmt.e2m1b32.size)) ∧
    (let s := lane15 fmtPages 0x20002
    let rs := fmtReqs (s.abAddr 0 0 none 0) .fp32 (s.qreg 0 2 7)
    s.pageFmt 0x20002 true = .ok .fp32 ∧ s.unheldLanes rs cST .st ∧ (∀ r ∈ rs, r.va.toNat < 2 ^ 57) ∧ (∃ r ∈ rs, r.va.toNat % 4 ≠ 0)) ∧
    (let s := lane15 fmtPages (2 ^ 57 - 1)
    let base := s.abAddr 0 0 (some 1) 0
    s.runs ∧ s.qreg 0 2 7 ≠ 0 ∧ s.t.cnt.get .ld < Cnt.ld.max ∧ s.t.cnt.get .st < Cnt.st.max ∧ 2 ^ 57 ≤ base.toNat ∧
      s.memHeld cLD [(base.toNat, 64)] false = false ∧ s.memHeld cST [(base.toNat, 64)] false = false) := by
  decide +kernel

theorem witness_DistMakes : run0.runs ∧ (onFacets run0 [0, 7]).t.latch.facets.Nodup := by decide +kernel

/-- Facet 0 with tag masks and aligned bits in d0 and d1. -/
def dists (m n : BitVec 16) (al : Bool) : State := (onFacets run0 [0]).withT fun t =>
  t.updFacet 0 fun f => { f with d := (f.d.set 0 { f.d.get 0 with mask := m, aligned := al }).set 1 { f.d.get 1 with mask := n, aligned := al } }

theorem witness_DistPairings : (dists 1 2 true).runs ∧ (dists 1 2 true).dBusy 0 0 = false ∧ (dists 1 2 true).dBusy 0 1 = false ∧
    ((withFlights (dists 1 2 true) [flight 0 (.d 0 1) 0 3 .wait]).withT fun t => { t with bidx := 1 }).dBusy 0 1 = true ∧ (dists 1 2 true).t.latch.facets = [0] ∧
    ((dists 1 2 true).dreg 0 0 0).mask &&& ((dists 1 2 true).dreg 0 1 1).mask = 0 ∧
    ((dists 1 1 true).dreg 0 0 0).mask &&& ((dists 1 1 true).dreg 0 1 1).mask ≠ 0 ∧ ((dists 1 1 true).dreg 0 0 0).aligned = true ∧
    ((dists 1 1 false).dreg 0 0 0).aligned = false ∧ (dists 1 1 false).qreg 0 0 7 ≠ 0 ∧ (dists 1 1 false).qreg 0 1 7 = 0 ∧
    ((dists 1 1 false).t.fac.get 0).fcr = false ∧
    (((dists 1 1 false).withT fun t => t.updFacet 0 fun f => { f with fcr := true }).t.fac.get 0).fcr = true := by decide +kernel

/-- Points of weight 0, a weight of 1, and eight points. -/
theorem witness_DistPairings_condense : (∀ x ∈ [((0 : W32), 0)], x.2 = 0) ∧ ([((0 : W32), 1)].map (·.2)).sum ≤ 0x8000 ∧
    ((List.replicate 8 ((0 : W32), 0x1000)).length ≤ 8) ∧ ((List.replicate 8 ((0 : W32), 0x1000)).map (·.2)).sum ≤ 0x8000 := by
  decide +kernel

/-- A lane of one point, one of two points of half the weight, and bounds. -/
theorem witness_DistMapsAndReads :
    (let a := laneOf [((0x3F800000 : W32), 0x4000), (0x40000000, 0x4000)]
    run0.runs ∧ ptsOf voidLane = [] ∧ ptsOf (laneOf [((0x3F800000 : W32), 0x8000)]) = [(0x3F800000, 0x8000)] ∧
      ptsOf a = [] ++ (0x3F800000, 0x4000) :: [(0x40000000, 0x4000)] ∧ 0 ≤ 0 + 0x4000 ∧ 0x4000 ≤ 0 + 0x4000 ∧
      ptsOf a = [((0x3F800000 : W32), 0x4000)] ++ (0x40000000, 0x4000) :: [] ∧ 0x8000 ≤ 0x4000 + 0x4000 ∧ 0x4000 < 0x4001 ∧
      0x8000 < 0xFFFF ∧ (dec32 0x80000001).cmp (.fin false 0 0) < 0 ∧ 0 ≤ (dec32 0x80000000).cmp (.fin false 0 0) ∧
      (∀ p ∈ ptsOf a, dec32 (numFma (dec32 0) (dec32 p.1) (dec32 0)).1 ≠ .nan) ∧
      ((ptsOf a).filter fun p => dec32 p.1 != .nan && (dec32 0x40000000).cmp (dec32 p.1) ≤ 0 &&
        (dec32 p.1).cmp (dec32 0x40000000) ≤ 0) ≠ [] ∧ ((ptsOf a).map (·.2)).sum < 2 ^ 32) := by decide +kernel

theorem witness_DistMapsAndReads_finite : finite32 0x3F800000 := ⟨false, 8388608, _, rfl⟩

theorem witness_TileIssue : 2 ≤ (stacked run0 [tile 1 .fp32 1 1, tile 2 .fp32 1 1]).t.stk.map.length ∧
    ([({ fmt := .fp32, rows := 1, cols := 1 } : Desc)][0]? = some { fmt := .fp32, rows := 1, cols := 1 }) := by decide +kernel

/-- A full stack of eight tiles. -/
def fullStack : State := stacked run0 ((List.range 8).map fun i => tile i .fp32 1 1)

theorem witness_TileTransfers_faults : run0.on 0 = true ∧ run0.t.stk.map.length < 1 ∧ 1 ≤ fullStack.t.stk.map.length ∧
    fullStack.t.stk.limit < fullStack.t.stk.map.length - 0 + 1 ∧ fullStack.t.stk.limit < fullStack.t.stk.map.length - 1 + 2 ∧
    run0.t.stk.map.length ≤ (0 : BitVec 5).toNat ∧
    run0.t.stk.map.length < ((run0.withT fun t => { t with stk := { t.stk with marks := t.stk.marks.set 0 1 } }).t.stk.marks.get 0).toNat := by
  decide +kernel

/-- The tile registers for `n` rows of `m` columns at `base` with a pitch. -/
def tileRegs (s : State) (base pitch n m : W64) : State := stg (stg (stg (stg s 0 base) 1 pitch) 2 n) 3 m

theorem witness_TileTransfers : (let s := tileRegs (stacked fmtPages []) 0x20000 4 64 64
    s.on 0 = true ∧ s.t.cnt.tl < 32 ∧ s.tileReady 0 1 [] ∧ s.pageAt 0x20000 false = .ok .fp32 ((page 0x20000 1).tr 0x20000) ∧
      s.memHeld cLD ((List.range 64).map fun i => (rowAddr 0x20000 4 i, 256)) false = false ∧ (0x20000 : Nat) % 4 = 0 ∧
      s.rowStop ((page 0x20000 8).tr 0x20000) 0x20000 256 false = none) ∧
    (let t := { (page 0x100000 1) with leaf := 0x10000100807 }
    let s := run0.setCore { Core.fresh 0 with dtlb := [t] }
    s.rowStop (t.tr 0x100040) 0x100040 256 false = some (.fault 7) ∧ s.rowStop (t.tr 0x100040) 0x100040 64 false = none) ∧
    (let x := tile 1 .fp32 64 64
    let s := tileRegs (stacked fmtPages [x]) 0x20000 4 0 0
    s.atTop [x] ∧ s.tileReady 1 0 [x] ∧ s.pageAt 0x20000 true = .ok .fp32 ((page 0x20000 1).tr 0x20000) ∧
      s.memHeld cST ((List.range 64).map fun i => (rowAddr 0x20000 4 i, 256)) false = false) ∧
    (let x := { tile 1 .fp32 1 1 with fmt := Fmt.int32 }
    let s := tileRegs (stacked fmtPages [x]) 0x20000 4 1 64
    s.atTop [x] ∧ s.tileReady 1 1 [x] ∧ Fmt.ofCode 1 = some .fp32 ∧
      s.gatherHeld (x.gather 0x20000 4 0 256) = false ∧ s.look 0x20000 1 false none = .ok ((page 0x20000 1).tr 0x20000)) := by
  decide +kernel

def tileX : Entry := tile 1 .fp32 16 16
def tileY : Entry := tile 2 .fp32 48 16
def twoTiles : State := stacked run0 [tileX, tileY]

theorem witness_TileRenamesAndMakes : twoTiles.on 0 = true ∧ twoTiles.t.atDepth 0 = some tileX ∧ twoTiles.tileReady 0 1 [tileX] ∧
    1 < twoTiles.t.stk.map.length ∧ twoTiles.tileReady 2 0 [] ∧ twoTiles.t.stk.map.length < 2 ^ 13 ∧
    (twoTiles.t.stk.marks.get 0).toNat ≤ twoTiles.t.stk.map.length ∧ twoTiles.tileReady 0 1 [] ∧ twoTiles.tileReady 1 1 [tileX] ∧
    twoTiles.tileReady 2 1 [tileX, tileY] ∧ twoTiles.tileReady 1 0 [tileX] := by decide +kernel

theorem witness_TileRenamesAndMakes_shapes : twoTiles.atTop [tileX] ∧ twoTiles.atTop [tileX, tileY] ∧
    4 * 64 = tileX.rows * tileX.cols ∧ ¬3 * 3 = tileX.rows * tileX.cols ∧ tileX.fmt = tileY.fmt ∧ tileX.cols = tileY.cols ∧
    tileX.rows + tileY.rows ≤ 64 ∧ ¬tileX.rows = tileY.rows ∧ tileX.state ≠ .filling ∧ tileX.rows = 15 + 1 ∧ tileX.cols ≤ 16 ∧
    twoTiles.vBusy 0 (.v 0) = false := by decide +kernel

def tileA : Entry := tile 1 .bf16 16 64
def tileB : Entry := tile 2 .bf16 64 16
def tileC : Entry := tile 3 .fp32 16 16
def product : State := stacked run0 [tileB, tileA]
def productC : State := stacked run0 [tileC, tileB, tileA]

theorem witness_MatrixIssue : product.on 0 = true ∧ product.atTop [tileB, tileA] ∧ product.tileReady 2 1 [tileB, tileA] ∧
    pairs80 tileA.fmt tileB.fmt ∧ tileA.cols = tileB.rows ∧ ¬tileA.cols = tileA.rows := by decide +kernel

theorem witness_MatrixIssue_accumulator : productC.atTop [tileC, tileB, tileA] ∧ productC.tileReady 3 1 [tileC, tileB, tileA] ∧
    productC.tileReady 3 2 [tileC, tileB, tileA] ∧ tileC.rows = tileA.rows ∧ tileC.cols = tileB.cols ∧
    (tileA.fmt = .int8 ↔ tileC.fmt ∈ [Fmt.int8, .int32]) := by decide +kernel

/-- An index tile and an INT8 tile of 64 rows, with the registers of MMAG. -/
def indexTile : Entry := { tile 1 .fp32 1 1 with fmt := .int32 }
def tileB8 : Entry := tile 2 .int8 64 16
def gatherProduct : State := stg (stg (stg (stacked mapped [tileB8, indexTile]) 8 0x10000) 9 64) 10 8

theorem witness_MatrixIssue_gather : gatherProduct.on 0 = true ∧ gatherProduct.t.cnt.tl < 32 ∧
    gatherProduct.atTop [tileB8, indexTile] ∧ gatherProduct.tileReady 2 1 [tileB8, indexTile] ∧
    Fmt.ofCode (gatherProduct.t.stg.get 10).toNat = some .int8 ∧
    gatherProduct.gatherHeld (indexTile.gather (gatherProduct.t.stg.get 8) 64 0 64) = false ∧ pairs80 .int8 tileB8.fmt ∧
    gatherProduct.look 0x10000 1 false none = .ok ((page 0x10000 8).tr 0x10000) ∧ gatherProduct.runs := by decide +kernel

def tileF : Entry := tile 1 .fp32 64 64
def tileM : Entry := tile 2 .bf16 64 1
def tileI : Entry := tile 3 .int8 64 64
def tileV : Entry := tile 4 .e2m1b32 1 64

theorem witness_TileVector : (stacked run0 [tileF, tileI]).atTop [tileF, tileI] ∧
    (stacked run0 [tileF, tileI]).tileReady 2 1 [tileF, tileI] ∧ allFloat [tileF.fmt, tileM.fmt] ∧ allInt [tileI.fmt, tileI.fmt] ∧
    ¬(allFloat [tileF.fmt, tileI.fmt] ∨ allInt [tileF.fmt, tileI.fmt]) ∧
    (stacked run0 [tileF, tileI, tileM]).atTop [tileF, tileI, tileM] ∧
    (stacked run0 [tileF, tileI, tileM]).tileReady 3 1 [tileF, tileI, tileM] ∧
    ¬(allFloat [tileF.fmt, tileF.fmt, tileI.fmt] ∨ allInt [tileF.fmt, tileF.fmt, tileI.fmt]) ∧
    ¬(allFloat [tileV.fmt, tileF.fmt, tileF.fmt] ∨ allInt [tileV.fmt, tileF.fmt, tileF.fmt]) := by decide +kernel

theorem witness_TileVector_shapes : (stacked run0 [tileM, tileF]).atTop [tileM, tileF] ∧ tileM.rows = tileF.rows ∧ tileM.cols = 1 ∧
    (stacked run0 [tileV]).atTop [tileV] ∧ (stacked run0 [tileV]).tileReady 1 1 [tileV] ∧ tileV.fmt.blocked = true ∧
    tileF.fmt.blocked = false ∧ tileV.rows = 1 ∧ tileV.cols = 64 ∧ 64 % Fmt.e2m1b32.blk = 0 := by decide +kernel

def cp (s : State) (k : Fin 16) (x : W64) : State := stg s (Fin.ofNat 40 (16 + k.val)) x

theorem witness_CopyIssue :
    (let x := tile 1 .fp32 64 64
    let s := cp (cp (cp (cp (stacked fmtPages []) 0 0x20000) 1 4) 2 64) 3 64
    let p := cp (cp (stacked fmtPages [x]) 0 0x20000) 1 4
    s.t.cnt.cp < 16 ∧ s.on 0 = true ∧ s.tileReady 0 1 [] ∧ s.pageAt 0x20000 false = .ok .fp32 ((page 0x20000 1).tr 0x20000) ∧
      s.fenced cCR ((List.range 64).map fun i => (rowAddr 0x20000 4 i, 256)) false = false ∧ p.atTop [x] ∧ p.tileReady 1 0 [x] ∧
      p.pageAt 0x20000 true = .ok .fp32 ((page 0x20000 1).tr 0x20000) ∧
      p.fenced cCW ((List.range 64).map fun i => (rowAddr 0x20000 4 i, 256)) false = false) := by decide +kernel

theorem witness_CopyIssue_values : run0.unfenced (cCR ||| cCW) ∧ run0.unfenced cCR ∧ run0.unfenced cCW ∧
    (let b := cp (cp (cp run0 4 64) 5 4096) 6 0xFF
    (b.t.stg.get 20).toNat = 64 ∧ (b.t.stg.get 21).toNat = 4096 ∧ (b.t.stg.get 22).toNat % 256 ≠ 0 ∧ (b.t.stg.get 22).toNat < 256) ∧
    (run0.t.blocks.get 0).flag = 0 ∧ ((cp run0 1 64).t.stg.get 17).toNat = 64 ∧ ((cp run0 1 0).t.stg.get 17).toNat < 1 ∧
    blockTooMany (run0.blocksHere 0) 0 64 = false ∧ (0x3F : Nat) % 64 ≠ 0 ∧
    (({ run0 with t := { run0.t with blocks := run0.t.blocks.set 0 { run0.t.blocks.get 0 with flag := 2 } } } : State).t.blocks.get 0).flag ≠ 0 ∧
    ((cp run0 0 (2 ^ 57)).t.stg.get 16).toNat = 2 ^ 57 ∧ ((cp run0 3 65536).t.stg.get 19).toNat ≤ 65536 ∧
    ((cp run0 4 4096).t.stg.get 20).toNat ≤ 4096 ∧ ((cp run0 1 (2 ^ 32)).t.stg.get 17).toNat ≤ 2 ^ 32 ∧
    ((cp run0 1 (2 ^ 32)).t.stg.get 17).toNat % 8 = 0 := by decide +kernel

theorem witness_DeferredAndGroups : run0.on 0 = true ∧ ((stg run0 34 0xFFFFFFFF).t.stg.get 34).toNat < 2 ^ 32 ∧
    2 ^ 32 ≤ ((stg run0 34 0x100000000).t.stg.get 34).toNat ∧ run0.t.cnt.kc < 16 ∧ 16 ≤ tokens16.t.cnt.kc ∧
    (∀ e ∈ tokens16.t.eks, e.deferred = true) ∧ (∃ e ∈ (full atBarrier).t.eks, e.deferred = false) ∧ 16 ≤ (full atBarrier).t.cnt.kc ∧
    goodAddr ((stg run0 37 (2 ^ 57 - 128)).t.stg.get 37) 128 ∧ 2 ^ 57 ≤ ((stg run0 37 (2 ^ 57)).t.stg.get 37).toNat ∧
    ((stg run0 37 64).t.stg.get 37).toNat % 128 ≠ 0 ∧ run0.t.pend = [] ∧ pending.t.pend ≠ [] ∧ (∀ e ∈ run0.t.eks, e.op ≠ .gbar) ∧
    (∃ e ∈ atBarrier.t.eks, e.op = .gbar) ∧ ¬(run0.t.stage.mode = .staging ∨ run0.t.stage.mode = .committing) ∧
    staging.t.stage.mode = .staging ∧ run0.t.id.group = none ∧
    (∃ e ∈ (withEks run0 [ek 1 .leave]).t.eks, e.op = .leave) := by decide +kernel

theorem witness_PortIssue : run0.on 0 = true ∧ mapped.t.cnt.kc < 16 ∧ ((stg run0 32 32).t.stg.get 32).toNat % 64 ≠ 0 ∧
    ((stg run0 32 (2 ^ 57)).t.stg.get 32).toNat % 64 = 0 ∧ goodAddr ((stg mapped 32 0x1FFC0).t.stg.get 32) 64 ∧
    (stg mapped 32 0x1FFC0).look 0x1FFC0 64 true none = .ok ((page 0x10000 8).tr 0x1FFC0) ∧ run0.unfenced cKR ∧ run0.unfenced cKW ∧
    ((stg run0 32 4096).t.stg.get 32).toNat ≤ 4096 ∧ ((stg run0 34 0xFFFFFFFF).t.stg.get 34).toNat < 2 ^ 32 ∧
    ((stg run0 37 (2 ^ 57 - 1)).t.stg.get 37).toNat < 2 ^ 57 ∧ 2 ^ 57 ≤ ((stg run0 38 (2 ^ 57)).t.stg.get 38).toNat := by decide +kernel

/-- A collective of rank 65,535 of 65,536 on 2^32 − 4 bytes, one whose rank is its size, and misaligned ranges. -/
theorem witness_PortIssue_collective : run0.unfenced (cKR ||| cKW) ∧
    (let c := (0xFFFFFFFF00000001 : W64).toNat
    ¬c / 2 ^ 48 + 1 ≤ c / 2 ^ 32 % 2 ^ 16 ∧ ¬2 ^ 32 ≤ 2 ^ 32 - 4 ∧ ¬2 ^ 32 - 4 < 1 ∧ ¬(2 ^ 32 - 4) % 4 ≠ 0) ∧
    (let c := (0x0000000100000001 : W64).toNat
    c / 2 ^ 48 + 1 ≤ c / 2 ^ 32 % 2 ^ 16) ∧ 2 % 4 ≠ 0 := by decide +kernel

theorem witness_SystemAndMouldCommands : run0.on 0 = true ∧ run0.t.cnt.kc < 16 ∧ run0.t.id.system = false ∧
    systemTask.t.id.system = true ∧ 256 ≤ ((stg systemTask 38 256).t.stg.get 38).toNat ∧
    ((stg systemTask 38 255).t.stg.get 38).toNat < 256 ∧ ((stg systemTask 37 (2 ^ 57 - 1)).t.stg.get 37).toNat < 2 ^ 57 ∧
    run0.t.stg.get 35 = 0 ∧ ((stg run0 35 1).t.stg.get 35) ≠ 0 ∧ run0.t.mrec.state = .off ∧
    (stg mapped 35 2).lookRange (2 * 32768) 8 true none = .ok [((page 0x10000 8).tr 0x10000, 8)] ∧
    (stg mapped 35 2).endStaging.mouldNow 2 ≠ 1 ∧ mapped.t.mrec.impure = false ∧ mapped.t.stk.map = [] ∧ mapped.mem.poison = [] ∧ mapped.ros.copies = [] ∧ mapped.dev.cLost = false ∧
    ((stg run0 36 (2 ^ 32)).t.stg.get 36).toNat = 2 ^ 32 := by decide +kernel

/-- A recording, and one with eight guards. -/
def recording (guards : Nat) : State := run0.withT fun t => { t with mrec := { t.mrec with
  state := .recording, mould := 2, guards := List.replicate guards (.eq, 0, 0) } }

theorem witness_SystemAndMouldCommands_recording : (recording 7).t.mrec.state = .recording ∧ (recording 7).t.mrec.guards.length < 8 ∧ ({ (recording 7).t.mrec with guards := List.replicate 8 (.eq, 0, 0) } : Recording).bytes ≤ 32768 ∧
    8 ≤ (recording 8).t.mrec.guards.length ∧ (recording 0).arg 0 = (recording 0).t.stg.get 36 ∧
    ¬(stg (recording 0) 36 1).arg 0 = (stg (recording 0) 36 1).t.stg.get 36 ∧ run0.t.mrec.state ≠ .recording := by decide +kernel

/-- The page-table walk of an address whose tables hold nothing, and of one with a leaf of 2 MiB at level 3. -/
def tables : State := { run0 with
  t := { run0.t with dtroot := 0x1000, itroot := 0x1000 }
  mem := ((Mem.reset.hwWrite none 0x1000 (leBytes 8 0x2001)).hwWrite none 0x2000 (leBytes 8 0x3001)).hwWrite none 0x3000
    (leBytes 8 0x4001) |>.hwWrite none 0x4000 (leBytes 8 0x200803) }

def frozen (s : State) (f : Freeze) : State := s.withT fun t => { t with frz := some f }

def walkReq (va : Nat) : MemReq := { root := 0x1000, va := va, kind := 0, scope := 4, write := false, atIssue := true, bundle := 0, ins := none }

/-- `tables` with a leaf that holds no W, as an instruction page has, and one that a system task alone may use. -/
def codeTables (leaf : W64) : State := { tables with mem := tables.mem.hwWrite none 0x4000 (leBytes 8 leaf.toNat) }
def leaf2M (x : W64) : TlbEnt := { asid := 0, base := 0, size := 2097152, leaf := x }
def systemCode : State := run0.setCore { Core.fresh 0 with itlb := [leaf2M 0x200009] }

/-- A system task whose code stands in the host window. -/
def hostCode : State := { (systemTask.setCore { Core.fresh 0 with itlb := [leaf2M 0x4000000000003] }) with
  host := { State.reset.host with dmal := State.reset.host.dmal.set 0 0x200000 } }

theorem witness_FetchEvents : placedR.hasTask 0 = true ∧ (placedR.focus 0).t.run = .running ∧ (placedR.focus 0).coreFrozen = false ∧
    (placedR.focus 0).t.cast = none ∧ (placedR.focus 0).fetchBundle 0 = .ok placedHp placedSlots ∧
    run0.hasTask 7 = true ∧ run0.focus 7 = run0 ∧ run0.fetchBundle 0 = .stop (.iwalk 0) ∧ run0.ilook 0 = .miss ∧
    placedZero.fetchBundle 0 = .trap 0x10 ∧ placedZero.reachesIssue = true ∧ placedZero.landed.badFetch = none ∧
    (placedZero.withT fun t => { t with id := { t.id with haltReq := true, debug := true } }).reachesIssue = false ∧
    systemCode.ilook 0 = .system ∧ systemCode.reachesIssue = true := by decide +kernel

theorem witness_FetchEvents_fills : (frozen placedF (.fetch 0)).t.frz = some (.fetch 0) ∧
    (frozen placedF (.fetch 0)).ilook 0 = .ok 0 none ∧ placedF.t.id.resident = true ∧ placedF.t.run ≠ .ended ∧
    placedF.coreFrozen = false ∧ placedF.t.pc.toNat ≤ (0 : VAddr).toNat ∧ (511 : VAddr).toNat < placedF.t.pc.toNat + 512 ∧
    placedF.ilook 511 = .ok 511 none ∧ placedF.ros.copies = [] ∧ placedF.fetchGone 0 = false ∧ placedF.fetchGone 511 = false ∧
    (let s := frozen { hostCode with dev := { hostCode.dev with hostLost := true } } (.fetch 0)
    s.ilook 0 = .ok 0x4000000000000 none ∧ s.fetchGone 0 = true) := by decide +kernel

theorem witness_FetchEvents_walks : (frozen tables (.walk (walkReq 0))).hasTask 7 = true ∧ tables.plain ∧
    (frozen tables (.walk (walkReq 0x1FFFFF))).dwalk 0x1000 0x1FFFFF = .leaf (leaf2M 0x200803) ∧
    (leaf2M 0x200803).hits (asidOf 0x1000) 0x1FFFFF = true ∧
    (frozen tables (.walk (walkReq 0x200000))).dwalk 0x1000 0x200000 = .bad 1 3 0 ∧
    (frozen (codeTables 0x200003) (.iwalk 0)).iwalk 0 = .leaf (leaf2M 0x200003) ∧
    (frozen tables (.iwalk 0)).iwalk 0 = .bad 2 3 0x200803 := by decide +kernel

/-- An access with one translated piece, and the task that holds it alone. -/
def acc (op : AccOp) (write : Bool) (level : Level) (len : Nat) (pa : Nat) : Acc :=
  { id := 1, iss := 0, bundle := 0, ins := none, note := false, root := 0, op := op, write := write, level := level, scope := 0, acq := false, rel := false, isLd := !write
    isSt := write, loc := false, staged := false, flight := if write then none else some 4
    pieces := [{ key := 0, also := [], va := pa, len := len, trs := [(page (pa / 65536 * 65536) 1).tr pa], data := List.replicate (if write then len else 0) 9 }]
    got := [] }

def withAccs (s : State) (l : List Acc) : State := s.withT fun t => { t with acc := l }

/-- A load of the last bytes of a 64 KiB page and stores of scopes DEV and CORE, at the end of the stack. -/
theorem witness_MemoryEvents : mapped.hasTask 7 = true ∧ mapped.plain ∧ mapped.enginesStop = false ∧ mapped.coreFrozen = false ∧
    mapped.t.stage = Stage.off ∧ mapped.t.run = .running ∧ mapped.t.eks = [] ∧ mapped.t.cmds = [] ∧
    (∀ k : Fin 16, (mapped.t.blocks.get k).flag = 0) ∧
    (∀ a ∈ [acc (.ldS (.s 1)) false 4 8 0x7FFFFFFFF8, acc .stS true 4 8 0x7FFFFFFFF8, acc .stS true 0 8 0x7FFFFFFFF8],
      ∃ p tr, a.pieces = [p] ∧ p.trs = [tr] ∧ tr.e = false ∧ 0 < p.len ∧ p.va + p.len ≤ tr.base + tr.size ∧ region tr.pa = .device ∧
        a.staged = false ∧ a.note = false ∧ (a.write = true → p.data.length = p.len)) := by
  refine ⟨?_, ?_, ?_, ?_, ?_, ?_, ?_, ?_, ?_, ?_⟩
  iterate 9 decide +kernel
  intro a h
  simp only [List.mem_cons, List.not_mem_nil, or_false] at h
  rcases h with h | h | h <;> subst h <;> refine ⟨_, _, rfl, rfl, ?_⟩ <;> decide +kernel

theorem witness_MemoryEvents_reply : (withFlights (withAccs run0 [{ acc (.ldS (.s 1)) false 4 8 0 with pieces := [], got := [(0, [5])] }])
      [flight 4 (.s 1) 0 5 .wait]).t.flights = [flight 4 (.s 1) 0 5 .wait] ∧ (acc (.ldS (.s 1)) false 4 8 0).flight = some 4 ∧
    (watching true).t.watch.armed = true ∧ run0.t.watch.armed = false := by decide +kernel

/-- A CPFILL of 72 bytes to the end of a page, and its second line. -/
theorem witness_ElementsAndPropagation : (let s := withCmds mapped [cmd (.cpfill 0x1FFB8 72 0x0102030405060708)]
    s.hasTask 7 = true ∧ s.t.run = .running ∧ s.t.stage = Stage.off ∧ s.plain ∧ s.enginesStop = false ∧ s.t.acc = [] ∧ s.t.eks = [] ∧
      1 ∉ (cmd (.cpfill 0x1FFB8 72 0)).done ∧ 0x1FFB8 + 72 ≤ 2 ^ 57 ∧ (0x1FFB8 : Nat) % 8 = 0 ∧
      max 0x1FFB8 (0x1FFB8 / 64 * 64 + 64 * 1) = 0x1FFC0 ∧ min (0x1FFB8 + 72) (0x1FFB8 / 64 * 64 + 64 * 1 + 64) = 0x20000 ∧
      s.look 0x1FFC0 64 true none 0 = .ok ((page 0x10000 8).tr 0x1FFC0) ∧ ((page 0x10000 8).tr 0x1FFC0).e = false ∧
      region ((page 0x10000 8).tr 0x1FFC0).pa = .device) := by decide +kernel

def narrow (level : Level) : Wr :=
  { id := 1, task := 7, core := 0, level := level, pa := 0x7FFFFFFFFF, bytes := [9], t := 3, seq := 2, inner := [], rel := false, bulk := false
    cls := cST, va := some 0, key := none, asid := 0 }

theorem witness_ElementsAndPropagation_narrow : ({ Mem.reset with narrow := [narrow 3] } : Mem).wf = true ∧ (narrow 3).rel = false ∧
    (narrow 3).key = none ∧ (narrow 3).level = 3 ∧ (narrow 2).level < 3 ∧ ({ Mem.reset with narrow := [narrow 2] } : Mem).wf = true := by
  decide +kernel

/-- A ring of n slots at 0x10000, with its pointers and its bitmap. -/
def ring (op : EkOp) (pub rsv fre tak : W32) (bm : W64) (code n : Nat) : State :=
  let bytes := leBytes 4 pub.toNat ++ leBytes 4 rsv.toNat ++ leBytes 4 fre.toNat ++ leBytes 4 tak.toNat ++ leBytes 8 bm.toNat ++
    leBytes 8 (code * 65536 + (n - 1))
  { withEks mapped [ek 1 op] with mem := Mem.reset.hwWrite none 0x10000 bytes }
def ringTr : Tr := (page 0x10000 8).tr 0x10000

/-- The pointers near their wrap: a ring of 64 slots whose last is reserved, and one that is full. -/
theorem witness_RingSteps_reserve : (let s := ring (.qres 1 ringTr) 0xFFFFFFF0 0x0000002F 0xFFFFFFF0 0 0 4 64
    s.hasTask 7 = true ∧ s.t.run = .running ∧ s.coreFrozen = false ∧ s.plain ∧ ringTr.e = false ∧ region ringTr.pa = .device ∧
      ringTr.pa % 64 = 0 ∧ ringShape (s.mem.hwRead none ringTr.pa 64) = some (4, 64) ∧
      (s.mem.hwWord (ringTr.pa + 4) - s.mem.hwWord (ringTr.pa + 8)).toNat < 64 ∧
      (s.mem.hwWord (ringTr.pa + 4) - s.mem.hwWord ringTr.pa).toNat < 64) ∧
    (let s := ring (.qres 1 ringTr) 0xFFFFFFF0 0x00000030 0xFFFFFFF0 0 0 9 64
    ringShape (s.mem.hwRead none ringTr.pa 64) = some (9, 64) ∧
      ¬(s.mem.hwWord (ringTr.pa + 4) - s.mem.hwWord (ringTr.pa + 8)).toNat < 64) := by decide +kernel

/-- The oldest reserved slot, the last one, one beyond, and one published before. -/
theorem witness_RingSteps_publish : (let s := ring (.qpub 0xFFFFFFF0 ringTr) 0xFFFFFFF0 0x00000030 0xFFFFFFF0 0 0 4 64
    let pub := s.mem.hwWord ringTr.pa
    ringShape (s.mem.hwRead none ringTr.pa 64) = some (4, 64) ∧ ((0xFFFFFFF0 : W32) - pub).toNat = 0 ∧
      (s.mem.hwWord (ringTr.pa + 4) - pub).toNat = 64 ∧ s.mem.hwDword (ringTr.pa + 16) = 0 ∧ ((0x2F : W32) - pub).toNat = 63 ∧
      64 ≤ ((0x30 : W32) - pub).toNat ∧ (0 : W64).getLsbD 63 = false ∧ (0 : W64).getLsbD 0 = false) ∧
    (let s := ring (.qpub 0xFFFFFFF1 ringTr) 0xFFFFFFF0 0x00000030 0xFFFFFFF0 0 2 4 64
    (s.mem.hwDword (ringTr.pa + 16)).getLsbD ((0xFFFFFFF1 : W32) - s.mem.hwWord ringTr.pa).toNat = true) := by decide +kernel

theorem witness_RingSteps_takeFree : (let s := ring (.qtake 1 ringTr) 0 0 0 0xFFFFFFFF 0 4 64
    0 < (s.mem.hwWord ringTr.pa - s.mem.hwWord (ringTr.pa + 12)).toInt ∧
      ringShape (s.mem.hwRead none ringTr.pa 64) = some (4, 64)) ∧
    (let s := ring (.qtake 1 ringTr) 5 5 5 5 0 4 64
    ¬0 < (s.mem.hwWord ringTr.pa - s.mem.hwWord (ringTr.pa + 12)).toInt) ∧
    (let s := ring (.qfree ringTr) 0 0 0xFFFFFFFF 0 0 4 64
    0 < (s.mem.hwWord (ringTr.pa + 12) - s.mem.hwWord (ringTr.pa + 8)).toInt ∧
      ringShape (s.mem.hwRead none ringTr.pa 64) = some (4, 64)) ∧
    (let s := ring (.qfree ringTr) 0 0 5 5 0 4 64
    ¬0 < (s.mem.hwWord (ringTr.pa + 12) - s.mem.hwWord (ringTr.pa + 8)).toInt) := by decide +kernel

theorem witness_EngineEvents_entries : (let e := { tile 1 .fp32 64 64 with state := .filling, cmd := 3 }
    let s := stacked (withCmds run0 [{ cmd (.const 1 5) with latched := true }]) [e]
    s.hasTask 7 = true ∧ s.t.run = .running ∧ s.coreFrozen = false ∧ s.t.cmds = [{ cmd (.const 1 5) with latched := true }] ∧
      s.t.stk.entries = [e] ∧ e.level = 0 ∧ e.mapped = true ∧ e.readers = 0 ∧ e.fmt = .fp32 ∧ (cmd (.const 1 5)).got = []) ∧
    (let x := { tile 1 .fp32 2 1 with state := .draining, readers := 1, mapped := false }
    let y := { tile 2 .fp32 1 2 with state := .filling }
    let s := stacked (withCmds run0 [{ cmd (.ttrn 1 2) with reads := [1] }]) [x, y]
    s.t.stk.entries = [x, y] ∧ x.id ≠ y.id ∧ x.level = 0 ∧ x.bad = none ∧ x.fmt = .fp32 ∧ (∀ row ∈ x.data, row.length = 4 * x.cols) ∧ x.data.length = x.rows) := by
  decide +kernel

theorem witness_EngineEvents_residence : (let s := stacked run0 ((List.range 7).map fun i => tile i .fp32 1 1)
    s.sinkNext = some (tile 6 .fp32 1 1) ∧ 6 < s.benchUsed ∧ s.benchUsed < 8 ∧ s.suspendedFirst (tile 6 .fp32 1 1) = none ∧
      s.levelUsed 1 + (tile 6 .fp32 1 1).granules ≤ 512) ∧
    run0.sinkNext = none ∧ run0.riseNext ≠ some 7 ∧
    (let e := { tile 7 .fp32 1 1 with level := 2 }
    let s := stacked run0 (((List.range 5).map fun i => tile i .fp32 1 1) ++ [e])
    s.t.entry 7 = some e ∧ s.riseNext = some e.id ∧ e.level ≠ 3) := by decide +kernel

/-- A CPFILL of two lines and a block of one line with all their elements done, and the invalidations. -/
theorem witness_EngineEvents_commands : (let c := { cmd (.cpfill 0x1FFB8 72 0) with done := [0, 1] }
    (withCmds run0 [c]).t.cmds = [c] ∧ c.whole (withCmds run0 [c]).t = true ∧ c.fl = 0 ∧ c.done = [0, 1]) ∧
    (let c := { cmd (.ldblk 15 0x10000 1 false) with done := [0] }
    let s := (withCmds run0 [c]).withT fun t => { t with blocks := t.blocks.set 15 { t.blocks.get 15 with flag := 1, cmd := 3 } }
    s.t.cmds = [c] ∧ c.whole s.t = true ∧ (s.t.blocks.get 15).cmd = c.id ∧ (s.t.blocks.get 15).flag = 1) ∧
    (∀ op ∈ [EkOp.tlbi .page 0 0, .tlbi .asid 0 255, .tlbi .all 0 0, .flush 255, .icinv (2 ^ 57 - 1)],
      (withEks mapped [ek 1 op]).t.eks = [ek 1 op] ∧ (withEks mapped [ek 1 op]).t.acc = [] ∧ (withEks mapped [ek 1 op]).t.cmds = []) := by
  decide +kernel

/-- A task that left its core, with a stack region of one slot in a mapped page. -/
def away : State := (stacked mapped [tile 1 .fp32 64 64]).withT fun t =>
  { t with run := .suspended, stk := { t.stk with base := 0x10000, limit := 1 } }

theorem witness_SuspendedSpill : away.hasTask 7 = true ∧ away.t.run = .suspended ∧ away.coreFrozen = false ∧ away.plain ∧
    away.t.entry 1 = some (tile 1 .fp32 64 64) ∧ away.spillNext = some (tile 1 .fp32 64 64) ∧ away.t.stk.freeSlot = some 0 ∧
    away.lookRange (away.t.stk.slotVa 0) 16384 true none = .ok [((page 0x10000 8).tr 0x10000, 16384)] ∧
    (tile 1 .fp32 64 64).size = 16384 ∧ (tile 1 .fp32 64 64).void = false ∧ (∀ e, away.spillNext = some e → e.id ≠ 2) ∧
    (away.touchRange (away.t.stk.slotVa 0) 16384 away.t.dtroot).lookRange (away.t.stk.descVa 0) 64 true none =
      .ok [((page 0x10000 8).tr 0x14000, 64)] := by
  refine ⟨?_, ?_, ?_, ?_, ?_, ?_, ?_, ?_, ?_, ?_, ?_, ?_⟩
  iterate 10 decide +kernel
  · have h : away.spillNext = some (tile 1 .fp32 64 64) := by decide +kernel
    intro e he; rw [h] at he; cases he; decide
  · decide +kernel

/-- A fault of data, and a queue of fault records with so many records. -/
def faultQueue (s : State) (n : Nat) (reply : Nat) : State :=
  { s with dev := { s.dev with fqbase := s.dev.fqbase.set 0 0x8000 }
           mem := ((Mem.reset.hwWrite none 0x8000 (leBytes 4 n)).hwWrite none 0x8058 (leBytes 8 reply)) }

theorem witness_FaultService : (let s := faultQueue (frozen run0 (.fault (walkReq 5) 1 4 0 none)) 255 0
    s.hasTask 7 = true ∧ s.t.frz = some (.fault (walkReq 5) 1 4 0 none) ∧ (∀ x ∈ s.tasks, posted x = false) ∧
      (s.dev.fqbase.get (Fin.ofNat 4 (s.t.id.core / 96))).toNat / 4096 % 2 ^ 40 * 4096 = 0x8000 ∧
      (s.mem.hwWord 0x8000 - s.mem.hwWord 0x8004).toNat < 256 ∧ s.mem.wf = true ∧ (walkReq 5).kind < 16 ∧ (walkReq 5).scope < 16) ∧
    (let s := faultQueue (frozen run0 (.fault (walkReq 5) 1 4 0 none)) 256 0
    256 ≤ (s.mem.hwWord 0x8000 - s.mem.hwWord 0x8004).toNat) ∧
    (∀ k ∈ [0, 1, 2], (((faultQueue run0 0 k).mem.hwDword (0x8040 + 24)).toNat % 4 = k)) ∧ (walkReq 5).atIssue = true ∧
    ({ walkReq 5 with atIssue := false } : MemReq).atIssue = false := by decide +kernel

/-- A task with no EK command in flight has sent no token. -/
theorem unsent_nil {t : Task} (hs : t.told = false) (h : t.eks = []) : t.unsent := ⟨hs, by intro e he; rw [h] at he; cases he⟩

/-- A node that runs on task 7, with a record that lets it be killed so often. -/
def nodeOf (st : NState) (kills : Nat) : Node :=
  { key := 5, id := 9, part := 0, asid := 0, root := 0, home := none, launch := 0, addr := 0, drec := Vector.replicate 14 0, state := st, tok := 0, cause := 0, depth := 0
    reason := 0, taddr := 0, kills := kills, mbox := [], comms := [], frame := 0, system := false, spawned := false, startT := 0, late := 0
    halted := false }

def withNodes (s : State) (l : List Node) (kmax : Nat) : State :=
  { s with nodes := l, parts := s.parts.set 0 { s.parts.get 0 with inUse := true, kmax := kmax, flen := 10, saven := 2 } }

theorem witness_FaultService_kills : (let s := withNodes (frozen run0 (.fetch 0)) [nodeOf .running 2] 2
    s.t.run = .running ∧ s.t.frz.isSome = true ∧ s.node s.t.id.node = some (nodeOf .running 2) ∧
      (nodeOf .running 2).state = .running ∧ s.t.stage = Stage.off ∧ (∀ y ∈ s.tasks, y.eks = []) ∧ (s.parts.get 0).kmax < 2 + 1 ∧ ¬(s.parts.get 0).kmax < 1 + 1) ∧
    (let s := withNodes (frozen run0 .host) [nodeOf .running 0] 2
    s.t.frz = some .host ∧ s.awaitsHost = false) := by decide +kernel

theorem witness_CheckEvents : run0.taskOf 7 = some run0.t ∧
    (let s := run0.withT fun t => { t with past := [16, 8, 0] }
    s.taskOf 7 = some s.t ∧ s.t.past = [16, 8, 0] ∧ s.t.run = .running ∧ s.t.cast = none ∧ (s.parts.get s.t.id.part).split = false) ∧
    ({ run0 with parts := run0.parts.set 0 { run0.parts.get 0 with split := true } } : State).part.split = true ∧
    State.reset.ros.copies = [] ∧
    (∀ x ∈ [ResOp.add 64 (2 ^ 64 - 1) (2 ^ 64 - 1) true, .sub 64 0 1, .mul 24 0xFFFFFF 0xFFFFFF, .shl 64 3 64, .shr 64 (2 ^ 64 - 1) 64,
      .round 24 0xFFFFFF 1, .align 24 5 24, .chunk 32 [(true, 7, 31), (false, 9, 0)], .accum 32 0 1 0 true true 32 1],
      x.bounded = true ∧ x.predict = x.result % 7) ∧
    (let s (c : List CopyErr) : State := { State.reset with ros := { State.reset.ros with copies := c } }
    let e (t : CTable) (r : Option Bool) : CopyErr := { table := t, key := 5, copy := 0, reads := r }
    (s [e .poison none]).copyReads .poison 5 = [false] ∧ (s [e .remap (some true)]).copyReads .remap 5 = [true, false, false] ∧
      (s [e .poison (some true)]).copyReads .poison 5 = [true, false] ∧ (s [e .poison (some true)]).dev.cLost = false ∧
      ∀ t ∈ (s []).tasks, t.told = false) ∧
    (let s := withNodes (run0.withT fun t => { t with told := true }) [nodeOf .running 0] 0
    ∃ n ∈ s.nodes, ∃ t ∈ s.tasks, t.id.node = n.key ∧ t.told = true) ∧
    ((withNodes State.reset [nodeOf .ready 0] 0).nodes.map (·.key)).Nodup ∧
    State.reset.dev.patcfg.toNat / 2 ^ 8 % 2 ^ 8 * 10 = 400 ∧ 400 < 2 ^ 16 ∧ 400 ≤ 400 ∧ 400 < 401 ∧ ¬105 < 105 ∧ 105 < 106 ∧ 115 ≤ 115 ∧
    115 < 116 := by decide +kernel

/-- Requests of a device that a window of this device names: on the last bytes of the stack, and beyond. -/
def req (dev : Fin 128) (ofs : BitVec 39) (op : FabricOp) (data : List Byte) : FabricReq :=
  { dev := dev, ofs := ofs, op := op, data := data, asid := 0, e := false }
def windowed (flags : BitVec 2) : State := { State.reset with dev := { State.reset.dev with fwent := State.reset.dev.fwent.set 5 flags } }

theorem witness_ResetAndHost : State.reset.mem.wf = true ∧ State.reset.host.linkUp = true ∧
    (5 : Fin 64) ≠ 0 ∧ State.reset.boundTo 5 = none ∧
    (let s := { State.reset with dev := { State.reset.dev with pfbind := State.reset.dev.pfbind.set 3 0x800000000000003F },
                                 parts := State.reset.parts.set 3 { State.reset.parts.get 3 with inUse := true } }
    s.boundTo 63 = some 3 ∧ (s.parts.get 3).inUse = true) ∧ State.reset.ros.links.getLsbD 15 = true ∧
    ({ State.reset.ros with resends := State.reset.ros.resends.set 15 1 } : Roskan).resends.get 15 ≠ 0 ∧
    ({ State.reset.ros with links := 0x7FFF } : Roskan).links.getLsbD 15 = false ∧
    (windowed 2).fabricRefused (req 5 (0#39 - 2#39) .read [0, 0]) = false ∧ (windowed 2).fabricRefused (req 5 0 .write [0]) = true ∧
    (windowed 3).fabricRefused (req 5 (0#39 - 2#39) .add [1, 2]) = false ∧
    (windowed 3).fabricRefused (req 5 (0#39 - 2#39) .write [1, 2, 3]) = true ∧ (5 : Fin 128).val ≠ State.reset.dev.devid.toNat ∧
    (State.reset.dev.fwent.get 5).getLsbD 1 = false ∧
    (let m (d : Option (Fin 128)) : Member := { rank := 0, task := 0, ek := 0, dev := d, scope := 4, shape := { kind := 0, rop := .add, et := .fp32, n := 4 }, retries := 0, got := none, ended := false }
    let c (d : Option (Fin 128)) : Coll := { key := 1, comm := 1, size := 2, num := 0, started := false, status := 0, members := [m none, m d], order := [] }
    (c none).size ≤ (c none).members.length ∧ (∀ x ∈ (c none).members, ∀ v, x.dev = some v → v.val ≠ 9) ∧
      ∃ x ∈ (c (some 9)).members, ∃ v, x.dev = some v ∧ v.val = 9) := by
  refine ⟨?_, ?_, ?_, ?_, ?_, ?_, ?_, ?_, ?_, ?_, ?_, ?_, ?_, ?_, ?_, ?_, ?_⟩
  iterate 14 decide +kernel
  · decide
  · intro x hx v hv
    simp only [List.mem_cons, List.not_mem_nil, or_false] at hx
    rcases hx with rfl | rfl <;> cases hv
  · exact ⟨_, List.mem_cons_of_mem _ (List.mem_singleton.mpr rfl), 9, rfl, rfl⟩

/-- An instance of one member that waits, and of two of which one has come. -/
def member (got : Option (List Byte)) : Member :=
  { rank := 0, task := 7, ek := 1, dev := none, scope := 4, shape := { kind := 3, rop := .add, et := .fp32, n := 4 }, retries := 4
    got := got, ended := false }
def instance1 (started : Bool) (status size : Nat) (m : Member) : Coll :=
  { key := 1, comm := 1, size := size, num := 0, started := started, status := status, members := [m], order := [] }
def collective (op : EkOp) (x : Coll) : State := { withEks mapped [ek 1 op] with colls := [x] }
def reduceOp : EkOp := .coll 3 .add .fp32 1 4 0x1FFFC 0x10000 1 0 1

theorem witness_CollectiveEvents : (let s := collective reduceOp (instance1 false 0 1 (member none))
    s.colls = [instance1 false 0 1 (member none)] ∧ ([member none].map (·.rank)).Nodup ∧ 1 ≤ [member none].length ∧
      (∀ y ∈ [member none], y.dev = none ∧ y.scope = 4) ∧ ¬([member none, member none].map (·.rank)).Nodup ∧
      [member none].length < (instance1 false 0 2 (member none)).size ∧
      (∀ y ∈ [member none], ∀ z ∈ [member none], y.shape = z.shape) ∧ s.hasTask 7 = true ∧
      (let o := { s with others := [{ Task.fresh with id := { TaskId.none with uid := 8 } }] }
      o.hasTask 7 = true ∧ o.hasTask 8 = true)) ∧
    State.reset.dev.kretry.toNat % 16 ≤ (member none).retries ∧ ({ member none with retries := 3 } : Member).retries < 4 := by
  decide +kernel

theorem witness_CollectiveEvents_steps : (let s := collective reduceOp (instance1 true 0 1 (member none))
    s.hasTask 7 = true ∧ s.t.eks = [ek 1 reduceOp] ∧ s.t.run = .running ∧ s.coreFrozen = false ∧ s.t.acc = [] ∧ s.t.stage = Stage.off ∧
      s.plain ∧ (∀ k : Fin 16, (s.t.blocks.get k).flag = 0) ∧
      s.look 0x1FFFC 4 false none 0 = .ok ((page 0x10000 8).tr 0x1FFFC) ∧ s.look 0x10000 4 true none 0 = .ok ((page 0x10000 8).tr 0x10000) ∧
      0x1FFFC % 65536 + 4 ≤ 65536 ∧ 0x10000 + 4 ≤ 0x1FFFC ∧ region ((page 0x10000 8).tr 0x1FFFC).pa = .device ∧
      (member (some [1, 2, 3, 4])).got = some [1, 2, 3, 4] ∧ (ek 1 reduceOp).level = 4) ∧
    (instance1 true 2 1 (member none)).status = 2 ∧ (instance1 true 4 1 (member none)).status = 4 := by decide +kernel

/-- An instance of two members, the second of another task, whose bytes have been taken. -/
def two (k : Fin 4) (et : EType) (n : Nat) (b c : List Byte) : State :=
  let sh : CollShape := { kind := k, rop := .add, et := et, n := n }
  let m := { member (some b) with shape := sh }
  collective (.coll k .add et 1 n 0x1FFFC 0x10000 1 0 2)
    { instance1 true 0 2 m with members := [m, { m with rank := 1, task := 8, got := some c }], order := [0, 1] }

theorem witness_CollectiveEvents_results : (let s := two 2 .int32 4 [1, 2, 3, 4, 5, 6, 7, 8] [255, 255, 255, 255, 0, 0, 0, 0]
    s.hasTask 7 = true ∧ s.t.run = .running ∧ s.coreFrozen = false ∧ s.t.acc = [] ∧ s.t.stage = Stage.off ∧ s.plain ∧
      (∀ k : Fin 16, (s.t.blocks.get k).flag = 0) ∧ (ek 1 reduceOp).level = 4 ∧ 4 % EType.bytes .int32 = 0 ∧
      0x10000 + 4 ≤ 0x1FFFC ∧ s.look 0x10000 4 true none 0 = .ok ((page 0x10000 8).tr 0x10000) ∧
      s.look 0x10000 8 true none 0 = .ok ((page 0x10000 8).tr 0x10000) ∧ region ((page 0x10000 8).tr 0x10000).pa = .device ∧
      ((page 0x10000 8).tr 0x10000).e = false) ∧ (254 : Nat) < 2 ^ (8 * EType.bytes .int8) := by decide +kernel

/-- A launch that runs, and a node of it that waits for two inputs. -/
def launch1 (checked : Bool) (status : Nat) : Launch :=
  { key := 0, addr := 0x10000, part := 0, asid := 0, root := 0, system := false, checked := checked, status := status, count := 1, ended := 0 }
def waiting (tok : Byte) (mbox : Nat) : Node := { nodeOf .ready 0 with
  key := 6, id := 10, tok := tok, drec := (nodeOf .ready 0).drec.set 4 0x20000000, mbox := List.replicate mbox { sender := 0, bytes := [], t := 0 } }
def launched (s : State) (n : Node) : State := { withNodes s [nodeOf .running 0, n] 0 with launches := [launch1 true 1] }

theorem witness_TaskEvents_messages : (let s := launched (withEks run0 [{ ek 1 (.ksend 10 0 1) with done := [0], got := [(0, [5])] }]) (waiting 0 15)
    s.hasTask 7 = true ∧ s.t.acc = [] ∧ s.t.cmds = [] ∧ s.t.stage = Stage.off ∧ s.t.mrec = Recording.off ∧ s.coreFrozen = false ∧
      (s.running s.t.id.part).find? (fun n => n.id == 10 && !n.state.final) = some (waiting 0 15) ∧ (waiting 0 15).mbox.length < 16 ∧
      16 ≤ (waiting 0 16).mbox.length ∧ (s.running s.t.id.part).find? (fun n => n.id == 11 && !n.state.final) = none) := by decide +kernel

theorem witness_TaskEvents_tokens : (let s := (launched (withEks run0 [ek 1 (.token 10 1)]) (waiting 1 0)).setRun .doneWait
    s.t.run = .doneWait ∧ s.t.eks = [ek 1 (.token 10 1)] ∧ (s.running s.t.id.part).find? (fun n => n.id == 10) = some (waiting 1 0) ∧
      (waiting 1 0).key ≠ s.t.id.node ∧ (waiting 1 0).state = .ready ∧ (waiting 1 0).tok.getLsbD 1 = false ∧ (waiting 2 0).tok.getLsbD 1 = true ∧ 1 < (waiting 1 0).inputs ∧ s.mustWait (waiting 1 0) s.t.id.core = false ∧
      (∀ i, i < (waiting 1 0).inputs → ((waiting 1 0).tok ||| (1 : Byte) <<< 1).getLsbD i = true) ∧
      (∃ i, i < (waiting 0 0).inputs ∧ ((waiting 0 0).tok ||| (1 : Byte) <<< 1).getLsbD i = false)) := by
  refine ⟨?_, ?_, ?_, ?_, ?_, ?_, ?_, ?_, ?_, ?_, 0, ?_⟩
  iterate 9 decide +kernel
  · have h : (waiting 1 0).inputs = 2 := by decide +kernel
    rw [h]; decide +kernel
  · decide +kernel

theorem witness_TaskEvents_ends : (run0.setRun .doneWait).t.run = .doneWait ∧
    ((withEks run0 [{ ek 1 (.token 10 1) with deferred := true }]).setRun .doneWait).t.eks = [{ ek 1 (.token 10 1) with deferred := true }] ∧
    (ek 1 (.spawn 1 0x10000)).status = none ∧ run0.ros.copies = [] ∧ run0.mem.poison = [] ∧ run0.dev.cLost = false ∧ run0.tenantRead 0 0x10000 112 = none ∧
    (let s := { withNodes tables [nodeOf .running 0] 0 with parts := tables.parts.set 0 { tables.parts.get 0 with dtroot := 0x1000 } }
    s.tenantRead 0 0 112 = some (List.replicate 112 0) ∧ recBad (s.parts.get 0) (recOf (List.replicate 112 0)) = true) ∧
    (let g (l : List Nat) : Group := { id := 3, members := l, round := l, arrived := [], next := [] }
    let s (l : List Nat) : State := (withEks { run0 with parts := run0.parts.set 0 { run0.parts.get 0 with groups := [g l] } } [ek 1 .gbar]).withT
      fun t => { t with id := { t.id with group := some 3 } }
    (s [7]).t.id.group = some (g [7]).id ∧ ((s [7]).parts.get 0).groups = [g [7]] ∧ ((s [7, 8]).parts.get 0).groups = [g [7, 8]] ∧
      (8 : Nat) ≠ 7) := by decide +kernel

/-- A launch of one node without inputs in memory that the tenant's tables map. -/
def launchable (count : Nat) : State :=
  { withNodes tables [] 0 with
    launches := [launch1 false 0]
    parts := tables.parts.set 0 { tables.parts.get 0 with inUse := true, clusters := 1, dtroot := 0x1000 }
    mem := ((tables.mem.hwWrite none 0x4000 (leBytes 8 0x200807)).hwWrite none 0x210000 (leBytes 8 0x10080 ++ leBytes 8 (count + 2 ^ 47))).hwWrite none 0x2100A0 (leBytes 8 0x100100000) }

theorem witness_LaunchAndFrame : (let s := launchable 1
    s.launches = [launch1 false 0] ∧ (launch1 false 0).checked = false ∧ s.dev.cLost = false ∧ s.ros.copies = [] ∧ (s.parts.get 0).inUse = true ∧
      (s.tenantTr 0 0x10018 8 true).isSome = true ∧ (s.launchStatus (launch1 false 0)).1 = 1) ∧
    ((launchable 0).launchStatus (launch1 false 0)).1 ≠ 1 ∧ (State.reset.parts.get 0).inUse = false ∧
    State.reset.tenantRead 0 0x10000 64 = none ∧
    (let v : W64 := 0x1FFFFFFFFFFFF80
    v.toNat < 2 ^ 57 ∧ v.toNat / 2 ^ 4 % 2 ^ 3 = 0 ∧ ((launchable 1).parts.get 0).inUse = true) ∧ ¬(0x10 : W64).toNat / 2 ^ 4 % 2 ^ 3 = 0 ∧
    (let q : Part := { Part.off with inUse := true, flen := 10, tick := 9 }
    let n := { nodeOf .fired 0 with drec := (nodeOf .fired 0).drec.set 3 0xC000000000090009 }
    q.tick < q.flen ∧ q.stoppedBy n = true ∧ q.stoppedBy { n with frame := 1 } = false ∧
      ({ q with tick := 10 } : Part).flen ≤ ({ q with tick := 10 } : Part).tick) := by decide +kernel

/-- Casts: at their end, at an entry that names no kind, and at a TMARK. -/
def casting (l : List MouldEntry) (halt : Bool) : State := run0.withT fun t =>
  { t with cast := some { left := l, args := Vector.replicate 6 0, maddr := 0 }, id := { t.id with haltReq := halt, debug := halt } }
def markEntry : MouldEntry := { kind := 2, interval := 1, syl := BitVec.ofNat 32 (((encode (.tmark { g := 0, k := 7 })).map fun x => x.2.headD 0).getD 0), pairs := [] }

theorem witness_CastGroups : (let s := casting [] true
    s.hasTask 7 = true ∧ s.t.run = .running ∧ s.coreFrozen = false ∧ s.t.fences = [] ∧ s.t.id.haltReq = true ∧ s.t.id.debug = true ∧
      s.part.stall = false) ∧ (casting [] false).t.id.haltReq = false ∧
    ({ markEntry with kind := 0 } : MouldEntry).decode = none ∧
    (let s := casting [markEntry] false
    let x : Syl := { kind := .et, ins := .tmark { g := 0, k := 7 }, facets := [] }
    markEntry.decode = some x ∧ bundleFault s.t (if Kind.stacked x.kind then [x.ins] else []) s.t.stk.map.length = none ∧
      (let s' := s.withT fun t => { t with latch := { t.latch with facets := x.facets, ins := some x.ins } }
      isNext (castStep x.ins s') = true ∧ (Out.get (castStep x.ins s') s).stopRank = 0)) := by decide +kernel

/-- Partition 0 of cluster 0 with a node that waits in a deque. -/
def fired (d4 : W64) : Node := { nodeOf .fired 0 with drec := (nodeOf .fired 0).drec.set 4 d4 }
def dispatching (deque : List Nat) (others : List Task) (cs : List Core) : State :=
  { withNodes State.reset [fired 0x900100000] 0 with
    others := others, cores := cs ++ [{ Core.fresh 0 with deque := deque }]
    parts := State.reset.parts.set 0 { State.reset.parts.get 0 with inUse := true, clusters := 1, saven := 1 } }

theorem witness_Scheduling_dispatch : (let s := dispatching [5] [] []
    s.partOf 0 = some 0 ∧ s.placing 0 = true ∧ s.retired 0 = false ∧ s.idle 0 false = true ∧ s.timetable 0 0 false = [] ∧
      (s.core 0).deque = [5] ∧ s.takes 0 0 5 = true ∧ s.node 5 = some (fired 0x900100000) ∧ s.suspendedOf 5 = none ∧ s.ros.copies = [] ∧ s.mem.poison = [] ∧ (∀ m ∈ s.nodes, m.key ≠ 5 → m.state ≠ .fired) ∧
      ((s.rereadRec (fired 0x900100000)).get 4).getLsbD 25 = false) ∧
    (let x := { run0.t with run := .suspended, id := { run0.t.id with resident := false } }
    let s := dispatching [5] [x] []
    s.takes 0 0 5 = true ∧ s.idle 0 false = true ∧ s.suspendedOf 5 = some x ∧ x.movable 0 = true ∧ x.movable 383 = true ∧
      (∀ b : Fin 16, (x.blocks.get b).flag = 0) ∧ x.id.haltReq = false ∧ (s.tasks.map (·.id.uid)).Nodup) := by decide +kernel

/-- Core 0 of a partition of 8 cores, which probes core 2, whose deque holds three references. -/
theorem witness_Scheduling_steal : (let s := dispatching [] [] [{ Core.fresh 2 with deque := [5, 5, 5] }]
    let o := (s.parts.get 0).others 0
    s.partOf 0 = some 0 ∧ s.placing 0 = true ∧ s.retired 0 = false ∧ s.idle 0 false = true ∧ s.timetable 0 0 false = [] ∧
      (s.core 0).deque = [] ∧ (s.core 0).gen = 1 ∧ o = [1, 2, 3, 4, 5, 6, 7] ∧ (s.core 2).deque = [5, 5, 5] ∧
      (∀ k ∈ (s.core (o.getD (270369 % o.length) 0)).deque, s.takes 0 0 k = true ∧
        ((s.node k).map fun n => n.place) = some 0)) := by decide +kernel

def preempted (n : Nat) : State := { withNodes run0 [nodeOf .running 0] 0 with
  t := { run0.t with id := { run0.t.id with preempt := true } }
  parts := run0.parts.set 0 { run0.parts.get 0 with inUse := true, saven := n }
  pmap := [{ asid := 0, addr := 0, smask := 2, live := 0, pmask := 0, fac := Vector.replicate 8 (0, 0, 0) }] }

theorem witness_Scheduling_preempt : (let s := preempted 1
    s.hasTask 7 = true ∧ s.coreFrozen = false ∧ s.t.cast = none ∧ s.t.run = .running ∧ s.t.id.preempt = true ∧ s.listed = s.pmap.head? ∧
      s.mustStop = true ∧ s.t.settled = true ∧ s.t.deadReady 0 = true ∧ s.slotFor = some 0 ∧ s.t.mrec = Recording.off ∧
      s.node s.t.id.node = some (nodeOf .running 0) ∧ (nodeOf .running 0).timetabled = false) ∧
    run0.listed = none ∧ (run0.setRun (.parked .watch true)).t.run = .parked .watch true ∧ run0.t.watch.fired = false ∧
    (watching true).t.watch.fired = true ∧ run0.t.cnt.kc ≤ 0 ∧ run0.nodeParked = false ∧
    (let s (b : Bool) := (withNodes (watching true) [nodeOf .parked 0] 0).setRun (.parked .watch b)
    (s true).nodeParked = true ∧ (s true).parkOver = true ∧ (s false).parkOver = true ∧ (s true).node 5 = some (nodeOf .parked 0) ∧
      (s true).t.id.node = 5 ∧ (s true).t.id.haltReq = false ∧ (run0.setRun (.parked .watch true)).parkOver = false) ∧
    (let t := { nodeOf .fired 0 with key := 8, drec := (nodeOf .fired 0).drec.set 3 0x9000000000000000 }
    let s := { withNodes run0 [nodeOf .running 0, t] 0 with parts := run0.parts.set 0 { run0.parts.get 0 with inUse := true, clusters := 1 } }
    s.demanded 7 = true) ∧ (∀ n ∈ run0.nodes, run0.eligible 0 n = false) := by decide +kernel

theorem witness_Scheduling_slots : (State.reset.parts.get 0).op = .none ∧
    (let s := { preempted 0 with parts := run0.parts.set 0 { run0.parts.get 0 with inUse := true, op := .releasing } }
    (s.parts.get 0).op = .releasing ∧ (s.parts.get 0).saven ≤ (s.slotsHeld 0 (s.parts.get 0).asid).length ∧
      (s.tasks.filter fun y => y.id.part == 0 && y.id.resident && y.live && y.id.preempt) = [s.t] ∧
      s.node s.t.id.node = some (nodeOf .running 0) ∧ (∀ y ∈ s.tasks, y.stage = Stage.off ∧ y.told = false)) := by decide +kernel

/-- Partition 15 with an apply asked for, and its record in the partition table. -/
def applying (d0 : W64) (op : PartOp) : State := { State.reset with
  parts := State.reset.parts.set 15 { State.reset.parts.get 15 with op := op }
  dev := { State.reset.dev with pctl := 15, pttbase := 0x1000 }
  mem := Mem.reset.hwWrite none 0x13C0 (leBytes 8 d0.toNat) }

theorem witness_SystemEvents : (State.reset.parts.get 15).op ≠ .apply ∧
    (let s := applying 0x7FFFFFFFFFFFFFFF .apply
    (s.parts.get 15).op = .apply ∧ (s.mem.hwDword (s.dev.pttbase.toNat / 2 ^ 12 % 2 ^ 40 * 4096 + 64 * 15)).toNat < 2 ^ 63 ∧
      s.dev.pctl.toNat % 16 = 15) ∧
    (let s := applying 0x8000800000000000 .apply
    s.applyRefused 15 (fun i => (s.mem.hwDword (0x1000 + 64 * 15 + 8 * i)).toNat) = false ∧ (s.parts.get 15).inUse = false) ∧
    ((applying 0 .release).parts.get 15).op = .release ∧
    (let s := applying 0 .releasing
    (s.parts.get 15).op = .releasing ∧ (∀ t ∈ s.tasks, t.id.part = 15 → t.id.resident = true → t.run = .ended)) := by decide +kernel

theorem witness_SystemEvents_debug : (let n := { nodeOf .running 0 with drec := (nodeOf .running 0).drec.set 4 0x1000000 }
    let s := withNodes (run0.setRun .halted) [n] 0
    (∃ t ∈ s.tasks, ∃ n ∈ s.nodes, n.key = t.id.node ∧ n.id = 9 ∧ n.dbg = true ∧ n.state = .running ∧ t.run = .halted) ∧
      (s.nodes.map (·.key)).Nodup ∧ (∀ n ∈ s.nodes, n.id = 9 → ∀ t ∈ s.tasks, t.id.node = n.key → t.told = false) ∧
      (let w := s.withT fun t => { t with told := true }
      ∃ n ∈ w.nodes, ∃ t ∈ w.tasks, t.id.node = n.key ∧ t.told = true)) ∧ run0.t.cast = none ∧ run0.t.mrec.state = .off ∧
    (casting [] false).t.cast ≠ none ∧ (run0.withT fun t => { t with mrec := { t.mrec with state := .recording } }).t.mrec.state ≠ .off ∧
    run0.t.id.helper = false ∧ (0x8000000000000000 : W64).getLsbD 62 = false ∧
    (0x20 : W64).getLsbD 5 = true ∧ (0xFFFFFFFF : W64).toNat < 2 ^ 32 ∧ State.reset.ros.recovery = false ∧ (255 : Byte) ∉ State.reset.ros.keys ∧
    (255 : Byte) ∈ ({ State.reset.ros with keys := [255] } : Roskan).keys ∧ (255 : Byte) ∉ State.reset.ros.keyDying ∧
    (3 : Nat) = ({ State.reset.ros with bootStage := 2 } : Roskan).bootStage + 1 ∧ (3 : Nat) < 4 ∧ State.reset.dev.lock = false := by
  decide +kernel

/-! Tests: one step each, with results from the manual's worked examples and tables. -/

/-- The values of the writes that an instruction issues. -/
def writes (i : Instr) (s : State) : List FVal :=
  match exec i s with
  | .next r => r.t.flights.map (·.val)
  | .fault _ | .refused _ => []

/-- Worked encodings of "Bundles and the assembly language": two ADDs, from the header parcel and the slot parcel. -/
theorem test_bundle_twoAdds : (decodeBundle false 0x12900000000021CC [0x001201E00011C010]).map (fun b => (b.hdr.ports, b.syls)) =
    some (#v[0x4C, 0x43, 0, 0], [
      { kind := .sa, ins := .add { g := 0, ix := none, d := .s 7, a := .port 0, b := .port 1 }, facets := [] },
      { kind := .sb, ins := .add { g := 0, ix := none, d := .s 8, a := .port 0, b := .imm 14 }, facets := [] }]) := by decide +kernel

/-- R154: the corners of division. -/
theorem test_div_byZero : writes (.div { g := 0, ix := none, d := .s 1, a := .port 0, b := .zero }) (ports run0 7 0) = [.w (BitVec.allOnes 64)] ∧
    writes (.remu { g := 0, ix := none, d := .s 1, a := .port 0, b := .zero }) (ports run0 7 0) = [.w 7] := by decide +kernel

theorem test_div_overflow : writes (.div { g := 0, ix := none, d := .s 1, a := .port 0, b := .imm 15 }) (ports run0 0x8000000000000000 0) =
      [.w 0x8000000000000000] ∧
    writes (.rem { g := 0, ix := none, d := .s 1, a := .port 0, b := .imm 15 }) (ports run0 0x8000000000000000 0) = [.w 0] := by decide +kernel

/-- R155: CLZ and CTZ of 0 give 64. -/
theorem test_clz_zero : writes (.clz { g := 0, ix := none, d := .s 1, a := .zero }) run0 = [.w 64] ∧
    writes (.ctz { g := 0, ix := none, d := .s 1, a := .zero }) run0 = [.w 64] := by decide +kernel

/-- R156: the constant 0x1234_5678_9ABC_DEF0 in two bundles. -/
theorem test_movi_pair : writes (.movi { g := 0, ix := some 0x9ABCDEF0, d := .s 5, b := .ext }) run0 = [.w 0x9ABCDEF0] ∧
    writes (.moviH { g := 0, ix := some 0x12345678, d := .s 5, a := .port 0, b := .ext }) (ports run0 0x9ABCDEF0 0) = [.w 0x123456789ABCDEF0] := by
  decide +kernel

/-- R159: a field that reaches above bit 63, extended with its sign and replaced. -/
theorem test_bfx_top : writes (.bfxS { g := 0, d := .s 1, a := .port 0, pos := 60, w := 4 }) (ports run0 0x8000000000000000 0) =
      [.w 0xFFFFFFFFFFFFFFF8] ∧
    writes (.bfi { g := 0, d := .s 1, a := .zero, b := .port 0, pos := 60, w := 64 }) (ports run0 0x1F 0) = [.w 0xF000000000000000] := by decide +kernel

/-- R158: widths 0 and above 64. -/
theorem test_ext_widths : writes (.extS { g := 0, ix := none, d := .s 1, a := .port 0, b := .zero }) (ports run0 5 0) = [.w 0] ∧
    writes (.extZ { g := 0, ix := none, d := .s 1, a := .port 0, b := .imm 14 }) (ports run0 5 0) = [.w 5] := by decide +kernel

/-- R160, R23: CMP writes a predicate pair; −1 is the least signed and the largest unsigned of the two. -/
theorem test_cmp_signed : writes (.cmp { g := 0, ix := none, pe := 1, a := .imm 15, b := .zero, c := .lt }) run0 = [.pair 1 1] ∧
    writes (.cmp { g := 0, ix := none, pe := 1, a := .imm 15, b := .zero, c := .ltu }) run0 = [.pair 1 0] := by decide +kernel

/-- The example of R191: v1 of facet 0 holds −2.0, 3.0, −0.0 and 5.0, then +0. -/
def example191 : State := (onFacets run0 [0]).withT fun t => t.updFacet 0 fun f => { f with
  v := ((f.v.set 3 #v[0xBF800000, 0x40800000, 0x3F800000, 0x40C00000, 0x3F800000, 0x3F800000, 0x3F800000, 0x3F800000, 0x3F800000, 0x3F800000, 0x3F800000, 0x3F800000, 0x3F800000, 0x3F800000, 0x3F800000, 0x3F800000]).set 1 #v[0xC0000000, 0x40400000, 0x80000000, 0x40A00000, 0, 0, 0, 0, 0, 0, 0, 0, 0, 0, 0, 0]).set 2
    #v[0xBF000000, 0x3F400000, 0x80000000, 0x3FA00000, 0, 0, 0, 0, 0, 0, 0, 0, 0, 0, 0, 0]
  q := f.q.set 2 1 }

theorem test_vcmp_example : writes (.vcmp { q := 0, ix := none, qe := 1, a := .r (.v 1), b := .imm 0, c := .lt }) example191 =
    [.pair 0xFFFF 1] := by decide +kernel

theorem test_vmul_example : writes (.vmul { q := 0, ix := some 0x3E800000, d := .v 2, a := .r (.v 1), b := .ext }) example191 =
    [.lanes 0xFFFF #v[0xBF000000, 0x3F400000, 0x80000000, 0x3FA00000, 0, 0, 0, 0, 0, 0, 0, 0, 0, 0, 0, 0]] := by decide +kernel

theorem test_vadd_example : writes (.vadd { q := 0, ix := none, d := .v 3, a := .r (.v 1), b := .imm 1 }) example191 =
    [.lanes 0xFFFF #v[0xBF800000, 0x40800000, 0x3F800000, 0x40C00000, 0x3F800000, 0x3F800000, 0x3F800000, 0x3F800000, 0x3F800000, 0x3F800000, 0x3F800000, 0x3F800000, 0x3F800000, 0x3F800000, 0x3F800000, 0x3F800000]] := by decide +kernel

theorem test_vsel_example : writes (.vsel { q := 0, ix := none, d := .v 4, a := .r (.v 2), b := .r (.v 3), n := 2 }) example191 =
    [.lanes 0xFFFF #v[0xBF000000, 0x40800000, 0x3F800000, 0x40C00000, 0x3F800000, 0x3F800000, 0x3F800000, 0x3F800000, 0x3F800000, 0x3F800000, 0x3F800000, 0x3F800000, 0x3F800000, 0x3F800000, 0x3F800000, 0x3F800000]] := by decide +kernel

/-- The patterns of −2.75, 448 and the smallest subnormals in "Number formats". -/
theorem test_formats : (e5m2.round .near false { neg := true, m := 11, e := -2, sticky := false }).1 = 0xC2 ∧
    (e4m3.round .near false { neg := true, m := 11, e := -2, sticky := false }).1 = 0xC3 ∧
    (fp16.round .near false { neg := false, m := 448, e := 0, sticky := false }).1 = 0x5F00 ∧
    (e4m3.round .near false { neg := false, m := 448, e := 0, sticky := false }).1 = 0x7E ∧ e5m2.decode 1 = .fin false 1 (-16) := by decide +kernel

/-- "A block worked through": the row 40, 3, 1.5, 0.75, 0.1, converted with T = 0 and with T = 2. -/
def blockRow : List Byte := ([0x42200000, 0x40400000, 0x3FC00000, 0x3F400000, 0x3DCCCCCD] ++ List.replicate 11 0).flatMap (leBytes 4)

theorem test_block_outlier : (convertRow .fp32 .e2m1b16 0 false 0 0 blockRow (List.replicate 128 1)).1 = [0x52, 0x81, 0x28, 0x01, 0, 0, 0, 0, 0, 0] ∧
    (convertRow .fp32 .e2m1b16 0 false 0 0 blockRow (List.replicate 128 1)).2.2.1 = 2 := by decide +kernel

theorem test_block_threshold : (convertRow .fp32 .e2m1b16 0 false 2 0 blockRow (List.replicate 128 1)).1 = [0x00, 0x82, 0x16, 0, 0, 0, 0, 0, 0, 0] ∧
    (convertRow .fp32 .e2m1b16 0 false 2 0 blockRow (List.replicate 128 1)).2.2.1 = 3 := by decide +kernel

/-- "A renaming worked through": TPICK 2 and TROT 3 on the stack `A B C`. -/
theorem test_tpick_renaming : (let e (i : Nat) := tile i .fp32 1 1
    let r := Out.get (exec (.tpick { g := 0, d := 2 }) (stacked run0 [e 2, e 1, e 0])) run0
    r.t.stk.map = [100, 2, 1, 0] ∧ (r.t.entry 0).map (fun x => (x.state, x.readers)) = some (.draining, 1)) := by decide +kernel

/-- "Worked through on small lanes": X + 2X by index, DMIX and DCND on lane 0 of facet 0. -/
def lanePts (l : List (W32 × Nat)) : DLane := laneOf l
def distX : DLane := lanePts [(0, 0x2000), (0x3F800000, 0x4000), (0x40000000, 0x2000)]
def distY : DLane := lanePts [(0, 0x2000), (0x40800000, 0x4000), (0x41000000, 0x2000)]
def dist2X : DLane := lanePts [(0, 0x2000), (0x40000000, 0x4000), (0x40800000, 0x2000)]

theorem test_dadd_indexed : ptsOf (pairLane .add .indexed distX dist2X).1 = [(0, 0x2000), (0x40400000, 0x4000), (0x40C00000, 0x2000)] := by
  decide +kernel

theorem test_dsub_indexed : ptsOf (pairLane .sub .indexed distX distX).1 = [(0, 0x8000)] := by decide +kernel

theorem test_dmix_half : ptsOf (mixLane distX distY 0x4000).1 =
    [(0, 0x2000), (0x3F800000, 0x2000), (0x40000000, 0x1000), (0x40800000, 0x2000), (0x41000000, 0x1000)] := by decide +kernel

/-- The sum Z of X and Y condenses to eight points of weight 0x1000; between 4.0 and 6.0 lie four of them, each doubled. -/
theorem test_dcnd_doubles : ptsOf (cndLane (pairLane .add .independent distX distY).1 0x40800000 0x40C00000).1 =
    [(0x40800000, 0x2000), (0x40A00000, 0x2000), (0x40A00000, 0x2000), (0x40C00000, 0x2000)] := by decide +kernel

/-- The shift of 182 by 3 in "Checking and containment". -/
theorem test_residue : (ResOp.shr 8 182 3).result = 22 ∧ (ResOp.shr 8 182 3).predict = 1 ∧ resOf 22 = 1 ∧ resOf 30 = 2 := by decide

/-- The record of a failed check in "Checking and containment". -/
theorem test_mcWord0 : mcWord0 9 false { cls := 4, slot := 5, op := 4, facet := 3, lane := 54, phys := 6, arr := .regs, syn := 0x2A } 3 1 =
    0x40494236C18D002A := by decide +kernel

/-! Maquettes: the container of "A maquette worked through" (10), with y at argument 1 and the tables of `codeTables`. -/

def saxsOps : List Nat := [0x2060400C00FFFFFE, 0x40000000, 0x2020C02400C01FFE, 0x2021401401C00FFE, 0x2380C03401FFEFFE]

def saxsOf (header : Nat) (ops : List Nat) : List Byte := ([header,
  0x0040000000000000, 0, 0x400000010, 0, 0, 0, 0x2040000000000000, 0, 0x400000010, 0, 0, 0,
  0x4840000000000000, 0, 0x400000010, 0, 0, 0, 0x7840000000000000, 0, 0x000000001, 0, 0, 0] ++ ops).flatMap (leBytes 8)

def saxs : Option Maquette := Maquette.load (saxsOf 0x0001300500000000 saxsOps)

def saxsState : State :=
  let s := codeTables 0x200807
  let d := nodeOf .running 0
  { s with
    nodes := [{ d with drec := (((d.drec.set 8 0x10000).set 9 0x11000).set 10 0x12000).set 11 0x13000 }]
    mem := (s.mem.hwWrite none 0x210000 (leBytes 4 0x3F800000)).hwWrite none 0x211000 (leBytes 4 0x3F000000) }

theorem test_maquette_load : saxs.map (fun m => (m.count, m.streams.map (·.dir), m.ops.map (·.assoc), m.ops.map (·.d))) =
    some (16, [.inp, .inp, .out, .final], [false, false, true, false], [.ve 0, .sm 2, .ve 1, .sm 3]) := by decide +kernel

/-- Whether the first iteration with x[0] = 1 and y[0] = 0.5 gives out[0] = 2.5 and the sum 1, and raises no flag,
its ASSOC bit taken as 0: the bits of an ASSOC operation are free (R211). -/
def saxsFirst (m : Maquette) : Bool :=
  match { m with ops := m.ops.map fun o => { o with assoc := false } : Maquette }.iteration saxsState (MqRun.start saxsState false 0 []) 0 with
  | .ok r =>
    r.made.map (fun a => (a.write, a.k, a.bytes)) == [(false, 0, leBytes 4 0x3F800000), (false, 1, leBytes 4 0x3F000000),
      (true, 2, leBytes 4 0x40200000), (false, 0, leBytes 4 0x3F800000)] &&
    r.now.mem.hwRead none 0x212000 4 == leBytes 4 0x40200000 && r.finals == [(3, leBytes 4 0x3F800000)] && r.flags == 0
  | .error _ => false

theorem test_maquette_iteration : saxs.map saxsFirst = some true := by decide +kernel

/-- Refused: VERSION 2; KIND 3; a destination that names an in stream; a source that names an out stream; VRED; an ASSOC bit where A
is not D; an extension entry that is missing. -/
theorem test_maquette_refused : Maquette.load (saxsOf 0x0002300500000000 saxsOps) = none ∧
    ∀ e ∈ ([0x3380C03401FFEFFE, 0x2380C00401FFEFFE, 0x2380C03C02FFEFFE, 0x23E0C03401FFEFFE, 0x2021401402C00FFE, 0x2060400C00FFFFFE] : List Nat),
      Maquette.load (saxsOf 0x0001300500000000 (saxsOps.dropLast ++ [e])) = none := by decide +kernel

end Sys2Proof.Tests
end

section
/-! PROOF. Scalar division and remainder (R154): what the four functions of values give, corner by corner, and the statement
about the instructions from them. -/

namespace Sys2Proof.Machine

theorem ne_zero_of_toInt_eq_neg_one {b : W64} (h : b.toInt = -1) : b ≠ 0 := by
  rintro rfl
  exact absurd h (by decide)

/-! The signed quotient. -/

@[simp] theorem divS_zero (a : W64) : divS a 0 = -1 := if_pos rfl

theorem divS_of_ne_zero {a b : W64} (hb : b ≠ 0) : divS a b = a.sdiv b := by
  rw [divS, if_neg hb, ← BitVec.toInt_inj, BitVec.toInt_ofInt, BitVec.toInt_sdiv]

theorem divS_overflow {a b : W64} (ha : a.toInt = -(2 ^ 63)) (hb : b.toInt = -1) : (divS a b).toInt = -(2 ^ 63) := by
  rw [divS_of_ne_zero (ne_zero_of_toInt_eq_neg_one hb), BitVec.toInt_sdiv, ha, hb]
  decide

/-- Away from −2^63 / −1 the quotient is a signed word, so nothing wraps. -/
theorem divS_toInt {a b : W64} (hb : b ≠ 0) (hover : ¬(a.toInt = -(2 ^ 63) ∧ b.toInt = -1)) :
    (divS a b).toInt = a.toInt.tdiv b.toInt := by
  rw [divS_of_ne_zero hb]
  refine BitVec.toInt_sdiv_of_ne_or_ne a b (not_and_or.mp ?_)
  rintro ⟨rfl, rfl⟩
  exact hover (by decide)

/-! The signed remainder. -/

@[simp] theorem remS_zero (a : W64) : remS a 0 = a := if_pos rfl

/-- A remainder is smaller than its divisor, so nothing wraps. -/
theorem remS_toInt {a b : W64} (hb : b ≠ 0) : (remS a b).toInt = a.toInt.tmod b.toInt := by
  rw [remS, if_neg hb, ← BitVec.toInt_srem, BitVec.ofInt_toInt]

theorem remS_neg_one (a : W64) {b : W64} (hb : b.toInt = -1) : remS a b = 0 := by
  rw [← BitVec.toInt_inj, remS_toInt (ne_zero_of_toInt_eq_neg_one hb), hb, Int.tmod_neg, Int.tmod_one]
  rfl

/-! The unsigned quotient and remainder. -/

@[simp] theorem divU_zero (a : W64) : divU a 0 = -1 := if_pos rfl

theorem divU_toNat {a b : W64} (hb : b ≠ 0) : (divU a b).toNat = a.toNat / b.toNat := by
  rw [divU, if_neg hb, BitVec.toNat_udiv]

@[simp] theorem remU_zero (a : W64) : remU a 0 = a := if_pos rfl

theorem remU_toNat {a b : W64} (hb : b ≠ 0) : (remU a b).toNat = a.toNat % b.toNat := by
  rw [remU, if_neg hb, BitVec.toNat_umod]

/-! The instructions. -/

theorem exec_div (o : OR3) (s : State) : exec (.div o) s = alu2 12 divS o s := rfl
theorem exec_divu (o : OR3) (s : State) : exec (.divu o) s = alu2 12 divU o s := rfl
theorem exec_rem (o : OR3) (s : State) : exec (.rem o) s = alu2 12 remS o s := rfl
theorem exec_remu (o : OR3) (s : State) : exec (.remu o) s = alu2 12 remU o s := rfl

/-- Settles O2: each instruction writes its function of the two sources (`yields2`), and that function meets every corner of
R154. -/
theorem scalarDivision : Obligations.ScalarDivision := by
  refine ⟨yields2 divS exec_div fun a b => ⟨?_, fun ⟨ha, hb⟩ => divS_overflow ha hb, divS_toInt⟩,
    yields2 divU exec_divu fun a b => ⟨?_, divU_toNat⟩,
    yields2 remS exec_rem fun a b => ⟨?_, fun ⟨_, hb⟩ => remS_neg_one a hb, remS_toInt⟩,
    yields2 remU exec_remu fun a b => ⟨?_, remU_toNat⟩⟩
  · rintro rfl
    rw [divS_zero]
    decide
  · rintro rfl
    rw [divU_zero]
    decide
  · rintro rfl
    exact remS_zero a
  · rintro rfl
    exact remU_zero a

end Sys2Proof.Machine
end

section
/-! PROOF. A facet syllable acts on one facet after the other. Each facet reads the registers as the bundle found them, whatever
the facets before it have put in flight (R117, R180), so its result is a function of the state at the start of the syllable. -/

namespace Sys2Proof.Machine

/-! States that differ in the writes of the bundle being issued. -/

/-- A facet syllable reads the same of `s'` as of `s`, and nothing stops it in the one where nothing stops it in the other. -/
structure State.SameReads (s s' : State) : Prop where
  fv : s'.fv = s.fv
  bidx : s'.t.bidx = s.t.bidx
  fac : s'.t.fac = s.t.fac
  run : s'.t.run = s.t.run
  frz : s'.t.frz = s.t.frz
  inFlight : ∀ d, s'.t.inFlight d = s.t.inFlight d

theorem State.SameReads.refl (s : State) : s.SameReads s := ⟨rfl, rfl, rfl, rfl, rfl, fun _ => rfl⟩

/-- A write of the current bundle is none of those that a read may see. -/
@[simp] theorem State.withWrite_inFlight (s : State) (d d' : FDst) (lat : Nat) (v : FVal) (o : Origin) :
    (s.withWrite d lat v o).t.inFlight d' = s.t.inFlight d' := by
  have hnew : [({ id := s.t.seq, dst := d, iss := s.t.bidx, land := s.t.bidx + lat, val := v, org := o } : Flight)].filter
      (fun fl => fl.dst == d' && fl.iss < s.t.bidx) = [] := by simp
  exact congrArg (sortBy Flight.land) ((List.filter_append ..).trans ((congrArg (_ ++ ·) hnew).trans (List.append_nil _)))

namespace State.SameReads

variable {s s' : State}

theorem withWrite (h : s.SameReads s') (d : FDst) (lat : Nat) (v : FVal) (o : Origin) :
    s.SameReads (s'.withWrite d lat v o) :=
  ⟨h.fv, h.bidx, h.fac, h.run, h.frz, fun d' => (s'.withWrite_inFlight d d' lat v o).trans (h.inFlight d')⟩

theorem withLanes (h : s.SameReads s') (k : Fin 8) (d : VReg) (lat : Nat) (m : BitVec 16) (x : Lanes) (fl : Flags) :
    s.SameReads (s'.withLanes k d lat m x fl) := by
  rw [State.withLanes]
  split
  · exact h.withWrite ..
  · exact (h.withWrite ..).withWrite ..

theorem early (h : s.SameReads s') : s'.early = s.early := by
  funext fl k
  rw [State.early, State.early, h.fv]

theorem facet (h : s.SameReads s') (k : Fin 8) : s'.t.facet k = s.t.facet k := by
  rw [Task.facet, Task.facet, h.fac]

theorem vreg (h : s.SameReads s') (k : Fin 8) (r : VReg) (n : Nat) : s'.vreg k r n = s.vreg k r n := by
  cases r with
  | bf i => rw [State.vreg, State.vreg, h.facet, h.bidx]
  | v i => rw [State.vreg, State.vreg, h.facet, h.inFlight, h.early]

theorem vBusy (h : s.SameReads s') (k : Fin 8) (r : VReg) : s'.vBusy k r = s.vBusy k r := by
  cases r with
  | bf i => rfl
  | v i => rw [State.vBusy, State.vBusy, h.inFlight]

theorem vregU (h : s.SameReads s') (k : Fin 8) (r : VReg) (n : Nat) : s'.vregU k r n = s.vregU k r n := by
  rw [State.vregU, State.vregU, h.vBusy, h.vreg, State.freeLanes, State.freeLanes, h.fv]

theorem qreg (h : s.SameReads s') (k n : Fin 8) (j : Nat) : s'.qreg k n j = s.qreg k n j := by
  rw [State.qreg, State.qreg, h.facet, h.inFlight, h.early]

theorem fsrcI (h : s.SameReads s') (k : Fin 8) (ix : Option W32) (n : Nat) (x : FSrc) : s'.fsrcI k ix n x = s.fsrcI k ix n x := by
  cases x with
  | r r => exact h.vreg k r n
  | zero | ext | imm v => rfl

theorem fsrcF (h : s.SameReads s') (k : Fin 8) (ix : Option W32) (n : Nat) (x : FSrc) : s'.fsrcF k ix n x = s.fsrcF k ix n x := by
  cases x with
  | r r => exact h.vreg k r n
  | zero | ext | imm v => rfl

theorem redSrc (h : s.SameReads s') (k : Fin 8) (m : BitVec 16) (op : RedOp) (a : FSrc) :
    s'.redSrc k m op a = s.redSrc k m op a := by
  rw [State.redSrc, State.redSrc, h.fsrcF, h.fsrcI]

theorem stopRank (h : s.SameReads s') (hs : s.runs) : s'.stopRank = 0 := by
  obtain ⟨hrun, hfrz⟩ := hs
  rw [State.stopRank, h.run, h.frz, hrun, hfrz]
  rfl

end State.SameReads

theorem State.vregU_idle {s : State} {k : Fin 8} {r : VReg} (h : s.vBusy k r = false) (n : Nat) : s.vregU k r n = s.vreg k r n := by
  rw [State.vregU, h]
  rfl

/-! The facets of a syllable. -/

/-- Steps that stop nothing follow one another. -/
theorem seqAll_goes {α : Type} (P : State → Prop) (hP : ∀ s, P s → s.stopRank = 0) (f g : α → State → State)
    (hfg : ∀ k s, P s → f k s = g k s) (hg : ∀ k s, P s → P (g k s)) (l : List α) (s : State) (hs : P s) :
    s.seqAll (l.map f) = l.foldl (fun s k => g k s) s := by
  have key : ∀ c, P c → (l.map f).foldl (fun acc f => joinStop acc (f acc.1)) (c, none) = (l.foldl (fun s k => g k s) c, none) := by
    induction l with
    | nil => exact fun c _ => rfl
    | cons k l ih =>
      intro c hc
      have hstep : joinStop (c, none) (f k c) = (g k c, none) := by
        rw [hfg k c hc, joinStop, if_pos (hP _ (hg k c hc))]
      rw [List.map_cons, List.foldl_cons, List.foldl_cons, hstep]
      exact ih _ (hg k c hc)
  rw [State.seqAll, key s hs]
  rfl

/-- A syllable whose facets only add writes of this bundle is one step `g` for each facet. -/
theorem facets_eq {s : State} (hs : s.runs) (q : Fin 8) (f : Fin 8 → BitVec 16 → State → State) (g : Fin 8 → State → State)
    (hfg : ∀ k s', s.SameReads s' → f k (s.qreg k q 7) s' = g k s') (hg : ∀ k s', s.SameReads s' → s.SameReads (g k s')) :
    s.facets q f = .next (s.eachFacet g) := by
  refine congrArg _ (seqAll_goes s.SameReads (fun s' h => h.stopRank hs) _ g (fun k s' h => ?_) hg _ s (.refl s))
  rw [h.qreg, hfg k s' h]

/-! Lanes. -/

@[simp] theorem vecOf_get {α : Type} {n : Nat} (f : Fin n → α) (l : Fin n) : (vecOf f).get l = f l := by
  exact (List.getElem_toArray _).trans (List.getElem_ofFn _)

theorem laneFlags_vecOf (m : BitVec 16) (g : Fin 16 → Flags) : laneFlags m (vecOf g) = flagsOf m g := by
  simp only [laneFlags, enabled, flagsOf, List.foldl_filter, vecOf_get]

theorem vfly_eq (s : State) (k : Fin 8) (d : VReg) (lat : Nat) (m : BitVec 16) (x : Lanes) (fl : Flags) :
    s.vfly k d lat m x fl = s.withLanes k d lat m x fl := rfl

theorem lanewise_eq (s : State) (k : Fin 8) (d : VReg) (lat : Nat) (m : BitVec 16) (r : Fin 16 → W32 × Flags) :
    s.lanewise k d lat m r = s.withLanes k d lat m (vecOf fun l => (r l).1) (flagsOf m fun l => (r l).2) := by
  rw [State.lanewise, vfly_eq, laneFlags_vecOf]

/-- A syllable that writes one register of each facet, by a function of what the facet reads. -/
theorem facets_vfly {s : State} (hs : s.runs) (q : Fin 8) (d : VReg) (lat : Nat) (f : Fin 8 → BitVec 16 → State → Lanes × Flags)
    (hf : ∀ k m s', s.SameReads s' → f k m s' = f k m s) :
    (s.facets q fun k m s' => s'.vfly k d lat m (f k m s').1 (f k m s').2) = .next (s.eachFacet fun k s' =>
      s'.withLanes k d lat (s.qreg k q 7) (f k (s.qreg k q 7) s).1 (f k (s.qreg k q 7) s).2) := by
  refine facets_eq hs q _ _ (fun k s' h => ?_) fun k s' h => h.withLanes ..
  rw [hf k _ s' h, vfly_eq]

/-- The same lane by lane. -/
theorem facets_lanewise {s : State} (hs : s.runs) (q : Fin 8) (d : VReg) (lat : Nat) (f : Fin 8 → State → Fin 16 → W32 × Flags)
    (hf : ∀ k s', s.SameReads s' → f k s' = f k s) :
    (s.facets q fun k m s' => s'.lanewise k d lat m (f k s')) = .next (s.eachFacet fun k s' =>
      s'.withLanes k d lat (s.qreg k q 7) (vecOf fun l => (f k s l).1) (flagsOf (s.qreg k q 7) fun l => (f k s l).2)) := by
  refine facets_eq hs q _ _ (fun k s' h => ?_) fun k s' h => h.withLanes ..
  rw [hf k s' h, lanewise_eq]

/-- A syllable that writes one mask pair of each facet. -/
theorem facets_pair {s : State} (hs : s.runs) (q : Fin 8) (p : Fin 4) (f : Fin 8 → State → BitVec 16)
    (hf : ∀ k s', s.SameReads s' → f k s' = f k s) :
    (s.facets q fun k m s' => s'.fly (.q k p) 2 (.pair m (f k s')) Origin.dat) = .next (s.eachFacet fun k s' =>
      s'.withWrite (.q k p) 2 (.pair (s.qreg k q 7) (f k s)) Origin.dat) := by
  refine facets_eq hs q _ _ (fun k s' h => ?_) fun k s' h => h.withWrite ..
  rw [hf k s' h, fly_eq]

/-- A lane-by-lane instruction yields the function of its sources that it applies. -/
theorem yieldsLanes {i : Instr} {s : State} (hs : s.runs) {q : Fin 8} {d : VReg} {lat : Nat}
    (f : Fin 8 → State → Fin 16 → W32 × Flags) (hi : exec i s = s.facets q fun k m s' => s'.lanewise k d lat m (f k s'))
    (hf : ∀ k s', s.SameReads s' → f k s' = f k s) {r : Fin 8 → Fin 16 → W32 → Flags → Prop}
    (hr : ∀ k l, r k l (f k s l).1 (f k s l).2) : YieldsLanes i s q d lat r := by
  refine ⟨_, _, hi.trans (facets_lanewise hs q d lat f hf), fun k l => ?_⟩
  rw [vecOf_get]
  exact hr k l

theorem yieldsF2 {i : OV3 → Instr} {lat : Nat} (g : W32 → W32 → W32 × Flags) {r : W32 → W32 → W32 → Flags → Prop}
    (hi : ∀ o s, exec (i o) s = vop2 lat g o s) (hr : ∀ a b, r a b (g a b).1 (g a b).2) : YieldsF2 i lat r := by
  refine fun o s hs => yieldsLanes hs (fun k s' l => g ((s'.fsrcF k o.ix 0 o.a).get l) ((s'.fsrcF k o.ix 1 o.b).get l))
    (hi o s) (fun k s' h => ?_) fun k l => hr _ _
  rw [h.fsrcF, h.fsrcF]

theorem yieldsF1 {i : OV2 → Instr} {lat : Nat} (g : W32 → W32 × Flags) {r : W32 → W32 → Flags → Prop}
    (hi : ∀ o s, exec (i o) s = vop1 lat g o s) (hr : ∀ a, r a (g a).1 (g a).2) : YieldsF1 i lat r := by
  refine fun o s hs => yieldsLanes hs (fun k s' l => g ((s'.fsrcF k o.ix 0 o.a).get l)) (hi o s) (fun k s' h => ?_) fun k l => hr _
  rw [h.fsrcF]

end Sys2Proof.Machine
end

section
/-! PROOF. The values of exact numbers and of FP32 patterns (R65, R66), and rounding where nothing is lost (R72). -/

namespace Sys2Proof.Machine

/-! Exact numbers. -/

theorem Num.isNan_iff {x : Num} : x.isNan = true ↔ x = .nan := by
  cases x <;> simp [Num.isNan]

theorem Num.isNan_eq_false {x : Num} : x.isNan = false ↔ x ≠ .nan := by
  rw [← Bool.not_eq_true, Num.isNan_iff]

theorem Num.val_fin_eq_zero {s : Bool} {m : Nat} {e : Int} : (Num.fin s m e).val = 0 ↔ m = 0 := by
  cases s <;> simp [Num.val, zpow_ne_zero]

theorem Num.val_fin_false_nonneg (m : Nat) (e : Int) : 0 ≤ (Num.fin false m e).val := by
  simp only [Num.val, Bool.false_eq_true, if_false]
  positivity

theorem Num.val_fin_true_nonpos (m : Nat) (e : Int) : (Num.fin true m e).val ≤ 0 := by
  have : (0 : ℚ) ≤ m * 2 ^ e := by positivity
  simp only [Num.val, if_true]
  linarith

/-- A finite value below zero carries the sign and is no zero. -/
theorem Num.val_fin_neg {s : Bool} {m : Nat} {e : Int} (h : (Num.fin s m e).val < 0) : s = true ∧ m ≠ 0 := by
  refine ⟨?_, fun hm => h.ne (val_fin_eq_zero.mpr hm)⟩
  cases s with
  | true => rfl
  | false => exact absurd h (val_fin_false_nonneg m e).not_gt

theorem Num.val_fin_pos {s : Bool} {m : Nat} {e : Int} (h : 0 < (Num.fin s m e).val) : s = false ∧ m ≠ 0 := by
  refine ⟨?_, fun hm => h.ne' (val_fin_eq_zero.mpr hm)⟩
  cases s with
  | false => rfl
  | true => exact absurd h (val_fin_true_nonpos m e).not_gt

theorem scaled_val (s : Bool) (m : Nat) {e q : Int} (h : q ≤ e) : (scaled s m e q : ℚ) * 2 ^ q = (Num.fin s m e).val := by
  have hpow : (2 : ℚ) ^ (e - q).toNat * 2 ^ q = 2 ^ e := by
    rw [← zpow_natCast, ← zpow_add₀ two_ne_zero, Int.toNat_of_nonneg (by omega), Int.sub_add_cancel]
  cases s <;> simp [scaled, Num.val, mul_assoc, hpow]

/-- A sum of finite numbers is finite, and exact. -/
theorem Num.add_fin (s : Bool) (m : Nat) (e : Int) (s' : Bool) (m' : Nat) (e' : Int) :
    ∃ t n q, ((Num.fin s m e).add (.fin s' m' e')).1 = .fin t n q ∧
      (Num.fin t n q).val = (Num.fin s m e).val + (Num.fin s' m' e').val := by
  have hsum := add_mul (scaled s m e (min e e') : ℚ) (scaled s' m' e' (min e e')) (2 ^ min e e')
  rw [scaled_val s m (min_le_left e e'), scaled_val s' m' (min_le_right e e')] at hsum
  rw [← hsum, ← Int.cast_add]
  simp only [Num.add]
  generalize scaled s m e (min e e') + scaled s' m' e' (min e e') = v
  by_cases hv : v = 0
  · exact ⟨_, _, _, by rw [if_pos hv], by simp [hv, Num.val]⟩
  · refine ⟨_, _, _, by rw [if_neg hv], ?_⟩
    rcases lt_or_ge v 0 with hneg | hpos
    · have habs : (v.natAbs : ℚ) = -v := by rw [Nat.cast_natAbs, abs_of_neg hneg, Int.cast_neg]
      simp [Num.val, hneg, habs]
    · have habs : (v.natAbs : ℚ) = v := by rw [Nat.cast_natAbs, abs_of_nonneg hpos]
      simp [Num.val, hpos.not_gt, habs]

theorem Num.neg_fin_val (s : Bool) (m : Nat) (e : Int) : (Num.fin (!s) m e).val = -(Num.fin s m e).val := by
  cases s <;> simp [Num.val]

theorem Num.mul_fin_val (s : Bool) (m : Nat) (e : Int) (s' : Bool) (m' : Nat) (e' : Int) :
    (Num.fin (s != s') (m * m') (e + e')).val = (Num.fin s m e).val * (Num.fin s' m' e').val := by
  cases s <;> cases s' <;> simp [Num.val, zpow_add₀] <;> ring

/-! FP32 patterns. -/

/-- The fields of an FP32 pattern: sign, eight bits of exponent, 23 of fraction (R65, R66). -/
theorem fp32_decode (b : Nat) : fp32.decode b =
    if b / 2 ^ 23 % 256 = 255 then (if b % 2 ^ 23 = 0 then .inf (b / 2 ^ 31 % 2 == 1) else .nan)
    else if b / 2 ^ 23 % 256 = 0 then .fin (b / 2 ^ 31 % 2 == 1) (b % 2 ^ 23) (-149)
    else .fin (b / 2 ^ 31 % 2 == 1) (2 ^ 23 + b % 2 ^ 23) ((b / 2 ^ 23 % 256 : Nat) - 150) := by
  have hexp : ((b / 2 ^ 23 % 256 : Nat) : Int) - 127 - 23 = (b / 2 ^ 23 % 256 : Nat) - 150 := by omega
  simp only [FF.decode, fp32, Bool.true_and, Bool.not_true, Bool.false_and, beq_iff_eq, ← hexp]
  rfl

/-- A finite pattern has 24 bits of mantissa and an exponent in range. -/
theorem dec32_fin_range {a : W32} {s : Bool} {m : Nat} {e : Int} (h : dec32 a = .fin s m e) :
    m < 2 ^ 24 ∧ -149 ≤ e ∧ e ≤ 104 := by
  rw [dec32, fp32_decode] at h
  split at h
  · split at h <;> cases h
  · split at h <;> cases h <;> omega

/-- A normal pattern from its fields. -/
theorem fp32_decode_normal (s : Bool) {E f : Nat} (hE : 1 ≤ E ∧ E ≤ 254) (hf : f < 2 ^ 23) :
    fp32.decode (fp32.signBit s + E * 2 ^ 23 + f) = .fin s (2 ^ 23 + f) (E - 150) := by
  have hs : fp32.signBit s = s.toNat * 2 ^ 31 := by cases s <;> rfl
  have hs1 : s.toNat ≤ 1 := s.toNat_le
  rw [hs, fp32_decode]
  generalize hb : s.toNat * 2 ^ 31 + E * 2 ^ 23 + f = b
  have h1 : b / 2 ^ 23 % 256 = E := by omega
  have h2 : b % 2 ^ 23 = f := by omega
  have h3 : b / 2 ^ 31 % 2 = s.toNat := by omega
  rw [h1, h2, h3, if_neg (by omega), if_neg (by omega)]
  cases s <;> rfl

/-! Rounding where nothing is lost. -/

theorem roundAt_exact (rm : RM) (m : Nat) {e q : Int} (h : q ≤ e) (sticky : Bool) :
    roundAt rm m e sticky q = (m * 2 ^ (e - q).toNat, sticky) := if_pos h

theorem fp32_not_over {r : Nat} {q : Int} (hr : r < 2 ^ 24) (hq : q ≤ 104) : fp32.over r q = false := by
  have hmax : fp32.decode (fp32.maxBits false) = .fin false (2 ^ 24 - 1) 104 :=
    fp32_decode_normal false (E := 254) (f := 2 ^ 23 - 1) (by decide) (by decide)
  have hpow : 0 < 2 ^ (104 - q).toNat := by positivity
  simp only [FF.over, hmax, if_pos hq, decide_eq_false_iff_not, not_lt]
  exact (Nat.le_sub_one_of_lt hr).trans (Nat.le_mul_of_pos_right _ hpow)

theorem fp32_pack_normal (s : Bool) {r : Nat} (h : 2 ^ 23 ≤ r ∧ r < 2 ^ 24) (q : Int) :
    fp32.pack s r q = fp32.signBit s + (q + 150).toNat * 2 ^ 23 + (r - 2 ^ 23) := by
  have h1 : ¬ r < 2 ^ fp32.mw := by simp only [fp32]; omega
  have h2 : ¬ r = 2 ^ (fp32.mw + 1) := by simp only [fp32]; omega
  have h3 : q + (fp32.mw : Int) + fp32.bias = q + 150 := by simp only [fp32]; omega
  simp only [FF.pack, if_neg h1, if_neg h2, h3]
  rfl

theorem log2_le_23 {m : Nat} (hm : m ≠ 0) (hm' : m < 2 ^ 24) : m.log2 ≤ 23 := Nat.lt_succ_iff.mp ((Nat.log2_lt hm).mpr hm')

/-- A mantissa shifted until its leading bit stands at bit 23. -/
theorem normalized_bounds {m : Nat} (hm : m ≠ 0) (hm' : m < 2 ^ 24) :
    2 ^ 23 ≤ m * 2 ^ (23 - m.log2) ∧ m * 2 ^ (23 - m.log2) < 2 ^ 24 := by
  have hrow : 2 ^ m.log2 * 2 ^ (23 - m.log2) = 2 ^ 23 := by rw [← pow_add, Nat.add_sub_cancel' (log2_le_23 hm hm')]
  have hlow := Nat.mul_le_mul_right (2 ^ (23 - m.log2)) (Nat.log2_self_le hm)
  have hhigh := Nat.mul_lt_mul_of_pos_right (Nat.lt_log2_self (n := m)) (Nat.two_pow_pos (23 - m.log2))
  rw [pow_succ, mul_right_comm] at hhigh
  omega

/-- A number of at most 24 significant bits in the normal range is an FP32 value, which rounding finds. -/
theorem fp32_round_normal (s : Bool) {m : Nat} (hm : m ≠ 0) (hm' : m < 2 ^ 24) {e : Int} (he : -126 ≤ e + m.log2)
    (he' : e + m.log2 ≤ 127) : fp32.round .near false { neg := s, m := m, e := e, sticky := false } =
      (fp32.signBit s + (e + m.log2 + 127).toNat * 2 ^ 23 + (m * 2 ^ (23 - m.log2) - 2 ^ 23), 0) := by
  have hlog := log2_le_23 hm hm'
  have hbounds := normalized_bounds hm hm'
  have hover : fp32.over (m * 2 ^ (23 - m.log2)) (e + m.log2 - 23) = false := fp32_not_over hbounds.2 (by omega)
  have hround : roundAt .near m e false (e + m.log2 - 23) = (m * 2 ^ (23 - m.log2), false) := by
    rw [roundAt_exact _ _ (by omega), show (e - (e + m.log2 - 23)).toNat = 23 - m.log2 by omega]
  have hnormal : max (e + m.log2 - 23) (fp32.emin - 23) = e + (m.log2 : Int) - 23 :=
    max_eq_left (by simp only [FF.emin, fp32]; omega)
  have hmw : (fp32.mw : Int) = 23 := rfl
  simp only [FF.round, hm, hmw, hnormal, hround, hover, decide_false, Bool.false_and, Bool.and_false, Bool.false_eq_true, if_false,
    fp32_pack_normal s hbounds]
  rw [show e + (m.log2 : Int) - 23 + 150 = e + m.log2 + 127 by omega]
  rfl

/-- Such a number is the value of its rounding, with no flag. -/
theorem rnd32_normal (s : Bool) {m : Nat} (hm : m ≠ 0) (hm' : m < 2 ^ 24) {e : Int} (he : -126 ≤ e + m.log2)
    (he' : e + m.log2 ≤ 127) : val32 (rnd32 (.fin s m e)).1 = (Num.fin s m e).val ∧ (rnd32 (.fin s m e)).2 = 0 := by
  have hlog := log2_le_23 hm hm'
  obtain ⟨hlow, hhigh⟩ := normalized_bounds hm hm'
  have hsign : fp32.signBit s ≤ 2 ^ 31 := by cases s <;> decide
  have hpow : (2 : ℚ) ^ (23 - m.log2) * 2 ^ (((e + m.log2 + 127).toNat : Int) - 150) = 2 ^ e := by
    rw [← zpow_natCast, ← zpow_add₀ two_ne_zero]
    congr 1
    omega
  have hword : ∀ {b}, b < 2 ^ 32 → dec32 (BitVec.ofNat 32 b) = fp32.decode b := fun hb => by
    rw [dec32, BitVec.toNat_ofNat, Nat.mod_eq_of_lt hb]
  simp only [rnd32, FF.ofNum, fp32_round_normal s hm hm' he he', and_true, val32]
  rw [hword (by omega), fp32_decode_normal s (by omega) (by omega), Nat.add_sub_cancel' hlow]
  simp only [Num.val, Nat.cast_mul, Nat.cast_pow, Nat.cast_ofNat, mul_assoc, hpow]

/-- Every integer of at most 24 bits is an FP32 value. -/
theorem rnd32_int (n : Int) (h : n.natAbs < 2 ^ 24) :
    val32 (rnd32 (.fin (n < 0) n.natAbs 0)).1 = n ∧ (rnd32 (.fin (n < 0) n.natAbs 0)).2 = 0 := by
  have hval : (Num.fin (n < 0) n.natAbs 0).val = n := by
    rcases lt_or_ge n 0 with hneg | hpos
    · simp [Num.val, hneg, Nat.cast_natAbs, abs_of_neg hneg]
    · simp [Num.val, hpos.not_gt, Nat.cast_natAbs, abs_of_nonneg hpos]
  by_cases h0 : n = 0
  · subst h0
    exact ⟨by simp [rnd32, FF.ofNum, FF.round, val32, dec32, fp32_decode, FF.signBit, Num.val], rfl⟩
  · have hne : n.natAbs ≠ 0 := Int.natAbs_ne_zero.mpr h0
    have hlog := log2_le_23 hne h
    have := rnd32_normal (n < 0) hne h (e := 0) (by omega) (by omega)
    rwa [hval] at this

end Sys2Proof.Machine
end

section
/-! PROOF. The floating-point instructions of the facets (R183 to R186): each applies one function to each lane, which meets its
rule. -/

namespace Sys2Proof.Machine

/-! Lanes. -/

theorem absLane_nan {a : W32} (h : dec32 a = .nan) : absLane a = 0x7FC00000 := if_pos (Num.isNan_iff.mpr h)
theorem negLane_nan {a : W32} (h : dec32 a = .nan) : negLane a = 0x7FC00000 := if_pos (Num.isNan_iff.mpr h)

/-- Of a number, VABS clears the sign bit. -/
theorem absLane_bit {a : W32} (h : dec32 a ≠ .nan) (i : Nat) : (absLane a).getLsbD i = (a.getLsbD i && decide (i < 31)) := by
  have hmask : (0x7FFFFFFF : W32) = BitVec.ofNat 32 (2 ^ 31 - 1) := rfl
  rw [absLane, if_neg (mt Num.isNan_iff.mp h), hmask, BitVec.getLsbD_and, BitVec.getLsbD_ofNat, Nat.testBit_two_pow_sub_one]
  have : i < 31 → i < 32 := Nat.lt_succ_of_lt
  grind

/-- Of a number, VNEG inverts the sign bit. -/
theorem negLane_bit {a : W32} (h : dec32 a ≠ .nan) (i : Nat) : (negLane a).getLsbD i = (a.getLsbD i ^^ decide (i = 31)) := by
  have hmask : (0x80000000 : W32) = BitVec.twoPow 32 31 := rfl
  rw [negLane, if_neg (mt Num.isNan_iff.mp h), hmask, BitVec.getLsbD_xor, BitVec.getLsbD_twoPow]
  grind

/-! Special inputs of the transcendental instructions (R186). -/

/-- A finite pattern below zero has the sign and a mantissa that is not zero. -/
theorem dec32_negative {a : W32} (hf : finite32 a) (h : val32 a < 0) : ∃ m e, dec32 a = .fin true m e ∧ m ≠ 0 := by
  obtain ⟨s, m, e, ha⟩ := hf
  rw [val32, ha] at h
  obtain ⟨rfl, hm⟩ := Num.val_fin_neg h
  exact ⟨m, e, ha, hm⟩

theorem numRsqrt_negative (m : Nat) (hm : m ≠ 0) (e : Int) : numRsqrt (.fin true m e) = (0x7FC00000, fNV) := by
  simp [numRsqrt, hm, nan32]

theorem numLog2_negative (m : Nat) (hm : m ≠ 0) (e : Int) : numLog2 (.fin true m e) = (0x7FC00000, fNV) := by
  simp [numLog2, hm, nan32]

/-- A power of two has one significant bit. -/
theorem Num.eq_two_pow_of_val {s : Bool} {m : Nat} {e n : Int} (h : (Num.fin s m e).val = 2 ^ n) :
    s = false ∧ m = 2 ^ (n - e).toNat ∧ e ≤ n := by
  have hpos : (0 : ℚ) < 2 ^ n := by positivity
  obtain ⟨rfl, hm⟩ := val_fin_pos (h ▸ hpos)
  have hmant : (m : ℚ) = 2 ^ (n - e) := by
    rw [zpow_sub₀ two_ne_zero, eq_div_iff (by positivity), ← h]
    simp [Num.val]
  have hle : e ≤ n := by
    have hone : (1 : ℚ) ≤ m := by exact_mod_cast Nat.one_le_iff_ne_zero.mpr hm
    rw [hmant, one_le_zpow_iff_right₀ one_lt_two] at hone
    omega
  refine ⟨rfl, ?_, hle⟩
  have hnat : (n - e) = ((n - e).toNat : Int) := by omega
  rw [hnat, zpow_natCast] at hmant
  exact_mod_cast hmant

theorem numLog2_of_eq_two_pow {m : Nat} (hm : m ≠ 0) (h : m = 2 ^ m.log2) (e : Int) :
    numLog2 (.fin false m e) = rnd32 (.fin (e + m.log2 < 0) (e + m.log2).natAbs 0) :=
  (if_neg hm).trans ((if_neg Bool.false_ne_true).trans (if_pos h))

/-- The logarithm of a power of two is exact. -/
theorem numLog2_two_pow {a : W32} (hf : finite32 a) {n : Int} (h : val32 a = 2 ^ n) :
    val32 (numLog2 (dec32 a)).1 = n ∧ (numLog2 (dec32 a)).2 = 0 := by
  obtain ⟨s, m, e, ha⟩ := hf
  obtain ⟨hm24, he⟩ := dec32_fin_range ha
  rw [val32, ha] at h
  obtain ⟨rfl, hm, hle⟩ := Num.eq_two_pow_of_val h
  have hlog : m.log2 = (n - e).toNat := by rw [hm, Nat.log2_two_pow]
  have hm0 : m ≠ 0 := by
    rw [hm]
    positivity
  have hlt := log2_le_23 hm0 hm24
  have hexp : e + (m.log2 : Int) = n := by omega
  have hpow : m = 2 ^ m.log2 := by rw [hlog, ← hm]
  rw [ha, numLog2_of_eq_two_pow hm0 hpow, hexp]
  exact rnd32_int n (by omega)

/-- Two to the power of a product that is zero is one. -/
theorem numExp2_zero {s s' s'' : Bool} {m m' m'' : Nat} {e e' e'' : Int}
    (h : ((Num.fin s m e).val - (Num.fin s' m' e').val) * (Num.fin s'' m'' e'').val = 0) :
    numExp2 (.fin s m e) (.fin s' m' e') (.fin s'' m'' e'') = (0x3F800000, 0) := by
  obtain ⟨t, k, q, hadd, hval⟩ := Num.add_fin s m e (!s') m' e'
  rw [Num.neg_fin_val, ← sub_eq_add_neg] at hval
  rw [← hval, ← Num.mul_fin_val, Num.val_fin_eq_zero] at h
  simp [numExp2, Num.isNan, Num.neg, hadd, Num.mul, numExp2Fin, h]

theorem numExp2_nan {x y z : Num} (h : x = .nan ∨ y = .nan ∨ z = .nan) : numExp2 x y z = (0x7FC00000, 0) := by
  simp only [← Num.isNan_iff] at h
  refine if_pos ?_
  simpa [or_assoc] using h

/-! The instructions. -/

/-- VFMA and VFMS, on a destination with no write in flight (R184). -/
theorem yieldsFused {i : OV3 → Instr} (g : Num → Num → Num → W32 × Flags) (hi : ∀ o s, exec (i o) s = fused g o s) (o : OV3)
    (s : State) (hs : s.runs) : YieldsLanes (i o) s o.q o.d 4 fun k l x fl =>
      s.vBusy k o.d = false → (x, fl) = g (dec32 ((s.fsrcF k o.ix 0 o.a).get l)) (dec32 ((s.fsrcF k o.ix 1 o.b).get l))
        (dec32 ((s.vreg k o.d 2).get l)) := by
  refine yieldsLanes hs (fun k s' l => g (dec32 ((s'.fsrcF k o.ix 0 o.a).get l)) (dec32 ((s'.fsrcF k o.ix 1 o.b).get l))
    (dec32 ((s'.vregU k o.d 2).get l))) (hi o s) (fun k s' h => ?_) fun k l hidle => ?_
  · rw [h.fsrcF, h.fsrcF, h.vregU]
  · rw [State.vregU_idle hidle]

theorem yieldsF1_vabs : YieldsF1 .vabs 4 (fun a x fl => fl = 0 ∧ (dec32 a = .nan → x = 0x7FC00000) ∧
    (dec32 a ≠ .nan → x.getLsbD 31 = false ∧ ∀ i < 31, x.getLsbD i = a.getLsbD i)) := by
  refine yieldsF1 (fun a => (absLane a, 0)) (fun _ _ => rfl) fun a => ⟨rfl, absLane_nan, fun h => ⟨?_, fun i hi => ?_⟩⟩
  · exact (absLane_bit h 31).trans (by simp)
  · simp [absLane_bit h, hi]

theorem yieldsF1_vneg : YieldsF1 .vneg 4 (fun a x fl => fl = 0 ∧ (dec32 a = .nan → x = 0x7FC00000) ∧
    (dec32 a ≠ .nan → x.getLsbD 31 = !a.getLsbD 31 ∧ ∀ i < 31, x.getLsbD i = a.getLsbD i)) := by
  refine yieldsF1 (fun a => (negLane a, 0)) (fun _ _ => rfl) fun a => ⟨rfl, negLane_nan, fun h => ⟨?_, fun i hi => ?_⟩⟩
  · exact (negLane_bit h 31).trans (by simp)
  · simp [negLane_bit h, hi.ne]

/-- Division by zero, by an infinity and of a NaN; elsewhere the rounded reciprocal. -/
theorem yieldsF1_vrcp : YieldsF1 .vrcp 6 (fun a x fl => (a = 0 → x = 0x7F800000 ∧ fl = fDZ) ∧
    (a = 0x80000000 → x = 0xFF800000 ∧ fl = fDZ) ∧ (a = 0x7F800000 → x = 0 ∧ fl = 0) ∧
    (a = 0xFF800000 → x = 0x80000000 ∧ fl = 0) ∧ (dec32 a = .nan → x = 0x7FC00000 ∧ fl = 0) ∧
    (finite32 a → val32 a ≠ 0 → (x, fl) = numRcp (dec32 a))) := by
  refine yieldsF1 (fun a => numRcp (dec32 a)) (fun _ _ => rfl) fun a => ⟨?_, ?_, ?_, ?_, fun h => ?_, fun _ _ => rfl⟩
  · rintro rfl
    exact ⟨rfl, rfl⟩
  · rintro rfl
    exact ⟨rfl, rfl⟩
  · rintro rfl
    exact ⟨rfl, rfl⟩
  · rintro rfl
    exact ⟨rfl, rfl⟩
  · rw [h]
    exact ⟨rfl, rfl⟩

theorem yieldsF1_vrsq : YieldsF1 .vrsq 6 (fun a x fl => (a = 0 → x = 0x7F800000 ∧ fl = fDZ) ∧
    (a = 0x80000000 → x = 0xFF800000 ∧ fl = fDZ) ∧ (a = 0x7F800000 → x = 0 ∧ fl = 0) ∧
    (a = 0xFF800000 ∨ (finite32 a ∧ val32 a < 0) → x = 0x7FC00000 ∧ fl = fNV) ∧
    (dec32 a = .nan → x = 0x7FC00000 ∧ fl = 0) ∧ (finite32 a → 0 < val32 a → (x, fl) = numRsqrt (dec32 a))) := by
  refine yieldsF1 (fun a => numRsqrt (dec32 a)) (fun _ _ => rfl) fun a => ⟨?_, ?_, ?_, ?_, fun h => ?_, fun _ _ => rfl⟩
  · rintro rfl
    exact ⟨rfl, rfl⟩
  · rintro rfl
    exact ⟨rfl, rfl⟩
  · rintro rfl
    exact ⟨rfl, rfl⟩
  · rintro (rfl | ⟨hf, hneg⟩)
    · exact ⟨rfl, rfl⟩
    · obtain ⟨m, e, ha, hm⟩ := dec32_negative hf hneg
      rw [ha, numRsqrt_negative m hm]
      exact ⟨rfl, rfl⟩
  · rw [h]
    exact ⟨rfl, rfl⟩

theorem yieldsF1_vlog2 : YieldsF1 .vlog2 6 (fun a x fl => (a = 0 ∨ a = 0x80000000 → x = 0xFF800000 ∧ fl = fDZ) ∧
    (a = 0x7F800000 → x = 0x7F800000 ∧ fl = 0) ∧
    (a = 0xFF800000 ∨ (finite32 a ∧ val32 a < 0) → x = 0x7FC00000 ∧ fl = fNV) ∧
    (dec32 a = .nan → x = 0x7FC00000 ∧ fl = 0) ∧ (∀ n : Int, finite32 a → val32 a = 2 ^ n → val32 x = n ∧ fl = 0)) := by
  refine yieldsF1 (fun a => numLog2 (dec32 a)) (fun _ _ => rfl) fun a => ⟨?_, ?_, ?_, fun h => ?_, fun n hf => numLog2_two_pow hf⟩
  · rintro (rfl | rfl)
    · exact ⟨rfl, rfl⟩
    · exact ⟨rfl, rfl⟩
  · rintro rfl
    exact ⟨rfl, rfl⟩
  · rintro (rfl | ⟨hf, hneg⟩)
    · exact ⟨rfl, rfl⟩
    · obtain ⟨m, e, ha, hm⟩ := dec32_negative hf hneg
      rw [ha, numLog2_negative m hm]
      exact ⟨rfl, rfl⟩
  · rw [h]
    exact ⟨rfl, rfl⟩

theorem yieldsLanes_vexp2 (o : OVexp) (s : State) (hs : s.runs) : YieldsLanes (.vexp2 o) s o.q o.d 6 fun k l x fl =>
    let a := (s.fsrcF k none 0 o.a).get l
    let b := (s.fsrcF k none 1 o.b).get l
    (dec32 a = .nan ∨ dec32 b = .nan ∨ dec32 o.c = .nan → x = 0x7FC00000 ∧ fl = 0) ∧
    (finite32 a → finite32 b → finite32 o.c → (val32 a - val32 b) * val32 o.c = 0 → x = 0x3F800000 ∧ fl = 0) := by
  refine yieldsLanes hs (fun k s' l => numExp2 (dec32 ((s'.fsrcF k none 0 o.a).get l)) (dec32 ((s'.fsrcF k none 1 o.b).get l))
    (dec32 o.c)) rfl (fun k s' h => ?_) fun k l => ⟨fun h => ?_, ?_⟩
  · rw [h.fsrcF, h.fsrcF]
  · rw [numExp2_nan h]
    exact ⟨rfl, rfl⟩
  · rintro ⟨_, _, _, ha⟩ ⟨_, _, _, hb⟩ ⟨_, _, _, hc⟩ h
    rw [val32, val32, val32, ha, hb, hc] at h
    rw [ha, hb, hc, numExp2_zero h]
    exact ⟨rfl, rfl⟩

/-- Settles O26: each instruction applies one function to each enabled lane (`yieldsLanes`), and the function meets its rule. -/
theorem facetFloat : Obligations.FacetFloat :=
  ⟨yieldsF2 (onNum numAdd) (fun _ _ => rfl) fun _ _ => rfl, yieldsF2 (onNum numSub) (fun _ _ => rfl) fun _ _ => rfl,
    yieldsF2 (onNum numMul) (fun _ _ => rfl) fun _ _ => rfl, yieldsF2 (onNum numMin) (fun _ _ => rfl) fun _ _ => rfl,
    yieldsF2 (onNum numMax) (fun _ _ => rfl) fun _ _ => rfl, yieldsFused numFma fun _ _ => rfl, yieldsFused numFms fun _ _ => rfl,
    yieldsF1_vabs, yieldsF1_vneg, yieldsF1_vrcp, yieldsF1_vrsq, yieldsF1_vlog2, yieldsLanes_vexp2⟩

end Sys2Proof.Machine
end

section
/-! PROOF. Masks bit by bit, and what the reductions, scans and dot products of the facets compute (R189, R191, R194, R195). -/

namespace Sys2Proof.Machine

/-! Masks. -/

theorem setBit_getLsbD (p : Fin 16 → Bool) (m : BitVec 16) (k i : Fin 16) :
    (if p k then m ||| (1 : BitVec 16) <<< k.val else m).getLsbD i = (m.getLsbD i || (p i && i == k)) := by
  have hbit : ((1 : BitVec 16) <<< k.val).getLsbD i = (i == k) := by
    have := BitVec.getLsbD_twoPow (w := 16) k.val i.val
    rw [BitVec.twoPow_eq] at this
    refine this.trans ?_
    simp [Fin.ext_iff, k.isLt, eq_comm, beq_eq_decide]
  by_cases hk : i = k
  · subst hk
    cases hp : p i
    · simp
    · rw [if_pos rfl, BitVec.getLsbD_or, hbit, Bool.true_and]
  · have hik : (i == k) = false := beq_false_of_ne hk
    cases hp : p k
    · simp [hik]
    · rw [if_pos rfl, BitVec.getLsbD_or, hbit, hik, Bool.and_false]

/-- A mask made lane by lane. -/
theorem laneMask_getLsbD (p : Fin 16 → Bool) (i : Fin 16) : (laneMask p).getLsbD i = p i := by
  have key : ∀ (l : List (Fin 16)) (m : BitVec 16),
      (l.foldl (fun (m : BitVec 16) k => if p k then m ||| (1 : BitVec 16) <<< k.val else m) m).getLsbD i =
        (m.getLsbD i || (p i && l.contains i)) := by
    intro l
    induction l with
    | nil => simp
    | cons k l ih =>
      intro m
      rw [List.foldl_cons, ih, setBit_getLsbD, List.contains_cons, Bool.and_or_distrib_left, Bool.or_assoc]
  rw [laneMask, key]
  simp

/-- The conditions of VCMP (R189): `a` and `b` are the sources as FP32, `i` and `j` as INT32. -/
theorem VCond.test_iff (c : VCond) (a b i j : W32) :
    VCond.test c (if VCond.isInt c then i else a) (if VCond.isInt c then j else b) = true ↔
      match c with
      | .eq => (dec32 a ≠ .nan ∧ dec32 b ≠ .nan) ∧ (dec32 a).cmp (dec32 b) = 0
      | .ne => ¬((dec32 a ≠ .nan ∧ dec32 b ≠ .nan) ∧ (dec32 a).cmp (dec32 b) = 0)
      | .lt => (dec32 a ≠ .nan ∧ dec32 b ≠ .nan) ∧ (dec32 a).cmp (dec32 b) < 0
      | .le => (dec32 a ≠ .nan ∧ dec32 b ≠ .nan) ∧ (dec32 a).cmp (dec32 b) ≤ 0
      | .gt => (dec32 a ≠ .nan ∧ dec32 b ≠ .nan) ∧ (dec32 a).cmp (dec32 b) > 0
      | .ge => (dec32 a ≠ .nan ∧ dec32 b ≠ .nan) ∧ (dec32 a).cmp (dec32 b) ≥ 0
      | .un => ¬(dec32 a ≠ .nan ∧ dec32 b ≠ .nan)
      | .ord => dec32 a ≠ .nan ∧ dec32 b ≠ .nan
      | .ieq => i = j
      | .ine => i ≠ j
      | .ilt => i.toInt < j.toInt
      | .ile => i.toInt ≤ j.toInt
      | .igt => i.toInt > j.toInt
      | .ige => i.toInt ≥ j.toInt
      | .iltu => i.toNat < j.toNat
      | .igeu => i.toNat ≥ j.toNat := by
  cases c
  case ne | un =>
    simp [VCond.test, VCond.isInt, Num.isNan_iff]
    tauto
  all_goals simp [VCond.test, VCond.isInt, Num.isNan_eq_false]

theorem Lop.run_getLsbD (op : Lop) (a b : BitVec 16) (l : Fin 16) :
    (Lop.run op a b).getLsbD l = match op with
      | .and => a.getLsbD l && b.getLsbD l
      | .or => a.getLsbD l || b.getLsbD l
      | .xor => a.getLsbD l != b.getLsbD l
      | .andn => a.getLsbD l && !b.getLsbD l
      | .orn => a.getLsbD l || !b.getLsbD l
      | .nand => !(a.getLsbD l && b.getLsbD l)
      | .nor => !(a.getLsbD l || b.getLsbD l)
      | .xnor => a.getLsbD l == b.getLsbD l := by
  cases op
  case xnor =>
    simp only [Lop.run, BitVec.getLsbD_not, BitVec.getLsbD_xor, l.isLt, decide_true, Bool.true_and, ← Bool.bne_eq_xor, bne, Bool.not_not]
  all_goals simp [Lop.run]

/-! Reductions over integers and bits (R194). -/

/-- The operations of `VRED` that raise no flag and may be combined in any order. -/
theorem RedOp.comb_flags {op : RedOp} (h : RedOp.isFloat op = false) (a b : W32) : (RedOp.comb op a b).2 = 0 := by
  cases op with
  | add | max | min => cases h
  | iadd | imax | imin | and | or | xor => rfl

theorem RedOp.comb_imax_toInt (a b : W32) : (RedOp.comb .imax a b).1.toInt = max a.toInt b.toInt := by
  simp only [RedOp.comb]
  split <;> omega

theorem RedOp.comb_imin_toInt (a b : W32) : (RedOp.comb .imin a b).1.toInt = min a.toInt b.toInt := by
  simp only [RedOp.comb]
  split <;> omega

theorem RedOp.comb_assoc {op : RedOp} (h : RedOp.isFloat op = false) (a b c : W32) :
    (RedOp.comb op (RedOp.comb op a b).1 c).1 = (RedOp.comb op a (RedOp.comb op b c).1).1 := by
  cases op with
  | add | max | min => cases h
  | iadd => exact BitVec.add_assoc a b c
  | imax => simp only [← BitVec.toInt_inj, RedOp.comb_imax_toInt, max_assoc]
  | imin => simp only [← BitVec.toInt_inj, RedOp.comb_imin_toInt, min_assoc]
  | and => exact BitVec.and_assoc a b c
  | or => exact BitVec.or_assoc a b c
  | xor => exact BitVec.xor_assoc a b c

theorem RedOp.comb_unit {op : RedOp} (h : RedOp.isFloat op = false) (a : W32) : (RedOp.comb op a (RedOp.unit op)).1 = a := by
  cases op with
  | add | max | min => cases h
  | iadd => exact BitVec.add_zero a
  | imax =>
    rw [← BitVec.toInt_inj, RedOp.comb_imax_toInt]
    exact max_eq_left (BitVec.le_toInt a)
  | imin =>
    rw [← BitVec.toInt_inj, RedOp.comb_imin_toInt]
    exact min_eq_left (Int.le_sub_one_of_lt (BitVec.toInt_lt (x := a)))
  | and => exact BitVec.and_allOnes
  | or => exact BitVec.or_zero
  | xor => exact BitVec.xor_zero

theorem RedOp.comb_comm {op : RedOp} (h : RedOp.isFloat op = false) (a b : W32) :
    (RedOp.comb op a b).1 = (RedOp.comb op b a).1 := by
  cases op with
  | add | max | min => cases h
  | iadd => exact BitVec.add_comm a b
  | imax => simp only [← BitVec.toInt_inj, RedOp.comb_imax_toInt, max_comm]
  | imin => simp only [← BitVec.toInt_inj, RedOp.comb_imin_toInt, min_comm]
  | and => exact BitVec.and_comm a b
  | or => exact BitVec.or_comm a b
  | xor => exact BitVec.xor_comm a b

/-- The values of a list combined from its end. -/
def RedOp.fold (op : RedOp) (l : List W32) : W32 := l.foldr (fun a b => (RedOp.comb op a b).1) (RedOp.unit op)

@[simp] theorem RedOp.fold_nil (op : RedOp) : RedOp.fold op [] = RedOp.unit op := rfl
@[simp] theorem RedOp.fold_cons (op : RedOp) (a : W32) (l : List W32) :
    RedOp.fold op (a :: l) = (RedOp.comb op a (RedOp.fold op l)).1 := rfl

theorem RedOp.pairs_length (op : RedOp) : ∀ l : List W32, (RedOp.pairs op l).1.length = (l.length + 1) / 2
  | [] => rfl
  | [_] => by simp [RedOp.pairs]
  | _ :: _ :: l => by
    have ih := RedOp.pairs_length op l
    simp only [RedOp.pairs, List.length_cons, ih]
    omega

/-- One level of the tree keeps the combination of its list. -/
theorem RedOp.pairs_fold {op : RedOp} (h : RedOp.isFloat op = false) :
    ∀ l : List W32, RedOp.fold op (RedOp.pairs op l).1 = RedOp.fold op l
  | [] => rfl
  | [_] => rfl
  | a :: b :: l => by simp [RedOp.pairs, RedOp.pairs_fold h l, RedOp.comb_assoc h]

theorem RedOp.pairs_flags {op : RedOp} (h : RedOp.isFloat op = false) : ∀ l : List W32, (RedOp.pairs op l).2 = 0
  | [] => rfl
  | [_] => rfl
  | a :: b :: l => by simp [RedOp.pairs, RedOp.pairs_flags h l, RedOp.comb_flags h]

/-- The tree of VRED over the 16 lanes gives the combination of all of them. -/
theorem RedOp.tree_eq_fold {op : RedOp} (h : RedOp.isFloat op = false) {l : List W32} (hl : l.length = 16) :
    RedOp.tree op l = (RedOp.fold op l, 0) := by
  simp only [RedOp.tree, RedOp.pairs_flags h]
  generalize hd : (RedOp.pairs op (RedOp.pairs op (RedOp.pairs op (RedOp.pairs op l).1).1).1).1 = d
  have hlen : d.length = 1 := by simp [← hd, RedOp.pairs_length, hl]
  have hfold : RedOp.fold op d = RedOp.fold op l := by simp only [← hd, RedOp.pairs_fold h]
  obtain ⟨y, rfl⟩ := List.length_eq_one_iff.mp hlen
  rw [← hfold, RedOp.fold_cons, RedOp.fold_nil, RedOp.comb_unit h]
  rfl

/-- Lanes that give the identity do not count. -/
theorem RedOp.fold_ite {α : Type} {op : RedOp} (h : RedOp.isFloat op = false) (p : α → Bool) (x : α → W32) (l : List α) :
    RedOp.fold op (l.map fun i => if p i then x i else RedOp.unit op) = RedOp.fold op ((l.filter p).map x) := by
  induction l with
  | nil => rfl
  | cons i l ih =>
    cases hp : p i
    · simp [hp, ih, RedOp.comb_comm h (RedOp.unit op), RedOp.comb_unit h]
    · simp [hp, ih]

theorem redSrc_length (s : State) (k : Fin 8) (m : BitVec 16) (op : RedOp) (a : FSrc) : (s.redSrc k m op a).length = 16 := by
  simp [State.redSrc]

/-- VRED of integers or bits combines the values of the enabled lanes. -/
theorem redSrc_tree (s : State) (k : Fin 8) (m : BitVec 16) {op : RedOp} (h : RedOp.isFloat op = false) (a : FSrc) :
    RedOp.tree op (s.redSrc k m op a) =
      (RedOp.fold op (((List.finRange 16).filter fun l => m.getLsbD l.val).map fun l => (s.fsrcI k none 0 a).get l), 0) := by
  have hsrc : s.redSrc k m op a =
      (List.finRange 16).map fun l => if m.getLsbD l.val then (s.fsrcI k none 0 a).get l else RedOp.unit op := by
    rw [State.redSrc, h]
    rfl
  rw [RedOp.tree_eq_fold h (redSrc_length ..), hsrc, RedOp.fold_ite h]

/-! What each combination is. -/

theorem RedOp.fold_iadd (l : List W32) : RedOp.fold .iadd l = BitVec.ofInt 32 (l.map (·.toInt)).sum := by
  induction l with
  | nil => rfl
  | cons a l ih =>
    rw [RedOp.fold_cons, ih, List.map_cons, List.sum_cons, BitVec.ofInt_add, BitVec.ofInt_toInt]
    rfl

theorem RedOp.fold_imax_le {l : List W32} {y : W32} (hy : y ∈ l) : y.toInt ≤ (RedOp.fold .imax l).toInt := by
  induction l with
  | nil => cases hy
  | cons a l ih =>
    rw [RedOp.fold_cons, RedOp.comb_imax_toInt, le_max_iff]
    exact (List.mem_cons.mp hy).imp (fun h => (congrArg _ h).le) ih

theorem RedOp.le_fold_imin {l : List W32} {y : W32} (hy : y ∈ l) : (RedOp.fold .imin l).toInt ≤ y.toInt := by
  induction l with
  | nil => cases hy
  | cons a l ih =>
    rw [RedOp.fold_cons, RedOp.comb_imin_toInt, min_le_iff]
    exact (List.mem_cons.mp hy).imp (fun h => (congrArg _ h).ge) ih

theorem RedOp.comb_imax_sel (a b : W32) : (RedOp.comb .imax a b).1 = a ∨ (RedOp.comb .imax a b).1 = b := by
  simp only [RedOp.comb]
  split <;> simp

theorem RedOp.comb_imin_sel (a b : W32) : (RedOp.comb .imin a b).1 = a ∨ (RedOp.comb .imin a b).1 = b := by
  simp only [RedOp.comb]
  split <;> simp

/-- An operation that chooses one of two values chooses one of a list. -/
theorem RedOp.fold_mem {op : RedOp} (h : RedOp.isFloat op = false)
    (hsel : ∀ a b, (RedOp.comb op a b).1 = a ∨ (RedOp.comb op a b).1 = b) : ∀ {l : List W32}, l ≠ [] → RedOp.fold op l ∈ l
  | [a], _ => by rw [RedOp.fold_cons, RedOp.fold_nil, RedOp.comb_unit h]; exact List.mem_singleton_self a
  | a :: b :: l, _ => by
    have ih := RedOp.fold_mem h hsel (List.cons_ne_nil b l)
    rw [RedOp.fold_cons]
    rcases hsel a (RedOp.fold op (b :: l)) with hab | hab <;> rw [hab]
    · exact List.mem_cons_self
    · exact List.mem_cons_of_mem a ih

theorem RedOp.fold_and_bit (l : List W32) {i : Nat} (hi : i < 32) :
    (RedOp.fold .and l).getLsbD i = true ↔ ∀ y ∈ l, y.getLsbD i = true := by
  induction l with
  | nil =>
    have hones : RedOp.fold .and [] = BitVec.allOnes 32 := rfl
    rw [hones, BitVec.getLsbD_allOnes]
    simp [hi]
  | cons a l ih => rw [RedOp.fold_cons, RedOp.comb, BitVec.getLsbD_and, Bool.and_eq_true, ih, List.forall_mem_cons]

theorem RedOp.fold_or_bit (l : List W32) (i : Nat) : (RedOp.fold .or l).getLsbD i = true ↔ ∃ y ∈ l, y.getLsbD i = true := by
  induction l with
  | nil => simp [RedOp.unit]
  | cons a l ih => rw [RedOp.fold_cons, RedOp.comb, BitVec.getLsbD_or, Bool.or_eq_true, ih, List.exists_mem_cons_iff]

theorem RedOp.fold_xor_bit (l : List W32) (i : Nat) :
    (RedOp.fold .xor l).getLsbD i = decide ((l.countP fun y => y.getLsbD i) % 2 = 1) := by
  induction l with
  | nil => simp [RedOp.unit]
  | cons a l ih =>
    rw [RedOp.fold_cons, RedOp.comb, BitVec.getLsbD_xor, ih, List.countP_cons]
    cases a.getLsbD i
    · simp
    · rcases Nat.mod_two_eq_zero_or_one (l.countP fun y => y.getLsbD i) with h | h <;> simp [h, Nat.add_mod]

/-! Scans (R194). -/

/-- The running values of a scan that starts with `x`. -/
def RedOp.scanned (op : RedOp) (x : W32) (l : List W32) : List W32 := l.scanl (fun y z => (RedOp.comb op y z).1) x

/-- The flags of its steps from one running value to the next. -/
def RedOp.stepFlags (op : RedOp) (x : W32) (l : List W32) : List Flags :=
  List.zipWith (fun y z => (RedOp.comb op y z).2) (RedOp.scanned op x l) l

theorem RedOp.scanned_cons (op : RedOp) (x z : W32) (l : List W32) :
    RedOp.scanned op x (z :: l) = x :: RedOp.scanned op (RedOp.comb op x z).1 l := List.scanl_cons

theorem RedOp.stepFlags_cons (op : RedOp) (x z : W32) (l : List W32) :
    RedOp.stepFlags op x (z :: l) = (RedOp.comb op x z).2 :: RedOp.stepFlags op (RedOp.comb op x z).1 l := by
  rw [RedOp.stepFlags, RedOp.scanned_cons, List.zipWith_cons_cons, RedOp.stepFlags]

/-- VSCAN keeps the running values in reverse, and ORs the flags of its steps. -/
theorem RedOp.scan_cons (op : RedOp) (x : W32) (l : List W32) :
    RedOp.scan op (x :: l) = (RedOp.scanned op x l, (RedOp.stepFlags op x l).foldl (· ||| ·) 0) := by
  have key : ∀ (l r : List W32) (x : W32) (fl : Flags),
      let z := l.foldl (fun (acc : List W32 × W32 × Flags) y =>
        let (z, g) := RedOp.comb op acc.2.1 y
        (z :: acc.1, z, acc.2.2 ||| g)) (x :: r, x, fl)
      z.1.reverse = r.reverse ++ RedOp.scanned op x l ∧ z.2.2 = (RedOp.stepFlags op x l).foldl (· ||| ·) fl := by
    intro l
    induction l with
    | nil => exact fun r x fl => ⟨List.reverse_cons, rfl⟩
    | cons y l ih =>
      intro r x fl
      obtain ⟨hpre, hflags⟩ := ih (x :: r) (RedOp.comb op x y).1 (fl ||| (RedOp.comb op x y).2)
      rw [RedOp.scanned_cons, RedOp.stepFlags_cons, List.foldl_cons, List.foldl_cons]
      refine ⟨hpre.trans ?_, hflags⟩
      rw [List.reverse_cons, List.append_assoc, List.singleton_append]
  obtain ⟨hpre, hflags⟩ := key l [] x 0
  exact Prod.ext hpre hflags

theorem foldl_or_getLsbD (l : List Flags) (fl : Flags) (i : Nat) :
    (l.foldl (· ||| ·) fl).getLsbD i = true ↔ fl.getLsbD i = true ∨ ∃ g ∈ l, g.getLsbD i = true := by
  induction l generalizing fl with
  | nil => simp
  | cons g l ih => rw [List.foldl_cons, ih, BitVec.getLsbD_or, Bool.or_eq_true, or_assoc, List.exists_mem_cons_iff]

/-- The running values and flags of a scan, step by step. -/
theorem RedOp.scan_spec (op : RedOp) {src : List W32} (hne : src ≠ []) :
    let xs := (RedOp.scan op src).1
    xs.getD 0 0 = src.getD 0 0 ∧
    (∀ l, l + 1 < src.length → xs.getD (l + 1) 0 = (RedOp.comb op (xs.getD l 0) (src.getD (l + 1) 0)).1) ∧
    ∀ i, (RedOp.scan op src).2.getLsbD i = true ↔
      ∃ l, l + 1 < src.length ∧ (RedOp.comb op (xs.getD l 0) (src.getD (l + 1) 0)).2.getLsbD i = true := by
  obtain ⟨x, l, rfl⟩ := List.exists_cons_of_ne_nil hne
  have hlen : (RedOp.scanned op x l).length = l.length + 1 := List.length_scanl
  have hget : ∀ n (h : n < l.length + 1), (RedOp.scanned op x l).getD n 0 = (RedOp.scanned op x l)[n]'(by omega) := fun n h =>
    List.getD_eq_getElem _ _ (by omega)
  have hsrc : ∀ n (h : n < l.length), (x :: l).getD (n + 1) 0 = l[n] := fun n h => List.getD_eq_getElem _ _ (Nat.succ_lt_succ h)
  have hflags : (RedOp.stepFlags op x l).length = l.length := by
    rw [RedOp.stepFlags, List.length_zipWith, hlen]
    omega
  have hstep : ∀ n (h : n < l.length), (RedOp.stepFlags op x l)[n]'(by omega) =
      (RedOp.comb op ((RedOp.scanned op x l).getD n 0) ((x :: l).getD (n + 1) 0)).2 := fun n h => by
    rw [hget n (by omega), hsrc n h]
    exact List.getElem_zipWith
  rw [RedOp.scan_cons]
  refine ⟨?_, fun n hn => ?_, fun i => ?_⟩
  · rw [hget 0 (by omega)]
    exact List.getElem_scanl_zero
  · have hn' : n < l.length := Nat.lt_of_succ_lt_succ hn
    rw [hget (n + 1) (by omega), hget n (by omega), hsrc n hn']
    exact List.getElem_succ_scanl _
  · rw [foldl_or_getLsbD, List.exists_mem_iff_exists_getElem, or_iff_right (by simp)]
    constructor
    · rintro ⟨n, hn, hbit⟩
      rw [hflags] at hn
      exact ⟨n, Nat.succ_lt_succ hn, by rwa [← hstep n hn]⟩
    · rintro ⟨n, hn, hbit⟩
      have hn' : n < l.length := Nat.lt_of_succ_lt_succ hn
      exact ⟨n, hflags ▸ hn', by rwa [hstep n hn']⟩

/-! Dot products (R195). -/

theorem intDot_eq_sum (a b : List Int) : intDot a b = (List.zipWith (· * ·) a b).sum := List.sum_eq_foldl.symm

/-- Products summed over lanes of several elements each are sums of the lanes' sums. -/
theorem intDot_flatMap {α : Type} (f g : α → List Int) (hfg : ∀ i, (f i).length = (g i).length) (l : List α) :
    intDot (l.flatMap f) (l.flatMap g) = (l.map fun i => (List.zipWith (· * ·) (f i) (g i)).sum).sum := by
  rw [intDot_eq_sum]
  induction l with
  | nil => rfl
  | cons i l ih => rw [List.flatMap_cons, List.flatMap_cons, List.zipWith_append (hfg i), List.sum_append, ih, List.map_cons, List.sum_cons]

/-- The byte `n` of a lane, signed. -/
theorem toSigned_byte (x : W32) (n : Nat) : toSigned 8 (x.toNat / 256 ^ n) = (x.extractLsb' (8 * n) 8).toInt := by
  have hpow : 256 ^ n = 2 ^ (8 * n) := by rw [pow_mul]; norm_num
  rw [BitVec.toInt_eq_toNat_cond, BitVec.extractLsb'_toNat, Nat.shiftRight_eq_div_pow, hpow]
  simp only [toSigned]
  split <;> split <;> omega

/-- The products of the bytes of two lanes. -/
theorem zipWith_signedBytes (x y : W32) : List.zipWith (· * ·) (signedBytes x) (signedBytes y) =
    (List.range 4).map fun n => (x.extractLsb' (8 * n) 8).toInt * (y.extractLsb' (8 * n) 8).toInt := by
  simp only [signedBytes, toSigned_byte, List.zipWith_map, List.zipWith_self]

theorem signedBytes_length (x : W32) : (signedBytes x).length = 4 := by
  simp [signedBytes]

/-- The result of VDOT in facet `k` over the lanes of `m`. -/
def State.dotOf (s : State) (o : OVdot) (k : Fin 8) (m : BitVec 16) : W32 × Flags :=
  match o.kind with
  | .f32 => dotFloat ((enabled m).map fun l => (dec32 ((s.fsrcF k o.ix 0 o.a).get l), dec32 ((s.fsrcF k o.ix 1 o.b).get l)))
  | .bf16 => dotFloat ((enabled m).flatMap fun l =>
      List.zip (bf16Halves ((s.fsrcF k o.ix 0 o.a).get l)) (bf16Halves ((s.fsrcF k o.ix 1 o.b).get l)))
  | .i8 => (BitVec.ofInt 32 (intDot ((enabled m).flatMap fun l => signedBytes ((s.fsrcI k o.ix 0 o.a).get l))
      ((enabled m).flatMap fun l => signedBytes ((s.fsrcI k o.ix 1 o.b).get l))), 0)
  | .i32 => (BitVec.ofInt 32 (intDot ((enabled m).map fun l => ((s.fsrcI k o.ix 0 o.a).get l).toInt)
      ((enabled m).map fun l => ((s.fsrcI k o.ix 1 o.b).get l).toInt)), 0)

theorem State.SameReads.dotOf {s s' : State} (h : s.SameReads s') (o : OVdot) (k : Fin 8) (m : BitVec 16) :
    s'.dotOf o k m = s.dotOf o k m := by
  simp only [State.dotOf, h.fsrcF, h.fsrcI]

theorem execVdot_eq (o : OVdot) (s : State) :
    execVdot o s = s.facets o.q fun k m s' => s'.vfly k o.d 5 m (splat (s'.dotOf o k m).1) (s'.dotOf o k m).2 := by
  obtain ⟨q, ix, d, a, b, kind⟩ := o
  cases kind <;> rfl

end Sys2Proof.Machine
end

section
/-! PROOF. Mask compares, selects, shuffles, copies, reductions, scans and dot products of the facets (R189 to R196). -/

namespace Sys2Proof.Machine

/-- The sources of VCMP, as FP32 or as INT32 by its condition. -/
def State.cmpSrc (s : State) (o : OVcmp) (k : Fin 8) (n : Nat) (x : FSrc) : Lanes :=
  if VCond.isInt o.c then s.fsrcI k o.ix n x else s.fsrcF k o.ix n x

theorem State.SameReads.cmpSrc {s s' : State} (h : s.SameReads s') (o : OVcmp) (k : Fin 8) (n : Nat) (x : FSrc) :
    s'.cmpSrc o k n x = s.cmpSrc o k n x := by
  rw [State.cmpSrc, State.cmpSrc, h.fsrcI, h.fsrcF]

theorem State.cmpSrc_get (s : State) (o : OVcmp) (k : Fin 8) (n : Nat) (x : FSrc) (l : Fin 16) :
    (s.cmpSrc o k n x).get l = if VCond.isInt o.c then (s.fsrcI k o.ix n x).get l else (s.fsrcF k o.ix n x).get l := by
  rw [State.cmpSrc]
  split <;> rfl

theorem exec_vcmp (o : OVcmp) (s : State) (hs : s.runs) : exec (.vcmp o) s = .next (s.eachFacet fun k s' =>
    s'.withWrite (.q k o.qe) 2 (.pair (s.qreg k o.q 7) (laneMask fun l =>
      VCond.test o.c ((s.cmpSrc o k 0 o.a).get l) ((s.cmpSrc o k 1 o.b).get l))) Origin.dat) := by
  refine facets_pair hs o.q o.qe (fun k s' => laneMask fun l =>
    VCond.test o.c ((s'.cmpSrc o k 0 o.a).get l) ((s'.cmpSrc o k 1 o.b).get l)) fun k s' h => ?_
  rw [h.cmpSrc, h.cmpSrc]

theorem exec_qlog (o : OQlog) (s : State) (hs : s.runs) : exec (.qlog o) s = .next (s.eachFacet fun k s' =>
    s'.withWrite (.q k o.qe) 2 (.pair (s.qreg k o.q 7) (Lop.run o.op (s.qreg k o.qa 0) (s.qreg k o.qb 1))) Origin.dat) := by
  refine facets_pair hs o.q o.qe (fun k s' => Lop.run o.op (s'.qreg k o.qa 0) (s'.qreg k o.qb 1)) fun k s' h => ?_
  rw [h.qreg, h.qreg]

theorem exec_vred (o : OVred) (s : State) (hs : s.runs) : exec (.vred o) s = .next (s.eachFacet fun k s' =>
    s'.withLanes k o.d 5 (s.qreg k o.q 7) (Vector.replicate 16 (RedOp.tree o.op (s.redSrc k (s.qreg k o.q 7) o.op o.a)).1)
      (RedOp.tree o.op (s.redSrc k (s.qreg k o.q 7) o.op o.a)).2) := by
  refine facets_vfly hs o.q o.d 5 (fun k m s' => (splat (RedOp.tree o.op (s'.redSrc k m o.op o.a)).1,
    (RedOp.tree o.op (s'.redSrc k m o.op o.a)).2)) fun k m s' h => ?_
  rw [h.redSrc]

theorem exec_vscan (o : OVred) (s : State) (hs : s.runs) : exec (.vscan o) s = .next (s.eachFacet fun k s' =>
    s'.withLanes k o.d 5 (s.qreg k o.q 7)
      (vecOf fun l => (RedOp.scan o.op (s.redSrc k (s.qreg k o.q 7) o.op o.a)).1.getD l.val 0)
      (RedOp.scan o.op (s.redSrc k (s.qreg k o.q 7) o.op o.a)).2) := by
  refine facets_vfly hs o.q o.d 5 (fun k m s' => (vecOf fun l => (RedOp.scan o.op (s'.redSrc k m o.op o.a)).1.getD l.val 0,
    (RedOp.scan o.op (s'.redSrc k m o.op o.a)).2)) fun k m s' h => ?_
  rw [h.redSrc]

theorem exec_vdot (o : OVdot) (s : State) (hs : s.runs) : exec (.vdot o) s = .next (s.eachFacet fun k s' =>
    s'.withLanes k o.d 5 (s.qreg k o.q 7) (Vector.replicate 16 (s.dotOf o k (s.qreg k o.q 7)).1)
      (s.dotOf o k (s.qreg k o.q 7)).2) := by
  refine (execVdot_eq o s).trans (facets_vfly hs o.q o.d 5 (fun k m s' => (splat (s'.dotOf o k m).1, (s'.dotOf o k m).2))
    fun k m s' h => ?_)
  rw [h.dotOf]

/-- Settles O31: VCMP and QLOG write masks known bit by bit, VSEL, VSHF and VCOPY are lane by lane (`yieldsLanes`), and VRED, VSCAN
and VDOT write what their tree, their running values and their sum give over the enabled lanes. -/
theorem facetMasksAndLanes : Obligations.FacetMasksAndLanes := by
  refine ⟨⟨fun o s hs => ⟨_, exec_vcmp o s hs, fun k l => ?vcmp⟩, fun o s hs => ?vsel,
      fun o s hs => ⟨_, exec_qlog o s hs, fun k l => ?qlog⟩⟩,
    fun o s hs => ?vshf, fun o s hs => ?vcopy, fun o s hs => ⟨_, _, exec_vred o s hs, fun k => ?vred⟩,
    fun o s hs => ⟨_, _, exec_vscan o s hs, fun k => ?vscan⟩, fun o s hs => ⟨_, _, exec_vdot o s hs, fun k => ?vdot⟩⟩
  case vcmp =>
    rw [laneMask_getLsbD, s.cmpSrc_get, s.cmpSrc_get]
    exact VCond.test_iff o.c _ _ _ _
  case qlog => exact Lop.run_getLsbD o.op _ _ l
  case vsel =>
    refine yieldsLanes hs (fun k s' l => (if (s'.qreg k o.n 2).getLsbD l.val then (s'.fsrcI k o.ix 0 o.a).get l
      else (s'.fsrcI k o.ix 1 o.b).get l, 0)) rfl (fun k s' h => ?_) fun k l => ⟨rfl, rfl⟩
    rw [h.fsrcI, h.fsrcI, h.qreg]
  case vshf =>
    refine yieldsLanes hs (fun k s' l => ((s'.fsrcI k o.ix 0 o.a).get
      (Fin.ofNat 16 (((s'.fsrcI k o.ix 1 o.b).get l).toNat % 16)), 0)) rfl (fun k s' h => ?_) fun k l => ⟨rfl, rfl⟩
    rw [h.fsrcI, h.fsrcI]
  case vcopy =>
    refine yieldsLanes hs (fun k s' l => ((s'.vregU o.srcf o.a k.val).get l, 0)) rfl (fun k s' h => ?_) fun k l =>
      ⟨rfl, fun hidle => ?_⟩
    · rw [h.vregU]
    · rw [State.vregU_idle hidle]
  case vscan =>
    obtain ⟨hfirst, hnext, hflags⟩ := RedOp.scan_spec o.op
      (List.ne_nil_of_length_pos (by rw [redSrc_length s k (s.qreg k o.q 7) o.op o.a]; decide))
    rw [redSrc_length] at hnext hflags
    simp only [vecOf_get]
    exact ⟨hfirst, hnext, fun i => (hflags i).trans (by simp only [exists_prop])⟩
  case vred =>
    obtain ⟨q, d, a, op⟩ := o
    cases op with
    | add | max | min => rfl
    | iadd =>
      rw [redSrc_tree s k _ (op := .iadd) rfl]
      exact ⟨rfl, congrArg _ (RedOp.fold_iadd _)⟩
    | imax =>
      rw [redSrc_tree s k _ (op := .imax) rfl]
      exact ⟨rfl, fun y => RedOp.fold_imax_le, RedOp.fold_mem rfl RedOp.comb_imax_sel, fun h => by rw [h]; rfl⟩
    | imin =>
      rw [redSrc_tree s k _ (op := .imin) rfl]
      exact ⟨rfl, fun y => RedOp.le_fold_imin, RedOp.fold_mem rfl RedOp.comb_imin_sel, fun h => by rw [h]; rfl⟩
    | and =>
      rw [redSrc_tree s k _ (op := .and) rfl]
      exact ⟨rfl, fun i => RedOp.fold_and_bit _⟩
    | or =>
      rw [redSrc_tree s k _ (op := .or) rfl]
      exact ⟨rfl, fun i _ => RedOp.fold_or_bit _ i⟩
    | xor =>
      rw [redSrc_tree s k _ (op := .xor) rfl]
      exact ⟨rfl, fun i _ => RedOp.fold_xor_bit _ i⟩
  case vdot =>
    obtain ⟨q, ix, d, a, b, kind⟩ := o
    cases kind with
    | f32 | bf16 => rfl
    | i32 =>
      refine ⟨rfl, congrArg (BitVec.ofInt 32) ?_⟩
      rw [intDot_eq_sum, List.zipWith_map, List.zipWith_map]
      rfl
    | i8 =>
      refine ⟨rfl, congrArg (BitVec.ofInt 32) ?_⟩
      rw [intDot_flatMap _ _ fun l => by rw [signedBytes_length, signedBytes_length]]
      simp only [zipWith_signedBytes, List.zipWith_map, List.zipWith_self]
      rfl

end Sys2Proof.Machine
end

section
/-! PROOF. The points of a distribution lane (R340, R341): a lane is its list of points padded with empty ones, and what sorting,
merging, conditioning and the cumulative sums do to the list. -/

namespace Sys2Proof.Machine

/-! Lanes and their points. -/

theorem ofFn_getD_append {α : Type} (d : α) (l : List α) :
    ∀ n, l.length ≤ n → List.ofFn (fun i : Fin n => l.getD i.val d) = l ++ List.replicate (n - l.length) d := by
  intro n hn
  refine List.ext_getElem (by simp; omega) fun i hi _ => ?_
  rw [List.getElem_ofFn, List.getD_eq_getElem?_getD, List.getElem_append]
  split
  next h => rw [List.getElem?_eq_getElem h, Option.getD_some]
  next h => rw [List.getElem?_eq_none (not_lt.mp h), Option.getD_none, List.getElem_replicate]

/-- A point of a lane, from its value and weight. -/
def Point.ofPair (p : W32 × Nat) : Point := { val := p.1, wt := BitVec.ofNat 16 p.2 }

theorem laneOf_getD (l : List (W32 × Nat)) : laneOf l = vecOf fun i => (l.map Point.ofPair).getD i.val Point.zero := by
  refine congrArg vecOf (funext fun i => ?_)
  rw [List.getD_eq_getElem?_getD, List.getElem?_map]
  cases l[i.val]? <;> rfl

theorem vecOf_toList {α : Type} {n : Nat} (f : Fin n → α) : (vecOf f).toList = List.ofFn f := by
  simp [vecOf]

/-- At most eight points make a lane of these points, their weights cut to 16 bits. -/
theorem ptsOf_laneOf_eq {l : List (W32 × Nat)} (hlen : l.length ≤ 8) :
    ptsOf (laneOf l) = (l.map fun p => (p.1, p.2 % 2 ^ 16)).filter fun p => p.2 != 0 := by
  have hpt : ((fun p : Point => (p.val, p.wt.toNat)) ∘ Point.ofPair) = fun p => (p.1, p.2 % 2 ^ 16) := rfl
  rw [ptsOf, laneOf_getD, vecOf_toList, ofFn_getD_append _ _ _ (by simpa), List.map_append, List.map_map, hpt, List.filter_append,
    List.map_replicate, List.filter_replicate]
  simp [Point.zero]

/-- At most eight points with weights of 16 bits come back from their lane. -/
theorem ptsOf_laneOf {l : List (W32 × Nat)} (hlen : l.length ≤ 8) (hwt : ∀ p ∈ l, p.2 ≠ 0 ∧ p.2 < 2 ^ 16) :
    ptsOf (laneOf l) = l := by
  have hmap : l.map (fun p => (p.1, p.2 % 2 ^ 16)) = l :=
    List.map_congr_left (g := id) (fun p hp => by rw [Nat.mod_eq_of_lt (hwt p hp).2]; rfl) |>.trans (List.map_id l)
  rw [ptsOf_laneOf_eq hlen, hmap, List.filter_eq_self]
  exact fun p hp => bne_iff_ne.mpr (hwt p hp).1

/-- The values of a lane are among those it was made of. -/
theorem mem_ptsOf_laneOf {l : List (W32 × Nat)} (hlen : l.length ≤ 8) {v : W32} {w : Nat} (h : (v, w) ∈ ptsOf (laneOf l)) :
    ∃ w', (v, w') ∈ l := by
  rw [ptsOf_laneOf_eq hlen] at h
  obtain ⟨p, hp, hpw⟩ := List.mem_map.mp (List.mem_of_mem_filter h)
  cases hpw
  exact ⟨p.2, hp⟩

@[simp] theorem ptsOf_voidLane : ptsOf voidLane = [] := by decide

/-- A lane that became void for an invalid operand. -/
theorem void_of_eq {x : DLane} {fl : Flags} (h : (x, fl) = (voidLane, fNV)) : ptsOf x = [] ∧ fl = fNV := by
  obtain ⟨rfl, rfl⟩ := Prod.mk.inj h
  exact ⟨ptsOf_voidLane, rfl⟩

theorem ptsOf_length_le (a : DLane) : (ptsOf a).length ≤ 8 :=
  (List.length_filter_le _ _).trans (by simp)

/-- A non-empty point has a weight of 16 bits that is not zero. -/
theorem ptsOf_weight {a : DLane} {p : W32 × Nat} (h : p ∈ ptsOf a) : p.2 ≠ 0 ∧ p.2 < 2 ^ 16 := by
  obtain ⟨hmem, hne⟩ := List.mem_filter.mp h
  obtain ⟨q, -, rfl⟩ := List.mem_map.mp hmem
  exact ⟨bne_iff_ne.mp hne, q.wt.isLt⟩

theorem sumW_eq_sum (l : List (W32 × Nat)) : sumW l = (l.map (·.2)).sum := List.sum_eq_foldl.symm

/-- Only no points at all weigh nothing, where none is empty. -/
theorem sumW_eq_zero_iff {l : List (W32 × Nat)} (h : ∀ p ∈ l, p.2 ≠ 0) : sumW l = 0 ↔ l = [] := by
  rw [sumW_eq_sum]
  cases l with
  | nil => simp
  | cons p l =>
    have := h p List.mem_cons_self
    simp [this]

theorem filter_weights_le (f : W32 × Nat → Bool) (l : List (W32 × Nat)) : ((l.filter f).map (·.2)).sum ≤ (l.map (·.2)).sum :=
  (List.filter_sublist.map _).sum_le_sum fun _ _ => Nat.zero_le _

/-! Sorting (R341). -/

/-- The total order of R341 on the points of a list. -/
abbrev InOrder (l : List (W32 × Nat)) : Prop := l.Pairwise fun p q => ordKey p.1 ≤ ordKey q.1

theorem insertPt_perm (p : W32 × Nat) (l : List (W32 × Nat)) : (insertPt p l).Perm (p :: l) := by
  induction l with
  | nil => exact .refl _
  | cons q l ih =>
    rw [insertPt]
    split
    · exact .refl _
    · exact (ih.cons q).trans (.swap p q l)

theorem insertPt_inOrder (p : W32 × Nat) {l : List (W32 × Nat)} (h : InOrder l) : InOrder (insertPt p l) := by
  induction l with
  | nil => exact List.pairwise_singleton _ _
  | cons q l ih =>
    obtain ⟨hq, hl⟩ := List.pairwise_cons.mp h
    rw [insertPt]
    split
    next hlt =>
      refine List.pairwise_cons.mpr ⟨fun r hr => ?_, h⟩
      rcases List.mem_cons.mp hr with rfl | hr
      · exact hlt.le
      · exact hlt.le.trans (hq r hr)
    next hge =>
      refine List.pairwise_cons.mpr ⟨fun r hr => ?_, ih hl⟩
      rcases List.mem_cons.mp ((insertPt_perm p l).mem_iff.mp hr) with rfl | hr
      · exact not_lt.mp hge
      · exact hq r hr

/-- Sorting puts the points in order, and keeps them. -/
theorem sortPts_spec (l : List (W32 × Nat)) : (sortPts l).Perm l ∧ InOrder (sortPts l) := by
  have key : ∀ l acc : List (W32 × Nat), InOrder acc →
      (l.foldl (fun acc p => insertPt p acc) acc).Perm (acc ++ l) ∧ InOrder (l.foldl (fun acc p => insertPt p acc) acc) := by
    intro l
    induction l with
    | nil => exact fun acc h => ⟨by simp, h⟩
    | cons p l ih =>
      intro acc h
      obtain ⟨hperm, hord⟩ := ih _ (insertPt_inOrder p h)
      exact ⟨hperm.trans (((insertPt_perm p acc).append_right l).trans List.perm_middle.symm), hord⟩
  exact key l [] .nil

/-! Merging (R341). -/

/-- Merging takes the points one at a time, from the last. -/
theorem mergeRuns_cons (p : W32 × Nat) (l : List (W32 × Nat)) :
    mergeRuns (p :: l) = p :: mergeRuns l ∨
      ∃ w r, mergeRuns l = (p.1, w) :: r ∧ mergeRuns (p :: l) = (p.1, p.2 + w) :: r := by
  rw [mergeRuns]
  split
  next h => exact .inl (by rw [h])
  next q r h =>
    by_cases hpq : p.1 = q.1
    · exact .inr ⟨q.2, r, by rw [h, hpq], if_pos hpq⟩
    · exact .inl (by rw [if_neg hpq, h])

theorem mergeRuns_values (l : List (W32 × Nat)) : ((mergeRuns l).map (·.1)).Sublist (l.map (·.1)) := by
  induction l with
  | nil => exact .slnil
  | cons p l ih =>
    rcases mergeRuns_cons p l with h | ⟨w, r, hl, h⟩
    · rw [h]
      exact ih.cons_cons p.1
    · rw [hl] at ih
      rw [h]
      exact ih.cons p.1

theorem mergeRuns_length_le (l : List (W32 × Nat)) : (mergeRuns l).length ≤ l.length := by
  simpa using (mergeRuns_values l).length_le

theorem mergeRuns_inOrder {l : List (W32 × Nat)} (h : InOrder l) : InOrder (mergeRuns l) := by
  have hvals : (l.map (·.1)).Pairwise fun x y => ordKey x ≤ ordKey y := List.pairwise_map.mpr h
  exact (List.pairwise_map (R := fun x y => ordKey x ≤ ordKey y)).mp (hvals.sublist (mergeRuns_values l))

theorem mergeRuns_sum (l : List (W32 × Nat)) : ((mergeRuns l).map (·.2)).sum = (l.map (·.2)).sum := by
  induction l with
  | nil => rfl
  | cons p l ih =>
    rcases mergeRuns_cons p l with h | ⟨w, r, hl, h⟩
    · rw [h, List.map_cons, List.sum_cons, ih, List.map_cons, List.sum_cons]
    · rw [hl] at ih
      rw [h, List.map_cons, List.sum_cons, List.map_cons, List.sum_cons, ← ih, List.map_cons, List.sum_cons, Nat.add_assoc]

theorem mergeRuns_weight {l : List (W32 × Nat)} (hl : ∀ p ∈ l, p.2 ≠ 0) : ∀ p ∈ mergeRuns l, p.2 ≠ 0 := by
  induction l with
  | nil => exact hl
  | cons p l ih =>
    obtain ⟨hp, htail⟩ := List.forall_mem_cons.mp hl
    have ih := ih htail
    rcases mergeRuns_cons p l with h | ⟨w, r, hr, h⟩
    · rw [h]
      exact List.forall_mem_cons.mpr ⟨hp, ih⟩
    · rw [hr] at ih
      rw [h]
      exact List.forall_mem_cons.mpr ⟨by simp [hp], (List.forall_mem_cons.mp ih).2⟩

/-! The lanes of the instructions. -/

/-- A point mass has its value and the whole weight at point 0, and no other point (R345). -/
theorem pointMass_spec (a : W32) : ((pointMass a).get 0).val = a ∧ ((pointMass a).get 0).wt = 0x8000 ∧
    ∀ i : Fin 8, i ≠ 0 → ((pointMass a).get i).wt = 0 := by
  refine ⟨rfl, rfl, fun i hi => ?_⟩
  have hset : (pointMass a).get i = (Vector.replicate 8 Point.zero).get i :=
    Vector.getElem_set_ne (by decide) i.isLt (Fin.val_ne_of_ne hi.symm)
  rw [hset]
  exact congrArg Point.wt (Vector.getElem_replicate i.isLt)

/-- Eight samples of weight 0x1000 are at most eight points, in order, of the whole weight (R346). -/
theorem smpLane_spec {vs : List W32} (hvs : vs.length = 8) :
    ((ptsOf (smpLane vs)).map (·.2)).sum = 0x8000 ∧ InOrder (ptsOf (smpLane vs)) ∧
      ∀ v w, (v, w) ∈ ptsOf (smpLane vs) → v ∈ vs := by
  obtain ⟨hperm, hord⟩ := sortPts_spec (vs.map fun v => (v, 0x1000))
  rw [smpLane]
  generalize sortPts (vs.map fun v => (v, 0x1000)) = l at hperm hord
  have hsum : ((mergeRuns l).map (·.2)).sum = 0x8000 := by
    rw [mergeRuns_sum, (hperm.map _).sum_eq]
    simp [Function.comp_def, hvs]
  have hne : ∀ p ∈ l, p.2 ≠ 0 := fun p hp => by
    obtain ⟨v, -, rfl⟩ := List.mem_map.mp (hperm.mem_iff.mp hp)
    exact Nat.succ_ne_zero _
  have hlt : ∀ p ∈ mergeRuns l, p.2 < 2 ^ 16 := fun p hp =>
    (List.le_sum_of_mem (List.mem_map_of_mem hp)).trans_lt (hsum ▸ by decide)
  have hlen : (mergeRuns l).length ≤ 8 := (mergeRuns_length_le l).trans (by rw [hperm.length_eq, List.length_map, hvs])
  rw [ptsOf_laneOf hlen fun p hp => ⟨mergeRuns_weight hne p hp, hlt p hp⟩]
  refine ⟨hsum, mergeRuns_inOrder hord, fun v w h => ?_⟩
  have hmem := (hperm.map _).mem_iff.mp ((mergeRuns_values l).subset (List.mem_map_of_mem h))
  simpa using hmem

theorem Num.bne_nan (x : Num) : (x != .nan) = !x.isNan := by
  cases x <;> rfl

/-- Below zero DAFF makes the lane void (R352). -/
theorem affLane_below_zero {a : DLane} {x y : W32} (hx : dec32 x ≠ .nan) (hneg : (dec32 x).cmp (.fin false 0 0) < 0) :
    affLane a x y = (voidLane, fNV) := by
  refine if_pos ?_
  split
  next h => exact absurd h hx
  next => exact decide_eq_true hneg

/-- Elsewhere it maps the points, and keeps their order where no new value is a NaN. -/
theorem affLane_points {a : DLane} {x y : W32} (hx : dec32 x = .nan ∨ 0 ≤ (dec32 x).cmp (.fin false 0 0))
    (hnum : ∀ p ∈ ptsOf a, dec32 (numFma (dec32 x) (dec32 p.1) (dec32 y)).1 ≠ .nan) :
    ptsOf (affLane a x y).1 = (ptsOf a).map fun p => ((numFma (dec32 x) (dec32 p.1) (dec32 y)).1, p.2) := by
  let pts := (ptsOf a).map fun p => ((numFma (dec32 x) (dec32 p.1) (dec32 y)).1, p.2)
  have hnan : ∀ p ∈ pts, (dec32 p.1).isNan = false := fun p hp => by
    obtain ⟨q, hq, rfl⟩ := List.mem_map.mp hp
    exact Num.isNan_eq_false.mpr (hnum q hq)
  have hlane : (affLane a x y).1 = laneOf (pts.filter (fun p => !(dec32 p.1).isNan) ++ pts.filter fun p => (dec32 p.1).isNan) := by
    rw [affLane, if_neg]
    · simp only [List.map_map]
      rfl
    · intro hlt
      split at hlt
      next => exact Bool.false_ne_true hlt
      next h => exact absurd (of_decide_eq_true hlt) (not_lt.mpr (hx.resolve_left h))
  have hkeep : pts.filter (fun p => !(dec32 p.1).isNan) = pts := List.filter_eq_self.mpr fun p hp => by rw [hnan p hp]; rfl
  have hdrop : pts.filter (fun p => (dec32 p.1).isNan) = [] := List.filter_eq_nil_iff.mpr fun p hp => by simp [hnan p hp]
  rw [hlane, hkeep, hdrop, List.append_nil]
  refine ptsOf_laneOf ((List.length_map _).trans_le (ptsOf_length_le a)) fun p hp => ?_
  obtain ⟨q, hq, rfl⟩ := List.mem_map.mp hp
  exact (ptsOf_weight hq :)

theorem mixLane_heavy {a b : DLane} {w : Nat} (h : 0x8000 < w) : mixLane a b w = (voidLane, fNV) := if_pos h

theorem mixLane_eq {a b : DLane} {w : Nat} (h : w ≤ 0x8000) : mixLane a b w =
    condense ((ptsOf a).map (fun p => (p.1, round15 (w * p.2))) ++ (ptsOf b).map fun p => (p.1, round15 ((0x8000 - w) * p.2))) :=
  if_neg h.not_gt

/-- The points between the bounds (R354). -/
def keptPts (a : DLane) (lo hi : Num) : List (W32 × Nat) :=
  (ptsOf a).filter fun p => dec32 p.1 != .nan && lo.cmp (dec32 p.1) ≤ 0 && (dec32 p.1).cmp hi ≤ 0

theorem restore_values (l : List (W32 × Nat)) : (restore l).map (·.1) = l.map (·.1) := by
  have hval : ∀ p : (W32 × Nat) × Nat, (if p.2 = heaviest l then (p.1.1, p.1.2 + 0x8000 - sumW l) else p.1).1 = p.1.1 :=
    fun p => by split <;> rfl
  simp only [restore, List.map_map, Function.comp_def, hval]
  exact (List.map_map (f := Prod.fst) (g := Prod.fst)).symm.trans (by rw [List.zipIdx_map_fst])

/-- A kept weight `w` of the sum `t` scaled to the whole, to nearest, ties to even (R354). -/
def condWeight (t w : Nat) : Nat :=
  let q := w * 0x8000 / t
  let r := w * 0x8000 % t
  if t < 2 * r || (t = 2 * r && q % 2 = 1) then q + 1 else q

/-- DCND makes the lane void where a bound is a NaN or no point stands between them, and elsewhere keeps these points with new
weights. -/
theorem cndLane_eq (a : DLane) (lo hi : W32) : cndLane a lo hi =
    let k := keptPts a (dec32 lo) (dec32 hi)
    if dec32 lo = .nan ∨ dec32 hi = .nan ∨ k = [] then (voidLane, fNV)
    else (laneOf (restore (k.map fun p => (p.1, condWeight (sumW k) p.2))), 0) := by
  have hkept : ((ptsOf a).filter fun p => !(dec32 p.1).isNan && (dec32 lo).cmp (dec32 p.1) ≤ 0 && (dec32 p.1).cmp (dec32 hi) ≤ 0) =
      keptPts a (dec32 lo) (dec32 hi) := by
    simp only [keptPts, Num.bne_nan]
  have hzero : sumW (keptPts a (dec32 lo) (dec32 hi)) = 0 ↔ keptPts a (dec32 lo) (dec32 hi) = [] :=
    sumW_eq_zero_iff fun p hp => (ptsOf_weight (List.mem_of_mem_filter hp)).1
  simp only [cndLane, condWeight, hkept, hzero, Bool.or_eq_true, Num.isNan_iff, ← or_assoc]
  split
  next h => rw [if_pos (.inl h)]
  next h => simp only [h, false_or]

theorem cndLane_void {a : DLane} {lo hi : W32} (h : dec32 lo = .nan ∨ dec32 hi = .nan ∨ keptPts a (dec32 lo) (dec32 hi) = []) :
    cndLane a lo hi = (voidLane, fNV) := by
  rw [cndLane_eq]
  exact if_pos h

theorem cndLane_kept {a : DLane} {lo hi : W32} (h : ¬(dec32 lo = .nan ∨ dec32 hi = .nan ∨ keptPts a (dec32 lo) (dec32 hi) = [])) :
    (cndLane a lo hi).2 = 0 ∧
      ∀ v w, (v, w) ∈ ptsOf (cndLane a lo hi).1 → ∃ w', (v, w') ∈ keptPts a (dec32 lo) (dec32 hi) := by
  have hlen8 : (keptPts a (dec32 lo) (dec32 hi)).length ≤ 8 := (List.length_filter_le _ _).trans (ptsOf_length_le a)
  rw [cndLane_eq]
  simp only [if_neg h, true_and]
  generalize keptPts a (dec32 lo) (dec32 hi) = k at hlen8
  intro v w hv
  have hvals := restore_values (k.map fun p => (p.1, condWeight (sumW k) p.2))
  rw [List.map_map] at hvals
  have hlen := congrArg List.length hvals
  rw [List.length_map, List.length_map] at hlen
  obtain ⟨w', hw'⟩ := mem_ptsOf_laneOf (hlen.trans_le hlen8) hv
  have hmem := List.mem_map_of_mem (f := Prod.fst) hw'
  rw [hvals] at hmem
  obtain ⟨p, hp, rfl⟩ := List.mem_map.mp hmem
  exact ⟨p.2, hp⟩

/-- The first point whose cumulative weight reaches `p` (R356). -/
theorem reach_append {p : Nat} {v : W32} {w : Nat} {post : List (W32 × Nat)} : ∀ {pre : List (W32 × Nat)} {c : Nat},
    p ≤ c + (pre.map (·.2)).sum + w → (pre = [] ∨ c + (pre.map (·.2)).sum < p) →
      reach p c (pre ++ (v, w) :: post) = some v
  | [], c, hp, _ => if_pos hp
  | q :: pre, c, hp, hpre => by
    have hlt := hpre.resolve_left (List.cons_ne_nil q pre)
    rw [List.map_cons, List.sum_cons, ← Nat.add_assoc] at hp hlt
    exact (if_neg (by omega)).trans (reach_append hp (.inr hlt))

theorem qntLane_invalid {a : DLane} {p : Nat} (h : 0x8000 < p ∨ ptsOf a = []) : qntLane a p = (nan32, fNV) := by
  rw [qntLane]
  split
  next => rfl
  next hp => rw [h.resolve_left hp, reach]

theorem qntLane_reach {a : DLane} {p : Nat} (hp : p ≤ 0x8000) {v : W32} (h : reach p 0 (ptsOf a) = some v) :
    qntLane a p = (v, 0) := by
  rw [qntLane, if_neg hp.not_gt, h]

theorem cdfLane_invalid {a : DLane} {x : W32} (h : dec32 x = .nan ∨ ptsOf a = []) : cdfLane a x = (0, fNV) := by
  refine if_pos ?_
  simpa [Num.isNan_iff] using h

theorem cdfLane_eq {a : DLane} {x : W32} (hx : dec32 x ≠ .nan) (ha : ptsOf a ≠ []) : cdfLane a x =
    (BitVec.ofNat 32 (((ptsOf a).filter fun p => dec32 p.1 != .nan && (dec32 p.1).cmp (dec32 x) ≤ 0).map (·.2)).sum, 0) := by
  simp only [Num.bne_nan, ← sumW_eq_sum]
  exact if_neg (by simpa [Num.isNan_iff] using ⟨hx, ha⟩)

end Sys2Proof.Machine
end

section
/-! PROOF. An FP32 value is its own rounding (R66, R72), and the moments of a point mass and of a void lane (R355). -/

namespace Sys2Proof.Machine

/-! Rounding an FP32 value. -/

/-- A finite pattern from its fields: below 2^23 the mantissa is that of a zero or a subnormal value. -/
theorem fp32_decode_fin {b : Nat} (hb : b < 2 ^ 32) {s : Bool} {m : Nat} {e : Int} (h : fp32.decode b = .fin s m e) :
    (m < 2 ^ 23 ∧ e = -149 ∧ b = fp32.signBit s + m) ∨
      (2 ^ 23 ≤ m ∧ m < 2 ^ 24 ∧ -149 ≤ e ∧ e ≤ 104 ∧ b = fp32.signBit s + (e + 150).toNat * 2 ^ 23 + (m - 2 ^ 23)) := by
  have hsign : ∀ n, n < 2 → fp32.signBit (n == 1) = n * 2 ^ 31 := by decide
  have hs := hsign (b / 2 ^ 31 % 2) (Nat.mod_lt _ two_pos)
  rw [fp32_decode] at h
  split at h
  · split at h <;> cases h
  · split at h
    all_goals
      cases h
      rw [hs]
      omega

/-- A multiple of 2^q is its own multiple, however many zero bits its mantissa ends in. -/
theorem roundAt_near_shift (m : Nat) {e q : Int} (h : q ≤ e) (k : Nat) :
    roundAt .near (m * 2 ^ k) (e - k) false q = roundAt .near m e false q := by
  rw [roundAt_exact .near m h]
  rcases le_or_gt q (e - k) with hq | hq
  · rw [roundAt_exact _ _ hq, mul_assoc, ← pow_add]
    congr 3
    omega
  · have hpow : m * 2 ^ k = m * 2 ^ (e - q).toNat * 2 ^ (q - (e - k)).toNat := by
      rw [mul_assoc, ← pow_add]
      congr 2
      omega
    have hpos : 0 < 2 ^ (q - (e - k)).toNat := by positivity
    have hhalf : 0 < 2 ^ ((q - (e - k)).toNat - 1) := by positivity
    simp [roundAt, hq.not_ge, hpow, Nat.mul_div_cancel _ hpos, hhalf.ne]

theorem log2_mul_two_pow {m : Nat} (hm : m ≠ 0) (k : Nat) : (m * 2 ^ k).log2 = m.log2 + k := by
  rw [Nat.log2_eq_iff (by positivity), pow_add, add_right_comm, pow_add _ _ k]
  exact ⟨Nat.mul_le_mul_right _ (Nat.log2_self_le hm), Nat.mul_lt_mul_of_pos_right Nat.lt_log2_self (by positivity)⟩

/-- Rounding does not depend on how many zero bits the mantissa ends in. -/
theorem fp32_round_shift (s : Bool) {m : Nat} (hm : m < 2 ^ 24) {e : Int} (he : -149 ≤ e) (k : Nat) :
    fp32.round .near false { neg := s, m := m * 2 ^ k, e := e - k, sticky := false } =
      fp32.round .near false { neg := s, m := m, e := e, sticky := false } := by
  rcases eq_or_ne m 0 with rfl | h0
  · simp [FF.round]
  · have hlog := log2_le_23 h0 hm
    have hmw : (fp32.mw : Int) = 23 := rfl
    have hemin : fp32.emin = -126 := rfl
    have htop : e - k + ((m * 2 ^ k).log2 : Int) = e + m.log2 := by
      rw [log2_mul_two_pow h0]
      omega
    have hne : m * 2 ^ k ≠ 0 := by positivity
    have hU := roundAt_near_shift m (e := e) (q := e + m.log2 - 23) (by omega) k
    have hq := roundAt_near_shift m (e := e) (q := max (e + m.log2 - 23) (-126 - 23)) (by omega) k
    simp only [FF.round, hne, h0, hmw, hemin, htop, hU, hq, decide_false, Bool.false_and, if_false]

/-- A subnormal value is its own rounding. -/
theorem fp32_round_subnormal (s : Bool) {m : Nat} (hm : m < 2 ^ 23) :
    fp32.round .near false { neg := s, m := m, e := -149, sticky := false } = (fp32.signBit s + m, 0) := by
  rcases eq_or_ne m 0 with rfl | h0
  · rfl
  · have hlog : m.log2 < 23 := (Nat.log2_lt h0).mpr hm
    obtain ⟨-, hhigh⟩ := normalized_bounds h0 (by omega)
    have hmw : (fp32.mw : Int) = 23 := rfl
    have hemin : fp32.emin = -126 := rfl
    have hU : roundAt .near m (-149) false (-149 + m.log2 - 23) = (m * 2 ^ (23 - m.log2), false) := by
      rw [roundAt_exact _ _ (by omega), show (-149 - (-149 + (m.log2 : Int) - 23)).toNat = 23 - m.log2 by omega]
    have hmax : max (-149 + (m.log2 : Int) - 23) (-126 - 23) = -149 := by omega
    have hexact : roundAt .near m (-149) false (-149) = (m, false) := by simp [roundAt]
    have hover : fp32.over (m * 2 ^ (23 - m.log2)) (-149 + m.log2 - 23) = false := fp32_not_over hhigh (by omega)
    have hpack : fp32.pack s m (-149) = fp32.signBit s + m := if_pos hm
    simp only [FF.round, h0, hmw, hemin, hU, hmax, hexact, hover, hpack, decide_false, Bool.false_and, Bool.and_false,
      Bool.false_eq_true, if_false]
    rfl

/-- A finite FP32 value is its own rounding. -/
theorem fp32_round_decode {b : Nat} (hb : b < 2 ^ 32) {s : Bool} {m : Nat} {e : Int} (h : fp32.decode b = .fin s m e) :
    fp32.round .near false { neg := s, m := m, e := e, sticky := false } = (b, 0) := by
  rcases fp32_decode_fin hb h with ⟨hm, rfl, hbits⟩ | ⟨hm, hm', he, he', hbits⟩
  · rw [hbits]
    exact fp32_round_subnormal s hm
  · have hlog : m.log2 = 23 := (Nat.log2_eq_iff (by omega)).mpr ⟨hm, by omega⟩
    have hexp : e + ((23 : Nat) : Int) + 127 = e + 150 := by omega
    rw [fp32_round_normal s (by omega) hm' (by omega) (by omega), hlog, hexp, Nat.sub_self, pow_zero, mul_one, hbits]

/-- One times a finite value, one written as 2^k × 2^−k, is that value. -/
theorem numMul_one {v : W32} (hv : finite32 v) (k : Nat) : numMul (dec32 v) (.fin false (2 ^ k) (-k)) = (v, 0) := by
  obtain ⟨s, m, e, h⟩ := hv
  obtain ⟨hm, he, -⟩ := dec32_fin_range h
  have hround := (fp32_round_shift s hm he k).trans (fp32_round_decode v.isLt h)
  rw [h]
  simp [numMul, fin32, rnd32, Num.mul, FF.ofNum, ← sub_eq_add_neg, hround]

/-- A finite value less itself is +0. -/
theorem numSub_self {v : W32} (hv : finite32 v) : numSub (dec32 v) (dec32 v) = (0, 0) := by
  obtain ⟨s, m, e, h⟩ := hv
  rw [h]
  have hz : scaled s m e e + scaled (!s) m e e = 0 := by cases s <;> simp [scaled]
  simp [numSub, fin32, rnd32, Num.neg, Num.add, hz, FF.ofNum, FF.round, FF.signBit]

/-! Moments. -/

theorem momLane_void {a : DLane} (h : ptsOf a = []) : momLane a = ([nan32, nan32, nan32, nan32], fNV) := by
  rw [momLane, h]
  rfl

/-- A point mass has its value as mean, and no spread. -/
theorem momLane_point {a : DLane} {v : W32} (h : ptsOf a = [(v, 0x8000)]) (hv : finite32 v) : momLane a = ([v, 0, 0, 0], 0) := by
  have hmean : numMul (dec32 v) (.fin false 0x8000 (-15)) = (v, 0) := numMul_one hv 15
  have hzero : numMul (dec32 0) (dec32 0) = (0, 0) := by decide
  have hweight : numMul (dec32 0) (.fin false 0x8000 (-15)) = (0, 0) := by decide
  simp only [momLane, h, sumRnd, List.isEmpty_cons, Bool.false_eq_true, if_false, List.map_cons, List.map_nil, List.foldl_cons,
    List.foldl_nil, hmean, numSub_self hv, hzero, hweight]
  rfl

theorem val32_zero : val32 0 = 0 := by
  simp [val32, dec32, fp32_decode, Num.val]

end Sys2Proof.Machine
end

section
/-! PROOF. The distribution instructions of the facets (R345 to R347, R352 to R357): each writes one function of what its facet reads,
lane by lane, and DSET and DTAG also step the tag generator of each facet (R336, R342). -/

namespace Sys2Proof.Machine

/-! Results of distribution instructions. -/

theorem flagsOf_zero (m : BitVec 16) : flagsOf m (fun _ => 0) = 0 := by
  simp [flagsOf]

theorem dfly_eq (s : State) (k d : Fin 8) (lat : Nat) (m : BitVec 16) (r : Fin 16 → DLane × Flags) (mask : BitVec 16)
    (aligned : Bool) : s.dfly k d lat m r mask aligned =
      s.withDist k d lat m { lanes := vecOf fun l => (r l).1, mask := mask, aligned := aligned } (flagsOf m fun l => (r l).2) := by
  rw [← laneFlags_vecOf]
  rfl

namespace State.SameReads

variable {s s' : State}

theorem withDist (h : s.SameReads s') (k d : Fin 8) (lat : Nat) (m : BitVec 16) (x : DReg) (fl : Flags) :
    s.SameReads (s'.withDist k d lat m x fl) := by
  rw [State.withDist]
  split
  · exact h.withWrite ..
  · exact (h.withWrite ..).withWrite ..

theorem dreg (h : s.SameReads s') (k i : Fin 8) (n : Nat) : s'.dreg k i n = s.dreg k i n := by
  rw [State.dreg, State.dreg, State.dBusy, State.dBusy, h.inFlight, h.facet, State.freeD, State.freeD, h.fv]

end State.SameReads

/-- What a distribution syllable makes in one facet: its lanes with their flags, its tag mask and its aligned bit. -/
structure DistResult where
  lane : Fin 16 → DLane × Flags
  mask : BitVec 16
  aligned : Bool

/-- A syllable that writes one distribution register of each facet yields the function of its sources that it applies. -/
theorem yieldsDist {i : Instr} {s : State} (hs : s.runs) {q d : Fin 8} {lat : Nat} (f : Fin 8 → State → DistResult)
    (hi : exec i s = s.facets q fun k m s' => s'.dfly k d lat m (f k s').lane (f k s').mask (f k s').aligned)
    (hf : ∀ k s', s.SameReads s' → f k s' = f k s) {r : Fin 8 → Fin 16 → DLane → Flags → Prop}
    (hr : ∀ k l, r k l ((f k s).lane l).1 ((f k s).lane l).2) :
    YieldsDist i s q d lat (fun k => (f k s).mask) (fun k => (f k s).aligned) r := by
  refine ⟨fun k => vecOf fun l => ((f k s).lane l).1, fun k l => ((f k s).lane l).2, hi.trans ?_, fun k l => ?_⟩
  · refine facets_eq hs q _ _ (fun k s' h => ?_) fun k s' h => h.withDist ..
    rw [hf k s' h, dfly_eq]
  · rw [vecOf_get]
    exact hr k l

theorem YieldsDist.mono {i : Instr} {s : State} {q d : Fin 8} {lat : Nat} {mask : Fin 8 → BitVec 16} {aligned : Fin 8 → Bool}
    {r r' : Fin 8 → Fin 16 → DLane → Flags → Prop} (h : YieldsDist i s q d lat mask aligned r)
    (hr : ∀ k l x fl, r k l x fl → r' k l x fl) : YieldsDist i s q d lat mask aligned r' := by
  obtain ⟨x, g, hi, hx⟩ := h
  exact ⟨x, g, hi, fun k l => hr k l _ _ (hx k l)⟩

theorem YieldsLanes.mono {i : Instr} {s : State} {q : Fin 8} {d : VReg} {lat : Nat} {r r' : Fin 8 → Fin 16 → W32 → Flags → Prop}
    (h : YieldsLanes i s q d lat r) (hr : ∀ k l x fl, r k l x fl → r' k l x fl) : YieldsLanes i s q d lat r' := by
  obtain ⟨x, g, hi, hx⟩ := h
  exact ⟨x, g, hi, fun k l => hr k l _ _ (hx k l)⟩

/-! Fresh tags. -/

/-- A distribution syllable with a fresh tag reads the same of `s'` as of `s` in facet `k`, whose generator has not stepped. -/
structure State.SameReadsAt (s s' : State) (k : Fin 8) : Prop where
  fv : s'.fv = s.fv
  bidx : s'.t.bidx = s.t.bidx
  fac : s'.t.fac.get k = s.t.fac.get k
  inFlight : ∀ d, s'.t.inFlight d = s.t.inFlight d

namespace State.SameReadsAt

variable {s s' : State} {k : Fin 8}

theorem refl (s : State) (k : Fin 8) : s.SameReadsAt s k := ⟨rfl, rfl, rfl, fun _ => rfl⟩

theorem withWrite (h : s.SameReadsAt s' k) (d : FDst) (lat : Nat) (v : FVal) (o : Origin) :
    s.SameReadsAt (s'.withWrite d lat v o) k :=
  ⟨h.fv, h.bidx, h.fac, fun d' => (s'.withWrite_inFlight d d' lat v o).trans (h.inFlight d')⟩

theorem withDist (h : s.SameReadsAt s' k) (j d : Fin 8) (lat : Nat) (m : BitVec 16) (x : DReg) (fl : Flags) :
    s.SameReadsAt (s'.withDist j d lat m x fl) k := by
  rw [State.withDist]
  split
  · exact h.withWrite ..
  · exact (h.withWrite ..).withWrite ..

theorem stepTag (h : s.SameReadsAt s' k) {j : Fin 8} (hj : j ≠ k) : s.SameReadsAt (s'.stepTag j) k := by
  have hset : (s'.stepTag j).t.fac.get k = s'.t.fac.get k := Vector.getElem_set_ne j.isLt k.isLt (Fin.val_ne_of_ne hj)
  exact ⟨h.fv, h.bidx, hset.trans h.fac, h.inFlight⟩

theorem early (h : s.SameReadsAt s' k) : s'.early = s.early := by
  funext fl n
  rw [State.early, State.early, h.fv]

theorem vreg (h : s.SameReadsAt s' k) (r : VReg) (n : Nat) : s'.vreg k r n = s.vreg k r n := by
  cases r with
  | bf i => rw [State.vreg, State.vreg, Task.facet, Task.facet, h.fac, h.bidx]
  | v i => rw [State.vreg, State.vreg, Task.facet, Task.facet, h.fac, h.inFlight, h.early]

theorem fsrcF (h : s.SameReadsAt s' k) (ix : Option W32) (n : Nat) (x : FSrc) : s'.fsrcF k ix n x = s.fsrcF k ix n x := by
  cases x with
  | r r => exact h.vreg r n
  | zero | ext | imm v => rfl

theorem qreg (h : s.SameReadsAt s' k) (n : Fin 8) (j : Nat) : s'.qreg k n j = s.qreg k n j := by
  rw [State.qreg, State.qreg, Task.facet, Task.facet, h.fac, h.inFlight, h.early]

end State.SameReadsAt

/-- Steps that each change nothing the later ones read may read from the start. -/
theorem foldl_congr_of_nodup {α β : Type} (R : α → β → Prop) {f g : β → α → β} (hfg : ∀ k b, R k b → f b k = g b k)
    (hR : ∀ j k b, j ≠ k → R k b → R k (g b j)) :
    ∀ {l : List α}, l.Nodup → ∀ {b : β}, (∀ k ∈ l, R k b) → l.foldl f b = l.foldl g b
  | [], _, _, _ => rfl
  | j :: l, hl, b, hb => by
    obtain ⟨hj, hl⟩ := List.nodup_cons.mp hl
    obtain ⟨hbj, hbl⟩ := List.forall_mem_cons.mp hb
    rw [List.foldl_cons, List.foldl_cons, hfg j b hbj]
    exact foldl_congr_of_nodup R hfg hR hl fun k hk => hR j k b (fun h => hj (h ▸ hk)) (hbl k hk)

/-- A facet of a syllable with a fresh tag: it makes lanes without flags, in the lanes of `m`. -/
def State.tagged (s : State) (k d : Fin 8) (lat : Nat) (m : BitVec 16) (x : Fin 16 → DLane) : State :=
  (s.stepTag k).withDist k d lat m
    { lanes := vecOf x, mask := BitVec.ofNat 16 (2 ^ (s.t.fac.get k).tag.toNat), aligned := true } 0

theorem State.freshTag_eq (s : State) (k : Fin 8) :
    s.freshTag k = (BitVec.ofNat 16 (2 ^ (s.t.fac.get k).tag.toNat), s.stepTag k) := by
  have hone : (1 : BitVec 16) <<< (s.t.fac.get k).tag.toNat = BitVec.ofNat 16 (2 ^ (s.t.fac.get k).tag.toNat) := by
    apply BitVec.eq_of_toNat_eq
    simp [Nat.shiftLeft_eq]
  exact Prod.ext hone rfl

theorem dfly_freshTag (s : State) (k d : Fin 8) (lat : Nat) (m : BitVec 16) (x : Fin 16 → DLane) :
    (s.freshTag k).2.dfly k d lat m (fun l => (x l, 0)) (s.freshTag k).1 true = s.tagged k d lat m x := by
  rw [State.freshTag_eq, dfly_eq, flagsOf_zero]
  rfl

/-- Each facet of a syllable with fresh tags reads the registers and its generator as the bundle found them: no facet stands twice
in the syllable. `en` gives the lanes it writes from its guard mask. -/
theorem exec_freshTag {i : Instr} {s : State} (hs : s.runs) (hnodup : s.t.latch.facets.Nodup) (q : Fin 8) {d : Fin 8} {lat : Nat}
    (en : BitVec 16 → BitVec 16) (f : Fin 8 → State → Fin 16 → DLane)
    (hi : exec i s = s.facets q fun k m s' =>
      (s'.freshTag k).2.dfly k d lat (en m) (fun l => (f k s' l, 0)) (s'.freshTag k).1 true)
    (hf : ∀ k s', s.SameReadsAt s' k → f k s' = f k s) :
    exec i s = .next (s.eachFacet fun k s' => (s'.stepTag k).withDist k d lat (en (s.qreg k q 7))
      { lanes := vecOf (f k s), mask := BitVec.ofNat 16 (2 ^ (s.t.fac.get k).tag.toNat), aligned := true } 0) := by
  have hruns : exec i s = .next (s.eachFacet fun k s' => s'.tagged k d lat (en (s'.qreg k q 7)) (f k s')) :=
    hi.trans (congrArg _ (seqAll_goes State.runs (fun s' h => (State.SameReads.refl s').stopRank h) _ _
      (fun k s' _ => dfly_freshTag ..) (fun k s' h => h) _ s hs))
  rw [hruns]
  refine congrArg _ (foldl_congr_of_nodup (fun k s' => s.SameReadsAt s' k) (fun k s' h => ?_)
    (fun j k s' hj h => (h.stepTag hj).withDist ..) hnodup fun k _ => .refl s k)
  simp only [State.tagged, h.qreg, hf k s' h, h.fac]

/-! Samples (R346). -/

/-- The eight samples of a lane. -/
def State.samples (s : State) (k : Fin 8) (n : Fin 25) (l : Fin 16) : List W32 :=
  (List.range 8).map fun j => (s.vreg k (.v (Fin.ofNat 32 (n.val + j))) j).get l

theorem State.samples_length (s : State) (k : Fin 8) (n : Fin 25) (l : Fin 16) : (s.samples k n l).length = 8 := by
  simp [State.samples]

theorem yieldsDist_dsmp (o : ODsmp) (s : State) (hs : s.runs) : YieldsDist (.dsmp o) s o.q o.d 8 (fun _ => 0) (fun _ => false)
    fun k l x fl => (x, fl) = (smpLane (s.samples k o.n l), 0) := by
  refine yieldsDist hs (fun k s' => { lane := fun l => (smpLane (((List.range 8).map fun j =>
    s'.vreg k (.v (Fin.ofNat 32 (o.n.val + j))) j).map fun v => v.get l), 0), mask := 0, aligned := false }) rfl
    (fun k s' h => ?_) fun k l => ?_
  · simp only [h.vreg]
  · exact congrArg (fun vs => (smpLane vs, 0)) List.map_map

/-! Maps and mixtures (R352 to R354). -/

/-- The second source of a mixture: a register named twice is read once. -/
def State.dregPair (s : State) (k a b : Fin 8) : DReg := if a = b then s.dreg k a 0 else s.dreg k b 1

theorem State.SameReads.dregPair {s s' : State} (h : s.SameReads s') (k a b : Fin 8) : s'.dregPair k a b = s.dregPair k a b := by
  rw [State.dregPair, State.dregPair, h.dreg, h.dreg]

theorem yieldsDist_daff (o : ODaff) (s : State) (hs : s.runs) : YieldsDist (.daff o) s o.q o.d 4 (fun k => (s.dreg k o.a 0).mask)
    (fun k => (s.dreg k o.a 0).aligned) fun k l x fl =>
      (x, fl) = affLane ((s.dreg k o.a 0).lanes.get l) ((s.fsrcF k o.ix 0 o.va).get l) ((s.fsrcF k o.ix 1 o.vb).get l) := by
  refine yieldsDist hs (fun k s' => {
      lane := fun l => affLane ((s'.dreg k o.a 0).lanes.get l) ((s'.fsrcF k o.ix 0 o.va).get l) ((s'.fsrcF k o.ix 1 o.vb).get l)
      mask := (s'.dreg k o.a 0).mask, aligned := (s'.dreg k o.a 0).aligned }) rfl (fun k s' h => ?_) fun k l => rfl
  rw [h.dreg, h.fsrcF, h.fsrcF]

theorem yieldsDist_dmix (o : ODmix) (s : State) (hs : s.runs) : YieldsDist (.dmix o) s o.q o.d 12
    (fun k => (s.dreg k o.a 0).mask ||| (s.dregPair k o.a o.b).mask) (fun _ => false) fun k l x fl =>
      (x, fl) = mixLane ((s.dreg k o.a 0).lanes.get l) ((s.dregPair k o.a o.b).lanes.get l)
        (((s.fsrcI k o.ix 0 o.w).get l).toNat % 65536) := by
  refine yieldsDist hs (fun k s' => {
      lane := fun l => mixLane ((s'.dreg k o.a 0).lanes.get l) ((s'.dregPair k o.a o.b).lanes.get l)
        (((s'.fsrcI k o.ix 0 o.w).get l).toNat % 65536)
      mask := (s'.dreg k o.a 0).mask ||| (s'.dregPair k o.a o.b).mask, aligned := false }) rfl (fun k s' h => ?_) fun k l => rfl
  rw [h.dreg, h.dregPair, h.fsrcI]

theorem yieldsDist_dcnd (o : ODaff) (s : State) (hs : s.runs) : YieldsDist (.dcnd o) s o.q o.d 8 (fun k => (s.dreg k o.a 0).mask)
    (fun _ => false) fun k l x fl =>
      (x, fl) = cndLane ((s.dreg k o.a 0).lanes.get l) ((s.fsrcF k o.ix 0 o.va).get l) ((s.fsrcF k o.ix 1 o.vb).get l) := by
  refine yieldsDist hs (fun k s' => {
      lane := fun l => cndLane ((s'.dreg k o.a 0).lanes.get l) ((s'.fsrcF k o.ix 0 o.va).get l) ((s'.fsrcF k o.ix 1 o.vb).get l)
      mask := (s'.dreg k o.a 0).mask, aligned := false }) rfl (fun k s' h => ?_) fun k l => rfl
  rw [h.dreg, h.fsrcF, h.fsrcF]

/-! Moments, quantiles and cumulative weights (R355 to R357). -/

/-- The four writes of DMOM in one facet. -/
def State.withMoments (s : State) (k : Fin 8) (d : Fin 29) (m : BitVec 16) (x : Fin 4 → Lanes) : State :=
  (List.finRange 4).foldl (fun s n => s.withWrite (.v k (.v (Fin.ofNat 32 (d.val + n.val)))) 8 (.lanes m (x n)) Origin.dat) s

theorem withMoments_eq (s : State) (k : Fin 8) (d : Fin 29) (m : BitVec 16) (x : Nat → Lanes) :
    s.withMoments k d m (fun n => x n) = (List.range 4).foldl (fun s n =>
      s.fly (.v k (.v (Fin.ofNat 32 (d.val + n)))) 8 (.lanes m (x n)) Origin.dat) s := by
  rw [State.withMoments, ← List.map_coe_finRange_eq_range, List.foldl_map]
  rfl

theorem State.SameReads.withMoments {s s' : State} (h : s.SameReads s') (k : Fin 8) (d : Fin 29) (m : BitVec 16)
    (x : Fin 4 → Lanes) : s.SameReads (s'.withMoments k d m x) :=
  List.foldlRecOn (motive := s.SameReads) _ _ h fun _ h _ _ => h.withWrite ..

theorem State.SameReads.fsrFly {s s' : State} (h : s.SameReads s') (k : Fin 8) (lat : Nat) (fl : Flags) :
    s.SameReads (s'.fsrFly k lat fl) := by
  rw [State.fsrFly]
  split
  · exact h
  · exact h.withWrite ..

/-- The moments of a lane, and their flags. -/
def State.moments (s : State) (o : ODmom) (k : Fin 8) (l : Fin 16) : List W32 × Flags := momLane ((s.dreg k o.a 0).lanes.get l)

theorem exec_dmom (o : ODmom) (s : State) (hs : s.runs) : exec (.dmom o) s = .next (s.eachFacet fun k s' =>
    (s'.withMoments k o.vd (s.qreg k o.q 7) fun n => vecOf fun l => (s.moments o k l).1.getD n.val 0).fsrFly k 8
      (flagsOf (s.qreg k o.q 7) fun l => (s.moments o k l).2)) := by
  change execDmom o s = _
  rw [execDmom]
  refine facets_eq hs o.q _ _ (fun k s' h => ?_) fun k s' h => (h.withMoments ..).fsrFly ..
  rw [h.dreg, withMoments_eq s' k o.vd _ fun n => vecOf fun l => (s.moments o k l).1.getD n 0, ← laneFlags_vecOf]
  rfl

theorem yieldsLanes_dqnt (o : ODqnt) (s : State) (hs : s.runs) : YieldsLanes (.dqnt o) s o.q o.vd 5 fun k l x fl =>
    (x, fl) = qntLane ((s.dreg k o.a 0).lanes.get l) (((s.fsrcI k o.ix 0 o.b).get l).toNat % 65536) := by
  refine yieldsLanes hs (fun k s' l => qntLane ((s'.dreg k o.a 0).lanes.get l) (((s'.fsrcI k o.ix 0 o.b).get l).toNat % 65536)) rfl
    (fun k s' h => ?_) fun k l => rfl
  rw [h.dreg, h.fsrcI]

theorem yieldsLanes_dcdf (o : ODqnt) (s : State) (hs : s.runs) : YieldsLanes (.dcdf o) s o.q o.vd 5 fun k l x fl =>
    (x, fl) = cdfLane ((s.dreg k o.a 0).lanes.get l) ((s.fsrcF k o.ix 0 o.b).get l) := by
  refine yieldsLanes hs (fun k s' l => cdfLane ((s'.dreg k o.a 0).lanes.get l) ((s'.fsrcF k o.ix 0 o.b).get l)) rfl
    (fun k s' h => ?_) fun k l => rfl
  rw [h.dreg, h.fsrcF]

/-! The statements. -/

/-- Settles O35: DSET and DTAG write with fresh tags (`exec_freshTag`), DSET a point mass in each enabled lane, and the lanes of DSMP
are those of `smpLane_spec`. -/
theorem distMakes : Obligations.DistMakes := by
  refine ⟨fun o s hs hnodup => ⟨fun k => vecOf fun l => pointMass ((s.fsrcF k o.ix 0 o.a).get l), ?dset, fun k l => ?point⟩,
    fun o s hs hnodup => ⟨fun _ => vecOf fun _ => voidLane, ?dtag⟩, fun o s hs => ?dsmp⟩
  case dset =>
    refine exec_freshTag hs hnodup o.q id (fun k s' l => pointMass ((s'.fsrcF k o.ix 0 o.a).get l)) rfl fun k s' h => ?_
    rw [h.fsrcF]
  case point =>
    rw [vecOf_get]
    exact pointMass_spec _
  case dtag => exact exec_freshTag hs hnodup o.q (fun _ => 0) (fun _ _ _ => voidLane) rfl fun _ _ _ => rfl
  case dsmp =>
    refine (yieldsDist_dsmp o s hs).mono fun k l x fl h => ?_
    obtain ⟨rfl, rfl⟩ := Prod.mk.inj h
    obtain ⟨hsum, hord, hmem⟩ := smpLane_spec (s.samples_length k o.n l)
    exact ⟨rfl, hsum, hord, hmem⟩

/-- Settles O37: the lanes are those of `affLane`, `mixLane` and `cndLane`, the numbers those of `momLane`, `qntLane` and `cdfLane`,
each by its own lemmas. -/
theorem distMapsAndReads : Obligations.DistMapsAndReads := by
  refine ⟨⟨fun o s hs => (yieldsDist_daff o s hs).mono fun k l x fl h => ⟨fun hnum hneg => ?affNeg, fun hpos hnum => ?aff⟩,
      fun o s hs => (yieldsDist_dmix o s hs).mono fun k l x fl h => ⟨fun hw => ?mixHeavy, fun hw => ?mix⟩,
      fun o s hs => (yieldsDist_dcnd o s hs).mono fun k l x fl h => ⟨fun hvoid => ?cndVoid, fun hlo hhi hkept => ?cnd⟩⟩,
    fun o s hs => ⟨_, _, exec_dmom o s hs, fun k l => ⟨fun hvoid => ?momVoid, fun v hpt hv => ?mom⟩⟩,
    fun o s hs => (yieldsLanes_dqnt o s hs).mono fun k l x fl h => ⟨fun hinv => ?qntInvalid,
      fun hp pre v w post ha hw hpre => ?qnt⟩,
    fun o s hs => (yieldsLanes_dcdf o s hs).mono fun k l x fl h => ⟨fun hinv => ?cdfInvalid, fun hx ha hsum => ?cdf⟩⟩
  case affNeg => exact void_of_eq (h.trans (affLane_below_zero hnum hneg))
  case aff => exact (congrArg (fun r => ptsOf r.1) h).trans (affLane_points hpos hnum)
  case mixHeavy => exact void_of_eq (h.trans (mixLane_heavy hw))
  case mix => exact h.trans (mixLane_eq hw)
  case cndVoid => exact void_of_eq (h.trans (cndLane_void hvoid))
  case cnd =>
    have hspec := cndLane_kept (not_or.mpr ⟨hlo, not_or.mpr ⟨hhi, hkept⟩⟩)
    rwa [← h] at hspec
  case momVoid =>
    simp only [vecOf_get, State.moments, momLane_void hvoid]
    exact ⟨by decide, trivial⟩
  case mom =>
    simp only [vecOf_get, State.moments, momLane_point hpt hv]
    refine ⟨rfl, fun n hn => ?_⟩
    have hspread : [v, 0, 0, 0].getD n.val 0 = 0 := by
      match n with
      | 0 => exact absurd rfl hn
      | 1 | 2 | 3 => rfl
    rw [hspread, val32_zero]
  case qntInvalid => exact Prod.mk.inj (h.trans (qntLane_invalid hinv))
  case qnt =>
    have hreach : reach (((s.fsrcI k o.ix 0 o.b).get l).toNat % 65536) 0 (ptsOf ((s.dreg k o.a 0).lanes.get l)) = some v := by
      rw [ha]
      exact reach_append (by rwa [Nat.zero_add]) (by rwa [Nat.zero_add])
    exact Prod.mk.inj (h.trans (qntLane_reach hp hreach))
  case cdfInvalid => exact Prod.mk.inj (h.trans (cdfLane_invalid hinv))
  case cdf =>
    obtain ⟨rfl, rfl⟩ := Prod.mk.inj (h.trans (cdfLane_eq hx ha))
    exact ⟨rfl, (BitVec.toNat_ofNat _ _).trans (Nat.mod_eq_of_lt ((filter_weights_le ..).trans_lt hsum))⟩

end Sys2Proof.Machine
end
